-- ==== Sys2Proof/Word.lean ====
section
/-!
DEFINITION. The words of the device: bytes, 32-bit and 64-bit words, and the generic sparse table that holds
everything the manual numbers (tiles, queues, pages, bytes of memory).
-/

namespace Sys2Proof

/-- One byte (R5: byte order is little-endian everywhere; the byte helpers are in Machine/Bytes.lean). -/
abbrev Byte := BitVec 8

/-- A 32-bit word: an FP32 code, a vector element, a scalar register. -/
abbrev W32 := BitVec 32

/-- A 64-bit word: a register of BAR0 or of a telemetry page, a generator state, an instruction. -/
abbrev W64 := BitVec 64

/-- A sparse table keyed by number. Its canonical form (Machine/Tab.lean, `Tab.wf`) has strictly rising keys. -/
abbrev Tab (α : Type) := List (Nat × α)

end Sys2Proof
end

