-- ==== Sys2Proof/Syntax.lean ====
section
/-!
DEFINITION. The commands of the device: one constructor of `Instr` for each row of spec/opcode_table.json.
A command brings what comes from outside the device's own state: register values, packets, frames, measured
quantities, and the outcome of physics (an error in a stored line, a test's finding). What the state itself
decides (which queue is granted, which node is dispatched) is no operand.
-/

namespace Sys2Proof

/-- What an error check finds in a protected memory of a unit (R89, R90, R137, R138, R157, R158). -/
inductive Ecc where
  | clean
  | corrected
  | uncorrectable
  deriving DecidableEq, Repr

/-- What has happened to the stored code word of a line when it is read (R274, R275): the bytes of the code word that hold other
bits than were written, each with the bits that differ, and whether they still do after the corrected line is written back (R289).
Bytes 0 to 63 are the data and 64 to 71 the check bytes of the code; on DDR5, 72 to 79 are the two CRCs. -/
structure LineErr where
  flips : List (Nat × Byte)
  stays : Bool
  deriving DecidableEq, Repr

/-- A code word as it was written. -/
def LineErr.clean : LineErr := { flips := [], stays := false }

/-- A request that waits at a DDR5 controller: its offset, its deadline tag in ns (R175) and the controller cycles it has waited
(R281). -/
structure MemReq where
  offset : Nat
  tag : Nat
  waited : Nat
  deriving DecidableEq, Repr

/-- What waits at a memory controller beside the request it serves: whether a refresh is due or under way, the request's own tag
and wait, and the other requests (R280, R281). -/
structure MemQueue where
  refresh : Bool
  tag : Nat
  waited : Nat
  others : List MemReq
  deriving DecidableEq, Repr

/-- Nothing else waits. -/
def MemQueue.alone : MemQueue := { refresh := false, tag := 0xFFFF, waited := 0, others := [] }

/-- What a hop's check bits find in a flit (R358), and whether the packet's CRC holds at its destination (R359). -/
inductive FlitErr where
  | clean
  | single
  | doubleHeader
  | doubleElsewhere
  | crc
  deriving DecidableEq, Repr

/-- The reference clocks of R21. -/
inductive RefClk where
  | sys | cxl | ddr | eth0 | eth1
  deriving DecidableEq, Repr

/-- The supply rails of R482 (VBATT is apart, R485). -/
inductive Rail where
  | p0 | p1 | p2 | p3 | px | hbm | qHbm | qDdr | serdes | io18
  deriving DecidableEq, Repr

/-- The two I3C targets: the main one and the second one of R417. -/
inductive I3cTarget where
  | main | second
  deriving DecidableEq, Repr

/-- A register field that has no behaviour of its own and can be written: BAR0 registers by the host (R229, R400),
the others by firmware (R156, R276, R279, R281, R282, R290, R292, R357, R366, R367, R393). -/
inductive Reg where
  /-- BAR0 at a byte offset, with the access width in bits -/
  | bar0 (offset width : Nat)
  | hbArb (stack : Nat)
  | mcRegion (ctrl entry half : Nat)
  | mcHash (ctrl k : Nat)
  | mcBucket (ctrl : Nat)
  | mcScrub (ctrl : Nat)
  | mcDdrCtl (chan : Nat)
  | mcDdrPd (chan : Nat)
  | ntRoute (part : Nat)
  | ntReg (cluster port cls : Nat)
  | ntCrc
  | ntProbe (cluster : Nat)
  | epCfg (port : Nat)
  deriving DecidableEq, Repr

/-- The ACLK cycles of a partner's stall on one stream, by the state of the line it awaited (R177). -/
structure StallBy where
  xlate : Nat
  arb : Nat
  credit : Nat
  bank : Nat
  upstream : Nat
  deriving DecidableEq, Repr

/-- What the issue of one vector instruction brings with it: the tile (2i + v), whether it issued in the cycle of the
instruction before it (R117), the cycles it was held by each cause of R137, its stalls by stream context (R177), and what the
checks of the register files and of the LDM find (R137, R138). -/
structure VIssue where
  tile : Nat
  paired : Bool
  dep : Nat
  stream : Nat
  sram : Nat
  sfu : Nat
  cap : Nat
  waits : List (Nat × StallBy)
  ecc : Ecc
  deriving DecidableEq, Repr

/-- Operations of class VA (R116). -/
inductive VaOp where
  | add | sub | mul | fma | fms | min | max | abs | neg
  | eq | ne | lt | le | gt | ge
  | undef
  deriving DecidableEq, Repr

/-- Operations of class VI (R116). -/
inductive ViOp where
  | add | sub | mullo | shl | shr | sar | and | or | xor
  | eq | ne | lt | le | ltu | leu
  | undef
  deriving DecidableEq, Repr

/-- Special functions of class VF (R125). -/
inductive SFn where
  | rcp | rsqrt | sqrt | exp2 | exp | log2 | ln | tanh | sigmoid | erf | sin | cos
  | undef
  deriving DecidableEq, Repr

/-- The reductions `VRSUM`, `VRMAX` and `VRMIN` of R124. -/
inductive VrOp where
  | sum | max | min
  | undef
  deriving DecidableEq, Repr

/-- Operations of class SC (R116): integer and FP32 scalar operations, LDM accesses, moves between s and a. -/
inductive ScOp where
  | iadd | isub | imullo | shl | shr | sar | and | or | xor
  | fadd | fsub | fmul | fma | fmin | fmax
  | movImm (imm : W32)
  | load (offset : Nat)
  | store (offset : Nat)
  | sFromA (a : Nat)
  | aFromS (a : Nat)
  | undef
  deriving DecidableEq, Repr

/-- Operations of class PR (R116). -/
inductive PrOp where
  | and | or | xor | not | mov
  | fromCount
  | undef
  deriving DecidableEq, Repr

/-- The value an `AMOV` writes into an address register. -/
inductive AVal where
  | imm (offset : Nat)
  | scalar (s : Nat)
  deriving DecidableEq, Repr

/-- The condition of a `BR`. -/
inductive BrCond where
  | always
  | zero (s : Nat)
  | nonzero (s : Nat)
  | anyTrue (p : Nat)
  | allFalse (p : Nat)
  deriving DecidableEq, Repr

/-- An external request that claims a pseudo-channel's slot: its number, the ns that its deadline tag leaves, the HCLK cycles it has
waited, and its bank (R155, R280). -/
structure ExtReq where
  id : Nat
  tag : Nat
  waited : Nat
  bank : Nat
  deriving DecidableEq, Repr

/-- A hearth claim: its bank, whether the MAC array waits for the line, and whether it is a result line (R155, R157). -/
structure HearthReq where
  bank : Nat
  starved : Bool
  out : Bool
  deriving DecidableEq, Repr

/-- The claims on a pseudo-channel's slot in one HCLK cycle: a refresh that is due, whether the bank refreshed last is still under
refresh, the external requests, and the hearth path's (R155, R280). -/
structure SlotClaims where
  refresh : Bool
  refreshing : Bool
  ext : List ExtReq
  hearth : Option HearthReq
  deriving DecidableEq, Repr

/-- How the run of a HEARTH node went: by engine, the corrected errors in XS and the accumulator SRAM, and the cycles that its result
lines waited for the controller port (R157); what happened to the lines it read, by offset in the stack (R289); and the engine whose
XS or accumulator SRAM was uncorrectable, if any (R158). -/
structure HearthEnd where
  corrected : List (Nat × Nat)
  outWait : List (Nat × Nat)
  lines : List (Nat × LineErr)
  bad : Option Nat
  deriving DecidableEq, Repr

/-- A Nimra packet as it arrives at a port (R378). -/
structure NPacket where
  ackValid : Bool
  ece : Bool
  last : Bool
  retx : Bool
  srcNode : Nat
  srcFlask : Nat
  dstNode : Nat
  dstFlask : Nat
  group : Nat
  rail : Nat
  psn : Nat
  ackPsn : Nat
  sack : W64
  seq : Nat
  op : Nat
  status : Nat
  offset : Nat
  msg : Nat
  idx : Nat
  count : Nat
  epoch : Nat
  /-- the IP header's ECN field reads CE (R381) -/
  ce : Bool
  /-- RS-FEC symbols corrected while its frame was received (R393) -/
  fec : Nat
  payload : List Byte
  deriving DecidableEq, Repr

/-- Why a received frame is dropped (R377). -/
inductive FrameDrop where
  /-- no Nimra frame for this port's address: PAUSE, PFC, another protocol or address -/
  | notNimra
  /-- its FCS, UDP checksum or Nimra CRC fails -/
  | crc
  deriving DecidableEq, Repr

/-- The physical layer a port agreed on (R370, R373). -/
inductive PhyMode where
  | g400
  | g200a
  | g200b
  deriving DecidableEq, Repr

/-- One lane's receiver after training (R371, `EP.LANE` of R393). -/
structure LaneEq where
  ctle : Nat
  tap1 : BitVec 8
  tap2 : BitVec 8
  tap3 : BitVec 8
  margin : Nat
  deriving DecidableEq, Repr

/-- An entry of the cumulative defect list (R432, R433). -/
structure Defect where
  kind : Nat
  source : Nat
  start : Nat
  place : Nat
  dimm : Nat
  deriving DecidableEq, Repr

/-- A DDR5 module (R293): an RDIMM of two 40-bit subchannels with ECC or another kind, its capacity in bytes, its package ranks, the
logical ranks of each (1 unless it is 3DS), and its DRAM width. -/
structure Dimm where
  rdimm : Bool
  ecc : Bool
  bytes : Nat
  ranks : Nat
  logical : Nat
  width : Nat
  deriving DecidableEq, Repr

/-- What the steps 2 to 7 of a start find (R423): the cores that pass their ROM self-test, the outcome of reading each
firmware image, the DIMMs fitted and how they train, the stacks that train, and the rails and sensors as they stand. -/
structure StartFindings where
  /-- management cores that pass ROM self-test -/
  cores : List Bool
  /-- the boot ROM, the black box, the I3C target and the sprue work (R4, R20) -/
  rom : Bool
  box : Bool
  i3c : Bool
  sprue : Bool
  /-- stacks that train -/
  stackOk : List Bool
  /-- the module of each DDR5 channel, as its SPD hub describes it (R293, R294) -/
  dimms : List (Option Dimm)
  /-- trained rate of each channel in MT/s: 6400, 5600, 4800; 0 when it fails -/
  dimmRate : List Nat
  dimmSerial : List Nat
  /-- rails out of range when the steps that use them begin (R421) -/
  badRails : List Rail
  /-- every sensor reads 95 °C or less (R458) -/
  cool : Bool
  deriving DecidableEq, Repr

/-- What the read passes of the memory test find (R425, R426): failing lines of each controller, as byte offsets. -/
structure MemFindings where
  lines : List (Nat × Nat)
  deriving DecidableEq, Repr

/-- What cluster self-test and the PX self-tests find at steps 10 to 13 (R423, R433, R435, R437). -/
structure UnitFindings where
  sites : List Defect
  intake : Bool
  graph : Bool
  copyEng : Bool
  coll : Bool
  power : Bool
  /-- sequencers whose microcode fails its digest twice at step 11: logical cluster and tile, 0 to 3 M, 4 and 5 V, 6 L, 7 K (R437) -/
  microTiles : List (Nat × Nat)
  /-- hearth engines whose microcode does, 64 s + e -/
  microEngines : List Nat
  deriving DecidableEq, Repr

/-- What the controller measures of one partition over a control period (R450). -/
structure PartMeasure where
  /-- issue cycles by phase entry -/
  issue : List (Nat × Nat)
  /-- dynamic power of the partition scaled to point 15 and full duty, FP32 W -/
  pPart : W32
  pHearth : W32
  rate : W32
  /-- observed ratio of rate change to ACLK change, 0.16 fixed point -/
  fsens : Nat
  /-- hearth share of the issue cycles, 0.16 fixed point -/
  hShare : Nat
  /-- static power S_p, W -/
  static : Nat
  /-- partition power, W -/
  power : Nat
  deriving DecidableEq, Repr

/-- One 100 µs reading of every temperature sensor, in °C (R456). -/
structure Temps where
  clusters : List Int
  parts : List Int
  px : List Int
  hbm : List Int
  deriving DecidableEq, Repr

/-- The commands. One constructor for each row of spec/opcode_table.json, in the table's order.
`cid` is the acceptance number of an accepted command (R236). The operation of a vector instruction, and the registers, immediates and
addresses of LOOP, CSET, ABIND, AMOV, BR, CSR and the scalar class that R115 gives no field, are operands and not read from the
program word (DESIGN CHOICE, notes/assumptions/19.md). -/
inductive Instr where
  /-- `bad`, here and in the rows below that reach host memory: the host answers the request with an error (R407) -/
  | identify (cid : Nat) (bad : Bool)
  | queueCreate (cid : Nat)
  | queueDelete (cid : Nat)
  | flaskCreate (cid : Nat)
  | flaskDestroy (cid : Nat)
  | memMap (cid : Nat)
  | memMapRegion (cid : Nat)
  | memMapMigrate (cid : Nat)
  | memUnmap (cid : Nat)
  | memUnmapRegion (cid : Nat)
  | memFill (cid : Nat)
  | fwLoad (cid : Nat)
  | fwLoadShell (cid : Nat)
  | fwLoadProvisioning (cid : Nat)
  | mouldLoad (cid : Nat)
  | mouldLoadShell (cid : Nat)
  | mouldLoadKey (cid : Nat)
  | mouldUnload (cid : Nat)
  | patternRegister (cid : Nat)
  | patternRemove (cid : Nat)
  | resetTile (cid : Nat)
  | resetCluster (cid : Nat)
  | resetHearthEngine (cid : Nat)
  | resetPartition (cid : Nat)
  | resetDevice (cid : Nat)
  | resetComplete (cid : Nat)
  | powerCapSet (cid : Nat)
  | telemetryRead (cid : Nat) (bad : Bool)
  | blackboxRead (cid : Nat) (bad : Bool)
  | defectListRead (cid : Nat) (bad : Bool)
  | resourceClaim (cid : Nat)
  | resourceRelease (cid : Nat)
  | nodeConfig (cid : Nat)
  | portDisable (cid : Nat)
  | portEnable (cid : Nat)
  | retrain (cid : Nat)
  | groupCreate (cid : Nat)
  | groupDestroy (cid : Nat)
  | startMode (cid : Nat)
  | probeFilter (cid : Nat)
  | clusterTest (cid : Nat)
  | nop (cid : Nat)
  | heatSubmit (cid : Nat)
  | heatAbort (cid : Nat)
  | heatQuery (cid : Nat)
  | copy (cid : Nat)
  | copyPieceDone (cid : Nat) (bad : Bool)
  | fence (cid : Nat)
  | serveOpen (cid : Nat)
  | serveRequest (cid : Nat) (bad : Bool)
  | serveCancel (cid : Nat)
  | serveClose (cid : Nat)
  | aqCfgWrite (value : W64)
  /-- `host` holds the stores the host made to its own memory before it rang (R231, R233) -/
  | sqDoorbell (width : Nat) (value : W64) (host : List (Nat × List Byte))
  | cqDoorbell (width : Nat) (value : W64)
  | registerWrite (reg : Reg) (value : W64)
  /-- `bad`: the host answers the read of the slot with an error (R407) -/
  | intakeFetch (bad : Bool)
  | packetAccept (qnum : Nat)
  | completionPost (cq : Nat) (bad : Bool)
  | deviceEventPost (bad : Bool)
  | commandTimeout (cid : Nat)
  | heatLoadBegin (flask : Nat)
  | flaskMemoryReadDone (fault : Nat)
  | nodeDispatch
  | hearthDispatchResume (fault : Nat)
  | hostSignal (flask heat node : Nat) (bad : Bool)
  /-- `bad`: the node table entry is uncorrectable when the graph engine reads it (R225) -/
  | nodeComplete (flask heat node : Nat) (bad : Bool)
  | nodeRecordWrite (flask heat node : Nat) (bad : Bool)
  | heatComplete (flask heat : Nat)
  /-- `arrival`: in the same cycle the node's last output or record is written, or bytes that it awaits arrive (R91, R138, R184) -/
  | nodeTimeout (flask heat node : Nat) (arrival : Bool)
  | heatTimeout (flask heat : Nat)
  | readyAgeing (flask heat node : Nat)
  /-- `ecc`: what the checks of the register files and of the LDM find as the context is saved (R138) -/
  | vectorPreempt (tile : Nat) (ecc : Ecc)
  | vectorResume (tile : Nat)
  | matrixNodeStart (cluster : Nat)
  | weightLoadDone (tile : Nat)
  /-- `loop`: cycles beyond R85 that the row's pass waited for L (R89) -/
  | rowCycle (tile : Nat) (ecc : Ecc) (loop : Nat)
  /-- `gap`: the predicted cycles before the tile's next row cycle (R86) -/
  | activityLevelStep (tile gap : Nat)
  /-- `cycles`: how long the hold lasted; `planned`: the cycles of it that R85 counts in T; `waits`: the stall on each stream
  context that it waited for (R88, R89, R177) -/
  | tileHoldResume (tile cycles planned : Nat) (waits : List (Nat × StallBy))
  | matrixNodeEnd (tile : Nat)
  | vectorNodeStart (cluster : Nat)
  | programFetchDone (tile : Nat)
  | vectorArithmetic (i : VIssue) (op : VaOp)
  | vectorInteger (i : VIssue) (op : ViOp)
  | specialFunction (i : VIssue) (fn : SFn)
  | vcvt (i : VIssue)
  | vrsum (i : VIssue) (op : VrOp)
  | vrmaxi (i : VIssue)
  | vperm (i : VIssue)
  | vbcast (i : VIssue)
  | vrand (i : VIssue)
  | vld (i : VIssue)
  | vst (i : VIssue)
  | scalarOp (i : VIssue) (op : ScOp)
  | cset (i : VIssue) (c base len space strm cluster : Nat)
  | abind (i : VIssue) (a c : Nat)
  | amov (i : VIssue) (a : Nat) (v : AVal)
  | predicateOp (i : VIssue) (op : PrOp)
  | loop (i : VIssue) (count body stages : Nat) (rot : Bool)
  | br (i : VIssue) (target : Nat) (cond : BrCond)
  /-- `write`: `VT.CVTCTL` takes the scalar register, otherwise the scalar register takes it -/
  | csr (i : VIssue) (write : Bool) (s : Nat)
  | yield (i : VIssue)
  | endProgram (i : VIssue)
  | hearthGangStart (stack : Nat)
  | hearthNodeEnd (stack run : Nat) (how : HearthEnd)
  | hearthEngineFail (stack engine : Nat)
  | hbmSlotGrant (stack pc : Nat) (claims : SlotClaims)
  | hbmRefresh (stack pc : Nat)
  | streamArm (cluster : Nat)
  /-- `rates`: by context, what its partner released or produced over the last 256 ACLK cycles, once they have passed since the
  partner's first access (R174) -/
  | ladleRequestIssue (cluster : Nat) (rates : List (Nat × Nat))
  /-- the answer to the outstanding request number `req`; `lost`: it is missing or fails its CRC (R182) -/
  | ladleResponse (cluster ctx req : Nat) (err : LineErr) (lost : Bool)
  /-- the partner of an armed stream that is user logic releases or produces bytes; `stall`: the stall that ends with it (R177) -/
  | partnerRelease (cluster ctx bytes : Nat) (stall : StallBy)
  | streamComplete (cluster ctx : Nat)
  | pageResident (flask va : Nat)
  | pageFaultService (fault : Nat)
  | faultPatienceExpiry (fault : Nat)
  /-- `bad`: the lines that the host returns with poison, as offsets in the page (R286) -/
  | pageMoveDone (flask va : Nat) (bad : List Nat)
  | memoryRead (ctrl offset : Nat) (err : LineErr) (q : MemQueue)
  | memoryWrite (ctrl offset : Nat) (data : List Byte) (q : MemQueue)
  | regionFillDone (cid : Nat)
  | memFillDone (cid : Nat)
  | scrubRead (ctrl : Nat) (err : LineErr)
  | ceBucketLeak (ctrl : Nat)
  | ddr5Refresh (chan rank bank : Nat)
  | ddr5RowIdleClose (chan bank : Nat)
  | ddr5PowerDown (chan rank : Nat)
  | ddr5SelfRefresh (chan rank : Nat)
  | dimmTemperatureRead (chan : Nat) (temp : Int)
  /-- one grant of the output `out` on `link` of a unit numbered as R366 numbers it: 0 to 3 north, east, south, west, 4 the local
  endpoints, and 5 + b bridge Bb; of a bridge, 5 and 6 its two sides in the order of R19 -/
  | flitForward (unit out link : Nat) (err : FlitErr)
  /-- the 50 µs wait of an outstanding request of the cluster router's port (R347): 9 to 12 with the tag of a fabric port's
  request, or 6 with the context of a ladle's oldest one; port 1 is the graph engine, with the tag of a dispatch to a port of the cluster -/
  | networkResponseTimeout (cluster port tag : Nat)
  | sinkBoundExpiry (port cls : Nat)
  | fclkLoss (port : Nat)
  | fabricPortEnable (port : Nat)
  | readRequest (port : Nat) (lines : List (Nat × Nat))
  | lineWrite (port va tag : Nat) (data : List Byte)
  | endpointMessage (port endpoint tag : Nat) (data : List Byte)
  | streamOutput (port ctx : Nat) (last : Bool) (data : List Byte)
  | fabricCompletion (port dtag word : Nat) (result : List Byte)
  /-- `waited`: NCLK cycles the flit waited at RX -/
  | fabricRxDeliver (port cls waited : Nat)
  | captureSample (cluster : Nat) (data : W64)
  | mouldLoadBegin
  | signatureVerified
  | imageRecord
  | pllLock (part pll : Nat)
  | lockWait
  | initEnd
  | writesOn
  | borderOpen
  /-- `portA`: the words of the access, 0 to 7, that port A meets in the cycle in which the window accesses them: whether it writes,
  and the data (R306, R308) -/
  | blockRamWindowAccess (addr : Nat) (write : Bool) (data : List Byte) (portA : List (Nat × Bool × W64))
  | vbattLost
  | anAgreement (port : Nat) (mode : PhyMode)
  | anRestart (port : Nat)
  | trainingDone (port : Nat) (lanes : List LaneEq)
  | trainingTimeout (port : Nat)
  | alignDone (port : Nat)
  | alignTimeout (port : Nat)
  | linkLoss (port words : Nat)
  | data (port : Nat) (p : NPacket)
  | ack (port : Nat) (p : NPacket) (rtt : Nat)
  | ready (port : Nat) (p : NPacket)
  | rnr (port : Nat) (p : NPacket)
  | nack (port : Nat) (p : NPacket)
  | abort (port : Nat) (p : NPacket)
  | probe (port : Nat) (p : NPacket)
  | ackTimer (port peer : Nat)
  | resendTimeout (port peer psn : Nat)
  | probeTimer (port : Nat)
  | reduceSegmentDone (group rank : Nat)
  | collectiveComplete (flask heat node : Nat)
  | decodeStep (loop : Nat)
  | prefillStep (loop : Nat)
  | stepComplete (loop : Nat) (prefill : Bool)
  | unpark (session : Nat) (bad : Bool)
  | cxlMemRead (hpa : Nat) (cacheable : Bool) (exclusive : Bool) (err : LineErr)
  | cxlMemWrite (hpa : Nat) (data : List Byte) (poison : Bool)
  | memWrPtl (hpa : Nat)
  | biRsp (line : Nat)
  | biTimeout (line : Nat)
  | hostSnoop (line : Nat)
  | hdmDecoderCommit (index base size dpa : Nat)
  /-- `perst`: by PERST_N, which stays asserted (21 R490) -/
  | cxlPortReset (perst : Bool)
  | cxlLinkUp (width rate : Nat)
  /-- `read`: the host has read the response that waited -/
  | doeRequest (bytes : Nat) (read : Bool)
  | doeAbort
  /-- the index that the discovery request asks for -/
  | doeDiscovery (index : Nat)
  | cdatRead (entry : Nat)
  | getVersion
  | getCapabilities
  | negotiateAlgorithms (rsaPss3072 sha256 : Bool)
  | getDigests
  | getCertificate (slot offset length : Nat)
  | challenge (slot : Nat) (nonce : List Byte)
  | getMeasurements (index : Nat) (sign : Bool) (nonce : List Byte)
  | spdmUnsupported (code : Nat)
  | entdaa (target : I3cTarget) (addr : Nat)
  | rstdaa (target : I3cTarget)
  | setnewda (target : I3cTarget) (addr : Nat)
  | getpid (target : I3cTarget)
  | getbcr (target : I3cTarget)
  | getdcr (target : I3cTarget)
  | getstatus (target : I3cTarget)
  | getmwl (target : I3cTarget)
  | setmwl (target : I3cTarget) (len : Nat)
  | getmrl (target : I3cTarget)
  | setmrl (target : I3cTarget) (len : Nat)
  | enec (target : I3cTarget)
  | disec (target : I3cTarget)
  | ident (target : I3cTarget) (frame : List Byte)
  | health (target : I3cTarget) (frame : List Byte)
  | capSet (target : I3cTarget) (frame : List Byte)
  | bbRead (target : I3cTarget) (frame : List Byte)
  | i3cReset (target : I3cTarget) (frame : List Byte)
  | i3cUnsupportedOp (target : I3cTarget) (frame : List Byte)
  | i3cResponseRead (target : I3cTarget)
  | coreHeartbeat (core : Nat)
  | heartbeatMiss (core : Nat)
  | powerOnResetRelease (found : StartFindings) (mem : MemFindings)
  | retentionPauseEnd (mem : MemFindings) (units : UnitFindings)
  | powerOnResetAssert
  | railOutOfRange (rail : Rail)
  | refclkDetected (ref : RefClk)
  | refclkMissing (ref : RefClk)
  | clusterFail (cluster cause : Nat)
  /-- `cmd`: the command of the flask that was accepted in the same cycle (R253) -/
  | flaskFault (flask : Nat) (cmd : Option Nat)
  | powerSample (watts : Nat)
  /-- `sample`: the power sample of the same cycle (R461) -/
  | controlPeriod (parts : List PartMeasure) (fixed : Nat) (sample : Option Nat)
  | regulatorSettled (part : Nat)
  /-- `ok`: the AVSBus transaction succeeded; the voltage read back in mV -/
  | avsReadback (part : Nat) (ok : Bool) (mv : Nat)
  | droopTrip (cluster : Nat)
  /-- `cycles`: stretched ACLK cycles since the trip -/
  | droopRecover (cluster cycles : Nat)
  | thermalSample (temps : Temps)
  | blackboxCommit
  | flashProgramDone (cid : Nat) (ok : Bool)
  | clusterTestDone (cid : Nat) (cause : Option Nat)
  | perstNRelease
  | receivedFrameDrop (port : Nat) (why : FrameDrop) (symbols words : Nat)
  | unassignedClass (i : VIssue)
  deriving DecidableEq, Repr

end Sys2Proof
end

