-- ==== Sys2Proof/Machine/Bytes.lean ====
section
/-!
DEFINITION. Byte order, bit fields and checksums (00 R5: little-endian everywhere).
-/

namespace Sys2Proof.Machine

/-- `n` little-endian bytes of a number (00 R5). -/
def leBytes : Nat → Nat → List Byte
  | 0, _ => []
  | n + 1, v => BitVec.ofNat 8 v :: leBytes n (v / 256)

/-- The number that little-endian bytes spell (00 R5). -/
def ofLe : List Byte → Nat
  | [] => 0
  | b :: t => b.toNat + 256 * ofLe t

/-- `n` bytes of a record from an offset, zeros beyond its end. -/
def slice (bs : List Byte) (off n : Nat) : List Byte :=
  let t := (bs.drop off).take n
  t ++ List.replicate (n - t.length) 0

/-- A field of `n` bytes at an offset of a record. -/
def fld (bs : List Byte) (off n : Nat) : Nat := ofLe ((bs.drop off).take n)

/-- Bits [hi:lo] of a number. -/
def bits (v hi lo : Nat) : Nat := (v >>> lo) % 2 ^ (hi + 1 - lo)

/-- A record's bytes [lo, hi] are all zero (00 R9). -/
def zeroIn (bs : List Byte) (lo hi : Nat) : Bool := ((bs.drop lo).take (hi + 1 - lo)).all (fun b => b == 0)

/-- Replace a number's bits [hi:lo]. -/
def setBits (v hi lo x : Nat) : Nat :=
  v - (bits v hi lo) <<< lo + (x % 2 ^ (hi + 1 - lo)) <<< lo

/-- Bytes laid over a record at an offset. -/
def overlay (bs : List Byte) (off : Nat) (x : List Byte) : List Byte :=
  (bs ++ List.replicate (off + x.length - bs.length) 0).take off ++ x ++ bs.drop (off + x.length)

/-- A record with zeros up to a length. -/
def padTo (n : Nat) (bs : List Byte) : List Byte := (bs ++ List.replicate (n - bs.length) 0).take n

/-- A two's-complement reading of `w` bits. -/
def sext (w v : Nat) : Int := if v < 2 ^ (w - 1) then (v : Int) else (v : Int) - 2 ^ w

/-- The two's-complement bits of an integer in `w` bits. -/
def ofInt (w : Nat) (z : Int) : Nat := (z % (2 ^ w : Int)).toNat

/-- One bit of a reflected CRC. -/
def crcStep (poly : Nat) (c : Nat) : Nat := if c % 2 = 1 then (c / 2) ^^^ poly else c / 2

/-- One byte of a reflected CRC. -/
def crcByte (poly : Nat) (c : Nat) (b : Byte) : Nat := (crcStep poly)^[8] (c ^^^ b.toNat)

/-- CRC-32 of IEEE 802.3 (20 R469; notes/assumptions/13.md). -/
def crc32 (bs : List Byte) : Nat := (bs.foldl (crcByte 0xEDB88320) 0xFFFFFFFF) ^^^ 0xFFFFFFFF

/-- Numbers [0, n). -/
def upto (n : Nat) : List Nat := List.range n

/-- 2^n divides a. -/
def aligned (a n : Nat) : Bool := a % n == 0

/-- The smallest multiple of n that is not below a. -/
def ceilTo (a n : Nat) : Nat := (a + n - 1) / n * n

/-- ceil(a ÷ b). -/
def ceilDiv (a b : Nat) : Nat := (a + b - 1) / b

end Sys2Proof.Machine
end

