-- ==== Sys2Proof/Machine/Crypto.lean ====
section
/-!
DEFINITION. The algorithms the manual names for images and firmware (14 R324, R326; 18 R427, R428): SHA-256, AES-256-GCM and
RSA-3072 PSS verification.
-/

namespace Sys2Proof.Machine

/-! ## Byte order of the standards -/

/-- n big-endian bytes of a number. -/
def beBytes (n v : Nat) : List Byte := (leBytes n v).reverse

/-- The number that big-endian bytes spell. -/
def ofBe (bs : List Byte) : Nat := ofLe bs.reverse

/-- Bytewise exclusive-or. -/
def xorBytes (a b : List Byte) : List Byte := List.zipWith (· ^^^ ·) a b

/-- Cut into blocks of n; the fuel is the length. -/
def blocksOf (n : Nat) : Nat → List Byte → List (List Byte)
  | 0, _ => []
  | fuel + 1, l => if l.isEmpty then [] else l.take n :: blocksOf n fuel (l.drop n)

/-! ## SHA-256 -/

def shaK : List W32 :=
  [0x428A2F98, 0x71374491, 0xB5C0FBCF, 0xE9B5DBA5, 0x3956C25B, 0x59F111F1, 0x923F82A4, 0xAB1C5ED5] ++
  [0xD807AA98, 0x12835B01, 0x243185BE, 0x550C7DC3, 0x72BE5D74, 0x80DEB1FE, 0x9BDC06A7, 0xC19BF174] ++
  [0xE49B69C1, 0xEFBE4786, 0x0FC19DC6, 0x240CA1CC, 0x2DE92C6F, 0x4A7484AA, 0x5CB0A9DC, 0x76F988DA] ++
  [0x983E5152, 0xA831C66D, 0xB00327C8, 0xBF597FC7, 0xC6E00BF3, 0xD5A79147, 0x06CA6351, 0x14292967] ++
  [0x27B70A85, 0x2E1B2138, 0x4D2C6DFC, 0x53380D13, 0x650A7354, 0x766A0ABB, 0x81C2C92E, 0x92722C85] ++
  [0xA2BFE8A1, 0xA81A664B, 0xC24B8B70, 0xC76C51A3, 0xD192E819, 0xD6990624, 0xF40E3585, 0x106AA070] ++
  [0x19A4C116, 0x1E376C08, 0x2748774C, 0x34B0BCB5, 0x391C0CB3, 0x4ED8AA4A, 0x5B9CCA4F, 0x682E6FF3] ++
  [0x748F82EE, 0x78A5636F, 0x84C87814, 0x8CC70208, 0x90BEFFFA, 0xA4506CEB, 0xBEF9A3F7, 0xC67178F2]

def shaInit : List W32 :=
  [0x6A09E667, 0xBB67AE85, 0x3C6EF372, 0xA54FF53A, 0x510E527F, 0x9B05688C, 0x1F83D9AB, 0x5BE0CD19]

/-- One round with constant k and schedule word w. -/
def shaRound (s : List W32) (k w : W32) : List W32 :=
  match s with
  | [a, b, c, d, e, f, g, h] =>
    let s1 := e.rotateRight 6 ^^^ e.rotateRight 11 ^^^ e.rotateRight 25
    let t1 := h + s1 + ((e &&& f) ^^^ (~~~e &&& g)) + k + w
    let s0 := a.rotateRight 2 ^^^ a.rotateRight 13 ^^^ a.rotateRight 22
    let t2 := s0 + ((a &&& b) ^^^ (a &&& c) ^^^ (b &&& c))
    [t1 + t2, a, b, c, d + t1, e, f, g]
  | s => s

/-- 64 rounds; the window holds the next 16 schedule words. -/
def shaRounds : List W32 → List W32 → List W32 → List W32
  | [], _, s => s
  | k :: ks, win, s =>
    let w (i : Nat) := win.getD i 0
    let s0 := (w 1).rotateRight 7 ^^^ (w 1).rotateRight 18 ^^^ (w 1 >>> 3)
    let s1 := (w 14).rotateRight 17 ^^^ (w 14).rotateRight 19 ^^^ (w 14 >>> 10)
    shaRounds ks (win.drop 1 ++ [w 0 + s0 + w 9 + s1]) (shaRound s k (w 0))

/-- One 64-byte block. -/
def shaBlock (h : List W32) (b : List Byte) : List W32 :=
  let win := (upto 16).map (fun i => BitVec.ofNat 32 (ofBe (slice b (4 * i) 4)))
  List.zipWith (· + ·) h (shaRounds shaK win h)

/-- SHA-256: 32 bytes. -/
def sha256 (m : List Byte) : List Byte :=
  let z := (119 - m.length % 64) % 64
  let p := m ++ 0x80 :: List.replicate z 0 ++ beBytes 8 (8 * m.length)
  ((blocksOf 64 p.length p).foldl shaBlock shaInit).flatMap (fun w => beBytes 4 w.toNat)

/-- A digest as the 256-bit field that holds its bytes in ascending order (00 R5). -/
def digest256 (m : List Byte) : BitVec 256 := BitVec.ofNat 256 (ofLe (sha256 m))

/-! ## AES-256 -/

/-- Double in GF(2^8). -/
def gfDouble (a : Byte) : Byte := (a <<< 1) ^^^ (if a.getLsbD 7 then 0x1B else 0)

/-- Product in GF(2^8), by the bits of b from the top. -/
def gfMul (a b : Byte) : Byte :=
  (upto 8).foldl (fun r i => gfDouble r ^^^ (if b.getLsbD (7 - i) then a else 0)) 0

/-- a^254, the inverse. -/
def gfInv (a : Byte) : Byte :=
  (upto 7).foldl (fun (x : Byte × Byte) _ => let s := gfMul x.1 x.1; (s, gfMul x.2 s)) (a, 1) |>.2

/-- The S-box. -/
def aesSub (a : Byte) : Byte :=
  let b := gfInv a
  b ^^^ b.rotateLeft 1 ^^^ b.rotateLeft 2 ^^^ b.rotateLeft 3 ^^^ b.rotateLeft 4 ^^^ 0x63

/-- The next word of the key schedule: i counts words from 8. -/
def aesNext (ws : List (List Byte)) (i : Nat) (rcon : Byte) : List Byte :=
  let t := ws.getLastD []
  let t := if i % 8 = 0 then
      match (t.rotateLeft 1).map aesSub with
      | b :: r => (b ^^^ rcon) :: r
      | [] => []
    else if i % 8 = 4 then t.map aesSub else t
  xorBytes (ws.getD (i - 8) []) t

/-- The 15 round keys of AES-256. -/
def aesKeys (key : List Byte) : List (List Byte) :=
  let w0 := (upto 8).map (fun i => slice key (4 * i) 4)
  let ws := ((upto 52).foldl (fun (x : List (List Byte) × Byte) j =>
    (x.1 ++ [aesNext x.1 (j + 8) x.2], if j % 8 = 0 then gfDouble x.2 else x.2)) (w0, 1)).1
  (upto 15).map (fun r => (slice (ws.flatten) (16 * r) 16))

/-- ShiftRows on a column-ordered state. -/
def aesShift (s : List Byte) : List Byte := (upto 16).map (fun i => s.getD ((i + 4 * (i % 4)) % 16) 0)

/-- MixColumns. -/
def aesMix (s : List Byte) : List Byte :=
  (upto 16).map (fun i =>
    let c := i / 4 * 4
    let b (k : Nat) := s.getD (c + (i + k) % 4) 0
    gfDouble (b 0) ^^^ (gfDouble (b 1) ^^^ b 1) ^^^ b 2 ^^^ b 3)

/-- Encrypt one block under its round keys. -/
def aesEnc (ks : List (List Byte)) (b : List Byte) : List Byte :=
  let k (r : Nat) := ks.getD r []
  let s := (upto 13).foldl (fun s r => xorBytes (aesMix (aesShift (s.map aesSub))) (k (r + 1))) (xorBytes b (k 0))
  xorBytes (aesShift (s.map aesSub)) (k 14)

/-! ## GCM -/

/-- Product in GF(2^128), bit 0 first. -/
def ghMul (x y : BitVec 128) : BitVec 128 :=
  ((upto 128).foldl (fun (zv : BitVec 128 × BitVec 128) i =>
    (if x.getMsbD i then zv.1 ^^^ zv.2 else zv.1,
     (zv.2 >>> 1) ^^^ (if zv.2.getLsbD 0 then (0xE1 : BitVec 128) <<< 120 else 0))) (0, y)).1

/-- A 16-byte block, zero-padded. -/
def ghBlock (b : List Byte) : BitVec 128 := BitVec.ofNat 128 (ofBe (padTo 16 b))

/-- GHASH of additional data and ciphertext. -/
def ghash (h : BitVec 128) (aad ct : List Byte) : BitVec 128 :=
  let bs := (blocksOf 16 aad.length aad ++ blocksOf 16 ct.length ct).map ghBlock ++
    [BitVec.ofNat 128 (8 * aad.length * 2 ^ 64 + 8 * ct.length)]
  bs.foldl (fun y b => ghMul (y ^^^ b) h) 0

/-- AES-256-GCM with a 96-bit nonce: the plaintext where the tag holds. -/
def gcmOpen (key nonce aad ct tag : List Byte) : Option (List Byte) :=
  let ks := aesKeys key
  let h := BitVec.ofNat 128 (ofBe (aesEnc ks (leBytes 16 0)))
  let t := xorBytes (beBytes 16 (ghash h aad ct).toNat) (aesEnc ks (nonce ++ beBytes 4 1))
  if t = tag then
    some (((blocksOf 16 ct.length ct).zipIdx).flatMap (fun x => xorBytes x.1 (aesEnc ks (nonce ++ beBytes 4 (x.2 + 2)))))
  else none

/-! ## RSA-3072 PSS with SHA-256, MGF1 and a 32-byte salt, public exponent 65,537 -/

/-- MGF1. -/
def mgf1 (seed : List Byte) (n : Nat) : List Byte :=
  ((upto ((n + 31) / 32)).flatMap (fun i => sha256 (seed ++ beBytes 4 i))).take n

/-- Modulus and signature are little-endian (14 R324, 00 R5). -/
def pssVerify (modulus sig msg : List Byte) : Bool :=
  let n := ofLe modulus
  let s := ofLe sig
  if n = 0 || n ≤ s then false else
  let em := beBytes 384 (((fun x => x * x % n)^[16] s) * s % n)
  let masked := em.take 351
  let h := slice em 351 32
  let db := (xorBytes masked (mgf1 h 351)).mapIdx (fun i b => if i = 0 then b &&& 0x7F else b)
  let salt := db.drop 319
  (em.getD 383 0 == 0xBC) && !((em.getD 0 0).getLsbD 7) && (db.take 318).all (· == 0) && db.getD 318 0 == 1 &&
  sha256 (leBytes 8 0 ++ sha256 msg ++ salt) == h

end Sys2Proof.Machine
end

