-- ==== Sys2Proof/Machine/Float.lean ====
section
/-!
DEFINITION. The number formats of 02: decoding a code to its exact value, rounding an exact value to a code, scales,
conversion of one element (R31 to R54), and FP32 arithmetic.
-/

namespace Sys2Proof.Machine

/-- The formats of 02 R31. -/
inductive Fmt where
  | fp32 | bf16 | fp16 | e4m3 | e5m2 | ig4
  deriving DecidableEq, Repr

/-- The exact value of a code: NaN and infinity with their sign, or ±m × 2^e. Zero is m = 0 with its sign. -/
inductive FVal where
  | nan (neg : Bool)
  | inf (neg : Bool)
  | fin (neg : Bool) (m : Nat) (e : Int)
  deriving DecidableEq, Repr

/-- A number with fraction m × 2^e for a signed m. -/
abbrev Dyadic := Int × Int

/-- 02 R31 FMT. -/
def Fmt.ofNat? : Nat → Option Fmt
  | 0 => some .fp32 | 1 => some .bf16 | 2 => some .fp16 | 3 => some .e4m3 | 4 => some .e5m2 | 5 => some .ig4
  | _ => none

/-- Bits of a code. -/
def Fmt.width : Fmt → Nat
  | .fp32 => 32 | .bf16 => 16 | .fp16 => 16 | .e4m3 => 8 | .e5m2 => 8 | .ig4 => 4

/-- Mantissa bits of 02 R36; the IG4 grid of R34 is the grid of a one-bit mantissa. -/
def Fmt.mant : Fmt → Nat
  | .fp32 => 23 | .bf16 => 7 | .fp16 => 10 | .e4m3 => 3 | .e5m2 => 2 | .ig4 => 1

/-- Bias of 02 R36 (3 gives the grid of R34). -/
def Fmt.bias : Fmt → Int
  | .fp32 => 127 | .bf16 => 127 | .fp16 => 15 | .e4m3 => 7 | .e5m2 => 15 | .ig4 => 3

/-- Magnitude bits of the largest finite code (02 R34, R36 to R38). -/
def Fmt.maxIdx : Fmt → Nat
  | .fp32 => 0x7F7FFFFF | .bf16 => 0x7F7F | .fp16 => 0x7BFF | .e4m3 => 0x7E | .e5m2 => 0x7B | .ig4 => 7

/-- Infinity's magnitude bits where the format has one (02 R36). -/
def Fmt.infIdx : Fmt → Option Nat
  | .fp32 => some 0x7F800000 | .bf16 => some 0x7F80 | .fp16 => some 0x7C00 | .e5m2 => some 0x7C | .e4m3 => none
  | .ig4 => none

/-- The canonical NaN's magnitude bits (02 R39). -/
def Fmt.nanIdx : Fmt → Nat
  | .fp32 => 0x7FC00000 | .bf16 => 0x7FC0 | .fp16 => 0x7E00 | .e4m3 => 0x7F | .e5m2 => 0x7E | .ig4 => 8

/-- The format has subnormals and takes a flush bit (02 R45, R50): its bit in the conversion control word. -/
def Fmt.flushBit : Fmt → Option Nat
  | .fp32 => some 2 | .bf16 => some 3 | .fp16 => some 4 | .e4m3 => some 5 | .e5m2 => some 6 | .ig4 => none

/-- Significand and exponent of magnitude index k (02 R34, R36 to R38). -/
def Fmt.magnitude (f : Fmt) (k : Nat) : Nat × Int :=
  let E := k >>> f.mant
  let m := k % 2 ^ f.mant
  if E = 0 then (m, 1 - f.bias - f.mant) else (2 ^ f.mant + m, E - f.bias - f.mant)

/-- The threshold T of 02 R36: the largest finite magnitude plus half its unit in the last place. -/
def Fmt.threshold (f : Fmt) : Nat × Int :=
  let (m, e) := f.magnitude f.maxIdx
  (2 * m + 1, e - 1)

/-- a × 2^d < b × 2^e. -/
def dyLt (a : Nat) (d : Int) (b : Nat) (e : Int) : Bool :=
  let lo := min d e
  a <<< (d - lo).toNat < b <<< (e - lo).toNat

/-- Value of a code (02 R33 to R39). -/
def decodeCode (f : Fmt) (code : Nat) : FVal :=
  match f with
  | .ig4 =>
    let c := code % 16
    if c = 8 then .nan false
    else let (m, e) := f.magnitude (c % 8); .fin (8 < c) m e
  | _ =>
    let c := code % 2 ^ f.width
    let neg := c.testBit (f.width - 1)
    let k := c % 2 ^ (f.width - 1)
    if k ≤ f.maxIdx then let (m, e) := f.magnitude k; .fin neg m e
    else if f.infIdx = some k then .inf neg
    else .nan neg

/-- Code of a sign and a magnitude index; IG4 has no negative zero (02 R34, R50). -/
def codeOf (f : Fmt) (neg : Bool) (k : Nat) : Nat :=
  match f with
  | .ig4 => if k = 0 then 0 else if k = 8 then 8 else if neg then k % 8 + 8 else k % 8
  | _ => if neg then 2 ^ (f.width - 1) + k else k

/-- Where m × 2^e (m > 0) lies on the grid: the index at or below it, and the remainder over 2^d units. -/
def gridPos (f : Fmt) (m : Nat) (e : Int) : Nat × Nat × Nat :=
  let E := max ((m.log2 : Int) + e + f.bias) 1
  let u := E - f.bias - f.mant
  if u ≤ e then (((E - 1).toNat <<< f.mant) + m <<< (e - u).toNat, 0, 0)
  else
    let d := (u - e).toNat
    (((E - 1).toNat <<< f.mant) + m >>> d, m % 2 ^ d, d)

/-- Nearest index, ties to the even one (02 R46). -/
def nearestIdx (f : Fmt) (m : Nat) (e : Int) : Nat :=
  if m = 0 then 0 else
  let (k, r, d) := gridPos f m e
  if 2 * r > 2 ^ d then k + 1 else if 2 * r = 2 ^ d ∧ k % 2 = 1 then k + 1 else k

/-- Stochastic index with the random word u (02 R54). -/
def stochasticIdx (f : Fmt) (m : Nat) (e : Int) (u : Nat) : Nat :=
  if m = 0 then 0 else
  let (k, r, d) := gridPos f m e
  if f.maxIdx ≤ k then f.maxIdx
  else if u < r <<< 32 >>> d then k + 1 else k

/-- The magnitude is below the format's smallest normal (02 R36, R50). -/
def subnormalVal (f : Fmt) (m : Nat) (e : Int) : Bool := m ≠ 0 && f ≠ .ig4 && dyLt m e 1 (1 - f.bias)

/-- A code is a non-zero subnormal of its format. -/
def subnormalIdx (f : Fmt) (k : Nat) : Bool := k ≠ 0 && f ≠ .ig4 && k < 2 ^ f.mant

/-- What the conversion of one element gives (02 R53). -/
structure CvtOut where
  code : Nat
  flushed : Bool
  ovf : Bool
  unf : Bool
  deriving DecidableEq, Repr

/-- A flush bit of a conversion control word (02 R45). -/
def flushSet (cvt : BitVec 16) (f : Fmt) : Bool :=
  match f.flushBit with
  | some b => cvt.getLsbD b
  | none => false

/-- The target has infinities (02 R47, R48). -/
def takesInf (cvt : BitVec 16) (f : Fmt) : Bool :=
  match f with
  | .fp32 | .bf16 | .fp16 => true
  | .e5m2 => cvt.getLsbD 1
  | .e4m3 | .ig4 => false

/-- Infinity's code in the target, or the largest finite one (02 R47, R48). -/
def topCode (cvt : BitVec 16) (f : Fmt) (neg : Bool) : Nat :=
  codeOf f neg (if takesInf cvt f then f.infIdx.getD f.maxIdx else f.maxIdx)

/-- 02 R53: one element `x` of format `src` into `dst`. `r` is the reciprocal of the per-tensor scale, `e` the block
exponent, `u` the random word. -/
def convert (x : FVal) (src dst : Fmt) (cvt : BitVec 16) (r : Nat × Int) (e : Int) (u : Nat) : CvtOut :=
  match x with
  | .nan neg => ⟨codeOf dst neg dst.nanIdx, false, false, false⟩
  | .inf neg => ⟨topCode cvt dst neg, false, !takesInf cvt dst, false⟩
  | .fin neg m ex =>
    let fl := flushSet cvt src && subnormalVal src m ex
    if m = 0 || fl then ⟨codeOf dst neg 0, fl, false, false⟩
    else
      let qm := m * r.1
      let qe := ex + r.2 - e
      let (tm, te) := dst.threshold
      if !dyLt qm qe tm te then
        ⟨if dst = .e5m2 then topCode cvt dst neg else codeOf dst neg dst.maxIdx, false, true, false⟩
      else
        let k := if cvt.getLsbD 0 then stochasticIdx dst qm qe u else nearestIdx dst qm qe
        let fl := flushSet cvt dst && subnormalIdx dst k
        let k := if fl then 0 else k
        ⟨codeOf dst neg k, fl, false, k = 0⟩

/-! ## FP32 arithmetic -/

/-- The value of an FP32 word. -/
def f32 (w : W32) : FVal := decodeCode .fp32 w.toNat

/-- IEEE round to nearest even into a format with infinities: overflow gives infinity. -/
def roundIeee (f : Fmt) (neg : Bool) (m : Nat) (e : Int) : Nat :=
  let k := nearestIdx f m e
  codeOf f neg (if f.maxIdx < k then f.infIdx.getD f.maxIdx else k)

/-- FP32 word of an exact value, rounded to nearest even. -/
def f32OfDyadic (zeroNeg : Bool) (d : Dyadic) : W32 :=
  if d.1 = 0 then BitVec.ofNat 32 (codeOf .fp32 zeroNeg 0)
  else BitVec.ofNat 32 (roundIeee .fp32 (d.1 < 0) d.1.natAbs d.2)

/-- The canonical FP32 NaN (02 R39). -/
def f32Nan (neg : Bool) : W32 := BitVec.ofNat 32 (codeOf .fp32 neg Fmt.fp32.nanIdx)

/-- FP32 infinity. -/
def f32Inf (neg : Bool) : W32 := BitVec.ofNat 32 (codeOf .fp32 neg 0x7F800000)

/-- Exact signed value. -/
def dyOf (neg : Bool) (m : Nat) (e : Int) : Dyadic := (if neg then -(m : Int) else m, e)

/-- Exact sum. -/
def dyAdd (a b : Dyadic) : Dyadic :=
  let lo := min a.2 b.2
  (a.1 * 2 ^ (a.2 - lo).toNat + b.1 * 2 ^ (b.2 - lo).toNat, lo)

/-- Exact product. -/
def dyMul (a b : Dyadic) : Dyadic := (a.1 * b.1, a.2 + b.2)

/-- A finite FP32 word as a positive m × 2^e, where it is a positive normal (02 R41). -/
def posNormal? (w : W32) : Option (Nat × Int) :=
  match f32 w with
  | .fin false m e => if m = 0 || subnormalVal .fp32 m e then none else some (m, e)
  | _ => none

/-- Quotient of positive dyadics with enough bits and a sticky last bit, for one rounding. -/
def dyDiv (a : Nat) (d : Int) (b : Nat) (e : Int) : Nat × Int :=
  let n := a <<< 128
  (2 * (n / b) + (if n % b = 0 then 0 else 1), d - e - 129)

/-- The FP32 reciprocal of a per-tensor scale, rounded to nearest even (02 R42), as m × 2^e. -/
def recipScale (s : W32) : Nat × Int :=
  match posNormal? s with
  | some (m, e) =>
    let (q, qe) := dyDiv 1 0 m e
    let k := nearestIdx .fp32 q qe
    Fmt.fp32.magnitude k
  | none => (1, 0)

/-- The smallest integer e with a × 2^d < T × 2^e (02 R43, 04 R99). -/
def leastExp (f : Fmt) (a : Nat) (d : Int) : Int :=
  let (tm, te) := f.threshold
  let g := (a.log2 : Int) + d - ((tm.log2 : Int) + te)
  if dyLt a d tm (te + g) then g else g + 1

/-- The block exponent of a block whose largest scaled magnitude is a × 2^d (02 R43). -/
def blockExp (f : Fmt) (a : Nat) (d : Int) : Int :=
  if a = 0 then 0 else max (-127) (min 127 (leastExp f a d))

/-- Magnitude order of finite FP32 words: the bits below the sign. -/
def f32Mag (w : W32) : Nat := w.toNat % 2 ^ 31

/-- Sign bit. -/
def f32Neg (w : W32) : Bool := w.getLsbD 31

/-- NaN. -/
def f32IsNan (w : W32) : Bool := 0x7F800000 < f32Mag w

/-- Infinite. -/
def f32IsInf (w : W32) : Bool := f32Mag w = 0x7F800000

/-- Finite. -/
def f32IsFin (w : W32) : Bool := f32Mag w < 0x7F800000

/-- A total order key of the non-NaN words, with −0 = +0. -/
def f32Key (w : W32) : Int := if f32Neg w then -(f32Mag w : Int) else f32Mag w

/-- The number that FP32 word holds, rounded down to an integer (0 for NaN, infinity and negative values). -/
def f32Floor (w : W32) : Nat :=
  match f32 w with
  | .fin false m e => if 0 ≤ e then m <<< e.toNat else m >>> (-e).toNat
  | _ => 0

/-- FP32 word of a natural number. -/
def f32OfNat (n : Nat) : W32 := f32OfDyadic false ((n : Int), 0)

/-- FP32 word of an integer. -/
def f32OfInt (z : Int) : W32 := f32OfDyadic false (z, 0)

/-! ## Format bytes and stored tensors -/

/-- A format byte as accepted (02 R31, R32). -/
structure FmtByte where
  fmt : Fmt
  /-- SCALE 1 or 3 -/
  tensor : Bool
  /-- SCALE 2 or 3 -/
  block : Bool
  deriving DecidableEq, Repr

/-- 02 R32: the format byte, or the status it is rejected with (true: `ST_UNSUPPORTED`, false: `ST_INVALID`). A byte with a reserved
bit [7:6] set is reserved under R31 whatever its FMT, 0x6 to 0x9 too (DESIGN CHOICE, notes/assumptions/111.md). -/
def fmtByte (b : Nat) : Except Bool FmtByte :=
  let f := b % 16
  let sc := b / 16 % 4
  if 64 ≤ b then .error false
  else if 6 ≤ f && f ≤ 9 then .error true
  else match Fmt.ofNat? f with
    | none => .error false
    | some f =>
      let ok : Bool := match f with
        | .fp32 | .bf16 | .fp16 => sc == 0
        | .e4m3 | .e5m2 => true
        | .ig4 => decide (2 ≤ sc)
      if ok then .ok ⟨f, sc % 2 = 1, 2 ≤ sc⟩ else .error false

/-- Bytes of n consecutive elements (02 R33). -/
def Fmt.bytes (f : Fmt) (n : Nat) : Nat := (n * f.width + 7) / 8

/-- Element i of a packed array (02 R33). -/
def elemAt (f : Fmt) (bs : List Byte) (i : Nat) : Nat :=
  match f with
  | .fp32 => fld bs (4 * i) 4
  | .bf16 | .fp16 => fld bs (2 * i) 2
  | .e4m3 | .e5m2 => fld bs i 1
  | .ig4 => let b := fld bs (i / 2) 1; if i % 2 = 0 then b % 16 else b / 16

/-- Pack codes into bytes (02 R33). -/
def packCodes (f : Fmt) : List Nat → List Byte
  | [] => []
  | c :: t =>
    match f with
    | .fp32 => leBytes 4 c ++ packCodes f t
    | .bf16 | .fp16 => leBytes 2 c ++ packCodes f t
    | .e4m3 | .e5m2 => leBytes 1 c ++ packCodes f t
    | .ig4 =>
      match t with
      | [] => leBytes 1 (c % 16)
      | d :: t => leBytes 1 (c % 16 + 16 * (d % 16)) ++ packCodes f t

/-- An element under its block scale byte (02 R40): NaN when the byte is 0xFF, else its exact value. -/
def scaledElem (f : Fmt) (code : Nat) (scale : Option Nat) : FVal :=
  match scale with
  | none => decodeCode f code
  | some 0xFF =>
    match f with
    | .ig4 => .nan (code % 16 ≠ 8 && (code % 16).testBit 3)
    | _ => .nan (code.testBit (f.width - 1))
  | some b =>
    match decodeCode f code with
    | .fin n m e => .fin n m (e + ((b : Int) - 127))
    | v => v

/-- A format byte that a check has passed. -/
def fmtOr (b : Nat) : FmtByte := match fmtByte b with | .ok f => f | .error _ => ⟨.fp32, false, false⟩

end Sys2Proof.Machine
end

