-- ==== Sys2Proof/Config.lean ====
section
/-!
DEFINITION. What the manual leaves open: free values with no body, so that no proof can see one, and constants of the
implementation. Each is named in notes/assumptions/.
-/

namespace Sys2Proof.Config

/-- The n-th free choice of firmware (a page, a slot, a seed): any number (notes/assumptions/4.md). -/
opaque freeNat : Nat → Nat

/-- The n-th free byte: the contents the manual calls undefined (notes/assumptions/4.md). -/
opaque freeByte : Nat → Byte

/-- Result of a special function of 05 R125 for an FP32 operand, where the manual bounds it and does not fix its bits:
function number, operand code (notes/assumptions/10.md). -/
opaque sfn : Nat → W32 → W32

/-- The hash h of the load-balancing function of 16 R377, whose formula the manual does not give: source, destination
and salt (notes/assumptions/11.md). -/
opaque nimraHash : Nat → Nat → Nat → Nat

/-- The firmware key's SHA-256 in the boot ROM (18 R428) (notes/assumptions/12.md). -/
opaque romKeyHash : BitVec 256

/-- SPDM certificate chain bytes, and signatures over a transcript (17 R409, R410) (notes/assumptions/12.md). -/
opaque certChain : List Byte
opaque spdmSign : BitVec 256 → List Byte → List Byte

/-- The boot ROM's digest, block 1 of 17 R410 (notes/assumptions/12.md). -/
opaque romDigest : BitVec 256

/-- The 1,024-byte header of the shell image that the flash is delivered with (14 R339) (notes/assumptions/6.md). -/
opaque factoryShell : List Byte

/-- The device's stepping and its JTAG identity code (18 R429, 21) (notes/assumptions/12.md). -/
opaque stepping : Nat
opaque idcode : W32

/-- LANE_IDENT of a physical vector tile with its bad lanes, whose form the manual does not give (05 R135): physical tile number,
bad lanes (notes/assumptions/5.md). -/
opaque laneIdent : Nat → List Nat → W64

/-- The 9 check bits of a Hsiao word of 128 data bits, and the 8 of a word of 64, whose columns the manual does not give (12 R275, R291,
13 R305): width of the word, its data (notes/assumptions/121.md). -/
opaque hsiao : Nat → Nat → Nat

/-- What a Hsiao word with three or more flipped bits reads as (12 R275: may miss or miscorrect): the flipped bits; 0 for an error that
is detected, 1 for one that is missed, 2 + b where bit b is flipped as if it alone were wrong (notes/assumptions/121.md). -/
opaque hsiaoMiss : List Nat → Nat

/-- How 28 copies of a poison bit that split 14 to 14 read (12 R275; notes/assumptions/121.md). -/
opaque poisonTie : Bool

/-- The message number of 16 R378, which a sender chooses: group × 2^32 + SEQ, rank of the receiver, running number of the message
(notes/assumptions/39.md). -/
opaque msgNumber : Nat → Nat → Nat → Nat

/-- TAG of a ladle's request, by the request's number (15 R349: a requester's tag; the manual gives no values,
notes/assumptions/32.md). -/
opaque netTag : Nat → BitVec 16

/-- A logic frame sets a slice's shift-register mode (13 R302, 14 R330), whose place in the 1,024 payload bytes the manual does
not give (notes/assumptions/33.md). -/
opaque shiftMode : List Byte → Bool

/-- What the logic frames of a quarter say of one item: the 256 payloads in order, the kind of field, the item, and the field's number
(13 R298 to R307, 14 R325; notes/assumptions/122.md). -/
opaque ringField : List (List Byte) → Nat → Nat → Nat → Nat

/-- The sum bit and the carry out of a cell of a carry chain, from LF, LH, D0, D1 and the carry in: the manual gives the chain and not
its arithmetic (13 R298, R300; notes/assumptions/122.md). -/
opaque carrySum : Bool → Bool → Bool → Bool → Bool → Bool
opaque carryOut : Bool → Bool → Bool → Bool → Bool → Bool

end Sys2Proof.Config
end

