-- ==== Sys2Proof/Machine/State.lean ====
section
/-!
DEFINITION. The state of the device as plain data, and `State.reset`. Every field's comment ends with
[width; file and rule of spec/ that names it; reset value]. A `Tab` is sparse: a number that is not listed has the
unit's reset value (`<Type>.init` below), so an empty table is every unit at reset.
-/

namespace Sys2Proof.Machine

/-- Why a step could stop with a fault. No meaning of this model raises one: the manual gives every row an effect, and
an unprogrammed event leaves the state as it is (notes/assumptions/2.md). Safe: a fault would only stop the model. -/
inductive Fault where
  /-- Raised by nobody: the block has no undefined command. Safe. -/
  | noEffectGiven
  deriving DecidableEq, Repr

/-- Why a step could refuse a command. -/
inductive Refusal where
  /-- Raised by an arm of `exec` whose row has no meaning yet; no arm is one today. Safe: it only stops the model. -/
  | notModelled (mnemonic : String)
  deriving DecidableEq, Repr

/-! ## Statuses and small vocabularies -/

/-- The status codes of 10 R252. -/
inductive Stat where
  | ok | invalid | unsupported | busy | noResource | timeout | discarded | uncorrectable
  | stale | authFail | wrongDevice | truncated | notPresent | capFloor | degraded | pageTimeout
  deriving DecidableEq, Repr

/-- A unit in service, in reset, or failed (09 R209, 18 R439, R440). -/
inductive UnitSt where
  | ok | reset | failed
  deriving DecidableEq, Repr

/-- Where the bytes of a page lie (12 R283); MOVING is a page with a move in progress. -/
inductive PageSt where
  | hbm | ddr | host | outDdr | outHost
  deriving DecidableEq, Repr

/-- The tier that last held a page resident (12 R283). -/
inductive Tier where
  | hbm | ddr
  deriving DecidableEq, Repr

/-- 10 R230 STATE of a queue. -/
inductive QSt where
  | active | stopped | deleting
  deriving DecidableEq, Repr

/-- 09 R202. -/
inductive NodePhase where
  | waiting | ready | dispatched | suspended | done
  deriving DecidableEq, Repr

/-- HSTATE of 09 R216: loading, running, writing records before completion, held for node entries; and complete with a completion
that is not yet posted, until when the heat keeps its node entries (09 R212, R215). -/
inductive HeatPhase where
  | loading | running | ending | held | closing
  deriving DecidableEq, Repr

/-- 07 R162. -/
inductive CtxSt where
  | idle | filling | active | paused | ending
  deriving DecidableEq, Repr

/-- 14 R334. -/
inductive MouldSt where
  | loading | starting | running | isolated
  deriving DecidableEq, Repr

/-- 16 R372. -/
inductive PortSt where
  | disabled | an | training | align | active | fallback | down
  deriving DecidableEq, Repr

/-- 11 R263. -/
inductive SessSt where
  | idle | parked | prefill | ready | step | held
  deriving DecidableEq, Repr

/-- Where a start stands (18 R423): power-on reset asserted; stopped after step 5 for want of REFCLK_SYS; in the first or
second retention pause of step 8; ready; running the recovery program of R428; halted by a thermal shutdown with the management
cores alive; without a core or shut down from PX (R4, R458). -/
inductive BootPhase where
  | off | noRef | pause1 | pause2 | ready | recovery | halted | dead
  deriving DecidableEq, Repr

/-- DDR5 rank power states (12 R282). -/
inductive RankSt where
  | awake | powerDown | selfRefresh
  deriving DecidableEq, Repr

/-! ## Board, fuses, flash -/

/-- The board's side of the package (21). -/
structure Board where
  /-- rails out of range for 2 µs [10 flags; 21 R482, R484; reset none] -/
  badRails : List Rail
  /-- references detected [5 flags; 21 R488; reset none] -/
  refs : List RefClk
  /-- references that became missing in service, failed until the next start [5 flags; 21 R488; reset none] -/
  lostRefs : List RefClk
  /-- VBATT at 2.0 V or above [1; 21 R485; reset DESIGN CHOICE true, entry 7] -/
  vbattOk : Bool
  /-- PERST_N asserted [1; 21 R489, R490; reset true, the internal pull-down] -/
  perst : Bool
  /-- THERMTRIP_N asserted [1; 21 R490, 19 R458; reset false] -/
  thermtrip : Bool
  deriving DecidableEq, Repr

/-- The eFuse fields the manual names (14 R327, 18 R429). -/
structure Fuses where
  /-- [256; 14 R327; reset DESIGN CHOICE 0, entry 6] -/
  aesKey : BitVec 256
  /-- [1; 14 R327; reset DESIGN CHOICE 0, entry 6] -/
  aesKeySet : Bool
  /-- PK_HASH[0 to 3] [4 × 256; 14 R327; reset DESIGN CHOICE 0, entry 6] -/
  pkHash : List (BitVec 256)
  /-- [4; 14 R327; reset DESIGN CHOICE 0, entry 6] -/
  pkRevoked : BitVec 4
  /-- [1; 14 R327; reset DESIGN CHOICE 0, entry 6] -/
  encRequired : Bool
  /-- [1; 14 R327; reset DESIGN CHOICE 0, entry 6] -/
  batkeyDisable : Bool
  /-- [32; 14 R327; reset DESIGN CHOICE 0, entry 6] -/
  flashPrimary : W32
  /-- [32; 14 R327; reset DESIGN CHOICE 0, entry 6] -/
  flashGolden : W32
  /-- thermometer [64; 18 R429; reset DESIGN CHOICE 0, entry 6] -/
  fwSvn : W64
  /-- serial number, bit 31 is 0 [64; 18 R429; reset DESIGN CHOICE 0, entry 6] -/
  serial : W64
  /-- [15; 18 R429; reset DESIGN CHOICE 0, entry 6] -/
  mfrId : BitVec 15
  /-- [1; 18 R429; reset DESIGN CHOICE 0, entry 6] -/
  provLock : Bool
  /-- [256; 18 R429; reset DESIGN CHOICE 0, entry 6] -/
  deviceSecret : BitVec 256
  deriving DecidableEq, Repr

/-- A firmware region of the configuration flash (18 R427): what the boot core finds there. -/
structure FwRegion where
  /-- header, signature and hash of R428 hold [1; 18 R427, R428; reset DESIGN CHOICE true, entry 6] -/
  valid : Bool
  /-- VERSION of the header [32; 18 R427; reset DESIGN CHOICE 0, entry 6] -/
  version : W32
  /-- SVN of the header [7; 18 R427; reset DESIGN CHOICE 0, entry 6] -/
  svn : Nat
  /-- SHA-256 of the image, block 2 of 17 R410 [256; 18 R427; reset DESIGN CHOICE 0, entry 6] -/
  digest : BitVec 256
  deriving DecidableEq, Repr

/-- The configuration flash (18 R427, 14 R339). A shell region holds the factory's image, or the bytes of another. -/
structure Flash where
  /-- primary firmware [16 MiB; 18 R427; reset valid, entry 6] -/
  primaryFw : FwRegion
  /-- golden firmware [16 MiB; 18 R427; reset valid, entry 6] -/
  goldenFw : FwRegion
  /-- primary shell image; none is the factory's, which passes its checks [bytes; 14 R339; reset DESIGN CHOICE factory, entry 6] -/
  primaryShell : Option (List Byte)
  /-- golden shell image, likewise [bytes; 14 R339; reset DESIGN CHOICE factory, entry 6] -/
  goldenShell : Option (List Byte)
  /-- TARGET and bytes that a `FW_LOAD` is programming: the image as it was checked [bytes; 18 R430; reset none] -/
  writing : Option (Nat × List Byte)
  deriving DecidableEq, Repr

/-! ## Black box -/

/-- A control copy of the black box (20 R471). -/
structure BbControl where
  /-- [64; 20 R471; first copy 1] -/
  cseq : Nat
  /-- [32; 18 R425, 20 R471; 0 before the first start] -/
  startCount : Nat
  /-- START_MODE, true for quick [8; 18 R424, 20 R471; full on a new device] -/
  quick : Bool
  /-- sustained cap in W [32; 19 R454, 20 R471; 2,400 on a new device] -/
  cap : Nat
  /-- [32; 20 R470; 0] -/
  evtHint : Nat
  /-- [32; 20 R474; 0] -/
  evtLost : Nat
  /-- [32; 20 R473; 0] -/
  secLost : Nat
  /-- [32; 20 R473; 0] -/
  defectLost : Nat
  /-- FLAGS bit 0 [1; 20 R471; 0] -/
  secFull : Bool
  /-- FLAGS bit 1 [1; 20 R471; 0] -/
  defectFull : Bool
  /-- FLAGS bit 2 [1; 20 R471; 0] -/
  evtWrapped : Bool
  deriving DecidableEq, Repr

/-- A record that waits for its commit (20 R474). -/
structure BbRec where
  /-- TYPE of 20 R472 [8; 20 R467; none waiting] -/
  type : Nat
  /-- FLASK [8; 20 R467; none waiting] -/
  flask : Nat
  /-- BODY [48 bytes; 20 R467; none waiting] -/
  body : List Byte
  deriving DecidableEq, Repr

/-- The black box of 20: 16 MiB of MRAM, its writer's queue and the counters the writer works with. -/
structure BlackBox where
  /-- the MRAM's bytes [16 MiB; 20 R466; reset DESIGN CHOICE 0, a new device, entry 6] -/
  mram : Tab Byte
  /-- the control copy in force, none on a new device [256 bytes; 20 R471; reset none] -/
  ctl : Option BbControl
  /-- the next record's SEQ [64; 20 R469; reset 1] -/
  seq : Nat
  /-- committed defect-list entries [16; 20 R470; reset 0] -/
  defects : List Defect
  /-- records in the security log [15; 20 R470; reset 0] -/
  nSec : Nat
  /-- event-log slot of the next record [18; 20 R470; reset 0] -/
  evtSlot : Nat
  /-- records of the event log ever committed, for EVT_HINT [64; 20 R470; reset 0] -/
  nEvt : Nat
  /-- records waiting for commit, oldest first [4,096 records; 20 R474; reset empty] -/
  queue : List BbRec
  /-- the last START_BEGIN has no START_DONE with its START_COUNT [1; 18 R424, 20 R472; reset false] -/
  unfinished : Bool
  deriving DecidableEq, Repr

/-! ## Bring-up, sites, management cores -/

/-- The start and the service level (18). -/
structure Boot where
  /-- where the start stands [step; 18 R421, R423; reset power-on reset asserted] -/
  phase : BootPhase
  /-- the boot core [2; 18 R423; reset 0] -/
  bootCore : Nat
  /-- a quick start runs [1; 18 R424; reset full] -/
  quick : Bool
  /-- cause of START_BEGIN [8; 20 R472; reset 0 power-on] -/
  cause : Nat
  /-- running firmware, `CX.FW_VERSION` [32; 17 R401; reset 0 until bring-up] -/
  fwVersion : W32
  /-- digest of the running firmware [256; 17 R410; reset 0 until bring-up] -/
  fwDigest : BitVec 256
  /-- the golden firmware runs [1; 18 R428; reset false] -/
  golden : Bool
  /-- security version of the running firmware [32; 17 R410; reset 0] -/
  fwSvn : Nat
  /-- service level [2; 00 R4, 18 R435; reset 0] -/
  level : Nat
  /-- `QB.STATUS`.READY [1; 10 R229; reset 0] -/
  ready : Bool
  /-- a thermal shutdown is recorded since the last power-on [1; 17 R416; reset 0] -/
  shutdown : Bool
  /-- what the read passes of this start found so far [list; 18 R426; reset none] -/
  found : List (Nat × Nat)
  /-- what a start that waits for REFCLK_SYS found at its steps 2 to 8 [findings; 01 R25, 18 R423; reset none] -/
  held : Option (StartFindings × MemFindings)
  deriving DecidableEq, Repr

/-- One management core (17 R418, R419). -/
structure Core where
  /-- in service [1; 17 R419; reset true] -/
  healthy : Bool
  /-- time of its last heartbeat [64 ns; 17 R419; reset 0] -/
  beat : Nat
  deriving DecidableEq, Repr

def Core.init : Core := { healthy := true, beat := 0 }

/-- The cluster grid that a start fixes (01 R13 to R17). -/
structure Grid where
  /-- exposed logical rows of P0 to P3, min(H, 6) [4 × 3; 01 R16; reset 0] -/
  rows : List Nat
  /-- physical row of each exposed cluster, by window index [96 × 3; 01 R14; reset none] -/
  site : Tab Nat
  /-- clusters that failed in service [96; 01 R17; reset none] -/
  failed : List Nat
  /-- clusters in reset (18 R440) [96; 18 R440; reset none] -/
  inReset : List Nat
  /-- partitions in reset (18 R440) [4; 18 R440; reset none] -/
  partReset : List Nat
  deriving DecidableEq, Repr

/-! ## Queues and commands -/

/-- The work of an accepted command that goes on after its own row (10 R236). -/
inductive Work where
  /-- accepted, its row has not run -/
  | pending
  /-- a copy: pieces written so far in bytes (10 R249) -/
  | copy (done : Nat)
  /-- a region fill: controller, entry, and whether it deletes (12 R277) -/
  | region (ctrl entry : Nat) (del : Bool)
  /-- a MEM_FILL (12 R288) -/
  | fill
  /-- a migration: virtual pages still to move (12 R286) -/
  | migrate (todo : List Nat)
  /-- MEM_UNMAP that waits for pinned pages (12 R287) -/
  | unmap
  /-- a reset in progress (18 R439) -/
  | reset
  /-- POWER_CAP_SET waiting for its control period (19 R454) -/
  | cap
  /-- CLUSTER_TEST in progress (18 R438) -/
  | test
  /-- flash or fuses being programmed (18 R430) -/
  | flash
  /-- a load the sprue has queued or carries out (14 R338) -/
  | mould
  /-- a PORT command waiting for its ports (16 R384) -/
  | link
  /-- a heat that loads or runs (09 R214) -/
  | heat
  /-- a HEAT_SUBMIT held for node entries (09 R214) -/
  | heldHeat
  /-- HEAT_ABORT waiting for the heat's completion (09 R215) -/
  | abort
  /-- a FENCE waiting (10 R238) -/
  | fence
  /-- a SERVE_REQUEST in flight (11 R262) -/
  | serve (session : Nat)
  /-- SERVE_CANCEL or SERVE_CLOSE waiting for the request's final entry (11 R269) -/
  | sessEnd (session : Nat) (close : Bool)
  /-- QUEUE_DELETE waiting (10 R248) -/
  | qdel (qnum : Nat)
  /-- FLASK_DESTROY waiting in step 6 (09 R224) -/
  | destroy
  deriving DecidableEq, Repr

/-- An accepted, incomplete command (10 R234, R236). -/
structure Cmd where
  /-- acceptance number [64; 10 R236, R238; none] -/
  cid : Nat
  /-- queue that carried the packet [20; 10 R239; none] -/
  qnum : Nat
  /-- [8; 10 R234; none] -/
  opcode : Nat
  /-- FLAGS bit 1 [1; 10 R234; none] -/
  suppress : Bool
  /-- FLAGS bit 2 [1; 10 R234; none] -/
  intr : Bool
  /-- [16; 10 R234; none] -/
  tag : Nat
  /-- [8; 10 R234; none] -/
  flask : Nat
  /-- PRIORITY [8; 10 R234; none] -/
  prio : Nat
  /-- TIMEOUT in µs [32; 10 R234; none] -/
  timeout : Nat
  /-- the 48 parameter bytes [48 bytes; 10 R234; none] -/
  params : List Byte
  /-- acceptance time [64 ns; 10 R243; none] -/
  accTime : Nat
  work : Work
  deriving DecidableEq, Repr

/-- A completion entry before it is written (10 R239). -/
structure Entry where
  /-- acceptance number of its command; none for a device event or a token entry -/
  cid : Option Nat
  qnum : Nat
  tag : Nat
  stat : Stat
  opcode : Nat
  flask : Nat
  /-- RESULT, 16 bytes -/
  result : List Byte
  /-- the entry raises its queue's vector whatever its status (10 R241, 11 R266) -/
  intr : Bool
  deriving DecidableEq, Repr

/-- A queue pair: the context record of 10 R230, and what waits with it. -/
structure Queue where
  /-- [64; 10 R230; none] -/
  sqBase : Nat
  /-- [64; 10 R230; none] -/
  cqBase : Nat
  /-- [5; 10 R230; none] -/
  sqLog : Nat
  /-- [5; 10 R230; none] -/
  cqLog : Nat
  /-- [3; 10 R230; none] -/
  qclass : Nat
  /-- [3; 10 R230; none] -/
  st : QSt
  /-- [8; 10 R230; none] -/
  flask : Nat
  /-- MSIX and MSIX_EN [12; 10 R230; none] -/
  msix : Option Nat
  /-- CQ_OF [20; 10 R230; none] -/
  cqOf : Nat
  /-- PHASE of the queue's own CQ [1; 10 R240; 1 when created] -/
  phase : Bool
  /-- [16; 10 R230; 0 when created] -/
  sqHead : Nat
  /-- [16; 10 R230; 0 when created] -/
  sqTail : Nat
  /-- CQ_TAIL of the queue's own CQ [16; 10 R230; 0 when created] -/
  cqTail : Nat
  /-- CQ_HEAD of the queue's own CQ [16; 10 R230; 0 when created] -/
  cqHead : Nat
  /-- the packet fetched and held by FENCE [64 bytes; 10 R236; none] -/
  held : Option (List Byte)
  /-- completions waiting for the queue's own CQ, oldest first [list; 10 R240; empty] -/
  waiting : List Entry
  deriving DecidableEq, Repr

/-- A device event that waits for queue 0 (10 R242). -/
structure DevEvent where
  code : Nat
  stat : Stat
  byte1 : Nat
  data : Nat
  flask : Nat
  qnum : Nat
  deriving DecidableEq, Repr

/-- The Quibor block (10 R229 to R253). -/
structure Quibor where
  /-- [64; 10 R229; reset 0] -/
  aqSqBase : W64
  /-- [64; 10 R229; reset 0] -/
  aqCqBase : W64
  /-- `QB.AQ_CFG` SQ_LOG, CQ_LOG, ENABLE [32; 10 R229; reset 0] -/
  aqCfg : W32
  /-- [64; 10 R229; reset 0x0102_0404_0808_1020] -/
  wrr : W64
  /-- `QB.DB_DROP` [64; 10 R229; reset 0] -/
  dbDrop : Nat
  /-- `QB.EVT_LOST` [64; 10 R229; reset 0] -/
  evtLost : Nat
  /-- the queues that exist, by number [2^20 × 256; 10 R228, R230; reset none] -/
  queues : Tab Queue
  /-- class the round serves [3; 10 R237; reset 0] -/
  cls : Nat
  /-- grants that class has had in this round [8; 10 R237; reset 0] -/
  used : Nat
  /-- queue last granted in each class [8 × 20; 10 R237; reset DESIGN CHOICE 0, entry 8] -/
  last : Tab Nat
  /-- accepted, incomplete commands in acceptance order [65,536; 10 R236; reset none] -/
  cmds : List Cmd
  /-- the next acceptance number [64; 10 R236, R238; reset 1] -/
  nextCid : Nat
  /-- device events waiting, oldest first [256; 10 R242; reset none] -/
  events : List DevEvent
  /-- MSI-X table, 16 bytes an entry [2,048 × 128; 17 R400; reset PRESUMED every vector masked, entry 9] -/
  msixTable : Tab (BitVec 128)
  /-- MSI-X pending bits [2,048; 17 R400; reset 0] -/
  msixPending : List Nat
  /-- MSI-X messages sent, newest first: what the host sees [list; 10 R241; reset none] -/
  msixSent : List Nat
  deriving DecidableEq, Repr

/-! ## Flasks and pages -/

/-- A move of a page in progress: its new state, its new place, and the command that asked for it (12 R286). -/
structure PageMove where
  dst : PageSt
  pa : Nat
  cid : Option Nat
  deriving DecidableEq, Repr

/-- One page of a flask (12 R283, R284). -/
structure Page where
  /-- bytes: 2 MiB or 64 KiB [1; 12 R284; none] -/
  size : Nat
  /-- [3; 12 R283; none] -/
  st : PageSt
  /-- WRITE [1; 12 R284; none] -/
  write : Bool
  /-- where the bytes lie: device address, backing slot, or host address (HOST, OUT_HOST BACK) [48; 12 R283; none] -/
  pa : Nat
  /-- the tier that last held it resident [1; 12 R283; none] -/
  home : Tier
  /-- dispatched HEARTH nodes that pin it [8; 06 R152; none] -/
  pins : Nat
  /-- MOVING [1; 12 R283, R286; none] -/
  move : Option PageMove
  deriving DecidableEq, Repr

/-- A flask: its resource descriptor (09 R221), its state (09 R226) and its page table (12 R283). -/
structure Flask where
  /-- window indices [96; 09 R221; none] -/
  clusters : List Nat
  /-- engines as 64s + e [512; 09 R221; none] -/
  hearth : List Nat
  /-- [64; 09 R221; none] -/
  hbmQuota : Nat
  /-- [64; 09 R221; none] -/
  ddrQuota : Nat
  /-- [18; 09 R221; none] -/
  nodeQuota : Nat
  /-- [20; 09 R221; none] -/
  queueQuota : Nat
  /-- [8; 09 R221; none] -/
  phaseBase : Nat
  /-- [9; 09 R221; none] -/
  phaseCount : Nat
  /-- default fault patience in µs [32; 09 R221; none] -/
  patience : Nat
  /-- [1; 08 R189, 09 R221; none] -/
  nomix : Bool
  /-- FAULTED [1; 09 R226; none] -/
  faulted : Bool
  /-- steps 1 to 5 of FLASK_DESTROY stand [1; 09 R224; none] -/
  destroying : Bool
  /-- pages by virtual address [table; 12 R283; none] -/
  pages : Tab Page
  deriving DecidableEq, Repr

/-- Who waits for a page (07 R180, 09 R495, 09 R205, 06 R152, 10 R249, 14 R330, 13 R312). -/
inductive Waiter where
  | stream (ctx : Nat)
  | program (cluster heat node : Nat)
  | load (heat : Nat)
  | desc (heat node : Nat)
  | hearth (heat node : Nat)
  | record (heat node : Nat)
  | fetch (tile : Nat)
  | copy (cid : Nat)
  | image (cid : Nat)
  | port (port tag : Nat)
  | place (group rank : Nat)
  /-- a serving loop's own access to its areas: 4 × loop key, plus 0 for a decode step, 1 for a prefill step, 2 for an unpark, 3 for the
  sampling at a step's end -/
  | loop (key : Nat)
  deriving DecidableEq, Repr

/-- A page fault that waits (07 R180, R181). -/
structure PFault where
  id : Nat
  flask : Nat
  /-- the page's virtual address -/
  va : Nat
  who : Waiter
  /-- expiry of its patience, ns -/
  due : Nat
  /-- firmware has begun to bring the page back (12 R286) -/
  served : Bool
  deriving DecidableEq, Repr

/-! ## Conversion records -/

/-- What a converting node keeps for one output tensor (02 R56 to R59). -/
structure Conv where
  /-- [32, stops at its maximum; 02 R56; 0 at node start] -/
  ovf : Nat
  /-- [32, stops at its maximum; 02 R56; 0 at node start] -/
  unf : Nat
  /-- R57 [16; 02 R57; 0 at node start] -/
  flags : BitVec 16
  /-- R58, by bin [64 × 32; 02 R58; 0 at node start] -/
  hist : Tab Nat
  /-- [64; 02 R59; 0 at node start] -/
  elements : Nat
  /-- AMAX, FP32 [32; 02 R59; 0 at node start] -/
  amax : W32
  /-- [16; 02 R59; none at node start] -/
  eMax : Option Int
  /-- [16; 02 R59; none at node start] -/
  eMin : Option Int
  /-- SCALE_USED, FP32 [32; 02 R59; 1.0 at node start] -/
  scale : W32
  deriving DecidableEq, Repr

/-- 02 R56 to R59 at a node's start: nothing counted, SCALE_USED 1.0. -/
def Conv.init : Conv :=
  { ovf := 0, unf := 0, flags := 0, hist := [], elements := 0, amax := 0, eMax := none, eMin := none, scale := 0x3F800000 }

/-! ## Heats and patterns -/

/-- One node of a loaded heat: its entry (09 R199), its state (R202) and its record (R205). -/
structure Node where
  /-- CLASS [8; 09 R199; none] -/
  cls : Nat
  /-- PRED[0 to NPRED − 1] [8 × 17; 09 R199; none] -/
  preds : List Nat
  /-- PHASE [8; 09 R199; none] -/
  phaseKey : Nat
  /-- TARGET as a window index [96; 09 R199; none] -/
  target : Nat
  /-- ENDPOINT [16; 09 R199; none] -/
  endpoint : Nat
  /-- TIMEOUT in µs [32; 09 R199; none] -/
  timeout : Nat
  /-- DESC_ADDR [64; 09 R199; none] -/
  descAddr : Nat
  /-- AUX [64; 09 R199; none] -/
  aux : Nat
  /-- the STREAM descriptor's copy read at load; of a step heat's node, its instance of the descriptor (entry 31)
  [128 bytes; 09 R201, 11 R258; none] -/
  sdesc : List Byte
  /-- [3; 09 R202; WAITING] -/
  st : NodePhase
  /-- a HEARTH node's descriptor, scale and page list, read once at its dispatch check, while the dispatch is held [; 06 R151; none] -/
  held : Option (List Byte × W32 × List (Nat × Nat))
  /-- a STREAM node that has armed, having left the shadow [1; 09 R203; 0] -/
  armed : Bool
  /-- the unit has ended the node with this status, the graph engine has not processed it [16; 09 R203; none] -/
  ended : Option Stat
  /-- STATUS of the record [16; 09 R205; none until DONE] -/
  status : Option Stat
  /-- the record is written or dropped [1; 09 R205; 0] -/
  written : Bool
  /-- STALE [8; 04 R102; 0] -/
  stale : BitVec 8
  /-- CVT_FLAGS[0 to 3] [4 × 8; 09 R205; 0] -/
  cvt : List Byte
  /-- DETAIL [32; 09 R205; 0] -/
  detail : Nat
  /-- [16; 09 R205; 0] -/
  suspends : Nat
  /-- RESULT [16 bytes; 09 R205; 0] -/
  result : List Byte
  /-- when it became READY [64 ns; 09 R208; 0] -/
  readyAt : Nat
  /-- it counts as class 0 [1; 09 R208; 0] -/
  aged : Bool
  /-- START [64 ns; 09 R205; 0] -/
  start : Nat
  /-- END [64 ns; 09 R205; 0] -/
  finish : Nat
  deriving DecidableEq, Repr

/-- A heat in flight (09 R199 to R217). -/
structure Heat where
  /-- HEAT_ID [32; 09 R214; none] -/
  id : Nat
  /-- [8; 09 R214; none] -/
  flask : Nat
  /-- its command; none for a step heat of a serving loop -/
  cid : Option Nat
  /-- serving loop whose step it is, and whether it is a prefill (11 R264) -/
  loop : Option (Nat × Bool)
  /-- priority class [3; 09 R208; none] -/
  prio : Nat
  /-- order of acceptance [64; 09 R208; none] -/
  seq : Nat
  /-- acceptance time [64 ns; 09 R206; none] -/
  accTime : Nat
  /-- heat timeout in µs [32; 09 R214; none] -/
  timeout : Nat
  /-- NODES [18; 09 R214; none] -/
  count : Nat
  /-- NODE_ADDR [64; 09 R214; none] -/
  nodeAddr : Nat
  /-- RECORD_ADDR [64; 09 R214; none] -/
  recAddr : Nat
  /-- PATTERN [10; 09 R214; none] -/
  pattern : Option Nat
  /-- BIND_ADDR [64; 09 R214; none] -/
  bindAddr : Nat
  /-- [2; 09 R216; loading] -/
  phase : HeatPhase
  /-- the nodes, by index [131,072; 09 R202; none until loaded] -/
  nodes : List Node
  /-- how it ended: status and FIRST_NODE, once it has [48; 09 R213; none] -/
  verdict : Option (Stat × Nat)
  /-- first node to complete stale [18; 09 R213; none] -/
  firstStale : Option Nat
  deriving DecidableEq, Repr

/-- A registered pattern (09 R218). -/
structure Pattern where
  /-- [8; 09 R218; none] -/
  flask : Nat
  /-- [18; 09 R218; none] -/
  count : Nat
  /-- STORE_ADDR [64; 09 R218; none] -/
  store : Nat
  /-- [13; 09 R218; none] -/
  nslot : Nat
  /-- patches: node, descriptor word, slot [65,536; 09 R218; none] -/
  patches : List (Nat × Nat × Nat)
  deriving DecidableEq, Repr

/-- A node sent to a cluster controller or a base die, with the descriptor the graph engine read (09 R201, R207). -/
structure KEntry where
  heat : Nat
  node : Nat
  cls : Nat
  desc : List Byte
  /-- device phase-table entry, PHASE_BASE + k [8; 09 R220; none] -/
  phase : Nat
  deriving DecidableEq, Repr

/-- The graph engine (09). -/
structure Graph where
  /-- heats in flight, by flask × 2^33 + HEAT_ID (a step heat's number is 2^32 or more) [table; 09 R199; reset none] -/
  heats : Tab Heat
  /-- order number of the next accepted heat [64; 09 R208; reset 0] -/
  nextSeq : Nat
  /-- patterns, by number [1,024; 09 R218; reset none] -/
  patterns : Tab Pattern
  /-- nodes dispatched to each cluster controller and not started, in order [96 × 16; 09 R207; reset empty] -/
  kq : Tab (List KEntry)
  /-- next dispatch tag of a FABRIC node [32; 13 R316; reset 0] -/
  nextDtag : Nat
  deriving DecidableEq, Repr

/-! ## Ladles -/

/-- A line request that waits for its answer (07 R161, R165, R182). -/
structure LReq where
  id : Nat
  /-- it moves scale bytes -/
  scale : Bool
  /-- stream position of its first byte (of the scale sequence when `scale`) -/
  pos : Nat
  /-- bytes of the stream it carries -/
  len : Nat
  /-- device or host address of the line -/
  line : Nat
  /-- the line lies in host memory -/
  host : Bool
  /-- first byte within the line (reads) -/
  off : Nat
  /-- the 64 bytes to write; empty for a read -/
  data : List Byte
  /-- times it has been re-requested -/
  retry : Nat
  /-- the deadline tag, fixed at issue [16; 07 R175; none] -/
  dtag : Nat
  deriving DecidableEq, Repr

/-- The line that an output stream holds open (07 R166, R180): its address, the bytes it has taken, and the stream bytes that
they are. -/
structure OLine where
  line : Nat
  bytes : Tab Byte
  taken : Nat
  deriving DecidableEq, Repr

/-- The stall of a partner on a stream (07 R177 to R179). -/
structure Await where
  /-- stream position of the first byte or space awaited -/
  pos : Nat
  /-- it is the partner's first access: the first fill -/
  first : Bool
  /-- states that the awaited line has been in: 0 XLATE, 1 ARB, 2 CREDIT, 3 BANK, 4 UPSTREAM -/
  seen : List Nat
  deriving DecidableEq, Repr

/-- A checked stream program (07 R163, R164). -/
structure SProg where
  /-- per level: count, stride, and the coefficients of the bounded coordinates -/
  counts : List Nat
  strides : List Int
  /-- coefficient of level l in coordinate c, at 4 l + c -/
  coefs : Tab Int
  /-- per coordinate: origin, lo, hi -/
  bounds : Tab (Int × Int × Int)
  /-- U -/
  run : Nat
  deriving DecidableEq, Repr

/-- A stream: its node, descriptor and program, its position and its result (07 R165 to R172). -/
structure Stream where
  heat : Nat
  node : Nat
  /-- [128 bytes; 07 R168; none] -/
  desc : List Byte
  prog : SProg
  /-- input: bytes issued; output: bytes taken from the ring into lines or dropped [48; 07 R165; START] -/
  issued : Nat
  /-- scale bytes issued or taken [48; 07 R165; 0] -/
  issuedS : Nat
  /-- input: bytes released by the partner; output: bytes acknowledged [48; 07 R170; START] -/
  freed : Nat
  /-- the same for scale bytes -/
  freedS : Nat
  /-- output: bytes the partner has produced [48; 07 R170; START] -/
  made : Nat
  /-- output: scale bytes produced -/
  madeS : Nat
  /-- the open line of an output stream [64 bytes; 07 R166, R180; none] -/
  line : Option OLine
  /-- the open line of its scale bytes [64 bytes; 07 R166, R180; none] -/
  lineS : Option OLine
  /-- requests outstanding [256 a ladle; 07 R161; none] -/
  reqs : List LReq
  /-- the partner has touched the tundish [1; 07 R162; 0] -/
  touched : Bool
  /-- the partner is stalled on it [1 stall; 07 R174, R177; none] -/
  await : Option Await
  /-- BYTES, PAD_RUNS, RT_MISSES, FAULTS, EARLY_END [16 bytes; 07 R170; 0] -/
  bytes : Nat
  pads : Nat
  rtMiss : Nat
  faults : Nat
  early : Bool
  /-- the partner has gone beyond its last byte and fails with this status once it has completed [16; 07 R170; none] -/
  fate : Option Stat
  deriving DecidableEq, Repr

/-- The counters of 07 R183. -/
structure LdCounters where
  /-- 0x00 [64; 07 R183; reset 0] -/
  bytesIn : Nat
  /-- 0x08 [64; 07 R183; reset 0] -/
  bytesOut : Nat
  /-- 0x10 [64; 07 R183; reset 0] -/
  padBytes : Nat
  /-- 0x18 [64; 07 R183; reset 0] -/
  xlate : Nat
  /-- 0x20 [64; 07 R183; reset 0] -/
  arb : Nat
  /-- 0x28 [64; 07 R183; reset 0] -/
  credit : Nat
  /-- 0x30 [64; 07 R183; reset 0] -/
  bank : Nat
  /-- 0x38 [64; 07 R183; reset 0] -/
  upstream : Nat
  /-- 0x40 [64; 07 R183; reset 0] -/
  faults : Nat
  /-- 0x48 [64; 07 R183; reset 0] -/
  faultCycles : Nat
  /-- 0x50 [64; 07 R183; reset 0] -/
  rtMiss : Nat
  /-- 0x58 [64; 07 R183; reset 0] -/
  retry : Nat
  deriving DecidableEq, Repr

def LdCounters.init : LdCounters := ⟨0, 0, 0, 0, 0, 0, 0, 0, 0, 0, 0, 0⟩

/-- One stream context of a ladle (07 R162). -/
structure Ctx where
  /-- [3; 07 R162; reset IDLE] -/
  st : CtxSt
  /-- the state it left for PAUSED [3; 07 R162; reset IDLE] -/
  back : CtxSt
  /-- [1; 07 R162; reset none] -/
  cur : Option Stream
  /-- the shadow [1; 07 R172; reset empty] -/
  shadow : Option Stream
  /-- next request number [64; 07 R161; reset 0] -/
  nextReq : Nat
  /-- when it turned PAUSED [64 ns; 07 R180, R183; reset 0] -/
  pausedAt : Nat
  cnt : LdCounters
  deriving DecidableEq, Repr

def Ctx.init : Ctx := { st := .idle, back := .idle, cur := none, shadow := none, nextReq := 0, pausedAt := 0, cnt := .init }

/-! ## Matrix tiles -/

/-- One weight bank (03 R61, R67, R68). -/
structure Bank where
  /-- a node has loaded it since the last tile reset [1; 03 R68; reset 0] -/
  loaded : Bool
  /-- W_TAG [32; 03 R68; reset 0] -/
  tag : Nat
  /-- FMT_W [8; 03 R68; reset 0] -/
  fmt : Nat
  /-- stored rows of the block [9; 03 R68; reset 0] -/
  rows : Nat
  /-- elements in each stored row [9; 03 R68; reset 0] -/
  cols : Nat
  /-- codes as stored, row by row [32 KiB; 03 R61, R68; reset 0] -/
  codes : List Byte
  /-- block-scale bytes as stored [2 KiB; 03 R61, R68; reset 0] -/
  scales : List Byte
  /-- outlier weights of the pass [4 KiB; 03 R61, R81; reset 0] -/
  outl : List Byte
  deriving DecidableEq, Repr

def Bank.init : Bank := { loaded := false, tag := 0, fmt := 0, rows := 0, cols := 0, codes := [], scales := [], outl := [] }

/-- The counters of 03 R89. -/
structure MtCounters where
  /-- 0x00 [64; 03 R89; reset 0] -/
  rowIssue : Nat
  /-- 0x08 [64; 03 R89; reset 0] -/
  stripDummy : Nat
  /-- 0x10 [64; 03 R89; reset 0] -/
  stripGated : Nat
  /-- 0x18 [64; 03 R89; reset 0] -/
  holdOpnd : Nat
  /-- 0x20 [64; 03 R89; reset 0] -/
  holdWload : Nat
  /-- 0x28 [64; 03 R89; reset 0] -/
  holdLoop : Nat
  /-- 0x30 [64; 03 R89; reset 0] -/
  holdOut : Nat
  /-- 0x38 [64; 03 R89; reset 0] -/
  holdRamp : Nat
  /-- 0x40 [64; 03 R89; reset 0] -/
  holdCap : Nat
  /-- 0x48 [64; 03 R89; reset 0] -/
  resident : Nat
  /-- 0x50 [64; 03 R89; reset 0] -/
  eccCorr : Nat
  deriving DecidableEq, Repr

def MtCounters.init : MtCounters := ⟨0, 0, 0, 0, 0, 0, 0, 0, 0, 0, 0⟩

/-- Why a matrix tile holds (03 R86, R88, 19 R448). -/
inductive Hold where
  | opnd | wload | out | ramp | cap
  deriving DecidableEq, Repr

/-- A MATRIX node that runs on a tile (03 R70 to R80). -/
structure MxRun where
  heat : Nat
  node : Nat
  /-- the node's descriptor [128 bytes; 03 R70; none] -/
  desc : List Byte
  /-- S of the drain [32; 03 R80; none] -/
  s : W32
  /-- Y's per-tensor scale read at the start [32; 02 R41; none] -/
  sy : W32
  /-- pass counted over the node's items [32; 03 R74; 0] -/
  pass : Nat
  /-- row cycle within the pass [9; 03 R74; 0] -/
  row : Nat
  /-- passes whose block is loaded [32; 03 R67; 0] -/
  loads : Nat
  /-- stored rows of the next block that the loader has written [9; 03 R67; 0] -/
  loadRow : Nat
  /-- its streams as they were armed [list; 07 R170, 04 R100; none] -/
  streams : List Stream
  /-- it is the re-run of 04 R101 [1; 04 R101; 0] -/
  rerun : Bool
  /-- the first run's stale summary bits, before a re-run [8; 04 R102; 0] -/
  stale : BitVec 8
  /-- addresses of the scales that step 2 of 04 R101 wrote [list; 04 R101, R103; none] -/
  newScales : List Nat
  conv : Conv
  /-- the last row cycle has issued [1; 03 R80; 0] -/
  ended : Bool
  deriving DecidableEq, Repr

/-- A matrix tile (03). -/
structure MatrixTile where
  /-- [2; 03 R72, 18 R440; reset in service] -/
  st : UnitSt
  /-- activity level [5; 03 R86; reset 0] -/
  level : Nat
  /-- bank A [38 KiB; 03 R61; reset no record] -/
  bankA : Bank
  /-- bank B [38 KiB; 03 R61; reset no record] -/
  bankB : Bank
  /-- the most recently loaded bank is B [1; 03 R68; reset 0] -/
  lastB : Bool
  /-- accumulator buffer, entry 256 m + n [512 × 256 × 32; 03 R61; reset +0] -/
  acc : Tab W32
  /-- [1 node; 03 R74; reset none] -/
  run : Option MxRun
  /-- [3; 03 R88; reset none] -/
  hold : Option Hold
  /-- ACLK cycles of the hold whose strips are counted [32; 03 R86, R89; reset 0] -/
  held : Nat
  /-- ACLK cycle within the duty frame, by 64 [12; 19 R448; reset 0] -/
  frame : Nat
  cnt : MtCounters
  deriving DecidableEq, Repr

def MatrixTile.init : MatrixTile :=
  { st := .ok, level := 0, bankA := .init, bankB := .init, lastB := false, acc := [], run := none, hold := none, held := 0, frame := 0,
    cnt := .init }

/-! ## Vector tiles -/

/-- A circular-buffer descriptor (05 R110, R112). -/
structure CDesc where
  /-- [32; 05 R110; reset 0] -/
  base : Nat
  /-- [32; 05 R110; reset 256 KiB] -/
  len : Nat
  /-- [2; 05 R110; reset 0] -/
  space : Nat
  /-- stream context bound to it [8; 05 R112; reset none] -/
  strm : Option Nat
  /-- window index for SPACE 2 [96; 05 R110; reset 0] -/
  cluster : Nat
  deriving DecidableEq, Repr

def CDesc.init : CDesc := { base := 0, len := 262144, space := 0, strm := none, cluster := 0 }

/-- An address register: offset and binding (05 R107, R111). -/
structure AReg where
  /-- [28; 05 R107; reset 0] -/
  off : Nat
  /-- [3; 05 R107; reset 0] -/
  bind : Nat
  deriving DecidableEq, Repr

def AReg.init : AReg := { off := 0, bind := 0 }

/-- One level of the loop stack (05 R107, R113, R135). -/
structure LoopEnt where
  /-- [16; 05 R135; none] -/
  start : Nat
  /-- [16; 05 R135; none] -/
  body : Nat
  /-- [8; 05 R135; none] -/
  stages : Nat
  /-- [8; 05 R135; none] -/
  rot : Bool
  /-- trip count [32; 05 R135; none] -/
  trips : Nat
  /-- iteration [32; 05 R135; none] -/
  iter : Nat
  deriving DecidableEq, Repr

/-- A line assembler: the line it holds, its bytes and which of them are stored (05 R122, R134). -/
structure LineAsm where
  /-- device address of the held line [48; 05 R122; none] -/
  line : Nat
  /-- byte offset in the line and value of each stored byte [64 × 8 and mask; 05 R134; none] -/
  bytes : Tab Byte
  deriving DecidableEq, Repr

/-- One lane-mode generator: state and increment (08 R185, R194). -/
structure Gen where
  /-- [64; 08 R185; reset 0, set at node start] -/
  x : W64
  /-- [64; 08 R185; reset 0, set at node start] -/
  c : W64
  deriving DecidableEq, Repr

def Gen.init : Gen := { x := 0, c := 0 }

/-- The registers of 05 R137 (LANE_STATUS is `VectorTile.lanes`). -/
structure VtCounters where
  /-- 0x00 [64; 05 R137; reset 0] -/
  instr : Nat
  /-- 0x08 [64; 05 R137; reset 0] -/
  pair : Nat
  /-- 0x10 [64; 05 R137; reset 0] -/
  dep : Nat
  /-- 0x18 [64; 05 R137; reset 0] -/
  stream : Nat
  /-- 0x20 [64; 05 R137; reset 0] -/
  sram : Nat
  /-- 0x28 [64; 05 R137; reset 0] -/
  sfu : Nat
  /-- 0x30 [64; 05 R137; reset 0] -/
  cap : Nat
  /-- 0x38 [64; 05 R137; reset 0] -/
  ctxSave : Nat
  /-- 0x40 [64; 05 R137; reset 0] -/
  rekey : Nat
  /-- 0x48 [64; 05 R137; reset 0] -/
  eccCorr : Nat
  deriving DecidableEq, Repr

def VtCounters.init : VtCounters := ⟨0, 0, 0, 0, 0, 0, 0, 0, 0, 0⟩

/-- The VECTOR node that a tile runs or holds suspended (05 R126 to R128, R133). -/
structure VxRun where
  heat : Nat
  node : Nat
  /-- the node's descriptor [128 bytes; 05 R126; none] -/
  desc : List Byte
  /-- SEED [64; 05 R126, R135; none] -/
  seed : W64
  /-- Y_KEY[0 to 3] [4 × 32; 05 R126, R135; none] -/
  keys : List W32
  /-- per-tensor scales read at node start [4 × 32; 05 R135; none] -/
  scales : List W32
  /-- FMT_OUT[0 to 3] [4 × 8; 05 R135; none] -/
  fmts : List Nat
  /-- [8; 05 R126, R135; none] -/
  outN : Nat
  /-- [32; 05 R126, R135; none] -/
  ovfLimit : Nat
  /-- [32; 05 R126, R135; none] -/
  unfLimit : Nat
  /-- [8; 05 R126, R135; none] -/
  stalePol : Nat
  /-- PROG_ADDR [64; 05 R126, R135; none] -/
  progAddr : Nat
  /-- PROG_LEN [16; 05 R126, R135; none] -/
  progLen : Nat
  /-- slot records so far [4 × 320 bytes; 05 R134; none] -/
  slots : List Conv
  /-- program fetched and issue begun [1; 05 R128; 0] -/
  issuing : Bool
  /-- it was restored [1; 05 R129; 0] -/
  restored : Bool
  /-- it is a re-run [1; 05 R129; 0] -/
  rerun : Bool
  /-- the first run's stale summary bits [8; 04 R102; 0] -/
  stale : BitVec 8
  /-- its streams as they were armed [list; 07 R170, 04 R100; none] -/
  streams : List Stream
  /-- addresses of the scales that step 2 of 04 R101 wrote [list; 04 R101, R103; none] -/
  newScales : List Nat
  /-- lines of cluster SRAM that it has stored directly [list; 05 R122, R138; none] -/
  outs : List Nat
  /-- LDM bytes that it has stored [262,144; 05 R129, R138; none] -/
  ldmOut : List Nat
  /-- it has read LDM bytes that it had not stored [1; 05 R129; 0] -/
  ldmOld : Bool
  /-- start or last resume [64 ns; 09 R210; none] -/
  since : Nat
  /-- `END` was reached [1; 05 R128; 0] -/
  ended : Bool
  deriving DecidableEq, Repr

/-- A register that an instruction reads or writes (05 R117): v by physical index, s, p. -/
inductive VReg where
  | v (i : Nat)
  | s (i : Nat)
  | p (i : Nat)
  deriving DecidableEq, Repr

/-- A vector tile (05). -/
structure VectorTile where
  /-- [2; 05 R127, 18 R440; reset in service] -/
  st : UnitSt
  /-- v0 to v63 by physical index, element e of register r at 64 r + e [64 × 64 × 32; 05 R107; reset DESIGN CHOICE 0, entry 5] -/
  v : Tab W32
  /-- s0 to s31 [32 × 32; 05 R107; reset DESIGN CHOICE 0, entry 5] -/
  s : Tab W32
  /-- p0 to p7 [8 × 64; 05 R107; reset DESIGN CHOICE 0, entry 5] -/
  p : Tab W64
  /-- a0 to a15 [16 × 32; 05 R107; reset DESIGN CHOICE offset 0 bound to c0, entry 5] -/
  a : Tab AReg
  /-- c0 to c7 [8 × 16 bytes; 05 R107, R110; reset whole LDM] -/
  c : Tab CDesc
  /-- RRB [5; 05 R107; reset DESIGN CHOICE 0, entry 5] -/
  rrb : Nat
  /-- PC [12; 05 R107; reset DESIGN CHOICE 0, entry 5] -/
  pc : Nat
  /-- loop stack, innermost first [4 × 16 bytes; 05 R107; reset DESIGN CHOICE empty, entry 5] -/
  loops : List LoopEnt
  /-- `VT.CVTCTL` [16; 02 R45, 05 R107; reset 0] -/
  cvtctl : BitVec 16
  /-- instruction memory [4,096 × 64; 05 R104; reset DESIGN CHOICE empty, entry 5] -/
  imem : List W64
  /-- LDM [256 KiB; 05 R104; reset DESIGN CHOICE 0, entry 5] -/
  ldm : Tab Byte
  /-- line assemblers, by descriptor [8 × 128 bytes; 05 R122; reset none held] -/
  asm : Tab LineAsm
  /-- lane-mode generators, by logical element [64 × 128; 08 R194; reset DESIGN CHOICE 0, entry 5] -/
  gen : Tab Gen
  /-- LANE_IDENT [64; 05 R135; set by self-test, reset DESIGN CHOICE 0, entry 5] -/
  ident : W64
  /-- healthy lanes h of LANE_STATUS [7; 05 R130, R137; set by self-test, reset DESIGN CHOICE 68, entry 5] -/
  lanes : Nat
  /-- physical lanes that are not healthy: the lane map [68; 05 R130; set by self-test, reset DESIGN CHOICE none, entry 5] -/
  badLanes : List Nat
  /-- PC of a slot-A instruction that issued last, with the registers it writes: the first of a pair [; 05 R117; reset none] -/
  lastA : Option (Nat × List VReg)
  /-- flask, PROG_ADDR and PROG_LEN of the previous node; none after a reset or a start [; 05 R128; reset none] -/
  prev : Option (Nat × Nat × Nat)
  /-- [1 node; 05 R128; reset none] -/
  run : Option VxRun
  /-- node suspended on this tile, with its streams [1 node; 09 R210; reset none] -/
  susp : List VxRun
  cnt : VtCounters
  deriving DecidableEq, Repr

def VectorTile.init : VectorTile :=
  { st := .ok, v := [], s := [], p := [], a := [], c := [], rrb := 0, pc := 0, loops := [], cvtctl := 0, imem := [], ldm := [],
    asm := [], gen := [], ident := 0, lanes := 68, badLanes := [], lastA := none, prev := none, run := none, susp := [], cnt := .init }

/-! ## Hearth engines and base dies -/

/-- The registers of 06 R157. -/
structure Engine where
  /-- HE.STATUS [2; 06 R157; reset healthy, set by self-test] -/
  st : UnitSt
  /-- 0x00 [64; 06 R157; reset 0] -/
  linesRead : Nat
  /-- 0x08 [64; 06 R157; reset 0] -/
  macCycles : Nat
  /-- 0x10 [64; 06 R157; reset 0] -/
  waitSlot : Nat
  /-- 0x18 [64; 06 R157; reset 0] -/
  waitX : Nat
  /-- 0x20 [64; 06 R157; reset 0] -/
  waitGang : Nat
  /-- 0x28 [64; 06 R157; reset 0] -/
  waitOut : Nat
  /-- 0x30 [64; 06 R157; reset 0] -/
  nodes : Nat
  /-- 0x38 [64; 06 R157; reset 0] -/
  eccCorr : Nat
  /-- 0x40 [64; 06 R157; reset 0] -/
  slotHearth : Nat
  /-- 0x48 [64; 06 R157; reset 0] -/
  slotExt : Nat
  /-- 0x50 [64; 06 R157; reset 0] -/
  slotRefresh : Nat
  /-- accumulator SRAM, entry NE b + r: the values of its last node [4,096 × 32; 06 R140; reset DESIGN CHOICE 0, entry 8] -/
  acc : Tab W32
  /-- when its last node ended [64 ns; 06 R153; reset 0] -/
  freeAt : Nat
  deriving DecidableEq, Repr

def Engine.init : Engine := ⟨.ok, 0, 0, 0, 0, 0, 0, 0, 0, 0, 0, 0, [], 0⟩

/-- A HEARTH node queued at a base die or running (06 R152, R153). -/
structure HNode where
  heat : Nat
  node : Nat
  /-- [128 bytes; 06 R150; none] -/
  desc : List Byte
  /-- S read at the dispatch check [32; 06 R151; none] -/
  scale : W32
  /-- the page list read at dispatch: virtual address and V [4,096; 06 R150; none] -/
  pages : List (Nat × Nat)
  /-- pages pinned until completion [list; 06 R152; none] -/
  pinned : List Nat
  /-- the activations broadcast into XS at the gang start [384 KiB; 06 R140, R145; none] -/
  xs : List Byte
  /-- device phase-table entry, PHASE_BASE + k [8; 09 R220; none] -/
  phase : Nat
  /-- when it was dispatched [64 ns; 06 R153; none] -/
  since : Nat
  /-- its gang start [64 ns; 06 R154; none] -/
  begun : Nat
  deriving DecidableEq, Repr

/-- One pseudo-channel's arbitration (06 R155, 12 R280). -/
structure PChan where
  /-- HCLK cycle within the 16-cycle window [4; 06 R155; reset 0] -/
  cycle : Nat
  /-- slots granted to external requests in the window [4; 06 R155; reset 0] -/
  ext : Nat
  /-- bank refreshed next; the bank before it was refreshed last [4; 12 R280; reset DESIGN CHOICE 0, entry 8] -/
  bank : Nat
  /-- the external request that took the last slot, if one did [; 06 R155; reset none] -/
  granted : Option Nat
  deriving DecidableEq, Repr

def PChan.init : PChan := ⟨0, 0, 0, none⟩

/-- A base die (06). -/
structure BaseDie where
  /-- nodes dispatched and not started, in order [16; 06 R153; reset empty] -/
  queue : List HNode
  /-- nodes running, by run number [64; 06 R153; reset none] -/
  runs : Tab HNode
  /-- next run number [64; 06 R153; reset 0] -/
  nextRun : Nat
  /-- HB.ARB [32; 06 R156; reset 0x0010_2004] -/
  arb : W32
  /-- pseudo-channels [64; 06 R155; reset cycle 0] -/
  chans : Tab PChan
  deriving DecidableEq, Repr

def BaseDie.init : BaseDie := { queue := [], runs := [], nextRun := 0, arb := 0x00102004, chans := [] }

/-! ## Memory controllers -/

/-- A region entry (12 R276). -/
structure Region where
  /-- [1; 12 R276; reset 0] -/
  valid : Bool
  /-- CODE: LIGHT [2; 12 R276; reset 0] -/
  light : Bool
  /-- [1; 12 R276; reset 0] -/
  hearth : Bool
  /-- OWNER while OWNED is 1 [5; 12 R276; reset 0] -/
  owner : Option Nat
  /-- OWNER as it was written [4; 12 R276; reset 0] -/
  ownerReg : Nat
  /-- BASE in 2 MiB units [32; 12 R276; reset 0] -/
  base : Nat
  /-- LEN in 2 MiB units [32; 12 R276; reset 0] -/
  len : Nat
  deriving DecidableEq, Repr

def Region.init : Region := ⟨false, false, false, none, 0, 0, 0⟩

/-- A remap entry (12 R291); the held line's bytes are read at their own address in `State.mem`. -/
structure Remap where
  /-- [1; 12 R291; reset 0] -/
  valid : Bool
  /-- LINE, the byte offset [42; 12 R291; reset 0] -/
  line : Nat
  deriving DecidableEq, Repr

def Remap.init : Remap := ⟨false, 0⟩

/-- One bank of a DDR5 channel (12 R281). -/
structure DBank where
  /-- row open [1; 12 R281; reset closed] -/
  row : Option Nat
  /-- row last used [32; 12 R281; reset none] -/
  last : Option Nat
  /-- predictor [2; 12 R281; reset 2] -/
  ctr : Nat
  deriving DecidableEq, Repr

def DBank.init : DBank := ⟨none, none, 2⟩

/-- A memory controller (12 R273, R295): 0 to 7 the stacks, 8 to 19 the DDR5 channels. -/
structure MemCtl where
  /-- MC.TRAIN state 0 absent, 1 trained, 2 failed [2; 12 R295; reset 0] -/
  train : Nat
  /-- MC.TRAIN rate [8; 12 R295; reset 0] -/
  rate : Nat
  /-- trained capacity in bytes [GiB 16; 12 R295; reset 0] -/
  bytes : Nat
  /-- SPD serial of the module [32; 18 R432; reset 0] -/
  serial : Nat
  /-- ranks of the module, package and logical [4; 12 R279, R293; reset 0] -/
  nRanks : Nat
  /-- MC.REGION[0 to 31] [32 × 128; 12 R276; reset 0] -/
  regions : Tab Region
  /-- MC.HASH[0 to 15] [16 × 64; 12 R279; reset the defaults of R279] -/
  hash : Tab W64
  /-- MC.REMAP[0 to 7] [8 × 64; 12 R291; reset 0] -/
  remap : Tab Remap
  /-- MC.CE_BUCKET LEVEL [16; 12 R290; reset 0] -/
  level : Nat
  /-- THRESHOLD [8; 12 R290; reset 32] -/
  threshold : Nat
  /-- LEAK_MS [16; 12 R290; reset 1,000] -/
  leakMs : Nat
  /-- ARMED [1; 12 R290; reset 1] -/
  armed : Bool
  /-- MC.SCRUB INTERVAL [32; 12 R292; reset set at the start from the lines] -/
  interval : Nat
  /-- MC.SCRUB_POS [64; 12 R295; reset 0] -/
  scrubPos : Nat
  /-- MC.SCRUB_PASSES [64; 12 R295; reset 0] -/
  scrubPasses : Nat
  /-- MC.CE_COUNT [64; 12 R295; reset 0] -/
  ceCount : Nat
  /-- MC.UE_COUNT [64; 12 R295; reset 0] -/
  ueCount : Nat
  /-- MC.POISON_READ [64; 12 R295; reset 0] -/
  poisonRead : Nat
  /-- MC.FILL_BYTES [64; 12 R295; reset 0] -/
  fillBytes : Nat
  /-- MC.DDR_CTL [64; 12 R281; reset 0x0000_0400_01F4_0800] -/
  ddrCtl : W64
  /-- MC.DDR_PD [64; 12 R282; reset 0x03E8_0100] -/
  ddrPd : W64
  /-- the stack or the DIMM reports above 85 °C [1; 12 R280, R281; reset false] -/
  hot : Bool
  /-- DDR5 banks, 64 rank + the outputs of R279 [512; 12 R281; reset closed, counter 2] -/
  banks : Tab DBank
  /-- DDR5 ranks [8; 12 R282; reset awake] -/
  ranks : Tab RankSt
  /-- refreshes done [64; 12 R280, R281; reset 0] -/
  refreshes : Nat
  deriving DecidableEq, Repr

def MemCtl.init : MemCtl :=
  { train := 0, rate := 0, bytes := 0, serial := 0, nRanks := 0, regions := [], hash := [], remap := [], level := 0, threshold := 32,
    leakMs := 1000, armed := true, interval := 0, scrubPos := 0, scrubPasses := 0, ceCount := 0, ueCount := 0, poisonRead := 0,
    fillBytes := 0, ddrCtl := 0x0000040001F40800, ddrPd := 0x03E80100, hot := false, banks := [], ranks := [], refreshes := 0 }

/-! ## Network and fabric ports -/

/-- A flit of the network with the header of 15 R349. -/
structure Flit where
  cls : Nat
  vc : Nat
  first : Bool
  last : Bool
  retry : Nat
  bad : Bool
  dest : Nat
  /-- the source; of an RSP its requester's port of origin is not carried, and this is the STATUS -/
  src : Nat
  tag : Nat
  flask : Nat
  op : Nat
  /-- physical address of a line read or write -/
  addr : Nat
  /-- 64 payload bytes, empty for a REQ -/
  payload : List Byte
  deriving DecidableEq, Repr

/-- A flit in a router's input (15 R355): input 0 to 3 north, east, south, west, 4 local, and its link. -/
structure QFlit where
  inp : Nat
  link : Nat
  flit : Flit
  deriving DecidableEq, Repr

/-- A router, bridge or the crossbar (15 R366). -/
structure NetUnit where
  /-- NT.FLITS[0 to 3] [4 × 64; 15 R366; reset 0] -/
  flits : Tab Nat
  /-- 0x020 [64; 15 R366; reset 0] -/
  secCorr : Nat
  /-- 0x028 [64; 15 R366; reset 0] -/
  secUncorr : Nat
  /-- 0x030 [64; 15 R366; reset 0] -/
  crcFail : Nat
  /-- 0x038 [64; 15 R366; reset 0] -/
  absorbed : Nat
  /-- 0x040 [64; 15 R366; reset 0] -/
  creditStall : Nat
  /-- 0x048 [64; 15 R366; reset 0] -/
  regStall : Nat
  /-- 0x050 [64; 15 R366; reset 0] -/
  probeHits : Nat
  /-- NT.TRACE_WP byte offset [16; 15 R366; reset 0] -/
  traceWp : Nat
  /-- WRAPPED [1; 15 R366; reset 0] -/
  wrapped : Bool
  /-- NT.PROBE_CTL [64; 15 R367; reset 0x0000_2000_0000_0038] -/
  probeCtl : W64
  /-- NT.REG[0 to 13][0 to 3], 4 port + class [56 × 64; 15 R357; reset RATE 0 BURST 64] -/
  regs : Tab W64
  /-- tokens spent in 1/256 of a token since the bucket was full [56; 15 R357; reset 0] -/
  spent : Tab Nat
  /-- time of the last refill [64 ns; 15 R357; reset 0] -/
  refilled : Nat
  /-- input queues, 8 flits per class, channel and link [list; 15 R355; reset empty] -/
  inq : List QFlit
  /-- class granted last by each output [2; 15 R356; reset DESIGN CHOICE 3, entry 8] -/
  lastCls : Tab Nat
  /-- input granted last by each output [3; 15 R356; reset DESIGN CHOICE 4, entry 8] -/
  lastInp : Tab Nat
  /-- input whose packet holds an output channel from FIRST to LAST [9; 15 R356; reset none] -/
  held : Tab Nat
  deriving DecidableEq, Repr

def NetUnit.init : NetUnit :=
  { flits := [], secCorr := 0, secUncorr := 0, crcFail := 0, absorbed := 0, creditStall := 0, regStall := 0, probeHits := 0,
    traceWp := 0, wrapped := false, probeCtl := 0x0000200000000038, regs := [], spent := [], refilled := 0, inq := [],
    lastCls := [], lastInp := [], held := [] }

/-- The network: its units by the number of 15 R366 and the registers that exist once per partition or once. -/
structure Network where
  /-- [137 units; 15 R366; reset as NetUnit.init] -/
  units : Tab NetUnit
  /-- NT.ROUTE of gateway 0 of P0 to P3 [4 × 64; 15 R352, R366; reset 0x0040, 0x0010, 0x0004, 0x0001] -/
  routes : List W64
  /-- NT.CRC_CTL of the PX crossbar [4; 15 R359, R366; reset 0xF] -/
  crcCtl : BitVec 4
  /-- trace SRAMs, 65,536 i + offset [96 × 64 KiB; 15 R368; reset 0] -/
  trace : Tab Byte
  deriving DecidableEq, Repr

/-- A read line or write line of user logic that waits for its answer (13 R312). -/
structure PReq where
  tag : Nat
  va : Nat
  write : Bool
  retry : Nat
  flit : Flit
  deriving DecidableEq, Repr

/-- A fabric port (13 R311 to R321), by 4 i + q. -/
structure FPort where
  /-- PORT_EN [1; 13 R311; reset 0] -/
  en : Bool
  /-- FCLK present [1; 01 R24, 13 R321; reset 0] -/
  fclk : Bool
  /-- under reconfiguration [1; 13 R321; reset 0] -/
  reconf : Bool
  /-- disabled by a sink-bound breach [1; 13 R314; reset 0] -/
  breach : Bool
  /-- flask the port is registered to [8; 13 R321; reset none] -/
  flask : Option Nat
  /-- flits waiting at RX, in order [4 × 8; 13 R311; reset empty] -/
  rx : List Flit
  /-- flits accepted from TX and not yet injected, in order [4 × 8; 01 R22, 13 R311; reset empty] -/
  tx : List Flit
  /-- lines outstanding [256; 13 R312; reset none] -/
  outs : List PReq
  /-- FABRIC nodes outstanding: DTAG, heat, node [list; 13 R317; reset none] -/
  dtags : List (Nat × Nat × Nat)
  /-- DTAGs whose dispatch was dropped on its way, and which no response follows [list; 15 R358, R359, R360; reset none] -/
  lost : List Nat
  /-- 0x00 [64; 13 R321; reset 0] -/
  flitsTx : Nat
  /-- 0x08 [64; 13 R321; reset 0] -/
  flitsRx : Nat
  /-- 0x10 [64; 13 R321; reset 0] -/
  refused : Nat
  /-- 0x18 [64; 13 R321; reset 0] -/
  absorbed : Nat
  /-- 0x20 [64; 13 R321; reset 0] -/
  reads : Nat
  /-- 0x28 [64; 13 R321; reset 0] -/
  rspWaitMax : Nat
  /-- 0x30 [64; 13 R321; reset 0] -/
  nodes : Nat
  /-- 0x38 [64; 13 R321; reset 0] -/
  badDone : Nat
  /-- 0x40 [64; 13 R321; reset 0] -/
  clkLost : Nat
  /-- 0x48 [64; 13 R321; reset 0] -/
  capDrop : Nat
  deriving DecidableEq, Repr

def FPort.init : FPort :=
  { en := false, fclk := false, reconf := false, breach := false, flask := none, rx := [], tx := [], outs := [], dtags := [], lost := [], flitsTx := 0,
    flitsRx := 0, refused := 0, absorbed := 0, reads := 0, rspWaitMax := 0, nodes := 0, badDone := 0, clkLost := 0, capDrop := 0 }

/-! ## The sprue -/

/-- What a block RAM's port shows: the word it read last with COR and UNC, and its output register (13 R305 to R307). -/
structure BPort where
  /-- [72; 13 R306; set at the first read] -/
  word : Nat
  /-- [1; 13 R305; 0] -/
  cor : Bool
  /-- [1; 13 R305; 0] -/
  unc : Bool
  /-- output register: word, COR, UNC [74; 13 R307; its initial value] -/
  reg : Nat × Bool × Bool
  deriving DecidableEq, Repr

/-- A user-clock PLL (13 R310). -/
structure Pll where
  /-- F, 16.16 [32; 13 R309; none] -/
  f : Nat
  /-- D [16; 13 R309; none] -/
  d : Nat
  /-- [8; 13 R310; none] -/
  flask : Nat
  /-- [1; 13 R310; 0] -/
  locked : Bool
  /-- moulds that use it [list; 13 R310; none] -/
  users : List Nat
  deriving DecidableEq, Repr

/-- A mould (14 R332 to R337), by MOULD_ID = 4 i + q. -/
structure Mould where
  /-- [8; 14 R332; none] -/
  flask : Nat
  /-- window index [7; 14 R324; none] -/
  cluster : Nat
  /-- quarters held [4; 14 R324; none] -/
  quarters : List Nat
  /-- [2; 14 R334; none] -/
  st : MouldSt
  /-- endpoints: number, quarter [16; 14 R324; none] -/
  endpoints : List (Nat × Nat)
  /-- endpoints are registered [1; 13 R315; 0] -/
  registered : Bool
  /-- HOSTVIS [64; 14 R324; none] -/
  hostvis : W64
  /-- HOLD codes: output, output enable [2 × 2; 14 R336; none] -/
  holdOut : Nat
  holdOe : Nat
  /-- STARTUP: event, delay [4 × 32; 14 R337; none] -/
  startup : List (Nat × Nat)
  /-- entries of STARTUP performed [3; 14 R337; 0] -/
  pos : Nat
  /-- initial-state hold in force [1; 14 R337; 1] -/
  initHold : Bool
  /-- flip-flop and block-RAM writes enabled [1; 14 R337; 0] -/
  writesOn : Bool
  /-- the image's header, for 17 R410 [1,024 bytes; 14 R324; none] -/
  header : List Byte
  /-- the load it belongs to while it starts for the first time -/
  cid : Option Nat
  /-- reset command whose restart it is part of (18 R441) -/
  resetCid : Option Nat
  deriving DecidableEq, Repr

/-- Where a load stands (14 R338). -/
inductive LoadStep where
  | verify | records
  deriving DecidableEq, Repr

/-- The load the sprue carries out (14 R326, R338). -/
structure Load where
  cid : Nat
  /-- KIND [8; 14 R323; none] -/
  kind : Nat
  /-- ADDR [64; 14 R332; none] -/
  addr : Nat
  /-- [1,024 bytes; 14 R324; none] -/
  header : List Byte
  step : LoadStep
  /-- next SEQ [32; 14 R326; 1] -/
  seq : Nat
  /-- expected hash [256; 14 R326; FIRST_HASH] -/
  expect : BitVec 256
  /-- records written so far: quarter, FTYPE, FRAME [1,312; 14 R331; none] -/
  seen : List (Nat × Nat × Nat)
  /-- the key the load began with [256; 14 R340; none] -/
  key : BitVec 256
  /-- when the load began [64 ns; 14 R332; none] -/
  since : Nat
  deriving DecidableEq, Repr

/-- The sprue (14). -/
structure Sprue where
  /-- loads waiting, as acceptance numbers [list; 14 R338; reset empty] -/
  queue : List Nat
  /-- [1; 14 R338; reset none] -/
  cur : Option Load
  /-- moulds, by MOULD_ID [384; 14 R332; reset none] -/
  moulds : Tab Mould
  /-- configuration frames written, (((4 i + q) × 3 + FTYPE) × 256 + FRAME) [96 × 4 × 328 × 1 KiB; 14 R325, 13 R298; reset blank] -/
  frames : Tab (List Byte)
  /-- flip-flops and hop registers that no longer hold their initial value, 2^16 (4 i + q) + element (Q0 and Q1 of cell c at 2 c and
  2 c + 1, then the hop registers) [96 × 4 × 12,288 and the hops; 13 R298, R299, R303; reset initial values] -/
  ffs : Tab Bool
  /-- ports of block RAMs that have read, 2 (64 i + b) + port [96 × 64 × 2; 13 R306, R307; reset initial values] -/
  bports : Tab BPort
  /-- PLLs, 32 p + k [128; 13 R310; reset free] -/
  plls : Tab Pll
  /-- pin values held outside RUNNING: (output, enable) by cluster [96 × 2; 14 R336; reset 0] -/
  pins : Tab (Bool × Bool)
  /-- SHELL [2; 14 R341; reset 0] -/
  shell : Nat
  /-- header of the loaded shell [1,024 bytes; 17 R410; reset empty] -/
  shellHeader : List Byte
  /-- battery key valid [1; 14 R328; reset DESIGN CHOICE 0, entry 7] -/
  keyValid : Bool
  /-- battery key [256; 14 R328; reset DESIGN CHOICE 0, entry 7] -/
  batKey : BitVec 256
  /-- VBATT_LOST [1; 14 R341; reset 0] -/
  vbattLost : Bool
  /-- LOAD_ERR [16; 14 R341; reset 0] -/
  loadErr : Option Stat
  /-- MOULD_ID of that load [16; 14 R341; reset 0] -/
  errId : Nat
  /-- SPRUE.LOADS [64; 14 R341; reset 0] -/
  loads : Nat
  /-- SPRUE.FAILS [64; 14 R341; reset 0] -/
  fails : Nat
  /-- SPRUE.AUTH_FAILS [64; 14 R341; reset 0] -/
  authFails : Nat
  /-- SPRUE.BYTES [64; 14 R341; reset 0] -/
  bytes : Nat
  deriving DecidableEq, Repr

/-! ## Ethernet and Nimra -/

/-- An Ethernet port (16 R372, R393). -/
structure EPort where
  /-- [3; 16 R372; reset DISABLED] -/
  st : PortSt
  /-- EP.STATE 400G [1; 16 R393; reset 0] -/
  g400 : Bool
  /-- lanes trained [4; 16 R393; reset 0] -/
  lanes : Nat
  /-- attempt of R373, 0 to 5 [2; 16 R373, R393; reset 0] -/
  attempt : Nat
  /-- EP.CFG [32; 16 R393; reset 0xFF03_0000] -/
  cfg : W32
  /-- 0x10 [64; 16 R393; reset 0] -/
  txFrames : Nat
  /-- 0x18 [64; 16 R393; reset 0] -/
  rxFrames : Nat
  /-- 0x20 [64; 16 R393; reset 0] -/
  rxDrop : Nat
  /-- 0x28 [64; 16 R393; reset 0] -/
  crcFail : Nat
  /-- 0x30 [64; 16 R393; reset 0] -/
  fecCorr : Nat
  /-- 0x38 [64; 16 R393; reset 0] -/
  fecUncorr : Nat
  /-- 0x40 [64; 16 R393; reset 0] -/
  retx : Nat
  /-- 0x48 [64; 16 R393; reset 0] -/
  ecnCe : Nat
  /-- 0x50 [64; 16 R393; reset 0] -/
  linkDowns : Nat
  /-- 0x58 [64; 16 R393; reset 0] -/
  dupNode : Nat
  /-- EP.LANE[0 to 3] [4 × 44; 16 R393; reset 0] -/
  laneEq : List LaneEq
  deriving DecidableEq, Repr

def EPort.init : EPort :=
  { st := .disabled, g400 := false, lanes := 0, attempt := 0, cfg := 0xFF030000, txFrames := 0, rxFrames := 0, rxDrop := 0,
    crcFail := 0, fecCorr := 0, fecUncorr := 0, retx := 0, ecnCe := 0, linkDowns := 0, dupNode := 0, laneEq := [] }

/-- A packet sent and not yet acknowledged (16 R379, R380). -/
structure Sent where
  psn : Nat
  /-- TYPE of 16 R378 -/
  type : Nat
  pkt : NPacket
  sends : Nat
  /-- its timeout in µs -/
  rto : Nat
  /-- SACKs that reported a later PSN -/
  later : Nat
  deriving DecidableEq, Repr

/-- A peer entry of one port's engine (16 R379 to R381), by 4,096 n + node. -/
structure Peer where
  /-- next PSN sent [32; 16 R379; 0] -/
  snd : Nat
  /-- next PSN expected [32; 16 R379; 0] -/
  rcv : Nat
  /-- received beyond it: PSN rcv + 1 + i [63; 16 R379; 0] -/
  map : List Nat
  /-- congestion window [7; 16 R381; 16] -/
  cwnd : Nat
  /-- the window was halved in this round-trip time [1; 16 R381; 0] -/
  halved : Bool
  /-- smoothed round-trip time in ns [32; 16 R379; DESIGN CHOICE 0, entry 21] -/
  srtt : Nat
  /-- rail UP [1; 16 R380; 1] -/
  up : Bool
  /-- recorded epoch [32; 16 R379; none] -/
  epoch : Option Nat
  /-- ports the peer lists as ACTIVE in its READY packets [32; 16 R388; none seen] -/
  ports : Option W32
  /-- sent, unacknowledged [64; 16 R379; none] -/
  sent : List Sent
  /-- received packets not yet acknowledged [5; 16 R379; 0] -/
  owed : Nat
  /-- ECE to send on the next acknowledgement [1; 16 R381; 0] -/
  ece : Bool
  /-- a PROBE waits for its acknowledgement [1; 16 R380; 0] -/
  probing : Bool
  deriving DecidableEq, Repr

def Peer.init : Peer :=
  { snd := 0, rcv := 0, map := [], cwnd := 16, halved := false, srtt := 0, up := true, epoch := none, ports := none, sent := [],
    owed := 0, ece := false, probing := false }

/-- What a READY told of a peer (16 R388). -/
structure ReadyMsg where
  rank : Nat
  seq : Nat
  op : Nat
  bytes : Nat
  dtype : Nat
  redop : Nat
  deriving DecidableEq, Repr

/-- A collective group (16 R384 to R395). -/
structure Group where
  /-- [4; 16 R394; none] -/
  flask : Nat
  /-- [12; 16 R394; none] -/
  rank : Nat
  /-- node and flask of each rank [4,096; 16 R384; none] -/
  members : List (Nat × Nat)
  /-- CE.LAST_SEQ [64; 16 R394; 0] -/
  lastSeq : Nat
  /-- CE.NODES [64; 16 R394; 0] -/
  nodes : Nat
  /-- CE.BYTES_TX [64; 16 R394; 0] -/
  bytesTx : Nat
  /-- CE.BYTES_RX [64; 16 R394; 0] -/
  bytesRx : Nat
  /-- CE.ABORTS [64; 16 R394; 0] -/
  aborts : Nat
  /-- CE.LATE_RANK rank [12; 16 R395; 0] -/
  lateRank : Nat
  /-- CE.LATE_RANK margin [32; 16 R395; 0] -/
  lateMargin : Nat
  /-- CE.WAIT_TOTAL [64; 16 R395; 0] -/
  waitTotal : Nat
  /-- READYs kept for a node not started, one per peer [list; 16 R388; none] -/
  kept : List ReadyMsg
  /-- ABORTs kept: SEQ, rank [list; 16 R392; none] -/
  keptAborts : List (Nat × Nat)
  deriving DecidableEq, Repr

/-- A COLLECTIVE node queued or running in the collective engine (16 R385 to R392). -/
structure Coll where
  heat : Nat
  node : Nat
  group : Nat
  /-- [128 bytes; 16 R385; none] -/
  desc : List Byte
  /-- device phase-table entry, PHASE_BASE + k [8; 09 R220; none] -/
  phase : Nat
  running : Bool
  /-- start time [64 ns; 16 R388; none] -/
  since : Nat
  /-- ranks whose READY has come [list; 16 R388; none] -/
  readyFrom : List Nat
  /-- segments a rank may still send us or we may send it: credits we hold toward each owner [list; 16 R388; none] -/
  credits : Tab Nat
  /-- bytes sent to each rank: contributions, and gathered data [list; 16 R386; 0] -/
  sentC : Tab Nat
  sentG : Tab Nat
  /-- bytes placed from each rank: contributions, and gathered data [list; 16 R386; 0] -/
  gotC : Tab Nat
  gotG : Tab Nat
  /-- contributed bytes of each rank added into the accumulator [list; 16 R387; 0] -/
  added : Tab Nat
  /-- FP32 accumulator of the owned chunk, by element [list; 16 R387; x_0] -/
  acc : Tab W32
  /-- contributions waiting: 2^40 × rank + byte offset in the chunk [list; 16 R387; none] -/
  scratch : Tab Byte
  /-- message packet maps: (rank, message, index) placed [list; 16 R379; none] -/
  placed : List (Nat × Nat × Nat)
  /-- ARRIVE in ns, once known [P × 32; 16 R388; none] -/
  arrive : Tab Nat
  /-- overflow count of the BF16 write-back [32; 16 R389; 0] -/
  ovf : Nat
  /-- the message pauses on a receiver not ready [1; 16 R390; 0] -/
  rnr : Bool
  /-- payload bytes sent [64; 16 R389; 0] -/
  tx : Nat
  /-- it has ended with this status and DETAIL rank [; 16 R392; none] -/
  fate : Option (Stat × Nat)
  deriving DecidableEq, Repr

/-- A GET of a peer that this device serves (16 R386, R390). -/
structure Serve where
  /-- [8; 16 R390; none] -/
  group : Nat
  /-- rank of the peer [12; 16 R390; none] -/
  rank : Nat
  /-- REMOTE [64; 16 R385; none] -/
  va : Nat
  /-- BYTES [40; 16 R385; none] -/
  bytes : Nat
  /-- bytes sent [40; 16 R386; 0] -/
  sent : Nat
  deriving DecidableEq, Repr

/-- Ethernet and Nimra (16). -/
structure Nimra where
  /-- [12; 16 R375; reset none] -/
  nodeId : Option Nat
  /-- configuration block [1,024 bytes; 16 R376; reset none] -/
  cfg : List Byte
  /-- NODE_CONFIG commands since this start [16; 16 R379; reset 0] -/
  configs : Nat
  /-- [32; 16 R379; reset 0] -/
  epoch : Nat
  /-- [32; 16 R370; reset DISABLED] -/
  ports : Tab EPort
  /-- [32 × 4,096; 16 R379; reset as Peer.init] -/
  peers : Tab Peer
  /-- [256; 16 R384; reset none] -/
  groups : Tab Group
  /-- nodes queued or running, in order of dispatch [64; 16 R386; reset none] -/
  colls : List Coll
  /-- frames handed to the ports, newest first: port, peer, TYPE, packet [list; 16 R377, R378; reset none] -/
  wire : List (Nat × Nat × Nat × NPacket)
  /-- rail last taken toward each peer and packets taken in a row [4,096; 16 R382; reset DESIGN CHOICE rail 0, entry 8] -/
  wrr : Tab (Nat × Nat)
  /-- sequenced packets that wait for a rail: peer, TYPE, packet [list; 16 R380, R382; reset none] -/
  backlog : List (Nat × Nat × NPacket)
  /-- received packets whose page is not resident: port, packet [list; 16 R390; reset none] -/
  held : List (Nat × NPacket)
  /-- GETs of peers in progress [list; 16 R390; reset none] -/
  serves : List Serve
  /-- packet maps of PUT messages: peer, message, index placed [list; 16 R379; reset none] -/
  maps : List (Nat × Nat × Nat)
  deriving DecidableEq, Repr

/-! ## Serving loop -/

/-- A request in flight (11 R262). -/
structure Req where
  cid : Nat
  tag : Nat
  flask : Nat
  prio : Nat
  /-- input tokens still to take [65,536 × 32; 11 R262; none] -/
  input : List Nat
  maxNew : Nat
  temp : W32
  topP : W32
  topK : Nat
  noStop : Bool
  tokenIrq : Bool
  seed : W64
  /-- tokens posted, N_OUT [32; 11 R268; 0] -/
  out : Nat
  /-- FLAGS of the last step [8; 11 R266; 0] -/
  flags : Nat
  /-- it must end at the next step boundary with this reason [8; 11 R267; none] -/
  ending : Option Nat
  deriving DecidableEq, Repr

/-- A session (11 R254 to R263). -/
structure Session where
  /-- the loop's descriptor address, with its flask as flask × 2^48 + address -/
  loop : Nat
  /-- [20; 11 R254; none] -/
  qnum : Nat
  /-- [32; 11 R261; none] -/
  maxCtx : Nat
  /-- [32; 11 R261; none] -/
  key : W32
  /-- STOP[0 to 3] [4 × 32; 11 R261; none] -/
  stop : List Nat
  /-- [3; 11 R263; IDLE] -/
  st : SessSt
  /-- CTX_LEN [32; 11 R263; 0] -/
  ctxLen : Nat
  /-- home half of each head: 2 stack + half [64 × 4; 11 R259; none] -/
  homes : List Nat
  /-- page of (layer, head, j): key ((layer × 64 + head) × 4,096 + j), engine × 2^40 + page number in its slice [list; 11 R259; none] -/
  pages : Tab Nat
  /-- a parked session's pages: the same keys, former engine × 2^40 + spill slot [list; 11 R260; none] -/
  spill : Tab Nat
  /-- slot of the page-list area [list; 11 R259; none] -/
  listSlot : Nat
  /-- time of its last token; none before the first [64 ns; 11 R264; none] -/
  lastTok : Option Nat
  /-- order of acceptance of its request [64; 11 R264; 0] -/
  order : Nat
  /-- READY token [32; 11 R263; 0] -/
  token : Nat
  /-- PLACED for the next token entry [1; 11 R260; 0] -/
  placed : Bool
  req : Option Req
  deriving DecidableEq, Repr

/-- A step heat in flight: rows in ascending session number (11 R257, R264). -/
structure Step where
  heat : Nat
  /-- session, position and token of each row -/
  rows : List (Nat × Nat × Nat)
  /-- the step runs on the array -/
  array : Bool
  /-- prefill tokens of the chunk -/
  count : Nat
  deriving DecidableEq, Repr

/-- A serving loop (11 R254 to R264), by flask × 2^48 + descriptor address. -/
structure Loop where
  /-- the descriptor as checked [256 bytes; 11 R255; none] -/
  desc : List Byte
  /-- the role table as checked [65,536 × 32 bytes; 11 R258; none] -/
  roles : List Byte
  /-- STEP [32; 11 R257; 0] -/
  steps : Nat
  decode : Option Step
  prefill : Option Step
  deriving DecidableEq, Repr

/-- The serving loops of the device (11). -/
structure Serving where
  /-- [8 a flask; 11 R254; reset none] -/
  loops : Tab Loop
  /-- sessions by number [65,536; 11 R254; reset none] -/
  sessions : Tab Session
  /-- next session number [32; 11 R261; reset DESIGN CHOICE 0, entry 22] -/
  nextSess : Nat
  /-- order of the next request [64; 11 R264; reset 0] -/
  nextOrder : Nat
  deriving DecidableEq, Repr

/-! ## Power and heat -/

/-- An entry of the phase table (19 R449). -/
structure PhaseEnt where
  /-- P_PART [32; 19 R449; reset 400.0] -/
  pPart : W32
  /-- P_HEARTH [32; 19 R449; reset 90.0] -/
  pHearth : W32
  /-- RATE [32; 19 R449; reset 0] -/
  rate : W32
  /-- FSENS [16; 19 R449; reset 0xFFFF] -/
  fsens : Nat
  /-- OP_LAST [8; 19 R449; reset DESIGN CHOICE 0, entry 23] -/
  opLast : Nat
  /-- DUTY_LAST [8; 19 R449; reset DESIGN CHOICE 0, entry 23] -/
  dutyLast : Nat
  deriving DecidableEq, Repr

def PhaseEnt.init : PhaseEnt := ⟨0x43C80000, 0x42B40000, 0, 0xFFFF, 0, 0⟩

/-- One compute partition under the power controller (19 R446 to R460). -/
structure PartPw where
  /-- operating point [4; 19 R460; reset 0] -/
  point : Nat
  /-- point whose voltage is set and not yet settled [4; 19 R447; reset none] -/
  rising : Option Nat
  /-- point to which the frequency goes when the partition's last clock stretch ends [4; 19 R461; reset none] -/
  waits : Option Nat
  /-- d [5; 19 R460; reset 0] -/
  d : Nat
  /-- h [5; 19 R460; reset 0] -/
  h : Nat
  /-- partition power, W [16; 19 R460; reset 0] -/
  power : Nat
  /-- hottest sensor, °C [16; 19 R460; reset 0] -/
  temp : Int
  /-- PW.DROOP [64; 19 R460; reset 0] -/
  droop : Nat
  /-- PW.STRETCH [64; 19 R460; reset 0] -/
  stretch : Nat
  /-- droop trips in this control period [32; 19 R455; reset 0] -/
  trips : Nat
  /-- target voltage in mV [10; 19 R459; reset DESIGN CHOICE 0, the regulator's boot voltage, entry 23] -/
  target : Nat
  /-- last confirmed voltage in mV [10; 19 R459; reset DESIGN CHOICE 0, entry 23] -/
  confirmed : Nat
  /-- AVSBus transactions failed in a row [2; 19 R459; reset 0] -/
  fails : Nat
  /-- regulator lost [1; 19 R459; reset 0] -/
  lost : Bool
  /-- throttle acts on the partition [1; 19 R457; reset 0] -/
  throttle : Bool
  /-- limit acts on the partition [1; 19 R457; reset 0] -/
  limit : Bool
  /-- periods in a row in which throttle has lowered its power [32; 19 R457; reset 0] -/
  cuts : Nat
  /-- point at the last control period [4; 19 R450; reset 0] -/
  prev : Nat
  deriving DecidableEq, Repr

def PartPw.init : PartPw :=
  { point := 0, rising := none, waits := none, d := 0, h := 0, power := 0, temp := 0, droop := 0, stretch := 0, trips := 0, target := 0,
    confirmed := 0, fails := 0, lost := false, throttle := false, limit := false, cuts := 0, prev := 0 }

/-- The power controller (19). -/
structure Power where
  /-- PW.POWER [32; 19 R460; reset 0] -/
  power : Nat
  /-- PW.CAP [32; 19 R460; reset 2,400] -/
  cap : Nat
  /-- accepted cap not yet applied, with its source [32; 19 R454; reset none] -/
  next : Option Nat
  /-- FLOOR [1; 19 R452, R460; reset 0] -/
  floor : Bool
  /-- fast cut acting [1; 19 R451, R460; reset 0] -/
  fastCut : Bool
  /-- PW.FLOOR_EST [32; 19 R460; reset 0] -/
  floorEst : Nat
  /-- PW.FIXED [32; 19 R460; reset 0] -/
  fixed : Nat
  /-- [4; 19 R460; reset as PartPw.init] -/
  parts : Tab PartPw
  /-- phase table [256 × 16 bytes; 19 R449; reset values of R449] -/
  phases : Tab PhaseEnt
  /-- clusters whose ACLK branch is stretched [96; 19 R455; reset none] -/
  stretched : List Nat
  /-- stacks on which throttle acts, with the periods in which it has lowered their hearth duty [8 × 32; 19 R457; reset none] -/
  stackHot : Tab Nat
  /-- stacks on which limit acts [8; 19 R457; reset none] -/
  stackLimit : List Nat
  /-- PW.THROTTLE_MS [64; 19 R460; reset 0] -/
  throttleMs : Nat
  /-- PW.FLOOR_MS [64; 19 R460; reset 0] -/
  floorMs : Nat
  /-- the last readings of the sensors [132 × 8; 19 R456; reset none taken] -/
  temps : Option Temps
  deriving DecidableEq, Repr

/-! ## CXL and I3C -/

/-- An HDM decoder (17 R403). -/
structure Hdm where
  /-- host physical base [64; 17 R403; reset 0] -/
  base : Nat
  /-- [64; 17 R403; reset 0] -/
  size : Nat
  /-- DPA of the range's start [64; 17 R403; reset 0] -/
  dpa : Nat
  /-- [1; 17 R403; reset 0] -/
  committed : Bool
  /-- [1; 17 R403; reset 0] -/
  err : Bool
  deriving DecidableEq, Repr

def Hdm.init : Hdm := ⟨0, 0, 0, false, false⟩

/-- The CXL port (17). -/
structure Cxl where
  /-- trained width and rate in units of 0.1 GT/s; none while the link is down [8; 17 R398; reset none] -/
  link : Option (Nat × Nat)
  /-- CX.PBR_ID [16; 17 R401; reset 0] -/
  pbr : BitVec 16
  /-- CX.PTL_DROP [64; 17 R401; reset 0] -/
  ptlDrop : Nat
  /-- CX.BI_TIMEOUT [64; 17 R401; reset 0] -/
  biTimeout : Nat
  /-- CX.HOST_POISON [64; 17 R401; reset 0] -/
  hostPoison : Nat
  /-- [4; 17 R403; reset uncommitted] -/
  hdm : Tab Hdm
  /-- snoop filter, oldest first: DPA line, held as modified [4,194,304; 17 R404; reset empty] -/
  snoop : List (Nat × Bool)
  /-- lines whose BISnp is out, with the line that a held write stores [list; 17 R404; reset none] -/
  biHeld : List (Nat × Option (List Byte))
  /-- answer of the last host read: data and poison [65 bytes; 17 R406; reset none] -/
  lastRead : Option (List Byte × Bool)
  /-- answer of the last snoop: RspI [1; 17 R407; reset none] -/
  rspI : Bool
  /-- DOE mailbox: it holds a request [1; 17 R408; reset 0] -/
  doeReq : Bool
  /-- measurement blocks 5 to 7 as the waiting request found them [3 × 32 bytes; 17 R410; reset none] -/
  doeSnap : List (List Byte)
  /-- DOE mailbox: a response waits unread [bytes; 17 R408; reset none] -/
  doeResp : Option (List Byte)
  /-- DOE error bit [1; 17 R408; reset 0] -/
  doeErr : Bool
  /-- SPDM algorithms negotiated [1; 17 R409; reset 0] -/
  spdmAlgs : Bool
  deriving DecidableEq, Repr

/-- One I3C target (17 R412 to R417). -/
structure I3cTgt where
  /-- dynamic address [7; 17 R412; reset none] -/
  addr : Option Nat
  /-- [16; 17 R412; reset 64] -/
  mwl : Nat
  /-- [16; 17 R412; reset 263] -/
  mrl : Nat
  /-- IBIs enabled [1; 17 R414; reset DESIGN CHOICE 0, entry 24] -/
  ibiOn : Bool
  /-- response frame ready [263 bytes; 17 R414; reset none] -/
  resp : Option (List Byte)
  /-- bytes the controller read last: CCC answer or frame [bytes; 17 R414; reset empty] -/
  lastRead : List Byte
  /-- IBI payloads raised, newest first [list; 17 R414; reset none] -/
  ibis : List Nat
  deriving DecidableEq, Repr

def I3cTgt.init : I3cTgt := { addr := none, mwl := 64, mrl := 263, ibiOn := false, resp := none, lastRead := [], ibis := [] }

/-- A claim on a shared resource (10 R251), by KIND × 1,024 + INSTANCE. -/
structure Claim where
  /-- flask or 0xFF [8; 10 R251; none] -/
  owner : Nat
  /-- [8; 10 R251; none] -/
  use : Nat
  /-- when it was claimed, the zero of a hardware timer [64 ns; 20 R465; none] -/
  since : Nat
  deriving DecidableEq, Repr

/-! ## The device -/

/-- The state of the IKX-7400. -/
structure State where
  /-- commands waiting, first in, first out: the model's own queue [list; none; reset empty] -/
  pending : List Instr
  /-- device-local time [64 ns; 01, 09 R205; reset 0] -/
  time : Nat
  /-- the model's own counter of free values drawn (notes/assumptions/4.md) [64; none; reset DESIGN CHOICE 0, entry 4] -/
  free : Nat
  /-- host memory, as the host and the device have written it [bytes; 10 R228, 17 R407; reset DESIGN CHOICE 0, entry 3] -/
  host : Tab Byte
  /-- device physical memory: HBM4, DDR5, cluster SRAM, block RAM [2^48 bytes; 01 R26; reset as Memory's unlisted byte] -/
  mem : Tab Byte
  /-- poisoned lines by address, rising [list; 12 R275; reset none] -/
  poison : List Nat
  board : Board
  /-- the fuse array as burnt [32 Kib; 14 R327, 18 R429; reset DESIGN CHOICE 0, entry 6] -/
  fuseArray : Fuses
  /-- the fuses' shadow registers, read at step 4 of a start [32 Kib; 18 R423; reset DESIGN CHOICE 0, entry 6] -/
  fuses : Fuses
  flash : Flash
  box : BlackBox
  boot : Boot
  /-- [4; 17 R418; reset healthy] -/
  cores : Tab Core
  grid : Grid
  qb : Quibor
  /-- flasks that exist, by number [16; 09 R221; reset none] -/
  flasks : Tab Flask
  /-- page faults waiting [list; 07 R180; reset none] -/
  faults : List PFault
  /-- number of the next page fault [64; 07 R180; reset 0] -/
  nextFault : Nat
  /-- claims [129; 10 R251; reset none] -/
  claims : Tab Claim
  graph : Graph
  /-- matrix tiles, 4 i + m [384; 03 R61; reset as MatrixTile.init] -/
  mt : Tab MatrixTile
  /-- vector tiles, 2 i + v [192; 05 R104; reset as VectorTile.init] -/
  vt : Tab VectorTile
  /-- ladles and cluster controllers in reset or failed: 2 i for L, 2 i + 1 for K [192; 18 R439; reset in service] -/
  lk : Tab UnitSt
  /-- hearth engines, 64 s + e [512; 06 R157; reset as Engine.init] -/
  he : Tab Engine
  /-- base dies [8; 06 R153; reset as BaseDie.init] -/
  hb : Tab BaseDie
  /-- stream contexts, 32 i + c [3,072; 07 R162; reset as Ctx.init] -/
  ld : Tab Ctx
  /-- issue slots of each ladle's NCLK cycle that have passed, and writes among them [96 × 4; 07 R161; reset 0] -/
  slots : Tab (Nat × Nat)
  /-- the operation that each CLASS and OP of a vector instruction names, by 64 CLASS + OP: the model's own, learnt at the first
  issue, since the manual numbers no operation (notes/assumptions/19.md) [table; none; reset DESIGN CHOICE nothing learnt, entry 19] -/
  vops : Tab Nat
  /-- memory controllers [20; 12 R273; reset as MemCtl.init] -/
  mc : Tab MemCtl
  net : Network
  /-- fabric ports, 4 i + q [384; 13 R311; reset as FPort.init] -/
  fp : Tab FPort
  sprue : Sprue
  nimra : Nimra
  serving : Serving
  power : Power
  cxl : Cxl
  /-- main target [; 17 R412; reset as I3cTgt.init] -/
  i3c : I3cTgt
  /-- second target [; 17 R417; reset as I3cTgt.init] -/
  i3c2 : I3cTgt
  deriving DecidableEq, Repr

/-- Unprovisioned fuses: every bit 0 (notes/assumptions/6.md, DESIGN CHOICE). -/
def Fuses.blank : Fuses :=
  { aesKey := 0, aesKeySet := false, pkHash := [0, 0, 0, 0], pkRevoked := 0, encRequired := false, batkeyDisable := false,
    flashPrimary := 0, flashGolden := 0, fwSvn := 0, serial := 0, mfrId := 0, provLock := false, deviceSecret := 0 }

/-- Firmware as the factory programs it (notes/assumptions/6.md, DESIGN CHOICE). -/
def FwRegion.factory : FwRegion := { valid := true, version := 0, svn := 0, digest := 0 }

/-- `QB.*` at their reset values (10 R229), no queue, nothing accepted. -/
def Quibor.init : Quibor :=
  { aqSqBase := 0, aqCqBase := 0, aqCfg := 0, wrr := 0x0102040408081020, dbDrop := 0, evtLost := 0, queues := [], cls := 0,
    used := 0, last := [], cmds := [], nextCid := 1, events := [], msixTable := [], msixPending := [], msixSent := [] }

def Graph.init : Graph := { heats := [], nextSeq := 0, patterns := [], kq := [], nextDtag := 0 }

/-- 15 R352, R366: reset routes the neighbours DIRECT and the diagonals VIA_PX. -/
def Network.init : Network :=
  { units := [], routes := [0x0040, 0x0010, 0x0004, 0x0001], crcCtl := 0xF, trace := [] }

def Sprue.init : Sprue :=
  { queue := [], cur := none, moulds := [], frames := [], ffs := [], bports := [], plls := [], pins := [], shell := 0, shellHeader := [],
    keyValid := false, batKey := 0, vbattLost := false, loadErr := none, errId := 0, loads := 0, fails := 0, authFails := 0,
    bytes := 0 }

def Nimra.init : Nimra :=
  { nodeId := none, cfg := [], configs := 0, epoch := 0, ports := [], peers := [], groups := [], colls := [], wire := [],
    wrr := [], backlog := [], held := [], serves := [], maps := [] }

def Serving.init : Serving := { loops := [], sessions := [], nextSess := 0, nextOrder := 0 }

def Power.init : Power :=
  { power := 0, cap := 2400, next := none, floor := false, fastCut := false, floorEst := 0, fixed := 0, parts := [],
    phases := [], stretched := [], stackHot := [], stackLimit := [], throttleMs := 0, floorMs := 0, temps := none }

def Cxl.init : Cxl :=
  { link := none, pbr := 0, ptlDrop := 0, biTimeout := 0, hostPoison := 0, hdm := [], snoop := [], biHeld := [],
    lastRead := none, rspI := false, doeReq := false, doeSnap := [], doeResp := none, doeErr := false, spdmAlgs := false }

def Grid.init : Grid := { rows := [0, 0, 0, 0], site := [], failed := [], inReset := [], partReset := [] }

def Boot.init : Boot :=
  { phase := .off, bootCore := 0, quick := false, cause := 0, fwVersion := 0, fwDigest := 0, golden := false, fwSvn := 0,
    level := 0, ready := false, shutdown := false, found := [], held := none }

/-- A black box that no start has written (20 R471: a device that finds no valid copy). -/
def BlackBox.init : BlackBox :=
  { mram := [], ctl := none, seq := 1, defects := [], nSec := 0, evtSlot := 0, nEvt := 0, queue := [], unfinished := false }

/-- The device right after power is applied: power-on reset asserted (18 R421), nothing started, every register at its
reset value. The choices the manual leaves open are notes/assumptions/3 and 5 to 9. -/
def State.reset : State :=
  { pending := [], time := 0, free := 0, host := [], mem := [], poison := [],
    board := { badRails := [], refs := [], lostRefs := [], vbattOk := true, perst := true, thermtrip := false },
    fuseArray := .blank, fuses := .blank,
    flash := { primaryFw := .factory, goldenFw := .factory, primaryShell := none, goldenShell := none, writing := none },
    box := .init, boot := .init, cores := [], grid := .init, qb := .init, flasks := [], faults := [], nextFault := 0,
    claims := [], graph := .init, mt := [], vt := [], lk := [], he := [], hb := [], ld := [], slots := [], vops := [], mc := [], net := .init, fp := [],
    sprue := .init, nimra := .init, serving := .init, power := .init, cxl := .init, i3c := .init, i3c2 := .init }

end Sys2Proof.Machine
end

