-- ==== Sys2Proof/Machine/Tab.lean ====
section
/-!
DEFINITION. Operations on the sparse table `Tab`: strictly rising keys, one entry per key.
-/

namespace Sys2Proof.Machine

/-- The entry under a key, if one is listed. -/
def Tab.find? {α : Type} : Tab α → Nat → Option α
  | [], _ => none
  | (k, a) :: t, n => if k = n then some a else if n < k then none else Tab.find? t n

/-- The entry under a key, or the unlisted value. -/
def Tab.get {α : Type} (d : α) (t : Tab α) (n : Nat) : α :=
  match Tab.find? t n with
  | some a => a
  | none => d

/-- Put an entry under a key. -/
def Tab.put {α : Type} : Tab α → Nat → α → Tab α
  | [], n, a => [(n, a)]
  | (k, b) :: t, n, a =>
    if k = n then (n, a) :: t else if n < k then (n, a) :: (k, b) :: t else (k, b) :: Tab.put t n a

/-- Take the entry under a key away. -/
def Tab.del {α : Type} : Tab α → Nat → Tab α
  | [], _ => []
  | (k, b) :: t, n => if k = n then t else if n < k then (k, b) :: t else (k, b) :: Tab.del t n

/-- Change the entry under a key, starting from the unlisted value. -/
def Tab.upd {α : Type} (d : α) (t : Tab α) (n : Nat) (f : α → α) : Tab α := Tab.put t n (f (Tab.get d t n))

/-- Change the entry under a key if there is one. -/
def Tab.mod {α : Type} (t : Tab α) (n : Nat) (f : α → α) : Tab α :=
  match Tab.find? t n with
  | some a => Tab.put t n (f a)
  | none => t

/-- A key is listed. -/
def Tab.has {α : Type} (t : Tab α) (n : Nat) : Bool := (Tab.find? t n).isSome

/-- The canonical form: strictly rising keys. -/
abbrev Tab.wf {α : Type} (t : Tab α) : Prop := t.Pairwise (fun x y => x.1 < y.1)

/-- Put or take away: the value an unlisted key reads as is never listed. -/
def Tab.store {α : Type} [DecidableEq α] (d : Nat → α) (t : Tab α) (n : Nat) (a : α) : Tab α :=
  if a = d n then Tab.del t n else Tab.put t n a

/-- The canonical form of a table whose unlisted keys read as `d`: rising keys, no entry equal to `d`. -/
abbrev Tab.canon {α : Type} [DecidableEq α] (d : Nat → α) (t : Tab α) : Prop :=
  Tab.wf t ∧ ∀ x ∈ t, x.2 ≠ d x.1

/-- The members of a rising list of numbers. -/
def numInsert : List Nat → Nat → List Nat
  | [], n => [n]
  | k :: t, n => if k = n then k :: t else if n < k then n :: k :: t else k :: numInsert t n

end Sys2Proof.Machine
end

