-- ==== Sys2Proof/Machine/Flags.lean ====
section
/-!
DEFINITION. The counts, flags and exponent histogram that a converting node keeps for an output tensor (02 R56 to R59),
and the stale check over them (04 R102).
-/

namespace Sys2Proof.Machine

/-- A 32-bit count that stops at its maximum (02 R56). -/
def sat32 (n k : Nat) : Nat := min (n + k) 0xFFFFFFFF

/-- floor(log2 |v|) of a non-zero finite FP32 word (02 R58). -/
def floorLog2 (w : W32) : Option Int :=
  match f32 w with
  | .fin _ m e => if m = 0 then none else some ((m.log2 : Int) + e)
  | _ => none

/-- The bin of a value v and whether its element overflowed (02 R58). -/
def histBin (v : W32) (ovf : Bool) : Nat :=
  if ovf || !f32IsFin v then 63
  else match floorLog2 v with
    | none => 0
    | some x => (max 1 (min 62 (x + 49))).toNat

/-- A code is NaN in its format. -/
def codeNan (f : Fmt) (c : Nat) : Bool := match decodeCode f c with | .nan _ => true | _ => false

/-- A code is infinite in its format. -/
def codeInf (f : Fmt) (c : Nat) : Bool := match decodeCode f c with | .inf _ => true | _ => false

/-- Set a flag bit (02 R57). -/
def flagIf (b : Bool) (i : Nat) (f : BitVec 16) : BitVec 16 := if b then f ||| (1 <<< i) else f

/-- 02 R56 to R59: one element of value v (FP32, before output scales and rounding) was converted as `o` says. -/
def Conv.note (c : Conv) (dst : Fmt) (cvt : BitVec 16) (v : W32) (o : CvtOut) : Conv :=
  { c with
    ovf := if o.ovf then sat32 c.ovf 1 else c.ovf
    unf := if o.unf then sat32 c.unf 1 else c.unf
    flags := flagIf (cvt.getLsbD 0) 5 (flagIf (codeInf dst o.code) 4 (flagIf (codeNan dst o.code) 3
      (flagIf o.unf 2 (flagIf o.ovf 1 (flagIf o.flushed 0 c.flags)))))
    hist := Tab.upd 0 c.hist (histBin v o.ovf) (fun n => sat32 n 1)
    elements := c.elements + 1
    amax := if f32IsFin v && f32Mag c.amax < f32Mag v then BitVec.ofNat 32 (f32Mag v) else c.amax
    eMax := match floorLog2 v with
      | none => c.eMax
      | some x => some (match c.eMax with | none => x | some y => max x y)
    eMin := match floorLog2 v with
      | none => c.eMin
      | some x => some (match c.eMin with | none => x | some y => min x y) }

/-- 02 R56: the sum over the parts of a node that was divided. -/
def Conv.merge (a b : Conv) : Conv :=
  { ovf := sat32 a.ovf b.ovf, unf := sat32 a.unf b.unf, flags := a.flags ||| b.flags,
    hist := b.hist.foldl (fun h x => Tab.upd 0 h x.1 (fun n => sat32 n x.2)) a.hist,
    elements := a.elements + b.elements,
    amax := if f32Mag a.amax < f32Mag b.amax then b.amax else a.amax,
    eMax := match a.eMax, b.eMax with | none, y => y | x, none => x | some x, some y => some (max x y)
    eMin := match a.eMin, b.eMin with | none, y => y | x, none => x | some x, some y => some (min x y)
    scale := a.scale }

/-- The signed 16-bit E_MAX or E_MIN field; 0x8000 if none (02 R59). -/
def expField (x : Option Int) : List Byte :=
  leBytes 2 (match x with | none => 0x8000 | some z => ofInt 16 z)

/-- The 320-byte histogram record (02 R59). -/
def Conv.record (c : Conv) : List Byte :=
  (upto 64).flatMap (fun k => leBytes 4 (Tab.get 0 c.hist k)) ++ leBytes 8 c.elements ++ leBytes 4 c.ovf ++
  leBytes 4 c.unf ++ leBytes 2 c.flags.toNat ++ leBytes 2 0 ++ leBytes 4 c.amax.toNat ++ leBytes 4 c.scale.toNat ++
  expField c.eMax ++ expField c.eMin ++ leBytes 32 0

/-- An output tensor at a stale check: its format byte, the address of its per-tensor scale, its record. -/
structure OutTensor where
  fmt : FmtByte
  scaleAddr : Nat
  conv : Conv
  deriving DecidableEq, Repr

/-- 04 R97: a count is greater than its limit. -/
def OutTensor.isStale (t : OutTensor) (ovfLimit unfLimit : Nat) : Bool :=
  ovfLimit < t.conv.ovf || unfLimit < t.conv.unf

/-- 04 R99: the new scale of a stale tensor that carries a per-tensor scale. -/
def OutTensor.newScale (t : OutTensor) : Option W32 :=
  match f32 t.conv.amax with
  | .fin _ m e =>
    if m = 0 then none else
    let k := leastExp t.fmt.fmt m e
    if k < -126 || 127 < k then none else
    let w := BitVec.ofNat 32 ((k + 127).toNat <<< 23)
    if w = t.conv.scale then none else some w
  | _ => none

/-- The stale check of a run (04 R97 to R102): the summary byte, and the scales to write when a re-run takes place. -/
structure StaleCheck where
  summary : BitVec 8
  stale : Bool
  rerun : List (Nat × W32)
  deriving DecidableEq, Repr

/-- 04 R97 to R102. `rerunDone` marks the check after a re-run. -/
def staleCheck (pol ovfLimit unfLimit : Nat) (replayable rerunDone : Bool) (ts : List OutTensor) : StaleCheck :=
  let st := ts.filter (fun t => t.isStale ovfLimit unfLimit)
  let news := st.filterMap (fun t => if t.fmt.tensor then t.newScale.map (fun w => (t.scaleAddr, w)) else none)
  let ask := pol = 1 && !st.isEmpty && !rerunDone
  let b (x : Bool) (i : Nat) : BitVec 8 := if x then 1 <<< i else 0
  let base := b (st.any (fun t => ovfLimit < t.conv.ovf)) 0 ||| b (st.any (fun t => unfLimit < t.conv.unf)) 1 |||
    b rerunDone 2 ||| b (ask && !replayable) 3 |||
    b (pol = 1 && !rerunDone && st.any (fun t => t.fmt.tensor && t.newScale.isNone)) 4 ||| b (st.any (fun t => !t.fmt.tensor)) 5
  { summary := base, stale := !st.isEmpty,
    rerun := if ask && replayable then news else [] }

end Sys2Proof.Machine
end

