-- ==== Sys2Proof/Machine/Update.lean ====
section
/-!
DEFINITION. One update per field of State, so that a meaning names what it changes and nothing else.
-/

namespace Sys2Proof.Machine

/-- Change `time`. -/
def State.onTime (f : Nat → Nat) (s : State) : State := { s with time := f s.time }

/-- Change `free`. -/
def State.onFree (f : Nat → Nat) (s : State) : State := { s with free := f s.free }

/-- Change `host`. -/
def State.onHost (f : Tab Byte → Tab Byte) (s : State) : State := { s with host := f s.host }

/-- Change `mem`. -/
def State.onMem (f : Tab Byte → Tab Byte) (s : State) : State := { s with mem := f s.mem }

/-- Change `poison`. -/
def State.onPoison (f : List Nat → List Nat) (s : State) : State := { s with poison := f s.poison }

/-- Change `board`. -/
def State.onBoard (f : Board → Board) (s : State) : State := { s with board := f s.board }

/-- Change `fuseArray`. -/
def State.onFuseArray (f : Fuses → Fuses) (s : State) : State := { s with fuseArray := f s.fuseArray }

/-- Change `fuses`. -/
def State.onFuses (f : Fuses → Fuses) (s : State) : State := { s with fuses := f s.fuses }

/-- Change `flash`. -/
def State.onFlash (f : Flash → Flash) (s : State) : State := { s with flash := f s.flash }

/-- Change `box`. -/
def State.onBox (f : BlackBox → BlackBox) (s : State) : State := { s with box := f s.box }

/-- Change `boot`. -/
def State.onBoot (f : Boot → Boot) (s : State) : State := { s with boot := f s.boot }

/-- Change `cores`. -/
def State.onCores (f : Tab Core → Tab Core) (s : State) : State := { s with cores := f s.cores }

/-- Change `grid`. -/
def State.onGrid (f : Grid → Grid) (s : State) : State := { s with grid := f s.grid }

/-- Change `qb`. -/
def State.onQb (f : Quibor → Quibor) (s : State) : State := { s with qb := f s.qb }

/-- Change `flasks`. -/
def State.onFlasks (f : Tab Flask → Tab Flask) (s : State) : State := { s with flasks := f s.flasks }

/-- Change `faults`. -/
def State.onFaults (f : List PFault → List PFault) (s : State) : State := { s with faults := f s.faults }

/-- Change `nextFault`. -/
def State.onNextFault (f : Nat → Nat) (s : State) : State := { s with nextFault := f s.nextFault }

/-- Change `claims`. -/
def State.onClaims (f : Tab Claim → Tab Claim) (s : State) : State := { s with claims := f s.claims }

/-- Change `graph`. -/
def State.onGraph (f : Graph → Graph) (s : State) : State := { s with graph := f s.graph }

/-- Change `mt`. -/
def State.onMt (f : Tab MatrixTile → Tab MatrixTile) (s : State) : State := { s with mt := f s.mt }

/-- Change `vt`. -/
def State.onVt (f : Tab VectorTile → Tab VectorTile) (s : State) : State := { s with vt := f s.vt }

/-- Change `lk`. -/
def State.onLk (f : Tab UnitSt → Tab UnitSt) (s : State) : State := { s with lk := f s.lk }

/-- Change `he`. -/
def State.onHe (f : Tab Engine → Tab Engine) (s : State) : State := { s with he := f s.he }

/-- Change `hb`. -/
def State.onHb (f : Tab BaseDie → Tab BaseDie) (s : State) : State := { s with hb := f s.hb }

/-- Change `ld`. -/
def State.onLd (f : Tab Ctx → Tab Ctx) (s : State) : State := { s with ld := f s.ld }

/-- Change `slots`. -/
def State.onSlots (f : Tab (Nat × Nat) → Tab (Nat × Nat)) (s : State) : State := { s with slots := f s.slots }

/-- Change `vops`. -/
def State.onVops (f : Tab Nat → Tab Nat) (s : State) : State := { s with vops := f s.vops }

/-- Change `mc`. -/
def State.onMc (f : Tab MemCtl → Tab MemCtl) (s : State) : State := { s with mc := f s.mc }

/-- Change `net`. -/
def State.onNet (f : Network → Network) (s : State) : State := { s with net := f s.net }

/-- Change `fp`. -/
def State.onFp (f : Tab FPort → Tab FPort) (s : State) : State := { s with fp := f s.fp }

/-- Change `sprue`. -/
def State.onSprue (f : Sprue → Sprue) (s : State) : State := { s with sprue := f s.sprue }

/-- Change `nimra`. -/
def State.onNimra (f : Nimra → Nimra) (s : State) : State := { s with nimra := f s.nimra }

/-- Change `serving`. -/
def State.onServing (f : Serving → Serving) (s : State) : State := { s with serving := f s.serving }

/-- Change `power`. -/
def State.onPower (f : Power → Power) (s : State) : State := { s with power := f s.power }

/-- Change `cxl`. -/
def State.onCxl (f : Cxl → Cxl) (s : State) : State := { s with cxl := f s.cxl }

/-- Change `i3c`. -/
def State.onI3c (f : I3cTgt → I3cTgt) (s : State) : State := { s with i3c := f s.i3c }

/-- Change `i3c2`. -/
def State.onI3c2 (f : I3cTgt → I3cTgt) (s : State) : State := { s with i3c2 := f s.i3c2 }

end Sys2Proof.Machine
end

