-- ==== Sys2Proof/Machine/Ops.lean ====
section
/-!
DEFINITION. The named operations over the state that many meanings share: statuses, time, free values, memory and its
address map, translation, page faults, completions, device events and black-box records.
-/

namespace Sys2Proof.Machine

/-- What a step answers. -/
abbrev Out := Host.Outcome State Fault Refusal

/-! ## Statuses -/

/-- 10 R252, the code. -/
def Stat.code : Stat → Nat
  | .ok => 0x0000 | .invalid => 0x0010 | .unsupported => 0x0011 | .busy => 0x0020 | .noResource => 0x0021
  | .timeout => 0x0030 | .discarded => 0x0040 | .uncorrectable => 0x0041 | .stale => 0x0050 | .authFail => 0x0060
  | .wrongDevice => 0x0061 | .truncated => 0x0062 | .notPresent => 0x0070 | .capFloor => 0x0080 | .degraded => 0x0090
  | .pageTimeout => 0x00A0

/-- 10 R252, the kind. -/
def Stat.failure : Stat → Bool
  | .ok | .stale | .capFloor | .degraded => false
  | _ => true

/-! ## Time and free values -/

/-- Device-local time moves on (01: time stamps are local). -/
def State.after (s : State) (ns : Nat) : State := s.onTime (· + ns)

/-- Device-local time is at least t: a row that falls due at t. -/
def State.until (s : State) (t : Nat) : State := s.onTime (max t)

/-- Draw the next free number (notes/assumptions/4.md). -/
def State.draw (s : State) : Nat × State := (Config.freeNat s.free, s.onFree (· + 1))

/-- Choose a member of a list, freely; none of an empty list. -/
def State.choose {α : Type} (s : State) (l : List α) : Option α × State :=
  let (n, s) := s.draw
  (l[n % max 1 l.length]?, s)

/-- n free bytes. -/
def State.drawBytes (s : State) (n : Nat) : List Byte × State :=
  ((upto n).map (fun k => Config.freeByte (s.free + k)), s.onFree (· + n))

/-! ## The address map (01 R26) -/

def hbmSlot : Nat := 0x1000000000
def hbmBytes : Nat := 0xC00000000
def ddrBase : Nat := 0x010000000000
def ddrSlot : Nat := 0x4000000000
def sramBase : Nat := 0x080000000000
def sramWindow : Nat := 0x800000
def sramBytes : Nat := 0x600000
def bramBase : Nat := 0x090000000000
def bramWindow : Nat := 0x100000

/-- What a byte of device memory that nothing has written reads as: all ones in HBM4 and DDR5 after a start's memory test
(18 R425), zero in cluster SRAM (18 R494) and elsewhere. -/
def memDefault (a : Nat) : Byte := if a < sramBase then 0xFF else 0

/-- What a byte of host memory that nothing has written reads as (notes/assumptions/3.md). -/
def hostDefault (_ : Nat) : Byte := 0

/-- Window index of cluster Pp:c,r (01 R26). -/
def windowIndex (p c r : Nat) : Nat := 24 * p + 4 * r + c

/-- Cluster i is exposed at this start (01 R16): its logical row is one of its partition's. -/
def exposed (s : State) (i : Nat) : Bool := i < 96 && i % 24 / 4 < s.grid.rows.getD (i / 24) 0

/-- Cluster i is exposed and in service (01 R17, 18 R440). -/
def clusterUp (s : State) (i : Nat) : Bool :=
  exposed s i && !s.grid.failed.contains i && !s.grid.inReset.contains i && !s.grid.partReset.contains (i / 24)

/-- Cluster i is exposed and has not failed. -/
def clusterThere (s : State) (i : Nat) : Bool := exposed s i && !s.grid.failed.contains i

/-- The record of memory controller k. -/
def State.ctl (s : State) (k : Nat) : MemCtl := Tab.get .init s.mc k

/-- Controller k's memory is present, trained and in service. -/
def ctlUp (s : State) (k : Nat) : Bool :=
  k < 20 && (s.ctl k).train == 1 && (8 ≤ k || !s.grid.partReset.contains (k / 2))

/-- Backed bytes of controller k. -/
def ctlBytes (s : State) (k : Nat) : Nat := if k < 8 then hbmBytes else (s.ctl k).bytes

/-- Slot start of controller k. -/
def ctlBase (k : Nat) : Nat := if k < 8 then k * hbmSlot else ddrBase + (k - 8) * ddrSlot

/-- Controller and offset of a device address in HBM4 or DDR5. -/
def ctlOf (a : Nat) : Option (Nat × Nat) :=
  if a < 8 * hbmSlot then some (a / hbmSlot, a % hbmSlot)
  else if ddrBase ≤ a && a < ddrBase + 12 * ddrSlot then some (8 + (a - ddrBase) / ddrSlot, (a - ddrBase) % ddrSlot)
  else none

/-- Slots of size z from b that [a, a + n) touches: number, first and last-plus-one offset touched. -/
def slotParts (b z a n : Nat) : List (Nat × Nat × Nat) :=
  let k0 := (a - b) / z
  let k1 := (a + n - 1 - b) / z
  (upto (k1 + 1 - k0)).map (fun j =>
    let k := k0 + j
    (k, max a (b + k * z) - (b + k * z), min (a + n) (b + (k + 1) * z) - (b + k * z)))

/-- A block RAM is host-visible through a running mould of cluster i (01 R27, 14 R324), and its ring is not under
reconfiguration. -/
def hostVisible (s : State) (i b : Nat) : Bool :=
  s.sprue.moulds.any (fun x => x.2.cluster == i && x.2.st == .running && x.2.hostvis.getLsbD b)

/-- The least number of a list, or d. -/
def least (d : Nat) (l : List Nat) : Nat := l.foldl min d

/-- The earliest row of 01 R27 that a line of [a, a + n) matches, n > 0; rows are numbered 2 to 6 as the table has them. -/
def rangeRow (s : State) (a n : Nat) : Nat :=
  let e := a + n
  if e ≤ 8 * hbmSlot then
    least 6 ((slotParts 0 hbmSlot a n).map (fun x =>
      if hbmBytes < x.2.2 then 2 else if ctlUp s x.1 then 6 else 3))
  else if ddrBase ≤ a && e ≤ ddrBase + 12 * ddrSlot then
    least 6 ((slotParts ddrBase ddrSlot a n).map (fun x =>
      if !ctlUp s (8 + x.1) then 3 else if ctlBytes s (8 + x.1) < x.2.2 then 5 else 6))
  else if sramBase ≤ a && e ≤ sramBase + 96 * sramWindow then
    least 6 ((slotParts sramBase sramWindow a n).map (fun x =>
      if sramBytes < x.2.2 then 2 else if clusterUp s x.1 then 6 else 3))
  else if bramBase ≤ a && e ≤ bramBase + 96 * bramWindow then
    least 6 ((slotParts bramBase bramWindow a n).map (fun x =>
      if 0x80000 < x.2.2 then 2 else if !clusterUp s x.1 then 3
      else least 6 ((slotParts 0 0x2000 x.2.1 (x.2.2 - x.2.1)).map (fun y => if hostVisible s x.1 y.1 then 6 else 4))))
  else 2

/-- The reserved chunk of a stack (12 R283) is touched. -/
def reservedTouched (a n : Nat) : Bool :=
  (slotParts 0 hbmSlot a n).any (fun x => x.1 < 8 && 0xBF8000000 < x.2.2)

/-- The row of 01 R27, numbered from 1, that decides an access of n bytes at a; 12 R283 refuses the reserved chunk as an
unbacked place is refused. -/
def physRow (s : State) (a n : Nat) (write : Bool) : Nat :=
  if n = 0 then 6
  else if write && (a % 64 ≠ 0 || n % 64 ≠ 0) then 1
  else if reservedTouched a n then 2
  else rangeRow s a n

/-- Outcome of a row of 01 R27. -/
def rowStat (row : Nat) : Stat :=
  match row with
  | 1 | 2 | 5 => .invalid
  | 3 | 4 => .notPresent
  | _ => .ok

/-- 01 R27: the outcome of a physical access of n bytes at a. -/
def physOutcome (s : State) (a n : Nat) (write : Bool) : Stat := rowStat (physRow s a n write)

/-! ## Operating points (19 R446) -/

/-- ACLK of each operating point in MHz (19 R446). -/
def aclkMHz (point : Nat) : Nat :=
  [350, 375, 400, 425, 450, 475, 500, 525, 550, 575, 600, 625, 650, 675, 690, 700].getD point 350

/-- VDD_Pp of each operating point in mV, without and with a loaded mould (19 R446). -/
def pointMv (point : Nat) (mould : Bool) : Nat :=
  let v := [550, 560, 570, 580, 600, 610, 630, 650, 670, 690, 710, 740, 770, 800, 830, 850].getD point 550
  if mould then max v 700 else v

/-- Present ACLK of cluster i's partition in MHz (07 R175, 19 R446). -/
def clusterMHz (s : State) (i : Nat) : Nat := aclkMHz (Tab.get .init s.power.parts (i / 24)).point

/-! ## Bytes -/

/-- n bytes from a, of a sparse memory whose entries below a are left out. -/
def readFrom (d : Nat → Byte) : Nat → Nat → Tab Byte → List Byte
  | 0, _, _ => []
  | n + 1, a, [] => d a :: readFrom d n (a + 1) []
  | n + 1, a, (k, b) :: t => if k = a then b :: readFrom d n (a + 1) t else d a :: readFrom d n (a + 1) ((k, b) :: t)

/-- n bytes of a sparse memory from a. -/
def readTab (d : Nat → Byte) (t : Tab Byte) (a n : Nat) : List Byte := readFrom d n a (t.dropWhile (fun x => x.1 < a))

/-- The entries that bytes from a leave listed. -/
def cellsOf (d : Nat → Byte) (a : Nat) (bs : List Byte) : Tab Byte :=
  ((bs.mapIdx (fun k b => (a + k, b))).filter (fun x => x.2 ≠ d x.1))

/-- Bytes into a sparse memory at a. -/
def writeTab (d : Nat → Byte) (t : Tab Byte) (a : Nat) (bs : List Byte) : Tab Byte :=
  let e := a + bs.length
  t.takeWhile (fun x => x.1 < a) ++ cellsOf d a bs ++ t.dropWhile (fun x => x.1 < e)

/-- n bytes of device memory. -/
def State.devRead (s : State) (a n : Nat) : List Byte := readTab memDefault s.mem a n

/-- What a byte written at an address stores: a block RAM's slot holds 36 bits, and its bits [63:36] are ignored (13 R308). -/
def storedByte (a : Nat) (b : Byte) : Byte :=
  if a < bramBase then b else if a % 8 < 4 then b else if a % 8 = 4 then b &&& 0x0F else 0

/-- Bytes into device memory; every line written is clean again (12 R289: a full write clears poison), and none is left in the
snoop filter (17 R404; notes/assumptions/44.md). -/
def State.devWrite (s : State) (a : Nat) (bs : List Byte) : State :=
  if bs.isEmpty then s else
  let e := a + bs.length
  ((s.onMem (fun t => writeTab memDefault t a (bs.mapIdx (fun k b => storedByte (a + k) b)))).onPoison
    (fun p => p.filter (fun l => l + 64 ≤ a || e ≤ l))).onCxl
    (fun c => { c with snoop := c.snoop.filter (fun l => l.1 + 64 ≤ a || e ≤ l.1) })

/-- n copies of one byte into device memory. -/
def State.devFill (s : State) (a n : Nat) (pat : List Byte) : State :=
  s.devWrite a ((upto n).map (fun k => pat.getD (k % max 1 pat.length) 0))

/-- The poisoned lines of [a, a + n). -/
def State.poisonIn (s : State) (a n : Nat) : List Nat := s.poison.filter (fun l => a < l + 64 && l < a + n)

/-- A line is stored again as it was read, with or without poison (12 R289). -/
def State.stow (s : State) (l : Nat) (bs : List Byte) (poison : Bool) : State :=
  (s.onMem (fun t => writeTab memDefault t l bs)).onPoison (fun p => if poison then numInsert p l else p.filter (· != l))

/-- Poison a line (12 R289). -/
def State.poisonLine (s : State) (l : Nat) : State := s.onPoison (fun p => numInsert p (l / 64 * 64))

/-- n bytes of host memory. -/
def State.hostRead (s : State) (a n : Nat) : List Byte := readTab hostDefault s.host a n

/-- Bytes into host memory. -/
def State.hostWrite (s : State) (a : Nat) (bs : List Byte) : State := s.onHost (fun t => writeTab hostDefault t a bs)

/-! ## Flask addresses (12 R283, R496) -/

/-- Where an address leads. -/
inductive Loc where
  | dev (a : Nat)
  | host (a : Nat)
  /-- the page is not resident, or is moving (12 R283) -/
  | out (page : Nat)
  | bad
  deriving DecidableEq, Repr

/-- The page of a flask that holds va. -/
def pageOf (f : Flask) (va : Nat) : Option (Nat × Page) :=
  let small := va / 0x10000 * 0x10000
  let big := va / 0x200000 * 0x200000
  match Tab.find? f.pages small with
  | some p => some (small, p)
  | none => match Tab.find? f.pages big with
    | some p => if va < big + p.size then some (big, p) else none
    | none => none

/-- The window index of an address in the cluster-window ranges of R496. -/
def windowOf (a : Nat) : Option Nat :=
  if sramBase ≤ a && a < sramBase + 96 * sramWindow then some ((a - sramBase) / sramWindow)
  else if bramBase ≤ a && a < bramBase + 96 * bramWindow then some ((a - bramBase) / bramWindow)
  else none

/-- 12 R283, R496: where a flask's virtual address leads, and whether it may be written. FLASK 0xFF names physical
addresses (12 R284). -/
def locate (s : State) (flask va : Nat) : Loc × Bool :=
  if flask = 0xFF then (.dev va, true) else
  match Tab.find? s.flasks flask with
  | none => (.bad, false)
  | some f =>
    match windowOf va with
    | some i => if f.clusters.contains i then (.dev va, true) else (.bad, false)
    | none =>
      match pageOf f va with
      | none => (.bad, false)
      | some (base, p) =>
        if p.move.isSome then (.out base, p.write)
        else match p.st with
          | .hbm | .ddr => (.dev (p.pa + (va - base)), p.write)
          | .host => (.host (p.pa + (va - base)), p.write)
          | .outDdr | .outHost => (.out base, p.write)

/-- What a read answers. -/
inductive Got where
  | ok (bs : List Byte)
  | wait (page : Nat)
  | fail (st : Stat)
  deriving DecidableEq, Repr

/-- Addresses [va, va + n) cut at 64 KiB boundaries. -/
def cuts (va n : Nat) : List (Nat × Nat) :=
  if n = 0 then [] else (slotParts 0 0x10000 va n).map (fun x => (x.1 * 0x10000 + x.2.1, x.2.2 - x.2.1))

/-- The row of 01 R27 that one piece of a flask's range matches; an address that leads nowhere, or may not be written, is an
address outside every range (07 R167). -/
def pieceRow (s : State) (flask : Nat) (write : Bool) (c : Nat × Nat) : Nat :=
  match locate s flask c.1 with
  | (.bad, _) => 2
  | (l, w) =>
    if write && !w then 2 else
    match l with
    | .dev a => physRow s a c.2 write
    | _ => 6

/-- A range takes the outcome of the earliest row that any of its lines matches (01 R27). -/
def flaskOutcome (s : State) (flask va n : Nat) (write : Bool) : Stat := rowStat (least 6 ((cuts va n).map (pieceRow s flask write)))

/-- Read one piece behind what has been read: a page that is not resident makes the read wait, a poisoned line fails it
(12 R283, R289). -/
def readPiece (s : State) (flask : Nat) (g : Got) (c : Nat × Nat) : Got :=
  match g with
  | .ok bs =>
    match (locate s flask c.1).1 with
    | .bad => .fail .invalid
    | .out p => .wait p
    | .host a => .ok (bs ++ s.hostRead a c.2)
    | .dev a => if (s.poisonIn a c.2).isEmpty then .ok (bs ++ s.devRead a c.2) else .fail .uncorrectable
  | g => g

/-- Read n bytes at a flask's address (01 R27, 12 R289). -/
def readFlask (s : State) (flask va n : Nat) : Got :=
  match flaskOutcome s flask va n false with
  | .ok => (cuts va n).foldl (readPiece s flask) (.ok [])
  | st => .fail st

/-- The first page of [va, va + n) that is not resident. -/
def firstOut (s : State) (flask va n : Nat) : Option Nat :=
  (cuts va n).findSome? (fun c => match (locate s flask c.1).1 with | .out p => some p | _ => none)

/-- What a write to [va, va + n) of a flask would answer. -/
def writeCheck (s : State) (flask va n : Nat) : Got :=
  match flaskOutcome s flask va n true with
  | .ok => match firstOut s flask va n with | some p => .wait p | none => .ok []
  | st => .fail st

/-- Change memory controller k. -/
def State.onCtl (s : State) (k : Nat) (f : MemCtl → MemCtl) : State := s.onMc (fun t => Tab.upd .init t k f)

/-- Poisoned lines of [a, a + n) have been read (12 R289). -/
def State.countPoison (s : State) (a n : Nat) : State :=
  (s.poisonIn a n).foldl (fun s l => match ctlOf l with
    | some (k, _) => s.onCtl k (fun m => { m with poisonRead := m.poisonRead + 1 })
    | none => s) s

/-- A read of a flask's range has failed with a status: where poisoned lines are the cause, their reads count (12 R289). -/
def State.blame (s : State) (flask va n : Nat) (st : Stat) : State :=
  if st ≠ .uncorrectable then s else
  (cuts va n).foldl (fun s c => match (locate s flask c.1).1 with | .dev a => s.countPoison a c.2 | _ => s) s

/-- Of reads that a unit makes one after another, the first that meets poison is the one that counts (12 R289). -/
def State.blameFirst (s : State) (flask : Nat) (l : List (Nat × Nat)) (st : Stat) : State :=
  match l.find? (fun r => readFlask s flask r.1 r.2 == .fail .uncorrectable) with
  | some r => s.blame flask r.1 r.2 st
  | none => s

/-- Store bytes at a flask's address; where the address leads nowhere the bytes are dropped. -/
def State.flaskWrite (s : State) (flask va : Nat) (bs : List Byte) : State :=
  (cuts va bs.length).foldl (fun s c =>
    let part := slice bs (c.1 - va) c.2
    match (locate s flask c.1).1 with
    | .dev a => s.devWrite a part
    | .host a => s.hostWrite a part
    | _ => s) s

/-- Write with its check: the state after it, and what it answered. -/
def State.tryWrite (s : State) (flask va : Nat) (bs : List Byte) : Got × State :=
  match writeCheck s flask va bs.length with
  | .ok _ => (.ok [], s.flaskWrite flask va bs)
  | g => (g, s)

/-- What a write of bytes that are not whole lines would answer, its lines being all there to be read. -/
def patchCheck (s : State) (flask va n : Nat) : Got := writeCheck s flask (va / 64 * 64) (ceilTo (va + n) 64 - va / 64 * 64)

/-- A unit stores bytes that are not whole lines: it reads the lines, lays the bytes over them, and writes the lines
(01 R27, 04 R101). -/
def State.tryPatch (s : State) (flask va : Nat) (bs : List Byte) : Got × State :=
  let a := va / 64 * 64
  match readFlask s flask a (ceilTo (va + bs.length) 64 - a) with
  | .ok old => s.tryWrite flask a (overlay old (va - a) bs)
  | .fail st => (.fail st, s.blame flask a (ceilTo (va + bs.length) 64 - a) st)
  | g => (g, s)

/-! ## Page faults (07 R180, R181) -/

/-- A page fault begins to wait, with its patience in µs. -/
def State.pageFault (s : State) (flask va : Nat) (who : Waiter) (patience : Nat) : State :=
  (s.onFaults (fun l => l ++ [{ id := s.nextFault, flask, va, who, due := s.time + patience * 1000, served := false }])).onNextFault
    (· + 1)

/-- The fault of a waiter is gone. -/
def State.dropFaults (s : State) (gone : PFault → Bool) : State := s.onFaults (fun l => l.filter (fun f => !gone f))

/-- A flask's default patience in µs (09 R221); 10,000 for the device (10 R249). -/
def patienceOf (s : State) (flask : Nat) : Nat :=
  if flask = 0xFF then 10000 else match Tab.find? s.flasks flask with | some f => f.patience | none => 0

/-! ## Black-box records (20 R467 to R474) -/

/-- 20 R472: the security region. -/
def isSecurity (type : Nat) : Bool := 0x20 ≤ type && type < 0x30

/-- Bytes of a control copy (20 R471). -/
def BbControl.bytes (c : BbControl) : List Byte :=
  let b := leBytes 4 0x58424B49 ++ leBytes 2 1 ++ leBytes 2 0 ++ leBytes 8 c.cseq ++ leBytes 4 c.startCount ++
    leBytes 1 (if c.quick then 1 else 0) ++ leBytes 3 0 ++ leBytes 4 c.cap ++ leBytes 4 c.evtHint ++ leBytes 4 c.evtLost ++
    leBytes 4 c.secLost ++ leBytes 4 c.defectLost ++
    leBytes 1 ((if c.secFull then 1 else 0) + (if c.defectFull then 2 else 0) + (if c.evtWrapped then 4 else 0)) ++
    leBytes 207 0
  b ++ leBytes 4 (crc32 b)

/-- A control copy goes to the MRAM: copy A for an odd CSEQ, copy B for an even one (20 R466, R471;
notes/assumptions/13.md). -/
def BlackBox.putCtl (b : BlackBox) (c : BbControl) : BlackBox :=
  { b with ctl := some c
           mram := writeTab hostDefault b.mram (if c.cseq % 2 = 1 then 0 else 0x100) c.bytes }

/-- An update of the control copy writes the other copy with CSEQ + 1 (20 R471). -/
def BlackBox.updCtl (b : BlackBox) (f : BbControl → BbControl) : BlackBox :=
  match b.ctl with
  | none => b
  | some c => b.putCtl { f c with cseq := c.cseq + 1 }

/-- The control copy of a new device (20 R471). -/
def BbControl.fresh : BbControl :=
  { cseq := 1, startCount := 0, quick := false, cap := 2400, evtHint := 0, evtLost := 0, secLost := 0, defectLost := 0,
    secFull := false, defectFull := false, evtWrapped := false }

/-- A record reaches the writer's queue; an event-log record that finds it full is lost (20 R474). -/
def BlackBox.enqueue (b : BlackBox) (type flask : Nat) (body : List Byte) : BlackBox :=
  if 0x10 ≤ type && type < 0x20 && 4096 ≤ b.queue.length then b.updCtl (fun c => { c with evtLost := sat32 c.evtLost 1 })
  else { b with queue := b.queue ++ [{ type, flask, body := padTo 48 body }] }

/-- A record for the black box. -/
def State.logRec (s : State) (type flask : Nat) (body : List Byte) : State := s.onBox (·.enqueue type flask body)

/-- Bytes of a defect entry (18 R432). -/
def defectBytes (d : Defect) : List Byte :=
  leBytes 1 d.kind ++ leBytes 1 d.source ++ leBytes 2 0 ++ leBytes 4 d.start ++ leBytes 8 d.place ++ leBytes 4 d.dimm ++ leBytes 12 0

/-- Start count of the control copy (18 R425). -/
def State.startCount (s : State) : Nat := match s.box.ctl with | some c => c.startCount | none => 0

/-- An entry is already listed, or waits for its commit (18 R434). -/
def State.hasDefect (s : State) (kind place dimm : Nat) : Bool :=
  s.box.defects.any (fun d => d.kind == kind && d.place == place && d.dimm == dimm) ||
  s.box.queue.any (fun r => r.type == 1 && fld r.body 0 1 == kind && fld r.body 8 8 == place && fld r.body 16 4 == dimm)

/-- 18 R434: a defect is found; an entry equal in KIND, WHERE and DIMM is not added again. -/
def State.addDefect (s : State) (kind source place dimm : Nat) : State :=
  if s.hasDefect kind place dimm then s
  else s.logRec 1 0xFF (defectBytes { kind, source, start := s.startCount, place, dimm })

/-! ## Completions and device events (10 R239 to R242) -/

/-- Bytes of a completion entry (10 R239). -/
def entryBytes (tag stat qnum : Nat) (phase : Bool) (sqHead opcode flask : Nat) (result : List Byte) : List Byte :=
  leBytes 2 tag ++ leBytes 2 stat ++ leBytes 4 (qnum + if phase then 2 ^ 31 else 0) ++ leBytes 2 sqHead ++ leBytes 1 opcode ++
  leBytes 1 flask ++ leBytes 4 0 ++ padTo 16 result

/-- RESULT of a device event (10 R242, 20 R463). -/
def eventResult (e : DevEvent) : List Byte := leBytes 1 e.code ++ leBytes 1 e.byte1 ++ leBytes 6 0 ++ leBytes 8 e.data

/-- 10 R242, 20 R463: a device event waits for queue 0, or is counted lost, and is recorded in the event log. The record
carries the entry with the PHASE and SQ_HEAD of queue 0 as they stand (zero while there is no queue 0;
notes/assumptions/14.md). -/
def State.event (s : State) (e : DevEvent) : State :=
  let q0 := Tab.find? s.qb.queues 0
  let ph := match q0 with | some q => q.phase | none => false
  let hd := match q0 with | some q => q.sqHead | none => 0
  let s := if s.qb.events.length < 256 then s.onQb (fun q => { q with events := q.events ++ [e] })
           else s.onQb (fun q => { q with evtLost := q.evtLost + 1 })
  s.logRec 0x12 e.flask (entryBytes 0xFFFF e.stat.code e.qnum ph hd 0 e.flask (eventResult e) ++ leBytes 8 s.time)

/-- 20 R463: an event that carries QNUM 0 and FLASK 0xFF. -/
def State.devEvent (s : State) (code : Nat) (stat : Stat) (byte1 data : Nat) : State :=
  s.event { code, stat, byte1, data, flask := 0xFF, qnum := 0 }

/-- A security record (20 R472); event 0x11 follows at its commit (20 R463). -/
def State.security (s : State) (type flask : Nat) (body : List Byte) : State := s.logRec type flask body

/-- The accepted command with an acceptance number. -/
def findCmd (s : State) (cid : Nat) : Option Cmd := s.qb.cmds.find? (fun c => c.cid == cid)

/-- Change an accepted command. -/
def State.onCmd (s : State) (cid : Nat) (f : Cmd → Cmd) : State :=
  s.onQb (fun q => { q with cmds := q.cmds.map (fun c => if c.cid == cid then f c else c) })

/-- A status as it is posted: `ST_DEGRADED` replaces `ST_OK` at service level 1 (10 R252). -/
def postedStat (s : State) (st : Stat) : Stat := if st = .ok && s.boot.level == 1 then .degraded else st

/-- An entry waits for the CQ that queue q posts into (10 R240). -/
def State.enter (s : State) (e : Entry) : State :=
  match Tab.find? s.qb.queues e.qnum with
  | none => s
  | some q => s.onQb (fun b => { b with queues := Tab.mod b.queues q.cqOf (fun o => { o with waiting := o.waiting ++ [e] }) })

/-- 10 R240, R252: an accepted command ends with a status and a result. With SUPPRESS, a status of `ST_OK` before the
level-1 replacement posts no entry. -/
def State.finish (s : State) (cid : Nat) (st : Stat) (result : List Byte) : State :=
  match findCmd s cid with
  | none => s
  | some c =>
    let s := s.onQb (fun q => { q with cmds := q.cmds.filter (fun x => !(x.cid == cid)) })
    if c.suppress && st = .ok then s
    else s.enter { cid := some cid, qnum := c.qnum, tag := c.tag, stat := postedStat s st, opcode := c.opcode,
                   flask := c.flask, result := padTo 16 result, intr := c.intr }

/-- A zero result. -/
def zeros16 : List Byte := leBytes 16 0

/-- The command ends with a failure status and a zero result. -/
def State.failCmd (s : State) (cid : Nat) (st : Stat) : State := s.finish cid st zeros16

/-- A parameter field of a packet: byte k of the parameters is byte 16 + k of the packet. -/
def Cmd.p (c : Cmd) (off n : Nat) : Nat := fld c.params off n

/-- Parameter bytes [lo, hi] are zero (00 R9). -/
def Cmd.reserved (c : Cmd) (lo hi : Nat) : Bool := zeroIn c.params lo hi

/-- Run the meaning of an accepted command whose row has not run yet and whose opcode and selectors are the row's. -/
def State.accepted (s : State) (cid : Nat) (ofRow : Cmd → Bool) (f : Cmd → State → State) : State :=
  match findCmd s cid with
  | some c => if c.work = .pending && ofRow c then f c s else s
  | none => s

/-! ## Units -/

/-- The flask that owns cluster i, if one does. -/
def clusterFlask (s : State) (i : Nat) : Option Nat :=
  (s.flasks.find? (fun x => x.2.clusters.contains i)).map (·.1)

/-- The flask with a number. -/
def State.flask? (s : State) (f : Nat) : Option Flask := Tab.find? s.flasks f

/-- Change a flask that exists. -/
def State.onFlask (s : State) (f : Nat) (g : Flask → Flask) : State := s.onFlasks (fun t => Tab.mod t f g)

/-- Window index of a cluster packed as 07 R168 packs it: partition [9:8], column [7:6], row [5:3], other bits 0. -/
def unpackCluster (v : Nat) : Option Nat :=
  if v < 0x400 && v % 8 == 0 && bits v 5 3 < 6 then some (windowIndex (bits v 9 8) (bits v 7 6) (bits v 5 3)) else none

/-- A window index packed as 07 R168 packs a cluster. -/
def packCluster (i : Nat) : Nat := (i / 24) * 0x100 + (i % 4) * 0x40 + (i % 24 / 4) * 8

/-- Address of PX unit n (15 R346). -/
def pxUnit (n : Nat) : Nat := 4 + n * 8

/-! ## Trace SRAM (15 R366, R368) -/

/-- Change router, bridge or crossbar u. -/
def State.onUnit (s : State) (u : Nat) (f : NetUnit → NetUnit) : State :=
  s.onNet (fun n => { n with units := Tab.upd .init n.units u f })

/-- Cluster i's trace SRAM is claimed for a USE (10 R251). -/
def traceUse (s : State) (i use : Nat) : Bool :=
  match Tab.find? s.claims (1024 + i) with
  | some c => c.use == use
  | none => false

/-- An entry goes to cluster i's trace SRAM at its write pointer, and every kind of entry wraps (15 R368). -/
def State.traceEntry (s : State) (i : Nat) (e : List Byte) : State :=
  let wp := (Tab.get .init s.net.units i).traceWp
  let s := s.onNet (fun n => { n with trace := writeTab hostDefault n.trace (65536 * i + wp) e })
  s.onUnit i (fun u => { u with traceWp := (wp + e.length) % 65536, wrapped := u.wrapped || 65536 ≤ wp + e.length })

/-- A claim or a release zeroes cluster i's trace SRAM and its write pointer (15 R368). -/
def State.clearTrace (s : State) (i : Nat) : State :=
  (s.onNet (fun n => { n with trace := n.trace.filter (fun x => x.1 / 65536 != i) })).onUnit i
    (fun u => { u with traceWp := 0, wrapped := false })

/-- A meaning: a next state. -/
def done (s : State) : Out := .next s

end Sys2Proof.Machine
end

