-- ==== Sys2Proof/Machine/Hearths.lean ====
section
/-!
DEFINITION. Fields of a HEARTH descriptor (06 R150), the slices of hearth regions (R142), and how far the engines of a running node
have come (R154), shared by the graph engine's discard and the hearth meanings.
-/

namespace Sys2Proof.Machine

/-! ## Descriptor (06 R150) -/

/-- ATTN. -/
def heAttn (d : List Byte) : Bool := fld d 0 1 == 2
def heStack (d : List Byte) : Nat := fld d 4 1
def heFirst (d : List Byte) : Nat := fld d 5 1
def heCount (d : List Byte) : Nat := fld d 6 1
def heB (d : List Byte) : Nat := fld d 7 1
def heK (d : List Byte) : Nat := fld d 8 4
def heNE (d : List Byte) : Nat := fld d 12 2
def heCvt (d : List Byte) : BitVec 16 := BitVec.ofNat 16 (fld d 14 2)
def heY (d : List Byte) : Nat := fld d 56 8

/-- K_p of R143; d for ATTN. -/
def heKp (d : List Byte) : Nat := if heAttn d then heK d else 128 * ceilDiv (heK d) 128

/-- L_w and L_s of R154. -/
def heLines (d : List Byte) : Nat × Nat :=
  let f := fmtOr (fld d 1 1)
  let ig := f.fmt = .ig4
  let lw := heNE d * heKp d / (if ig then 128 else 64)
  (lw, if !f.block then 0 else ceilDiv lw (if ig then 16 else 32))

/-- Bytes of a page of R144. -/
def kvBytes (d : Nat) : Nat := 132 * d

/-- Bytes of X. -/
def heXBytes (d : List Byte) : Nat := 2 * heB d * heKp d

/-- Bytes of one value of Y: 4 for FP32, 2 for BF16. -/
def heWidth (d : List Byte) : Nat := if fld d 3 1 = 0 then 4 else 2

/-- Bytes that one engine of a HEARTH node writes at Y_ADDR: YS of GEMV, or the B records of RS of ATTN (06 R148). -/
def heYBytes (d : List Byte) : Nat :=
  let w := if fld d 3 1 = 0 then 4 else 2
  if fld d 0 1 = 2 then fld d 7 1 * ceilTo (8 + fld d 8 4 * w) 64 else ceilTo (fld d 7 1 * fld d 12 2 * w) 64

/-! ## Slices (06 R142) -/

/-- The hearth region of stack k that holds an offset. -/
def hearthRegion (s : State) (k o : Nat) : Option Region :=
  ((s.ctl k).regions.find? (fun x => x.2.valid && x.2.hearth && x.2.base * 0x200000 ≤ o &&
    o < (x.2.base + x.2.len) * 0x200000)).map (·.2)

/-- The stack and engine whose slice holds a device address. -/
def sliceOf (s : State) (a : Nat) : Option (Nat × Nat) :=
  match ctlOf a with
  | some (k, o) => if 8 ≤ k then none else
      (hearthRegion s k o).map (fun r => (k, (o - r.base * 0x200000) / (r.len * 0x200000 / 64)))
  | none => none

/-- The engine whose slice holds the start of a key/value page. -/
def pageEngine (s : State) (flask va : Nat) : Option Nat :=
  match (locate s flask va).1 with
  | .dev a => (sliceOf s a).map (·.2)
  | _ => none

/-! ## Base dies and engines -/

/-- Base die k. -/
def State.die (s : State) (k : Nat) : BaseDie := Tab.get .init s.hb k

/-- Change a base die. -/
def State.onDie (s : State) (k : Nat) (f : BaseDie → BaseDie) : State := s.onHb (fun t => Tab.upd .init t k f)

/-- Change a hearth engine, 64 k + e. -/
def State.onEngine (s : State) (x : Nat) (f : Engine → Engine) : State := s.onHe (fun t => Tab.upd .init t x f)

/-! ## Time (06 R154) -/

/-- Cycles from the gang start to the first MAC cycle: 16, and the X broadcast. -/
def heLead (d : List Byte) : Nat := 16 + ceilDiv (heXBytes d) 512

/-- What an engine reads and works over its node: its lines, its MAC cycles, and the cycles C of R154 that they take; n is the number
of an ATTN node's pages in the engine's slice. -/
def heWork (d : List Byte) (n : Nat) : Nat × Nat × Nat :=
  if heAttn d then
    let k := heK d
    (n * (kvBytes k / 64), heB d * 2 * k * n, n * max (2 * k + k / 16) (heB d * (2 * k + 8)))
  else
    let (lw, ls) := heLines d
    (lw + ls, heB d * lw, max (lw + ls) (heB d * lw))

/-- Lines read and MAC cycles of an engine t HCLK cycles after the gang start, in proportion to C (DESIGN CHOICE,
notes/assumptions/123.md). -/
def heDone (d : List Byte) (n t : Nat) : Nat × Nat :=
  let (l, m, c) := heWork d n
  let x := min c (t - heLead d)
  if c = 0 then (0, 0) else (l * x / c, m * x / c)

/-- Pages of an ATTN node in the slice of engine e. -/
def HNode.pagesOf (s : State) (h : HNode) (e : Nat) : Nat :=
  (h.pages.filter (fun p => pageEngine s (h.heat / 2 ^ 33) p.1 == some e)).length

/-- A running node stops now: its engines have read and worked so far, and are free (06 R157, R158). -/
def State.stopGang (s : State) (h : HNode) : State :=
  (upto (heCount h.desc)).foldl (fun s j =>
    let e := heFirst h.desc + j
    let (l, m) := heDone h.desc (h.pagesOf s e) (s.time - h.begun)
    s.onEngine (64 * heStack h.desc + e) (fun x => { x with
      linesRead := x.linesRead + l, macCycles := x.macCycles + m, freeAt := s.time })) s

end Sys2Proof.Machine
end

