-- ==== Sys2Proof/Machine/Rails.lean ====
section
/-!
DEFINITION. The Nimra engines of the ports (16 R378 to R382): peer entries, rails, and how a packet leaves.
-/

namespace Sys2Proof.Machine

/-- Record of port n. -/
def State.eport (s : State) (n : Nat) : EPort := Tab.get .init s.nimra.ports n

/-- Change port n. -/
def State.onEport (s : State) (n : Nat) (f : EPort → EPort) : State := s.onNimra (fun m => { m with ports := Tab.upd .init m.ports n f })

/-- Port n carries Nimra. -/
def portActive (s : State) (n : Nat) : Bool := n < 32 && (s.eport n).st == .active

/-- Entry of a node in port n's peer table. -/
def State.peer (s : State) (n node : Nat) : Peer := Tab.get .init s.nimra.peers (4096 * n + node)

/-- Change a peer entry. -/
def State.onPeer (s : State) (n node : Nat) (f : Peer → Peer) : State :=
  s.onNimra (fun m => { m with peers := Tab.upd .init m.peers (4096 * n + node) f })

/-- RTO_US (16 R376). -/
def rtoUs (s : State) : Nat := if fld s.nimra.cfg 12 4 = 0 then 100 else fld s.nimra.cfg 12 4

/-- Largest payload of a packet (16 R376). -/
def payloadMax (s : State) : Nat := 4096 >>> fld s.nimra.cfg 9 1

/-- The ports a peer lists as ACTIVE; all before its first READY (16 R382). Kept in its entry on rail 0. -/
def peerMask (s : State) (node : Nat) : W32 := (s.peer 0 node).ports.getD 0xFFFFFFFF

/-- A rail is in use toward a node: UP, its port ACTIVE, listed by the peer (16 R382). -/
def railUp (s : State) (node n : Nat) : Bool := portActive s n && (s.peer n node).up && (peerMask s node).getLsbD n

/-- ... and its window has room. -/
def railOpen (s : State) (node n : Nat) : Bool := railUp s node n && (s.peer n node).sent.length < (s.peer n node).cwnd

/-- Every rail of a peer is DOWN (16 R380). -/
def unreachable (s : State) (node : Nat) : Bool := (upto 32).all (fun n => !(s.peer n node).up)

/-- Weight of a rail (16 R382). -/
def railWeight (s : State) (n : Nat) : Nat := if (s.eport n).g400 then 2 else 1

/-- The next rail toward a node in weighted round-robin, and the packets it has had in a row (16 R382). -/
def pickRail (s : State) (node : Nat) : Option (Nat × Nat) :=
  let (n0, used) := Tab.get (0, 0) s.nimra.wrr node
  if railOpen s node n0 && used < railWeight s n0 then some (n0, used + 1)
  else ((upto 32).find? (fun k => railOpen s node ((n0 + 1 + k) % 32))).map (fun k => ((n0 + 1 + k) % 32, 1))

/-- The fields that the engine of port n puts into a packet toward a node (16 R378, R379). -/
def stampPkt (s : State) (n node psn : Nat) (retx : Bool) (p : NPacket) : NPacket :=
  let e := s.peer n node
  { p with
    ackValid := e.epoch.isSome, ece := e.ece, retx, srcNode := s.nimra.nodeId.getD 0, dstNode := node, rail := n, psn,
    ackPsn := e.rcv, sack := BitVec.ofNat 64 (e.map.foldl (fun v i => v + 2 ^ i) 0), epoch := s.nimra.epoch, ce := false, fec := 0 }

/-- A frame leaves port n; the acknowledgement it carries is no longer owed. -/
def State.onWire (s : State) (n node type : Nat) (p : NPacket) : State :=
  ((s.onNimra (fun m => { m with wire := (n, node, type, p) :: m.wire })).onEport n (fun e => { e with txFrames := e.txFrames + 1 })).onPeer n node
    (fun e => { e with owed := 0, ece := false })

/-- A packet that is not sequenced leaves port n (16 R379). -/
def State.sendPlain (s : State) (n node type : Nat) (p : NPacket) : State :=
  if portActive s n then s.onWire n node type (stampPkt s n node 0 false p) else s

/-- A sequenced packet leaves port n with the next PSN, and waits for its acknowledgement. -/
def State.sendSeq (s : State) (n node type : Nat) (p : NPacket) (sends rto : Nat) : State :=
  let psn := (s.peer n node).snd
  let q := stampPkt s n node psn (sends ≠ 1) p
  (s.onWire n node type q).onPeer n node (fun e => { e with
    snd := (psn + 1) % 2 ^ 32, sent := e.sent ++ [{ psn, type, pkt := q, sends, rto, later := 0 }] })

/-- A sequenced packet takes a rail; none where no rail is open. -/
def State.trySend (s : State) (node type : Nat) (p : NPacket) : Option State :=
  match pickRail s node with
  | none => none
  | some (n, used) => some ((s.onNimra (fun m => { m with wrr := Tab.put m.wrr node (n, used) })).sendSeq n node type p 1 (rtoUs s))

/-- A sequenced packet leaves, behind the packets that wait for a rail toward the node (16 R380, R382). -/
def State.post (s : State) (node type : Nat) (p : NPacket) : State :=
  let wait := s.onNimra (fun m => { m with backlog := m.backlog ++ [(node, type, p)] })
  if s.nimra.backlog.any (fun b => b.1 == node) then wait else (s.trySend node type p).getD wait

/-- Packets that wait for a rail leave, in order. -/
def State.flushBacklog (s : State) : State :=
  let l := s.nimra.backlog
  l.foldl (fun s b => s.post b.1 b.2.1 b.2.2) (s.onNimra (fun m => { m with backlog := [] }))

/-- A packet of group `g` toward rank r, before a port completes it. -/
def groupPkt (g : Nat) (x : Group) (r seq op : Nat) : NPacket :=
  let m := x.members.getD r (0, 0)
  { ackValid := false, ece := false, last := true, retx := false, srcNode := 0, srcFlask := x.flask, dstNode := m.1, dstFlask := m.2,
    group := g, rail := 0, psn := 0, ackPsn := 0, sack := 0, seq, op, status := 0, offset := 0, msg := 0, idx := 0, count := 1, epoch := 0,
    ce := false, fec := 0, payload := [] }

/-- Change a group that exists. -/
def State.onGroup (s : State) (g : Nat) (f : Group → Group) : State := s.onNimra (fun m => { m with groups := Tab.mod m.groups g f })

/-- ABORT(SEQ) goes to every member (16 R392). -/
def State.sendAborts (s : State) (g seq : Nat) : State :=
  match Tab.find? s.nimra.groups g with
  | none => s
  | some x =>
    let rs := (upto x.members.length).filter (· ≠ x.rank)
    (rs.foldl (fun (s : State) r => s.post (x.members.getD r (0, 0)).1 5 (groupPkt g x r seq 0)) s).onGroup g
      (fun x => { x with aborts := x.aborts + rs.length })

/-! ## A COLLECTIVE descriptor (16 R385) -/

def coOp (d : List Byte) : Nat := fld d 0 1
def coDtype (d : List Byte) : Nat := fld d 1 1
def coRedop (d : List Byte) : Nat := fld d 2 1
def coSeq (d : List Byte) : Nat := fld d 4 4
def coBytes (d : List Byte) : Nat := fld d 8 8
def coSrc (d : List Byte) : Nat := fld d 16 8
def coDst (d : List Byte) : Nat := fld d 24 8
def coScratch (d : List Byte) : Nat := fld d 32 8
def coWait (d : List Byte) : Nat := fld d 40 8
def coRemote (d : List Byte) : Nat := fld d 48 8
def coPeer (d : List Byte) : Nat := fld d 56 2
/-- The operation reduces. -/
def coReduces (d : List Byte) : Bool := coOp d = 1 || coOp d = 3
/-- PUT or GET. -/
def coOneSided (d : List Byte) : Bool := coOp d = 4 || coOp d = 5

/-- CHUNK and SEG for P members (16 R386). -/
def chunkSize (d : List Byte) (p : Nat) : Nat := 64 * ((coBytes d + 64 * p - 1) / (64 * p))
def segSize (d : List Byte) (p : Nat) : Nat := min (chunkSize d p) 65536
/-- Bytes of chunk j. -/
def chunkLen (d : List Byte) (p j : Nat) : Nat := min ((j + 1) * chunkSize d p) (coBytes d) - j * chunkSize d p

/-- Members of the group of a collective node, and this device's rank; one member where the group is gone. -/
def collShape (s : State) (c : Coll) : Nat × Nat :=
  match Tab.find? s.nimra.groups c.group with | some x => (x.members.length, x.rank) | none => (1, 0)

/-- Memory that a running node writes (16 R386, R388), for the discard rule: addresses and lengths. -/
def collSpoils (s : State) (c : Coll) : List (Nat × Nat) :=
  let d := c.desc
  let (p, r) := collShape s c
  if !c.running then [] else
  (match coOp d with
    | 1 => [(coDst d, coBytes d)]
    | 2 => [(coDst d, p * coBytes d)]
    | 3 => [(coDst d, chunkLen d p r)]
    | 5 => [(coDst d, coBytes d)]
    | _ => []) ++
  (if coReduces d then [(coScratch d, 2 * (p - 1) * segSize d p)] else []) ++ (if coWait d ≠ 0 then [(coWait d, 4 * p)] else [])

/-- A group's faults of placement into its running node are those of ranks; a PUT or GET of a peer has its own numbers. -/
def putWaiter (rank : Nat) : Nat := 65536 + rank

end Sys2Proof.Machine
end

