-- ==== Sys2Proof/Machine/Streams.lean ====
section
/-!
DEFINITION. Stream programs (07 R163 to R168): their decoding and checks, and the address of every byte of a stream.
-/

namespace Sys2Proof.Machine

/-! ## Descriptor fields (07 R168) -/

/-- CTX. -/
def sdCtx (d : List Byte) : Nat := fld d 0 1
/-- DIR: the stream is an output. -/
def sdOut (d : List Byte) : Bool := fld d 1 1 == 1
/-- RT, SCALES and LINK of SMODE. -/
def sdRt (d : List Byte) : Bool := (fld d 2 1).testBit 0
def sdScales (d : List Byte) : Bool := (fld d 2 1).testBit 1
def sdLink (d : List Byte) : Bool := (fld d 2 1).testBit 2
/-- TUN_OFF, TUN_LEN, SCL_LEN. -/
def sdTunOff (d : List Byte) : Nat := fld d 8 4
def sdTunLen (d : List Byte) : Nat := fld d 12 4
def sdSclLen (d : List Byte) : Nat := fld d 16 4
/-- BASE0 and BASE1, signed as 07 R165 computes with them; START. -/
def sdBase0 (d : List Byte) : Int := sext 64 (fld d 32 8)
def sdBase1 (d : List Byte) : Int := sext 64 (fld d 40 8)
def sdStart (d : List Byte) : Nat := fld d 56 8

/-- EB of 07 R165: bytes of one element, one for each IG4 byte. -/
def elemBytes : Fmt → Nat
  | .fp32 => 4 | .bf16 => 2 | .fp16 => 2 | .e4m3 => 1 | .e5m2 => 1 | .ig4 => 1

/-- BB of 07 R165: bytes of one block. -/
def blockBytes : Fmt → Nat
  | .ig4 => 16
  | _ => 32

/-- FMT of a checked descriptor. -/
def sdFmt (d : List Byte) : Fmt := match fmtByte (fld d 6 1) with | .ok f => f.fmt | .error _ => .fp32

/-! ## Programs (07 R163, R164) -/

/-- The fields of one instruction. -/
structure SInstr where
  op : Nat
  lvl : Nat
  crd : Nat
  imm32 : Nat
  imm64 : Nat
  deriving DecidableEq, Repr

/-- One instruction, if its reserved bits are zero. -/
def sInstr? (b : List Byte) : Option SInstr :=
  let w := fld b 0 4
  if bits w 31 13 ≠ 0 then none
  else some { op := bits w 7 0, lvl := bits w 10 8, crd := bits w 12 11, imm32 := fld b 4 4, imm64 := fld b 8 8 }

/-- An instruction's own rules: its fields in range, the fields it does not use zero (07 R164). -/
def SInstr.ok (i : SInstr) : Bool :=
  match i.op with
  | 1 => i.lvl < 6 && i.crd = 0 && i.imm32 ≠ 0 && -(2 ^ 47 : Int) ≤ sext 64 i.imm64 && sext 64 i.imm64 < 2 ^ 47
  | 2 => i.lvl < 6 && i.imm64 = 0
  | 3 => i.lvl = 0
  | 4 => i.lvl = 0 && i.crd = 0 && i.imm64 = 0 && 1 ≤ i.imm32 && i.imm32 ≤ 65536
  | _ => false

/-- The rules among instructions (07 R167): levels 0 to L − 1 once each, coefficients of defined levels and bounded
coordinates, nothing twice, exactly one RUN. -/
def programOk (l : List SInstr) : Bool :=
  let loops := (l.filter (·.op == 1)).map (·.lvl)
  let coefs := (l.filter (·.op == 2)).map (fun i => (i.lvl, i.crd))
  let bounds := (l.filter (·.op == 3)).map (·.crd)
  l.all (·.ok) && loops.Nodup && (upto loops.length).all (loops.contains ·) && coefs.Nodup && bounds.Nodup &&
  coefs.all (fun c => loops.contains c.1 && bounds.contains c.2) && (l.filter (·.op == 4)).length == 1

/-- The program that checked instructions spell. -/
def buildProg (l : List SInstr) : SProg :=
  let loops := l.filter (·.op == 1)
  let at_ (k : Nat) := loops.find? (·.lvl == k)
  let lv := upto loops.length
  { counts := lv.map (fun k => match at_ k with | some i => i.imm32 | none => 1)
    strides := lv.map (fun k => match at_ k with | some i => sext 64 i.imm64 | none => 0)
    coefs := (l.filter (·.op == 2)).foldl (fun t i => Tab.put t (4 * i.lvl + i.crd) (sext 32 i.imm32)) []
    bounds := (l.filter (·.op == 3)).foldl (fun t i => Tab.put t i.crd
      (sext 32 i.imm32, sext 32 (bits i.imm64 31 0), sext 32 (bits i.imm64 63 32))) []
    run := match l.find? (·.op == 4) with | some i => i.imm32 | none => 1 }

/-- A program of n instructions, decoded and checked; none where a rule of 07 R167 is broken. -/
def parseProg (b : List Byte) (n : Nat) : Option SProg :=
  let l := (upto n).map (fun k => sInstr? (slice b (16 * k) 16))
  if l.all (·.isSome) && programOk (l.filterMap id) then some (buildProg (l.filterMap id)) else none

/-- S: the stream's length in bytes (07 R165). -/
def SProg.size (p : SProg) : Nat := p.counts.foldl (· * ·) p.run

/-- The loop counters of run r, the last level fastest (07 R165). -/
def countersOf (counts : List Nat) (r : Nat) : List Nat :=
  (counts.foldr (fun c acc => (acc.1 / max 1 c, acc.1 % max 1 c :: acc.2)) (r, [])).2

/-- The address of run r against BASE0, and whether its coordinates are in bounds (07 R165). -/
def SProg.runAt (p : SProg) (r : Nat) : Int × Bool :=
  let i := countersOf p.counts r
  let a := ((i.zip p.strides).map (fun x => (x.1 : Int) * x.2)).foldl (· + ·) 0
  let valid := p.bounds.all (fun b =>
    let x := b.2.1 + ((i.zipIdx).map (fun y => (y.1 : Int) * Tab.get 0 p.coefs (4 * y.2 + b.1))).foldl (· + ·) 0
    b.2.2.1 ≤ x && x < b.2.2.2)
  (a, valid)

/-- A contiguous piece of the stream from position pos, inside one run: its address against BASE0, its validity and the
bytes left in the run. -/
def SProg.pieceAt (p : SProg) (pos : Nat) : Int × Bool × Nat :=
  let (a, v) := p.runAt (pos / p.run)
  (a + (pos % p.run : Nat), v, p.run - pos % p.run)

/-- The valid address ranges of positions [lo, hi), run by run: data bytes against BASE0 with `unit` 1, scale bytes against BASE1
with a block's bytes as the unit (07 R165). -/
def SProg.ranges (p : SProg) (base : Int) (unit lo hi : Nat) : List (Nat × Nat) :=
  if hi ≤ lo then [] else
  (slotParts 0 (p.run / unit) lo (hi - lo)).filterMap (fun x =>
    let (a, v) := p.runAt x.1
    let b := base + a / unit + x.2.1
    if v && 0 ≤ b then some (b.toNat, x.2.2 - x.2.1) else none)

/-- The format check of a stream (07 R167): the status it is refused with. -/
def streamFmtCheck (d : List Byte) : Stat :=
  match fmtByte (fld d 6 1) with
  | .error true => .unsupported
  | .error false => .invalid
  | .ok f => if sdScales d && !f.block then .invalid else .ok

/-- The fields of the descriptor by themselves (07 R167, R168). -/
def streamHead (d : List Byte) : Bool :=
  let patience := fld d 20 4
  1 ≤ fld d 3 1 && fld d 3 1 ≤ 16 && fld d 64 8 % 64 = 0 &&
  sdCtx d < 32 && fld d 1 1 < 2 && fld d 2 1 < 8 && zeroIn d 7 7 && zeroIn d 30 31 && zeroIn d 72 127 &&
  sdTunOff d % 64 = 0 && sdTunLen d % 64 = 0 && 4096 ≤ sdTunLen d && sdTunLen d ≤ 0x200000 && sdSclLen d % 64 = 0 &&
  (sdScales d || (sdSclLen d = 0 && fld d 40 8 = 0)) && (patience = 0 || (100 ≤ patience && patience ≤ 1000000)) &&
  fld d 48 4 < 2 ^ 17 && (if sdLink d then fld d 52 4 < 2 ^ 15 && (unpackCluster (fld d 52 4 % 1024)).isSome else fld d 52 4 = 0)

/-- The descriptor and the program against each other, as far as no format enters (07 R167, R171). -/
def streamForm (d : List Byte) (p : SProg) : Bool :=
  p.size ≤ 2 ^ 48 && sdStart d < p.size &&
  (!sdLink d || (p.strides.all (· == 0) && p.bounds.isEmpty && p.coefs.isEmpty && fld d 32 8 = 0 && fld d 40 8 = 0 && sdStart d = 0))

/-- The multiples of EB and BB (07 R167), for a format that passes. -/
def streamUnits (d : List Byte) (p : SProg) : Bool :=
  let eb := elemBytes (sdFmt d)
  let bb := blockBytes (sdFmt d)
  p.run % eb = 0 && fld d 32 8 % eb = 0 && p.strides.all (fun x => x % eb == 0) && sdStart d % eb = 0 &&
  (!sdScales d || (p.run % bb = 0 && p.strides.all (fun x => x % bb == 0) && sdStart d % bb = 0))

end Sys2Proof.Machine
end

