-- ==== Sys2Proof/Machine/Graph.lean ====
section
/-!
DEFINITION. The graph engine's operations (09): node entries and their load checks, node states, records, the end of a node
in its unit, the discard rule, and the completion of a heat.
-/

namespace Sys2Proof.Machine

/-- Key of a heat: its flask and HEAT_ID; the step heats of serving loops have numbers from 2^32. -/
def heatKey (flask id : Nat) : Nat := flask * 2 ^ 33 + id

/-- The heat under a key. -/
def State.heat? (s : State) (k : Nat) : Option Heat := Tab.find? s.graph.heats k

/-- Node n of heat k. -/
def State.node? (s : State) (k n : Nat) : Option Node := (s.heat? k).bind (fun h => h.nodes[n]?)

/-- Change a heat in flight. -/
def State.onHeat (s : State) (k : Nat) (f : Heat → Heat) : State :=
  s.onGraph (fun g => { g with heats := Tab.mod g.heats k f })

/-- Change a node of a heat in flight. -/
def State.onNode (s : State) (k n : Nat) (f : Node → Node) : State :=
  s.onHeat k (fun h => { h with nodes := h.nodes.modify n f })

/-- Flask of a heat key. -/
def flaskOfKey (k : Nat) : Nat := k / 2 ^ 33

/-! ## Streams of a heat -/

/-- PARTNER of a STREAM descriptor (07 R168). -/
def streamPartner (d : List Byte) : Nat := fld d 48 4

/-- Key of a stream context: 32 i + c. -/
def ctxKey (cluster ctx : Nat) : Nat := 32 * cluster + ctx

/-- Context record. -/
def State.ctx (s : State) (x : Nat) : Ctx := Tab.get .init s.ld x

/-- Change a stream context. -/
def State.onCtx (s : State) (x : Nat) (f : Ctx → Ctx) : State := s.onLd (fun t => Tab.upd .init t x f)

/-- A context's stream is gone: it turns IDLE, or FILLING with the held stream (07 R162, R172). -/
def Ctx.next (c : Ctx) : Ctx :=
  match c.shadow with
  | some x => { c with st := .filling, cur := some x, shadow := none }
  | none => { c with st := .idle, cur := none }

/-- Streams of the nodes in question end and their contexts return to IDLE; a held stream of another heat takes effect
(07 R182). -/
def Ctx.drop (c : Ctx) (p : Nat → Nat → Bool) : Ctx :=
  let c := match c.shadow with
    | some x => if p x.heat x.node then { c with shadow := none } else c
    | none => c
  match c.cur with
  | some x => if p x.heat x.node then c.next else c
  | none => c

/-- A context leaves PAUSED: the ACLK cycles that it has spent there are counted (07 R183). -/
def State.unpause (s : State) (x : Nat) : State :=
  if (s.ctx x).st = .paused then
    s.onCtx x (fun c => { c with cnt := { c.cnt with
      faultCycles := c.cnt.faultCycles + (s.time - c.pausedAt) * clusterMHz s (x / 32) / 1000 } })
  else s

/-- The context a linked stream names in PEER (07 R168). -/
def peerOf (d : List Byte) : Nat := ctxKey ((unpackCluster (fld d 52 4 % 1024)).getD 0) (fld d 52 4 / 1024)

/-- The streams of contexts x and y are a linked pair: other clusters, one flask, each names the other, the directions differ and
the lengths are equal (07 R171). -/
def linkPair (x : Nat) (c : Stream) (y : Nat) (o : Stream) : Bool :=
  sdLink c.desc && sdLink o.desc && peerOf c.desc == y && peerOf o.desc == x && x / 32 != y / 32 &&
  flaskOfKey c.heat == flaskOfKey o.heat && sdOut c.desc != sdOut o.desc && c.prog.size == o.prog.size

/-- The second of a linked pair to be armed checks the pair (07 R171). -/
def linkOk (s : State) (x : Nat) (c : Stream) : Bool :=
  if !sdLink c.desc then true else
  match (s.ctx (peerOf c.desc)).cur with
  | none => x / 32 != peerOf c.desc / 32
  | some o => linkPair x c (peerOf c.desc) o

/-! ## Ending nodes -/

/-- 06 R152: pages pinned by a node are unpinned. -/
def State.unpin (s : State) (flask : Nat) (pages : List Nat) : State :=
  s.onFlask flask (fun f => { f with pages := pages.foldl (fun t v => Tab.mod t v (fun p => { p with pins := p.pins - 1 })) f.pages })

/-- The node a waiting page fault belongs to. -/
def Waiter.ofNode : Waiter → Option (Nat × Nat)
  | .desc k n | .hearth k n | .program _ k n => some (k, n)
  | _ => none

/-- Memory that discarded work was writing is undefined (09 R212): the lines that an output stream has taken take free
bytes (notes/assumptions/4.md). -/
def State.undefine (s : State) (flask va n : Nat) : State :=
  let a := va / 64 * 64
  let m := ceilTo (va + n) 64 - a
  let (bs, s) := s.drawBytes m
  s.flaskWrite flask a bs

/-- Undefine every byte of a range, piece by piece. -/
def State.undefineRange (s : State) (flask va n : Nat) : State := (cuts va n).foldl (fun s c => s.undefine flask c.1 c.2) s

/-- Memory that an output stream writes at positions below `hi` of its data and `hiS` of its scale bytes (07 R165). -/
def Stream.target (x : Stream) (hi hiS : Nat) : List (Nat × Nat) :=
  if !sdOut x.desc || sdLink x.desc then [] else
  let bb := blockBytes (sdFmt x.desc)
  x.prog.ranges (sdBase0 x.desc) 1 (sdStart x.desc) hi ++
  (if sdScales x.desc then x.prog.ranges (sdBase1 x.desc) bb (sdStart x.desc / bb) hiS else [])

/-- Memory that an input stream reads (07 R165). -/
def Stream.source (x : Stream) : List (Nat × Nat) :=
  if sdOut x.desc || sdLink x.desc then [] else
  let bb := blockBytes (sdFmt x.desc)
  x.prog.ranges (sdBase0 x.desc) 1 (sdStart x.desc) x.prog.size ++
  (if sdScales x.desc then x.prog.ranges (sdBase1 x.desc) bb (sdStart x.desc / bb) (x.prog.size / bb) else [])

/-- All that an output stream writes. -/
def Stream.whole (x : Stream) : List (Nat × Nat) := x.target x.prog.size (x.prog.size / blockBytes (sdFmt x.desc))

/-- The lines of an output stream that is given up (07 R182). -/
def State.undefineStream (s : State) (x : Stream) : State :=
  (x.target x.issued x.issuedS).foldl (fun s r => s.undefineRange (flaskOfKey x.heat) r.1 r.2) s

/-- Streams of a run that are no longer in their contexts: they have completed. -/
def finishedStreams (s : State) (l : List Stream) : List Stream :=
  l.filter (fun c => !s.ld.any (fun y => match y.2.cur with | some o => o.heat == c.heat && o.node == c.node | none => false))

/-- What a discarded node in a tile was writing through its streams: all of a stream that has completed, and in a re-run all of
every stream and the lines of the scales that it wrote (03 R90, 04 R103, 05 R138). -/
def runTargets (s : State) (streams : List Stream) (rerun : Bool) (newScales : List Nat) : List (Nat × Nat) :=
  (if rerun then streams else finishedStreams s streams).flatMap Stream.whole ++ newScales.map (fun a => (a / 64 * 64, 64))

/-- The histogram records and the results in memory that a node in a unit was to write (03 R90, 05 R138, 06 R158, 16 R392), for
the nodes with p: flask, address, length. -/
def spoilt (s : State) (p : Nat → Nat → Bool) : List (Nat × Nat × Nat) :=
  s.mt.flatMap (fun x => match x.2.run with
    | some r => if p r.heat r.node then
        (if (fld r.desc 18 2).testBit 7 then [(flaskOfKey r.heat, fld r.desc 72 8, 320)] else []) ++
        (runTargets s r.streams r.rerun r.newScales).map (fun y => (flaskOfKey r.heat, y.1, y.2))
      else []
    | none => []) ++
  s.vt.flatMap (fun x => (x.2.run.toList ++ x.2.susp).flatMap (fun r =>
    if p r.heat r.node then
      (if x.2.cvtctl.getLsbD 7 then [(flaskOfKey r.heat, fld r.desc 16 8, 320 * r.outN)] else []) ++
      (runTargets s r.streams r.rerun r.newScales).map (fun y => (flaskOfKey r.heat, y.1, y.2)) ++
      r.outs.map (fun l => (0xFF, l, 64)) ++
      (if s.faults.any (fun f => f.who == .desc r.heat r.node) && r.issuing && !r.ended then [(flaskOfKey r.heat, fld r.desc 8 8, 282624)] else [])
    else [])) ++
  s.hb.flatMap (fun x => (x.2.runs.map (·.2)).flatMap (fun h =>
    if p h.heat h.node then
      [(flaskOfKey h.heat, fld h.desc 56 8, fld h.desc 6 1 * heYBytes h.desc)] ++
      (if (fld h.desc 14 2).testBit 7 then [(flaskOfKey h.heat, fld h.desc 72 8, 320)] else [])
    else [])) ++
  s.nimra.colls.flatMap (fun c =>
    if p c.heat c.node then (collSpoils s c).map (fun x => (flaskOfKey c.heat, x.1, x.2)) else [])

/-- The unit has ended node n of heat k with a status (09 R203); the graph engine processes it at its NODE_COMPLETE. -/
def State.endNode (s : State) (k n : Nat) (st : Stat) (f : Node → Node) : State :=
  s.onNode k n (fun x => if x.st = .done || x.ended.isSome then x else { f x with ended := some st, finish := s.time })

/-- A stream has left the shadow of context x: its node is armed (09 R203); the second of a linked pair that breaks R171 ends. -/
def State.armed (s : State) (x : Nat) : State :=
  match (s.ctx x).cur with
  | some c =>
    if linkOk s x c then s.onNode c.heat c.node (fun n => { n with armed := true })
    else (s.endNode c.heat c.node .invalid id).onCtx x (fun k => { k with st := .idle, cur := none })
  | none => s

/-- LDM bytes that a discarded node has stored are undefined (05 R138). -/
def State.undefineLdm (s : State) (x : Nat) (l : List Nat) : State :=
  let (bs, s) := s.drawBytes l.length
  s.onVt (fun t => Tab.upd .init t x (fun m => { m with ldm := (l.zip bs).foldl (fun d y => Tab.store (fun _ => 0) d y.1 y.2) m.ldm }))

/-- What a node that stops in its unit leaves undefined: its results in memory and its bytes in LDM. -/
def State.spoil (s : State) (p : Nat → Nat → Bool) : State :=
  let ldm := s.vt.flatMap (fun x => (x.2.run.toList ++ x.2.susp).filterMap (fun r =>
    if p r.heat r.node && !r.ldmOut.isEmpty then some (x.1, r.ldmOut) else none))
  ldm.foldl (fun s y => s.undefineLdm y.1 y.2) ((spoilt s p).foldl (fun s x => s.undefineRange x.1 x.2.1 x.2.2) s)

/-- Units forget the nodes (k, n) with p k n: queue places, runs, held contexts, streams and waiting faults (03 R90,
05 R138, 06 R158, 07 R182); the engines of a running HEARTH node count what they have done (03 R89, 06 R157). The bank records of a matrix tile whose node ends so are cleared whatever ends it, a timeout, a failed
stream or an overrun too, where 03 R90 names the discarding events and uncorrectable errors only (DESIGN CHOICE,
notes/assumptions/108.md). -/
def State.stopUnits (s : State) (p : Nat → Nat → Bool) : State :=
  let pinned := s.hb.flatMap (fun x => (x.2.queue ++ x.2.runs.map (·.2)).filterMap (fun h =>
    if p h.heat h.node then some (flaskOfKey h.heat, h.pinned) else none))
  let tiles := s.vt.filterMap (fun x => match x.2.run with
    | some r => if p r.heat r.node then some x.1 else none
    | none => none)
  let s := s.spoil p
  let s := (s.hb.flatMap (fun x => (x.2.runs.map (·.2)).filter (fun h => p h.heat h.node))).foldl State.stopGang s
  let s := pinned.foldl (fun s x => s.unpin x.1 x.2) s
  let s := s.onGraph (fun g => { g with kq := g.kq.map (fun x => (x.1, x.2.filter (fun e => !p e.heat e.node))) })
  let s := s.onMt (fun t => t.map (fun x => (x.1, match x.2.run with
    | some r => if p r.heat r.node then
        { x.2 with run := none, hold := none, held := 0, acc := [], bankA := .init, bankB := .init } else x.2
    | none => x.2)))
  let s := s.onVt (fun t => t.map (fun x => (x.1,
    { x.2 with
      run := match x.2.run with | some r => if p r.heat r.node then none else some r | none => none
      susp := x.2.susp.filter (fun r => !p r.heat r.node) })))
  let s := s.onHb (fun t => t.map (fun x => (x.1,
    { x.2 with queue := x.2.queue.filter (fun h => !p h.heat h.node), runs := x.2.runs.filter (fun r => !p r.2.heat r.2.node) })))
  let gone := s.ld.filterMap (fun x => match x.2.cur with
    | some c => if p c.heat c.node then some x.1 else none
    | none => none)
  let s := (s.ld.filterMap (fun x => x.2.cur)).foldl (fun s c => if p c.heat c.node then s.undefineStream c else s) s
  let s := gone.foldl State.unpause s
  let s := s.onLd (fun t => t.map (fun x => (x.1, x.2.drop p)))
  let s := gone.foldl State.armed s
  let s := s.onFp (fun t => t.map (fun x => (x.1, { x.2 with dtags := x.2.dtags.filter (fun d => !p d.2.1 d.2.2) })))
  let cs := s.nimra.colls.filter (fun c => p c.heat c.node && c.running)
  let s := s.onNimra (fun m => { m with colls := m.colls.filter (fun c => !p c.heat c.node) })
  let s := cs.foldl (fun s c => if coOneSided c.desc then s else s.sendAborts c.group (coSeq c.desc)) s
  s.dropFaults (fun f => match f.who with
    | .stream x => gone.contains x
    | .place g r => r < 65536 && cs.any (fun c => c.group == g)
    | .fetch t => tiles.contains t
    | w => match w.ofNode with | some (k, n) => p k n | none => false)

/-- A node in a unit fails: the unit stops it and it ends with the status and what its record says. -/
def State.failNodeWith (s : State) (k n : Nat) (st : Stat) (f : Node → Node) : State :=
  match s.node? k n with
  | some x =>
    if (x.st = .dispatched || x.st = .suspended) && (x.ended.isNone || (x.cls = 5 && x.ended = some .ok)) then
      ((s.stopUnits (fun a b => a == k && b == n)).onNode k n (fun y => { y with ended := none })).endNode k n st f
    else s
  | none => s

/-- A node in a unit fails: the unit stops it and it ends with the status. -/
def State.failNode (s : State) (k n : Nat) (st : Stat) : State := s.failNodeWith k n st id

/-! ## Node entries (09 R199 to R201) -/

/-- CLASS of an entry. -/
def entClass (e : List Byte) : Nat := fld e 0 1

/-- The fields of R200 that a class sets to zero are zero, and reserved bytes are zero. -/
def entryForm (e : List Byte) : Bool :=
  let cls := entClass e
  let npred := fld e 1 1
  1 ≤ cls && cls ≤ 8 && npred ≤ 8 && zeroIn e 3 3 && zeroIn e 12 15 &&
  (upto 8).all (fun k => let v := fld e (32 + 4 * k) 4; v < 2 ^ 17 && (k < npred || v == 0)) &&
  (match cls with
    | 1 | 2 | 3 => fld e 6 2 == 0 && fld e 24 8 == 0
    | 4 => fld e 4 2 == 0 && fld e 6 2 == 0 && fld e 24 8 == 0
    | 5 => fld e 24 8 == 0
    | 6 => fld e 4 2 == 0 && fld e 24 8 == 0
    | 7 => fld e 4 2 == 0
    | _ => fld e 4 2 == 0 && fld e 6 2 == 0 && fld e 16 8 == 0 && fld e 24 8 == 0)

/-- Predecessors of an entry. -/
def entPreds (e : List Byte) : List Nat := (upto (fld e 1 1)).map (fun k => fld e (32 + 4 * k) 4)

/-- DESC_ADDR and ENDPOINT are in range (09 R200). -/
def entryAddr (e : List Byte) : Bool :=
  let a := fld e 16 8
  let ep := fld e 6 2
  match entClass e with
  | 8 => true
  | 5 | 6 => a ≠ 0 && a % 64 = 0 && ep < 256
  | 7 => a ≠ 0 && a % 64 = 0 && (ep < 2048 || ep = 0xFFFF)
  | _ => a ≠ 0 && a % 64 = 0

/-- The class carries a TARGET. -/
def hasTarget (cls : Nat) : Bool := cls = 1 || cls = 2 || cls = 3 || cls = 5

/-- A class whose entries name a descriptor in flask memory (09 R218). -/
def hasDesc (cls : Nat) : Bool := 1 ≤ cls && cls ≤ 6

/-- The rows of 09 R201 up to PHASE for entry i of a heat: the status of the first row it fails. `full` makes every check; a pattern's
heat repeats only the checks against exposed clusters and PHASE (09 R219). -/
def entryCheck (s : State) (flask : Flask) (full : Bool) (i : Nat) (e : List Byte) : Option Stat :=
  let cls := entClass e
  let tgt := unpackCluster (fld e 4 2)
  let inFlask := match tgt with | some c => flask.clusters.contains c | none => false
  let up := match tgt with | some c => exposed s c | none => false
  if full && !entryForm e then some .invalid
  else if full && !((entPreds e).all (· < i) && (entPreds e).Nodup) then some .invalid
  else if full && !entryAddr e then some .invalid
  else if full && hasTarget cls && !inFlask then some .invalid
  else if hasTarget cls && !up then some .noResource
  else if flask.phaseCount ≤ fld e 2 1 then some .invalid
  else none

/-- A node as it is loaded. -/
def loadNode (e : List Byte) (sdesc : List Byte) : Node :=
  { cls := entClass e, preds := entPreds e, phaseKey := fld e 2 1, target := (unpackCluster (fld e 4 2)).getD 0,
    endpoint := fld e 6 2, timeout := fld e 8 4, descAddr := fld e 16 8, aux := fld e 24 8, sdesc, st := .waiting, held := none,
    armed := false, ended := none, status := none, written := false, stale := 0, cvt := [0, 0, 0, 0], detail := 0,
    suspends := 0, result := zeros16, readyAt := 0, aged := false, start := 0, finish := 0 }

/-! ## Readiness (09 R203, R204) -/

/-- Node n is satisfied: it completed with `ST_OK` or `ST_SCALE_STALE`. -/
def satisfied (h : Heat) (n : Nat) : Bool :=
  match h.nodes[n]? with
  | some x => x.st = .done && (x.status = some .ok || x.status = some .stale)
  | none => false

/-- Every STREAM node that names n as PARTNER has been armed. -/
def streamsArmed (h : Heat) (n : Nat) : Bool := h.nodes.all (fun x => x.cls != 3 || streamPartner x.sdesc != n || x.armed)

/-- Nodes whose predecessors are satisfied and whose streams are armed become READY (09 R203). -/
def Heat.refresh (h : Heat) (now : Nat) : Heat :=
  { h with nodes := h.nodes.mapIdx (fun i x =>
      if x.st = .waiting && x.preds.all (satisfied h) && streamsArmed h i then { x with st := .ready, readyAt := now } else x) }

/-- 09 R204: the STREAM nodes of a heat that cannot progress; none if it can. -/
def Heat.stuck (h : Heat) : Option Nat :=
  let blocked (n : Nat) : Bool := match h.nodes[n]? with
    | some x => x.st = .waiting && !x.preds.all (satisfied h)
    | none => false
  let bad (n : Nat) (x : Node) : Bool := x.cls = 3 && x.st ≠ .done && blocked (streamPartner x.sdesc) && !blocked n
  let ok := (h.nodes.zipIdx).all (fun x => x.1.st = .done || blocked x.2 || bad x.2 x.1)
  if ok then (h.nodes.zipIdx.find? (fun x => x.1.st ≠ .done && x.1.cls = 3 && blocked (streamPartner x.1.sdesc))).map (·.2)
  else none

/-! ## The end of a heat -/

/-- 09 R212: a heat ends early with a verdict; every node that has not ended never runs or is ended with `ST_DISCARDED`. -/
def State.endHeat (s : State) (k : Nat) (st : Stat) (first : Nat) (own : Option (Nat × Stat)) : State :=
  match s.heat? k with
  | none => s
  | some h =>
    if h.verdict.isSome then s else
    let s := (s.stopUnits (fun a b => a == k && match h.nodes[b]? with | some x => x.ended.isNone | none => true)).dropFaults
      (fun f => f.who == .load k)
    let blank := loadNode (leBytes 64 0) []
    let nodes := if h.nodes.isEmpty then List.replicate h.count blank else h.nodes
    s.onHeat k (fun h => { h with
      verdict := some (st, first), phase := .ending,
      nodes := nodes.mapIdx (fun i x =>
        if x.st = .done then x else
        match x.ended with
        | some e => { x with st := .done, status := some e }
        | none => { x with st := .done, finish := s.time,
                           status := some (match own with | some (j, e) => if i = j then e else .discarded | none => .discarded) }) })

/-- After a completion or an arming: nodes become READY, and a heat that cannot progress ends (09 R203, R204). Before the
heat's first completion or arming there is no test. -/
def State.progress (s : State) (k : Nat) : State :=
  let s := s.onHeat k (fun h => if h.phase = .running then h.refresh s.time else h)
  match s.heat? k with
  | some h => if h.phase = .running then
      if h.nodes.any (fun x => x.armed || x.st = .done) then
        match h.stuck with
        | some n => s.endHeat k .invalid n (some (n, .invalid))
        | none => s
      else s
    else s
  | none => s

/-- Every heat goes on: streams of other heats may have been armed when a heat ended (07 R172, 09 R203). -/
def State.settle (s : State) : State := (s.graph.heats.map (·.1)).foldl State.progress s

/-- Bytes of a node record (09 R205). -/
def nodeRecord (x : Node) : List Byte :=
  leBytes 2 ((x.status.getD .discarded).code) ++ leBytes 1 x.cls ++ leBytes 1 x.stale.toNat ++ padTo 4 x.cvt ++ leBytes 4 x.detail ++
  leBytes 2 x.suspends ++ leBytes 2 0 ++ padTo 16 x.result ++ leBytes 8 x.start ++ leBytes 8 x.finish ++ leBytes 16 0

/-- 09 R206, R213: a heat whose nodes are all DONE takes its verdict from them. -/
def Heat.outcome (h : Heat) : Stat × Nat :=
  match h.verdict with
  | some v => v
  | none => match h.firstStale with
    | some n => (.stale, n)
    | none => (.ok, 0xFFFFFFFF)

/-- The 16-byte result of a heat (09 R206). -/
def Heat.result (h : Heat) (now : Nat) : List Byte :=
  leBytes 4 h.id ++ leBytes 4 h.outcome.2 ++
  leBytes 4 (h.nodes.filter (fun x => x.status = some .stale)).length ++ leBytes 4 (min ((now - h.accTime) / 1000) 0xFFFFFFFF)

/-- The heat has nothing left to write: its completion may be posted (09 R206). -/
def Heat.complete (h : Heat) : Bool :=
  (h.phase = .running || h.phase = .ending) && h.nodes.all (fun x => x.st = .done && x.written) &&
  (h.verdict.isSome || !h.nodes.isEmpty)

/-- The device phase-table entry of a node, PHASE_BASE + k (09 R220). -/
def phaseOf (s : State) (k n : Nat) : Nat :=
  match s.flask? (flaskOfKey k), s.node? k n with
  | some f, some x => (f.phaseBase + x.phaseKey) % 256
  | _, _ => 0

/-- Entries of the node table a flask's heats hold (09 R214). -/
def entriesHeld (s : State) (flask : Nat) : Nat :=
  ((s.graph.heats.filter (fun x => x.2.flask == flask && x.2.phase != .held)).map (fun x => x.2.count)).sum

/-- A range is mapped in a flask, and writable where asked (09 R214). -/
def mapped (s : State) (flask va n : Nat) (write : Bool) : Bool :=
  (cuts va n).all (fun c => match locate s flask c.1 with | (.bad, _) => false | (_, w) => w || !write)

/-- A node's descriptor: of a STREAM node the copy read at load, of a step heat its instance (09 R201, 11 R258). -/
def readDesc (s : State) (k : Nat) (x : Node) : Got :=
  if x.sdesc.isEmpty then readFlask s (flaskOfKey k) x.descAddr 128 else .ok x.sdesc

/-! ## Loading (09 R201, R219, R495) -/

/-- What a load comes to; the entry is the one that waits or fails. -/
inductive Loaded where
  | wait (page entry : Nat)
  | fail (st : Stat) (entry : Nat)
  | ok (nodes : List Node)
  deriving DecidableEq, Repr

/-- Read entry i of an array. -/
def readEntry (s : State) (flask base i : Nat) : Got := readFlask s flask (base + 64 * i) 64

/-- The last two rows of 09 R201 for a STREAM entry and its descriptor: CLUSTER and PARTNER. The partner's own entry may wait for its
page; one that cannot be read fails at its own index. -/
def partnerCheck (e sd : List Byte) (partner : Option Got) : Got :=
  if fld sd 4 2 ≠ fld e 4 2 then .fail .invalid else
  match partner with
  | none => .fail .invalid
  | some (.wait p) => .wait p
  | some (.fail _) => .ok sd
  | some (.ok q) => if (entClass q = 1 || entClass q = 2 || entClass q = 5) && fld q 4 2 == fld e 4 2 then .ok sd else .fail .invalid

/-- The checks of entry i in the order of 09 R201's rows, the STREAM descriptor being read at its row; `before` holds the STREAM
descriptors of the entries before it. It answers the entry's STREAM descriptor, empty for the other classes. -/
def loadEntry (s : State) (flask : Nat) (f : Flask) (full : Bool) (ents : List Got) (before : Tab (List Byte)) (desc : Nat → Option Nat)
    (i : Nat) : Got :=
  match ents[i]? with
  | some (.ok e) =>
    match entryCheck s f full i e with
    | some st => .fail st
    | none =>
      let sd : Got := if entClass e ≠ 3 then .ok [] else
        match readFlask s flask ((desc i).getD (fld e 16 8)) 128 with
        | .ok sd => if full then partnerCheck e sd (ents[streamPartner sd]?) else .ok sd
        | g => g
      match sd with
      | .ok d =>
        if full && (entPreds e).any (fun p => match Tab.find? before p with
          | some q => streamPartner q = i
          | none => false) then .fail .invalid else .ok d
      | g => g
  | some g => g
  | none => .fail .invalid

/-- Load a heat's entries from an array of its flask's memory, in ascending order: the lowest entry that fails sets the status, and
none after an entry that waits is judged (09 R201, R495). -/
def loadArray (s : State) (flask : Nat) (f : Flask) (base n : Nat) (full : Bool) (desc : Nat → Option Nat) : Loaded :=
  let ents := (upto n).map (readEntry s flask base)
  let step (acc : Except Loaded (Tab (List Byte))) (i : Nat) : Except Loaded (Tab (List Byte)) :=
    match acc with
    | .error l => .error l
    | .ok t =>
      match loadEntry s flask f full ents t desc i with
      | .wait p => .error (.wait p i)
      | .fail st => .error (.fail st i)
      | .ok [] => .ok t
      | .ok sd => .ok (Tab.put t i sd)
  match (upto n).foldl step (.ok []) with
  | .error l => l
  | .ok sds => .ok (ents.zipIdx.map (fun x =>
      let nd := loadNode (match x.1 with | .ok e => e | _ => []) (Tab.get [] sds x.2)
      match desc x.2 with | some a => if hasDesc nd.cls then { nd with descAddr := a } else nd | none => nd))

/-- A stored descriptor with the binding values of its patches (09 R219, step 2). -/
def patchedDesc (s : State) (flask : Nat) (p : Pattern) (bind i : Nat) : Got :=
  p.patches.foldl (fun (g : Got) x =>
    match g with
    | .ok d => if x.1 = i then
        match readFlask s flask (bind + 8 * x.2.2) 8 with
        | .ok v => .ok (overlay d (8 * x.2.1) v)
        | g => g
      else .ok d
    | g => g) (readFlask s flask (p.store + 64 * p.count + 128 * i) 128)

/-- Copy a pattern's descriptors to the instance area and write the binding values (09 R219, steps 1 and 2): the state, and the
entry at which a read or a write waits or fails, with what it answered. -/
def State.instantiate (s : State) (flask : Nat) (p : Pattern) (area bind : Nat) : Option (Got × Nat) × State :=
  (upto p.count).foldl (fun (acc : Option (Got × Nat) × State) i =>
    match acc with
    | (some g, s) => (some g, s)
    | (none, s) =>
      match readFlask s flask (p.store + 64 * i) 64 with
      | .ok e =>
        if !hasDesc (entClass e) then (none, s) else
        match patchedDesc s flask p bind i with
        | .ok d => (match s.tryWrite flask (area + 128 * i) d with
          | (.ok _, s) => (none, s)
          | (g, s) => (some (g, i), s))
        | g => (some (g, i), s)
      | g => (some (g, i), s)) (none, s)

/-- What the load of a heat comes to: an array, or a pattern's instance, whose copy may stop at an entry; an entry before it that
fails a check comes first (09 R201, R219). -/
def State.tryLoad (s : State) (h : Heat) (f : Flask) : Loaded × State :=
  match h.pattern with
  | none => (loadArray s h.flask f h.nodeAddr h.count true (fun _ => none), s)
  | some pn =>
    match Tab.find? s.graph.patterns pn with
    | none => (.fail .notPresent 0, s)
    | some p =>
      let at1 (s : State) (n : Nat) : Loaded := loadArray s h.flask f p.store n false (fun i => some (h.nodeAddr + 128 * i))
      match s.instantiate h.flask p h.nodeAddr h.bindAddr with
      | (none, s) => (at1 s h.count, s)
      | (some (g, i), s) =>
        match at1 s i with
        | .fail st j => (.fail st j, s)
        | _ => (match g with | .wait a => .wait a i | .fail st => .fail st i | .ok _ => .fail .invalid i, s)

/-- What the load of entry i of an array reads: the entry, and a STREAM node's descriptor. -/
def entryReads (s : State) (flask base : Nat) (desc : Nat → Option Nat) (i : Nat) : List (Nat × Nat) :=
  (base + 64 * i, 64) ::
    (match readEntry s flask base i with
      | .ok e => if entClass e = 3 then [((desc i).getD (fld e 16 8), 128)] else []
      | _ => [])

/-- What the load of a heat reads for entry i, a pattern's copy first (09 R201, R219). -/
def loadReads (s : State) (h : Heat) (i : Nat) : List (Nat × Nat) :=
  match h.pattern with
  | none => entryReads s h.flask h.nodeAddr (fun _ => none) i
  | some pn => match Tab.find? s.graph.patterns pn with
    | none => []
    | some p =>
      (p.store + 64 * p.count + 128 * i, 128) ::
      (p.patches.filter (fun x => x.1 == i)).map (fun x => (h.bindAddr + 8 * x.2.2, 8)) ++
      entryReads s h.flask p.store (fun i => some (h.nodeAddr + 128 * i)) i

/-- A load has failed: no node runs and no record is written (09 R201). -/
def State.failLoading (s : State) (k : Nat) (st : Stat) (entry : Nat) : State :=
  (match s.heat? k with | some h => s.blameFirst h.flask (loadReads s h entry) st | none => s).onHeat k (fun h => { h with phase := .ending, verdict := some (st, entry), nodes := [] })

/-- A heat loads, or goes on loading (09 R201, R219, R495). -/
def State.loadHeat (s : State) (k : Nat) : State :=
  match s.heat? k with
  | none => s
  | some h =>
    match s.flask? h.flask with
    | none => s
    | some f =>
      match s.tryLoad h f with
      | (.wait a _, s) => (s.onHeat k (fun h => { h with phase := .loading })).pageFault h.flask a (.load k) f.patience
      | (.fail st i, s) => s.failLoading k st i
      | (.ok nodes, s) => (s.onHeat k (fun h => { h with phase := .running, nodes })).progress k

/-- The patience of a load's read expires: the load fails at the entry that waits, or at an entry that fails by now (09 R495). -/
def State.expireLoad (s : State) (k : Nat) (st : Stat) : State :=
  match s.heat? k with
  | none => s
  | some h =>
    if h.phase ≠ .loading || h.verdict.isSome then s else
    match s.flask? h.flask with
    | none => s
    | some f =>
      match s.tryLoad h f with
      | (.wait _ i, s) => s.failLoading k st i
      | (.fail e i, s) => s.failLoading k e i
      | (.ok nodes, s) => (s.onHeat k (fun h => { h with phase := .running, nodes })).progress k

end Sys2Proof.Machine
end

