-- ==== Sys2Proof/Machine/Moulds.lean ====
section
/-!
DEFINITION. The sprue's operations (14): image checks, frames, block RAMs, pins and PLLs of a mould, its teardown, and the
early end of a load.
-/

namespace Sys2Proof.Machine

/-! ## Fields of an image header (14 R324) -/

/-- SIGN_SLOT, IDCODE, FRAME_COUNT. -/
def imSlot (h : List Byte) : Nat := fld h 7 1
def imIdcode (h : List Byte) : Nat := fld h 8 4
def imCount (h : List Byte) : Nat := fld h 12 4
/-- ENC and KEY_SRC. -/
def imEnc (h : List Byte) : Nat := fld h 56 1
def imKeySrc (h : List Byte) : Nat := fld h 57 1
/-- QUARTERS as a list. -/
def imQuarters (h : List Byte) : List Nat := (upto 4).filter (fun q => (fld h 90 1).testBit q)
/-- CLUSTER as a window index. -/
def imCluster (h : List Byte) : Nat := (unpackCluster (fld h 88 2)).getD 0
/-- MOULD_ID: 4 i and the lowest quarter (14 R332). -/
def imId (h : List Byte) : Nat := 4 * imCluster h + (imQuarters h).headD 0
/-- The declared (F, D) pairs, each once. -/
def imPairs (h : List Byte) : List (Nat × Nat) :=
  ((upto 8).filterMap (fun k => let o := 104 + 8 * k
    if (fld h (o + 6) 1).testBit 0 then some (fld h o 4, fld h (o + 4) 2) else none)).dedup
/-- STARTUP. -/
def imStartup (h : List Byte) : List (Nat × Nat) := (upto 4).map (fun k => (fld h (168 + 4 * k) 1, fld h (170 + 4 * k) 2))
/-- ENDPOINT, declared entries. -/
def imEndpoints (h : List Byte) : List (Nat × Nat) :=
  (upto (min 16 (fld h 91 1))).map (fun k => (fld h (184 + 4 * k) 1, fld h (185 + 4 * k) 1))

/-! ## The checks of 14 R329 -/

/-- Least and greatest FRAME_COUNT of a kind (14 R323). -/
def frameBounds (kind : Nat) : Nat × Nat := if kind = 0 then (256, 1312) else if kind = 1 then (3072, 3072) else (1, 1)

/-- Check 1: identity, sizes, and reserved and unused fields. -/
def hdrForm (kind : Nat) (h : List Byte) : Bool :=
  fld h 0 4 == 0x4D584B49 && fld h 4 2 == 1 && fld h 6 1 == kind && imSlot h < 4 &&
  fld h 16 8 == 1024 + 1088 * imCount h && (frameBounds kind).1 ≤ imCount h && imCount h ≤ (frameBounds kind).2 &&
  imEnc h < 2 && imKeySrc h < 2 && zeroIn h 58 63 && zeroIn h 72 87 && zeroIn h 102 103 && zeroIn h 248 255 &&
  (kind == 0 || zeroIn h 88 255) && (kind != 1 || (imEnc h == 0 && imKeySrc h == 0 && zeroIn h 64 71)) &&
  (kind != 0 ||
    (1 ≤ fld h 90 1 && fld h 90 1 < 16 && fld h 91 1 ≤ 16 &&
     (upto 8).all (fun k => fld h (110 + 8 * k) 1 < 2 && fld h (111 + 8 * k) 1 == 0) &&
     (upto 4).all (fun k => fld h (169 + 4 * k) 1 == 0) &&
     (upto 16).all (fun k => fld h (186 + 4 * k) 2 == 0 && (k < fld h 91 1 || fld h (184 + 4 * k) 4 == 0))))

/-- Check 2: IDCODE, of any stepping when bits [31:28] are 0. -/
def hdrDevice (h : List Byte) : Bool :=
  if imIdcode h / 2 ^ 28 = 0 then imIdcode h == Config.idcode.toNat % 2 ^ 28 else imIdcode h == Config.idcode.toNat

/-- The key of an encrypted image is usable (14 R328). -/
def keyUsable (s : State) (src : Nat) : Bool :=
  if src = 0 then s.fuses.aesKeySet else !s.fuses.batkeyDisable && s.sprue.keyValid

/-- The key that KEY_SRC names. -/
def keyOf (s : State) (src : Nat) : BitVec 256 := if src = 0 then s.fuses.aesKey else s.sprue.batKey

/-- A header's modulus belongs to a slot that is not revoked (14 R327). -/
def slotOk (s : State) (slot : Nat) (h : List Byte) : Bool :=
  slot < 4 && !s.fuses.pkRevoked.getLsbD slot && digest256 (slice h 256 384) == s.fuses.pkHash.getD slot 0

/-- SIGNATURE over bytes 0 to 639. -/
def sigOk (h : List Byte) : Bool := pssVerify (slice h 256 384) (slice h 640 384) (slice h 0 640)

/-- Check 3: the code of 20 R472 for what fails. -/
def hdrAuth (s : State) (kind : Nat) (h : List Byte) : Option Nat :=
  if !slotOk s (imSlot h) h then some 1
  else if !sigOk h then some 2
  else if imEnc h = 0 && (kind = 2 || (kind = 0 && s.fuses.encRequired)) then some 3
  else if imEnc h = 1 && (!keyUsable s (imKeySrc h) || (kind = 2 && imKeySrc h ≠ 0)) then some 4
  else none

/-- A declared clock keeps 13 R309. -/
def clockOk (x : Nat × Nat) : Bool :=
  2097152 ≤ x.1 && x.1 ≤ 4194304 && 4 ≤ x.2 && x.2 ≤ 640 && 65536 * x.2 ≤ 10 * x.1 && x.1 ≤ 8 * 65536 * x.2

/-- STARTUP keeps 14 R337: each code once, LOCK_WAIT before BORDER_OPEN. -/
def startupOk (l : List (Nat × Nat)) : Bool :=
  let ev := l.map (·.1)
  [1, 2, 3, 4].all (ev.contains ·) && ev.length == 4 && ev.idxOf 1 < ev.idxOf 4

/-- Check 4 for a mould of a flask. -/
def hdrPlace (s : State) (flask : Nat) (h : List Byte) : Bool :=
  let qs := imQuarters h
  (match unpackCluster (fld h 88 2), s.flask? flask with
    | some i, some f => f.clusters.contains i
    | _, _ => false) &&
  (upto 64).all (fun b => !(fld h 92 8).testBit b || qs.contains (b / 16)) &&
  (imEndpoints h).all (fun e => qs.contains e.2) && ((imEndpoints h).map (·.1)).Nodup &&
  (imPairs h).all clockOk && startupOk (imStartup h) &&
  bits (fld h 100 2) 1 0 ≠ 3 && bits (fld h 100 2) 3 2 ≠ 3 && bits (fld h 100 2) 15 4 = 0

/-- Check 5: the shell is loaded, and the cluster is exposed and has not failed. -/
def hdrThere (s : State) (h : List Byte) : Bool := s.sprue.shell ≠ 0 && clusterThere s (imCluster h)

/-- Moulds of ring i that hold one of the quarters. -/
def holders (s : State) (i : Nat) (qs : List Nat) : List (Nat × Mould) :=
  s.sprue.moulds.filter (fun m => m.2.cluster == i && m.2.quarters.any (qs.contains ·))

/-- The mould a load replaces (14 R332), or none; an error where a quarter is held by a mould it may not replace. -/
def replaced (s : State) (flask : Nat) (replace : Bool) (h : List Byte) : Except Unit (Option Nat) :=
  match holders s (imCluster h) (imQuarters h) with
  | [] => .ok none
  | [m] => if replace && m.2.flask = flask && m.2.quarters.all ((imQuarters h).contains ·) then .ok (some m.1) else .error ()
  | _ => .error ()

/-- An endpoint number is registered in the flask by a mould that stays (13 R315; notes/assumptions/34.md). -/
def endpointTaken (s : State) (flask : Nat) (old : Option Nat) (h : List Byte) : Bool :=
  s.sprue.moulds.any (fun m => m.2.flask == flask && m.2.registered && some m.1 != old &&
    m.2.endpoints.any (fun e => (imEndpoints h).any (fun d => d.1 == e.1)))

/-- PLLs of partition p that nobody uses. -/
def freePlls (s : State) (p : Nat) : List Nat := ((upto 32).map (fun k => 32 * p + k)).filter (fun k => !Tab.has s.sprue.plls k)

/-- A PLL of the partition that the flask runs at a pair already (13 R310). -/
def sharedPll (s : State) (flask p : Nat) (x : Nat × Nat) : Option Nat :=
  (s.sprue.plls.find? (fun y => y.1 / 32 == p && y.2.flask == flask && y.2.f == x.1 && y.2.d == x.2)).map (·.1)

/-- Check 7: PLLs are free for the pairs that no PLL of the flask runs. -/
def hdrPlls (s : State) (flask : Nat) (h : List Byte) : Bool :=
  let p := imCluster h / 24
  ((imPairs h).filter (fun x => (sharedPll s flask p x).isNone)).length ≤ (freePlls s p).length

/-! ## Frames and block RAMs (14 R325, R331, 13 R308) -/

/-- Key of a frame. -/
def frameKey (i q ft fr : Nat) : Nat := ((4 * i + q) * 3 + ft) * 256 + fr

/-- Ring quarter 4 i + q of a frame key, and its FTYPE. -/
def quarterOfFrame (k : Nat) : Nat := k / 768
def ftypeOfFrame (k : Nat) : Nat := k % 768 / 256

/-- Block RAMs of quarter q of ring i read zero. -/
def State.zeroBram (s : State) (i q : Nat) : State :=
  let a := bramBase + i * bramWindow + q * 0x20000
  s.onMem (fun t => t.filter (fun x => !(a ≤ x.1 && x.1 < a + 0x20000)))

/-- The registers of a quarter, the user sides of its block RAMs among them, are at their initial values (14 R337). -/
def State.holdInit (s : State) (i q : Nat) : State :=
  s.onSprue (fun p => { p with
    ffs := p.ffs.filter (fun x => x.1 / 65536 != 4 * i + q), bports := p.bports.filter (fun x => x.1 / 32 != 4 * i + q) })

/-- A quarter is blank: no logic or block-RAM frame, its block RAMs zero, its registers at their initial values (14 R337). The shell's
frames stay. -/
def State.blankQuarter (s : State) (i q : Nat) : State :=
  ((s.onSprue (fun p => { p with
    frames := p.frames.filter (fun x => quarterOfFrame x.1 != 4 * i + q || ftypeOfFrame x.1 == 2) })).holdInit i q).zeroBram i q

/-- Every shell frame is blank. -/
def State.blankShell (s : State) : State :=
  s.onSprue (fun p => { p with frames := p.frames.filter (fun x => ftypeOfFrame x.1 != 2) })

/-- The contents of block RAM b of ring i, rebuilt from its pair's frames: slot w holds bits 36 w to 36 w + 35 of the RAM's
4,608 bytes (14 R325, 13 R308; notes/assumptions/35.md). -/
def State.fillBram (s : State) (i b : Nat) : State :=
  let q := b / 16
  let k := b % 16 / 2
  let run := (upto 9).flatMap (fun j => padTo 1024 (Tab.get [] s.sprue.frames (frameKey i q 1 (9 * k + j))))
  let ram := slice run (b % 2 * 4608) 4608
  let v := ofLe ram
  s.devWrite (bramBase + i * bramWindow + b * 0x2000) ((upto 1024).flatMap (fun w => leBytes 8 (bits v (36 * w + 35) (36 * w))))

/-- A frame of a mould is written. -/
def State.putFrame (s : State) (i q ft fr : Nat) (payload : List Byte) : State :=
  let s := s.onSprue (fun p => { p with frames := Tab.put p.frames (frameKey i q ft fr) payload })
  if ft = 1 then
    let b := 16 * q + 2 * (fr / 9)
    if fr % 9 < 4 then s.fillBram i b else if fr % 9 = 4 then (s.fillBram i b).fillBram i (b + 1) else s.fillBram i (b + 1)
  else s

/-! ## Records (14 R325, R326, R331) -/

/-- A record's place: window index (0 in a key record), quarter, FTYPE, FRAME. -/
def recPlace (r : List Byte) : Nat × Nat × Nat × Nat := ((unpackCluster (fld r 0 2)).getD 0, fld r 2 1, fld r 3 1, fld r 4 2)

/-- Fields of record `seq` of an image (14 R325, R331); `pl` is its decrypted payload. -/
def recordForm (kind : Nat) (h r pl : List Byte) (seq : Nat) (seen : List (Nat × Nat × Nat)) : Bool :=
  let p := recPlace r
  let last := seq == imCount h
  (unpackCluster (fld r 0 2)).isSome && p.2.1 < 4 && zeroIn r 6 7 && fld r 8 4 == seq && zeroIn r 12 15 &&
  (imEnc h == 1 || zeroIn r 1040 1055) && zeroIn r 1056 1087 == last &&
  (match kind with
    | 0 => fld r 0 2 == fld h 88 2 && (imQuarters h).contains p.2.1 &&
        ((p.2.2.1 == 0 && p.2.2.2 < 256 && !Config.shiftMode pl) || (p.2.2.1 == 1 && p.2.2.2 < 72))
    | 1 => p.2.2.1 == 2 && p.2.2.2 < 8
    | _ => fld r 0 2 == 0 && p.2.2.1 == 3 && p.2.2.2 == 0) &&
  !seen.contains (4 * p.1 + p.2.1, p.2.2.1, p.2.2.2)

/-- A record's payload where its hash is the expected one and its tag passes (14 R326). -/
def openRecord (key : BitVec 256) (h r : List Byte) (seq : Nat) (expect : BitVec 256) : Option (List Byte) :=
  if digest256 r ≠ expect then none
  else if imEnc h = 0 then some (slice r 16 1024)
  else gcmOpen (leBytes 32 key.toNat) (slice h 64 8 ++ leBytes 4 seq) (slice r 0 16) (slice r 16 1024) (slice r 1040 16)

/-- All logic frames of the quarters are there when the chain ends (14 R331). -/
def framesAll (h : List Byte) (seen : List (Nat × Nat × Nat)) : Bool :=
  (imQuarters h).all (fun q => (upto 256).all (fun f => seen.contains (4 * imCluster h + q, 0, f)))

/-! ## Security records and counts (14 R328, R341, 20 R472) -/

/-- An AUTH_FAIL record: source, slot, check, IDCODE, status, MOULD_ID. -/
def State.authRecord (s : State) (source slot check idcode : Nat) (st : Stat) (mould flask : Nat) : State :=
  s.security 0x20 flask (leBytes 1 source ++ leBytes 1 slot ++ leBytes 1 check ++ leBytes 1 0 ++ leBytes 4 idcode ++
    leBytes 2 st.code ++ leBytes 2 mould ++ leBytes 4 0 ++ leBytes 8 s.time)

/-- A load has ended (14 R341). -/
def State.countLoad (s : State) (st : Stat) (id : Nat) : State :=
  s.onSprue (fun p =>
    if st = .ok then { p with loads := p.loads + 1 }
    else { p with fails := p.fails + 1, authFails := p.authFails + (if st = .authFail then 1 else 0), loadErr := some st, errId := id })

/-! ## Pins, ports, PLLs -/

/-- The border signals of a mould's pin take the values of its HOLD codes (14 R336). The value of the last RUNNING cycle is user
logic's, a free value (notes/assumptions/36.md). -/
def State.holdPin (s : State) (m : Mould) : State :=
  if !m.quarters.contains 0 then s else
  let (v, s) := s.draw
  let old : Bool × Bool := if m.st = .running then (v.testBit 0, v.testBit 1) else Tab.get (false, false) s.sprue.pins m.cluster
  let bit (code : Nat) (o : Bool) : Bool := if code = 0 then false else if code = 1 then true else o
  s.onSprue (fun p => { p with pins := Tab.put p.pins m.cluster (bit m.holdOut old.1, bit m.holdOe old.2) })

/-- The pin of ring i is no longer held: user logic drives it, or it is high-impedance (13 R319). -/
def State.freePin (s : State) (i : Nat) : State := s.onSprue (fun p => { p with pins := Tab.del p.pins i })

/-- FABRIC nodes outstanding at port x end with a status. -/
def State.endDtags (s : State) (x : Nat) (st : Stat) : State :=
  let l := (Tab.get .init s.fp x).dtags
  (l.foldl (fun s d => s.failNode d.2.1 d.2.2 st) s).settle

/-- The ports of a mould are out of service (14 R334): nothing waits at them, and they belong to no flask. -/
def State.closePorts (s : State) (m : Mould) (reconf : Bool) (st : Stat) : State :=
  let xs := m.quarters.map (fun q => 4 * m.cluster + q)
  let s := xs.foldl (fun s x => s.endDtags x st) s
  (s.onFp (fun t => xs.foldl (fun t x => Tab.upd .init t x (fun p =>
    { p with en := false, fclk := false, reconf, flask := none, rx := [], tx := [], outs := [] })) t)).dropFaults
    (fun f => match f.who with | .port y _ => xs.contains y | _ => false)

/-- Change a mould. -/
def State.onMould (s : State) (id : Nat) (f : Mould → Mould) : State := s.onSprue (fun p => { p with moulds := Tab.mod p.moulds id f })

/-- A mould's endpoints are withdrawn and its ports closed. -/
def State.withdraw (s : State) (id : Nat) (reconf : Bool) (st : Stat) : State :=
  match Tab.find? s.sprue.moulds id with
  | none => s
  | some m => (s.closePorts m reconf st).onMould id (fun m => { m with registered := false })

/-- A mould's use of its PLLs ends; a PLL without users is free (13 R310). -/
def State.freeUser (s : State) (id : Nat) : State :=
  s.onSprue (fun p =>
    let l := p.plls.map (fun x => (x.1, { x.2 with users := x.2.users.filter (· != id) }))
    { p with plls := l.filter (fun x => !x.2.users.isEmpty) })

/-- A mould takes a PLL for each pair: a shared one, or the lowest free one, whose programming begins (13 R310). -/
def State.takePlls (s : State) (id flask part : Nat) (pairs : List (Nat × Nat)) : State :=
  pairs.foldl (fun s x =>
    match sharedPll s flask part x with
    | some k => s.onSprue (fun p => { p with plls := Tab.mod p.plls k (fun y => { y with users := numInsert y.users id }) })
    | none => match freePlls s part with
      | k :: _ => s.onSprue (fun p => { p with plls := Tab.put p.plls k { f := x.1, d := x.2, flask, locked := false, users := [id] } })
      | [] => s) s

/-- VDD_Pp of ring i's partition goes to 0.70 V at least while a mould of it is loaded (13 R304). -/
def State.raiseVdd (s : State) (i : Nat) : State :=
  s.onPower (fun w => { w with parts := Tab.upd .init w.parts (i / 24) (fun x => { x with target := max x.target (pointMv 0 true) }) })

/-- 14 R333: a mould is torn down. A replaced mould's pin stays held (14 R332). -/
def State.tearDown (s : State) (id : Nat) (keepPin : Bool) (st : Stat) : State :=
  match Tab.find? s.sprue.moulds id with
  | none => s
  | some m =>
    let s := ((s.withdraw id keepPin st).holdPin m)
    let s := (m.quarters.foldl (fun s q => s.blankQuarter m.cluster q) s).freeUser id
    let s := if m.quarters.contains 0 && !keepPin then s.freePin m.cluster else s
    s.onSprue (fun p => { p with moulds := Tab.del p.moulds id })

/-- A mould is frozen by a fault (14 R334; notes/assumptions/37.md): its configuration is kept. -/
def State.freeze (s : State) (id : Nat) (st : Stat) : State :=
  match Tab.find? s.sprue.moulds id with
  | none => s
  | some m => if m.st = .isolated then s else
    ((s.withdraw id false st).holdPin m).onMould id (fun m => { m with st := .isolated, resetCid := none })

/-! ## The shell (14 R339) -/

/-- The next record of a shell read from flash: what came before it, or why the load failed. -/
def shellStep (s : State) (img h : List Byte) (acc : Except (Stat × Nat) (BitVec 256 × List (Nat × Nat × Nat) × Tab (List Byte)))
    (k : Nat) : Except (Stat × Nat) (BitVec 256 × List (Nat × Nat × Nat) × Tab (List Byte)) :=
  match acc with
  | .error e => .error e
  | .ok (expect, seen, frames) =>
    let r := slice img (1024 + 1088 * k) 1088
    if img.length < 1024 + 1088 * (k + 1) then .error (.truncated, 0) else
    match openRecord 0 h r (k + 1) expect with
    | none => .error (.authFail, 5)
    | some pl =>
      if !recordForm 1 h r pl (k + 1) seen then .error (.invalid, 0) else
      let p := recPlace r
      .ok (BitVec.ofNat 256 (fld r 1056 32), (4 * p.1 + p.2.1, 2, p.2.2.2) :: seen,
        if exposed s p.1 then Tab.put frames (frameKey p.1 p.2.1 2 p.2.2.2) pl else frames)

/-- A shell image read from flash (14 R329, R330): its frames for exposed clusters, or the status and check it fails with. -/
def flashShell (s : State) (img : List Byte) : Except (Stat × Nat) (Tab (List Byte)) :=
  let h := img.take 1024
  if img.length < 1024 then .error (.truncated, 0)
  else if !hdrForm 1 h then .error (.invalid, 0)
  else if !hdrDevice h then .error (.wrongDevice, 0)
  else match hdrAuth s 1 h with
    | some c => .error (.authFail, c)
    | none => ((upto 3072).foldl (shellStep s img h) (.ok (BitVec.ofNat 256 (fld h 24 32), [], []))).map (·.2.2)

/-- A shell of the flash is loaded as SHELL `n`, or its failure is recorded; any failure leaves the shell's frames blank. A failure
other than `ST_AUTH_FAIL` is recorded when the rings stay blank for it (notes/assumptions/38.md). The factory's shell passes its checks;
its header is the implementation's and its frames, which nothing reads, are not held (notes/assumptions/6.md). -/
def State.loadFlash (s : State) (region : Option (List Byte)) (n : Nat) : Bool × State :=
  let s := s.blankShell
  match region with
  | none => (true, s.onSprue (fun p => { p with shell := n, shellHeader := Config.factoryShell }))
  | some img =>
  match flashShell s img with
  | .ok fr => (true, s.onSprue (fun p => { p with frames := fr.foldl (fun t x => Tab.put t x.1 x.2) p.frames, shell := n, shellHeader := img.take 1024 }))
  | .error (st, c) =>
    let s := if st = .authFail || n = 2 then s.authRecord 2 (imSlot img) c (imIdcode img) st 0xFFFF 0xFF else s
    (false, s.onSprue (fun p => { p with shell := 0, shellHeader := [] }))

/-- The golden shell. -/
def State.loadGolden (s : State) : State := (s.loadFlash s.flash.goldenShell 2).2

/-- 14 R339: at bring-up, the primary shell, and on any failure of it the golden one. -/
def State.bootShell (s : State) : State :=
  match s.loadFlash s.flash.primaryShell 1 with
  | (true, s) => s
  | (false, s) => s.loadGolden

/-! ## The end of a load (14 R330, R332) -/

/-- RESULT of a load: MOULD_ID (0xFFFF for a shell or key), FRAMES, time in ns. -/
def loadResult (id frames ns : Nat) : List Byte := leBytes 2 id ++ leBytes 2 0 ++ leBytes 4 frames ++ leBytes 8 ns

/-- MOULD_ID of a load as the sprue reports it. -/
def Load.id (l : Load) : Nat := if l.kind = 0 then imId l.header else 0xFFFF

/-- Records of a load that were written: a shell's only for exposed clusters (14 R335). -/
def Load.written (s : State) (l : Load) : Nat :=
  if l.kind = 1 then (l.seen.filter (fun x => exposed s (x.1 / 4))).length else l.seen.length

/-- The load in progress ends early (14 R330). -/
def State.earlyEnd (s : State) (st : Stat) : State :=
  match s.sprue.cur with
  | none => s
  | some l =>
    let s := (s.onSprue (fun p => { p with cur := none })).dropFaults (fun f => f.who == .image l.cid)
    let s := s.countLoad st l.id
    if l.step = .verify then s.finish l.cid st zeros16 else
    let s := match l.kind with
      | 0 => match Tab.find? s.sprue.moulds l.id with
        | some m =>
          (m.quarters.foldl (fun (s : State) q => s.blankQuarter m.cluster q) ((s.withdraw l.id false st).holdPin m)).onMould l.id
            (fun m => { m with st := .isolated, cid := none })
        | none => s
      | 1 => if l.written s = 0 then s else s.loadGolden
      | _ => s
    s.finish l.cid st (loadResult l.id (l.written s) (s.time - l.since))

/-- A `MOULD_LOAD` ends before the sprue takes it: MOULD_ID is 0xFFFF for a shell or key, and else no header has given it yet
(14 R341; notes/assumptions/126.md). -/
def State.refuseLoad (s : State) (cid : Nat) (st : Stat) : State :=
  let (v, s) := s.draw
  let kind := match findCmd s cid with | some c => c.p 8 1 | none => 0
  (s.countLoad st (if kind = 1 || kind = 2 then 0xFFFF else v % 65536)).failCmd cid st

/-- A load ends with a failure status: the one in progress early, a waiting one at once. -/
def State.failLoad (s : State) (cid : Nat) (st : Stat) : State :=
  match s.sprue.cur with
  | some l => if l.cid = cid then s.earlyEnd st else (s.onSprue (fun p => { p with queue := p.queue.filter (· != cid) })).refuseLoad cid st
  | none => (s.onSprue (fun p => { p with queue := p.queue.filter (· != cid) })).refuseLoad cid st

/-- Loads of a flask end with a status, the waiting ones too. -/
def State.failLoadsOf (s : State) (flask : Nat) (st : Stat) : State :=
  let cs := (s.qb.cmds.filter (fun c => c.work == .mould && c.flask == flask)).map (·.cid)
  cs.foldl (fun s c => s.failLoad c st) s

/-- 09 R225, 14 R334: the loads of a flask that faults end with `ST_DISCARDED`, and its moulds are frozen. -/
def State.freezeFlask (s : State) (flask : Nat) : State :=
  let s := s.failLoadsOf flask .discarded
  ((s.sprue.moulds.filter (fun m => m.2.flask == flask)).map (·.1)).foldl (fun s id => s.freeze id .discarded) s

end Sys2Proof.Machine
end

