-- ==== Sys2Proof/Machine/Cells.lean ====
section
/-!
DEFINITION. What a mould's user logic does at an edge of its clocks (13 R297 to R307): look-up tables, carry chains, wide multiplexers,
flip-flops, hop registers and block RAMs. The manual gives the parts and not how a quarter's 256 logic frames spell their settings:
`Config.ringField` is that reading, any function of the frames (notes/assumptions/122.md).
-/

namespace Sys2Proof.Machine

/-! ## The configuration of a quarter -/

/-- Field f of item n, of one kind, in the logic frames of quarter q of ring i. -/
def ringConf (s : State) (i q kind n f : Nat) : Nat :=
  Config.ringField ((upto 256).map (fun k => Tab.get [] s.sprue.frames (frameKey i q 0 k))) kind n f

/-- Settings of cell c: 0 split mode; 1, 2 the tables of the halves; 3 to 8 the nets of I0 to I5; 9, 10 of D0 and D1; 11 the source of Q0;
12 of Q1; of Q0 and Q1: 13, 14 initial value; 15, 16 SR sets; 17, 18 SR is asynchronous; 19, 20 which clock enable. -/
def cellConf (s : State) (i q c f : Nat) : Nat := ringConf s i q 0 c f

/-- Settings of slice n: 0 clock; 1, 2 the nets of the clock enables; 3 of SR; 4 wide-mux mode; 5 to 10 the nets of S0 to S5; 11 the carry
in at the foot of a column. -/
def sliceConf (s : State) (i q n f : Nat) : Nat := ringConf s i q 1 n f

/-- Settings of hop register h: 0 it registers; 1 its source; 2 its clock where the source has none. -/
def hopConf (s : State) (i q h f : Nat) : Nat := ringConf s i q 2 h f

/-- Settings of port p of a quarter's block RAM b: 0 shape; 1 clock; 2 what it shows in a write; 3 output register; 4 its initial value;
5 SECDED; 6 the net of the write enable; 7 the value shown before the first read; 16 on the nets of the address; 40 on of the data. -/
def ramConf (s : State) (i q b p f : Nat) : Nat := ringConf s i q 3 (2 * b + p) f

/-! ## Nets (13 R298, R303) -/

/-- What drives a net: a constant, an output of a cell, a flip-flop (Q0 of cell c is 2 c, Q1 is 2 c + 1), a carry out, a hop register, a
bit of a block RAM's port (COR is 72, UNC 73), or a signal of the ring's border. -/
inductive Net where
  | const (b : Bool)
  | lf (q c : Nat)
  | lh (q c : Nat)
  | ff (q e : Nat)
  | carry (q c : Nat)
  | hop (q h : Nat)
  | ram (q b p bit : Nat)
  | border (k : Nat)
  deriving DecidableEq, Repr

/-- Hop registers of a quarter that a key has room for. -/
def quarterHops : Nat := 53248

/-- The driver that a field names within quarter q. -/
def netOf (q v : Nat) : Net :=
  let x := v / 8
  match v % 8 with
  | 0 => .const (x % 2 == 1)
  | 1 => .lf q (x % 6144)
  | 2 => .lh q (x % 6144)
  | 3 => .ff q (x % 12288)
  | 4 => .carry q (x % 6144)
  | 5 => .hop q (x % quarterHops)
  | 6 => .ram q (x % 16) (x / 16 % 2) (x / 32 % 74)
  | _ => .border (x % 4096)

/-- The driver of a hop register's segment, which may come from another quarter of the mould; no net joins different moulds. -/
def hopSource (s : State) (i : Nat) (qs : List Nat) (q h : Nat) : Net :=
  let v := hopConf s i q h 1
  let p := (q + v % 4) % 4
  if qs.contains p then netOf p (v / 4) else .const false

/-- A slice is in wide-mux mode. -/
def isWide (s : State) (i q sl : Nat) : Bool := sliceConf s i q sl 4 % 2 == 1

/-- FCLK of a slice. -/
def sliceClock (s : State) (i q sl : Nat) : Nat := sliceConf s i q sl 0 % 8

/-- FCLK of a net's source slice (13 R303). -/
def netClock (s : State) (i : Nat) (qs : List Nat) : Nat → Net → Option Nat
  | 0, _ => none
  | k + 1, n => match n with
    | .lf q c | .lh q c | .carry q c => some (sliceClock s i q (c / 8))
    | .ff q e => some (sliceClock s i q (e / 16))
    | .hop q h => netClock s i qs k (hopSource s i qs q h)
    | .ram q b p _ => some (ramConf s i q b p 1 % 8)
    | .const _ | .border _ => none

/-! ## Stored bits -/

/-- Key of element e of quarter q of ring i. -/
def ffKey (i q e : Nat) : Nat := 65536 * (4 * i + q) + e

/-- A flip-flop's bit: its initial value until it has taken another (13 R299). -/
def ffStored (s : State) (i q e : Nat) : Bool :=
  Tab.get (cellConf s i q (e / 2) (13 + e % 2) % 2 == 1) s.sprue.ffs (ffKey i q e)

/-- A hop register's bit: 0 until it has taken another (13 R303). -/
def hopStored (s : State) (i q h : Nat) : Bool := Tab.get false s.sprue.ffs (ffKey i q (12288 + h))

/-- What port p of a quarter's block RAM b shows (13 R306, R307). -/
def ramShown (s : State) (i q b p : Nat) : BPort :=
  Tab.get { word := ramConf s i q b p 7 % 2 ^ 72, cor := false, unc := false, reg := (ramConf s i q b p 4 % 2 ^ 72, false, false) }
    s.sprue.bports (2 * (64 * i + 16 * q + b) + p)

/-! ## Cells (13 R298, R300, R301) -/

/-- Inputs I0 to I5, D0 and D1 of a cell, as 0 to 7. -/
def cellIn (s : State) (i : Nat) (ev : Net → Bool) (q c j : Nat) : Bool := ev (netOf q (cellConf s i q c (3 + j)))

/-- Select line S[j] of a wide-mux slice. -/
def wideSel (s : State) (i : Nat) (ev : Net → Bool) (q sl j : Nat) : Bool := ev (netOf q (sliceConf s i q sl (5 + j)))

/-- A number from its bits, least first. -/
def ofBits (l : List Bool) : Nat := (l.mapIdx (fun k b => if b then 2 ^ k else 0)).sum

/-- A half of a cell's table at I0 to I4. -/
def lutHalf (s : State) (i : Nat) (ev : Net → Bool) (q c half : Nat) : Bool :=
  (cellConf s i q c (1 + half)).testBit (ofBits ((upto 5).map (cellIn s i ev q c)))

/-- LF of a cell: a function of I0 to I5, or in split mode of I0 to I4; in wide-mux mode cell 7 shows input 8 c + j of the slice, chosen by
S[5:0]. What LF of the slice's other cells shows then is free. -/
def cellLf (s : State) (i : Nat) (x : Nat → Bool) (ev : Net → Bool) (q c : Nat) : Bool :=
  let sl := c / 8
  if isWide s i q sl then
    if c % 8 = 7 then
      let n := ofBits ((upto 6).map (wideSel s i ev q sl))
      cellIn s i ev q (8 * sl + n / 8) (n % 8)
    else x (65536 * q + c)
  else if cellConf s i q c 0 % 2 = 1 then lutHalf s i ev q c 0
  else lutHalf s i ev q c (if cellIn s i ev q c 5 then 1 else 0)

/-- LH of a cell: a second function of I0 to I4 in split mode, else 0. -/
def cellLh (s : State) (i : Nat) (ev : Net → Bool) (q c : Nat) : Bool :=
  !isWide s i q (c / 8) && cellConf s i q c 0 % 2 == 1 && lutHalf s i ev q c 1

/-- Carry into a cell: from the cell below, across slices of its column of 192; a quarter's lowest slices start their chains. -/
def carryIn (s : State) (i : Nat) (ev : Net → Bool) (q c : Nat) : Bool :=
  if c % 8 = 0 ∧ c / 8 % 192 = 0 then sliceConf s i q (c / 8) 11 % 2 == 1 else ev (.carry q (c - 1))

/-- The sum or the carry out of a cell's bit of the chain. -/
def carryBit (s : State) (i : Nat) (ev : Net → Bool) (q c : Nat) (f : Bool → Bool → Bool → Bool → Bool → Bool) : Bool :=
  f (ev (.lf q c)) (ev (.lh q c)) (cellIn s i ev q c 6) (cellIn s i ev q c 7) (carryIn s i ev q c)

/-! ## Flip-flops (13 R298, R299) -/

/-- The slice's SR for flip-flop e; a wide-mux slice has no SR. -/
def srOn (s : State) (i : Nat) (ev : Net → Bool) (q e : Nat) : Bool :=
  !isWide s i q (e / 16) && ev (netOf q (sliceConf s i q (e / 16) 3))

/-- SR acts on flip-flop e at once, not at an edge. -/
def srAsync (s : State) (i q e : Nat) : Bool := cellConf s i q (e / 2) (17 + e % 2) % 2 == 1

/-- The value that SR gives. -/
def srValue (s : State) (i q e : Nat) : Bool := cellConf s i q (e / 2) (15 + e % 2) % 2 == 1

/-- A flip-flop's output: an asynchronous SR acts at once. -/
def ffOut (s : State) (i : Nat) (ev : Net → Bool) (q e : Nat) : Bool :=
  if srAsync s i q e && srOn s i ev q e then srValue s i q e else ffStored s i q e

/-- The clock enable of a flip-flop; a wide-mux slice has one (13 R301). -/
def ffEnable (s : State) (i : Nat) (ev : Net → Bool) (q e : Nat) : Bool :=
  let sl := e / 16
  let n := if isWide s i q sl then 0 else cellConf s i q (e / 2) (19 + e % 2) % 2
  ev (netOf q (sliceConf s i q sl (1 + n)))

/-- The data of a flip-flop: Q0 takes LF, the carry sum or D0, Q1 takes LH or D1; in a wide-mux slice Q0 of cell 7 may take LF, and the
others take D0 and D1. -/
def ffData (s : State) (i : Nat) (ev : Net → Bool) (q e : Nat) : Bool :=
  let c := e / 2
  let wide := isWide s i q (c / 8)
  let src := cellConf s i q c (11 + e % 2)
  if e % 2 = 0 then
    if src % 3 = 0 && (!wide || c % 8 = 7) then ev (.lf q c)
    else if src % 3 = 1 && !wide then carryBit s i ev q c Config.carrySum
    else cellIn s i ev q c 6
  else if src % 2 = 0 && !wide then ev (.lh q c) else cellIn s i ev q c 7

/-- A flip-flop after an edge of the clocks `ck`. The clock enables act once WRITES_ON has released them (14 R337); SR goes before the clock
enable (notes/assumptions/122.md). -/
def ffNext (s : State) (i : Nat) (ev : Net → Bool) (ck : List Nat) (writes : Bool) (q e : Nat) : Bool :=
  if !ck.contains (sliceClock s i q (e / 16)) || srAsync s i q e && srOn s i ev q e then ev (.ff q e)
  else if srOn s i ev q e then srValue s i q e
  else if writes && ffEnable s i ev q e then ffData s i ev q e
  else ev (.ff q e)

/-! ## The value of a net -/

/-- Value of a net from the values of what drives it; `x` are the free bits of this edge, the border's signals among them. -/
def netStep (s : State) (i : Nat) (qs : List Nat) (x : Nat → Bool) (ev : Net → Bool) : Net → Bool
  | .const b => b
  | .lf q c => cellLf s i x ev q c
  | .lh q c => cellLh s i ev q c
  | .ff q e => ffOut s i ev q e
  | .carry q c => carryBit s i ev q c Config.carryOut
  | .hop q h => if hopConf s i q h 0 % 2 = 1 then hopStored s i q h else ev (hopSource s i qs q h)
  | .ram q b p bit =>
    let r := ramShown s i q b p
    let y := if ramConf s i q b p 3 % 2 = 1 then r.reg else (r.word, r.cor, r.unc)
    if bit < 72 then y.1.testBit bit else if bit = 72 then y.2.1 else y.2.2
  | .border k => x (262144 + k)

/-- Value of a net. Logic deeper than the count is a loop, whose value the manual does not give: a free bit. -/
def netValue (s : State) (i : Nat) (qs : List Nat) (x : Nat → Bool) : Nat → Net → Bool
  | 0, _ => x 266240
  | k + 1, n => netStep s i qs x (netValue s i qs x k) n

/-! ## Block RAMs (13 R305 to R308) -/

/-- Width of a shape: 1, 2, 4, 9, 18, 36, or 72 of the simple dual-port shape. -/
def ramWidth (v : Nat) : Nat := [1, 2, 4, 9, 18, 36, 72].getD (v % 7) 36

/-- The bits of element a of a width, least first: slot and bit of the slot (13 R308); a word of 72 lies in two slots. -/
def ramElem (w a : Nat) : List (Nat × Nat) :=
  let row (n : Nat) (l : List Nat) : List (Nat × Nat) := l.map (fun b => (n, b))
  match w with
  | 72 => row (2 * (a % 512)) (upto 36) ++ row (2 * (a % 512) + 1) (upto 36)
  | 36 => row (a % 1024) (upto 36)
  | 18 => row (a / 2 % 1024) ((upto 16).map (16 * (a % 2) + ·) ++ (upto 2).map (32 + 2 * (a % 2) + ·))
  | 9 => row (a / 4 % 1024) ((upto 8).map (8 * (a % 4) + ·) ++ [32 + a % 4])
  | _ => row (a / (32 / w) % 1024) ((upto w).map (w * (a % (32 / w)) + ·))

/-- Address of slot w of block RAM b of ring i. -/
def ramSlot (i b w : Nat) : Nat := bramBase + i * bramWindow + b * 0x2000 + 8 * w

/-- Stored bits of block RAM b. -/
def ramBits (s : State) (i b : Nat) (l : List (Nat × Nat)) : List Bool :=
  l.map (fun y => (ofLe (s.devRead (ramSlot i b y.1) 8)).testBit y.2)

/-- Bits are stored in block RAM b. -/
def State.ramPut (s : State) (i b : Nat) (l : List ((Nat × Nat) × Bool)) : State :=
  l.foldl (fun s y =>
    let a := ramSlot i b y.1.1
    s.devWrite a (leBytes 8 (setBits (ofLe (s.devRead a 8)) y.1.2 y.1.2 (if y.2 then 1 else 0)))) s

/-- A word of 72 bits read under SECDED over 64 data bits: a single wrong bit is corrected and raises COR; two raise UNC, and the word
shows as stored (13 R305; the check bits are [71:64], notes/assumptions/121.md). -/
def ramDecode (w : Nat) : Nat × Bool × Bool :=
  let ok (v : Nat) : Bool := Config.hsiao 64 (v % 2 ^ 64) % 256 == v / 2 ^ 64
  if ok w then (w, false, false)
  else match (upto 72).find? (fun b => ok (w ^^^ 2 ^ b)) with
    | some b => (w ^^^ 2 ^ b, true, false)
    | none => (w, false, true)

/-- The word that SECDED stores for 64 data bits. -/
def ramEncode (w : Nat) : Nat := w % 2 ^ 64 + Config.hsiao 64 (w % 2 ^ 64) % 256 * 2 ^ 64

/-- What a port of a block RAM does in a cycle: the element it reaches, and the bits it writes there. -/
structure RamCycle where
  elem : List (Nat × Nat)
  write : Option (List Bool)

/-- Port p of block RAM b (in its quarter) in a cycle of its clock. In the 512 × 72 shape port A writes and port B reads; a host-visible RAM's
port B belongs to the window. Write enables act once WRITES_ON has released them. -/
def ramCycle (s : State) (i : Nat) (m : Mould) (ck : List Nat) (ev : Net → Bool) (q b p : Nat) : Option RamCycle :=
  let wide := ramConf s i q b 0 0 % 7 = 6
  let w := if wide then 72 else ramWidth (ramConf s i q b p 0 % 6)
  let bit (f : Nat) : Bool := ev (netOf q (ramConf s i q b p f))
  if !ck.contains (ramConf s i q b p 1 % 8) || (p = 1 && m.hostvis.getLsbD (16 * q + b)) then none else
  let elem := ramElem w (ofBits ((upto 15).map (fun k => bit (16 + k))))
  let data := (upto w).map (fun k => bit (40 + k))
  let data := if wide && ramConf s i q b 0 5 % 2 = 1 then (upto 72).map (ramEncode (ofBits data)).testBit else data
  if wide && p = 1 then some { elem, write := none }
  else if m.writesOn && bit 6 then some { elem, write := some data }
  else if wide then none
  else some { elem, write := none }

/-- A port's read output after a cycle; y is what the other port does in it, on the same clock or not (13 R306, R307). -/
def ramShows (s : State) (i : Nat) (x : Nat → Bool) (q b p : Nat) (c : RamCycle) (y : Option RamCycle) (same : Bool) : BPort :=
  let old := ramShown s i q b p
  let reg := (old.word, old.cor, old.unc)
  let stored := ramBits s i (16 * q + b) c.elem
  match c.write with
  | some d =>
    if ramConf s i q b 0 0 % 7 = 6 then { old with reg }
    else match ramConf s i q b p 2 % 3 with
      | 0 => { word := ofBits d, cor := false, unc := false, reg }
      | 1 => { word := ofBits stored, cor := false, unc := false, reg }
      | _ => { old with reg }
  | none =>
    let met (e : Nat × Nat) : Bool := !same && match y with | some z => z.write.isSome && z.elem.contains e | none => false
    let v := ofBits ((c.elem.zip stored).mapIdx (fun k z => if met z.1 then x (524288 + 72 * (2 * (16 * q + b) + p) + k) else z.2))
    if ramConf s i q b 0 0 % 7 = 6 && ramConf s i q b 0 5 % 2 = 1 then
      let r := ramDecode v
      { word := r.1, cor := r.2.1, unc := r.2.2, reg }
    else { word := v, cor := false, unc := false, reg }

/-- The bits that a block RAM stores in a cycle: port A's go before port B's on one clock; on different clocks bits that both write are
undefined (13 R306). -/
def ramStores (x : Nat → Bool) (q b : Nat) (ca cb : Option RamCycle) (same : Bool) : List ((Nat × Nat) × Bool) :=
  let of (c : Option RamCycle) : List ((Nat × Nat) × Bool) := match c with
    | some c => (match c.write with | some d => c.elem.zip d | none => [])
    | none => []
  let a := of ca
  let z := of cb
  let both := a.filter (fun y => z.any (fun w => w.1 == y.1))
  z ++ a ++ (if same then [] else both.mapIdx (fun k y => (y.1, x (655360 + 72 * (16 * q + b) + k))))

/-- One block RAM of a mould at an edge; `s0` is the state before it. -/
def State.ramEdge (s0 : State) (i : Nat) (m : Mould) (x : Nat → Bool) (ck : List Nat) (ev : Net → Bool) (q : Nat) (s : State) (b : Nat) : State :=
  let same := ramConf s0 i q b 0 1 % 8 = ramConf s0 i q b 1 1 % 8
  let ca := ramCycle s0 i m ck ev q b 0
  let cb := ramCycle s0 i m ck ev q b 1
  let show1 (p : Nat) (c y : Option RamCycle) (t : Tab BPort) : Tab BPort := match c with
    | some c => Tab.put t (2 * (64 * i + 16 * q + b) + p) (ramShows s0 i x q b p c y same)
    | none => t
  (s.onSprue (fun r => { r with bports := show1 1 cb ca (show1 0 ca cb r.bports) })).ramPut i (16 * q + b) (ramStores x q b ca cb same)

/-! ## An edge of the user clocks -/

/-- Deepest logic that a mould's cells and hops can hold. -/
def netDepth : Nat := 262144

/-- The registers of quarter q of a mould after an edge. -/
def quarterRegs (s : State) (i : Nat) (m : Mould) (ck : List Nat) (ev : Net → Bool) (q : Nat) : List (Nat × Bool) :=
  (upto 12288).map (fun e => (ffKey i q e, ffNext s i ev ck m.writesOn q e)) ++
  (upto quarterHops).filterMap (fun h =>
    let src := hopSource s i m.quarters q h
    let clock := (netClock s i m.quarters netDepth src).getD (hopConf s i q h 2 % 8)
    if hopConf s i q h 0 % 2 = 1 && ck.contains clock then some (ffKey i q (12288 + h), ev src) else none)

/-- An edge of the clocks `ck` of a mould: every register takes its data as it stood before. -/
def State.mouldEdge (s : State) (m : Mould) (ck : List Nat) : State :=
  let i := m.cluster
  let x (k : Nat) : Bool := (Config.freeByte (s.free + k)).getLsbD 0
  let ev := netValue s i m.quarters x netDepth
  let regs := m.quarters.flatMap (quarterRegs s i m ck ev)
  let t := s.onSprue (fun p => { p with ffs := regs.foldl (fun t y => Tab.put t y.1 y.2) p.ffs })
  (m.quarters.foldl (fun t q => (upto 16).foldl (State.ramEdge s i m x ck ev q) t) t).onFree (· + 2 ^ 20)

/-- User clocks that a mould declares (13 R309): an undeclared one is stopped. -/
def Mould.clocks (m : Mould) : List Nat := (upto 8).filter (fun k => (fld m.header (110 + 8 * k) 1).testBit 0)

/-- Moulds whose user logic moves: outside the initial-state hold, starting or running (14 R334, R337). -/
def movingMoulds (s : State) : List (Nat × Mould) :=
  s.sprue.moulds.filter (fun m => !m.2.initHold && (m.2.st == .starting || m.2.st == .running))

/-- Some user clocks of some mould tick, which and when the manual leaves open; nothing where no user logic moves
(notes/assumptions/125.md). -/
def State.userEdge (s : State) : State :=
  match movingMoulds s with
  | [] => s
  | l =>
    let (m, s) := s.choose l
    let (n, s) := s.draw
    match m with
    | none => s
    | some m =>
      match m.2.clocks.filter (n.testBit ·) with
      | [] => s
      | ck => s.mouldEdge m.2 ck

end Sys2Proof.Machine
end

