-- ==== Sys2Proof/Machine/Report.lean ====
section
/-!
DEFINITION. What the device reports of itself: counts, masks and free figures (10 R246), shared by IDENTIFY, the registers of
17 R401 and the health payload of 17 R416.
-/

namespace Sys2Proof.Machine

/-- Exposed clusters of partition p (01 R16). -/
def exposedIn (s : State) (p : Nat) : Nat := 4 * s.grid.rows.getD p 0

/-- Exposed clusters of the device. -/
def exposedCount (s : State) : Nat := ((upto 4).map (exposedIn s)).sum

/-- Bits of the numbers below n that satisfy p. -/
def maskOf (n : Nat) (p : Nat → Bool) : Nat := ((upto n).map (fun i => if p i then 2 ^ i else 0)).sum

/-- A reference clock is there: detected at this start and not lost since (21 R488). -/
def refHere (s : State) (r : RefClk) : Bool := s.board.refs.contains r && !s.board.lostRefs.contains r

/-- Stack s is present and trained. -/
def stackUp (s : State) (k : Nat) : Bool := k < 8 && (s.ctl k).train == 1

/-- Retired pages of controller k in force at this start: entries of the defect list of earlier starts, and the pages of
the lines beyond eight that have no remap entry (12 R291). -/
def retiredPages (s : State) (k : Nat) : List Nat :=
  let here := s.box.defects.filter (fun d => d.place % 256 == k && (d.dimm == 0 || d.dimm == (s.ctl k).serial))
  let listed := (here.filter (fun d => d.kind == 5 && (d.start < s.startCount || d.source ≠ 3))).map (fun d => d.place / 256)
  let lines := ((here.filter (fun d => d.kind == 4)).map (fun d => d.place / 256)).reverse.drop 8
  (listed ++ lines.map (fun l => l / 0x200000 * 0x200000)).dedup

/-- Bytes of HBM that allocation may use: the backed bytes of the present stacks without the reserved chunk (12 R283) and
the retired pages below it. -/
def hbmTotal (s : State) : Nat :=
  ((upto 8).map (fun k => if stackUp s k then
    0xBF8000000 - 0x200000 * ((retiredPages s k).filter (· < 0xBF8000000)).length else 0)).sum

/-- Bytes of DDR5 that allocation may use. -/
def ddrTotal (s : State) : Nat :=
  ((upto 12).map (fun d => if ctlUp s (8 + d) then ctlBytes s (8 + d) - 0x200000 * (retiredPages s (8 + d)).length else 0)).sum

/-- Sum of a quota over the flasks. -/
def quotaSum (s : State) (q : Flask → Nat) : Nat := (s.flasks.map (fun x => q x.2)).sum

/-- QUEUES_FREE of 10 R246. -/
def queuesFree (s : State) : Nat :=
  1048575 - quotaSum s (·.queueQuota) - (s.qb.queues.filter (fun x => x.2.flask == 0xFF && x.1 != 0)).length

/-- HBM_FREE of 10 R246. -/
def hbmFree (s : State) : Nat := hbmTotal s - quotaSum s (·.hbmQuota)

/-- DDR_FREE of 10 R246. -/
def ddrFree (s : State) : Nat := ddrTotal s - quotaSum s (·.ddrQuota)

/-- The CXL link is up and the device answers on it (00 R4). -/
def cxlUp (s : State) : Bool := s.cxl.link.isSome && !(s.boot.phase = .off || s.boot.phase = .dead)

/-- Ports that are up. -/
def portUp (s : State) (n : Nat) : Bool := (Tab.get .init s.nimra.ports n).st == .active

/-- Byte 0x018 of 10 R246. -/
def clustersField (s : State) : List Byte := (upto 4).flatMap (fun p => leBytes 1 (exposedIn s p))

/-- CX.SERIAL (17 R401, 18 R429). -/
def serialOf (s : State) : Nat := s.fuses.serial.toNat

/-- The structure of IDENTIFY (10 R246). -/
def identity (s : State) : List Byte :=
  padTo 4096 (leBytes 2 0x7400 ++ leBytes 1 Config.stepping ++ leBytes 1 s.boot.level ++ leBytes 4 Config.idcode.toNat ++
    leBytes 8 (serialOf s) ++ leBytes 4 s.boot.fwVersion.toNat ++ leBytes 2 (s.nimra.nodeId.getD 0xFFFF) ++
    leBytes 2 (maskOf 3 (fun i => !refHere s ([RefClk.ddr, .eth0, .eth1].getD i .ddr))) ++ clustersField s ++ leBytes 4 0 ++
    (upto 4).flatMap (fun p => leBytes 2 (aclkMHz (Tab.get .init s.power.parts p).point)) ++
    leBytes 16 (maskOf 96 (exposed s)) ++
    leBytes 24 (maskOf 192 (fun v => exposed s (v / 2) && (Tab.get .init s.vt v).lanes < 64)) ++
    leBytes 1 (maskOf 8 (stackUp s)) ++ leBytes 7 0 ++
    (upto 8).flatMap (fun k => leBytes 8 (if stackUp s k then maskOf 64 (fun e => (Tab.get .init s.he (64 * k + e)).st != .failed) else 0)) ++
    (upto 12).flatMap (fun d => leBytes 8 (if ctlUp s (8 + d) then ctlBytes s (8 + d) else 0)) ++
    leBytes 4 (maskOf 32 (portUp s)) ++ leBytes 4 (maskOf 32 (fun n => portUp s n && (Tab.get .init s.nimra.ports n).g400)) ++
    leBytes 4 (queuesFree s) ++ leBytes 4 (131072 - quotaSum s (·.nodeQuota)) ++ leBytes 8 (hbmFree s) ++ leBytes 8 (ddrFree s) ++
    leBytes 2 (maskOf 16 (fun f => (s.flask? f).isSome)) ++
    leBytes 2 (maskOf 16 (fun f => match s.flask? f with | some x => x.faulted | none => false)) ++ leBytes 4 s.power.cap)

/-- The hottest junction of the last readings, °C; 0 before any (17 R401, R416): of the sensors that 19 R457 has junction rows for, those of
exposed clusters, the partitions and PX (notes/assumptions/128.md). -/
def hottest (s : State) : Int :=
  match s.power.temps with
  | none => 0
  | some t => let l := (t.clusters.zipIdx.filter (fun x => exposed s x.2)).map (·.1) ++ t.parts ++ t.px
              l.foldl max (l.headD 0)

/-- Throttling somewhere (17 R401). -/
def throttling (s : State) : Bool := s.power.parts.any (fun x => x.2.throttle || x.2.limit) ||
  !s.power.stackHot.isEmpty || !s.power.stackLimit.isEmpty

/-- Healthy management cores (17 R401). -/
def coresMask (s : State) : Nat := maskOf 4 (fun k => (Tab.get .init s.cores k).healthy)

/-- CX.GSTATUS (17 R401). -/
def gstatus (s : State) : Nat :=
  s.boot.level + (if s.boot.ready then 4 else 0) + (if throttling s then 8 else 0) + (if s.power.floor then 16 else 0) +
  coresMask s * 256 + ofInt 16 (hottest s) * 65536

end Sys2Proof.Machine
end

