-- ==== Sys2Proof/Machine/Sessions.lean ====
section
/-!
DEFINITION. The end of serving requests and sessions (11 R267 to R271), and the end of accepted commands (10 R243, R248).
-/

namespace Sys2Proof.Machine

/-- Key of a serving loop: its flask and the address of its descriptor. -/
def loopKey (flask addr : Nat) : Nat := flask * 2 ^ 48 + addr

/-- Flask of a loop key. -/
def flaskOfLoop (k : Nat) : Nat := k / 2 ^ 48

/-- The session with a number. -/
def State.session? (s : State) (n : Nat) : Option Session := Tab.find? s.serving.sessions n

/-- Change a session. -/
def State.onSession (s : State) (n : Nat) (f : Session → Session) : State :=
  s.onServing (fun v => { v with sessions := Tab.mod v.sessions n f })

/-- A session's step or prefill heat is in flight. -/
def inFlight (s : State) (n : Nat) : Bool :=
  match s.session? n with
  | none => false
  | some x => match Tab.find? s.serving.loops x.loop with
    | none => false
    | some l => (match l.decode with | some d => d.rows.any (fun r => r.1 == n) | none => false) ||
                (match l.prefill with | some d => d.rows.any (fun r => r.1 == n) | none => false)

/-- RESULT of the final entry (11 R268). -/
def finalResult (n : Nat) (x : Session) (r : Req) (reason : Nat) : List Byte :=
  leBytes 4 n ++ leBytes 4 r.out ++ leBytes 4 x.ctxLen ++ leBytes 1 reason ++ leBytes 1 0 ++ leBytes 1 1 ++ leBytes 1 r.flags

/-- A session is gone: its pages and page lists are free, and a loop without sessions ends (11 R254, R269). -/
def State.dropSession (s : State) (n : Nat) : State :=
  match s.session? n with
  | none => s
  | some x => s.onServing (fun v =>
      let ss := Tab.del v.sessions n
      { v with sessions := ss
               loops := if ss.any (fun y => y.2.loop == x.loop) then v.loops else Tab.del v.loops x.loop })

/-- A session's request ends with a reason and a status: the final entry, then the cancels and closes that wait for it
(11 R267 to R269). -/
def State.endRequest (s : State) (n reason : Nat) (st : Stat) : State :=
  match s.session? n with
  | none => s
  | some x =>
    match x.req with
    | none => s
    | some r =>
      let s := s.finish r.cid st (finalResult n x r reason)
      let s := s.onSession n (fun x => { x with req := none, st := if x.spill.isEmpty then .idle else .parked })
      let waits := s.qb.cmds.filterMap (fun c => match c.work with
        | .sessEnd m close => if m = n then some (c.cid, close) else none
        | _ => none)
      waits.foldl (fun s w => (if w.2 then s.dropSession n else s).finish w.1 .ok zeros16) s

/-- A request ends with reason and status at the next step boundary, at once when no heat carries it (11 R267, R269). -/
def State.endAtBoundary (s : State) (n reason : Nat) (st : Stat) : State :=
  if inFlight s n then s.onSession n (fun x => { x with req := x.req.map (fun r =>
      { r with ending := some (match r.ending with | some e => min e reason | none => reason) }) })
  else s.endRequest n reason st

/-- Sessions that satisfy p close (11 R271): requests end with `ST_DISCARDED` and reason 5. -/
def State.closeSessions (s : State) (p : Nat → Session → Bool) : State :=
  let ns := (s.serving.sessions.filter (fun x => p x.1 x.2)).map (·.1)
  ns.foldl (fun s n => (s.endRequest n 5 .discarded).dropSession n) s

/-- The heat a command carries. -/
def heatOfCmd (s : State) (cid : Nat) : Option Nat :=
  (s.graph.heats.find? (fun x => x.2.cid == some cid)).map (·.1)

/-- A heat leaves the node table. -/
def State.dropHeat (s : State) (k : Nat) : State := s.onGraph (fun g => { g with heats := Tab.del g.heats k })

/-- The completion of command `cid` waits in a CQ (10 R240). -/
def entryWaits (s : State) (cid : Nat) : Bool := s.qb.queues.any (fun x => x.2.waiting.any (fun e => e.cid == some cid))

/-- A heat is gone once its completion is posted: its node entries are free, and the aborts that wait for it complete
(09 R212, R215). -/
def State.heatGone (s : State) (k : Nat) : State :=
  let aborts := s.qb.cmds.filterMap (fun c => if c.work = .abort && heatKey c.flask (c.p 0 4) = k then some c.cid else none)
  aborts.foldl (fun s a => s.finish a .ok zeros16) (s.dropHeat k)

/-- The completion of command `cid` has been posted; where it was a heat's, the heat is gone. -/
def State.heatPosted (s : State) (cid : Nat) : State :=
  match s.graph.heats.find? (fun x => x.2.cid == some cid && x.2.phase == .closing) with
  | some (k, _) => s.heatGone k
  | none => s

/-- A heat's completion is formed (09 R206): while it waits for its CQ the heat keeps its entries (09 R212, 10 R240); one that posts no
entry is gone at once. -/
def State.closeHeat (s : State) (k : Nat) (h : Heat) : State :=
  match h.cid with
  | none => s
  | some c =>
    let s := s.finish c h.outcome.1 (h.result s.time)
    if entryWaits s c then s.onHeat k (fun h => { h with phase := .closing, verdict := some h.outcome }) else s.heatGone k

/-- A heat whose completion is formed and not posted is discarded after all: its waiting entry says so (09 R215, R227). -/
def State.discardEntry (s : State) (k : Nat) : State :=
  match s.heat? k with
  | some h =>
    if h.phase = .closing then
      let h := { h with verdict := some (.discarded, 0xFFFFFFFF) }
      (s.onQb (fun b => { b with queues := b.queues.map (fun x => (x.1, { x.2 with waiting := x.2.waiting.map (fun e =>
        if e.cid == h.cid then { e with stat := .discarded, result := padTo 16 (h.result s.time) } else e) })) })).onHeat k (fun _ => h)
    else s
  | none => s

/-- A held heat ends without loading (09 R214). -/
def State.dropHeld (s : State) (k : Nat) (st : Stat) : State :=
  match s.heat? k with
  | none => s
  | some h =>
    (match h.cid with
      | some c => s.finish c st ({ h with verdict := some (st, 0xFFFFFFFF) }.result s.time)
      | none => s).dropHeat k

/-- A heat is discarded in whatever phase it is, its completion not yet posted (09 R212, R214, R215, R227). -/
def State.cutHeat (s : State) (k : Nat) : State :=
  match s.heat? k with
  | some h => match h.phase with
    | .held => s.dropHeld k .discarded
    | .closing => s.discardEntry k
    | _ => s.endHeat k .discarded 0xFFFFFFFF none
  | none => s

/-- A command's completion is posted while its work goes on: the command stays, bound to no queue (18 R439). -/
def State.orphan (s : State) (cid : Nat) (st : Stat) : State :=
  match findCmd s cid with
  | none => s
  | some c => (s.enter { cid := some cid, qnum := c.qnum, tag := c.tag, stat := postedStat s st, opcode := c.opcode,
                         flask := c.flask, result := zeros16, intr := c.intr }).onCmd cid (fun c => { c with qnum := 2 ^ 20 })

/-- Page moves that a command asked for stop; the pages stay where they are. -/
def State.stopMoves (s : State) (cid : Nat) : State :=
  s.onFlasks (fun t => t.map (fun x => (x.1, { x.2 with pages := x.2.pages.map (fun p => (p.1,
    { p.2 with move := match p.2.move with | some m => if m.cid = some cid then none else some m | none => none })) })))

/-- On any status but `ST_OK` the destination of a COPY beyond its first k bytes is undefined (10 R249). -/
def State.undefineCopy (s : State) (c : Cmd) (k : Nat) : State :=
  let a := c.p 8 8 + k
  let n := c.p 16 8 - k
  if bits (c.p 24 1) 1 1 = 1 then
    (cuts a n).foldl (fun s x => let (bs, s) := s.drawBytes x.2; s.hostWrite x.1 bs) s
  else s.undefineRange c.flask a n

/-- An accepted command ends with a failure status before its work is done (10 R243, R248): a heat under 09 R212, whose
completion follows its records, a copy with its BYTES, a reset that cannot be cancelled goes on, and a flash region
that was being programmed stays invalid (18 R430). -/
def State.abortCmd (s : State) (c : Cmd) (st : Stat) : State :=
  match c.work with
  | .heat => match heatOfCmd s c.cid with
    | some k => (s.endHeat k st 0xFFFFFFFF none).settle
    | none => s.failCmd c.cid st
  | .heldHeat => match heatOfCmd s c.cid with
    | some k => s.dropHeld k st
    | none => s.failCmd c.cid st
  | .copy n => ((s.dropFaults (fun f => f.who == .copy c.cid)).undefineCopy c n).finish c.cid st (leBytes 8 n)
  | .fill => (s.undefineRange c.flask (c.p 0 8) (c.p 8 8)).failCmd c.cid st
  | .serve n => if st = .timeout then s.endAtBoundary n 6 st else s.endRequest n 5 st
  | .reset => s.orphan c.cid st
  | .test => s.orphan c.cid st
  | .migrate _ => (s.stopMoves c.cid).failCmd c.cid st
  | .mould => s.failLoad c.cid st
  | .qdel q => (s.onQb (fun b => { b with queues := Tab.mod b.queues q (fun x => { x with st := .stopped }) })).failCmd c.cid st
  | .region _ _ _ => s.orphan c.cid st
  | .flash => (s.onFlash (fun f => { f with writing := none })).failCmd c.cid st
  | _ => s.failCmd c.cid st

/-- Tokens whose scales share one line (11 R270). -/
def scaleGroup (d : List Byte) : Nat := 2048 / fld d 7 1

/-- A failed step: the request of a row ends with reason 7, and the context falls back to a whole scale line (11 R270). -/
def State.stepFailed (s : State) (d : List Byte) (st : Stat) (n pos : Nat) : State :=
  (s.onSession n (fun x => { x with ctxLen := pos / scaleGroup d * scaleGroup d })).endRequest n 7 st

/-- The loops of a flask end with a fault of the flask: a request whose step heat is not posted ends as that step's failure, the others
with reason 5 (11 R271, R272). -/
def State.endLoops (s : State) (f : Nat) : State :=
  let ls := s.serving.loops.filter (fun l => flaskOfLoop l.1 == f)
  let s := ls.foldl (fun s l =>
    let rows := (match l.2.decode with | some d => d.rows | none => []) ++ (match l.2.prefill with | some d => d.rows | none => [])
    rows.foldl (fun s r => s.stepFailed l.2.desc .discarded r.1 r.2.1) s) s
  s.closeSessions (fun _ x => flaskOfLoop x.loop == f)

/-- 09 R225, R226: a flask-scope fault. Every heat of the flask ends under R212 with `ST_DISCARDED`, one whose completion is formed and
not posted included (09 R227); its serving loops end (11 R271), the flask is FAULTED, and event 0x03 is posted. A command of
the flask that is accepted in the same cycle completes with `ST_DISCARDED` (10 R253). -/
def State.flaskFault (s : State) (f : Nat) (cmd : Option Nat) : State :=
  match s.flask? f with
  | none => s
  | some x =>
    if x.faulted then s else
    let s : State := match cmd.bind (findCmd s) with
      | some c => if c.flask = f && c.work = .pending && c.accTime = s.time then s.abortCmd c .discarded else s
      | none => s
    let ks := (s.graph.heats.filter (fun h => h.2.flask == f)).map (·.1)
    let s := ((ks.foldl State.cutHeat s).endLoops f).freezeFlask f
    (s.settle.onFlask f (fun x => { x with faulted := true })).event
      { code := 3, stat := .uncorrectable, byte1 := 0, data := 0, flask := f, qnum := 0 }

end Sys2Proof.Machine
end

