-- ==== Sys2Proof/Machine/Queues.lean ====
section
/-!
DEFINITION. Quibor (10): rings, doorbells, intake, completions, and the commands of the queues themselves.
-/

namespace Sys2Proof.Machine

/-- Queue q. -/
def State.queue? (s : State) (q : Nat) : Option Queue := Tab.find? s.qb.queues q

/-- Change a queue that exists. -/
def State.onQueue (s : State) (q : Nat) (f : Queue → Queue) : State :=
  s.onQb (fun b => { b with queues := Tab.mod b.queues q f })

/-- Entries of an SQ. -/
def Queue.sqSize (q : Queue) : Nat := 2 ^ q.sqLog

/-- Entries of the queue's own CQ. -/
def Queue.cqSize (q : Queue) : Nat := 2 ^ q.cqLog

/-- The CQ has a free entry (10 R240). -/
def Queue.cqRoom (q : Queue) : Bool := (q.cqTail + 1) % q.cqSize ≠ q.cqHead

/-- The queue whose CQ queue q posts into. -/
def cqOwner (s : State) (q : Queue) : Option Queue := s.queue? q.cqOf

/-- A new queue (10 R247). -/
def Queue.fresh (sqBase cqBase sqLog cqLog qclass flask : Nat) (msix : Option Nat) (cqOf : Nat) : Queue :=
  { sqBase, cqBase, sqLog, cqLog, qclass, st := .active, flask, msix, cqOf, phase := true, sqHead := 0, sqTail := 0,
    cqTail := 0, cqHead := 0, held := none, waiting := [] }

/-! ## MSI-X (10 R241, 17 R400) -/

/-- An entry of the MSI-X table that nothing has written: masked (notes/assumptions/9.md). -/
def msixDefault : BitVec 128 := 1 <<< 96

/-- Vector v is masked. -/
def msixMasked (s : State) (v : Nat) : Bool := (Tab.get msixDefault s.qb.msixTable v).getLsbD 96

/-- Raise a vector: its message is sent, or stays pending while it is masked. -/
def State.raise (s : State) (v : Nat) : State :=
  if msixMasked s v then s.onQb (fun b => { b with msixPending := numInsert b.msixPending v })
  else s.onQb (fun b => { b with msixSent := v :: b.msixSent })

/-! ## Completions (10 R239 to R242) -/

/-- Advance a CQ past a written entry; the phase inverts at the wrap. -/
def Queue.posted (q : Queue) : Queue :=
  let t := (q.cqTail + 1) % q.cqSize
  { q with cqTail := t, phase := if t = 0 then !q.phase else q.phase }

/-- Everything of queue q has completed and been posted, and nothing waits in its own CQ. -/
def queueQuiet (s : State) (q : Nat) : Bool :=
  !s.qb.cmds.any (fun c => c.qnum == q) && !s.qb.queues.any (fun x => x.2.waiting.any (fun e => e.qnum == q)) &&
  (match s.queue? q with | some x => x.waiting.isEmpty | none => true)

/-- Queue 0 is gone once its deletion has nothing left to post (10 R229). -/
def State.reapAdmin (s : State) : State :=
  match s.queue? 0 with
  | some q => if q.st = .deleting && queueQuiet s 0 then
      s.onQb (fun b => { b with queues := Tab.del b.queues 0, aqCfg := b.aqCfg &&& 0x3FF }) else s
  | none => s

/-- 10 R240, R241: the first waiting entry of a CQ is written at its tail. A failing access stops the queue under event
0x02 of R242, and the entry stays first in line (notes/assumptions/15.md). -/
def postCompletion (cq : Nat) (bad : Bool) (s : State) : State :=
  match s.queue? cq with
  | none => s
  | some q =>
    match q.waiting with
    | [] => s
    | e :: rest =>
      if !q.cqRoom then s else
      let a := q.cqBase + 32 * q.cqTail
      if bad then
        (s.onQueue cq (fun q => { q with st := .stopped })).event
          { code := 2, stat := .uncorrectable, byte1 := 0, data := a, flask := q.flask, qnum := cq }
      else
        let carrier := s.queue? e.qnum
        let hd := match carrier with | some c => c.sqHead | none => 0
        let s := s.hostWrite a (entryBytes e.tag e.stat.code e.qnum q.phase hd e.opcode e.flask e.result)
        let s := s.onQueue cq (fun q => { q.posted with waiting := rest })
        let s := match carrier.bind (·.msix) with
          | some v => if e.intr || e.stat.failure then s.raise v else s
          | none => s
        (match e.cid with | some c => s.heatPosted c | none => s).reapAdmin

/-- COMPLETION_POST. -/
def execCompletionPost (cq : Nat) (bad : Bool) (s : State) : Out := done (postCompletion cq bad s)

/-- 10 R242: the oldest device event is posted on queue 0's CQ and raises vector 0. -/
def postEvent (bad : Bool) (s : State) : State :=
  match s.qb.events, s.queue? 0 with
  | e :: rest, some q =>
    if q.st = .deleting || !q.cqRoom then s else
    let a := q.cqBase + 32 * q.cqTail
    if bad then
      (s.onQueue 0 (fun q => { q with st := .stopped })).event
        { code := 2, stat := .uncorrectable, byte1 := 0, data := a, flask := 0xFF, qnum := 0 }
    else
      let s := s.hostWrite a (entryBytes 0xFFFF e.stat.code e.qnum q.phase q.sqHead 0 e.flask (eventResult e))
      ((s.onQueue 0 Queue.posted).onQb (fun b => { b with events := rest })).raise 0
  | _, _ => s

/-- DEVICE_EVENT_POST. -/
def execDeviceEventPost (bad : Bool) (s : State) : Out := done (postEvent bad s)

/-! ## Intake (10 R234 to R238) -/

/-- Opcodes that 10 R244 assigns. -/
def assignedOp (op : Nat) : Bool := (1 ≤ op && op ≤ 0x15) || (0x80 ≤ op && op ≤ 0x89)

/-- What a FAULTED flask accepts (09 R226). -/
def faultedOk (op : Nat) : Bool := op = 5 || op = 3 || op = 0xF || op = 0x10

/-- What a flask in FLASK_DESTROY accepts (09 R224). -/
def destroyOk (op : Nat) : Bool := op = 5 || op = 0xF || op = 0x10

/-- The header checks of 10 R235: the status of the first that fails. -/
def headerCheck (s : State) (qnum : Nat) (q : Queue) (b : List Byte) : Option Stat :=
  let op := fld b 0 1
  let flask := fld b 4 1
  if !assignedOp op || 8 ≤ fld b 1 1 || !zeroIn b 6 7 || !zeroIn b 12 15 || 7 < fld b 5 1 then some .invalid
  else if fld b 5 1 < q.qclass then some .invalid
  else if (op < 0x80 && qnum ≠ 0 && op ≠ 0xF) || (0x80 < op && qnum = 0) then some .invalid
  else if (qnum ≠ 0 && flask ≠ q.flask) || (qnum = 0 && fld b 2 2 = 0xFFFF) then some .invalid
  else if flask = 0xFF then none
  else match s.flask? flask with
    | none => some .notPresent
    | some f => if (f.faulted && !faultedOk op) || (f.destroying && !destroyOk op) then some .notPresent else none

/-- 10 R236: a packet is accepted and its command begins. -/
def State.accept (s : State) (qnum : Nat) (b : List Byte) : State :=
  s.onQb (fun q =>
    let c : Cmd :=
      { cid := q.nextCid, qnum, opcode := fld b 0 1, suppress := bits (fld b 1 1) 1 1 = 1,
        intr := bits (fld b 1 1) 2 2 = 1, tag := fld b 2 2, flask := fld b 4 1, prio := fld b 5 1, timeout := fld b 8 4,
        params := slice b 16 48, accTime := s.time, work := .pending }
    { q with nextCid := q.nextCid + 1, cmds := q.cmds ++ [c] })

/-- A failed packet is completed at once, in ring order (10 R235); it is no accepted command, and no FENCE command waits for it
(10 R238). -/
def State.refuse (s : State) (qnum : Nat) (b : List Byte) (st : Stat) : State :=
  s.enter { cid := none, qnum, tag := fld b 2 2, stat := st, opcode := fld b 0 1, flask := fld b 4 1,
            result := zeros16, intr := bits (fld b 1 1) 2 2 = 1 }

/-- Every earlier packet of the queue has completed and had its completion posted (10 R238). -/
def fenceClear (s : State) (qnum : Nat) : Bool :=
  !s.qb.cmds.any (fun c => c.qnum == qnum) && !s.qb.queues.any (fun x => x.2.waiting.any (fun e => e.qnum == qnum))

/-- A command that is accepted and incomplete; one whose completion was entered while its work goes on is complete (10 R236). -/
def Cmd.incomplete (c : Cmd) : Bool := c.qnum < 2 ^ 20

/-- A packet may be accepted now: its fence holds, no FENCE command of the queue is in progress, and the device holds fewer
than 65,536 accepted and incomplete commands (10 R236, R238). -/
def mayAccept (s : State) (qnum : Nat) (b : List Byte) : Bool :=
  (s.qb.cmds.filter Cmd.incomplete).length < 65536 && !s.qb.cmds.any (fun c => c.qnum == qnum && c.opcode == 0x85) &&
  (fld b 1 1 % 2 = 0 || fenceClear s qnum)

/-- 10 R237: queue q is eligible for a grant. -/
def eligible (s : State) (n : Nat) (q : Queue) : Bool :=
  q.st = .active && q.sqHead ≠ q.sqTail && q.held.isNone &&
  !s.qb.cmds.any (fun c => c.qnum == n && c.work == .heldHeat) &&
  (match cqOwner s q with | some o => o.cqRoom | none => false)

/-- WEIGHT[c] of `QB.WRR` (10 R229); a byte of 0 acts as 1. -/
def weight (s : State) (c : Nat) : Nat := max 1 (bits s.qb.wrr.toNat (8 * c + 7) (8 * c))

/-- The next queue of class c in round-robin order after the one last granted (10 R237). -/
def nextInClass (s : State) (c : Nat) : Option Nat :=
  let l := (s.qb.queues.filter (fun x => x.2.qclass == c && eligible s x.1 x.2)).map (·.1)
  match l.find? (fun q => Tab.get 0 s.qb.last c < q) with
  | some q => some q
  | none => l.head?

/-- The grant of the round: from class c with u grants used, the first class that has an eligible queue and weight left.
The list counts the classes still to look at. -/
def grantFrom (s : State) : List Nat → Nat → Nat → Option (Nat × Nat × Nat)
  | [], _, _ => none
  | _ :: t, c, u =>
    if u < weight s c then
      match nextInClass s c with
      | some q => some (q, c, u)
      | none => grantFrom s t ((c + 1) % 8) 0
    else grantFrom s t ((c + 1) % 8) 0

/-- 10 R237: the queue that the next grant goes to, its class, and the grants the class has had. -/
def grant (s : State) : Option (Nat × Nat × Nat) := grantFrom s (upto 9) s.qb.cls s.qb.used

/-- 10 R236, R237: one grant fetches the packet at SQ_HEAD, checks it and accepts it, or holds it. -/
def intake (bad : Bool) (s : State) : State :=
  match grant s with
  | none => s
  | some (n, c, u) =>
    match s.queue? n with
    | none => s
    | some q =>
      let s := s.onQb (fun b => { b with cls := c, used := u + 1, last := Tab.put b.last c n })
      let a := q.sqBase + 64 * q.sqHead
      if bad then
        (s.onQueue n (fun q => { q with st := .stopped })).event
          { code := 2, stat := .uncorrectable, byte1 := 0, data := a, flask := q.flask, qnum := n }
      else
        let b := s.hostRead a 64
        let s := s.onQueue n (fun q => { q with sqHead := (q.sqHead + 1) % q.sqSize })
        match headerCheck s n q b with
        | some st => s.refuse n b st
        | none => if mayAccept s n b then s.accept n b else s.onQueue n (fun q => { q with held := some b })

/-- INTAKE_FETCH. -/
def execIntakeFetch (bad : Bool) (s : State) : Out := done (intake bad s)

/-- 10 R236, R238: a fetched packet that waits unaccepted is accepted once it may be. A fault of its flask in the meantime
completes it with `ST_NOT_PRESENT` under the check of R235. -/
def acceptHeld (n : Nat) (s : State) : State :=
  match s.queue? n with
  | none => s
  | some q => match q.held with
    | none => s
    | some b =>
      if mayAccept s n b then
        let s := s.onQueue n (fun q => { q with held := none })
        match headerCheck s n q b with
        | some st => s.refuse n b st
        | none => s.accept n b
      else s

/-- PACKET_ACCEPT. -/
def execPacketAccept (n : Nat) (s : State) : Out := done (acceptHeld n s)

/-! ## Doorbells (10 R231, R232) -/

/-- The host's own stores to its memory. -/
def State.hostStores (s : State) (l : List (Nat × List Byte)) : State := l.foldl (fun s x => s.hostWrite x.1 x.2) s

/-- A doorbell write that is ignored counts in `QB.DB_DROP`. -/
def State.dropDoorbell (s : State) : State := s.onQb (fun b => { b with dbDrop := b.dbDrop + 1 })

/-- Doorbell error (10 R232): the queue stops, a DELETING one too, and event 0x01 is posted. -/
def State.doorbellError (s : State) (n flask v : Nat) : State :=
  (s.onQueue n (fun q => { q with st := .stopped })).event
    { code := 1, stat := .invalid, byte1 := 0, data := v, flask, qnum := n }

/-- a − b mod z. -/
def ringDiff (a b z : Nat) : Nat := (a + z - b % z) % z

/-- A doorbell's form is accepted: READY, 64 bits wide, reserved bits clear (10 R231, R232). -/
def doorbellForm (s : State) (width v : Nat) : Bool :=
  s.boot.ready && width = 64 && bits v 31 21 = 0 && bits v 63 48 = 0

/-- SQ doorbell of value v. -/
def ringSq (width v : Nat) (s : State) : State :=
  let n := bits v 19 0
  let idx := bits v 47 32
  if !doorbellForm s width v || bits v 20 20 = 1 then s.dropDoorbell else
  match s.queue? n with
  | none => s.dropDoorbell
  | some q =>
    if q.st ≠ .active then s.dropDoorbell
    else
      let z := q.sqSize
      if z ≤ idx || z - 1 - ringDiff q.sqTail q.sqHead z < ringDiff idx q.sqTail z then s.doorbellError n q.flask v
      else s.onQueue n (fun q => { q with sqTail := idx })

/-- SQ_DOORBELL: the host's stores, then the doorbell. -/
def execSqDoorbell (width : Nat) (value : W64) (host : List (Nat × List Byte)) (s : State) : Out :=
  done (ringSq width value.toNat (s.hostStores host))

/-- CQ doorbell of value v. -/
def ringCq (width v : Nat) (s : State) : State :=
  let n := bits v 19 0
  let idx := bits v 47 32
  if !doorbellForm s width v || bits v 20 20 = 0 then s.dropDoorbell else
  match s.queue? n with
  | none => s.dropDoorbell
  | some q =>
    match cqOwner s q with
    | none => s.dropDoorbell
    | some o =>
      let z := o.cqSize
      if z ≤ idx || ringDiff o.cqTail o.cqHead z < ringDiff idx o.cqHead z then s.doorbellError n q.flask v
      else s.onQueue q.cqOf (fun o => { o with cqHead := idx })

/-- CQ_DOORBELL. -/
def execCqDoorbell (width : Nat) (value : W64) (s : State) : Out := done (ringCq width value.toNat s)

/-! ## Queue 0 (10 R229) -/

/-- A command that waits for the end of a request. -/
def Work.waitsForRequest (w : Work) : Bool :=
  match w with
  | .sessEnd _ _ => true
  | _ => false

/-- Every accepted command of a queue ends with `ST_DISCARDED`, those that wait for a request before the request ends, and its sessions
close (10 R248, 11 R271). -/
def State.abortQueue (s : State) (n : Nat) : State :=
  let l := s.qb.cmds.filter (fun c => c.qnum == n)
  let s := (l.filter (·.work.waitsForRequest) ++ l.filter (!·.work.waitsForRequest)).foldl (fun s c => s.abortCmd c .discarded) s
  s.closeSessions (fun _ x => x.qnum == n)

/-- Queue 0 is deleted as `QUEUE_DELETE` with ABORT deletes a queue. -/
def State.deleteAdmin (s : State) : State :=
  ((s.onQueue 0 (fun q => { q with st := .deleting, held := none })).abortQueue 0).reapAdmin

/-- Write of `QB.AQ_CFG` by the host, over a link that is up (00 R4). -/
def aqCfg (v : W64) (s : State) : State :=
  if !cxlUp s then s else
  let x := v.toNat
  let sq := bits x 4 0
  let cq := bits x 9 5
  match s.queue? 0 with
  | none =>
    let sb := s.qb.aqSqBase.toNat
    let cb := s.qb.aqCqBase.toNat
    let keep := s.onQb (fun b => { b with aqCfg := BitVec.ofNat 32 (x % 1024) })
    if bits x 31 31 = 0 || sq < 4 || 16 < sq || cq < 4 || 16 < cq || sb % 4096 ≠ 0 || cb % 4096 ≠ 0 then keep
    else keep.onQb (fun b => { b with
      aqCfg := BitVec.ofNat 32 (x % 1024 + 2 ^ 31)
      queues := Tab.put b.queues 0 (Queue.fresh sb cb sq cq 0 0xFF (some 0) 0) })
  | some q =>
    if bits x 31 31 = 1 || q.st = .deleting then s else s.deleteAdmin

/-- AQ_CFG_WRITE. -/
def execAqCfgWrite (v : W64) (s : State) : Out := done (aqCfg v s)

/-- ENABLE of `QB.AQ_CFG` as it reads: 1 while queue 0 exists (10 R229). -/
def aqEnabled (s : State) : Bool := (s.queue? 0).isSome

/-- `QB.STATUS` (10 R229). -/
def qbStatus (s : State) : Nat :=
  (if s.boot.ready then 1 else 0) + (if aqEnabled s then 2 else 0) +
  (match s.queue? 0 with | some q => if q.st = .stopped then 4 else 0 | none => 0) + 8 * s.boot.level

/-! ## Commands of the queues -/

/-- NOP (10 R245). -/
def execNop (cid : Nat) (s : State) : Out :=
  done (s.accepted cid (fun c => c.opcode == 0x80) (fun c s =>
    s.finish cid (if c.reserved 0 47 then .ok else .invalid) zeros16))

/-- IDENTIFY (10 R246). -/
def execIdentify (cid : Nat) (bad : Bool) (s : State) : Out :=
  done (s.accepted cid (fun c => c.opcode == 0x01) (fun c s =>
    if c.flask ≠ 0xFF || c.p 0 8 % 4096 ≠ 0 || !c.reserved 8 47 then s.failCmd cid .invalid
    else if bad then s.failCmd cid .uncorrectable
    else (s.hostWrite (c.p 0 8) (identity s)).finish cid .ok (leBytes 4 (exposedCount s) ++ leBytes 1 s.boot.level)))

/-- The check of `QUEUE_CREATE` (10 R247). -/
def queueCreateCheck (s : State) (c : Cmd) : Stat :=
  let n := c.p 0 4
  let own := c.p 24 4 = 0xFFFFFFFF
  let cqOk := if own then 4 ≤ c.p 6 1 && c.p 6 1 ≤ 16 && c.p 16 8 % 4096 = 0
    else c.p 6 1 = 0 && c.p 16 8 = 0 && c.p 24 4 ≠ 0 &&
      (match s.queue? (c.p 24 4) with | some o => o.flask = c.flask && o.cqOf = c.p 24 4 | none => false)
  if n = 0 || 1048575 < n || 7 < c.p 4 1 || c.p 5 1 < 4 || 16 < c.p 5 1 || !c.reserved 7 7 || !c.reserved 30 47 ||
     c.p 8 8 % 4096 ≠ 0 || !(c.p 28 2 < 2048 || c.p 28 2 = 0xFFFF) || !cqOk then .invalid
  else if (s.queue? n).isSome then .busy
  else if c.flask = 0xFF then (if queuesFree s = 0 then .noResource else .ok)
  else match s.flask? c.flask with
    | none => .notPresent
    | some f => if f.queueQuota ≤ (s.qb.queues.filter (fun x => x.2.flask == c.flask)).length then .noResource else .ok

/-- QUEUE_CREATE (10 R247). -/
def execQueueCreate (cid : Nat) (s : State) : Out :=
  done (s.accepted cid (fun c => c.opcode == 0x02) (fun c s =>
    match queueCreateCheck s c with
    | .ok =>
      let n := c.p 0 4
      let own := c.p 24 4 = 0xFFFFFFFF
      let msix := if c.p 28 2 = 0xFFFF then none else some (c.p 28 2)
      let q := Queue.fresh (c.p 8 8) (c.p 16 8) (c.p 5 1) (c.p 6 1) (c.p 4 1) c.flask msix (if own then n else c.p 24 4)
      (s.onQb (fun b => { b with queues := Tab.put b.queues n q })).finish cid .ok zeros16
    | st => s.failCmd cid st))

/-- A delete completes once every completion of the queue is posted and its sessions are closed (10 R248). -/
def State.tryDelete (s : State) (cid n : Nat) : State :=
  if queueQuiet s n then
    let s := s.closeSessions (fun _ x => x.qnum == n)
    (s.onQb (fun b => { b with queues := Tab.del b.queues n })).finish cid .ok zeros16
  else s

/-- QUEUE_DELETE (10 R248). A delete that waits is looked at again by its own row (notes/assumptions/16.md). -/
def execQueueDelete (cid : Nat) (s : State) : Out :=
  done (match findCmd s cid with
    | none => s
    | some c =>
      match c.work with
      | .qdel n => s.tryDelete cid n
      | .pending =>
        if c.opcode ≠ 0x03 then s else
        let n := c.p 0 4
        if n = 0 || 1048575 < n || 1 < c.p 4 1 || !c.reserved 5 47 then s.failCmd cid .invalid
        else match s.queue? n with
          | none => s.failCmd cid .notPresent
          | some q =>
            if q.flask ≠ c.flask then s.failCmd cid .notPresent
            else if s.qb.queues.any (fun x => x.1 != n && x.2.cqOf == n) then s.failCmd cid .busy
            else if q.st = .deleting then s.failCmd cid .busy
            else
              let s := (s.onCmd cid (fun c => { c with work := .qdel n })).onQueue n (fun q => { q with st := .deleting, held := none })
              let s := if c.p 4 1 = 1 then s.abortQueue n
                else s.closeSessions (fun _ x => x.qnum == n && x.req.isNone)
              s.tryDelete cid n
      | _ => s)

/-- The fence condition of a FENCE command (10 R238): every command accepted before it in its scope has completed and had
its completion posted. -/
def fenceMet (s : State) (c : Cmd) : Bool :=
  let inScope (q : Nat) : Bool := if c.p 0 1 = 0 then q == c.qnum
    else match s.queue? q with | some x => x.flask == c.flask | none => false
  !s.qb.cmds.any (fun x => x.cid < c.cid && inScope x.qnum) &&
  !s.qb.queues.any (fun x => x.2.waiting.any (fun e => inScope e.qnum && (match e.cid with | some k => k < c.cid | none => false)))

/-- FENCE (10 R238). A fence that waits is looked at again by its own row (notes/assumptions/16.md). -/
def execFence (cid : Nat) (s : State) : Out :=
  done (match findCmd s cid with
    | none => s
    | some c =>
      if c.opcode ≠ 0x85 || !(c.work = .pending || c.work = .fence) then s
      else if 1 < c.p 0 1 || !c.reserved 1 47 then s.failCmd cid .invalid
      else if fenceMet s c then s.finish cid .ok zeros16
      else s.onCmd cid (fun c => { c with work := .fence }))

/-- The status a range gives a command of a flask before any byte moves: `ST_INVALID` where it is unmapped, unbacked or
outside the flask, `ST_NOT_PRESENT` in an absent or failed unit (01 R27, 10 R249). -/
def rangeCheck (s : State) (flask va n : Nat) (write : Bool) : Stat :=
  if flask = 0xFF then physOutcome s va n write else flaskOutcome s flask va n write

/-- The check of `COPY` (10 R249). -/
def copyCheck (s : State) (c : Cmd) : Stat :=
  let src := c.p 0 8
  let dst := c.p 8 8
  let n := c.p 16 8
  let sh := bits (c.p 24 1) 0 0 = 1
  let dh := bits (c.p 24 1) 1 1 = 1
  if src % 64 ≠ 0 || dst % 64 ≠ 0 || n < 64 || 2 ^ 40 < n || n % 64 ≠ 0 || 3 < c.p 24 1 || !c.reserved 25 47 then .invalid
  else if sh = dh && src < dst + n && dst < src + n then .invalid
  else match (if sh then .ok else rangeCheck s c.flask src n false), (if dh then .ok else rangeCheck s c.flask dst n true) with
    | .ok, st => st
    | st, .ok => st
    | .invalid, _ => .invalid
    | _, .invalid => .invalid
    | st, _ => st

/-- COPY (10 R249): checked, then carried out piece by piece. -/
def execCopy (cid : Nat) (s : State) : Out :=
  done (s.accepted cid (fun c => c.opcode == 0x84) (fun c s =>
    match copyCheck s c with
    | .ok => s.onCmd cid (fun c => { c with work := .copy 0 })
    | st => s.failCmd cid st))

/-- Key of a claimable resource (10 R251). -/
def claimKey (kind inst : Nat) : Nat := kind * 1024 + inst

/-- A flask claims trace SRAM of a cluster outside it (10 R251). -/
def claimOutside (s : State) (c : Cmd) : Bool :=
  c.p 0 1 = 1 && c.flask ≠ 0xFF && (match s.flask? c.flask with | some f => !f.clusters.contains (c.p 4 4) | none => true)

/-- Fields of a claim or a release are in range (10 R251). -/
def claimForm (c : Cmd) : Bool :=
  let k := c.p 0 1
  c.reserved 2 3 && c.reserved 8 47 &&
  (match k with
    | 1 => 1 ≤ c.p 1 1 && c.p 1 1 ≤ 3 && c.p 4 4 < 96
    | 2 => c.p 1 1 = 0 && c.p 4 4 = 0
    | 3 => c.p 1 1 = 0 && c.p 4 4 < 32
    | _ => false)

/-- RESOURCE_CLAIM (10 R251, 20 R465). -/
def execResourceClaim (cid : Nat) (s : State) : Out :=
  done (s.accepted cid (fun c => c.opcode == 0x12) (fun c s =>
    if !claimForm c || claimOutside s c then s.failCmd cid .invalid else
    let k := claimKey (c.p 0 1) (c.p 4 4)
    match Tab.find? s.claims k with
    | some o => s.finish cid .busy (leBytes 1 o.owner ++ leBytes 1 o.use)
    | none =>
      let s := s.onClaims (fun t => Tab.put t k { owner := c.flask, use := c.p 1 1, since := s.time })
      (if c.p 0 1 = 1 then s.clearTrace (c.p 4 4) else s).finish cid .ok zeros16))

/-- A claim ends (10 R251, 15 R368); the second I3C target leaves its bus and is as after reset (17 R417;
notes/assumptions/45.md). -/
def State.release (s : State) (k : Nat) : State :=
  let s := s.onClaims (fun t => Tab.del t k)
  if k / 1024 = 1 then s.clearTrace (k % 1024) else if k / 1024 = 2 then s.onI3c2 (fun _ => .init) else s

/-- RESOURCE_RELEASE (10 R251). -/
def execResourceRelease (cid : Nat) (s : State) : Out :=
  done (s.accepted cid (fun c => c.opcode == 0x13) (fun c s =>
    if !claimForm c then s.failCmd cid .invalid else
    let k := claimKey (c.p 0 1) (c.p 4 4)
    match Tab.find? s.claims k with
    | some o => if o.owner = c.flask then (s.release k).finish cid .ok zeros16 else s.failCmd cid .notPresent
    | none => s.failCmd cid .notPresent))

/-- COMMAND_TIMEOUT (10 R243): the timer of an accepted command expires. -/
def execCommandTimeout (cid : Nat) (s : State) : Out :=
  done (match findCmd s cid with
    | none => s
    | some c =>
      if c.timeout = 0 || 2 ^ 20 ≤ c.qnum then s
      else (s.until (c.accTime + 1000 * c.timeout)).abortCmd c .timeout)

end Sys2Proof.Machine
end

