-- ==== Sys2Proof/Machine/BlackBox.lean ====
section
/-!
DEFINITION. The black box: how records commit, and how they are read (20 R466 to R478).
-/

namespace Sys2Proof.Machine

/-! ## Slots (20 R466, R467, R470) -/

/-- Base and slots of the regions. -/
def defectBase : Nat := 0x10000
def securityBase : Nat := 0x210000
def eventBase : Nat := 0x310000
def defectSlots : Nat := 32768
def securitySlots : Nat := 16384
def eventSlots : Nat := 211968

/-- A committed slot's bytes; its CRC covers every byte but STATE, with the CRC's own bytes as zero. -/
def slotBytes (seq type flask : Nat) (body : List Byte) : List Byte :=
  let lo := leBytes 8 seq ++ leBytes 1 type
  let mid := leBytes 1 flask ++ leBytes 1 0
  let b := padTo 48 body
  lo ++ leBytes 1 0xC3 ++ mid ++ leBytes 4 (crc32 (lo ++ mid ++ leBytes 4 0 ++ b)) ++ b

/-- A slot holds a record: STATE is COMMITTED and CRC matches. -/
def slotHolds (b : List Byte) : Bool :=
  fld b 9 1 == 0xC3 && fld b 12 4 == crc32 (b.take 9 ++ slice b 10 2 ++ leBytes 4 0 ++ slice b 16 48)

/-- The entry that a DEFECT record holds (18 R432). -/
def defectOf (b : List Byte) : Defect :=
  { kind := fld b 0 1, source := fld b 1 1, start := fld b 4 4, place := fld b 8 8, dimm := fld b 16 4 }

/-- A record takes the next number in a slot of the MRAM; the three writes of 20 R468 end in its committed bytes. -/
def BlackBox.write (b : BlackBox) (off : Nat) (r : BbRec) : BlackBox :=
  { b with mram := writeTab hostDefault b.mram off (slotBytes b.seq r.type r.flask r.body), seq := b.seq + 1 }

/-- A defect entry's commit, in the lowest empty slot. -/
def BlackBox.putDefect (b : BlackBox) (r : BbRec) : BlackBox :=
  let n := b.defects.length
  { b.write (defectBase + 64 * n) r with defects := b.defects ++ [defectOf r.body] }

/-- A security record's commit, in the lowest empty slot. -/
def BlackBox.putSecurity (b : BlackBox) (r : BbRec) : BlackBox :=
  { b.write (securityBase + 64 * b.nSec) r with nSec := b.nSec + 1 }

/-- An event-log record's commit: the next slot, wrapping; EVT_WRAPPED before the first overwriting, EVT_HINT after every 1,024
records, and the mark of an unfinished start (18 R424). -/
def BlackBox.putEvent (b : BlackBox) (r : BbRec) : BlackBox :=
  let k := b.evtSlot
  let b := if b.nEvt = eventSlots then b.updCtl (fun c => { c with evtWrapped := true }) else b
  let b : BlackBox := { b.write (eventBase + 64 * k) r with evtSlot := (k + 1) % eventSlots, nEvt := b.nEvt + 1 }
  let b := if b.nEvt % 1024 = 0 then b.updCtl (fun c => { c with evtHint := k }) else b
  if r.type = 0x10 then { b with unfinished := true }
  else if r.type = 0x11 && (match b.ctl with | some c => c.startCount == fld r.body 0 4 | none => false) then
    { b with unfinished := false }
  else b

/-- Event 0x0D (20 R473), posted once. -/
def State.regionFull (s : State) (region lost : Nat) (again : Bool) : State :=
  if again then s else s.devEvent 0x0D .noResource region lost

/-- A record of a full defect list or security log is lost (20 R473). -/
def State.loseRecord (s : State) (defect : Bool) : State :=
  let was := match s.box.ctl with | some c => if defect then c.defectFull else c.secFull | none => false
  let s := s.onBox (fun b => b.updCtl (fun c =>
    if defect then { c with defectLost := sat32 c.defectLost 1, defectFull := true }
    else { c with secLost := sat32 c.secLost 1, secFull := true }))
  let lost := match s.box.ctl with | some c => if defect then c.defectLost else c.secLost | none => 0
  s.regionFull (if defect then 0 else 1) lost was

/-- The oldest waiting record commits (20 R468 to R474); event 0x11 follows a security record (20 R463). -/
def State.commitNext (s : State) : State :=
  match s.box.queue with
  | [] => s
  | r :: t =>
    let s := s.onBox (fun b => { b with queue := t })
    if r.type = 1 then
      if defectSlots ≤ s.box.defects.length then s.loseRecord true else s.onBox (·.putDefect r)
    else if isSecurity r.type then
      if securitySlots ≤ s.box.nSec then s.loseRecord false else
      let seq := s.box.seq
      (s.onBox (·.putSecurity r)).event
        { code := 0x11, stat := if r.type = 0x20 then .authFail else .ok, byte1 := r.type, data := seq, flask := r.flask, qnum := 0 }
    else s.onBox (·.putEvent r)

/-- A management core runs: between steps 2 of a start and its end (17 R418, 18 R423). -/
def coresRun (s : State) : Bool := s.boot.phase ≠ .off && s.boot.phase ≠ .dead

/-- The slot that a record would take next (20 R470); none in a region that is full. -/
def BlackBox.nextSlot (b : BlackBox) (type : Nat) : Option Nat :=
  if type = 1 then if b.defects.length < defectSlots then some (defectBase + 64 * b.defects.length) else none
  else if isSecurity type then if b.nSec < securitySlots then some (securityBase + 64 * b.nSec) else none
  else some (eventBase + 64 * b.evtSlot)

/-- A commit stops before its third write (20 R468): the slot is untouched, or OPEN with the first n bytes of the second write. The
writer sets EVT_WRAPPED before it opens a slot that held a record. -/
def BlackBox.breakOff (b : BlackBox) (r : BbRec) (off n : Nat) : BlackBox :=
  let new := slotBytes b.seq r.type r.flask r.body
  let bytes := new.take n ++ (readTab hostDefault b.mram off 64).drop n
  let b := if eventBase ≤ off && b.nEvt = eventSlots then b.updCtl (fun c => { c with evtWrapped := true }) else b
  { b with mram := writeTab hostDefault b.mram off (overlay bytes 9 [0x5A]) }

/-- The writer stops, maybe within the commit of the oldest waiting record; how far it came is free. -/
def State.breakCommit (s : State) : State :=
  match s.box.queue with
  | [] => s
  | r :: _ =>
    let (v, s) := s.draw
    match s.box.nextSlot r.type with
    | some off => if v % 66 = 65 then s else s.onBox (fun b => b.breakOff r off (v % 66))
    | none => s

/-- BLACKBOX_COMMIT (20 R468). -/
def execBlackboxCommit (s : State) : Out := done (if coresRun s then s.commitNext else s)

/-- Records commit until none waits: a device reset commits the queue before the start begins (20 R474). A commit may post one
event record more, which commits too. -/
def commitAll : Nat → State → State
  | 0, s => s
  | n + 1, s => if s.box.queue.isEmpty then s else commitAll n s.commitNext

/-- A bound on the records that `commitAll` meets. -/
def State.commitQueue (s : State) : State := commitAll (2 * s.box.queue.length + 2) s

/-! ## Reading (20 R475, R476) -/

/-- Bytes of the MRAM. -/
def boxRead (s : State) (off n : Nat) : List Byte := readTab hostDefault s.box.mram off n

/-- The slots in which something is written, by their offsets; the MRAM's keys rise. -/
def slotsUsed (t : Tab Byte) : List Nat :=
  t.foldr (fun x l => if l.head? = some (x.1 / 64 * 64) then l else x.1 / 64 * 64 :: l) []

/-- Region of an offset: bit 0 event log, 1 security log, 2 defect list; none of the control region. -/
def regionBit (off : Nat) : Option Nat :=
  if off < defectBase then none else if off < securityBase then some 2 else if off < eventBase then some 1 else some 0

/-- Committed slots of the regions in a mask, in ascending SEQ. -/
def recordsOf (s : State) (mask : Nat) : List (List Byte) :=
  (((slotsUsed s.box.mram).filter (fun o => match regionBit o with | some b => mask.testBit b | none => false)).map
    (fun o => boxRead s o 64)).filter slotHolds |>.insertionSort (fun a b => fld a 0 8 ≤ fld b 0 8)

/-- Fields of the command are in range (20 R475). -/
def boxReadForm (c : Cmd) : Bool :=
  let len := c.p 16 4
  let mode := c.p 20 1
  c.p 0 8 % 64 == 0 && 64 ≤ len && len ≤ 0x1000000 && len % 64 == 0 && mode < 2 && c.p 21 1 < 8 && c.reserved 22 47 &&
  (mode == 1 || (c.p 8 8 % 64 == 0 && c.p 8 8 + len ≤ 0x1000000 && c.flask == 0xFF)) &&
  (mode == 0 || c.flask == 0xFF || c.p 21 1 < 2)

/-- RESULT: bytes written, GAP, NEXT. -/
def boxResult (n : Nat) (gap : Bool) (next : Nat) : List Byte := leBytes 4 n ++ leBytes 1 (if gap then 1 else 0) ++ leBytes 3 0 ++ leBytes 8 next

/-- GAP of MODE 1: the wrap may have overwritten event-log records from `start` upward. -/
def boxGap (s : State) (mask start : Nat) : Bool :=
  mask.testBit 0 && (match s.box.ctl with | some c => c.evtWrapped | none => false) &&
  (match (recordsOf s 1).head? with | some b => start < fld b 0 8 | none => false)

/-- BLACKBOX_READ (20 R475). -/
def execBlackboxRead (cid : Nat) (bad : Bool) (s : State) : Out :=
  done (s.accepted cid (fun c => c.opcode == 0x10) (fun c s =>
    if !boxReadForm c then s.failCmd cid .invalid else
    if bad then s.failCmd cid .uncorrectable else
    let start := c.p 8 8
    let len := c.p 16 4
    if c.p 20 1 = 0 then
      (s.hostWrite (c.p 0 8) (boxRead s start len)).finish cid .ok (boxResult len false start)
    else
      let l := ((recordsOf s (c.p 21 1)).filter (fun b => start ≤ fld b 0 8 && (c.flask == 0xFF || fld b 10 1 == c.flask))).take (len / 64)
      let next := match l.getLast? with | some b => fld b 0 8 + 1 | none => start
      (s.hostWrite (c.p 0 8) l.flatten).finish cid .ok (boxResult (64 * l.length) (boxGap s (c.p 21 1) start) next)))

/-- DEFECT_LIST_READ (20 R476). -/
def execDefectListRead (cid : Nat) (bad : Bool) (s : State) : Out :=
  done (s.accepted cid (fun c => c.opcode == 0x11) (fun c s =>
    if c.p 12 4 = 0 || 32768 < c.p 12 4 || !c.reserved 16 47 then s.failCmd cid .invalid else
    if bad then s.failCmd cid .uncorrectable else
    let l := (s.box.defects.drop (c.p 8 4)).take (c.p 12 4)
    (s.hostWrite (c.p 0 8) (l.flatMap defectBytes)).finish cid .ok (leBytes 4 s.box.defects.length ++ leBytes 4 l.length)))

end Sys2Proof.Machine
end

