-- ==== Sys2Proof/Machine/Codes.lean ====
section
/-!
DEFINITION. Code words of stored lines (12 R274, R275): RS(72,66), the four Hsiao words, the CRCs of DDR5, and what a code word reads
as when bytes of it have changed. The order of the symbols and bits in the check bytes is the model's (notes/assumptions/121.md).
-/

namespace Sys2Proof.Machine

/-! ## GF(2^8) (12 R275) -/

/-- Times α, modulo x^8 + x^4 + x^3 + x^2 + 1. -/
def symDouble (a : Nat) : Nat := if a < 128 then 2 * a else (2 * a) ^^^ 0x11D

/-- Product of two symbols. -/
def symMul (a b : Nat) : Nat :=
  ((upto 8).foldl (fun (x : Nat × Nat) k => (symDouble x.1, if b.testBit k then x.2 ^^^ x.1 else x.2)) (a, 0)).2

/-- α^k. -/
def symExp (k : Nat) : Nat := (symDouble)^[k % 255] 1

/-- The inverse of a symbol, its 254th power. -/
def symInv (a : Nat) : Nat := (upto 253).foldl (fun p _ => symMul p a) a

/-- Quotient of two symbols. -/
def symDiv (a b : Nat) : Nat := symMul a (symInv b)

/-! ## RS(72,66) (12 R275) -/

/-- The product of the roots' factors x + α^0 to x + α^5, highest power first. -/
def rsGenerator : List Nat :=
  (upto 6).foldl (fun p i => List.zipWith (· ^^^ ·) (p ++ [0]) (0 :: p.map (fun c => symMul c (symExp i)))) [1]

/-- One more information symbol enters the remainder. -/
def rsShift (r : List Nat) (b : Nat) : List Nat :=
  let f := b ^^^ r.headD 0
  List.zipWith (fun x g => x ^^^ symMul f g) (r.drop 1 ++ [0]) (rsGenerator.drop 1)

/-- The six check symbols of 66 information symbols. -/
def rsCheck (info : List Nat) : List Nat := info.foldl rsShift [0, 0, 0, 0, 0, 0]

/-- Syndrome of root α^j: byte i of a word is the coefficient of x^(71 − i). -/
def rsSyndrome (w : List Nat) (j : Nat) : Nat := w.foldl (fun s b => symMul s (symExp j) ^^^ b) 0

/-- The positions and values of one or two wrong symbols that give the six syndromes, if there are such (12 R275). -/
def rsErrors (s : List Nat) : Option (List (Nat × Nat)) :=
  let g (j : Nat) : Nat := s.getD j 0
  let det := symMul (g 1) (g 1) ^^^ symMul (g 0) (g 2)
  if det = 0 then
    match (upto 72).find? (fun p => (upto 5).all (fun j => g (j + 1) == symMul (g j) (symExp p))) with
    | some p => if g 0 = 0 then none else some [(71 - p, g 0)]
    | none => none
  else
    let a := symDiv (symMul (g 0) (g 3) ^^^ symMul (g 1) (g 2)) det
    let b := symDiv (symMul (g 1) (g 3) ^^^ symMul (g 2) (g 2)) det
    let fits := (upto 2).all (fun j => g (j + 4) == symMul a (g (j + 3)) ^^^ symMul b (g (j + 2)))
    match fits, (upto 72).filter (fun p => let x := symExp p; symMul x x ^^^ symMul a x == b) with
    | true, [p, q] =>
      let e := symDiv (g 1 ^^^ symMul (g 0) (symExp p)) (symExp p ^^^ symExp q)
      some [(71 - p, g 0 ^^^ e), (71 - q, e)]
    | _, _ => none

/-- A received word of 72 symbols corrected, or none where its errors are only detected. -/
def rsDecode (w : List Nat) : Option (List Nat) :=
  let s := (upto 6).map (rsSyndrome w)
  if s.all (· == 0) then some w else
  (rsErrors s).map (fun l => l.foldl (fun w e => w.set e.1 (w.getD e.1 0 ^^^ e.2)) w)

/-! ## Hsiao words (12 R275, R291, 13 R305) -/

/-- What a Hsiao word of n bits with these bits flipped still has wrong once it has been read, or none where the error is detected. Every
column has odd weight, so that an even number of flips is detected or missed and an odd one is detected or miscorrected. -/
def hsiaoLeft (n : Nat) (flips : List Nat) : Option (List Nat) :=
  match flips with
  | [] => some []
  | [_] => some []
  | [_, _] => none
  | l =>
    let m := Config.hsiaoMiss l
    if l.length % 2 = 0 then (if m = 1 then some l else none)
    else if m < 2 then none
    else let b := (m - 2) % n; some (if l.contains b then l.filter (· != b) else b :: l)

/-- The bits of a word of w data bits (number i of a line) and c check bits that differ between two lines of bytes; check bit j of
word i is bit c i + j behind the data. -/
def wordFlips (w c i x : Nat) : List Nat :=
  (upto (w + c)).filter (fun b => x.testBit (if b < w then w * i + b else 512 + c * i + (b - w)))

/-- The data bits of a line of `512 / w` Hsiao words that are still wrong once it has been read, as a 512-bit number; none where a word's
error is detected. -/
def hsiaoRead (w c x : Nat) : Option Nat :=
  (upto (512 / w)).foldl (fun (acc : Option Nat) i => match acc with
    | none => none
    | some y => (hsiaoLeft (w + c) (wordFlips w c i x)).map (fun l =>
        l.foldl (fun y b => if b < w then y + 2 ^ (w * i + b) else y) y)) (some 0)

/-! ## Code words (12 R274, R275, R291) -/

/-- The code a line is stored under; a remapped line is held under SECDED per 64 bits (12 R291). -/
inductive Code where
  | strong | light | held
  deriving DecidableEq, Repr

/-- The 8 check bytes of a line's code. -/
def checkBytes (c : Code) (data : List Byte) (poison : Bool) : List Byte :=
  match c with
  | .strong =>
    let info := data.map (·.toNat) ++ [if poison then 1 else 0, 0]
    (info.drop 64 ++ rsCheck info).map (BitVec.ofNat 8)
  | .light => leBytes 8 (((upto 4).map (fun i => Config.hsiao 128 (fld data (16 * i) 16) % 512 * 2 ^ (9 * i))).sum +
      if poison then (2 ^ 28 - 1) * 2 ^ 36 else 0)
  | .held => (upto 8).map (fun i => BitVec.ofNat 8 (Config.hsiao 64 (fld data (8 * i) 8)))

/-- The code word of a line: its data, the check bytes, and on DDR5 the CRC-32 of its physical address and of its data. -/
def codeWord (c : Code) (ddr : Bool) (addr : Nat) (data : List Byte) (poison : Bool) : List Byte :=
  data ++ checkBytes c data poison ++ (if ddr then leBytes 4 (crc32 (leBytes 8 addr)) ++ leBytes 4 (crc32 data) else [])

/-- A code word with some of its bytes changed. -/
def flipped (w : List Byte) (flips : List (Nat × Byte)) : List Byte :=
  flips.foldl (fun w f => w.set f.1 (w.getD f.1 0 ^^^ f.2)) w

/-- What a read of a code word gives: the data and the poison bit as read, whether anything was corrected, and whether the word is
beyond its code. -/
structure LineRead where
  data : List Byte
  poison : Bool
  fixed : Bool
  bad : Bool
  deriving DecidableEq, Repr

/-- Two lines of bytes as one number of the bits that differ. -/
def diffBits (a b : List Byte) : Nat := ofLe (List.zipWith (· ^^^ ·) a b)

/-- The poison bit of LIGHT as its 28 copies read, by majority. -/
def poisonMajority (check : Nat) : Bool :=
  let n := ((upto 28).filter (fun k => check.testBit (36 + k))).length
  if n = 14 then Config.poisonTie else decide (14 < n)

/-- The code of a received word, without DDR5's CRCs; w is the word as it was written (12 R275). -/
def codeRead (c : Code) (w r : List Byte) (poison : Bool) : LineRead :=
  let x := diffBits (w.take 72) (r.take 72)
  let words (wd ck : Nat) (p : Bool) : LineRead :=
    match hsiaoRead wd ck x with
    | none => { data := r.take 64, poison := p, fixed := false, bad := true }
    | some y => { data := leBytes 64 (ofLe (w.take 64) ^^^ y), poison := p, fixed := x ≠ y, bad := false }
  match c with
  | .strong =>
    match rsDecode ((r.take 72).map (·.toNat)) with
    | none => { data := r.take 64, poison := poison, fixed := false, bad := true }
    | some y => { data := (y.take 64).map (BitVec.ofNat 8), poison := (y.getD 64 0).testBit 0,
                  fixed := y ≠ (r.take 72).map (·.toNat), bad := false }
  | .light => words 128 9 (poisonMajority (fld r 64 8))
  | .held => words 64 8 poison

/-- A read of a stored line whose code word has changed: the code, then on DDR5 the CRCs of the corrected line (12 R275). -/
def readWord (c : Code) (ddr : Bool) (addr : Nat) (data : List Byte) (poison : Bool) (flips : List (Nat × Byte)) : LineRead :=
  let w := codeWord c ddr addr data poison
  let r := flipped w flips
  let x := codeRead c w r poison
  if ddr && !x.bad && !(fld r 72 4 == crc32 (leBytes 8 addr) && fld r 76 4 == crc32 x.data) then { x with bad := true } else x

end Sys2Proof.Machine
end

