-- ==== Sys2Proof/Machine/Memory.lean ====
section
/-!
DEFINITION. Memory controllers, regions, fills, the mapping and moving of pages (12).
-/

namespace Sys2Proof.Machine

/-! ## Errors in stored data (12 R289 to R292) -/

/-- THRESHOLD as it acts (12 R290). -/
def MemCtl.limit (m : MemCtl) : Nat := max 1 m.threshold

/-- 12 R290: a correctable error counts, fills the bucket and may raise the storm event. -/
def State.correctable (s : State) (k : Nat) : State :=
  let m := s.ctl k
  let storm := m.armed && m.level == m.limit && m.level < 0xFFFF
  let s := s.onCtl k (fun m => { m with ceCount := m.ceCount + 1, level := min (m.level + 1) 0xFFFF, armed := m.armed && !storm })
  if storm then s.devEvent 0x05 .ok 0 k else s

/-- The remap entry that serves an offset. -/
def MemCtl.remapOf (m : MemCtl) (o : Nat) : Option Nat :=
  (m.remap.find? (fun x => x.2.valid && x.2.line == o / 64 * 64)).map (·.1)

/-- The lowest free remap entry. -/
def MemCtl.freeRemap (m : MemCtl) : Option Nat := (upto 8).find? (fun j => !(Tab.get .init m.remap j).valid)

/-- 12 R291: a line whose error persists is remapped, or its page is retired when no entry is free. -/
def State.remapLine (s : State) (k o : Nat) : State :=
  let m := s.ctl k
  if (m.remapOf o).isSome then s else
  let l := o / 64 * 64
  match m.freeRemap with
  | some j => (s.onCtl k (fun m => { m with remap := Tab.put m.remap j { valid := true, line := l } })).devEvent 0x07 .ok j (k + 256 * l)
  | none =>
    let pg := o / 0x200000 * 0x200000
    (s.addDefect 5 3 (k + 256 * pg) (if k < 8 then 0 else m.serial)).devEvent 0x08 .noResource 0 (k + 256 * pg)

/-- A stack's reserved chunk (12 R283). -/
def inReserved (k o : Nat) : Bool := k < 8 && 0xBF8000000 ≤ o

/-- 12 R289: an uncorrectable line is reported; in the reserved chunk its owning flask faults, chosen freely because the manual does not
say which page table a line holds (notes/assumptions/18.md). -/
def State.uncorrectable (s : State) (k o : Nat) : State :=
  let s := (s.onCtl k (fun m => { m with ueCount := m.ueCount + 1 })).devEvent 0x06 .uncorrectable 0 (k + 256 * (o / 64 * 64))
  if inReserved k o then
    match s.choose (s.flasks.map (·.1)) with
    | (some f, s) => s.flaskFault f none
    | (none, s) => s
  else s

/-- The code a line is stored under: that of its region, STRONG outside every valid one (12 R275, R276), or the remap entry's
(12 R291). -/
def MemCtl.codeOf (m : MemCtl) (o : Nat) : Code :=
  if (m.remapOf o).isSome then .held
  else match m.regions.find? (fun x => x.2.valid && x.2.base * 0x200000 ≤ o && o < (x.2.base + x.2.len) * 0x200000) with
    | some x => if x.2.light then .light else .strong
    | none => .strong

/-- What the code word of a line reads as (12 R274, R275). -/
def lineRead (s : State) (k o : Nat) (err : LineErr) : LineRead :=
  let l := ctlBase k + o / 64 * 64
  let c := (s.ctl k).codeOf o
  readWord c (8 ≤ k && c != .held) l (s.devRead l 64) (s.poison.contains l) err.flips

/-- What a controller does with what it finds in a line it reads (12 R289): the line holds what was read, corrected or, beyond its
code, poisoned with the data as read. -/
def State.checkLine (s : State) (k o : Nat) (err : LineErr) : State :=
  if err.flips.isEmpty then s else
  let r := lineRead s k o err
  let s := s.stow (ctlBase k + o / 64 * 64) r.data (r.poison || r.bad)
  if r.bad then s.uncorrectable k o
  else if !r.fixed then s
  else if err.stays then (s.correctable k).remapLine k o
  else s.correctable k

/-- The read of a line for an agent: a line that reads as poisoned is counted, unless it is the read that poisons it (12 R289). -/
def State.readLine (s : State) (k o : Nat) (err : LineErr) : State :=
  let l := ctlBase k + o / 64 * 64
  let bad := !err.flips.isEmpty && (lineRead s k o err).bad
  let s := s.checkLine k o err
  if bad then s else s.countPoison l 64

/-! ## DDR5 rows and ranks (12 R281, R282) -/

/-- The default mask and home bit of output j of a controller (12 R279). -/
def hashDefault (k j : Nat) : W64 :=
  let w (home m : Nat) : W64 := BitVec.ofNat 64 (m + home * 2 ^ 48 + 2 ^ 63)
  if k < 8 then
    if j < 6 then w (8 + j) (2 ^ (8 + j) + 2 ^ (18 + j))
    else if j < 10 then w (8 + j) (2 ^ (8 + j) + 2 ^ (16 + j)) else 0
  else if j < 6 then w (6 + j) (2 ^ (6 + j) + 2 ^ (18 + j) + 2 ^ (26 + j)) else 0

/-- `MC.HASH[j]` of controller k. -/
def hashReg (s : State) (k j : Nat) : W64 := Tab.get (hashDefault k j) (s.ctl k).hash j

/-- Parity of a number's bits. -/
def parity (n : Nat) : Nat := ((upto 48).filter (fun b => n.testBit b)).length % 2

/-- Output j of the hash for an offset (12 R278, R279). -/
def hashBit (s : State) (k o j : Nat) : Nat := parity (o &&& bits (hashReg s k j).toNat 47 0)

/-- Pseudo-channel of an offset of a stack (12 R278). -/
def pseudoChannel (s : State) (k o : Nat) : Nat :=
  match (s.ctl k).regions.find? (fun x => x.2.valid && x.2.hearth && x.2.base * 0x200000 ≤ o &&
      o < (x.2.base + x.2.len) * 0x200000) with
  | some x => (o - x.2.base * 0x200000) / (x.2.len * 0x200000 / 64)
  | none => ((upto 6).map (fun j => hashBit s k o j * 2 ^ j)).sum

/-- Bank of an offset of a stack, hashed or by its hearth slice (12 R278). -/
def stackBank (s : State) (k o : Nat) : Nat :=
  match (s.ctl k).regions.find? (fun x => x.2.valid && x.2.hearth && x.2.base * 0x200000 ≤ o &&
      o < (x.2.base + x.2.len) * 0x200000) with
  | some x =>
    let z := x.2.len * 0x200000 / 64
    bits (x.2.base * 0x200000 / 64 + (o - x.2.base * 0x200000) % z) 11 8
  | none => ((upto 4).map (fun j => hashBit s k o (6 + j) * 2 ^ j)).sum

/-- Local address of an offset within its pseudo-channel (12 R278). -/
def localAddr (s : State) (k o : Nat) : Nat :=
  match (s.ctl k).regions.find? (fun x => x.2.valid && x.2.hearth && x.2.base * 0x200000 ≤ o &&
      o < (x.2.base + x.2.len) * 0x200000) with
  | some x => x.2.base * 0x200000 / 64 + (o - x.2.base * 0x200000) % (x.2.len * 0x200000 / 64)
  | none => 0x200000 * (o >>> 27) + (setBits (bits o 26 14) 3 0 (stackBank s k o)) * 256 + bits o 7 0

/-- Bank of a DDR5 offset: the subchannel, bank group and bank outputs (12 R279). -/
def ddrBank (s : State) (k o : Nat) : Nat := ((upto 6).map (fun j => hashBit s k o j * 2 ^ j)).sum

/-- Rank of a DDR5 offset: the highest bits below the DIMM's capacity (12 R279; notes/assumptions/17.md). -/
def ddrRank (s : State) (k o : Nat) : Nat :=
  let m := s.ctl k
  o / max 1 (m.bytes / max 1 m.nRanks) % 8

/-- Number of the bank that holds a DDR5 offset. -/
def ddrSlotOf (s : State) (k o : Nat) : Nat := 64 * ddrRank s k o + ddrBank s k o

/-- Row of a DDR5 offset (notes/assumptions/17.md). -/
def ddrRow (o : Nat) : Nat := o >>> 19

/-- 12 R281: the predictor of the bank an access finds, and whether its row stays open; `hit`: another request for the row waits. -/
def DBank.access (b : DBank) (mode row : Nat) (hit : Bool) : DBank :=
  let ctr := match b.last with
    | none => b.ctr
    | some r => if r = row then min (b.ctr + 1) 3 else b.ctr - 1
  let stays := if mode = 1 then false else if mode = 2 then true else hit || 2 ≤ ctr
  { row := if stays then some row else none, last := some row, ctr }

/-- A request reaches a DDR5 channel: its rank wakes and its bank is accessed (12 R281, R282). -/
def State.ddrAccess (s : State) (k o : Nat) (hit : Bool) : State :=
  if k < 8 then s else
  let r := ddrRank s k o
  let b := ddrSlotOf s k o
  s.onCtl k (fun m => { m with
    ranks := Tab.put m.ranks r .awake
    banks := Tab.upd .init m.banks b (fun x => x.access (bits m.ddrCtl.toNat 1 0) (ddrRow o) hit) })

/-- Lines of [a, a + n) that the host held as modified leave the snoop filter (17 R404; notes/assumptions/44.md). -/
def State.snoopRange (s : State) (a n : Nat) : State :=
  s.onCxl (fun c => { c with snoop := c.snoop.filter (fun x => !(x.2 && a < x.1 + 64 && x.1 < a + n)) })

/-- A unit of the device reaches the lines of [a, a + n) one after another; the next of them is a queued hit of its row
(12 R281, R282; notes/assumptions/17.md). -/
def State.reach (s : State) (a n : Nat) : State :=
  let s := s.snoopRange a n
  match ctlOf a with
  | none => s
  | some (k, o) => if k < 8 then s else
    let lines := (upto (ceilTo (o % 64 + n) 64 / 64)).map (fun j => o / 64 * 64 + 64 * j)
    (lines.zip (lines.drop 1 ++ [0])).foldl (fun s x =>
      s.ddrAccess k x.1 (x.1 < x.2 && ddrSlotOf s k x.1 == ddrSlotOf s k x.2 && ddrRow x.1 == ddrRow x.2)) s

/-- The same for a flask's range. -/
def State.reachFlask (s : State) (flask va n : Nat) : State :=
  (cuts va n).foldl (fun s c => match (locate s flask c.1).1 with | .dev a => s.reach a c.2 | _ => s) s

/-- Class of a DDR5 request in the order of 12 R281, from 0 for an urgent one to 3. -/
def ddrClass (s : State) (k : Nat) (r : MemReq) : Nat :=
  let m := s.ctl k
  let v := m.ddrCtl.toNat
  if r.tag < bits v 31 16 then 0
  else if bits v 47 32 < r.waited then 1
  else if (Tab.get .init m.banks (ddrSlotOf s k r.offset)).row == some (ddrRow r.offset) then 2 else 3

/-- A controller serves the request of an offset now: on DDR5 no refresh is due and no other request comes first (12 R281); in a stack
its bank is not under refresh (12 R280). -/
def memTurn (s : State) (k o : Nat) (q : MemQueue) : Bool :=
  if k < 8 then
    !(q.refresh && stackBank s k o == ((Tab.get .init (Tab.get .init s.hb k).chans (pseudoChannel s k o)).bank + 15) % 16)
  else
    let mine := ddrClass s k { offset := o, tag := q.tag, waited := q.waited }
    !q.refresh && q.others.all (fun r => mine < ddrClass s k r || (mine == ddrClass s k r && r.waited ≤ q.waited))

/-- Another request for the row of an offset waits. -/
def queuedHit (s : State) (k o : Nat) (q : MemQueue) : Bool :=
  q.others.any (fun r => ddrSlotOf s k r.offset == ddrSlotOf s k o && ddrRow r.offset == ddrRow o)

/-- The snoop filter holds a line that must be invalidated before a device agent's access (17 R404). -/
def snooped (s : State) (l : Nat) (write : Bool) : Bool := s.cxl.snoop.any (fun x => x.1 == l && (write || x.2))

/-- A line's BISnp is out. -/
def biOut (s : State) (l : Nat) : Bool := s.cxl.biHeld.any (fun x => x.1 == l)

/-- A BISnp goes to the host and the access is held (17 R404). -/
def State.holdLine (s : State) (l : Nat) (data : Option (List Byte)) : State :=
  s.onCxl (fun c => { c with snoop := c.snoop.filter (fun x => x.1 != l), biHeld := c.biHeld ++ [(l, data)] })

/-- MEMORY_READ (12 R281, R289): a controller serves a line read in its turn, or holds it for a back-invalidate. -/
def execMemoryRead (ctrl offset : Nat) (err : LineErr) (q : MemQueue) (s : State) : Out :=
  done (
    let l := offset / 64 * 64
    if !ctlUp s ctrl || ctlBytes s ctrl ≤ l then s else
    if biOut s (ctlBase ctrl + l) then s
    else if snooped s (ctlBase ctrl + l) false then s.holdLine (ctlBase ctrl + l) none
    else if !memTurn s ctrl l q then s else
    (s.ddrAccess ctrl l (queuedHit s ctrl l q)).readLine ctrl l err)

/-- MEMORY_WRITE (12 R274, R281): a whole line is stored as one code word, in its turn; anything narrower is refused (01 R27). -/
def execMemoryWrite (ctrl offset : Nat) (data : List Byte) (q : MemQueue) (s : State) : Out :=
  done (
    if !ctlUp s ctrl || ctlBytes s ctrl ≤ offset || offset % 64 ≠ 0 || data.length ≠ 64 then s
    else if biOut s (ctlBase ctrl + offset) then s
    else if snooped s (ctlBase ctrl + offset) true then s.holdLine (ctlBase ctrl + offset) (some data)
    else if !memTurn s ctrl offset q then s
    else (s.ddrAccess ctrl offset (queuedHit s ctrl offset q)).devWrite (ctlBase ctrl + offset) data)

/-- SCRUB_READ (12 R292): the next line in ascending order, wrapping; RUNNING is 0 when INTERVAL is 0. -/
def execScrubRead (ctrl : Nat) (err : LineErr) (s : State) : Out :=
  done (
    let m := s.ctl ctrl
    if !ctlUp s ctrl || m.interval = 0 then s else
    let o := m.scrubPos
    ((s.ddrAccess ctrl o false).checkLine ctrl o err).onCtl ctrl (fun m =>
      if o + 64 < ctlBytes s ctrl then { m with scrubPos := o + 64 }
      else { m with scrubPos := 0, scrubPasses := m.scrubPasses + 1 }))

/-- CE_BUCKET_LEAK (12 R290). -/
def execCeBucketLeak (ctrl : Nat) (s : State) : Out :=
  done (if 20 ≤ ctrl then s else s.onCtl ctrl (fun m =>
    let l := m.level - 1
    { m with level := l, armed := m.armed || (l ≤ m.limit / 2) }))

/-- A DDR5 channel by its number. -/
def ddrThere (s : State) (chan : Nat) : Bool := chan < 12 && ctlUp s (8 + chan)

/-- DDR5_REFRESH (12 R281): a same-bank refresh, which closes the rows of that bank in every bank group (notes/assumptions/17.md). In
self-refresh the DRAM refreshes itself (12 R282). -/
def execDdr5Refresh (chan rank bank : Nat) (s : State) : Out :=
  done (if !ddrThere s chan || 8 ≤ rank then s else s.onCtl (8 + chan) (fun m =>
    if Tab.get .awake m.ranks rank = .selfRefresh then m else { m with
      refreshes := m.refreshes + 1
      banks := m.banks.map (fun x => if x.1 / 64 = rank ∧ x.1 % 64 / 16 = bank % 4 then (x.1, { x.2 with row := none }) else x) }))

/-- DDR5_ROW_IDLE_CLOSE (12 R281). -/
def execDdr5RowIdleClose (chan bank : Nat) (s : State) : Out :=
  done (if !ddrThere s chan then s else
    s.onCtl (8 + chan) (fun m => { m with banks := Tab.mod m.banks bank (fun b => { b with row := none }) }))

/-- DDR5_POWER_DOWN (12 R282): disabled by PD_IDLE 0. -/
def execDdr5PowerDown (chan rank : Nat) (s : State) : Out :=
  done (if !ddrThere s chan || 8 ≤ rank then s else s.onCtl (8 + chan) (fun m =>
    if bits m.ddrPd.toNat 15 0 = 0 || Tab.get .awake m.ranks rank ≠ .awake then m
    else { m with ranks := Tab.put m.ranks rank .powerDown }))

/-- DDR5_SELF_REFRESH (12 R282): disabled by SR_IDLE 0. -/
def execDdr5SelfRefresh (chan rank : Nat) (s : State) : Out :=
  done (if !ddrThere s chan || 8 ≤ rank then s else s.onCtl (8 + chan) (fun m =>
    if bits m.ddrPd.toNat 31 16 = 0 then m else { m with ranks := Tab.put m.ranks rank .selfRefresh }))

/-- DIMM_TEMPERATURE_READ (12 R281): above 85 °C the refresh interval halves. -/
def execDimmTemperatureRead (chan : Nat) (temp : Int) (s : State) : Out :=
  done (if !ddrThere s chan then s else s.onCtl (8 + chan) (fun m => { m with hot := decide (85 < temp) }))

/-! ## COPY (10 R249) -/

/-- A read of either kind of source. -/
def readSide (s : State) (flask a n : Nat) (host : Bool) : Got := if host then .ok (s.hostRead a n) else readFlask s flask a n

/-- A write of either kind of destination. -/
def State.writeSide (s : State) (flask a : Nat) (host : Bool) (bs : List Byte) : Got × State :=
  if host then (.ok [], s.hostWrite a bs) else s.tryWrite flask a bs

/-- The device lines of either kind of range are reached. -/
def State.reachSide (s : State) (flask a n : Nat) (host : Bool) : State := if host then s else s.reachFlask flask a n

/-- A copy waits for a page, unless it already does. -/
def State.copyWaits (s : State) (c : Cmd) (page : Nat) : State :=
  if s.faults.any (fun f => f.who == .copy c.cid) then s else s.pageFault c.flask page (.copy c.cid) (patienceOf s c.flask)

/-! ## Physical pages (12 R283, R284) -/

/-- The device memory a page holds: its place, and the place it is moving to. -/
def Page.holds (p : Page) : List (Nat × Nat) :=
  (match p.st with | .hbm | .ddr | .outDdr => [(p.pa, p.size)] | _ => []) ++
  (match p.move with
    | some m => (match m.dst with | .hbm | .ddr | .outDdr => [(m.pa, p.size)] | _ => [])
    | none => [])

/-- Two ranges meet. -/
def meets (a n b m : Nat) : Bool := a < b + m && b < a + n

/-- Some page of some flask lies in [a, a + n). -/
def heldByPage (s : State) (a n : Nat) : Bool :=
  s.flasks.any (fun f => f.2.pages.any (fun p => p.2.holds.any (fun h => meets a n h.1 h.2)))

/-- Valid regions of controller k that meet offsets [o, o + n). -/
def regionsAt (s : State) (k o n : Nat) : List (Nat × Region) :=
  (s.ctl k).regions.filter (fun x => x.2.valid && meets o n (x.2.base * 0x200000) (x.2.len * 0x200000))

/-- Firmware may place a page of n bytes at offset o of controller k: backed, outside the reserved chunk, owned and hearth
regions, retired pages and every other page (12 R284, R291). -/
def freeFrame (s : State) (k n o : Nat) : Bool :=
  o + n ≤ (if k < 8 then 0xBF8000000 else ctlBytes s k) &&
  !(regionsAt s k o n).any (fun x => x.2.hearth || x.2.owner.isSome) &&
  !(retiredPages s k).any (fun p => meets o n p 0x200000) && !heldByPage s (ctlBase k + o) n

/-- The first free frame at or after index i, wrapping; the fuel is the number of frames. -/
def seekFrame (s : State) (k n count : Nat) : Nat → Nat → Option Nat
  | 0, _ => none
  | fuel + 1, i => if freeFrame s k n (i % count * n) then some (ctlBase k + i % count * n) else seekFrame s k n count fuel (i + 1)

/-- Controllers of a tier that PLACE allows (12 R284). -/
def allowedCtls (s : State) (tier : Tier) (place : Nat) : List Nat :=
  match tier with
  | .hbm => (upto 8).filter (fun k => ctlUp s k && (place == 0xFF || k == place))
  | .ddr => ((upto 12).filter (fun d => ctlUp s (8 + d) && (place == 0xFF || d == place))).map (8 + ·)

/-- The first controller of a list, in order, that has a frame. -/
def seekCtl (s : State) (n i : Nat) : List Nat → Option Nat
  | [] => none
  | k :: t => match seekFrame s k n (ctlBytes s k / n) (ctlBytes s k / n) i with
    | some a => some a
    | none => seekCtl s n i t

/-- Firmware chooses a physical page: any free frame of the allowed controllers (notes/assumptions/4.md). -/
def State.allocPage (s : State) (tier : Tier) (place n : Nat) : Option Nat × State :=
  let (c, s) := s.draw
  let (i, s) := s.draw
  let l := allowedCtls s tier place
  (seekCtl s n i (l.rotateLeft (c % max 1 l.length)), s)

/-- Bytes of a flask that count against its HBM or DDR5 quota (12 R283). -/
def tierUse (f : Flask) (t : Tier) : Nat :=
  (f.pages.map (fun p => match p.2.st, t with
    | .hbm, .hbm => p.2.size
    | .ddr, .ddr => p.2.size
    | .outDdr, .ddr => p.2.size
    | _, _ => 0)).sum

/-- Quota of a tier. -/
def quotaOf (f : Flask) (t : Tier) : Nat := match t with | .hbm => f.hbmQuota | .ddr => f.ddrQuota

/-- Pages of a flask that meet [va, va + n). -/
def pagesIn (f : Flask) (va n : Nat) : List (Nat × Page) := f.pages.filter (fun p => meets va n p.1 p.2.size)

/-- A range is wholly mapped by pages that lie wholly within it. -/
def whollyMapped (f : Flask) (va n : Nat) : Bool :=
  let l := pagesIn f va n
  (l.map (fun p => p.2.size)).sum == n && l.all (fun p => va ≤ p.1 && p.1 + p.2.size ≤ va + n)

/-! ## MEM_MAP (12 R284 to R286) -/

/-- Bytes of PSIZE. -/
def psizeBytes (p : Nat) : Nat := if p = 0 then 0x200000 else 0x10000

/-- A virtual range touches the cluster-window ranges of 12 R496. -/
def touchesWindows (va n : Nat) : Bool :=
  meets va n sramBase (96 * sramWindow) || meets va n bramBase (96 * bramWindow)

/-- [pa, pa + n) lies inside one region that the flask owns (12 R284). -/
def inOwnRegion (s : State) (f pa n : Nat) : Bool :=
  match ctlOf pa with
  | none => false
  | some (k, o) => (s.ctl k).regions.any (fun x => x.2.valid && x.2.owner == some f && x.2.base * 0x200000 ≤ o &&
      o + n ≤ (x.2.base + x.2.len) * 0x200000)

/-- The fields of a KIND 0 or KIND 2 map are as 12 R284 and the first row of R285 ask. -/
def mapForm (s : State) (c : Cmd) (f : Flask) : Bool :=
  let va := c.p 0 8
  let n := c.p 8 8
  let tier := c.p 17 1
  let sz := psizeBytes (c.p 18 1)
  let attr := c.p 19 1
  let out := attr.testBit 1
  let phys := attr.testBit 2
  let place := c.p 20 1
  let pa := c.p 24 8
  let back := c.p 32 8
  let kind := c.p 16 1
  tier ≤ 2 && c.p 18 1 ≤ 1 && attr < 8 && n ≠ 0 && n % sz = 0 && va % sz = 0 && n ≤ 2 ^ 40 && 0x200000 ≤ va && va + n ≤ 2 ^ 48 &&
  c.p 21 1 = 0 && c.p 22 1 = 0 && c.reserved 23 23 && c.reserved 40 47 &&
  (place = 0xFF || (!phys && ((tier = 0 && place < 8) || (tier = 1 && place < 12)))) &&
  !(phys && tier = 2) && !(out && tier = 0) && !touchesWindows va n &&
  (if tier = 2 && !out then pa ≠ 0 && pa % 64 = 0 else if phys then pa % sz = 0 else pa = 0) &&
  (if out && tier = 2 then back ≠ 0 && back % 64 = 0 else back = 0) &&
  (!phys || (inOwnRegion s c.flask pa n && (decide (pa < ddrBase) == decide (tier = 0)))) &&
  (if kind = 0 then (pagesIn f va n).isEmpty else whollyMapped f va n)

/-- Where the pages of a map go. -/
def mapTarget (tier : Nat) (out : Bool) : PageSt :=
  match tier with
  | 0 => .hbm
  | 1 => if out then .outDdr else .ddr
  | _ => if out then .outHost else .host

/-- Tier that a page state's bytes lie in. -/
def PageSt.tier? : PageSt → Option Tier
  | .hbm => some .hbm
  | .ddr | .outDdr => some .ddr
  | _ => none

/-- Place for one page of a map: contiguous from PA or BACK, or chosen by firmware. -/
def State.placeFor (s : State) (c : Cmd) (off n : Nat) : Option Nat × State :=
  let attr := c.p 19 1
  match mapTarget (c.p 17 1) (attr.testBit 1) with
  | .host => (some (c.p 24 8 + off), s)
  | .outHost => (some (c.p 32 8 + off), s)
  | st => if attr.testBit 2 then (some (c.p 24 8 + off), s)
    else s.allocPage ((st.tier?).getD .hbm) (c.p 20 1) n

/-- Quotas after the command hold (12 R285). -/
def mapQuota (c : Cmd) (f : Flask) : Bool :=
  let st := mapTarget (c.p 17 1) ((c.p 19 1).testBit 1)
  let leaving (t : Tier) : Nat := if c.p 16 1 = 2 then
    ((pagesIn f (c.p 0 8) (c.p 8 8)).map (fun p => if p.2.st.tier? = some t then p.2.size else 0)).sum else 0
  let ok (t : Tier) : Bool := tierUse f t - leaving t + (if st.tier? = some t then c.p 8 8 else 0) ≤ quotaOf f t
  ok .hbm && ok .ddr

/-- PLACE names an absent stack or channel (12 R285). -/
def placeAbsent (s : State) (c : Cmd) : Bool :=
  let place := c.p 20 1
  place ≠ 0xFF && !ctlUp s (if c.p 17 1 = 0 then place else 8 + place)

/-- The check of a KIND 0 or KIND 2 map up to the choice of pages (12 R285). -/
def mapCheck (s : State) (c : Cmd) : Stat :=
  if 16 ≤ c.flask then .invalid else
  match s.flask? c.flask with
  | none => .notPresent
  | some f => if !mapForm s c f then .invalid else if placeAbsent s c then .notPresent
    else if !mapQuota c f then .noResource else .ok

/-- Map pages one after another; a page without a place leaves the flask as it was. -/
def State.mapPages (s : State) (c : Cmd) (n : Nat) : List Nat → Option State
  | [] => some s
  | off :: t =>
    match s.placeFor c off n with
    | (none, _) => none
    | (some a, s) =>
      let st := mapTarget (c.p 17 1) ((c.p 19 1).testBit 1)
      let pg : Page := { size := n, st, write := (c.p 19 1).testBit 0, pa := a,
                         home := if st = .ddr then .ddr else .hbm, pins := 0, move := none }
      let s := s.onFlask c.flask (fun f => { f with pages := Tab.put f.pages (c.p 0 8 + off) pg })
      let s := if st = .outDdr then let (bs, s) := s.drawBytes n; s.devWrite a bs else s
      State.mapPages s c n t

/-- MEM_MAP with KIND 0, and any KIND the manual does not assign (12 R284, R285). -/
def execMemMap (cid : Nat) (s : State) : Out :=
  done (s.accepted cid (fun c => c.opcode == 0x06 && c.p 16 1 != 1 && c.p 16 1 != 2) (fun c s =>
    if c.p 16 1 ≠ 0 then s.failCmd cid .invalid else
    match mapCheck s c with
    | .ok =>
      let n := psizeBytes (c.p 18 1)
      match s.mapPages c n ((upto (c.p 8 8 / n)).map (· * n)) with
      | some s => s.finish cid .ok zeros16
      | none => s.failCmd cid .noResource
    | st => s.failCmd cid st))

/-- A page is already where a migration wants it. -/
def Page.arrived (p : Page) (c : Cmd) : Bool :=
  let st := mapTarget (c.p 17 1) ((c.p 19 1).testBit 1)
  p.st = st && p.move.isNone && !(c.p 19 1).testBit 2 && (st = .hbm || st = .ddr || st = .outDdr) &&
  (c.p 20 1 = 0xFF || (match ctlOf p.pa with | some (k, _) => k % 8 = c.p 20 1 ∧ k < 8 ∨ k = 8 + c.p 20 1 | none => false))

/-- Give every page of a migration its new place; none when firmware finds no room. Unpinned pages begin to move at once
(12 R286). -/
def State.planMoves (s : State) (c : Cmd) : List Nat → Option (List Nat × State)
  | [] => some ([], s)
  | va :: t =>
    match (s.flask? c.flask).bind (fun f => Tab.find? f.pages va) with
    | none => State.planMoves s c t
    | some p =>
      if p.arrived c then State.planMoves s c t else
      match s.placeFor c (va - c.p 0 8) p.size with
      | (none, _) => none
      | (some a, s) =>
        let m : PageMove := { dst := mapTarget (c.p 17 1) ((c.p 19 1).testBit 1), pa := a, cid := some c.cid }
        let s := if p.pins = 0 && p.move.isNone then
            s.onFlask c.flask (fun f => { f with pages := Tab.mod f.pages va (fun p => { p with move := some m }) })
          else s
        match State.planMoves s c t with
        | some (l, s) => some (va :: l, s)
        | none => none

/-- Pages of a migration that have still to move: a page that another move has brought where the command wants it has none left. -/
def stillToMove (s : State) (c : Cmd) (l : List Nat) : List Nat :=
  l.filter (fun va => match (s.flask? c.flask).bind (fun f => Tab.find? f.pages va) with
    | some p => !p.arrived c
    | none => false)

/-- MEM_MAP with KIND 2 (12 R286). Run again by its own row, it begins the moves that waited for an unpinned page or for another move of
theirs, and ends when no page is left (notes/assumptions/16.md). -/
def execMemMapMigrate (cid : Nat) (s : State) : Out :=
  done (match findCmd s cid with
    | none => s
    | some c =>
      match c.work with
      | .pending =>
        if !(c.opcode == 0x06 && c.p 16 1 == 2) then s else
        match mapCheck s c with
        | .ok =>
          let vas := match s.flask? c.flask with | some f => (pagesIn f (c.p 0 8) (c.p 8 8)).map (·.1) | none => []
          match s.planMoves c vas with
          | none => s.failCmd cid .noResource
          | some ([], s) => s.finish cid .ok zeros16
          | some (l, s) => s.onCmd cid (fun c => { c with work := .migrate l })
        | st => s.failCmd cid st
      | .migrate l =>
        let l := stillToMove s c l
        if l.isEmpty then s.finish cid .ok zeros16 else
        let s := s.onCmd cid (fun c => { c with work := .migrate l })
        match s.planMoves c (l.filter (fun va => match (s.flask? c.flask).bind (fun f => Tab.find? f.pages va) with
            | some p => p.move.isNone && p.pins == 0
            | none => false)) with
        | some (_, s) => s
        | none => s
      | _ => s)

/-- The bytes of a place. -/
def readPlace (s : State) (st : PageSt) (a n : Nat) : List Byte :=
  match st with
  | .host | .outHost => s.hostRead a n
  | _ => s.devRead a n

/-- Requests that a ladle or a fabric port has translated into [a, a + n) and that are not yet answered. -/
def translated (s : State) (host : Bool) (a n : Nat) : Bool :=
  s.ld.any (fun x => match x.2.cur with
    | some c => !sdLink c.desc && c.reqs.any (fun r => r.host == host && meets a n r.line 64)
    | none => false) ||
  s.fp.any (fun x => x.2.outs.any (fun r => (r.flit.dest == pxUnit 64) == host && r.flit.dest != 0 && meets a n r.flit.addr 64))

/-- Poisoned lines of a page, as offsets, where its place is in the device; from the host, the lines that it returns with poison
(12 R286). -/
def pagePoison (s : State) (p : Page) (bad : List Nat) : List Nat :=
  match p.st with
  | .host | .outHost => (bad.map (fun o => o / 64 * 64)).filter (· < p.size)
  | _ => (s.poisonIn p.pa p.size).map (fun l => l - p.pa)

/-- A page's bytes arrive at their new place: between device places and from the host its lines keep their poison; toward the host
the indication leaves the device (12 R286). -/
def State.carryPage (s : State) (p : Page) (m : PageMove) (bad : List Nat) : State :=
  let bs := readPlace s p.st p.pa p.size
  let bad := pagePoison s p bad
  let s := match p.st with | .host | .outHost => s | _ => s.reach p.pa p.size
  match m.dst with
  | .host | .outHost => s.hostWrite m.pa bs
  | _ => bad.foldl (fun s o => s.poisonLine (m.pa + o)) ((s.reach m.pa p.size).devWrite m.pa bs)

/-- PAGE_MOVE_DONE (12 R286): once no translated request is under way to it, the page's copy ends and it takes its new state; a
migration completes with its last page. -/
def execPageMoveDone (flask va : Nat) (bad : List Nat) (s : State) : Out :=
  done (match (s.flask? flask).bind (fun f => Tab.find? f.pages va) with
    | none => s
    | some p => match p.move with
      | none => s
      | some m =>
        if translated s (p.st == .host) p.pa p.size then s else
        let s := (s.carryPage p m bad).onFlask flask (fun f => { f with pages := Tab.mod f.pages va (fun p => { p with
          st := m.dst, pa := m.pa, move := none
          home := match m.dst with | .hbm => .hbm | .ddr => .ddr | _ => p.home }) })
        match m.cid with
        | none => s
        | some cid =>
          let s := s.onCmd cid (fun c => { c with work := match c.work with | .migrate l => .migrate (l.filter (· != va)) | w => w })
          match findCmd s cid with
          | some c => if c.work = .migrate [] then s.finish cid .ok zeros16 else s
          | none => s)

/-- PAGE_FAULT_SERVICE (12 R286): firmware brings the page of a fault back to its home tier when there is room within the
quota; otherwise the fault goes on waiting. -/
def execPageFaultService (fault : Nat) (s : State) : Out :=
  done (match s.faults.find? (fun f => f.id == fault) with
    | none => s
    | some x =>
      match (s.flask? x.flask).bind (fun f => (Tab.find? f.pages x.va).map (fun p => (f, p))) with
      | none => s
      | some (f, p) =>
        if p.move.isSome || !(p.st = .outDdr || p.st = .outHost) then s
        else if quotaOf f p.home < tierUse f p.home + p.size - (if p.st.tier? = some p.home then p.size else 0) then s
        else match s.allocPage p.home 0xFF p.size with
          | (none, _) => s
          | (some a, s) =>
            let m : PageMove := { dst := match p.home with | .hbm => .hbm | .ddr => .ddr, pa := a, cid := none }
            (s.onFlask x.flask (fun f => { f with pages := Tab.mod f.pages x.va (fun p => { p with move := some m }) })).onFaults
              (fun l => l.map (fun f => if f.id = fault then { f with served := true } else f)))

/-! ## Regions (12 R276, R277) -/

/-- The check of a region definition (12 R277). -/
def regionCheck (s : State) (c : Cmd) : Stat :=
  let a := c.p 0 8
  let n := c.p 8 8
  let hearth := (c.p 19 1).testBit 3
  match ctlOf a with
  | none => .invalid
  | some (k, o) =>
    let cap := if k < 8 then hbmBytes else if ctlUp s k then ctlBytes s k else ddrSlot
    if c.flask ≠ 0xFF || a % 0x200000 ≠ 0 || n % 0x200000 ≠ 0 || n = 0 || cap < o + n || 1 < c.p 21 1 || (hearth && 8 ≤ k) ||
       (hearth && (a % 0x8000000 ≠ 0 || n % 0x8000000 ≠ 0 || c.p 21 1 ≠ 0)) || c.p 17 1 ≠ 0 || c.p 18 1 ≠ 0 ||
       (c.p 19 1 ≠ 0 && c.p 19 1 ≠ 8) || c.p 20 1 ≠ 0xFF || !(c.p 22 1 < 16 || c.p 22 1 = 0xFF) || !c.reserved 23 47 then .invalid
    else if k < 8 && 0xBF8000000 < o + n then .invalid
    else if !(regionsAt s k o n).isEmpty || heldByPage s a n then .busy
    else if ((upto 32).all (fun j => (Tab.get .init (s.ctl k).regions j).valid)) || (retiredPages s k).any (fun p => meets o n p 0x200000) then
      .noResource
    else if !ctlUp s k then .notPresent
    else .ok

/-- MEM_MAP with KIND 1 (12 R277): the lowest free entry takes the definition, and the range fills with zero. -/
def execMemMapRegion (cid : Nat) (s : State) : Out :=
  done (s.accepted cid (fun c => c.opcode == 0x06 && c.p 16 1 == 1) (fun c s =>
    match regionCheck s c, ctlOf (c.p 0 8) with
    | .ok, some (k, o) =>
      match (upto 32).find? (fun j => !(Tab.get .init (s.ctl k).regions j).valid) with
      | some j =>
        let r : Region := { valid := true, light := c.p 21 1 = 1, hearth := (c.p 19 1).testBit 3,
                            owner := if c.p 22 1 = 0xFF then none else some (c.p 22 1), ownerReg := c.p 22 1 % 16, base := o / 0x200000, len := c.p 8 8 / 0x200000 }
        (s.onCtl k (fun m => { m with regions := Tab.put m.regions j r })).onCmd cid (fun c => { c with work := .region k j false })
      | none => s.failCmd cid .noResource
    | st, _ => s.failCmd cid (if st = .ok then .invalid else st)))

/-- MEM_UNMAP with KIND 1 (12 R277, R287): exactly one region, with no page mapped in it. -/
def execMemUnmapRegion (cid : Nat) (s : State) : Out :=
  done (s.accepted cid (fun c => c.opcode == 0x07 && c.p 16 1 == 1) (fun c s =>
    match ctlOf (c.p 0 8) with
    | none => s.failCmd cid .invalid
    | some (k, o) =>
      match (s.ctl k).regions.find? (fun x => x.2.valid && x.2.base * 0x200000 == o && x.2.len * 0x200000 == c.p 8 8) with
      | none => s.failCmd cid .invalid
      | some (j, _) =>
        if c.flask ≠ 0xFF || !c.reserved 17 47 then s.failCmd cid .invalid
        else if heldByPage s (c.p 0 8) (c.p 8 8) then s.failCmd cid .busy
        else s.onCmd cid (fun c => { c with work := .region k j true })))

/-- Zero a range in 64 KiB pieces. -/
def State.zeroDev (s : State) (a n : Nat) : State := (cuts a n).foldl (fun s c => (s.reach c.1 c.2).devFill c.1 c.2 [0]) s

/-- REGION_FILL_DONE (12 R277): the range reads zero under its code, a deleted region's entry clears, and the command
completes. -/
def execRegionFillDone (cid : Nat) (s : State) : Out :=
  done (match findCmd s cid with
    | none => s
    | some c => match c.work with
      | .region k j del =>
        let r := Tab.get .init (s.ctl k).regions j
        let n := r.len * 0x200000
        let s := (s.zeroDev (ctlBase k + r.base * 0x200000) n).onCtl k (fun m => { m with
          fillBytes := m.fillBytes + n, regions := if del then Tab.put m.regions j .init else m.regions })
        s.finish cid .ok zeros16
      | _ => s)

/-! ## MEM_FILL (12 R288) -/

/-- Where a fill writes: a page that is not resident is filled in its backing place (12 R288). -/
def fillPlace (s : State) (flask va : Nat) : Loc × Bool :=
  if flask = 0xFF then (.dev va, true) else
  match locate s flask va with
  | (.out b, w) =>
    (match (s.flask? flask).bind (fun f => Tab.find? f.pages b) with
      | some p => (match p.st with
        | .host | .outHost => .host (p.pa + (va - b))
        | _ => .dev (p.pa + (va - b)))
      | none => .bad, w)
  | x => x

/-- The check of `MEM_FILL` (12 R288, 01 R27). -/
def fillCheck (s : State) (c : Cmd) : Stat :=
  let a := c.p 0 8
  let n := c.p 8 8
  if a % 64 ≠ 0 || n % 64 ≠ 0 || 2 ^ 40 < n || 1 < c.p 24 1 || !c.reserved 25 47 || (c.p 24 1 = 1) ≠ (c.flask = 0xFF) then .invalid
  else if c.flask = 0xFF then rangeCheck s 0xFF a n true
  else (cuts a n).foldl (fun st x =>
    match st with
    | .ok => match fillPlace s c.flask x.1 with
      | (.bad, _) => .invalid
      | (_, false) => .invalid
      | (.dev p, _) => physOutcome s p x.2 true
      | _ => .ok
    | st => st) .ok

/-- MEM_FILL (12 R288). -/
def execMemFill (cid : Nat) (s : State) : Out :=
  done (s.accepted cid (fun c => c.opcode == 0x08) (fun c s =>
    match fillCheck s c with
    | .ok => s.onCmd cid (fun c => { c with work := .fill })
    | st => s.failCmd cid st))

/-- One piece of a fill: the pattern repeated, counted at its controller. -/
def State.fillPiece (s : State) (flask va n : Nat) (pat : List Byte) : State :=
  match (fillPlace s flask va).1 with
  | .dev a =>
    let s := (s.reach a n).devFill a n pat
    match ctlOf a with
    | some (k, _) => s.onCtl k (fun m => { m with fillBytes := m.fillBytes + n })
    | none => s
  | .host a => s.hostWrite a ((upto n).map (fun k => pat.getD (k % 8) 0))
  | _ => s

/-- MEM_FILL_DONE (12 R288): every line of the range holds the pattern and the command completes. -/
def execMemFillDone (cid : Nat) (s : State) : Out :=
  done (match findCmd s cid with
    | none => s
    | some c =>
      if c.work ≠ .fill then s else
      ((cuts (c.p 0 8) (c.p 8 8)).foldl (fun s x => s.fillPiece c.flask x.1 x.2 (slice c.params 16 8)) s).finish cid .ok zeros16)

end Sys2Proof.Machine
end

