-- ==== Sys2Proof/Machine/Routes.lean ====
section
/-!
DEFINITION. The paths of 01 R28 through the tile network (15 R343 to R354, R357, R361, R365 to R367): addresses, routes, token buckets
and probes, and the packets of the device's own agents, which cross the network at once (notes/assumptions/32.md);
with them the pieces of a COPY.
-/

namespace Sys2Proof.Machine

/-! ## Addresses (15 R346, R347) -/

/-- Address of PORT n of cluster router i. -/
def routerPort (i n : Nat) : Nat := i / 24 + (i % 24 / 4) * 8 + i % 4 * 64 + n * 256

/-- PART, ROW, COL, PORT of an address, and UNIT of a PX address. -/
def adPart (d : Nat) : Nat := d % 8
def adRow (d : Nat) : Nat := bits d 5 3
def adCol (d : Nat) : Nat := bits d 7 6
def adPort (d : Nat) : Nat := bits d 12 8
def adUnit (d : Nat) : Nat := bits d 12 3

/-- Endpoint that holds a device address: a channel controller behind its stack router, a DDR5 controller, or the SRAM port of
a cluster (block RAM windows included). -/
def endpointOf (s : State) (a : Nat) : Nat :=
  match ctlOf a with
  | some (k, o) =>
    if 8 ≤ k then pxUnit (16 + (k - 8)) else
    let ch := pseudoChannel s k o / 2
    k / 2 + 6 * 8 + ch / 8 * 64 + (k % 2 * 8 + ch % 8) * 256
  | none => routerPort ((windowOf a).getD 0) 8

/-! ## Routes (15 R351 to R354) -/

/-- Bridge that joins two compute partitions (01 R19). -/
def bridgeOf (p q : Nat) : Option Nat :=
  let l := [(0, 1), (1, 3), (3, 2), (2, 0)]
  ((upto 4).find? (fun i => l[i]? == some (p, q) || l[i]? == some (q, p))).map (4 + ·)

/-- The two sides of a bridge, in the order of 01 R19; PX is 4. -/
def bridgeEnds (b : Nat) : Nat × Nat := if b < 4 then (b, 4) else [(0, 1), (1, 3), (3, 2), (2, 0)].getD (b - 4) (0, 1)

/-- `NT.ROUTE` of partition p. -/
def routeReg (s : State) (p : Nat) : Nat := (s.net.routes.getD p 0).toNat

/-- Output of unit u for a flit that came in by input inp; 4 for an endpoint here, for a route NONE and for a row that is not
exposed, which absorb. -/
def outOf (s : State) (u inp : Nat) (f : Flit) : Nat :=
  let d := f.dest
  if u < 96 then
    let p := u / 24
    if adPart d ≠ p && adPart d = 4 then 2
    else if adCol d ≠ u % 4 && f.vc = 0 then (if u % 4 < adCol d then 1 else 3)
    else if adPart d ≠ p then 2
    else
      let r := u % 24 / 4
      if r < adRow d then (if adRow d < 6 && s.grid.rows.getD p 0 ≤ r + 1 then 4 else 0) else if adRow d < r then 2 else 4
  else if u < 112 then
    let p := (u - 96) / 4
    if adPart d = p then (if adRow d < 6 && s.grid.rows.getD p 0 = 0 then 4 else 0)
    else if adPart d = 4 then (if 2 ≤ bits (routeReg s p) 9 8 then 4 else 5 + p)
    else match bits (routeReg s p) (2 * adPart d + 1) (2 * adPart d) with
      | 0 => (bridgeOf p (adPart d)).elim 4 (5 + ·)
      | 1 => 5 + p
      | _ => 4
  else if u < 128 then (if adPart d = (u - 112) / 4 && adRow d = 6 then 4 else 2)
  else if u < 136 then (if inp = 5 then 6 else 5)
  else if adPart d = 4 then 4 else 5 + adPart d

/-- Link of the hop that a flit takes: SRC mod L, and on a bridge the links of its column (15 R345, R354). -/
def linkOf (u out : Nat) (q : QFlit) : Nat :=
  let src := q.flit.src
  if out = 4 then 0
  else if u < 96 then (if out = 1 || out = 3 then src % 4 else src % 12)
  else if u < 112 then (if out = 0 then src % 12 else src % 4)
  else if u < 128 then src % 12
  else if u < 136 then q.link
  else 4 * adCol q.flit.dest + src % 4

/-- The unit, input and link at the far end of an output. -/
def nextHop (s : State) (u out link : Nat) (f : Flit) : Nat × Nat × Nat :=
  let rows (p : Nat) := s.grid.rows.getD p 0
  if u < 96 then
    let p := u / 24
    let c := u % 4
    let r := u % 24 / 4
    match out with
    | 0 => if r + 1 < rows p then (u + 4, 2, link) else (112 + 4 * p + c, 2, link)
    | 1 => (u + 1, 3, link)
    | 3 => (u - 1, 1, link)
    | _ => if 0 < r then (u - 4, 0, link) else (96 + 4 * p + c, 0, link)
  else if u < 112 then
    let p := (u - 96) / 4
    let c := (u - 96) % 4
    if out = 0 then (if 0 < rows p then (windowIndex p c 0, 2, link) else (112 + 4 * p + c, 2, link))
    else (128 + (out - 5), if (bridgeEnds (out - 5)).1 = p then 5 else 6, 4 * c + link)
  else if u < 128 then
    let p := (u - 112) / 4
    let c := (u - 112) % 4
    if 0 < rows p then (windowIndex p c (rows p - 1), 0, link) else (96 + 4 * p + c, 0, link)
  else if u < 136 then
    let b := u - 128
    let side := if out = 5 then (bridgeEnds b).1 else (bridgeEnds b).2
    if side = 4 then (136, 5 + b, link) else (96 + 4 * side + adCol f.dest, 5 + b, link % 4)
  else (128 + (out - 5), 6, link)

/-! ## Units and token buckets (15 R357) -/

/-- The record of a unit. -/
def State.unit (s : State) (u : Nat) : NetUnit := Tab.get .init s.net.units u

/-- `NT.REG[n][c]` at reset: no limit, BURST 64. -/
def regDefault : W64 := 64 <<< 16

/-- NCLK cycles of 1.4 GHz up to a time in ns. -/
def nclkOf (ns : Nat) : Nat := ns * 7 / 5

/-- RATE of a bucket; none for no limit. -/
def bucketRate (r : W64) : Option Nat := let v := bits r.toNat 15 0; if v = 0 || 256 < v then none else some v

/-- BURST of a bucket as it acts. -/
def bucketBurst (r : W64) : Nat := max 1 (bits r.toNat 31 16)

/-- The buckets of a router gain their tokens up to now. -/
def NetUnit.refill (u : NetUnit) (now : Nat) : NetUnit :=
  let n := nclkOf now - nclkOf u.refilled
  { u with refilled := now
           spent := u.spent.map (fun x => (x.1, x.2 - n * ((bucketRate (Tab.get regDefault u.regs x.1)).getD 0))) }

/-- A bucket holds a token. -/
def NetUnit.hasToken (u : NetUnit) (k : Nat) : Bool :=
  let r := Tab.get regDefault u.regs k
  (bucketRate r).isNone || Tab.get 0 u.spent k + 256 ≤ 256 * bucketBurst r

/-- Spend a token. -/
def NetUnit.spend (u : NetUnit) (k : Nat) : NetUnit :=
  if (bucketRate (Tab.get regDefault u.regs k)).isNone then u else { u with spent := Tab.upd 0 u.spent k (· + 256) }

/-- A cycle in which a flit waits for its token (15 R357). -/
def State.regStall (s : State) (i port cls : Nat) : State :=
  s.onUnit i (fun u => let u := u.refill s.time; if u.hasToken (4 * port + cls) then u else { u with regStall := u.regStall + 1 })

/-! ## Probes (15 R365, R367) -/

/-- A probe's match (15 R367). -/
def probeMatch (ctl : Nat) (f : Flit) : Bool :=
  ctl.testBit f.cls && (!ctl.testBit 4 || f.first) && ((f.dest ^^^ bits ctl 23 8) &&& bits ctl 39 24) == 0 &&
  (ctl.testBit 45 || f.flask == bits ctl 44 40)

/-- The header word of 15 R349. -/
def headerWord (f : Flit) : Nat :=
  f.cls + f.vc * 4 + (if f.first then 8 else 0) + (if f.last then 16 else 0) + f.retry * 32 + (if f.bad then 128 else 0) +
  f.dest * 2 ^ 8 + f.src * 2 ^ 24 + f.tag * 2 ^ 40 + f.flask % 32 * 2 ^ 56 + f.op * 2 ^ 61

/-- A probe counts a flit, and traces it while the trace SRAM is claimed with USE 1 (15 R365). -/
def State.probe (s : State) (u inp out event : Nat) (f : Flit) : State :=
  if 96 ≤ u then s else
  let ctl := (s.unit u).probeCtl.toNat
  if !probeMatch ctl f then s else
  let s := s.onUnit u (fun x => { x with probeHits := x.probeHits + 1 })
  if traceUse s u 1 && ctl.testBit 5 then
    s.traceEntry u (leBytes 8 s.time ++ leBytes 8 (headerWord f) ++ slice f.payload 0 8 ++ leBytes 1 inp ++ leBytes 1 out ++
      leBytes 1 event ++ leBytes 5 0)
  else s

/-- An RSP flit. -/
def rspFlit (dest tag flask op : Nat) (st : Stat) (data : List Byte) : Flit :=
  { cls := 1, vc := 0, first := true, last := true, retry := 0, bad := false, dest, src := st.code, tag, flask, op, addr := 0, payload := data }

/-! ## Packets that cross at once (01 R28, 15 R360, R361)

The packet of an agent other than user logic passes every unit on its path within the row that sends it: each unit counts it, and each
probe sees it. It is lost where a route is NONE, or at an endpoint that is out of service. -/

/-- The unit whose router serves an endpoint. -/
def homeOf (d : Nat) : Nat :=
  if adPart d = 4 then 136 else if adRow d = 6 then 112 + 4 * adPart d + adCol d else windowIndex (adPart d) (adCol d) (adRow d)

/-- A one-flit packet. -/
def packet (cls op src dest tag flask addr : Nat) (data : List Byte) : Flit :=
  { cls, vc := 0, first := true, last := true, retry := 0, bad := false, dest, src, tag, flask, op, addr, payload := data }

/-- A packet at input inp of unit u goes on to its endpoint, which is in service or not (`up`); the answer says whether the endpoint took
it. The fuel bounds the units of a path. -/
def State.carry (up : Bool) : Nat → Nat → Nat → Flit → State → State × Bool
  | 0, _, _, _, s => (s, false)
  | n + 1, u, inp, f, s =>
    let out := outOf s u inp f
    let s := s.onUnit u (fun x => { x with flits := Tab.upd 0 x.flits f.cls (· + 1) })
    if out = 4 then
      if up && u = homeOf f.dest then (s.probe u inp 4 0 f, true)
      else ((s.onUnit u (fun x => { x with absorbed := x.absorbed + 1 })).probe u inp 4 4 f, false)
    else
      let (v, i, _) := nextHop s u out 0 f
      State.carry up n v i (if 128 ≤ u && u < 136 then { f with vc := 1 } else f) (s.probe u inp out 0 f)

/-- The endpoint `src` sends a packet. -/
def State.sends (s : State) (src : Nat) (f : Flit) (up : Bool) : State × Bool :=
  let u := homeOf src
  let s := if u < 96 then s.onUnit u (fun x => (x.refill s.time).spend (4 * adPort src + f.cls)) else s
  s.carry up 64 u 4 f

/-- A CTRL packet of the graph engine; what it holds, and its tag, are free. -/
def State.ctrl (s : State) (dest flask : Nat) (up : Bool) : State × Bool :=
  let (b, s) := s.drawBytes 10
  s.sends (pxUnit 1) (packet 3 0 (pxUnit 1) dest (fld b 8 2) flask 0 (b.take 8)) up

/-- The command port of stack k (15 R347). -/
def stackCommand (k : Nat) : Nat := k / 2 + 6 * 8 + (16 + k % 2) * 256

/-- The controller port of pseudo-channel j of stack k (15 R345, R347). -/
def stackPort (k j : Nat) : Nat := k / 2 + 6 * 8 + j / 16 * 64 + (k % 2 * 8 + j / 2 % 8) * 256

/-- A line that an agent reads or writes: its device or host address, and what it writes. -/
structure Trip where
  addr : Nat
  host : Bool
  write : Bool
  data : List Byte
  deriving DecidableEq, Repr

/-- The endpoint of a line. -/
def Trip.dest (t : Trip) (s : State) : Nat := if t.host then pxUnit 64 else endpointOf s t.addr

/-- The request of a line, sent `retry` times before. -/
def Trip.flit (t : Trip) (s : State) (src flask tag retry : Nat) : Flit :=
  { packet (if t.write then 2 else 0) 0 src (t.dest s) tag flask t.addr (if t.write then t.data else []) with retry }

/-- The response to it. -/
def Trip.answer (t : Trip) (s : State) (src flask tag : Nat) : Flit :=
  packet 1 (if t.write then 1 else 0) Stat.ok.code src tag flask 0 (if t.write then [] else s.devRead t.addr 64)

/-- A line's request goes out and its response returns; a response that is lost is asked for again, up to three times (15 R360). -/
def State.tripTry (src flask tag : Nat) (t : Trip) : Nat → State → State × Stat
  | 0, s => (s, .uncorrectable)
  | n + 1, s =>
    match s.sends src (t.flit s src flask tag (3 - n)) true with
    | (s, false) => (s, .notPresent)
    | (s, true) => match s.sends (t.dest s) (t.answer s src flask tag) true with
      | (s, true) => (s, .ok)
      | (s, false) => State.tripTry src flask tag t n s

/-- The agent at `src` reads or writes a line. -/
def State.lineTrip (s : State) (src flask : Nat) (t : Trip) : State × Stat :=
  let (v, s) := s.draw
  State.tripTry src flask (v % 65536) t 4 s

/-- An agent's lines, in order, up to one that fails. -/
def State.lineTrips (s : State) (src flask : Nat) (l : List Trip) : State × Stat :=
  l.foldl (fun acc t => if acc.2 ≠ .ok then acc else acc.1.lineTrip src flask t) (s, .ok)

/-- Lines of a range of n bytes at a host address, or at an address of a flask: those that lie in the device or with the host. -/
def tripsOf (s : State) (flask a n : Nat) (host write : Bool) (bs : List Byte) : List Trip :=
  (upto (ceilDiv (a % 64 + n) 64)).filterMap (fun k =>
    let l := a / 64 * 64 + 64 * k
    let data := slice bs (l - a) 64
    if host then some { addr := l, host := true, write, data } else
    match (locate s flask l).1 with
    | .dev d => some { addr := d, host := false, write, data }
    | .host h => some { addr := h, host := true, write, data }
    | _ => none)

/-- FLASK of a flit: 0x1F for device traffic (15 R349). -/
def flitFlask (f : Nat) : Nat := if f < 16 then f else 31

/-! ## COPY (10 R249) -/

/-- COPY_PIECE_DONE (10 R249): the next 64 KiB piece in ascending order; the copy completes with its last piece. Its lines
cross the network from the copy engines (01 R28, 15 R360); `bad` says that the host answers one of them with an error (17 R407). -/
def execCopyPieceDone (cid : Nat) (bad : Bool) (s : State) : Out :=
  done (match findCmd s cid with
    | none => s
    | some c => match c.work with
      | .copy k =>
        if s.faults.any (fun f => f.who == .copy cid) then s else
        let n := min 0x10000 (c.p 16 8 - k)
        if bad && bits (c.p 24 1) 1 0 ≠ 0 then (s.undefineCopy c k).finish cid .uncorrectable (leBytes 8 k) else
        let s := s.reachSide c.flask (c.p 0 8 + k) n (bits (c.p 24 1) 0 0 = 1)
        match readSide s c.flask (c.p 0 8 + k) n (bits (c.p 24 1) 0 0 = 1) with
        | .wait p => s.copyWaits c p
        | .fail st => ((s.blame c.flask (c.p 0 8 + k) n st).undefineCopy c k).finish cid st (leBytes 8 k)
        | .ok bs => match s.writeSide c.flask (c.p 8 8 + k) (bits (c.p 24 1) 1 1 = 1) bs with
          | (.wait p, _) => s.copyWaits c p
          | (.fail st, _) => (s.undefineCopy c k).finish cid st (leBytes 8 k)
          | (.ok _, s) =>
            let s := s.reachSide c.flask (c.p 8 8 + k) n (bits (c.p 24 1) 1 1 = 1)
            let (s, st) := s.lineTrips (pxUnit 9) (flitFlask c.flask) (tripsOf s c.flask (c.p 0 8 + k) n (bits (c.p 24 1) 0 0 = 1) false [] ++
              tripsOf s c.flask (c.p 8 8 + k) n (bits (c.p 24 1) 1 1 = 1) true bs)
            if st ≠ .ok then (s.undefineCopy c k).finish cid st (leBytes 8 k)
            else if k + n = c.p 16 8 then s.finish cid .ok (leBytes 8 (k + n))
            else s.onCmd cid (fun c => { c with work := .copy (k + n) })
      | _ => s)

end Sys2Proof.Machine
end

