-- ==== Sys2Proof/Machine/Ladle.lean ====
section
/-!
DEFINITION. Ladles and streams (07): rings, arming, requests and responses, partners, completion and failure.
-/

namespace Sys2Proof.Machine

/-! ## Rings -/

/-- Start of a stream's data ring in device memory: the data ring comes first (07 R169). -/
def ringBase (x : Nat) (d : List Byte) : Nat := sramBase + (x / 32) * sramWindow + sdTunOff d

/-- Positions [pos, pos + n) of a ring of z bytes at base, cut where it wraps. -/
def ringParts (base z pos n : Nat) : List (Nat × Nat) :=
  if z = 0 || n = 0 then [] else
  (slotParts 0 z pos n).map (fun y => (base + y.2.1, y.2.2 - y.2.1))

/-- Ring and ring size of the data bytes or the scale bytes of a stream. -/
def ringOf (x : Nat) (d : List Byte) (scale : Bool) : Nat × Nat :=
  if scale then (ringBase x d + sdTunLen d, sdSclLen d) else (ringBase x d, sdTunLen d)

/-- First position of a ring: START for data, START ÷ BB for scale bytes (07 R165). -/
def startOf (d : List Byte) (scale : Bool) : Nat :=
  if scale then sdStart d / blockBytes (sdFmt d) else sdStart d

/-- Bytes of the ring at stream positions [pos, pos + n). -/
def ringRead (s : State) (x : Nat) (d : List Byte) (scale : Bool) (pos n : Nat) : List Byte :=
  let (b, z) := ringOf x d scale
  (ringParts b z (pos - startOf d scale) n).flatMap (fun y => s.devRead y.1 y.2)

/-- Bytes into the ring at stream position pos. -/
def State.ringWrite (s : State) (x : Nat) (d : List Byte) (scale : Bool) (pos : Nat) (bs : List Byte) : State :=
  let (b, z) := ringOf x d scale
  ((ringParts b z (pos - startOf d scale) bs.length).foldl (fun (acc : State × Nat) y =>
    (acc.1.devWrite y.1 (slice bs acc.2 y.2), acc.2 + y.2)) (s, 0)).1

/-- Scale bytes a stream carries in all: S ÷ BB with SCALES (07 R170). -/
def Stream.scaleTotal (c : Stream) : Nat := if sdScales c.desc then c.prog.size / blockBytes (sdFmt c.desc) else 0

/-- Positions below which every data byte of an input stream has arrived. -/
def Stream.arrived (c : Stream) (scale : Bool) : Nat :=
  ((c.reqs.filter (fun r => r.scale == scale)).map (·.pos)).foldl min (if scale then c.issuedS else c.issued)

/-- Data bytes an input stream holds for its partner. -/
def Stream.avail (c : Stream) : Nat := c.arrived false - c.freed

/-- Scale bytes an input stream holds for its partner. -/
def Stream.availS (c : Stream) : Nat := c.arrived true - c.freedS

/-- Free data bytes of an output stream's ring. -/
def Stream.room (c : Stream) : Nat := sdTunLen c.desc - (c.made - c.freed)

/-- Free scale bytes of an output stream's ring. -/
def Stream.roomS (c : Stream) : Nat := sdSclLen c.desc - (c.madeS - c.freedS)

/-- The 16-byte result of a STREAM node (07 R170). -/
def Stream.result (c : Stream) : List Byte :=
  leBytes 8 c.bytes ++ leBytes 4 (min c.pads 0xFFFFFFFF) ++ leBytes 2 (min c.rtMiss 0xFFFF) ++ leBytes 1 (min c.faults 255) ++
  leBytes 1 (if c.early then 1 else 0)

/-- Change the current stream of context x. -/
def State.onStream (s : State) (x : Nat) (f : Stream → Stream) : State := s.onCtx x (fun c => { c with cur := c.cur.map f })

/-- Change the counters of context x. -/
def State.onLdCnt (s : State) (x : Nat) (f : LdCounters → LdCounters) : State := s.onCtx x (fun c => { c with cnt := f c.cnt })

/-- The current stream of context x, when it is for a partner: heat k, node n. -/
def streamFor (s : State) (x k n : Nat) : Option Stream :=
  match (s.ctx x).cur with
  | some c => if c.heat = k && streamPartner c.desc = n then some c else none
  | none => none

/-! ## Ending a stream (07 R170, R181, R182) -/

/-- The context goes on: IDLE, or FILLING with the held stream, whose node is then armed. -/
def State.ctxNext (s : State) (x : Nat) : State := (s.onCtx x Ctx.next).armed x

/-- A stream ends with a status; its STREAM node ends with its result. -/
def State.endStream (s : State) (x : Nat) (st : Stat) : State :=
  match (s.ctx x).cur with
  | none => s
  | some c =>
    (((s.unpause x).endNode c.heat c.node st (fun n => { n with result := c.result })).dropFaults (fun f => f.who == .stream x)).ctxNext x

/-- Lines that a failing output stream has sent and that are not acknowledged: written when its patience expires, since requests
issued before a fault complete (07 R180), and undefined otherwise (07 R182). -/
def State.landWrites (s : State) (c : Stream) (written : Bool) : State :=
  if !sdOut c.desc || sdLink c.desc then s else
  c.reqs.foldl (fun s r =>
    let (bs, s) := if written then (r.data, s) else s.drawBytes 64
    if r.host then s.hostWrite r.line bs
    else if physOutcome s r.line 64 true = .ok then s.devWrite r.line bs else s) s

/-- A stream fails and its partner fails the same way (07 R181, R182). A stream of the same heat held in the shadow is discarded;
one of another heat takes effect. -/
def State.failStream (s : State) (x : Nat) (st : Stat) : State :=
  match (s.ctx x).cur with
  | none => s
  | some c =>
    let s := s.landWrites c (st == .pageTimeout)
    let s := s.onCtx x (fun k => { k with shadow := match k.shadow with | some h => if h.heat = c.heat then none else some h | none => none })
    (s.endStream x st).failNode c.heat (streamPartner c.desc) st

/-- The partner (k, n) of the stream in context x reads or writes beyond byte S − 1: the stream completes with `ST_OK` and
the partner then fails with `ST_INVALID`. A field that names no stream of the node in that direction fails it at once (07 R170). -/
def State.beyond (s : State) (x k n : Nat) (out : Bool) : State :=
  match streamFor s x k n with
  | some c => if sdOut c.desc = out then s.onStream x (fun c => { c with fate := some .invalid }) else s.failNode k n .invalid
  | none => s.failNode k n .invalid

/-- Node (k, n) has gone beyond a stream's last byte and does no more. -/
def overran (s : State) (k n : Nat) : Bool :=
  s.ld.any (fun y => match streamFor s y.1 k n with | some c => c.fate.isSome | none => false)

/-- Everything an output stream was given is written. -/
def Stream.drained (c : Stream) : Bool := c.reqs.isEmpty && c.freed == c.made && c.freedS == c.madeS

/-- A stream is finished: an input has released its last byte, an output's last write is acknowledged, or the partner has
ended before; a stream whose partner has gone beyond its last byte ends with its bytes moved (07 R170). -/
def Stream.finished (c : Stream) : Bool :=
  if sdOut c.desc then c.drained && (c.made == c.prog.size || c.early || c.fate.isSome)
  else (c.freed == c.prog.size && c.freedS == c.scaleTotal) || c.early ||
    (c.fate.isSome && c.arrived false == c.prog.size && c.arrived true == c.scaleTotal)

/-- Contexts whose stream has node (k, n) as its partner. -/
def streamsOf (s : State) (k n : Nat) : List Nat := s.ld.filterMap (fun y => if (streamFor s y.1 k n).isSome then some y.1 else none)

/-- Node (k, n) ends normally: its output streams flush what they hold (07 R170). -/
def State.flushOutputs (s : State) (k n : Nat) : State :=
  (streamsOf s k n).foldl (fun s x =>
    s.onStream x (fun c => { c with early := c.early || (sdOut c.desc && c.made != c.prog.size) })) s

/-- Every output stream of node (k, n) has had its last write acknowledged (07 R170). -/
def outputsDone (s : State) (k n : Nat) : Bool :=
  s.ld.all (fun y => match streamFor s y.1 k n with | some c => !sdOut c.desc || c.finished | none => true)

/-- The partner has ended: its streams complete (07 R170). -/
def State.closeStreams (s : State) (k n : Nat) : State :=
  (streamsOf s k n).foldl (fun s x =>
    (s.onStream x (fun c => { c with early := c.early || !c.finished })).endStream x .ok) s

/-- The stream in context x completes with `ST_OK`; with a fate, the partner's other finished streams complete as well and
the partner fails (07 R170). -/
def State.completeStream (s : State) (x : Nat) : State :=
  match (s.ctx x).cur with
  | none => s
  | some c =>
    let k := c.heat
    let n := streamPartner c.desc
    let s := s.endStream x .ok
    match c.fate with
    | none => s
    | some st =>
      ((streamsOf s k n).foldl (fun (s : State) y => match (s.ctx y).cur with
        | some c => if c.finished then s.endStream y .ok else s
        | none => s) s).failNode k n st

/-- A node is replayable: no stream that was armed for it is coupled to another node's live stream, finished ones among them
(04 R100). A node with a resident weight block has no W stream and its bank records stand (04 R101), and a vector node may load or
store cluster SRAM without a stream: neither keeps a node from being replayed (DESIGN CHOICE, notes/assumptions/109.md). -/
def replayable (streams : List Stream) : Bool := streams.all (fun c => !sdLink c.desc)

/-- Contexts whose stream has node (k, n) as its partner, with the streams, as a node finds them at its start. -/
def streamsAt (s : State) (k n : Nat) : List Stream := (streamsOf s k n).filterMap (fun x => (s.ctx x).cur)

/-- A stream waits for the stale check of its partner, which may re-run it (04 R101, 07 R173). -/
def heldForRerun (s : State) (c : Stream) : Bool :=
  let n := streamPartner c.desc
  s.mt.any (fun x => match x.2.run with
    | some r => r.heat == c.heat && r.node == n && !r.rerun && fld r.desc 26 1 == 1 && replayable r.streams
    | none => false) ||
  s.vt.any (fun x => (x.2.run.toList ++ x.2.susp).any (fun r => r.heat == c.heat && r.node == n && !r.rerun && !r.restored &&
    r.stalePol == 1 && replayable r.streams))

/-- A node reads memory that it writes: its re-run leaves its outputs undefined (04 R100). -/
def selfRead (streams : List Stream) : Bool :=
  streams.any (fun o => o.whole.any (fun w => streams.any (fun i => i.source.any (fun r => meets w.1 w.2 r.1 r.2))))

/-! ## Arming (07 R167 to R172) -/

/-- The tundish of a stream: its range in cluster SRAM. -/
def tundish (d : List Byte) : Nat × Nat := (sdTunOff d, sdTunLen d + sdSclLen d)

/-- The check of 07 R169 for a stream of context x. -/
def tundishOk (s : State) (x : Nat) (d : List Byte) : Bool :=
  let (a, n) := tundish d
  a + n ≤ sramBytes &&
  (!sdScales d || 64 * ((sdTunLen d / blockBytes (sdFmt d) + 63) / 64) ≤ sdSclLen d) &&
  !s.ld.any (fun y => y.1 / 32 == x / 32 && y.1 != x &&
    ((match y.2.cur with | some c => meets a n (tundish c.desc).1 (tundish c.desc).2 | none => false) ||
     (match y.2.shadow with | some c => meets a n (tundish c.desc).1 (tundish c.desc).2 | none => false)))

/-- A stream at its armed start position. -/
def freshStream (heat node : Nat) (d : List Byte) (p : SProg) : Stream :=
  let st := sdStart d
  let sc := if sdScales d then startOf d true else 0
  { heat, node, desc := d, prog := p, issued := st, issuedS := sc, freed := st, freedS := sc, made := st, madeS := sc,
    line := none, lineS := none, reqs := [], touched := false, await := none, bytes := 0, pads := 0, rtMiss := 0, faults := 0, early := false,
    fate := none }

/-- 04 R101, 07 R173: the contexts of a node's streams are re-armed at their start position; a held stream stays held. -/
def State.rearm (s : State) (k n : Nat) : State :=
  s.onLd (fun t => t.map (fun y => (y.1, match y.2.cur with
    | some c => if c.heat = k && streamPartner c.desc = n then
        { y.2 with cur := some (freshStream c.heat c.node c.desc c.prog), st := .filling } else y.2
    | none => y.2)))

/-- Take an entry away from a cluster controller's queue. -/
def State.unqueue (s : State) (cluster k n : Nat) : State :=
  s.onGraph (fun g => { g with kq := Tab.mod g.kq cluster (fun l => l.filter (fun e => !(e.heat == k && e.node == n))) })

/-- A read of flask memory for node (k, n) waits (09 R495). -/
def readWaits (s : State) (k n : Nat) : Bool := s.faults.any (fun f => f.who.ofNode == some (k, n))

/-- The first entry of a kind in a cluster controller's queue (09 R208: in the order sent within each kind). An entry whose read
waits holds nothing else (09 R495). -/
def firstOfKind (s : State) (cluster cls : Nat) : Option KEntry :=
  (Tab.get [] s.graph.kq cluster).find? (fun e => e.cls == cls && !readWaits s e.heat e.node)

/-- Unit state of a ladle (tile 6) or a cluster controller (tile 7) (18 R439). -/
def lkState (s : State) (cluster : Nat) (k : Bool) : UnitSt := Tab.get .ok s.lk (2 * cluster + if k then 1 else 0)

/-- A ladle or a whole cluster is out of service. -/
def ladleDown (s : State) (cluster : Nat) : Bool := !clusterUp s cluster || lkState s cluster false ≠ .ok

/-- PATIENCE of a STREAM node, or its flask's default (07 R168). -/
def streamPatience (s : State) (flask : Nat) (d : List Byte) : Nat := if fld d 20 4 = 0 then patienceOf s flask else fld d 20 4

/-- The checks of 07 R167 that need the program, reserved bits first (00 R9) and the format where it no longer enters. -/
def programCheck (d : List Byte) (b : List Byte) : Except Stat SProg :=
  match parseProg b (fld d 3 1) with
  | none => .error .invalid
  | some p =>
    if !streamForm d p then .error .invalid else
    match streamFmtCheck d with
    | .ok => if streamUnits d p then .ok p else .error .invalid
    | st => .error st

/-- A STREAM node has reached its context: its descriptor, the program read, the checks of R167, R169 and R171, then the shadow
test (07 R172). -/
def State.armStream (s : State) (cluster : Nat) (e : KEntry) : State :=
  let d := e.desc
  let flask := flaskOfKey e.heat
  let x := ctxKey cluster (sdCtx d)
  let refuse (st : Stat) := (s.unqueue cluster e.heat e.node).endNode e.heat e.node st id
  if !streamHead d then refuse .invalid
  else if ladleDown s cluster then refuse .notPresent
  else match readFlask s flask (fld d 64 8) (16 * fld d 3 1) with
    | .wait p => s.pageFault flask p (.program cluster e.heat e.node) (streamPatience s flask d)
    | .fail st => (refuse st).blame flask (fld d 64 8) (16 * fld d 3 1) st
    | .ok b =>
      match programCheck d b with
      | .error st => refuse st
      | .ok p =>
        let fresh := freshStream e.heat e.node d p
        let c := s.ctx x
        if !tundishOk s x d then refuse .invalid
        else if c.st = .idle then
          if !linkOk s x fresh then refuse .invalid else
          (((s.unqueue cluster e.heat e.node).onCtx x (fun c => { c with st := .filling, cur := some fresh })).armed x).progress e.heat
        else if c.shadow.isNone then
          (s.unqueue cluster e.heat e.node).onCtx x (fun c => { c with shadow := some fresh })
        else refuse .busy

/-- STREAM_ARM. -/
def execStreamArm (cluster : Nat) (s : State) : Out :=
  done (match firstOfKind s cluster 3 with
    | some e => s.armStream cluster e
    | none => s)

/-! ## Requests (07 R161, R165, R166, R174) -/

/-- One step of an input stream: a padding piece, or one line of a valid run. -/
inductive NextIn where
  | none
  | pad (n : Nat)
  | line (addr n : Nat)
  | bad
  deriving DecidableEq, Repr

/-- Address of a piece against BASE0, for data, or for scale bytes at BASE1 + (a − BASE0) ÷ BB (07 R165). -/
def pieceOf (c : Stream) (scale : Bool) (pos : Nat) : Int × Bool × Nat :=
  if scale then
    let bb := blockBytes (sdFmt c.desc)
    let (a, v, n) := c.prog.pieceAt (pos * bb)
    (sdBase1 c.desc + a / bb, v, n / bb)
  else
    let (a, v, n) := c.prog.pieceAt pos
    (sdBase0 c.desc + a, v, n)

/-- An address lies outside 0 to 2^48 − 1 (07 R167). -/
def outside (a : Int) : Bool := a < 0 || 2 ^ 48 ≤ a

/-- A scale byte's data block has been issued: scale requests follow their data (07 R174). -/
def Stream.dataGone (c : Stream) (scale : Bool) (pos : Nat) : Bool := !scale || pos * blockBytes (sdFmt c.desc) < c.issued

/-- What an input stream moves next into one of its rings. -/
def nextIn (c : Stream) (scale : Bool) : NextIn :=
  let pos := if scale then c.issuedS else c.issued
  let total := if scale then c.scaleTotal else c.prog.size
  let room := (if scale then sdSclLen c.desc else sdTunLen c.desc) - (pos - if scale then c.freedS else c.freed)
  if sdLink c.desc || sdOut c.desc || total ≤ pos || room < 64 || !c.dataGone scale pos then .none else
  let (a, v, n) := pieceOf c scale pos
  if !v then .pad (min n room)
  else if outside a then .bad
  else .line a.toNat (min n (64 - a.toNat % 64))

/-- The open line of an output stream's data or scale bytes. -/
def Stream.openLine (c : Stream) (scale : Bool) : Option OLine := if scale then c.lineS else c.line

/-- Set it. -/
def Stream.setLine (c : Stream) (scale : Bool) (l : Option OLine) : Stream := if scale then { c with lineS := l } else { c with line := l }

/-- Move a stream's issue position past n bytes. -/
def Stream.advance (c : Stream) (scale : Bool) (n : Nat) : Stream :=
  if scale then { c with issuedS := c.issuedS + n } else { c with issued := c.issued + n }

/-- Free n bytes of a ring. -/
def Stream.free (c : Stream) (scale : Bool) (n : Nat) : Stream :=
  if scale then { c with freedS := c.freedS + n } else { c with freed := c.freed + n }

/-- A padding run begins at a data position, or the stream's START lies in it (07 R165, R170). -/
def Stream.padBegins (c : Stream) (scale : Bool) (pos : Nat) : Nat :=
  if !scale && (pos % c.prog.run = 0 || pos = sdStart c.desc) then 1 else 0

/-- Bytes into a line at an offset. -/
def OLine.take (l : OLine) (off : Nat) (bs : List Byte) : OLine :=
  { l with bytes := bs.zipIdx.foldl (fun t y => Tab.put t (off + y.2) y.1) l.bytes, taken := l.taken + bs.length }

/-- The ladle collects what an output stream's ring holds: bytes of padding runs are dropped, and freed, at once; bytes of valid
runs enter the open line until it is full or the next valid byte lies in another line (07 R165, R166). The answer is the stream
and the padding bytes dropped; the fuel is the number of bytes in the ring. -/
def gather (s : State) (x : Nat) (scale : Bool) : Nat → Stream × Nat → Stream × Nat
  | 0, acc => acc
  | fuel + 1, (c, pads) =>
    let pos := if scale then c.issuedS else c.issued
    let made := if scale then c.madeS else c.made
    if made ≤ pos then (c, pads) else
    let (a, v, n) := pieceOf c scale pos
    let k := min n (made - pos)
    if !v then
      gather s x scale fuel ({ (c.advance scale k).free scale k with pads := c.pads + c.padBegins scale pos }, pads + k)
    else if outside a then (c, pads)
    else
      let o : OLine := (c.openLine scale).getD { line := a.toNat / 64 * 64, bytes := [], taken := 0 }
      if o.line ≠ a.toNat / 64 * 64 || o.bytes.length = 64 then (c, pads)
      else
        let k := min k (64 - a.toNat % 64)
        gather s x scale fuel
          ((c.setLine scale (some (o.take (a.toNat % 64) (ringRead s x c.desc scale pos k)))).advance scale k, pads)

/-- Collect the data or the scale bytes of the stream in context x. -/
def State.collect1 (s : State) (x : Nat) (scale : Bool) : State :=
  match (s.ctx x).cur with
  | none => s
  | some c =>
    if !sdOut c.desc || sdLink c.desc then s else
    let (c', pads) := gather s x scale (if scale then c.madeS - c.issuedS else c.made - c.issued) (c, 0)
    (s.onStream x (fun _ => c')).onLdCnt x (fun k => { k with padBytes := k.padBytes + pads })

/-- Collect both. -/
def State.collect (s : State) (x : Nat) : State := (s.collect1 x false).collect1 x true

/-- The open line is due: it is complete, the next valid byte lies in another line, or the stream ends (07 R166). -/
def lineDue (c : Stream) (scale : Bool) : Bool :=
  match c.openLine scale with
  | none => false
  | some o =>
    let pos := if scale then c.issuedS else c.issued
    let total := if scale then c.scaleTotal else c.prog.size
    let made := if scale then c.madeS else c.made
    let (a, v, _) := pieceOf c scale pos
    o.bytes.length = 64 || total ≤ pos || (v && (outside a || a.toNat / 64 * 64 ≠ o.line)) ||
    (made ≤ pos && (c.early || c.fate.isSome))

/-- What an output stream does next with its ring: write its line, or end on a run outside the address space (07 R167). -/
inductive NextOut where
  | none
  | line (o : OLine)
  | bad
  deriving DecidableEq, Repr

/-- The next request of an output stream. -/
def nextOut (c : Stream) (scale : Bool) : NextOut :=
  if !sdOut c.desc || sdLink c.desc then .none else
  match c.openLine scale with
  | some o => if lineDue c scale then .line o else .none
  | none =>
    let pos := if scale then c.issuedS else c.issued
    let made := if scale then c.madeS else c.made
    let (a, v, _) := pieceOf c scale pos
    if pos < made && v && outside a then .bad else .none

/-- The context of the stream's linked peer, when the pair stands (07 R171). -/
def mateOf (s : State) (x : Nat) (c : Stream) : Option (Nat × Stream) :=
  match (s.ctx (peerOf c.desc)).cur with
  | some o => if linkPair x c (peerOf c.desc) o then some (peerOf c.desc, o) else none
  | none => none

/-- What an output stream with LINK sends next: up to one line, against the peer's free ring space in whole lines
(07 R171). -/
def nextLink (s : State) (x : Nat) (c : Stream) (scale : Bool) : Nat :=
  let pos := if scale then c.issuedS else c.issued
  let made := if scale then c.madeS else c.made
  let total := if scale then c.scaleTotal else c.prog.size
  if !sdOut c.desc || !sdLink c.desc || made ≤ pos then 0 else
  match mateOf s x c with
  | none => 0
  | some (_, p) =>
    let z := if scale then sdSclLen p.desc else sdTunLen p.desc
    let used := (if scale then p.issuedS - p.freedS else p.issued - p.freed) +
      ((c.reqs.filter (fun r => r.scale == scale)).map (·.len)).sum
    let n := min 64 (made - pos)
    if z < used + 64 then 0 else if n = 64 || pos + n = total || c.early || c.fate.isSome then n else 0

/-- The dry time D as a fraction, (0, 1) for 0 (07 R174). `w` is what the partner released or produced over the last 256 cycles,
which is no more than it has released or produced at all. -/
def dryTime (c : Stream) (w : Option Nat) : Nat × Nat :=
  let held := if sdOut c.desc then sdTunLen c.desc - (c.made - c.freed) else c.issued - c.freed
  let rate := if fld c.desc 24 4 = 0 then (0, 1) else (held * 65536, fld c.desc 24 4)
  if c.await.isSome then (0, 1)
  else match w with
    | some w =>
      let w := min w ((if sdOut c.desc then c.made else c.freed) - sdStart c.desc)
      if c.touched && 0 < w then (held * 256, w) else rate
    | none => rate

/-- Reads outstanding of a ladle (07 R161). -/
def readsOut (s : State) (cluster : Nat) : Nat :=
  ((upto 32).map (fun c => match (s.ctx (32 * cluster + c)).cur with
    | some r => if sdOut r.desc || sdLink r.desc then 0 else r.reqs.length
    | none => 0)).sum

/-- Slots of the ladle's NCLK cycle that have passed, and writes among them (07 R161). -/
def slotOf (s : State) (cluster : Nat) : Nat × Nat := Tab.get (0, 0) s.slots cluster

/-- The context has a request to issue, and may: FILLING, ACTIVE or ENDING with room or a line; at most 256 reads are outstanding and
at most 2 of a cycle's 4 slots write (07 R161, R174). Data goes before its scale bytes. -/
def wantsSlot (s : State) (x : Nat) : Option Bool :=
  let c := s.ctx x
  if c.st ≠ .filling && c.st ≠ .active && c.st ≠ .ending then none else
  match c.cur with
  | none => none
  | some r =>
    let may : Bool := if sdOut r.desc then (slotOf s (x / 32)).2 < 2 else readsOut s (x / 32) < 256
    let ok (sc : Bool) : Bool := nextIn r sc != .none || nextOut r sc != .none || 0 < nextLink s x r sc
    if !may then none else if ok false then some false else if sdScales r.desc && ok true then some true else none

/-- The eligible context with the smallest dry time, the lower number on a tie (07 R174). -/
def slotWinner (s : State) (cluster : Nat) (rates : List (Nat × Nat)) : Option (Nat × Bool) :=
  let dry (x : Nat) (c : Stream) : Nat × Nat := dryTime c ((rates.find? (fun y => y.1 == x % 32)).map (·.2))
  ((upto 32).map (fun c => 32 * cluster + c)).foldl (fun best x =>
    match wantsSlot s x, (s.ctx x).cur with
    | some sc, some r =>
      match best with
      | none => some (x, sc)
      | some (y, _) => match (s.ctx y).cur with
        | some q => if (dry x r).1 * (dry y q).2 < (dry y q).1 * (dry x r).2 then some (x, sc) else best
        | none => some (x, sc)
    | _, _ => best) none

/-- The deadline tag of a request with dry time D: min(0xFFFF, floor(D × 1,000 ÷ f_ACLK)) ns (07 R175). -/
def deadlineTag (d : Nat × Nat) (mhz : Nat) : Nat := min 0xFFFF (d.1 * 1000 / (max 1 d.2 * mhz))

/-- A page fault pauses the stream at its position (07 R180). -/
def State.pauseStream (s : State) (x page : Nat) (c : Stream) : State :=
  let s := s.onCtx x (fun k => { k with back := k.st, st := .paused, pausedAt := s.time, cnt := { k.cnt with faults := k.cnt.faults + 1 },
                                          cur := k.cur.map (fun c => { c with faults := c.faults + 1 }) })
  s.pageFault (flaskOfKey c.heat) page (.stream x) (streamPatience s (flaskOfKey c.heat) c.desc)

/-- A request joins those outstanding. -/
def State.request (s : State) (x : Nat) (r : LReq) : State :=
  s.onCtx x (fun k => { k with nextReq := k.nextReq + 1, cur := k.cur.map (fun c => { c with reqs := c.reqs ++ [{ r with id := k.nextReq }] }) })

/-- The program has issued its last run: ENDING (07 R162). -/
def State.maybeEnding (s : State) (x : Nat) : State :=
  s.onCtx x (fun k => match k.cur with
    | some c => if c.issued = c.prog.size && c.issuedS = c.scaleTotal && (k.st = .active || (k.st = .filling && c.touched)) then
        { k with st := .ending } else k
    | none => k)

/-- States that the line awaited by the partner of the stream in context x may be in: 0 XLATE, 1 ARB, 2 CREDIT, 3 BANK, 4 UPSTREAM
(07 R177). Translation and injection are not seen apart from waiting for a slot and from the response (notes/assumptions/81.md). -/
def awaited (s : State) (x : Nat) (c : Stream) (pos : Nat) : List Nat :=
  if (s.ctx x).st = .paused then [0]
  else if sdLink c.desc then
    if sdOut c.desc then (if c.reqs.isEmpty then [1, 2] else [2, 3])
    else match mateOf s x c with
      | some (_, o) => if o.reqs.isEmpty then [4] else [2, 3, 4]
      | none => [4]
  else if sdOut c.desc then (if c.reqs.isEmpty then [0, 1] else [2, 3])
  else if c.issued ≤ pos || (sdScales c.desc && c.issuedS * blockBytes (sdFmt c.desc) ≤ pos) then
    (if c.reqs.isEmpty then [0, 1] else [0, 1, 2, 3])
  else [2, 3]

/-- Every awaited line of a ladle's contexts is looked at (07 R177). -/
def State.watch (s : State) (cluster : Nat) : State :=
  ((upto 32).map (ctxKey cluster)).foldl (fun s x => match (s.ctx x).cur with
    | some c => match c.await with
      | some w => s.onStream x (fun c => { c with await := some { w with seen := (awaited s x c w.pos).foldl numInsert w.seen } })
      | none => s
    | none => s) s

/-- A ladle's port (15 R347). -/
def ladlePort (x : Nat) : Nat := routerPort (x / 32) 6

/-- Where a request of the stream in context x goes. -/
def requestDest (s : State) (c : Stream) (r : LReq) : Nat :=
  if sdLink c.desc then ladlePort (peerOf c.desc) else if r.host then pxUnit 64 else endpointOf s r.line

/-- The packet of a request (15 R348, R349): a line read, a line write, or stream data. -/
def requestFlit (s : State) (x : Nat) (c : Stream) (r : LReq) : Flit :=
  { packet (if sdOut c.desc then 2 else 0) (if sdLink c.desc then 2 else 0) (ladlePort x) (requestDest s c r) (Config.netTag r.id).toNat
      (flaskOfKey c.heat) (if sdLink c.desc then 0 else r.line) r.data with retry := r.retry }

/-- A request leaves; where it is absorbed on its way, the stream fails (15 R361). -/
def State.depart (s : State) (x : Nat) (c : Stream) (r : LReq) : State :=
  match s.sends (ladlePort x) (requestFlit s x c r) true with
  | (s, true) => s
  | (s, false) => s.failStream x .notPresent

/-- The response of a request returns from the endpoint that gives it, in service or not; false where it is lost. -/
def State.returns (s : State) (x : Nat) (c : Stream) (r : LReq) (st : Stat) : State × Bool :=
  let home := requestDest s c r
  let (data, op) : List Byte × Nat :=
    if st ≠ .ok then ([], 2) else if sdOut c.desc then ([], 1) else (if r.host then s.hostRead r.line 64 else s.devRead r.line 64, 0)
  let s := if st = .notPresent then s.onUnit (homeOf home) (fun u => { u with absorbed := u.absorbed + 1 }) else s
  s.sends home (packet 1 op st.code (ladlePort x) (Config.netTag r.id).toNat (flaskOfKey c.heat) 0 data) true

/-- The ladle of context x has no token for a request of its stream; the cycle counts (15 R357). -/
def State.withheld (s : State) (x : Nat) (c : Stream) : Option State :=
  let cls := if sdOut c.desc then 2 else 0
  if ((s.unit (x / 32)).refill s.time).hasToken (4 * 6 + cls) then none else some (s.regStall (x / 32) 6 cls)

/-- The issue slot of context x, with its deadline tag (07 R165, R166, R175, R180). -/
def State.issue (s : State) (x : Nat) (scale : Bool) (tag : Nat) : State :=
  match (s.ctx x).cur with
  | none => s
  | some c =>
    let flask := flaskOfKey c.heat
    let pos := if scale then c.issuedS else c.issued
    let req : LReq := { id := (s.ctx x).nextReq, scale, pos, len := 0, line := 0, host := false, off := 0, data := [], retry := 0, dtag := tag }
    if sdLink c.desc then
      let n := nextLink s x c scale
      if n = 0 then s else
      match s.withheld x c with
      | some t => t
      | none =>
        let r := { req with len := n, data := ringRead s x c.desc scale pos n }
        (((s.request x r).onStream x (·.advance scale n)).maybeEnding x).depart x c r
    else if sdOut c.desc then
      match nextOut c scale with
      | .none => s
      | .bad => s.failStream x .invalid
      | .line o =>
        let send (a : Nat) (host : Bool) : State :=
          match s.withheld x c with
          | some t => t
          | none =>
            let r := { req with len := o.taken, line := a, host, data := (upto 64).map (fun k => Tab.get 0 o.bytes k) }
            ((((s.request x r).onStream x (·.setLine scale none)).collect x).maybeEnding x).depart x c r
        match locate s flask o.line with
        | (.bad, _) => s.failStream x .invalid
        | (_, false) => s.failStream x .invalid
        | (.out p, _) => s.pauseStream x p c
        | (.dev a, _) => send a false
        | (.host a, _) => send a true
    else
      match nextIn c scale with
      | .none => s
      | .bad => s.failStream x .invalid
      | .pad n =>
        let fill : Byte := if scale then 0x7F else 0
        let s := (s.ringWrite x c.desc scale pos (List.replicate n fill)).onLdCnt x (fun k => { k with padBytes := k.padBytes + n })
        (s.onStream x (fun c => { c.advance scale n with pads := c.pads + c.padBegins scale pos })).maybeEnding x
      | .line a n =>
        let send (d : Nat) (host : Bool) : State :=
          match s.withheld x c with
          | some t => t
          | none =>
            let r := { req with len := n, line := d / 64 * 64, off := d % 64, host }
            (((s.request x r).onStream x (·.advance scale n)).maybeEnding x).depart x c r
        match (locate s flask a).1 with
        | .bad => s.failStream x .invalid
        | .out p => s.pauseStream x p c
        | .dev d => send d false
        | .host d => send d true

/-- An issue slot of a ladle passes; the fifth begins another NCLK cycle (07 R161). -/
def State.passSlot (s : State) (cluster : Nat) (write : Bool) : State :=
  let (k, w) := slotOf s cluster
  s.onSlots (fun t => Tab.put t cluster (if k = 3 then (0, 0) else (k + 1, w + if write then 1 else 0)))

/-- LADLE_REQUEST_ISSUE (07 R161, R174, R175): one issue slot goes to the eligible context with the smallest dry time. -/
def execLadleRequestIssue (cluster : Nat) (rates : List (Nat × Nat)) (s : State) : Out :=
  done (
    if ladleDown s cluster then s else
    match slotWinner s cluster rates with
    | some (x, sc) =>
      match (s.ctx x).cur with
      | some c =>
        let d := dryTime c ((rates.find? (fun y => y.1 == x % 32)).map (·.2))
        (((s.passSlot cluster (sdOut c.desc)).issue x sc (deadlineTag d (clusterMHz s cluster))).watch cluster).settle
      | none => s
    | none => s.passSlot cluster false)

/-! ## Responses (07 R165, R182) -/

/-- The controllers see a line's error (12 R289). -/
def State.lineError (s : State) (a : Nat) (err : LineErr) : State :=
  match ctlOf a with
  | some (k, o) => s.readLine k o err
  | none => s

/-- A request is gone. -/
def Stream.drop (c : Stream) (id : Nat) : Stream := { c with reqs := c.reqs.filter (fun r => r.id != id) }

/-- A linked line arrives at the ring of the stream's peer (07 R171). -/
def State.deliverLink (s : State) (x : Nat) (c : Stream) (scale : Bool) (bs : List Byte) : State :=
  match mateOf s x c with
  | none => s
  | some (peer, p) =>
    let pos := if scale then p.issuedS else p.issued
    let s := (s.ringWrite peer p.desc scale pos bs).onLdCnt peer (fun k => { k with bytesIn := k.bytesIn + bs.length })
    ((s.onStream peer (fun p => { p.advance scale bs.length with bytes := p.bytes + if scale then 0 else bs.length })).maybeEnding peer).watch
      (peer / 32)

/-- A request of the stream in context x is answered: an input line's bytes arrive, or an output line is acknowledged. -/
def State.arrive (s : State) (x : Nat) (r : LReq) (bs : Option (List Byte)) : State :=
  match (s.ctx x).cur with
  | none => s
  | some c =>
    match bs with
    | some b =>
      let s := (s.ringWrite x c.desc r.scale r.pos (b.drop r.off |>.take r.len)).onLdCnt x (fun k => { k with bytesIn := k.bytesIn + r.len })
      s.onStream x (fun c => { c.drop r.id with bytes := c.bytes + if r.scale then 0 else r.len })
    | none =>
      let s := s.onLdCnt x (fun k => { k with bytesOut := k.bytesOut + if sdLink c.desc then r.len else 64 })
      s.onStream x (fun c => { (c.drop r.id).free r.scale r.len with bytes := c.bytes + if r.scale then 0 else r.len })

/-- A request without its response is sent again, up to three times; a fourth failure, and the loss of stream data, end the stream
(07 R182, 15 R360). -/
def State.reissue (s : State) (x : Nat) (c : Stream) (r : LReq) : State :=
  if sdLink c.desc || 3 ≤ r.retry then (s.failStream x .uncorrectable).settle
  else
    let q := { r with retry := r.retry + 1 }
    (((s.onLdCnt x (fun k => { k with retry := k.retry + 1 })).onStream x (fun c =>
      { c with reqs := c.reqs.map (fun p => if p.id = r.id then q else p) })).depart x c q).settle

/-- A request is served: what it reads or writes, and its response's way back; a response that is lost leaves it waiting. For a host line
any `err` is the host's error answer (17 R407). -/
def State.serveReq (s : State) (x : Nat) (c : Stream) (r : LReq) (err : LineErr) : State :=
  let fail (s : State) (st : Stat) : State :=
    match s.returns x c r st with
    | (s, true) => (s.failStream x st).settle
    | (s, false) => s
  let write (s : State) : State :=
    match s.returns x c r .ok with
    | (s, true) => s.arrive x r none
    | (s, false) => s
  let read (s : State) (bs : List Byte) : State :=
    match s.returns x c r .ok with
    | (s, true) => s.arrive x r (some bs)
    | (s, false) => s
  if sdLink c.desc then write (s.deliverLink x c r.scale r.data)
  else if r.host then
    if err ≠ .clean then fail s .uncorrectable
    else if sdOut c.desc then write (s.hostWrite r.line r.data) else read s (s.hostRead r.line 64)
  else
    match physOutcome s r.line 64 (sdOut c.desc) with
    | .ok =>
      let s := s.reach r.line 64
      if sdOut c.desc then write (s.devWrite r.line r.data) else
      let s := s.lineError r.line err
      if !(s.poisonIn r.line 64).isEmpty then fail s .uncorrectable else read s (s.devRead r.line 64)
    | st => fail s st

/-- LADLE_RESPONSE (07 R165, R182). -/
def execLadleResponse (cluster ctx req : Nat) (err : LineErr) (lost : Bool) (s : State) : Out :=
  done (
    let x := ctxKey cluster ctx
    match (s.ctx x).cur with
    | none => s
    | some c =>
      match c.reqs.find? (fun r => r.id == req) with
      | none => s
      | some r =>
        (if lost then s.reissue x c r
        else if !sdLink c.desc && !r.host && biOut s r.line then s
        else if !sdLink c.desc && !r.host && snooped s r.line (sdOut c.desc) then s.holdLine r.line none
        else s.serveReq x c r err).watch cluster)

/-! ## Partners (07 R170, R177, R178) -/

/-- Cycles of each cause, of the causes that the awaited line has been in (07 R177). -/
def stallOf (y : StallBy) (seen : List Nat) (cause : Nat) : Nat :=
  if !seen.contains cause then 0 else
  match cause with | 0 => y.xlate | 1 => y.arb | 2 => y.credit | 3 => y.bank | _ => y.upstream

/-- The cause with most cycles; ties go to the lower code (07 R179). -/
def mostCause (f : Nat → Nat) : Nat := (upto 5).foldl (fun b k => if f b < f k then k else b) 0

/-- The stall of the partner on the stream in context x ends: its cycles are counted by cause, and a deadline miss in RT mode is
recorded; the first fill is exempt (07 R177 to R179). -/
def State.stalled (s : State) (x : Nat) (y : StallBy) : State :=
  match (s.ctx x).cur with
  | none => s
  | some c =>
    match c.await with
    | none => s
    | some w =>
      let f := stallOf y ((awaited s x c w.pos).foldl numInsert w.seen)
      let n := ((upto 5).map f).sum
      let s := (s.onLdCnt x (fun t => { t with
        xlate := t.xlate + f 0, arb := t.arb + f 1, credit := t.credit + f 2, bank := t.bank + f 3, upstream := t.upstream + f 4 })).onStream x (fun c => { c with await := none })
      if sdRt c.desc && !w.first && fld c.desc 28 2 < n then
        let s := (s.onLdCnt x (fun t => { t with rtMiss := t.rtMiss + 1 })).onStream x (fun c => { c with rtMiss := c.rtMiss + 1 })
        if traceUse s (x / 32) 2 then
          s.traceEntry (x / 32) (leBytes 8 s.time ++ leBytes 2 (packCluster (x / 32)) ++ leBytes 1 (x % 32) ++ leBytes 1 (mostCause f) ++
            leBytes 4 n ++ leBytes 4 (streamPartner c.desc) ++ leBytes 4 (c.heat % 2 ^ 32) ++ leBytes 6 (w.pos / c.prog.run) ++ leBytes 2 0)
        else s
      else s

/-- The partner touches the tundish: FILLING turns ACTIVE (07 R162). -/
def State.touch (s : State) (x : Nat) : State :=
  (s.onCtx x (fun k => { k with st := if k.st = .filling then .active else k.st,
                                 cur := k.cur.map (fun c => { c with touched := true }) })).maybeEnding x

/-- Release n data bytes and m scale bytes of an input stream; the ladle counts the space as free at once (07 R170). -/
def State.consume (s : State) (x n m : Nat) : State :=
  (s.touch x).onStream x (fun c => { c with freed := c.freed + n, freedS := c.freedS + m })

/-- Produce data and scale bytes into an output stream's rings; the ladle collects them. -/
def State.produce (s : State) (x : Nat) (bs scl : List Byte) : State :=
  match (s.ctx x).cur with
  | none => s
  | some c =>
    let s := (s.ringWrite x c.desc false c.made bs).ringWrite x c.desc true c.madeS scl
    (((s.touch x).onStream x (fun c => { c with made := c.made + bs.length, madeS := c.madeS + scl.length })).collect x).maybeEnding x

/-- Data position of the first byte, or of the first byte of space, that the partner awaits: of data, or of the block whose scale
byte it lacks. -/
def awaitPos (c : Stream) : Nat :=
  if sdOut c.desc then c.made
  else if sdScales c.desc then min (c.arrived false) (c.arrived true * blockBytes (sdFmt c.desc)) else c.arrived false

/-- The partner waits on the stream in context x: its access stalls (07 R177). -/
def State.starve (s : State) (x : Nat) : State :=
  match (s.ctx x).cur with
  | none => s
  | some c =>
    if c.await.isSome then s else
    s.onStream x (fun c => { c with await := some { pos := awaitPos c, first := !c.touched, seen := (awaited s x c (awaitPos c)).foldl numInsert [] } })

/-- PARTNER_RELEASE (07 R170): the partner of an armed stream consumes input bytes as they have arrived, or hands over
output bytes that it has written into the tundish. Lines delivered to user logic count at its port (13 R318, R321). Beyond the
stream's last byte the partner fails with `ST_INVALID`. -/
def execPartnerRelease (cluster ctx bytes : Nat) (stall : StallBy) (s : State) : Out :=
  done (
    let x := ctxKey cluster ctx
    match (s.ctx x).cur with
    | none => s
    | some c =>
      if sdOut c.desc then
        if c.prog.size < c.made + bytes then ((s.stalled x stall).touch x).beyond x c.heat (streamPartner c.desc) true
        else if c.room < bytes then s.starve x
        else (((s.stalled x stall).touch x).onStream x (fun c => { c with made := c.made + bytes })).collect x
      else if c.prog.size < c.freed + bytes then ((s.stalled x stall).touch x).beyond x c.heat (streamPartner c.desc) false
      else if c.avail < bytes then s.starve x
      else ((s.stalled x stall).consume x bytes 0).onFp (fun t => t.map (fun y =>
        if y.2.dtags.any (fun g => g.2.1 == c.heat && g.2.2 == streamPartner c.desc) then
          (y.1, { y.2 with flitsRx := y.2.flitsRx + (bytes + 63) / 64 }) else y)))

/-- STREAM_COMPLETE (07 R170, R172): a finished stream completes and a held stream takes effect, for which other nodes may have
waited (09 R203, R204). -/
def execStreamComplete (cluster ctx : Nat) (s : State) : Out :=
  done (
    let x := ctxKey cluster ctx
    match (s.ctx x).cur with
    | some c => if c.finished && (c.fate.isSome || !heldForRerun s c) then (s.completeStream x).settle else s
    | none => s)

/-! ## What a partner needs (07 R170, R177) -/

/-- Bytes of a stream against what a partner needs of it. -/
inductive Supply where
  | ready
  | wait
  /-- beyond the stream's last byte, or no stream of the node is there -/
  | beyond
  deriving DecidableEq, Repr

/-- Does the input stream in context x hold n data bytes and m scale bytes for node (k, j)? -/
def supply (s : State) (x k j n m : Nat) : Supply :=
  if n = 0 && m = 0 then .ready else
  match streamFor s x k j with
  | none => .beyond
  | some c =>
    if sdOut c.desc || c.prog.size < c.freed + n || c.scaleTotal < c.freedS + m then .beyond
    else if n ≤ c.avail && m ≤ c.availS then .ready else .wait

/-- Has the output stream in context x room for n data bytes and m scale bytes of node (k, j)? -/
def space (s : State) (x k j n m : Nat) : Supply :=
  if n = 0 && m = 0 then .ready else
  match streamFor s x k j with
  | none => .beyond
  | some c =>
    if !sdOut c.desc || c.prog.size < c.made + n || (sdScales c.desc && c.scaleTotal < c.madeS + m) then .beyond
    else if n ≤ c.room && (m ≤ c.roomS || !sdScales c.desc) then .ready else .wait

/-- The next n data bytes and m scale bytes of an input stream. -/
def peek (s : State) (x n m : Nat) : List Byte × List Byte :=
  match (s.ctx x).cur with
  | none => ([], [])
  | some c => (ringRead s x c.desc false c.freed n, ringRead s x c.desc true c.freedS m)

/-- Node (k, j) was held for some cycles: every stream it waited on counts its stall, no longer than the hold (07 R177). -/
def State.unstall (s : State) (k j cycles : Nat) (waits : List (Nat × StallBy)) : State :=
  (streamsOf s k j).foldl (fun s x =>
    let y : StallBy := match waits.find? (fun w => w.1 == x % 32) with
      | some w => if w.2.xlate + w.2.arb + w.2.credit + w.2.bank + w.2.upstream ≤ cycles then w.2 else ⟨0, 0, 0, 0, 0⟩
      | none => ⟨0, 0, 0, 0, 0⟩
    s.stalled x y) s

end Sys2Proof.Machine
end

