-- ==== Sys2Proof/Machine/Heats.lean ====
section
/-!
DEFINITION. Heats, patterns and node records (09): submission, abort, query, registration, completions and timeouts.
-/

namespace Sys2Proof.Machine

/-! ## Submission (09 R214, R219) -/

/-- The checks of 09 R214, in its order. -/
def submitCheck (s : State) (c : Cmd) : Stat :=
  let n := c.p 4 4
  let pat := c.p 24 4
  let bound := c.p 28 4
  let named := pat ≠ 0xFFFFFFFF
  if c.flask = 0xFF then .invalid
  else if (s.heat? (heatKey c.flask (c.p 0 4))).isSome then .busy
  else match s.flask? c.flask with
    | none => .notPresent
    | some f =>
      let form := 1 ≤ n && n ≤ 131072 && c.reserved 40 47 && c.p 8 8 % 64 = 0 && c.p 16 8 % 64 = 0 && (!named || pat < 1024) &&
        (named || bound = 0) && bound ≤ 4096 && (bound ≠ 0 || c.p 32 8 = 0)
      if !form || !mapped s c.flask (c.p 8 8) (n * if named then 128 else 64) false ||
         !mapped s c.flask (c.p 16 8) (n * 64) true || !mapped s c.flask (c.p 32 8) (bound * 8) false then .invalid
      else if f.faulted then .notPresent
      else
        let patOk : Stat := if !named then .ok else
          match Tab.find? s.graph.patterns pat with
          | none => .notPresent
          | some p => if p.flask ≠ c.flask then .notPresent else if p.count ≠ n || p.nslot ≠ bound then .invalid else .ok
        match patOk with
        | .ok => if f.nodeQuota < n then .noResource else .ok
        | st => st

/-- A heat that is accepted, before it loads. -/
def Heat.fresh (s : State) (c : Cmd) : Heat :=
  let pat := c.p 24 4
  { id := c.p 0 4, flask := c.flask, cid := some c.cid, loop := none, prio := c.prio, seq := s.graph.nextSeq, accTime := c.accTime,
    timeout := c.timeout, count := c.p 4 4, nodeAddr := c.p 8 8, recAddr := c.p 16 8,
    pattern := if pat = 0xFFFFFFFF then none else some pat, bindAddr := c.p 32 8, phase := .loading, nodes := [],
    verdict := none, firstStale := none }

/-- A heat enters the graph engine. -/
def State.addHeat (s : State) (k : Nat) (h : Heat) : State :=
  s.onGraph (fun g => { g with heats := Tab.put g.heats k h, nextSeq := g.nextSeq + 1 })

/-- Heats of a flask that are held for node entries, by order of acceptance (09 R214). -/
def heldHeats (s : State) (flask : Nat) : List (Nat × Heat) :=
  ((s.graph.heats.filter (fun x => x.2.flask == flask && x.2.phase == .held)).mergeSort (fun a b => a.2.seq ≤ b.2.seq))

/-- The entries that a heat of n nodes needs are free. -/
def entriesFit (s : State) (flask n : Nat) : Bool :=
  match s.flask? flask with
  | some f => entriesHeld s flask + n ≤ f.nodeQuota
  | none => false

/-- The pattern store that a heat loads from holds an uncorrectable or poisoned line. -/
def storeBroken (s : State) (h : Heat) : Bool :=
  match h.pattern.bind (Tab.find? s.graph.patterns) with
  | some p => readFlask s h.flask p.store (192 * p.count + 8 * p.patches.length) == .fail .uncorrectable
  | none => false

/-- The reads of a broken pattern store count (12 R289). -/
def State.blameStore (s : State) (h : Heat) : State :=
  match h.pattern.bind (Tab.find? s.graph.patterns) with
  | some p => s.blame h.flask p.store (192 * p.count + 8 * p.patches.length) .uncorrectable
  | none => s

/-- A heat loads; an uncorrectable error in its pattern store faults the flask (09 R225). -/
def State.takeHeat (s : State) (k : Nat) : State :=
  match s.heat? k with
  | some h => if storeBroken s h then (s.blameStore h).flaskFault h.flask none else s.loadHeat k
  | none => s

/-- HEAT_SUBMIT (09 R214). -/
def execHeatSubmit (cid : Nat) (s : State) : Out :=
  done (s.accepted cid (fun c => c.opcode == 0x81) (fun c s =>
    match submitCheck s c with
    | .ok =>
      let k := heatKey c.flask (c.p 0 4)
      let hold := !(heldHeats s c.flask).isEmpty || !entriesFit s c.flask (c.p 4 4)
      if hold then (s.addHeat k { Heat.fresh s c with phase := .held }).onCmd cid (fun c => { c with work := .heldHeat })
      else ((s.addHeat k (Heat.fresh s c)).onCmd cid (fun c => { c with work := .heat })).takeHeat k
    | st => s.failCmd cid st))

/-- HEAT_LOAD_BEGIN (09 R214): the earliest held command of a flask begins loading when its entries are free. -/
def execHeatLoadBegin (flask : Nat) (s : State) : Out :=
  done (match heldHeats s flask with
    | [] => s
    | (k, h) :: _ =>
      if !entriesFit s flask h.count then s else
      let s := s.onHeat k (fun h => { h with phase := .loading })
      (match h.cid with | some c => s.onCmd c (fun c => { c with work := .heat }) | none => s).takeHeat k)

/-! ## Abort and query (09 R215, R216) -/

/-- HEAT_ABORT (09 R215). The abort of a heat whose completion is formed and not posted discards it too; its own completion follows. -/
def execHeatAbort (cid : Nat) (s : State) : Out :=
  done (s.accepted cid (fun c => c.opcode == 0x82) (fun c s =>
    if !c.reserved 4 47 then s.failCmd cid .invalid else
    let k := heatKey c.flask (c.p 0 4)
    match s.heat? k with
    | none => s.failCmd cid .notPresent
    | some h =>
      if h.phase = .held then (s.dropHeld k .discarded).finish cid .ok zeros16
      else ((s.onCmd cid (fun c => { c with work := .abort })).cutHeat k).settle))

/-- A node's state as 09 R202 counts it: it is DONE once its record is written. -/
def Node.counts (x : Node) : Nat :=
  match x.st with
  | .waiting | .ready => 2
  | .dispatched | .suspended => 1
  | .done => if x.written then 0 else 1

/-- RESULT of `HEAT_QUERY` (09 R216). -/
def queryResult (h : Option Heat) : List Byte :=
  match h with
  | none => zeros16
  | some h =>
    let st := match h.phase with | .loading => 1 | .running => 2 | .ending | .closing => 3 | .held => 4
    let n (k : Nat) := if h.phase = .held then 0 else (h.nodes.filter (fun x => x.counts == k)).length
    leBytes 4 st ++ leBytes 4 (n 0) ++ leBytes 4 (n 1) ++ leBytes 4 (n 2)

/-- HEAT_QUERY (09 R216). -/
def execHeatQuery (cid : Nat) (s : State) : Out :=
  done (s.accepted cid (fun c => c.opcode == 0x83) (fun c s =>
    if !c.reserved 4 47 then s.failCmd cid .invalid
    else s.finish cid .ok (queryResult (s.heat? (heatKey c.flask (c.p 0 4))))))

/-! ## Nodes and records (09 R200, R203, R205, R206) -/

/-- HOST_SIGNAL (09 R200): the signal line is written, and on its acknowledgement the vector is raised and the node ends. -/
def execHostSignal (flask heat node : Nat) (bad : Bool) (s : State) : Out :=
  done (
    let k := heatKey flask heat
    match s.node? k node with
    | none => s
    | some x =>
      if x.cls ≠ 7 || x.st ≠ .dispatched || x.ended.isSome then s
      else if bad then s.endNode k node .uncorrectable id
      else
        let line := leBytes 4 heat ++ leBytes 4 node ++ leBytes 8 x.aux ++ leBytes 8 s.time ++ leBytes 40 0
        let s := s.hostWrite x.descAddr line
        (if x.endpoint = 0xFFFF then s else s.raise x.endpoint).endNode k node .ok id)

/-- NODE_COMPLETE (09 R203, R211): the graph engine processes the end of a node in its unit; a FABRIC node waits for its output
streams (13 R317). An entry that it finds uncorrectable ends the heat (09 R225), with the entry as its first failed node
(notes/assumptions/20.md). -/
def execNodeComplete (flask heat node : Nat) (bad : Bool) (s : State) : Out :=
  done (
    let k := heatKey flask heat
    match s.node? k node with
    | none => s
    | some x =>
      if bad then (s.endHeat k .uncorrectable node none).settle else
      match x.ended with
      | none => s
      | some st =>
        if x.st = .done || (x.cls = 5 && st = .ok && !outputsDone s k node) then s else
        let s := if x.cls = 5 && st = .ok then s.closeStreams k node else s
        let s := s.onNode k node (fun x => { x with st := .done, status := some st })
        let s := if st = .stale then s.onHeat k (fun h => { h with firstStale := h.firstStale.or (some node) }) else s
        if st = .ok || st = .stale then (s.progress k).settle
        else ((s.endHeat k st node none).progress k).settle)

/-- NODE_RECORD_WRITE (09 R205): the record of a node that has ended is written, waits for its page, or is dropped. A step
heat of a serving loop has no record area (notes/assumptions/31.md). -/
def execNodeRecordWrite (flask heat node : Nat) (bad : Bool) (s : State) : Out :=
  done (
    let k := heatKey flask heat
    match s.heat? k, s.node? k node with
    | some h, some x =>
      if x.st ≠ .done || x.written || s.faults.any (fun f => f.who == .record k node) then s else
      let (g, s) := if h.loop.isSome then (Got.ok [], s) else if bad then (Got.fail .uncorrectable, s)
        else s.tryWrite flask (h.recAddr + 64 * node) (nodeRecord x)
      match g with
      | .wait p => s.pageFault flask p (.record k node) (patienceOf s flask)
      | .ok _ => s.onNode k node (fun x => { x with written := true })
      | .fail st => ((s.onNode k node (fun x => { x with written := true })).endHeat k st node none).settle
    | _, _ => s)

/-- HEAT_COMPLETE (09 R206). A step heat of a serving loop ends in its own row. -/
def execHeatComplete (flask heat : Nat) (s : State) : Out :=
  done (
    let k := heatKey flask heat
    match s.heat? k with
    | some h => if h.complete then s.closeHeat k h else s
    | none => s)

/-! ## Timers (09 R199, R208, R211, R214) -/

/-- NODE_TIMEOUT: the timer of a node runs from its first dispatch, suspensions included. The arrival of the data, the row or the
result that the node waits for wins the cycle: the node goes on (`arrival`; 03 R91, 05 R138, 07 R184). -/
def execNodeTimeout (flask heat node : Nat) (arrival : Bool) (s : State) : Out :=
  done (
    let k := heatKey flask heat
    match s.node? k node with
    | none => s
    | some x =>
      if arrival || x.timeout = 0 || !(x.st = .dispatched || x.st = .suspended) || x.ended.isSome then s
      else ((s.until (x.start + 1000 * x.timeout)).failNode k node .timeout).settle)

/-- HEAT_TIMEOUT: the heat timer runs from acceptance; a held submit completes and nothing of it is carried out. -/
def execHeatTimeout (flask heat : Nat) (s : State) : Out :=
  done (
    let k := heatKey flask heat
    match s.heat? k with
    | none => s
    | some h =>
      if h.timeout = 0 || h.verdict.isSome then s else
      let s := s.until (h.accTime + 1000 * h.timeout)
      if h.phase = .held then s.dropHeld k .timeout else (s.endHeat k .timeout 0xFFFFFFFF none).settle)

/-- READY_AGEING: a node READY for more than 1 ms counts as class 0. -/
def execReadyAgeing (flask heat node : Nat) (s : State) : Out :=
  done (
    let k := heatKey flask heat
    match s.node? k node with
    | none => s
    | some x => if x.st = .ready && !x.aged then
        (s.until (x.readyAt + 1000001)).onNode k node (fun x => { x with aged := true }) else s)

/-! ## Patterns (09 R218) -/

/-- A patch entry: node, word, slot; none where a reserved bit is set. -/
def patchOf (b : List Byte) : Option (Nat × Nat × Nat) :=
  let v := fld b 0 8
  if bits v 31 21 ≠ 0 || bits v 63 48 ≠ 0 then none else some (bits v 16 0, bits v 20 17, bits v 47 32)

/-- A patch names a descriptor it may change (09 R218). -/
def patchOk (nodes : List Node) (nslot : Nat) (p : Nat × Nat × Nat) : Bool :=
  match nodes[p.1]? with
  | none => false
  | some x => hasDesc x.cls && !(x.cls = 3 && (p.2.1 = 0 || p.2.1 = 6)) && p.2.2 < nslot

/-- The form of a registration. -/
def registerForm (c : Cmd) : Bool :=
  c.flask ≠ 0xFF && c.p 0 4 < 1024 && c.p 4 4 ≤ 131072 && c.p 8 8 % 64 = 0 && c.p 16 8 % 64 = 0 && c.p 24 8 % 8 = 0 &&
  c.p 32 4 ≤ 65536 && c.p 36 2 ≤ 4096 && c.reserved 38 47

/-- What a registration reads: the patches and the store's bytes: every entry, then the descriptor of every node that has
one, then the patch list (notes/assumptions/26.md). -/
inductive Store where
  | wait (page : Nat)
  | fail (st : Stat)
  | ok (patches : List (Nat × Nat × Nat)) (bytes : List Byte)

/-- Read and check everything that a registration stores (09 R201, R218). -/
def readStore (s : State) (c : Cmd) (f : Flask) : Store :=
  let n := c.p 4 4
  match loadArray s c.flask f (c.p 8 8) n true (fun _ => none) with
  | .wait p _ => .wait p
  | .fail st _ => .fail st
  | .ok nodes =>
    match readFlask s c.flask (c.p 24 8) (8 * c.p 32 4) with
    | .wait p => .wait p
    | .fail st => .fail st
    | .ok pl =>
      let ps := (upto (c.p 32 4)).map (fun i => patchOf (slice pl (8 * i) 8))
      let patches := ps.filterMap id
      if !ps.all (·.isSome) || !patches.all (patchOk nodes (c.p 36 2)) then .fail .invalid else
      match readFlask s c.flask (c.p 8 8) (64 * n) with
      | .wait p => .wait p
      | .fail st => .fail st
      | .ok ents =>
        let descs := nodes.foldl (fun (g : Got) x =>
          match g with
          | .ok b => if hasDesc x.cls then
              match readFlask s c.flask x.descAddr 128 with
              | .ok d => .ok (b ++ d)
              | g => g
            else .ok (b ++ leBytes 128 0)
          | g => g) (.ok [])
        match descs with
        | .wait p => .wait p
        | .fail st => .fail st
        | .ok d => let b := ents ++ d ++ pl; .ok patches (padTo (ceilTo b.length 64) b)

/-- The reads of a registration, in their order. -/
def storeReads (s : State) (c : Cmd) : List (Nat × Nat) :=
  (upto (c.p 4 4)).flatMap (entryReads s c.flask (c.p 8 8) (fun _ => none)) ++ [(c.p 24 8, 8 * c.p 32 4)] ++
  (upto (c.p 4 4)).flatMap (fun i => match readEntry s c.flask (c.p 8 8) i with
    | .ok e => if hasDesc (entClass e) then [(fld e 16 8, 128)] else []
    | _ => [])

/-- A command's own read or write waits for a page (09 R495). -/
def State.cmdWaits (s : State) (c : Cmd) (page : Nat) : State :=
  if s.faults.any (fun f => f.who == .image c.cid) then s else s.pageFault c.flask page (.image c.cid) (patienceOf s c.flask)

/-- PATTERN_REGISTER (09 R218). While it waits for a page it is looked at again by its own row (notes/assumptions/16.md). -/
def execPatternRegister (cid : Nat) (s : State) : Out :=
  done (s.accepted cid (fun c => c.opcode == 0x0C && c.p 4 4 != 0) (fun c s =>
    match s.flask? c.flask with
    | none => s.failCmd cid (if registerForm c then .notPresent else .invalid)
    | some f =>
      if !registerForm c then s.failCmd cid .invalid
      else if Tab.has s.graph.patterns (c.p 0 4) then s.failCmd cid .busy
      else if f.nodeQuota < c.p 4 4 then s.failCmd cid .noResource
      else match readStore s c f with
        | .wait p => s.cmdWaits c p
        | .fail st => (s.blameFirst c.flask (storeReads s c) st).failCmd cid st
        | .ok patches b =>
          match s.tryWrite c.flask (c.p 16 8) b with
          | (.wait p, s) => s.cmdWaits c p
          | (.fail st, s) => s.failCmd cid st
          | (.ok _, s) =>
            let p : Pattern := { flask := c.flask, count := c.p 4 4, store := c.p 16 8, nslot := c.p 36 2, patches }
            (s.onGraph (fun g => { g with patterns := Tab.put g.patterns (c.p 0 4) p })).finish cid .ok zeros16))

/-- A serving loop's descriptor names a pattern (11 R255). -/
def loopNames (d : List Byte) (p : Nat) : Bool :=
  fld d 16 4 == p || (upto 8).any (fun k => fld d (20 + 4 * k) 4 == p || (fld d (56 + 8 * k) 4 == p && fld d (56 + 8 * k) 8 != 2 ^ 64 - 1))

/-- PATTERN_REMOVE (09 R218). -/
def execPatternRemove (cid : Nat) (s : State) : Out :=
  done (s.accepted cid (fun c => c.opcode == 0x0C && c.p 4 4 == 0) (fun c s =>
    if !registerForm c then s.failCmd cid .invalid else
    match Tab.find? s.graph.patterns (c.p 0 4) with
    | none => s.failCmd cid .notPresent
    | some p =>
      if p.flask ≠ c.flask then s.failCmd cid .notPresent
      else if s.graph.heats.any (fun h => h.2.pattern == some (c.p 0 4)) ||
              s.serving.loops.any (fun l => flaskOfLoop l.1 == c.flask && loopNames l.2.desc (c.p 0 4)) then s.failCmd cid .busy
      else (s.onGraph (fun g => { g with patterns := Tab.del g.patterns (c.p 0 4) })).finish cid .ok zeros16))

end Sys2Proof.Machine
end

