-- ==== Sys2Proof/Machine/Random.lean ====
section
/-!
DEFINITION. Random-bit generators (08), and the conversion of a row of outputs with its random words, block scales and counts
(02 R42, R43, R53 to R59).
-/

namespace Sys2Proof.Machine

/-- The multiplier a of 08 R185. -/
def rngA : W64 := 0x9E6C63D0676A9A99

/-- One step of a stream (08 R185). -/
def Gen.step (g : Gen) : Gen := { g with x := rngA * g.x + g.c }

/-- out(x) of 08 R186. -/
def rngOut (x : W64) : W32 :=
  let t : W32 := ((x ^^^ (x >>> 21)) >>> 27).setWidth 32
  t.rotateRight (x >>> 59).toNat

/-- M(z) of 08 R188. -/
def mixM (z : W64) : W64 :=
  let z := (z ^^^ (z >>> 30)) * 0xA3B195E4C70F2D35
  let z := (z ^^^ (z >>> 27)) * 0x6B2FD8C14E97A053
  z ^^^ (z >>> 31)

/-- The stream (SEED, KEY) of 08 R188, R189. -/
def streamOf (nomix : Bool) (seed : W64) (key : W32) : Gen :=
  let k : W64 := key.setWidth 64
  if nomix then { x := seed, c := (k <<< 1) ||| 1 }
  else
    let m := mixM k
    let x := mixM (seed ^^^ m)
    { x, c := (mixM (x ^^^ m) <<< 1) ||| 1 }

/-- The lane-mode state of logical element e (08 R194). -/
def laneGen (nomix : Bool) (seed ident : W64) (e : Nat) : Gen :=
  let i := ident ^^^ BitVec.ofNat 64 e
  if nomix then { x := seed + BitVec.ofNat 64 e, c := (i <<< 1) ||| 1 }
  else { x := mixM (seed ^^^ mixM i), c := (mixM i <<< 1) ||| 1 }

/-- The pair (a^n, G(n)) of 08 R190, from the constant pairs of its set bits. -/
def skipPair : Nat → Nat → W64 × W64 → W64 × W64
  | 0, _, _ => (1, 0)
  | fuel + 1, n, (a, g) =>
    let (p, q) := skipPair fuel (n / 2) (a * a, g + a * g)
    if n % 2 = 1 then (a * p, g + a * q) else (p, q)

/-- State n of a stream (08 R190). -/
def Gen.at (g : Gen) (n : Nat) : W64 :=
  let (p, q) := skipPair 64 (n % 2 ^ 64) (rngA, 1)
  p * g.x + g.c * q

/-- Word n of a stream (08 R191). -/
def Gen.word (g : Gen) (n : Nat) : W32 := rngOut (g.at n)

/-! ## Converting a row -/

/-- How an output tensor is converted: its format, control word, per-tensor scale and stream. -/
structure OutCvt where
  fmt : FmtByte
  cvt : BitVec 16
  scale : W32
  gen : Gen

/-- A value as it is converted: FP32. -/
def magOf (v : W32) (r : Nat × Int) : Nat × Int :=
  match f32 v with
  | .fin _ m e => (m * r.1, e + r.2)
  | _ => (0, 0)

/-- The largest scaled magnitude of a block (02 R43). An FP32 subnormal that FLUSH_FP32 flushes counts with the value it has before
the flush: 02 R50 puts the flush before every other step of the conversion, and the pseudocode of R43 takes |x_i × r| of the element
itself (DESIGN CHOICE, notes/assumptions/110.md). -/
def blockMax (r : Nat × Int) (vs : List W32) : Nat × Int :=
  vs.foldl (fun a v => let b := magOf v r; if dyLt a.1 a.2 b.1 b.2 then b else a) (0, 0)

/-- Convert consecutive elements that share a block exponent; element 0 has stream index i (02 R53, R55). -/
def cvtRun (p : OutCvt) (e : Int) : Conv → Nat → List W32 → Conv × List Nat
  | c, _, [] => (c, [])
  | c, i, v :: t =>
    let u := if p.cvt.getLsbD 0 then (p.gen.word i).toNat else 0
    let o := convert (f32 v) .fp32 p.fmt.fmt p.cvt (if p.fmt.tensor then recipScale p.scale else (1, 0)) e u
    let (c, l) := cvtRun p e (c.note p.fmt.fmt p.cvt v o) (i + 1) t
    (c, o.code :: l)

/-- Blocks of n elements. -/
def chunks {α : Type} (n : Nat) : Nat → List α → List (List α)
  | 0, _ => []
  | fuel + 1, l => if l.isEmpty then [] else l.take n :: chunks n fuel (l.drop n)

/-- Convert a row of outputs whose first element has stream index i: counts, data bytes and scale bytes. A block-scaled row
is written in whole blocks with zero codes as padding (02 R33, 03 R73). -/
def cvtRow (p : OutCvt) (c : Conv) (i : Nat) (vs : List W32) : Conv × List Byte × List Byte :=
  if p.fmt.block then
    let r := if p.fmt.tensor then recipScale p.scale else (1, 0)
    let f (acc : Conv × Nat × List Byte × List Byte) (b : List W32) : Conv × Nat × List Byte × List Byte :=
      let a := blockMax r b
      let e := blockExp p.fmt.fmt a.1 a.2
      let (c, l) := cvtRun p e acc.1 acc.2.1 b
      (c, acc.2.1 + b.length, acc.2.2.1 ++ packCodes p.fmt.fmt (l ++ List.replicate (32 - l.length) 0),
        acc.2.2.2 ++ leBytes 1 (e + 127).toNat)
    let x := (chunks 32 vs.length vs).foldl f (c, i, [], [])
    (x.1, x.2.2.1, x.2.2.2)
  else
    let (c, l) := cvtRun p 0 c i vs
    (c, packCodes p.fmt.fmt l, [])

end Sys2Proof.Machine
end

