-- ==== Sys2Proof/Machine/Matrix.lean ====
section
/-!
DEFINITION. Matrix tiles (03): the fold, weight banks, exact products and groups, the accumulator, the drain, activity levels.
-/

namespace Sys2Proof.Machine

/-! ## Block modes and the fold (03 R62, R74) -/

/-- The block modes of R62. -/
inductive MxMode where
  | w4 | w8 | w8p | w16
  deriving DecidableEq, Repr

/-- The mode that a pair of formats selects (03 R62, R63). -/
def mxMode : Fmt → Fmt → Option MxMode
  | .ig4, .ig4 | .ig4, .e4m3 | .ig4, .e5m2 => some .w4
  | .e4m3, .e4m3 | .e4m3, .e5m2 | .e5m2, .e4m3 | .e5m2, .e5m2 => some .w8
  | .e4m3, .ig4 | .e5m2, .ig4 => some .w8p
  | .bf16, .bf16 | .bf16, .fp16 | .fp16, .bf16 | .fp16, .fp16 => some .w16
  | _, _ => none

/-- Kb of R62. -/
def MxMode.kb (m : MxMode) (tr : Bool) : Nat :=
  match m with
  | .w4 => 256
  | .w8 | .w8p => if tr then 256 else 128
  | .w16 => 128

/-- Nb of R62. -/
def MxMode.nb (m : MxMode) (tr : Bool) : Nat :=
  match m with
  | .w4 => 256
  | .w8 | .w8p => if tr then 128 else 256
  | .w16 => 128

/-- mpc of R62. -/
def MxMode.mpc : MxMode → Nat
  | .w8p => 2
  | _ => 1

/-- Ob of R62. -/
def MxMode.ob : MxMode → Nat
  | .w4 | .w8 => 8
  | .w8p => 4
  | .w16 => 0

/-- A descriptor's figures (03 R70). -/
structure MxDesc where
  m : Nat
  k : Nat
  n : Nat
  kOut : Nat
  fa : FmtByte
  fw : FmtByte
  fy : FmtByte
  mode : MxMode
  tr : Bool
  accC : Bool
  cvt : BitVec 16
  deriving DecidableEq, Repr

/-- The figures of a checked descriptor. -/
def mxDesc (d : List Byte) : MxDesc :=
  let fa := fmtOr (fld d 12 1)
  let fw := fmtOr (fld d 13 1)
  { m := fld d 0 4, k := fld d 4 4, n := fld d 8 2, kOut := fld d 10 2, fa, fw, fy := fmtOr (fld d 14 1),
    mode := (mxMode fw.fmt fa.fmt).getD .w16, tr := (fld d 16 2).testBit 0, accC := (fld d 16 2).testBit 1,
    cvt := BitVec.ofNat 16 (fld d 18 2) }

/-- Passes per item (03 R74). -/
def MxDesc.passes (x : MxDesc) : Nat :=
  max (ceilDiv x.k (x.mode.kb x.tr)) (if x.kOut = 0 then 0 else ceilDiv x.kOut x.mode.ob)

/-- Row chunks MC. -/
def MxDesc.rowChunks (x : MxDesc) : Nat := ceilDiv x.m 512

/-- Output blocks NB. -/
def MxDesc.blocks (x : MxDesc) : Nat := ceilDiv x.n (x.mode.nb x.tr)

/-- Passes of the whole node. -/
def MxDesc.total (x : MxDesc) : Nat := x.blocks * x.rowChunks * x.passes

/-- One pass of the fold (03 R74). -/
structure MxPass where
  /-- first activation row, rows, first output, outputs -/
  m0 : Nat
  rows : Nat
  n0 : Nat
  ncols : Nat
  /-- reduction indices from k0, outlier channels from o0 -/
  k0 : Nat
  kn : Nat
  o0 : Nat
  on : Nat
  /-- the item's first and last pass -/
  first : Bool
  final : Bool
  deriving DecidableEq, Repr

/-- Pass q counted over the node's items in ascending order (03 R74). -/
def MxDesc.pass (x : MxDesc) (q : Nat) : MxPass :=
  let P := max 1 x.passes
  let MC := max 1 x.rowChunks
  let p := q % P
  let i := q / P
  let kb := x.mode.kb x.tr
  let nb := x.mode.nb x.tr
  { m0 := 512 * (i % MC), rows := min 512 (x.m - 512 * (i % MC)), n0 := i / MC * nb, ncols := min nb (x.n - i / MC * nb),
    k0 := p * kb, kn := min kb (x.k - p * kb), o0 := p * x.mode.ob, on := min x.mode.ob (x.kOut - p * x.mode.ob),
    first := p = 0, final := p + 1 = P }

/-- Row cycles of a pass. -/
def MxDesc.rowCycles (x : MxDesc) (p : MxPass) : Nat := ceilDiv p.rows x.mode.mpc

/-- Stored rows and elements in each row of a pass's weight block (03 R68, R73). -/
def MxDesc.stored (x : MxDesc) (p : MxPass) : Nat × Nat := if x.tr then (p.kn, p.ncols) else (p.ncols, p.kn)

/-- Elements delivered for n elements of a row: whole blocks where the format has block scales (03 R73). -/
def rowElems (f : FmtByte) (n : Nat) : Nat := if f.block then ceilTo n 32 else n

/-- Data bytes and scale bytes of a row of n elements. -/
def rowBytes (f : FmtByte) (n : Nat) : Nat × Nat := (f.fmt.bytes (rowElems f n), if f.block then ceilDiv n 32 else 0)

/-- Strips that a pass uses (03 R75). -/
def MxDesc.strips (x : MxDesc) (p : MxPass) : Nat :=
  ceilDiv (if x.tr then p.ncols else p.kn) (match x.mode with | .w4 => 16 | _ => 8)

/-! ## Exact products and sums (03 R77 to R80) -/

/-- An exact product; NaNs are positive. -/
def fvMul : FVal → FVal → FVal
  | .nan _, _ | _, .nan _ => .nan false
  | .inf a, .inf b => .inf (a != b)
  | .inf a, .fin b m _ => if m = 0 then .nan false else .inf (a != b)
  | .fin a m _, .inf b => if m = 0 then .nan false else .inf (a != b)
  | .fin a m d, .fin b n e => .fin (a != b) (m * n) (d + e)

/-- A signed exact value as a dyadic; infinities and NaN count as 0. -/
def fvDy : FVal → Dyadic
  | .fin n m e => dyOf n m e
  | _ => (0, 0)

/-- The exact sum of a group (03 R78). -/
def groupSum (ps : List FVal) : FVal :=
  if ps.any (fun p => match p with | .nan _ => true | _ => false) then .nan false
  else
    let pos := ps.contains (.inf false)
    let neg := ps.contains (.inf true)
    if pos && neg then .nan false
    else if pos || neg then .inf neg
    else
      let t := ps.foldl (fun t p => dyAdd t (fvDy p)) (0, 0)
      if t.1 = 0 then .fin (ps.all (fun p => match p with | .fin n m _ => n && m == 0 | _ => false)) 0 0
      else .fin (t.1 < 0) t.1.natAbs t.2

/-- FP32 word of an exact value, with one rounding to nearest even; NaN is positive. -/
def f32Of : FVal → W32
  | .nan _ => f32Nan false
  | .inf n => f32Inf n
  | .fin n m e => f32OfDyadic n (dyOf n m e)

/-- Sum of two values with one rounding: an exact zero is +0 unless both are −0. -/
def f32Sum (a b : FVal) : W32 := f32Of (groupSum [a, b])

/-- acc = RNE(acc + g) (03 R79). -/
def accAdd (acc : W32) (g : FVal) : W32 := f32Sum (f32 acc) g

/-- v = RNE(acc × S + c) (03 R80). -/
def drainValue (acc sc c : W32) : W32 := f32Sum (fvMul (f32 acc) (f32 sc)) (f32 c)

/-- A group of n products of which the mask leaves out some: a masked position contributes a +0 product (03 R76, R78). -/
def maskedSum (n : Nat) (ps : List FVal) : FVal := groupSum (if ps.length < n then ps ++ [.fin false 0 0] else ps)

/-- Groups of 16 products in ascending order, then the outlier group of `ob` products (03 R79, R81). -/
def accumulate (ob : Nat) (acc : W32) (main outl : List FVal) : W32 :=
  let a := (chunks 16 main.length main).foldl (fun a g => accAdd a (maskedSum 16 g)) acc
  if outl.isEmpty then a else accAdd a (maskedSum ob outl)

/-- An operand with its source flush bits (03 R77): its value, and whether it was flushed. -/
def operand (cvt : BitVec 16) (f : Fmt) (code : Nat) (scale : Option Nat) : FVal × Bool :=
  match decodeCode f code with
  | .fin n m e => if scale ≠ some 0xFF && flushSet cvt f && subnormalVal f m e then (.fin n 0 0, true) else (scaledElem f code scale, false)
  | _ => (scaledElem f code scale, false)

/-- Element i of a delivered row of data and scale bytes. -/
def rowOperand (cvt : BitVec 16) (f : FmtByte) (bs scl : List Byte) (i : Nat) : FVal × Bool :=
  operand cvt f.fmt (elemAt f.fmt bs i) (if f.block then some (fld scl (i / 32) 1) else none)

/-- The weight at stored row r, element c of a bank. -/
def Bank.weight (b : Bank) (cvt : BitVec 16) (f : FmtByte) (r c : Nat) : FVal × Bool :=
  let (w, z) := rowBytes f b.cols
  rowOperand cvt f (slice b.codes (r * w) w) (slice b.scales (r * z) z) c

/-- Outlier weight of output n, channel o, of `on` channels. -/
def Bank.outlier (b : Bank) (cvt : BitVec 16) (on n o : Nat) : FVal × Bool := operand cvt .bf16 (fld b.outl (2 * (n * on + o)) 2) none

/-! ## Starting a node (03 R68, R72) -/

/-- Scale address form: zero without a per-tensor scale, else 4-byte aligned and not zero. -/
def scaleAddrOk (f : FmtByte) (a : Nat) : Bool := if f.tensor then a ≠ 0 && a % 4 = 0 else a = 0

/-- The stream fields of a descriptor. -/
def mxStreams (d : List Byte) : List Nat := (upto 6).map (fun i => fld d (20 + i) 1)

/-- The stream rows of R72. -/
def mxStreamsOk (d : List Byte) (accC : Bool) (kOut : Nat) : Bool :=
  let l := mxStreams d
  let g (i : Nat) := l.getD i 0xFF
  let used := l.filter (fun v => v ≠ 0xFF && v ≠ 0xFE)
  g 0 ≠ 0xFF && g 1 ≠ 0xFF && g 2 ≠ 0xFF && ((g 3 ≠ 0xFF) == accC) && ((g 4 ≠ 0xFF) == (kOut != 0)) &&
  ((g 5 ≠ 0xFF) == (kOut != 0)) && used.Nodup && used.all (· < 32) &&
  (upto 6).all (fun i => g i ≠ 0xFE || i = 1)

/-- The rows of R72 up to the per-tensor scale addresses. The reserved bytes and bits of the descriptor and of its conversion word
(00 R9), which the table of R72 does not place, come before every row of it (DESIGN CHOICE, notes/assumptions/112.md). -/
def mxCheck (d : List Byte) : Stat :=
  let m := fld d 0 4
  let k := fld d 4 4
  let n := fld d 8 2
  let ko := fld d 10 2
  let mode := match Fmt.ofNat? (fld d 13 1 % 16), Fmt.ofNat? (fld d 12 1 % 16) with
    | some w, some a => mxMode w a
    | _, _ => none
  let fmtStat (b : Nat) : Stat := match fmtByte b with | .ok _ => .ok | .error true => .unsupported | .error false => .invalid
  let fs := [fmtStat (fld d 12 1), fmtStat (fld d 13 1), fmtStat (fld d 14 1)]
  if !(zeroIn d 27 27 && zeroIn d 44 47 && zeroIn d 88 127 && fld d 16 2 < 4 && fld d 18 2 < 256) then .invalid
  else if m = 0 || 65536 < m || n = 0 || 4096 < n || k = 0 then .invalid
  else if 65536 < k + ko then .invalid
  else if (k + ko) / 32 < ko then .invalid
  else if ko ≠ 0 && (mode = some .w16 || (fld d 16 2).testBit 0) then .invalid
  else if mode.isNone then .unsupported
  else match fs.find? (· ≠ .ok) with
    | some st => st
    | none =>
      if !mxStreamsOk d ((fld d 16 2).testBit 1) ko then .invalid
      else if !(scaleAddrOk (fmtOr (fld d 12 1)) (fld d 48 8) && scaleAddrOk (fmtOr (fld d 13 1)) (fld d 56 8) &&
                scaleAddrOk (fmtOr (fld d 14 1)) (fld d 64 8)) then .invalid
      else .ok

/-- The rows of R72 after the tile: STALE_POL and HIST_ADDR. -/
def mxTail (d : List Byte) : Stat :=
  if 2 < fld d 26 1 then .invalid
  else if (fld d 18 2).testBit 7 && (fld d 72 8 = 0 || fld d 72 8 % 64 ≠ 0) then .invalid
  else .ok

/-- What reading a per-tensor scale comes to (02 R41). -/
inductive ScaleRead where
  | ok (w : W32)
  | wait (page : Nat)
  | fail (st : Stat)
  deriving DecidableEq, Repr

/-- Read a per-tensor scale of a flask, 1.0 where the format has none. -/
def readScale (s : State) (flask : Nat) (f : FmtByte) (a : Nat) : ScaleRead :=
  if !f.tensor then .ok 0x3F800000 else
  match readFlask s flask a 4 with
  | .wait p => .wait p
  | .fail st => .fail st
  | .ok b => let w := BitVec.ofNat 32 (ofLe b); if (posNormal? w).isSome then .ok w else .fail .invalid

/-- S of R80 from the scales of A and W. -/
def mxScale (x : MxDesc) (sa sw : W32) : W32 :=
  if x.fa.tensor && x.fw.tensor then f32Of (fvMul (f32 sa) (f32 sw)) else if x.fa.tensor then sa else sw

/-- S and Y's scale, read at a node's start. -/
def mxScales (s : State) (flask : Nat) (d : List Byte) : Except (Option Nat × Stat) (W32 × W32) :=
  let x := mxDesc d
  let get (f : FmtByte) (off : Nat) : Except (Option Nat × Stat) W32 :=
    match readScale s flask f (fld d off 8) with
    | .ok w => .ok w
    | .wait p => .error (some p, .ok)
    | .fail st => .error (none, st)
  match get x.fa 48, get x.fw 56, get x.fy 64 with
  | .ok a, .ok w, .ok y =>
    let sc := mxScale x a w
    if (posNormal? sc).isSome then .ok (sc, y) else .error (none, .invalid)
  | .error e, _, _ => .error e
  | _, .error e, _ => .error e
  | _, _, .error e => .error e

/-- The reads of those scales, in their order. -/
def mxScaleReads (d : List Byte) : List (Nat × Nat) :=
  let x := mxDesc d
  [(x.fa, 48), (x.fw, 56), (x.fy, 64)].filterMap (fun y => if y.1.tensor then some (fld d y.2 8, 4) else none)

/-- Matrix tile of a key 4 i + m. -/
def State.tile (s : State) (x : Nat) : MatrixTile := Tab.get .init s.mt x

/-- Change a matrix tile. -/
def State.onTile (s : State) (x : Nat) (f : MatrixTile → MatrixTile) : State := s.onMt (fun t => Tab.upd .init t x f)

/-- Tile x is in service, and so is its cluster. -/
def tileUp (s : State) (x : Nat) : Bool := clusterUp s (x / 4) && (s.tile x).st = .ok

/-- The bank loaded last. -/
def MatrixTile.last (t : MatrixTile) : Bank := if t.lastB then t.bankB else t.bankA

/-- The other bank. -/
def MatrixTile.other (t : MatrixTile) : Bank := if t.lastB then t.bankA else t.bankB

/-- A resident block holds (03 R68). -/
def residentOk (t : MatrixTile) (d : List Byte) : Bool :=
  let x := mxDesc d
  let b := t.last
  fld d 28 4 ≠ 0 && x.blocks = 1 && x.passes = 1 && b.loaded && b.tag = fld d 28 4 && b.fmt = fld d 13 1 &&
  (b.rows, b.cols) = x.stored (x.pass 0)

/-- The streams that a descriptor names are armed for the node in the right direction, with scale bytes where the operand
has block scales (07 R170). -/
def mxArmed (s : State) (cluster k n : Nat) (d : List Byte) : Bool :=
  let x := mxDesc d
  let ok (i : Nat) (out blk : Bool) : Bool :=
    let c := fld d (20 + i) 1
    if c = 0xFF || (c = 0xFE && i = 1) then true else
    match streamFor s (ctxKey cluster c) k n with
    | some st => sdOut st.desc == out && (!blk || sdScales st.desc)
    | none => false
  ok 0 false x.fa.block && ok 1 false x.fw.block && ok 2 true x.fy.block && ok 3 false false && ok 4 false false && ok 5 false false

/-- The node names its weight block resident (03 R68). -/
def mxResident (d : List Byte) : Bool := fld d 21 1 = 0xFE

/-- A run at anchor cycle 0. A resident node loads nothing: every block it needs is there. -/
def MxRun.fresh (k n : Nat) (d : List Byte) (sc sy : W32) (streams : List Stream) (rerun : Bool) (stale : BitVec 8) (newScales : List Nat) :
    MxRun :=
  { heat := k, node := n, desc := d, s := sc, sy, pass := 0, row := 0, loads := if mxResident d then (mxDesc d).total else 0, loadRow := 0,
    streams, rerun, stale, newScales, conv := { Conv.init with scale := sy }, ended := false }

/-- The tile a descriptor asks for: a tile, a wait, or none in service. -/
def mxTile (s : State) (cluster t : Nat) : Option (Option Nat) :=
  let l := if t = 0xFF then (upto 4).map (4 * cluster + ·) else [4 * cluster + t]
  let up := l.filter (tileUp s)
  if up.isEmpty then none else some (up.find? (fun x => (s.tile x).run.isNone))

/-- Start a MATRIX entry at its cluster, or end it, or leave it waiting. -/
def State.startMatrix (s : State) (cluster : Nat) (e : KEntry) : State :=
  let d := e.desc
  let refuse (st : Stat) := (s.unqueue cluster e.heat e.node).endNode e.heat e.node st id
  match mxCheck d with
  | .ok =>
    let t := fld d 15 1
    let named := t < 4 || t = 0xFF
    if named && mxTile s cluster t = some none then s else
    match mxScales s (flaskOfKey e.heat) d with
    | .error (some p, _) => s.pageFault (flaskOfKey e.heat) p (.desc e.heat e.node) (patienceOf s (flaskOfKey e.heat))
    | .error (none, st) => (refuse st).blameFirst (flaskOfKey e.heat) (mxScaleReads d) st
    | .ok (sc, sy) =>
      if !named then refuse .invalid else
      match mxTile s cluster t with
      | none => refuse .notPresent
      | some none => s
      | some (some x) =>
        match mxTail d with
        | .ok =>
          if mxResident d && !residentOk (s.tile x) d then refuse .invalid
          else if !mxArmed s cluster e.heat e.node d then refuse .invalid
          else
            (s.unqueue cluster e.heat e.node).onTile x (fun m => { m with
              run := some (.fresh e.heat e.node d sc sy (streamsAt s e.heat e.node) false 0 []), hold := none, held := 0, acc := [],
              cnt := if mxResident d then { m.cnt with resident := m.cnt.resident + 1 } else m.cnt })
        | st => refuse st
  | st => refuse st

/-- MATRIX_NODE_START. -/
def execMatrixNodeStart (cluster : Nat) (s : State) : Out :=
  done (match firstOfKind s cluster 1 with
    | some e => s.startMatrix cluster e
    | none => s)

/-! ## Weight loads (03 R67) -/

/-- The node on a tile fails. -/
def State.failMatrix (s : State) (r : MxRun) (st : Stat) : State := (s.failNode r.heat r.node st).settle

/-- Context of a stream field of the run on tile x. -/
def mxCtx (x : Nat) (d : List Byte) (i : Nat) : Nat := ctxKey (x / 4) (fld d (20 + i) 1)

/-- Change the shadow bank. -/
def MatrixTile.onOther (t : MatrixTile) (f : Bank → Bank) : MatrixTile := if t.lastB then { t with bankA := f t.bankA } else { t with bankB := f t.bankB }

/-- Change the run of a matrix tile. -/
def State.onMxRun (s : State) (x : Nat) (f : MxRun → MxRun) : State := s.onTile x (fun m => { m with run := m.run.map f })

/-- n further stored rows of the block enter the shadow bank from the stream W; the first makes its record void. -/
def State.loadRows (s : State) (x : Nat) (r : MxRun) (n w z rows cols : Nat) : State :=
  let cw := mxCtx x r.desc 1
  let (codes, scales) := peek s cw (n * w) (n * z)
  ((s.consume cw (n * w) (n * z)).onTile x (fun m => m.onOther (fun b =>
    let b := if r.loadRow = 0 then Bank.init else b
    { b with loaded := false, rows, cols, codes := b.codes ++ codes, scales := b.scales ++ scales }))).onMxRun x (fun r =>
      { r with loadRow := r.loadRow + n })

/-- The block of the pass is in the shadow bank, and so are its outlier weights: the bank is the one loaded last (03 R68). -/
def State.loadEnd (s : State) (x : Nat) (r : MxRun) (outl : List Byte) : State :=
  (s.onTile x (fun m => { m.onOther (fun b => { b with loaded := true, tag := fld r.desc 28 4, fmt := fld r.desc 13 1, outl }) with
    lastB := !m.lastB })).onMxRun x (fun r => { r with loads := r.loads + 1, loadRow := 0 })

/-- The outlier weights of the pass follow its stored rows, from the stream OW. -/
def State.loadOutliers (s : State) (x : Nat) (r : MxRun) (p : MxPass) : State :=
  let co := mxCtx x r.desc 5
  let no := 2 * p.ncols * p.on
  match supply s co r.heat r.node no 0 with
  | .beyond => (s.beyond co r.heat r.node false).settle
  | .wait => s.starve co
  | .ready =>
    let outl := (peek s co no 0).1
    (if no = 0 then s else s.consume co no 0).loadEnd x r outl

/-- The loader takes the stored rows of the pass's block one after another as they arrive (03 R67). -/
def State.loadBlock (s : State) (x : Nat) (r : MxRun) : State :=
  let g := mxDesc r.desc
  let p := g.pass r.loads
  let (rows, cols) := g.stored p
  let (w, z) := rowBytes g.fw cols
  let cw := mxCtx x r.desc 1
  let left := rows - r.loadRow
  if left = 0 then s.loadOutliers x r p else
  match supply s cw r.heat r.node w z, (s.ctx cw).cur with
  | .ready, some c =>
    let n := min left (min (c.avail / max 1 w) (if z = 0 then left else c.availS / z))
    let s := s.loadRows x r n w z rows cols
    if n = left then s.loadOutliers x r p else s
  | .beyond, _ => (s.beyond cw r.heat r.node false).settle
  | _, _ => s.starve cw

/-- WEIGHT_LOAD_DONE: the load for pass p + 1 begins at the first row cycle of pass p. While rows are missing the loader takes what has
arrived and goes on. -/
def execWeightLoadDone (tile : Nat) (s : State) : Out :=
  done (match (s.tile tile).run with
    | none => s
    | some r =>
      let g := mxDesc r.desc
      if tileUp s tile && !overran s r.heat r.node && r.loads < g.total && (r.loads = r.pass || (r.loads = r.pass + 1 && 0 < r.row)) then
        s.loadBlock tile r
      else s)

/-! ## Row cycles (03 R74 to R88) -/

/-- The bank that holds the block of the run's current pass. -/
def MatrixTile.block (t : MatrixTile) (r : MxRun) : Bank := if r.loads = r.pass + 1 || mxResident r.desc then t.last else t.other

/-- Rows that the run's next row cycle enters. -/
def MxRun.rows (r : MxRun) : List Nat :=
  let g := mxDesc r.desc
  let p := g.pass r.pass
  (upto g.mode.mpc).filterMap (fun i =>
    let m := g.mode.mpc * r.row + i
    if m < p.rows then some (p.m0 + m) else none)

/-- What the next row cycle takes of each stream: A, C, OA by data and scale bytes; Y the same. -/
structure RowNeed where
  a : Nat × Nat
  c : Nat
  oa : Nat
  y : Nat × Nat
  deriving DecidableEq, Repr

/-- The demands of the next row cycle. -/
def MxRun.need (r : MxRun) : RowNeed :=
  let g := mxDesc r.desc
  let p := g.pass r.pass
  let n := r.rows.length
  let a := rowBytes g.fa p.kn
  let y := rowBytes g.fy p.ncols
  { a := (n * a.1, n * a.2), c := if p.final && g.accC then n * 4 * p.ncols else 0, oa := n * 2 * p.on,
    y := if p.final then (n * y.1, n * y.2) else (0, 0) }

/-- Whether the next row cycle may issue. -/
inductive RowState where
  | go
  | hold (h : Hold) (xs : List Nat)
  /-- it reads or writes (`out`) beyond the last byte of the stream in context x (07 R170) -/
  | over (x : Nat) (out : Bool)
  deriving DecidableEq, Repr

/-- Duty of tile x's partition in sixteenths; 0 stands for no limit yet (19 R448, R460; notes/assumptions/113.md). -/
def dutyOf (s : State) (x : Nat) : Nat := let d := (Tab.get .init s.power.parts (x / 96)).d; if d = 0 then 16 else d

/-- The tile may issue: it is inside the duty window, which the model puts first in each frame of 4,096 ACLK cycles (19 R448;
DESIGN CHOICE, notes/assumptions/113.md). -/
def inWindow (d frame : Nat) : Bool := 16 ≤ d || frame < 4 * d

/-- The ceiling on the activity level: 16 inside the window, rising by 4 strips for each 64 cycles of the 192 before it and falling
so over the 192 after it (03 R86, 19 R448). -/
def dutyCeiling (d frame : Nat) : Nat :=
  if inWindow d frame then 16 else max (12 - 4 * (frame - 4 * d)) (if 61 ≤ frame then 4 * (frame - 60) else 0)

/-- The feeding streams of the run on tile x that a page fault has paused: of its operands, and of its weights (03 R88). -/
def pausedFeeds (s : State) (x : Nat) (r : MxRun) (l : List Nat) : List Nat :=
  (l.map (mxCtx x r.desc)).filter (fun y => (s.ctx y).st = .paused && (streamFor s y r.heat r.node).isSome)

/-- The test before a row cycle (03 R67, R86, R88, 19 R448). -/
def rowState (s : State) (x : Nat) (r : MxRun) : RowState :=
  let g := mxDesc r.desc
  let n := r.need
  let ins := [(mxCtx x r.desc 0, n.a.1, n.a.2), (mxCtx x r.desc 3, n.c, 0), (mxCtx x r.desc 4, n.oa, 0)]
  let st := ins.map (fun y => (y.1, supply s y.1 r.heat r.node y.2.1 y.2.2))
  let cy := mxCtx x r.desc 2
  let out := space s cy r.heat r.node n.y.1 n.y.2
  let paused := pausedFeeds s x r [0, 3, 4]
  let pausedW := pausedFeeds s x r [1, 5]
  if let some y := st.find? (fun y => y.2 == .beyond) then .over y.1 false
  else if !pausedW.isEmpty then .hold .wload pausedW
  else if r.loads ≤ r.pass then .hold .wload []
  else if !paused.isEmpty then .hold .opnd paused
  else if st.any (fun y => y.2 == .wait) then .hold .opnd ((st.filter (fun y => y.2 == .wait)).map (·.1))
  else if out = .beyond then .over cy true
  else if out = .wait then .hold .out [cy]
  else if !inWindow (dutyOf s x) (s.tile x).frame then .hold .cap []
  else if (s.tile x).level < g.strips (g.pass r.pass) then .hold .ramp []
  else .go

/-- One activation row against the block: the new accumulators of its outputs, and whether an operand was flushed. -/
def rowAccumulate (g : MxDesc) (p : MxPass) (b : Bank) (acc : Tab W32) (m : Nat) (av : List (FVal × Bool)) (ov : List (FVal × Bool)) :
    Tab W32 × Bool :=
  (upto p.ncols).foldl (fun (t : Tab W32 × Bool) j =>
    let w := (upto p.kn).map (fun k => if g.tr then b.weight g.cvt g.fw k j else b.weight g.cvt g.fw j k)
    let o := (upto p.on).map (fun k => b.outlier g.cvt p.on j k)
    let key := 256 * (m - p.m0) + j
    let v := accumulate g.mode.ob (Tab.get 0 acc key) ((av.zip w).map (fun y => fvMul y.1.1 y.2.1)) ((ov.zip o).map (fun y => fvMul y.1.1 y.2.1))
    (Tab.put t.1 key v, t.2 || w.any (·.2) || o.any (·.2))) (acc, av.any (·.2) || ov.any (·.2))

/-- What a drained row needs: conversion parameters of the run. -/
def MxRun.outCvt (r : MxRun) (nomix : Bool) : OutCvt :=
  let g := mxDesc r.desc
  { fmt := g.fy, cvt := g.cvt, scale := r.sy,
    gen := streamOf nomix (BitVec.ofNat 64 (fld r.desc 80 8)) (BitVec.ofNat 32 (fld r.desc 40 4)) }

/-- NOMIX of a flask (08 R189). -/
def nomixOf (s : State) (flask : Nat) : Bool := match s.flask? flask with | some f => f.nomix | none => false

/-- One row of the drain: v of every output, converted into Y (03 R80). -/
def rowDrain (r : MxRun) (cv : OutCvt) (p : MxPass) (acc : Tab W32) (m : Nat) (cs : List Byte) (conv : Conv) :
    Conv × List Byte × List Byte :=
  let g := mxDesc r.desc
  let vs := (upto p.ncols).map (fun j =>
    drainValue (Tab.get 0 acc (256 * (m - p.m0) + j)) r.s (if g.accC then BitVec.ofNat 32 (fld cs (4 * j) 4) else 0))
  cvtRow cv conv (m * g.n + p.n0) vs

/-- A row cycle issues. -/
def State.rowIssue (s : State) (x : Nat) (r : MxRun) : State :=
  let g := mxDesc r.desc
  let p := g.pass r.pass
  let n := r.need
  let t := s.tile x
  let b := t.block r
  let ca := mxCtx x r.desc 0
  let (ab, as_) := peek s ca n.a.1 n.a.2
  let cb := (peek s (mxCtx x r.desc 3) n.c 0).1
  let ob := (peek s (mxCtx x r.desc 4) n.oa 0).1
  let ra := rowBytes g.fa p.kn
  let cv := r.outCvt (nomixOf s (flaskOfKey r.heat))
  let acc0 : Tab W32 := if p.first && r.row = 0 then [] else t.acc
  let step (z : Tab W32 × Conv × List Byte × List Byte) (m : Nat × Nat) : Tab W32 × Conv × List Byte × List Byte :=
    let av := (upto p.kn).map (rowOperand g.cvt g.fa (slice ab (m.2 * ra.1) ra.1) (slice as_ (m.2 * ra.2) ra.2))
    let ov := (upto p.on).map (fun k => operand g.cvt .bf16 (fld ob (2 * (m.2 * p.on + k)) 2) none)
    let (acc, fl) := rowAccumulate g p b z.1 m.1 av ov
    let conv := if fl then { z.2.1 with flags := flagIf true 0 z.2.1.flags } else z.2.1
    if p.final then
      let (conv, yb, ys) := rowDrain r cv p acc m.1 (slice cb (m.2 * 4 * p.ncols) (4 * p.ncols)) conv
      (acc, conv, z.2.2.1 ++ yb, z.2.2.2 ++ ys)
    else (acc, conv, z.2.2.1, z.2.2.2)
  let (acc, conv, yb, ys) := r.rows.zipIdx.foldl step (acc0, r.conv, [], [])
  let s := if n.a.1 = 0 then s else s.consume ca n.a.1 n.a.2
  let s := if n.c = 0 then s else s.consume (mxCtx x r.desc 3) n.c 0
  let s := if n.oa = 0 then s else s.consume (mxCtx x r.desc 4) n.oa 0
  let cy := mxCtx x r.desc 2
  let (ny, ns) := match streamFor s cy r.heat r.node with
    | some c => (min (c.prog.size - c.made) c.room, min (c.scaleTotal - c.madeS) c.roomS)
    | none => (0, 0)
  let s := if yb.isEmpty || ny = 0 then s else s.produce cy (yb.take ny) (ys.take ns)
  let last := r.row + 1 = g.rowCycles p
  let r := { r with row := if last then 0 else r.row + 1, pass := if last then r.pass + 1 else r.pass, conv,
                    ended := last && r.pass + 1 = g.total }
  s.onTile x (fun m => { m with acc, run := some r, cnt := { m.cnt with
    rowIssue := m.cnt.rowIssue + 1
    stripDummy := m.cnt.stripDummy + (m.level - g.strips p)
    stripGated := m.cnt.stripGated + (16 - m.level) } })

/-- What the tile's error check found: a corrected error is counted, an uncorrectable one fails the node (03 R89, R90). -/
def State.tileEcc (s : State) (x : Nat) (ecc : Ecc) : Option State :=
  match ecc with
  | .clean => some s
  | .corrected => some (s.onTile x (fun m => { m with cnt := { m.cnt with eccCorr := m.cnt.eccCorr + 1 } }))
  | .uncorrectable => none

/-- Strip-cycles of n ACLK cycles without a row cycle (03 R86, R89). -/
def MatrixTile.idle (m : MatrixTile) (n : Nat) : MatrixTile :=
  { m with cnt := { m.cnt with stripDummy := m.cnt.stripDummy + n * m.level, stripGated := m.cnt.stripGated + n * (16 - m.level) } }

/-- A pass that continues its item waited for L beyond what R85 gives (03 R85, R89): its first row cycle counts the cycles. -/
def State.loopWait (s : State) (x : Nat) (r : MxRun) (loop : Nat) : State :=
  let p := (mxDesc r.desc).pass r.pass
  if r.row = 0 && !p.first then
    s.onTile x (fun m => let m := m.idle loop; { m with cnt := { m.cnt with holdLoop := m.cnt.holdLoop + loop } })
  else s

/-- ROW_CYCLE. -/
def execRowCycle (tile : Nat) (ecc : Ecc) (loop : Nat) (s : State) : Out :=
  done (match (s.tile tile).run with
    | none => s
    | some r =>
      if !tileUp s tile || r.ended || (s.tile tile).hold.isSome || overran s r.heat r.node then s else
      match rowState s tile r with
      | .over y false => (s.beyond y r.heat r.node false).settle
      | .over y true => (((s.rowIssue tile r).beyond y r.heat r.node true)).settle
      | .hold h xs => (xs.foldl State.starve s).onTile tile (fun m => { m with hold := some h, held := 0 })
      | .go =>
        match s.tileEcc tile ecc with
        | some s => (s.loopWait tile r loop).rowIssue tile r
        | none => s.failMatrix r .uncorrectable)

/-- Cycles of a hold by its kind; of a wait for a weight load, only those beyond R85 (03 R89, 19 R448). -/
def MtCounters.hold (c : MtCounters) (h : Hold) (cycles planned : Nat) : MtCounters :=
  match h with
  | .opnd => { c with holdOpnd := c.holdOpnd + cycles }
  | .wload => { c with holdWload := c.holdWload + (cycles - planned) }
  | .out => { c with holdOut := c.holdOut + cycles }
  | .ramp => { c with holdRamp := c.holdRamp + cycles }
  | .cap => { c with holdCap := c.holdCap + cycles }

/-- TILE_HOLD_RESUME (03 R88, R89): the hold's cause is gone; its cycles are counted, and the strip-cycles that the level steps of the
hold have not counted yet. -/
def execTileHoldResume (tile cycles planned : Nat) (waits : List (Nat × StallBy)) (s : State) : Out :=
  done (match (s.tile tile).run, (s.tile tile).hold with
    | some r, some h =>
      if rowState s tile r ≠ .go then s else
      (s.unstall r.heat r.node cycles waits).onTile tile (fun m =>
        let m := m.idle (cycles - m.held)
        { m with hold := none, held := 0, cnt := m.cnt.hold h cycles planned })
    | _, _ => s)

/-- The level a tile moves toward under a ceiling (03 R86): 0 over a long gap, the level of the last row cycle over a short one, with or
without a node on the tile; else the pass's strips, climbing in time for the next pass. -/
def levelTarget (t : MatrixTile) (gap ceiling : Nat) : Nat :=
  min ceiling (
    if 256 ≤ gap then 0 else
    match t.run with
    | none => t.level
    | some r =>
      let g := mxDesc r.desc
      if r.ended then t.level
      else
        let p := g.pass r.pass
        let here := g.strips p
        let next := if r.pass + 1 < g.total then g.strips (g.pass (r.pass + 1)) else 0
        let want := max here (next - 4 * ceilDiv (g.rowCycles p - r.row) 64)
        if 0 < gap && t.hold ≠ some .ramp then t.level else want)

/-- A level moves by at most 4 strips (03 R86). -/
def levelStep (level target : Nat) : Nat := if level < target then min target (level + 4) else max target (level - 4)

/-- The tile issues no row cycle: it has no node, its node's rows are over, or it holds. -/
def MatrixTile.still (t : MatrixTile) : Bool := (match t.run with | some r => r.ended | none => true) || t.hold.isSome

/-- ACTIVITY_LEVEL_STEP: every 64 ACLK cycles, the strip-cycles of a tile that issues no row cycle are counted at the level they had,
the level moves, and the duty frame goes on. -/
def execActivityLevelStep (tile gap : Nat) (s : State) : Out :=
  done (if clusterThere s (tile / 4) then
    s.onTile tile (fun m =>
      let n := if m.still then m.idle 64 else m
      let frame := (m.frame + 1) % 64
      { n with level := levelStep m.level (levelTarget m gap (dutyCeiling (dutyOf s tile) frame)), frame
               held := if m.hold.isSome then m.held + 64 else m.held })
  else s)

/-! ## The end of a node (02 R59, R60; 04 R97 to R102) -/

/-- Write the histogram records of a node, one for each output tensor, where HIST_EN is set. -/
def State.writeHist (s : State) (flask addr : Nat) (on : Bool) (cs : List Conv) : Got × State :=
  if on then s.tryWrite flask addr (cs.flatMap Conv.record) else (.ok [], s)

/-- Write new per-tensor scales: the line that holds one is read, its 4 bytes are replaced, and the line is written back (04 R101
step 2). -/
def State.writeScales (s : State) (flask : Nat) : List (Nat × W32) → Got × State
  | [] => (.ok [], s)
  | (a, w) :: t =>
    match s.tryPatch flask a (leBytes 4 w.toNat) with
    | (.ok _, s) => s.writeScales flask t
    | r => r

/-- What a re-run of a node that reads what it writes has written is undefined (04 R100). -/
def State.spoilRerun (s : State) (flask : Nat) (streams : List Stream) (rerun : Bool) : State :=
  if rerun && selfRead streams then
    (streams.flatMap Stream.whole).foldl (fun s y => s.undefineRange flask y.1 y.2) s
  else s

/-- A node waits for a page at its end, or goes on waiting. -/
def State.nodeWaits (s : State) (k n page : Nat) : State :=
  if s.faults.any (fun f => f.who == .desc k n) then s else s.pageFault (flaskOfKey k) page (.desc k n) (patienceOf s (flaskOfKey k))

/-- The status a stale check gives (04 R98). -/
def staleStat (pol : Nat) (stale : Bool) : Stat := if pol ≠ 2 && stale then .stale else .ok

/-- The node on tile x completes with a status, its summary byte and its flags; its streams end with it. -/
def State.closeMatrix (s : State) (x : Nat) (r : MxRun) (st : Stat) (summary : BitVec 8) : State :=
  let s := ((s.closeStreams r.heat r.node).onTile x (fun m => { m with run := none, hold := none, held := 0 })).spoilRerun
    (flaskOfKey r.heat) r.streams r.rerun
  (s.endNode r.heat r.node st (fun y => { y with
    stale := summary ||| (r.stale &&& 0x10), cvt := leBytes 4 (r.conv.flags.toNat % 256) })).settle

/-- MATRIX_NODE_END: the outputs are acknowledged, the histogram record is written, the stale check is made, and the node
ends or re-runs. Until the last write is acknowledged the row finds nothing to do. A refused scale write is the node's status, with the
first run's outputs and summary (04 R102, R103). -/
def execMatrixNodeEnd (tile : Nat) (s : State) : Out :=
  done (match (s.tile tile).run with
    | none => s
    | some r =>
      if !r.ended || overran s r.heat r.node || readWaits s r.heat r.node then s else
      let flask := flaskOfKey r.heat
      let s := s.flushOutputs r.heat r.node
      if !outputsDone s r.heat r.node then s else
      match s.writeHist flask (fld r.desc 72 8) ((fld r.desc 18 2).testBit 7) [r.conv] with
      | (.wait p, s) => s.nodeWaits r.heat r.node p
      | (.fail st, s) => s.failMatrix r st
      | (.ok _, s) =>
        let pol := fld r.desc 26 1
        let ck := staleCheck pol (fld r.desc 32 4) (fld r.desc 36 4) (replayable r.streams) r.rerun
          [{ fmt := fmtOr (fld r.desc 14 1), scaleAddr := fld r.desc 64 8, conv := r.conv }]
        if ck.rerun.isEmpty then s.closeMatrix tile r (staleStat pol ck.stale) ck.summary
        else
          match s.writeScales flask ck.rerun with
          | (.wait p, s) => s.nodeWaits r.heat r.node p
          | (.fail st, s) => s.closeMatrix tile r st ck.summary
          | (.ok _, s) =>
            match mxScales s flask r.desc with
            | .ok (sc, sy) => (s.rearm r.heat r.node).onTile tile (fun m => { m with
                run := some (.fresh r.heat r.node r.desc sc sy r.streams true ck.summary (ck.rerun.map (·.1))), hold := none, held := 0, acc := [] })
            | .error (some p, _) => s.nodeWaits r.heat r.node p
            | .error (none, st) => (s.failMatrix r st).blameFirst flask (mxScaleReads r.desc) st)

end Sys2Proof.Machine
end

