-- ==== Sys2Proof/Machine/Special.lean ====
section
/-!
DEFINITION. The special functions of a vector tile (05 R125): the exact value to more than a hundred bits, the error bound of
the table, and the result, which is free within the bound. Fixed-point numbers here have 128 fraction bits.
-/

namespace Sys2Proof.Machine

/-- Special functions by number, as the table of R125 lists them. -/
def sfnNum : SFn → Nat
  | .rcp => 0 | .rsqrt => 1 | .sqrt => 2 | .exp2 => 3 | .exp => 4 | .log2 => 5 | .ln => 6 | .tanh => 7 | .sigmoid => 8
  | .erf => 9 | .sin => 10 | .cos => 11 | .undef => 12

/-! ## Fixed point -/

/-- 1. -/
def fxOne : Nat := 2 ^ 128

/-- Product of two fixed-point numbers. -/
def fxMul (a b : Nat) : Nat := (a * b) >>> 128

/-- Quotient of two fixed-point numbers. -/
def fxDiv (a b : Nat) : Nat := (a <<< 128) / b

/-- ln 2, 1 ÷ ln 2, 2 π and 2 ÷ √π. -/
def fxLn2 : Nat := 0xb17217f7d1cf79abc9e3b39803f2f6af
def fxLog2E : Nat := 0x171547652b82fe1777d0ffda0d23a7d11
def fxTwoPi : Nat := 0x6487ed5110b4611a62633145c06e0e689
def fxErf : Nat := 0x120dd750429b6d11ae3a914fed7fd8688

/-- A value m × 2^e with its sign, rounded down. -/
def fxOf (neg : Bool) (m : Nat) (e : Int) : Int :=
  let k := e + 128
  if neg then -((if 0 ≤ k then m <<< k.toNat else m >>> (-k).toNat : Nat) : Int)
  else ((if 0 ≤ k then m <<< k.toNat else m >>> (-k).toNat : Nat) : Int)

/-- e^a of a fixed-point a below 1, by its series. -/
def fxExp (a : Nat) : Nat :=
  ((List.range 40).foldl (fun (x : Nat × Nat) k => (fxMul x.1 a / (k + 1), x.2 + fxMul x.1 a / (k + 1))) (fxOne, fxOne)).2

/-- 2^z of a fixed-point z, as a significand and an exponent. -/
def fxExp2 (z : Int) : Nat × Int := (fxExp (fxMul (z % fxOne).toNat fxLn2), z / fxOne - 128)

/-- z × c for a constant c. -/
def fxTimes (z : Int) (c : Nat) : Int := z * c / fxOne

/-- ln of a fixed-point number from 1 to below 2: 2 artanh((a − 1) ÷ (a + 1)). -/
def fxLn (a : Nat) : Nat :=
  let t := fxDiv (a - fxOne) (a + fxOne)
  2 * ((List.range 42).foldl (fun (x : Nat × Nat) k => (fxMul x.1 (fxMul t t), x.2 + x.1 / (2 * k + 1))) (t, 0)).2

/-- Sine of an angle below 2 π, from `first` 0; cosine from 1: the alternating series. -/
def fxTrig (r : Nat) (first : Nat) : Int :=
  let r2 := fxMul r r
  ((List.range 40).foldl (fun (x : Nat × Int) k =>
    let d := if first = 0 then (2 * k + 2) * (2 * k + 3) else (2 * k + 1) * (2 * k + 2)
    (fxMul x.1 r2 / d, x.2 + if k % 2 = 0 then (x.1 : Int) else -(x.1 : Int))) (if first = 0 then r else fxOne, 0)).2

/-! ## Exact values -/

/-- A fixed-point number as an exact value. -/
def fxVal (z : Int) : Dyadic := (z, -128)

/-- Smaller of a magnitude and 256, at which every bounded function has its limit to more than 150 bits. -/
def capped (m : Nat) (e : Int) : Nat × Int := if dyLt m e 256 0 then (m, e) else (256, 0)

/-- ln of a positive value m × 2^e, with the binary exponent apart: ln(x) = p ln 2 + ln(a). -/
def fxLogParts (m : Nat) (e : Int) : Int × Nat :=
  let p := (m.log2 : Int) + e
  (p, fxLn ((m <<< 128) >>> m.log2))

/-- erf(x) ÷ x × √π ÷ 2, for a fixed-point x below 6: e^(−x²) Σ (2 x²)^n ÷ (2 n + 1)!!. -/
def fxErfRatio (x : Nat) : Nat :=
  let x2 := fxMul x x
  let sum := ((List.range 200).foldl (fun (y : Nat × Nat) n =>
    (fxMul y.1 (2 * x2) / (2 * n + 3), y.2 + y.1)) (fxOne, 0)).2
  let (g, k) := fxExp2 (fxTimes (-(x2 : Int)) fxLog2E)
  (g * sum) >>> (-k).toNat

/-- The exact value of a special function, to more than 100 bits, of a finite operand outside the special values (05 R125). -/
def sfnExact (fn : SFn) (neg : Bool) (m : Nat) (e : Int) : Dyadic :=
  match fn with
  | .rcp => let (q, k) := dyDiv 1 0 m e; dyOf neg q k
  | .rsqrt =>
    let m2 := if e % 2 = 0 then m else 2 * m
    let e2 := if e % 2 = 0 then e else e - 1
    (Nat.sqrt (2 ^ 256 / m2), -128 - e2 / 2)
  | .exp2 => let (g, k) := fxExp2 (fxOf neg m e); (g, k)
  | .exp => let (g, k) := fxExp2 (fxTimes (fxOf neg m e) fxLog2E); (g, k)
  | .log2 => let (p, a) := fxLogParts m e; fxVal (p * fxOne + fxTimes a fxLog2E)
  | .ln => let (p, a) := fxLogParts m e; fxVal (p * fxLn2 + a)
  | .tanh =>
    let (m, e) := capped m e
    let (g, k) := fxExp2 (fxTimes (fxOf true (2 * m) e) fxLog2E)
    let q := g >>> (-k - 128).toNat
    dyOf neg (fxDiv (fxOne - q) (fxOne + q)) (-128)
  | .sigmoid =>
    let (m, e) := capped m e
    let (g, k) := fxExp2 (fxTimes (fxOf true m e) fxLog2E)
    let q := g >>> (-k - 128).toNat
    if neg then (fxDiv g (fxOne + q), k) else fxVal (fxDiv fxOne (fxOne + q))
  | .erf =>
    if dyLt m e 6 0 then dyMul (dyOf neg m e) (dyMul (fxVal (fxErfRatio (fxOf false m e).toNat)) (fxVal fxErf))
    else dyOf neg 1 0
  | .sin => fxVal (fxTrig (fxOf neg m e % fxTwoPi).toNat 0)
  | .cos => fxVal (fxTrig (fxOf neg m e % fxTwoPi).toNat 1)
  | .sqrt | .undef => (0, 0)

/-! ## Bounds -/

/-- Units of the last place that the table allows a function, where it gives its bound so (05 R125). -/
def sfnUlps : SFn → Nat
  | .rcp | .rsqrt | .exp2 | .log2 => 1
  | .exp | .ln | .tanh => 2
  | .sigmoid | .erf => 3
  | .sqrt | .sin | .cos | .undef => 1

/-- ulp(y) of R125 as a power of two. -/
def ulpExp (y : Dyadic) : Int := if y.1 = 0 then -149 else max ((y.1.natAbs.log2 : Int) + y.2) (-126) - 23

/-- The bound of a function at an operand m × 2^e with the exact result y, with 2^−16 of an ulp or 2^−38 over it, since y is
known to some hundred bits only (05 R125; notes/assumptions/10.md). -/
def sfnBound (fn : SFn) (m : Nat) (e : Int) (y : Dyadic) : Nat × Int :=
  let near := !dyLt m e 1 (-1) && !dyLt 2 0 m e
  let abs := (2 ^ 16 + 1, (-38 : Int))
  match fn with
  | .sin | .cos => if dyLt 256 0 m e then ((2 ^ 16 + 1) * m, e - 46) else abs
  | .log2 | .ln => if near then abs else (sfnUlps fn * 2 ^ 16 + 1, ulpExp y - 16)
  | fn => (sfnUlps fn * 2 ^ 16 + 1, ulpExp y - 16)

/-- A word lies within a bound of an exact value. -/
def within (w : W32) (y : Dyadic) (b : Nat × Int) : Bool :=
  match f32 w with
  | .fin n m e => let d := dyAdd (dyOf n m e) (-y.1, y.2); !dyLt b.1 b.2 d.1.natAbs d.2
  | _ => false

/-- The result of a special function outside its special values: the free value of the function and the operand where it keeps
the bound of R125, and the nearest word otherwise (notes/assumptions/10.md). -/
def sfnResult (fn : SFn) (x : W32) : W32 :=
  match f32 x with
  | .fin n m e =>
    let y := sfnExact fn n m e
    let w := Config.sfn (sfnNum fn) x
    if within w y (sfnBound fn m e y) then w else f32OfDyadic false y
  | _ => x

end Sys2Proof.Machine
end

