-- ==== Sys2Proof/Machine/VectorMath.lean ====
section
/-!
DEFINITION. Arithmetic of a vector tile (05 R105, R106, R116, R124, R125): FP32 rounded toward zero, integers, special
functions, reductions.
-/

namespace Sys2Proof.Machine

/-- FP32 word of a non-zero exact value rounded toward zero; beyond the range, the largest finite value (05 R105). -/
def rtz (neg : Bool) (m : Nat) (e : Int) : W32 :=
  BitVec.ofNat 32 (codeOf .fp32 neg (if m = 0 then 0 else min (gridPos .fp32 m e).1 Fmt.fp32.maxIdx))

/-- The canonical NaN with the sign of the first NaN operand, if one is NaN (05 R106). -/
def firstNan (ws : List W32) : Option W32 := (ws.find? f32IsNan).map (fun w => f32Nan (f32Neg w))

/-- Exact sum of two exact values, none a NaN, rounded once toward zero (05 R105, R106). -/
def sumRtz (a b : FVal) : W32 :=
  match a, b with
  | .inf n, .inf m => if n = m then f32Inf n else f32Nan false
  | .inf n, _ => f32Inf n
  | _, .inf n => f32Inf n
  | .fin n m d, .fin p q e =>
    if m = 0 && q = 0 then BitVec.ofNat 32 (codeOf .fp32 (n && p) 0)
    else
      let t := dyAdd (dyOf n m d) (dyOf p q e)
      if t.1 = 0 then 0 else rtz (t.1 < 0) t.1.natAbs t.2
  | _, _ => f32Nan false

/-- Exact product of two exact values, none a NaN; 0 × ∞ is no value. -/
def mulExact (a b : FVal) : Option FVal := match fvMul a b with | .nan _ => none | v => some v

/-- a + b. -/
def vAdd (a b : W32) : W32 := (firstNan [a, b]).getD (sumRtz (f32 a) (f32 b))

/-- The sign turned. -/
def f32Flip (w : W32) : W32 := w ^^^ 0x80000000

/-- a − b. -/
def vSub (a b : W32) : W32 := (firstNan [a, b]).getD (sumRtz (f32 a) (f32 (f32Flip b)))

/-- a × b. -/
def vMul (a b : W32) : W32 :=
  (firstNan [a, b]).getD (match mulExact (f32 a) (f32 b) with
    | none => f32Nan false
    | some (.fin n m e) => rtz n m e
    | some v => f32Of v)

/-- a × b + c, or a × b − c when `sub`, with one rounding. -/
def vFma (sub : Bool) (a b c : W32) : W32 :=
  (firstNan [a, b, c]).getD (match mulExact (f32 a) (f32 b) with
    | none => f32Nan false
    | some p => sumRtz p (f32 (if sub then f32Flip c else c)))

/-- Order of the non-NaN words with −0 below +0 (05 R106). -/
def totalKey (w : W32) : Int := if f32Neg w then -(f32Mag w : Int) - 1 else f32Mag w

/-- MIN. -/
def vMin (a b : W32) : W32 := (firstNan [a, b]).getD (if totalKey b < totalKey a then b else a)

/-- MAX. -/
def vMax (a b : W32) : W32 := (firstNan [a, b]).getD (if totalKey a < totalKey b then b else a)

/-- A comparison; with a NaN false, except NE (05 R106). −0 equals +0. -/
def vCmp (op : VaOp) (a b : W32) : Bool :=
  let nan := f32IsNan a || f32IsNan b
  let x := f32Key a
  let y := f32Key b
  match op with
  | .eq => !nan && x == y
  | .ne => nan || x != y
  | .lt => !nan && x < y
  | .le => !nan && x ≤ y
  | .gt => !nan && y < x
  | .ge => !nan && y ≤ x
  | _ => false

/-- What an element operation gives: a word, a predicate bit, or no such operation. -/
inductive ElemOut where
  | word (w : W32)
  | flag (b : Bool)
  | none
  deriving DecidableEq, Repr

/-- Class VA on one element (05 R105, R106, R116). -/
def vaElem (op : VaOp) (a b c : W32) : ElemOut :=
  match op with
  | .add => .word (vAdd a b)
  | .sub => .word (vSub a b)
  | .mul => .word (vMul a b)
  | .fma => .word (vFma false a b c)
  | .fms => .word (vFma true a b c)
  | .min => .word (vMin a b)
  | .max => .word (vMax a b)
  | .abs => .word ((firstNan [a]).getD (a &&& 0x7FFFFFFF))
  | .neg => .word ((firstNan [a]).getD (f32Flip a))
  | .undef => .none
  | op => .flag (vCmp op a b)

/-- Class VI on one element; `u` is the result of a shift by 32 or more, which the manual does not give
(notes/assumptions/27.md). -/
def viElem (op : ViOp) (u a b : W32) : ElemOut :=
  match op with
  | .add => .word (a + b)
  | .sub => .word (a - b)
  | .mullo => .word (a * b)
  | .shl => .word (if b.toNat < 32 then a <<< b.toNat else u)
  | .shr => .word (if b.toNat < 32 then a >>> b.toNat else u)
  | .sar => .word (if b.toNat < 32 then a.sshiftRight b.toNat else u)
  | .and => .word (a &&& b)
  | .or => .word (a ||| b)
  | .xor => .word (a ^^^ b)
  | .eq => .flag (a == b)
  | .ne => .flag (a != b)
  | .lt => .flag (a.slt b)
  | .le => .flag (a.sle b)
  | .ltu => .flag (a.ult b)
  | .leu => .flag (a.ule b)
  | .undef => .none

/-- Floor of the square root. -/
def isqrt (n : Nat) : Nat := Nat.sqrt n

/-- SQRT of a positive finite value, rounded toward zero (05 R125). -/
def sqrtRtz (m : Nat) (e : Int) : W32 :=
  let e2 := if e % 2 = 0 then e else e - 1
  let m2 := if e % 2 = 0 then m else 2 * m
  rtz false (isqrt (m2 <<< 64)) (e2 / 2 - 32)

/-- x < n / d for a finite FP32 word. -/
def f32Below (w : W32) (n : Int) (d : Nat) : Bool :=
  match f32 w with
  | .fin s m e => let z := dyOf s m e
                  if 0 ≤ z.2 then z.1 * 2 ^ z.2.toNat * d < n else z.1 * d < n * 2 ^ (-z.2).toNat
  | _ => false

/-- 1.0. -/
def f32One : W32 := 0x3F800000

/-- A special function (05 R125): the special values of the table, else the value within its bound
(notes/assumptions/10.md). -/
def vfElem (fn : SFn) (x : W32) : W32 :=
  let neg := f32Neg x
  let zero := f32Mag x = 0
  let inf := f32IsInf x
  let other := sfnResult fn x
  if f32IsNan x then f32Nan neg else
  match fn with
  | .rcp => if zero then f32Inf neg else if inf then BitVec.ofNat 32 (codeOf .fp32 neg 0)
      else if f32Mag x ≤ 0x00200000 then f32Inf neg else other
  | .rsqrt => if zero then f32Inf neg else if neg then f32Nan false else if inf then 0 else other
  | .sqrt => if zero then x else if neg then f32Nan false else if inf then x
      else match f32 x with | .fin _ m e => sqrtRtz m e | _ => x
  | .exp2 => if inf then (if neg then 0 else x) else if !f32Below x 128 1 then f32Inf false
      else if f32Below x (-150) 1 then 0 else other
  | .exp => if inf then (if neg then 0 else x) else if !f32Below x 887228 10000 then f32Inf false
      else if f32Below x (-103972) 1000 then 0 else other
  | .log2 | .ln => if zero then f32Inf true else if neg then f32Nan false else if inf then x else other
  | .tanh => if inf then (if neg then 0xBF800000 else f32One) else if f32Mag x < 0x39800000 then x else other
  | .sigmoid => if inf then (if neg then 0 else f32One) else other
  | .erf => if inf then (if neg then 0xBF800000 else f32One) else other
  | .sin | .cos => if inf || 0x47800000 < f32Mag x then f32Nan false else other
  | .undef => x

/-- One level of the reduction tree: x_e = op(x_e, x_(e+h)) for e below h (05 R124). -/
def treeLevel (op : W32 → W32 → W32) (h : Nat) (l : List W32) : List W32 := ((l.take h).zip ((l.drop h).take h)).map (fun p => op p.1 p.2)

/-- The reduction of 64 values: h = 32, 16, 8, 4, 2, 1 (05 R124). -/
def treeReduce (op : W32 → W32 → W32) (l : List W32) : W32 :=
  ([32, 16, 8, 4, 2, 1].foldl (fun l h => treeLevel op h l) l).headD 0

/-- Operation and neutral value of a reduction (05 R124). -/
def vrOp : VrOp → Option ((W32 → W32 → W32) × W32)
  | .sum => some (vAdd, 0)
  | .max => some (vMax, f32Inf true)
  | .min => some (vMin, f32Inf false)
  | .undef => none

/-- FP32 to a 32-bit integer, toward zero, saturating; NaN gives 0 (05 R123). -/
def toInt (w : W32) : W32 :=
  match f32 w with
  | .nan _ => 0
  | .inf n => if n then 0x80000000 else 0x7FFFFFFF
  | .fin n m e =>
    let a := if 0 ≤ e then m <<< e.toNat else m >>> (-e).toNat
    if n then (if 2 ^ 31 ≤ a then 0x80000000 else BitVec.ofInt 32 (-(a : Int)))
    else if 2 ^ 31 ≤ a then 0x7FFFFFFF else BitVec.ofNat 32 a

/-- A 32-bit integer to FP32, rounded to nearest even, or stochastically with the word u (05 R123). -/
def fromInt (stoch : Bool) (u : W32) (w : W32) : W32 :=
  let z := w.toInt
  if z = 0 then 0
  else if stoch then BitVec.ofNat 32 (codeOf .fp32 (z < 0) (stochasticIdx .fp32 z.natAbs 0 u.toNat))
  else f32OfInt z

/-- FP32 word of an exact value with its sign kept, rounded to nearest even. -/
def f32Load : FVal → W32
  | .nan n => f32Nan n
  | .inf n => f32Inf n
  | .fin n m e => if m = 0 then BitVec.ofNat 32 (codeOf .fp32 n 0) else BitVec.ofNat 32 (roundIeee .fp32 n m e)

/-- A loaded element g × 2^e, its source flush done, times its per-tensor scale, converted into FP32 and rounded to nearest even (02 R47,
R50, R53, 05 R120). -/
def loadElem (cvt : BitVec 16) (f : FmtByte) (sc : W32) (v : FVal) : CvtOut :=
  convert v .ig4 .fp32 (cvt &&& 0xFFFE) (if f.tensor then (posNormal? sc).getD (1, 0) else (1, 0)) 0 0

/-- What a conversion to an integer leaves in its slot: FP32 subnormals that FLUSH_FP32 flushes set FLUSHED (02 R50, 05 R123). -/
def toIntOut (cvt : BitVec 16) (w : W32) : CvtOut :=
  ⟨0, flushSet cvt .fp32 && (match f32 w with | .fin _ m e => subnormalVal .fp32 m e | _ => false), false, false⟩

end Sys2Proof.Machine
end

