-- ==== Sys2Proof/Machine/Hearth.lean ====
section
/-!
DEFINITION. Hearth engines and base dies (06): the dispatch checks, the gang start, GEMV and ATTN, slots and refresh.
-/

namespace Sys2Proof.Machine

/-! ## Checks (06 R151) -/

/-- The first two rows of R151: fields in range, then the formats. -/
def heForm (d : List Byte) : Bool :=
  let at_ := heAttn d
  (fld d 0 1 = 1 || fld d 0 1 = 2) && heStack d < 8 && heFirst d < 64 && 1 ≤ heCount d && heFirst d + heCount d ≤ 64 &&
  1 ≤ heB d && heB d ≤ 8 && (if at_ then heK d = 64 || heK d = 128 else 1 ≤ heK d && heK d ≤ 65536) &&
  (if at_ then heNE d = 0 else 1 ≤ heNE d && heNE d ≤ 4096) && fld d 16 1 ≤ 2 && fld d 17 1 ≤ 1 &&
  (if at_ then 1 ≤ fld d 18 2 && fld d 18 2 ≤ 4096 else fld d 18 2 = 0) &&
  (!at_ || (fld d 32 8 = 0 && fld d 40 8 = 0)) && (at_ || (fld d 88 8 = 0 && fld d 96 4 = 0)) && heY d % 64 = 0 && zeroIn d 100 127

/-- Rows 1 to 4 of R151. -/
def heCheck (d : List Byte) : Stat :=
  let fw := fld d 1 1
  if !heForm d then .invalid
  else if fld d 2 1 ≠ 1 || 1 < fld d 3 1 || fw % 16 < 3 || (heAttn d && fw % 16 = 5) then .unsupported
  else match fmtByte fw with
    | .error true => .unsupported
    | .error false => .invalid
    | .ok f =>
      if heAttn d && !(f.block && !f.tensor) then .invalid
      else if (!heAttn d && 196608 < heB d * heKp d) || 4096 < heB d * heNE d then .invalid
      else .ok

/-- An entry of a page list: virtual address and V, where its form holds (06 R150). -/
def pageEntry (b : List Byte) : Option (Nat × Nat) :=
  let v := fld b 0 8
  let a := bits v 47 0
  let n := bits v 54 48
  if bits v 63 55 = 0 && a % 64 = 0 && 1 ≤ n && n ≤ 64 then some (a, n) else none

/-- Row 5 of R151 up to its reads. -/
def heAddr (d : List Byte) : Bool :=
  scaleAddrOk (fmtOr (fld d 1 1)) (fld d 64 8) && heCvt d < 256 && (!(heCvt d).getLsbD 7 || (fld d 72 8 ≠ 0 && fld d 72 8 % 64 = 0)) &&
  (!heAttn d || (posNormal? (BitVec.ofNat 32 (fld d 96 4))).isSome)

/-- What a held dispatch keeps of its check: the descriptor, the scale, and the page list once it is read (06 R151). -/
abbrev HeHeld := Option (List Byte × W32 × List (Nat × Nat))

/-- The page list of an ATTN node, with the check of its entries. -/
def hePageList (s : State) (flask : Nat) (d : List Byte) : Except (Option Nat × Stat) (List (Nat × Nat)) :=
  match readFlask s flask (fld d 88 8) (8 * fld d 18 2) with
  | .wait p => .error (some p, .ok)
  | .fail st => .error (none, st)
  | .ok b =>
    let l := (upto (fld d 18 2)).map (fun i => pageEntry (slice b (8 * i) 8))
    if l.all (·.isSome) then .ok (l.filterMap id) else .error (none, .invalid)

/-- The reads of row 5: the scale, once, and the page list; a read that waits leaves what is read already (06 R151). -/
def heReads (s : State) (flask : Nat) (d : List Byte) (held : HeHeld) : Except (Option Nat × HeHeld × Stat) (W32 × List (Nat × Nat)) :=
  let scale : ScaleRead := match held with
    | some (_, w, _) => .ok w
    | none => if heAddr d then readScale s flask (fmtOr (fld d 1 1)) (fld d 64 8) else .fail .invalid
  match scale with
  | .wait p => .error (some p, none, .ok)
  | .fail st => .error (none, none, st)
  | .ok w =>
    match held with
    | some (_, _, x :: l) => .ok (w, x :: l)
    | _ =>
      match (if heAttn d then hePageList s flask d else .ok []) with
      | .error (p, st) => .error (p, some (d, w, []), st)
      | .ok l => .ok (w, l)

/-- Those reads, in their order, for what has failed. -/
def heReadsOf (d : List Byte) : List (Nat × Nat) :=
  (if (fmtOr (fld d 1 1)).tensor then [(fld d 64 8, 4)] else []) ++ (if heAttn d then [(fld d 88 8, 8 * fld d 18 2)] else [])

/-! ## Translation (06 R142, R152) -/

/-- What a range of a node must be. -/
inductive HeUse where
  /-- inside the slice of this engine -/
  | slice (e : Nat)
  | x
  | y
  | hist
  deriving DecidableEq, Repr

/-- A piece of a range translates where its use asks; a page that is not resident makes it wait. -/
def heCut (s : State) (flask : Nat) (d : List Byte) (u : HeUse) (c : Nat × Nat) : Got :=
  match locate s flask c.1 with
  | (.bad, _) => .fail .invalid
  | (.host _, _) => .fail .invalid
  | (.out p, _) => .wait p
  | (.dev a, w) =>
    let inStack := match ctlOf a with | some (k, _) => k == heStack d | none => false
    let good := match u with
      | .slice e => sliceOf s a == some (heStack d, e)
      | .x => inStack && (sliceOf s a).isNone
      | .y => w && (if fld d 17 1 = 0 then inStack else decide (sramBase ≤ a ∧ a < sramBase + 96 * sramWindow))
      | .hist => w && !(decide (bramBase ≤ a ∧ a < bramBase + 96 * bramWindow))
    if good then .ok [] else .fail .invalid

/-- The ranges that a node touches, with what each must be. A page that lies in no slice of the node's engines names
engine 64, which no slice has. -/
def heRanges (s : State) (flask : Nat) (d : List Byte) (pages : List (Nat × Nat)) : List (HeUse × Nat × Nat) :=
  let (lw, ls) := heLines d
  let own (e : Nat) : Bool := heFirst d ≤ e && e < heFirst d + heCount d
  (if heAttn d then pages.map (fun p =>
      let e := (pageEngine s flask p.1).getD (heFirst d)
      (HeUse.slice (if own e then e else 64), p.1, kvBytes (heK d)))
    else (upto (heCount d)).map (fun j => (HeUse.slice (heFirst d + j), fld d 32 8 + j * fld d 40 8, 64 * (lw + ls)))) ++
  [(.x, fld d 48 8, heXBytes d), (.y, heY d, heCount d * heYBytes d)] ++
  (if (heCvt d).getLsbD 7 then [(HeUse.hist, fld d 72 8, 320)] else [])

/-- Translate every range (06 R152). -/
def heTranslate (s : State) (flask : Nat) (d : List Byte) (l : List (HeUse × Nat × Nat)) : Got :=
  l.foldl (fun g r => match g with
    | .ok _ => (cuts r.2.1 r.2.2).foldl (fun g c => match g with | .ok _ => heCut s flask d r.1 c | g => g) g
    | g => g) (.ok [])

/-- The flask's pages that a set of ranges touches. -/
def touchedPages (f : Flask) (l : List (HeUse × Nat × Nat)) : List Nat :=
  (l.flatMap (fun r => (cuts r.2.1 r.2.2).filterMap (fun c => (pageOf f c.1).map (·.1)))).dedup

/-- What the checks of a HEARTH dispatch come to; while a page is waited for, what has been read is held. -/
inductive HePrep where
  | wait (page : Nat) (held : HeHeld)
  | fail (st : Stat)
  | ok (n : HNode)
  deriving DecidableEq, Repr

/-- 06 R151 and R152 for node n of heat k; `held` is what an earlier check of the same dispatch has read. -/
def hearthPrep (s : State) (k n : Nat) (d : List Byte) (held : HeHeld) : HePrep :=
  let flask := flaskOfKey k
  match s.flask? flask with
  | none => .fail .notPresent
  | some f =>
    match heCheck d with
    | .ok =>
      match heReads s flask d held with
      | .error (some p, h, _) => .wait p h
      | .error (none, _, st) => .fail st
      | .ok (w, pages) =>
        let es := (upto (heCount d)).map (fun j => 64 * heStack d + heFirst d + j)
        if !es.all (fun e => f.hearth.contains e) then .fail .invalid
        else if !ctlUp s (heStack d) || es.any (fun e => (Tab.get .init s.he e).st ≠ .ok) then .fail .notPresent
        else
          let l := heRanges s flask d pages
          match heTranslate s flask d l with
          | .wait p => .wait p (some (d, w, pages))
          | .fail st => .fail st
          | .ok _ => .ok { heat := k, node := n, desc := d, scale := w, pages, pinned := touchedPages f l, xs := [], phase := phaseOf s k n,
                           since := s.time, begun := 0 }
    | st => .fail st

/-! ## Gang start (06 R145, R153) -/

/-- A node uses engine e of its stack. -/
def HNode.uses (h : HNode) (e : Nat) : Bool := heFirst h.desc ≤ e && e < heFirst h.desc + heCount h.desc

/-- Two nodes share an engine. -/
def HNode.overlaps (h g : HNode) : Bool :=
  heFirst h.desc < heFirst g.desc + heCount g.desc && heFirst g.desc < heFirst h.desc + heCount h.desc

/-- The first queued node whose engines are free of running nodes and of nodes queued before it (06 R153). -/
def firstGang (running : List HNode) : List HNode → List HNode → Option HNode
  | _, [] => none
  | before, h :: t => if (running ++ before).any h.overlaps then firstGang running (before ++ [h]) t else some h

/-- Change every engine of a node. -/
def State.onGang (s : State) (h : HNode) (f : Nat → Engine → Engine) : State :=
  (upto (heCount h.desc)).foldl (fun s j => s.onEngine (64 * heStack h.desc + heFirst h.desc + j) (f j)) s

/-- DETAIL of a HEARTH node's record: the first failing engine's number plus 1, or 0 (09 R205). -/
def heDetail (e : Option Nat) : Nat := match e with | some e => e % 64 + 1 | none => 0

/-- A running or queued node fails, at an engine or on its own account. -/
def State.failHearth (s : State) (h : HNode) (st : Stat) (e : Option Nat) : State :=
  (s.failNodeWith h.heat h.node st (fun n => { n with detail := heDetail e })).settle

/-- The first engine of a list that is not in service. -/
def firstDown (s : State) (es : List Nat) : Option Nat := es.find? (fun e => (Tab.get .init s.he e).st ≠ .ok)

/-- Cycles that engine j of a node has waited for the node's other engines: from its own last end, or the dispatch, to the last of theirs
(06 R153; HCLK is 1 GHz). -/
def gangWait (s : State) (h : HNode) (j : Nat) : Nat :=
  let free (j : Nat) : Nat := max h.since (Tab.get .init s.he (64 * heStack h.desc + heFirst h.desc + j)).freeAt
  ((upto (heCount h.desc)).map free).foldl max 0 - free j

/-- HEARTH_GANG_START: the node leaves the queue and X is broadcast into the XS of its engines; a failed engine ends it. -/
def execHearthGangStart (stack : Nat) (s : State) : Out :=
  done (
    let b := s.die stack
    match firstGang (b.runs.map (·.2)) [] b.queue with
    | none => s
    | some h =>
      let es := (upto (heCount h.desc)).map (fun j => 64 * stack + heFirst h.desc + j)
      if !ctlUp s stack || es.any (fun e => (Tab.get .init s.he e).st ≠ .ok) then s.failHearth h .notPresent (firstDown s es)
      else match readFlask s (flaskOfKey h.heat) (fld h.desc 48 8) (heXBytes h.desc) with
        | .ok xs =>
          (s.onDie stack (fun b => { b with
            queue := b.queue.filter (fun q => !(q.heat == h.heat && q.node == h.node))
            runs := Tab.put b.runs b.nextRun { h with xs, begun := s.time }, nextRun := b.nextRun + 1 })).onGang h
              (fun j e => { e with waitX := e.waitX + ceilDiv (heXBytes h.desc) 512, waitGang := e.waitGang + gangWait s h j })
        | .wait _ => s
        | .fail st => (s.blame (flaskOfKey h.heat) (fld h.desc 48 8) (heXBytes h.desc) st).failHearth h st none)

/-! ## GEMV (06 R143, R146) -/

/-- Scale lines and weight lines of a slice, apart: with scale lines, one leads every g weight lines. -/
def splitLines (g : Nat) (bs : List Byte) : List Byte × List Byte :=
  (chunks (64 * (g + 1)) bs.length bs).foldl (fun acc c => (acc.1 ++ c.take 64, acc.2 ++ c.drop 64)) ([], [])

/-- Scale bytes and weight bytes of engine j's slice. -/
def heWeights (d : List Byte) (bs : List Byte) : List Byte × List Byte :=
  let f := fmtOr (fld d 1 1)
  if f.block then splitLines (if f.fmt = .ig4 then 16 else 32) bs else ([], bs)

/-- Element i of X. -/
def heX (xs : List Byte) (i : Nat) : FVal := decodeCode .bf16 (fld xs (2 * i) 2)

/-- The accumulator of row r and vector b, and whether an operand was flushed. -/
def gemvAcc (h : HNode) (scl wts : List Byte) (b r : Nat) : W32 × Bool :=
  let d := h.desc
  let f := fmtOr (fld d 1 1)
  let kp := heKp d
  let ops := (upto (ceilTo (heK d) 16)).map (fun k => rowOperand (heCvt d) f wts scl (r * kp + k))
  (accumulate 16 0 ((ops.zipIdx).map (fun x => fvMul x.1.1 (heX h.xs (b * kp + x.2)))) [], ops.any (·.2))

/-- v of an accumulator: times S. -/
def gemvValue (h : HNode) (acc : W32) : W32 := f32Of (fvMul (f32 acc) (f32 h.scale))

/-- How a HEARTH node's output is converted. -/
def heOut (s : State) (h : HNode) : OutCvt :=
  { fmt := fmtOr (fld h.desc 3 1), cvt := heCvt h.desc, scale := 0x3F800000,
    gen := streamOf (nomixOf s (flaskOfKey h.heat)) (BitVec.ofNat 64 (fld h.desc 80 8)) (BitVec.ofNat 32 (fld h.desc 28 4)) }

/-- Set FLUSHED where an operand was flushed (03 R77). -/
def Conv.flushedIf (c : Conv) (b : Bool) : Conv := if b then { c with flags := flagIf true 0 c.flags } else c

/-- The entries of an accumulator SRAM from a list of values. -/
def accTab (l : List W32) : Tab W32 := l.mapIdx (fun i w => (i, w))

/-- The result block of engine j, and its accumulators, entry NE b + r (06 R140, R148; notes/assumptions/123.md). -/
def gemvBlock (cv : OutCvt) (h : HNode) (j : Nat) (bs : List Byte) (c : Conv) : Conv × List Byte × Tab W32 :=
  let d := h.desc
  let (scl, wts) := heWeights d bs
  let n := heCount d * heNE d
  let (c, y, a) := (upto (heB d)).foldl (fun (acc : Conv × List Byte × List W32) b =>
    let vs := (upto (heNE d)).map (gemvAcc h scl wts b)
    let (c, y, _) := cvtRow cv (acc.1.flushedIf (vs.any (·.2))) (b * n + j * heNE d) (vs.map (fun v => gemvValue h v.1))
    (c, acc.2.1 ++ y, acc.2.2 ++ vs.map (·.1))) (c, [], [])
  (c, padTo (heYBytes d) y, accTab a)

/-! ## ATTN (06 R144, R147) -/

/-- A query's running triple. -/
structure Triple where
  m : W32
  l : W32
  o : List W32
  deriving DecidableEq, Repr

/-- (−∞, +0, +0). -/
def Triple.init (d : Nat) : Triple := { m := f32Inf true, l := 0, o := List.replicate d 0 }

/-- Element (t, i) of the K part (off 0) or V part (off 66 d) of a page. -/
def kvElem (d : List Byte) (pg : List Byte) (off t i : Nat) : FVal × Bool :=
  let k := heK d
  operand (heCvt d) (fmtOr (fld d 1 1)).fmt (fld pg (off + t * k + i) 1) (some (fld pg (off + 64 * k + t * k / 32 + i / 32) 1))

/-- EXP of the exponential unit: bit-identical to the vector tile's (05 R125). -/
def heExp (x : W32) : W32 := vfElem .exp x

/-- One page of v valid tokens into the triple of query i. -/
def attnPage (h : HNode) (i : Nat) (pg : List Byte) (v : Nat) (t : Triple) : Triple × Bool :=
  let d := h.desc
  let k := heK d
  let sm := f32 (BitVec.ofNat 32 (fld d 96 4))
  let ks := (upto v).map (fun x => (upto k).map (kvElem d pg 0 x))
  let vs := (upto v).map (fun x => (upto k).map (kvElem d pg (66 * k) x))
  let sc := ks.map (fun row =>
    f32Of (fvMul (f32 (accumulate 16 0 ((row.zipIdx).map (fun y => fvMul y.1.1 (heX h.xs (i * k + y.2)))) [])) sm))
  let m := sc.foldl vMax t.m
  let c := f32 (heExp (f32Sum (f32 t.m) (f32 (f32Flip m))))
  let p := sc.map (fun x => f32 (heExp (f32Sum (f32 x) (f32 (f32Flip m)))))
  let step (acc : W32) (first : Bool) (g : FVal) : W32 := if first then f32Of (groupSum [fvMul (f32 acc) c, g]) else f32Sum (f32 acc) g
  let fold (acc : W32) (xs : List FVal) : W32 :=
    ((chunks 16 xs.length xs).foldl (fun (a : W32 × Bool) g => (step a.1 a.2 (groupSum g), false)) (acc, true)).1
  ({ m, l := fold t.l p,
     o := (t.o.zipIdx).map (fun y => fold y.1 ((p.zip vs).map (fun z => fvMul z.1 ((z.2.getD y.2 (.fin false 0 0, false)).1)))) },
   (ks ++ vs).any (fun row => row.any (·.2)))

/-- The records of engine j: its pages in list order, each query's triple (06 R147, R148); its accumulators hold the queries' O
(notes/assumptions/123.md). -/
def attnBlock (cv : OutCvt) (h : HNode) (j : Nat) (pgs : List (List Byte × Nat)) (c : Conv) : Conv × List Byte × Tab W32 :=
  let d := h.desc
  let k := heK d
  let (c, y, a) := (upto (heB d)).foldl (fun (acc : Conv × List Byte × List W32) i =>
    let (t, fl) := pgs.foldl (fun (a : Triple × Bool) p =>
      let (t, f) := attnPage h i p.1 p.2 a.1
      (t, a.2 || f)) (Triple.init k, false)
    let (c, y, _) := cvtRow cv (acc.1.flushedIf fl) ((j * heB d + i) * k) t.o
    (c, acc.2.1 ++ padTo (ceilTo (8 + k * heWidth d) 64) (leBytes 4 t.m.toNat ++ leBytes 4 t.l.toNat ++ y), acc.2.2 ++ t.o)) (c, [], [])
  (c, y, accTab a)

/-! ## The end of a node (06 R149, R153, R157) -/

/-- What engine j of a node reads over the hearth path: ranges, each with its count of tokens. -/
def engineRanges (s : State) (h : HNode) (j : Nat) : List (Nat × Nat × Nat) :=
  let d := h.desc
  let (lw, ls) := heLines d
  if heAttn d then
    (h.pages.filter (fun p => pageEngine s (flaskOfKey h.heat) p.1 == some (heFirst d + j))).map (fun p => (p.1, kvBytes (heK d), p.2))
  else [(fld d 32 8 + j * fld d 40 8, 64 * (lw + ls), 0)]

/-- The bytes of an engine's weights, or of its pages in list order with their counts. -/
def engineReads (s : State) (h : HNode) (j : Nat) : Except Stat (List (List Byte × Nat)) :=
  (engineRanges s h j).foldl (fun acc x => match acc with
    | .error e => .error e
    | .ok r => match readFlask s (flaskOfKey h.heat) x.1 x.2.1 with
      | .ok b => .ok (r ++ [(b, x.2.2)])
      | .fail st => .error st
      | .wait _ => .error .invalid) (.ok [])

/-- The result packets of engine e of a stack, where the node's results go to cluster SRAM: they leave by the controller port of the
engine's pseudo-channel (06 R150, 01 R28). -/
def State.resultTrips (s : State) (h : HNode) (eng a : Nat) (y : List Byte) : State × Stat :=
  if fld h.desc 17 1 = 0 then (s, .ok) else
  let src := stackPort (heStack h.desc) eng
  (tripsOf s (flaskOfKey h.heat) a y.length false true y).foldl (fun (acc : State × Stat) t =>
    if acc.2 ≠ .ok then acc else
    let (v, s) := acc.1.draw
    match s.sends src (t.flit s src (flaskOfKey h.heat) (v % 65536) 0) true with
    | (s, true) => ((s.sends (t.dest s) (t.answer s src (flaskOfKey h.heat) (v % 65536)) true).1, .ok)
    | (s, false) => (s, .notPresent)) (s, .ok)

/-- One engine's part: its result block is written, and its counters advance. -/
def State.engineRun (s : State) (h : HNode) (j : Nat) (c : Conv) : Except Stat (Conv × State) :=
  let d := h.desc
  match engineReads s h j with
  | .error st => .error st
  | .ok r =>
    let cv := heOut s h
    let (c, y, acc) := if heAttn d then attnBlock cv h j r c else gemvBlock cv h j ((r.headD ([], 0)).1) c
    match s.tryWrite (flaskOfKey h.heat) (heY d + j * heYBytes d) y with
    | (.ok _, s) =>
      let (s, st) := s.resultTrips h (heFirst d + j) (heY d + j * heYBytes d) y
      if st ≠ .ok then .error st else
      let (lines, mac, _) := heWork d r.length
      .ok (c, s.onEngine (64 * heStack d + heFirst d + j) (fun e => { e with
        linesRead := e.linesRead + lines, macCycles := e.macCycles + mac, nodes := e.nodes + 1, acc, freeAt := s.time }))
    | (.fail st, _) => .error st
    | (.wait _, _) => .error .invalid

/-- Every engine's part, in ascending order; the status and engine of the first that fails. -/
def State.gangRun (s : State) (h : HNode) : Except (Stat × Nat) (Conv × State) :=
  (upto (heCount h.desc)).foldl (fun acc j => match acc with
    | .error e => .error e
    | .ok (c, s) => match s.engineRun h j c with
      | .ok r => .ok r
      | .error st => .error (st, heFirst h.desc + j)) (.ok (Conv.init, s))

/-- Device pieces that engine j of a node reads. -/
def enginePieces (s : State) (h : HNode) (j : Nat) : List (Nat × Nat) :=
  (engineRanges s h j).flatMap (fun r => (cuts r.1 r.2.1).filterMap (fun c => match (locate s (flaskOfKey h.heat) c.1).1 with
    | .dev a => some (a, c.2)
    | _ => none))

/-- Some engine of a node reads the line at device address l. -/
def HNode.readsLine (s : State) (h : HNode) (l : Nat) : Bool :=
  (upto (heCount h.desc)).any (fun j => (enginePieces s h j).any (fun p => p.1 ≤ l && l < p.1 + p.2))

/-- What the run of a node found, before its results: corrected errors in its engines' SRAMs and the waits of result lines for the
controller port (06 R157), and the errors of the lines that it read (12 R289). -/
def State.gangFindings (s : State) (h : HNode) (how : HearthEnd) : State :=
  let base := 64 * heStack h.desc
  let s := (how.corrected.filter (fun x => h.uses x.1)).foldl (fun (s : State) x =>
    s.onEngine (base + x.1) (fun e => { e with eccCorr := e.eccCorr + x.2 })) s
  let s := if fld h.desc 17 1 = 0 then s else (how.outWait.filter (fun x => h.uses x.1)).foldl (fun (s : State) x =>
    s.onEngine (base + x.1) (fun e => { e with waitOut := e.waitOut + x.2 })) s
  (how.lines.filter (fun x => h.readsLine s (ctlBase (heStack h.desc) + x.1))).foldl (fun (s : State) x =>
    s.checkLine (heStack h.desc) x.1 x.2) s

/-- Lines that this run's own reads have poisoned. -/
def freshBad (s : State) (h : HNode) (how : HearthEnd) : List Nat :=
  (how.lines.filter (fun x => !x.2.flips.isEmpty && (lineRead s (heStack h.desc) x.1 x.2).bad)).map (fun x =>
    ctlBase (heStack h.desc) + x.1 / 64 * 64)

/-- The poisoned lines that the failing engine read count, but for those that its own read poisoned (12 R289). -/
def State.blameEngine (s : State) (h : HNode) (e : Nat) (fresh : List Nat) (st : Stat) : State :=
  if st ≠ .uncorrectable then s else
  ((enginePieces s h (e - heFirst h.desc)).flatMap (fun p => (s.poisonIn p.1 p.2).filter (fun l => !fresh.contains l))).foldl
    (fun (s : State) l => s.countPoison l 64) s

/-- HEARTH_NODE_END: what the run found, then the results are written, then the node's records, and its engines and pages are free
again. -/
def execHearthNodeEnd (stack run : Nat) (how : HearthEnd) (s : State) : Out :=
  done (match Tab.find? (s.die stack).runs run with
    | none => s
    | some h =>
      let fresh := freshBad s h how
      let s := s.gangFindings h how
      if (match how.bad with | some e => h.uses e | none => false) then s.failHearth h .uncorrectable how.bad else
      match s.gangRun h with
      | .error (st, e) => (s.blameEngine h e fresh st).failHearth h st (some e)
      | .ok (c, s) =>
        let d := h.desc
        let flask := flaskOfKey h.heat
        match s.writeHist flask (fld d 72 8) ((heCvt d).getLsbD 7) [c] with
        | (.fail st, s) => s.failHearth h st none
        | (.wait _, s) => s
        | (.ok _, s) =>
          let pol := fld d 16 1
          let ck := staleCheck pol (fld d 20 4) (fld d 24 4) true false
            [{ fmt := fmtOr (fld d 3 1), scaleAddr := 0, conv := c }]
          let s := (s.onDie stack (fun b => { b with runs := Tab.del b.runs run })).unpin flask h.pinned
          s.endNode h.heat h.node (staleStat pol ck.stale) (fun x => { x with
            stale := ck.summary, cvt := leBytes 4 (c.flags.toNat % 256) }))

/-! ## Failures -/

/-- A unit fails in service: its defect entry, then event 0x0A (18 R434, 20 R463, R478). -/
def State.unitFailed (s : State) (kind place : Nat) : State :=
  (s.addDefect kind 3 place 0).devEvent 0x0A .notPresent kind place

/-- Nodes queued at or running on an engine of a stack. -/
def nodesOnEngine (s : State) (stack e : Nat) (queued : Bool) : List HNode :=
  ((if queued then (s.die stack).queue else []) ++ (s.die stack).runs.map (·.2)).filter (fun h => h.uses e)

/-- HEARTH_ENGINE_FAIL (06 R158): the engine is failed, its running node is discarded. -/
def execHearthEngineFail (stack engine : Nat) (s : State) : Out :=
  done (
    let x := 64 * stack + engine
    if 8 ≤ stack || 64 ≤ engine || (Tab.get .init s.he x).st = .failed then s else
    let hit := nodesOnEngine s stack engine false
    let s := (s.onEngine x (fun e => { e with st := .failed })).unitFailed 3 (stack + 8 * engine)
    hit.foldl (fun s h => s.failHearth h .discarded (some engine)) s)

/-! ## Slots and refresh (06 R155 to R157, 12 R280) -/

/-- EXT_RESERVE of `HB.ARB` as it acts (06 R156). -/
def extReserve (b : BaseDie) : Nat := min 8 (bits b.arb.toNat 3 0)

/-- Who gets a slot; an external request by its number. -/
inductive Slot where
  | refresh
  | ext (id : Nat)
  | hearth
  | free
  deriving DecidableEq, Repr

/-- 06 R155, R156: an external request is urgent by its deadline tag, or by its age. HCLK is 1 GHz. -/
def urgentReq (b : BaseDie) (r : ExtReq) : Bool :=
  let u := bits b.arb.toNat 23 16
  (u ≠ 0 && r.tag ≤ 16 * u) || 8 * max 1 (bits b.arb.toNat 15 8) ≤ r.waited

/-- The oldest of some requests. -/
def oldestReq (l : List ExtReq) : Option ExtReq :=
  l.foldl (fun (b : Option ExtReq) r => match b with
    | none => some r
    | some q => if q.waited < r.waited then some r else b) none

/-- A request may use a bank: the one refreshed last may still be under refresh (12 R280). -/
def bankOpen (ch : PChan) (c : SlotClaims) (bank : Nat) : Bool := !(c.refreshing && bank == (ch.bank + 15) % 16)

/-- 06 R155: who gets the slot, class by class and the oldest within a class; the external path takes at most `most` slots of a window,
and a failed engine claims nothing. -/
def slotGrant (b : BaseDie) (most : Nat) (ch : PChan) (failed : Bool) (c : SlotClaims) : Slot :=
  let ext := if ch.ext < most then c.ext.filter (fun r => bankOpen ch c r.bank) else []
  let hearth := !failed && (match c.hearth with | some r => bankOpen ch c r.bank | none => false)
  if c.refresh then .refresh else
  match oldestReq (ext.filter (urgentReq b)), oldestReq ext with
  | some r, _ => .ext r.id
  | none, some r => if ch.ext < extReserve b || !hearth then .ext r.id else .hearth
  | none, none => if hearth then .hearth else .free

/-- External slots per window: 8, or 4 while limit acts on the stack (06 R155, 19 R457). -/
def extMost (s : State) (stack : Nat) : Nat := if s.power.stackLimit.contains stack then 4 else 8

/-- The counters of a pseudo-channel's engine over one slot: who had it, and what the hearth path waited for (06 R157). -/
def Engine.slot (e : Engine) (g : Slot) (c : SlotClaims) : Engine :=
  let e := match g with
    | .refresh => { e with slotRefresh := e.slotRefresh + 1 }
    | .ext _ => { e with slotExt := e.slotExt + 1 }
    | .hearth => { e with slotHearth := e.slotHearth + 1 }
    | .free => e
  match c.hearth with
  | some r => if g = .hearth then e else if r.out then { e with waitOut := e.waitOut + 1 }
    else if r.starved then { e with waitSlot := e.waitSlot + 1 } else e
  | none => e

/-- HBM_SLOT_GRANT: one HCLK cycle of a pseudo-channel. -/
def execHbmSlotGrant (stack pc : Nat) (claims : SlotClaims) (s : State) : Out :=
  done (
    if 64 ≤ pc || !ctlUp s stack || 8 ≤ stack then s else
    let b := s.die stack
    let ch := Tab.get .init b.chans pc
    let x := 64 * stack + pc
    let failed := (Tab.get .init s.he x).st == .failed
    let c := if failed then { claims with hearth := none } else claims
    let g := slotGrant b (extMost s stack) ch failed c
    let got := match g with | .ext id => some id | _ => none
    (s.onEngine x (fun e => e.slot g c)).onDie stack (fun b => { b with chans := Tab.put b.chans pc { ch with
      cycle := (ch.cycle + 1) % 16
      ext := if ch.cycle = 15 then 0 else if got.isSome then ch.ext + 1 else ch.ext
      granted := got } }))

/-- HBM_REFRESH: the pseudo-channel refreshes its next bank. -/
def execHbmRefresh (stack pc : Nat) (s : State) : Out :=
  done (
    if 64 ≤ pc || 8 ≤ stack || !ctlUp s stack then s else
    (s.onDie stack (fun b => { b with chans := Tab.upd .init b.chans pc (fun c => { c with bank := (c.bank + 1) % 16 }) })).onCtl stack
      (fun m => { m with refreshes := m.refreshes + 1 }))

end Sys2Proof.Machine
end

