-- ==== Sys2Proof/Machine/Vector.lean ====
section
/-!
DEFINITION. Vector tiles (05, 08 R192 to R197): nodes, registers, circular buffers, loops, loads and stores, contexts.
-/

namespace Sys2Proof.Machine

/-! ## Instruction words and registers (05 R107 to R115) -/

/-- Fields of R115. -/
def wCls (w : W64) : Nat := bits w.toNat 63 60
def wOp (w : W64) : Nat := bits w.toNat 59 54
def wStage (w : W64) : Nat := bits w.toNat 53 51
def wPred (w : W64) : Nat := bits w.toNat 50 48
def wPneg (w : W64) : Bool := w.getLsbD 47
def wD (w : W64) : Nat := bits w.toNat 46 41
def wA (w : W64) : Nat := bits w.toNat 40 35
def wB (w : W64) : Nat := bits w.toNat 34 29
def wC (w : W64) : Nat := bits w.toNat 28 23
def wImm (w : W64) : Nat := bits w.toNat 22 0

/-- Physical index of a vector register (05 R109). -/
def VectorTile.phys (t : VectorTile) (r : Nat) : Nat := if r < 32 then r else 32 + (r - 32 + t.rrb) % 32

/-- The elements of a vector register. -/
def VectorTile.vec (t : VectorTile) (r : Nat) : List W32 := (upto 64).map (fun e => Tab.get 0 t.v (64 * t.phys r + e))

/-- A scalar register; s0 reads 0 (05 R107). A register field of six bits beyond its file names the register modulo the file's size, here
and for p, a and c (DESIGN CHOICE, notes/assumptions/115.md). -/
def VectorTile.sreg (t : VectorTile) (i : Nat) : W32 := if i % 32 = 0 then 0 else Tab.get 0 t.s (i % 32)

/-- Write a scalar register; s0 ignores it. -/
def VectorTile.setS (t : VectorTile) (i : Nat) (w : W32) : VectorTile := if i % 32 = 0 then t else { t with s := Tab.put t.s (i % 32) w }

/-- A predicate register; p0 reads all ones (05 R107). -/
def VectorTile.preg (t : VectorTile) (i : Nat) : W64 := if i % 8 = 0 then BitVec.allOnes 64 else Tab.get 0 t.p (i % 8)

/-- Write a predicate register; p0 ignores it. -/
def VectorTile.setP (t : VectorTile) (i : Nat) (w : W64) : VectorTile := if i % 8 = 0 then t else { t with p := Tab.put t.p (i % 8) w }

/-- Element e is active (05 R108). -/
def VectorTile.active (t : VectorTile) (w : W64) (e : Nat) : Bool := (t.preg (wPred w)).getLsbD e != wPneg w

/-- Write the active elements of a vector register. -/
def VectorTile.setV (t : VectorTile) (w : W64) (r : Nat) (vals : List W32) : VectorTile :=
  let b := 64 * t.phys r
  { t with v := vals.zipIdx.foldl (fun v x => if t.active w x.2 then Tab.put v (b + x.2) x.1 else v) t.v }

/-- Write the active bits of a predicate register. -/
def VectorTile.setFlags (t : VectorTile) (w : W64) (r : Nat) (vals : List Bool) : VectorTile :=
  let old := (t.preg r).toNat
  let n := vals.zipIdx.foldl (fun n x => if t.active w x.2 then setBits n x.2 x.2 (if x.1 then 1 else 0) else n) old
  t.setP r (BitVec.ofNat 64 n)

/-- An address register. -/
def VectorTile.areg (t : VectorTile) (i : Nat) : AReg := Tab.get .init t.a (i % 16)

/-- A descriptor. -/
def VectorTile.cdesc (t : VectorTile) (i : Nat) : CDesc := Tab.get .init t.c (i % 8)

/-- A write to an address register is taken mod LEN of its descriptor (05 R111). -/
def VectorTile.setA (t : VectorTile) (i : Nat) (off : Nat) : VectorTile :=
  { t with a := Tab.upd .init t.a (i % 16) (fun a => { a with off := off % max 1 (t.cdesc a.bind).len }) }

/-- Post-increment (05 R111). -/
def VectorTile.incA (t : VectorTile) (i : Nat) (inc : Int) : VectorTile :=
  { t with a := Tab.upd .init t.a (i % 16) (fun a =>
      { a with off := (((a.off : Int) + inc) % (max 1 (t.cdesc a.bind).len : Nat)).toNat }) }

/-- A vector tile, by 2 i + v. -/
def State.vtile (s : State) (x : Nat) : VectorTile := Tab.get .init s.vt x

/-- Change a vector tile. -/
def State.onVtile (s : State) (x : Nat) (f : VectorTile → VectorTile) : State := s.onVt (fun t => Tab.upd .init t x f)

/-- The tile and its cluster are in service. -/
def vtileUp (s : State) (x : Nat) : Bool := clusterUp s (x / 2) && (s.vtile x).st = .ok

/-- Change the run of a tile. -/
def State.onRun (s : State) (x : Nat) (f : VxRun → VxRun) : State := s.onVtile x (fun t => { t with run := t.run.map f })

/-- The node on a tile ends with a status, reporting the PC of the instruction that fails, if it is one (05 R128, 09 R205). -/
def State.failVector (s : State) (x : Nat) (r : VxRun) (st : Stat) : State :=
  let pc := if r.issuing && !r.ended then (s.vtile x).pc % 4096 else 0
  ((s.stopUnits (fun a b => a == r.heat && b == r.node)).endNode r.heat r.node st (fun n => { n with detail := pc })).settle

/-! ## The lane map (05 R130) -/

/-- Healthy physical lanes of a tile, in ascending order. -/
def VectorTile.healthy (t : VectorTile) : List Nat := (upto 68).filter (fun l => !t.badLanes.contains l)

/-- Physical lane and pass of logical element e; none on a tile that has failed its self-test. -/
def VectorTile.laneOf (t : VectorTile) (e : Nat) : Option (Nat × Nat) :=
  let h := t.healthy
  if 64 ≤ h.length then h[e]?.map (fun l => (l, 0))
  else if 32 ≤ h.length then h[e % 32]?.map (fun l => (l, e / 32))
  else none

/-! ## Issue (05 R114 to R117, R128) -/

/-- What an instruction comes to: done, done with its own PC, waiting on the stream in a context, waiting for a page, the end of the node
by a stream, or by a status. -/
inductive VRes where
  | go (s : State)
  | jump (s : State)
  | starve (y : Nat)
  | page (va : Nat)
  | stop (s : State)
  | fail (st : Stat)

/-- PC, loop stack and RRB after an instruction (05 R113, R114): the branch back at a body's end. -/
def endLoops : List LoopEnt → Nat → Nat → Nat × List LoopEnt × Nat
  | [], pc, rrb => (pc, [], rrb)
  | l :: t, pc, rrb =>
    if pc = l.start + l.body then
      let rrb := if l.rot then (rrb + 31) % 32 else rrb
      if l.iter + 1 < l.trips + l.stages - 1 then (l.start, { l with iter := l.iter + 1 } :: t, rrb) else endLoops t pc rrb
    else (pc, l :: t, rrb)

/-- The PC moves to pc. -/
def VectorTile.goto (t : VectorTile) (pc : Nat) : VectorTile :=
  let (p, l, r) := endLoops t.loops pc t.rrb
  { t with pc := p, loops := l, rrb := r }

/-- Whether the STAGE field lets an instruction execute; none when it is out of place (05 R114). -/
def stageRuns (t : VectorTile) (w : W64) : Option Bool :=
  let k := wStage w
  match t.loops with
  | l :: _ => if 1 < l.stages then (if l.stages ≤ k then none else some (k ≤ l.iter && l.iter < l.trips + k))
              else if k = 0 then some true else none
  | [] => if k = 0 then some true else none

/-- Counts of an issue (05 R137). -/
def VtCounters.issue (c : VtCounters) (i : VIssue) (pair : Bool) : VtCounters :=
  { c with pair := c.pair + (if pair then 1 else 0), dep := c.dep + i.dep, stream := c.stream + i.stream,
           sram := c.sram + i.sram, sfu := c.sfu + i.sfu, cap := c.cap + i.cap,
           eccCorr := c.eccCorr + (if i.ecc = .corrected then 1 else 0) }

/-- Slot of a class (05 R116). -/
def slotA (cls : Nat) : Bool := cls ≤ 4 || cls = 10

/-- s0 and p0 take no write, so that nothing depends on one (05 R107). -/
def VReg.real : VReg → Bool
  | .v _ => true
  | .s i => i % 32 ≠ 0
  | .p i => i % 8 ≠ 0

/-- A vector register by its physical index, and scalar and predicate registers within their files. -/
def VectorTile.rv (t : VectorTile) (r : Nat) : VReg := .v (t.phys r)
def rs (i : Nat) : VReg := .s (i % 32)
def rp (i : Nat) : VReg := .p (i % 8)

/-- The instruction at PC may issue in the cycle of the one before it: that one is of slot A, stands before it in the same loop body, and
writes no register of `regs`, which this one, of slot B, reads or writes (05 R117). -/
def VectorTile.mayPair (t : VectorTile) (cls : Nat) (regs : List VReg) : Bool :=
  match t.lastA with
  | some (pc, ws) => !slotA cls && pc + 1 = t.pc && !ws.any (fun r => r.real && regs.contains r)
  | none => false

/-- The first of a pair that the instruction at PC can be: of slot A and not the last of its body. -/
def VectorTile.asFirst (t : VectorTile) (cls : Nat) (regs : List VReg) : Option (Nat × List VReg) :=
  let last := match t.loops with | l :: _ => l.start + l.body = t.pc + 1 | [] => false
  if slotA cls && !last then some (t.pc, regs) else none

/-- Key of an instruction's CLASS and OP in `State.vops`. -/
def opKey (w : W64) : Nat := 64 * wCls w + wOp w

/-- Number of an OP that its class does not define. -/
def undefOp : Nat := 63

/-- Issue the instruction at PC when it is of the class and its OP names operation `num` (05 R114 to R117): the first issue of an OP
fixes what it names (notes/assumptions/19.md). Running past the program, or a misplaced STAGE, ends the node; an instruction outside
its stage is a no-op. `regs` are the registers that a slot-A instruction writes, or a slot-B one reads and writes. An instruction that
waits has no effect yet. -/
def State.issueV (s : State) (i : VIssue) (cls : Nat → Bool) (num : Nat) (regs : VectorTile → W64 → List VReg)
    (body : VectorTile → VxRun → W64 → State → VRes) : State :=
  let x := i.tile
  let t := s.vtile x
  match t.run with
  | none => s
  | some r =>
    if !vtileUp s x || !r.issuing || r.ended || overran s r.heat r.node || readWaits s r.heat r.node then s
    else if r.progLen ≤ t.pc then s.failVector x r .invalid
    else
      let w := t.imem.getD t.pc 0
      if !cls (wCls w) || (Tab.find? s.vops (opKey w)).getD num ≠ num then s else
      let s0 := s.onVops (fun v => Tab.put v (opKey w) num)
      let runs := stageRuns t w
      let rg := if runs = some true then regs t w else []
      let s1 := (s0.onVtile x (fun m => { m with cnt := m.cnt.issue i (i.paired && t.mayPair (wCls w) rg) })).unstall r.heat r.node i.stream i.waits
      let next (s : State) := s.onVtile x (fun m => { m.goto (m.pc + 1) with lastA := t.asFirst (wCls w) rg })
      let count (s : State) := s.onVtile x (fun m => { m with lastA := none, cnt := { m.cnt with instr := m.cnt.instr + 1 } })
      match runs with
      | none => s1.failVector x r .invalid
      | some false => next s1
      | some true =>
        match body t r w s1 with
        | .starve y => s0.starve y
        | .page p => s0.nodeWaits r.heat r.node p
        | res =>
          if i.ecc = .uncorrectable then s1.failVector x r .uncorrectable else
          match res with
          | .go s => next (count s)
          | .jump s => count s
          | .stop s => s
          | .fail st => s1.failVector x r st
          | _ => s1

/-- An instruction that only changes its tile. -/
def State.issueT (s : State) (i : VIssue) (cls num : Nat) (regs : VectorTile → W64 → List VReg)
    (f : VectorTile → VxRun → W64 → Option VectorTile) : State :=
  s.issueV i (· == cls) num regs (fun t r w s => match f t r w with
    | some t' => .go (s.onVtile i.tile (fun m => { t' with cnt := m.cnt }))
    | none => .fail .invalid)

/-! ## Element operations (05 R105, R116, R123 to R125) -/

/-- Write the results of an element operation: words into vD, flags into pD; none when the operation does not exist. -/
def VectorTile.setOut (t : VectorTile) (w : W64) (l : List ElemOut) : Option VectorTile :=
  if l.any (· == .none) then none
  else if l.any (fun o => match o with | .flag _ => true | _ => false) then
    some (t.setFlags w (wD w) (l.map (fun o => match o with | .flag b => b | _ => false)))
  else some (t.setV w (wD w) (l.map (fun o => match o with | .word v => v | _ => 0)))

/-- Element-wise map of three registers. -/
def map3 (f : W32 → W32 → W32 → ElemOut) (a b c : List W32) : List ElemOut := ((a.zip b).zip c).map (fun x => f x.1.1 x.1.2 x.2)

/-- Numbers of the operations of a class, for `State.vops`; an undefined one has `undefOp`. -/
def vaNum : VaOp → Nat
  | .add => 0 | .sub => 1 | .mul => 2 | .fma => 3 | .fms => 4 | .min => 5 | .max => 6 | .abs => 7 | .neg => 8
  | .eq => 9 | .ne => 10 | .lt => 11 | .le => 12 | .gt => 13 | .ge => 14 | .undef => undefOp
def viNum : ViOp → Nat
  | .add => 0 | .sub => 1 | .mullo => 2 | .shl => 3 | .shr => 4 | .sar => 5 | .and => 6 | .or => 7 | .xor => 8
  | .eq => 9 | .ne => 10 | .lt => 11 | .le => 12 | .ltu => 13 | .leu => 14 | .undef => undefOp
def vfNum (fn : SFn) : Nat := if fn = .undef then undefOp else sfnNum fn
def vrNum : VrOp → Nat
  | .sum => 0 | .max => 1 | .min => 2 | .undef => undefOp
def prNum : PrOp → Nat
  | .and => 0 | .or => 1 | .xor => 2 | .not => 3 | .mov => 4 | .fromCount => 5 | .undef => undefOp
def scNum : ScOp → Nat
  | .iadd => 0 | .isub => 1 | .imullo => 2 | .shl => 3 | .shr => 4 | .sar => 5 | .and => 6 | .or => 7 | .xor => 8
  | .fadd => 9 | .fsub => 10 | .fmul => 11 | .fma => 12 | .fmin => 13 | .fmax => 14 | .movImm _ => 15
  | .load _ => 16 | .store _ => 17 | .sFromA _ => 18 | .aFromS _ => 19 | .undef => undefOp

/-- The register that an element operation writes: a comparison's predicate, else a vector register. -/
def outReg (flag : Bool) (t : VectorTile) (w : W64) : List VReg := if flag then [rp (wD w)] else [t.rv (wD w)]

/-- VECTOR_ARITHMETIC, class VA (05 R105, R106). -/
def execVectorArithmetic (i : VIssue) (op : VaOp) (s : State) : Out :=
  done (s.issueT i 0 (vaNum op) (outReg (9 ≤ vaNum op)) (fun t _ w => t.setOut w (map3 (vaElem op) (t.vec (wA w)) (t.vec (wB w)) (t.vec (wC w)))))

/-- VECTOR_INTEGER, class VI. A shift by 32 or more leaves a free value (notes/assumptions/27.md). -/
def execVectorInteger (i : VIssue) (op : ViOp) (s : State) : Out :=
  done (
    let f := s.free
    (s.onFree (· + 64)).issueT i 1 (viNum op) (outReg (9 ≤ viNum op)) (fun t _ w => t.setOut w
      (((t.vec (wA w)).zip (t.vec (wB w))).zipIdx.map (fun x => viElem op (BitVec.ofNat 32 (Config.freeNat (f + x.2))) x.1.1 x.1.2))))

/-- SPECIAL_FUNCTION, class VF (05 R125). -/
def execSpecialFunction (i : VIssue) (fn : SFn) (s : State) : Out :=
  done (s.issueT i 2 (vfNum fn) (outReg false) (fun t _ w => if fn = .undef then none else some (t.setV w (wD w) ((t.vec (wA w)).map (vfElem fn)))))

/-- Active elements of vA, and a neutral value in the others (05 R124). -/
def VectorTile.entering (t : VectorTile) (w : W64) (z : W32) : List W32 :=
  (t.vec (wA w)).zipIdx.map (fun x => if t.active w x.2 then x.1 else z)

/-- VRSUM, VRMAX and VRMIN (05 R124). -/
def execVrsum (i : VIssue) (op : VrOp) (s : State) : Out :=
  done (s.issueT i 4 (vrNum op) (fun _ w => [rs (wD w)]) (fun t _ w => (vrOp op).map (fun o => t.setS (wD w) (treeReduce o.1 (t.entering w o.2)))))

/-- VRMAXI (05 R124): the maximum and the lowest index that holds it; no element holds a NaN maximum, and the index is then a
free value (notes/assumptions/27.md). -/
def execVrmaxi (i : VIssue) (s : State) : Out :=
  done (
    let (f, s) := s.draw
    s.issueT i 4 3 (fun _ w => [rs (wD w), rs (wD w + 1)]) (fun t _ w =>
      if 31 ≤ wD w then none else
      let l := t.entering w (f32Inf true)
      let m := treeReduce vMax l
      let k : W32 := match l.findIdx? (fun v => totalKey v == totalKey m && !f32IsNan v) with
        | some k => BitVec.ofNat 32 k
        | none => BitVec.ofNat 32 f
      some ((t.setS (wD w) m).setS (wD w + 1) k)))

/-- VPERM (05 R124). -/
def execVperm (i : VIssue) (s : State) : Out :=
  done (s.issueT i 4 4 (outReg false) (fun t _ w =>
    let a := t.vec (wA w)
    some (t.setV w (wD w) ((t.vec (wB w)).map (fun v => a.getD (v.toNat % 64) 0)))))

/-- VBCAST (05 R124). -/
def execVbcast (i : VIssue) (s : State) : Out :=
  done (s.issueT i 4 5 (outReg false) (fun t _ w => some (t.setV w (wD w) (List.replicate 64 (t.sreg (wA w))))))

/-- Index of element e for element-indexed words: s[B] + e (08 R192). -/
def elemIndex (t : VectorTile) (w : W64) (e : Nat) : Nat := ((t.sreg (wB w)).toNat + e) % 2 ^ 64

/-- The element-indexed stream of an output slot (08 R188, R191). -/
def slotStream (s : State) (r : VxRun) (slot : Nat) : Gen := streamOf (nomixOf s (flaskOfKey r.heat)) r.seed (r.keys.getD slot 0)

/-- VRAND (05 R124, 08 R194, R197). -/
def execVrand (i : VIssue) (s : State) : Out :=
  done (s.issueV i (· == 10) 0 (outReg false) (fun t r w s =>
    let m := wImm w
    let raw := m.testBit 4
    let slot := bits m 3 1
    let word (x : W64) : W32 := if raw then x.setWidth 32 else rngOut x
    if bits m 22 5 ≠ 0 || (!m.testBit 0 && 4 ≤ slot) then .fail .invalid
    else if m.testBit 0 then
      let g (e : Nat) := Tab.get .init t.gen e
      let t' := t.setV w (wD w) ((upto 64).map (fun e => word (g e).x))
      .go (s.onVtile i.tile (fun m => { t' with
        cnt := m.cnt
        gen := (upto 64).foldl (fun z e => if t.active w e then Tab.put z e (g e).step else z) t.gen }))
    else
      let g := slotStream s r slot
      let t' := t.setV w (wD w) ((upto 64).map (fun e => word (g.at (elemIndex t w e))))
      .go (s.onVtile i.tile (fun m => { t' with cnt := m.cnt }))))

/-- The conversion control word under RM (05 R121): none for RM 3. -/
def cvtUnder (cvtctl : BitVec 16) (rm : Nat) : Option (BitVec 16) :=
  match rm with
  | 0 => some cvtctl
  | 1 => some (cvtctl &&& 0xFFFE)
  | 2 => some (cvtctl ||| 1)
  | _ => none

/-- Counts and flags of a conversion, without histogram, elements and extremes (05 R123). -/
def Conv.countOnly (c : Conv) (dst : Fmt) (cvt : BitVec 16) (v : W32) (o : CvtOut) : Conv :=
  let n := c.note dst cvt v o
  { c with ovf := n.ovf, unf := n.unf, flags := n.flags }

/-- The FP32 value of a code, with the canonical NaN (05 R123, 02 R39). -/
def f32OfCode (f : Fmt) (code : Nat) : W32 := f32Load (decodeCode f code)

/-- The format of a VCVT: a byte that R32 accepts, whose SCALE field is 0 (02 R32, 05 R123; of a byte that both rules reject, R32's
status is given: DEDUCED, notes/assumptions/119.md). -/
def vcvtFmt (b : Nat) : Except Stat Fmt :=
  match fmtByte b with
  | .error true => .error .unsupported
  | .error false => .error .invalid
  | .ok f => if bits b 5 4 = 0 then .ok f.fmt else .error .invalid

/-- What the conversion of an element gives: the word it leaves, and its counts and flags with the format and control word that they are
taken under. TOINT and FROMINT together have no stated result, and it is free (notes/assumptions/27.md). -/
def vcvtElem (toI fromI : Bool) (dst : Fmt) (cvt : BitVec 16) (u free : W32) (x : W32) : W32 × CvtOut × Fmt × BitVec 16 :=
  if toI && fromI then (free, ⟨0, false, false, false⟩, .fp32, cvt &&& 0xFFFE)
  else if toI then (toInt x, toIntOut cvt x, .fp32, cvt &&& 0xFFFE)
  else if fromI then
    let y := fromInt (cvt.getLsbD 0) u x
    (y, ⟨y.toNat, false, false, false⟩, .fp32, cvt)
  else
    let o := convert (f32 x) .fp32 dst cvt (1, 0) 0 u.toNat
    (f32OfCode dst o.code, o, dst, cvt)

/-- VCVT (05 R123). The flags of integer conversions are those of 02 R57 that can arise: FLUSHED of an FP32 source, STOCHASTIC of a
stochastic FROMINT (DEDUCED, notes/assumptions/119.md). -/
def execVcvt (i : VIssue) (s : State) : Out :=
  done (
    let f := s.free
    (s.onFree (· + 64)).issueV i (· == 3) 0 (outReg false) (fun t r w s =>
      let m := wImm w
      let slot := bits m 10 8
      match vcvtFmt (bits m 7 0), cvtUnder t.cvtctl (bits m 12 11) with
      | .error st, _ => .fail st
      | _, none => .fail .invalid
      | .ok dst, some cvt =>
        let stoch := cvt.getLsbD 0 && !m.testBit 13
        if (slot ≠ 7 && r.outN ≤ slot) || (slot = 7 && stoch) then .fail .invalid else
        let g := slotStream s r slot
        let u (e : Nat) : W32 := if stoch then g.word (elemIndex t w e) else 0
        let a := t.vec (wA w)
        let outs := a.zipIdx.map (fun x =>
          vcvtElem (m.testBit 13) (m.testBit 14) dst cvt (u x.2) (BitVec.ofNat 32 (Config.freeNat (f + x.2))) x.1)
        let t' := t.setV w (wD w) (outs.map (·.1))
        let s := s.onVtile i.tile (fun m => { t' with cnt := m.cnt })
        .go (s.onRun i.tile (fun r => { r with slots := r.slots.modify slot (fun c =>
          (a.zip outs).zipIdx.foldl (fun c x =>
            if t.active w x.2 then c.countOnly x.1.2.2.2.1 x.1.2.2.2.2 x.1.1 x.1.2.2.1 else c) c) }))))

/-! ## Loads and stores (05 R110 to R112, R120 to R122) -/

/-- Window index of the SRAM that a descriptor with SPACE 1 or 2 reaches. -/
def descCluster (x : Nat) (c : CDesc) : Nat := if c.space = 1 then x / 2 else c.cluster

/-- Bytes at offsets of a descriptor, each taken mod LEN. -/
def descRead (s : State) (x : Nat) (c : CDesc) (off n : Nat) : List Byte :=
  let at_ (k : Nat) := c.base + (off + k) % max 1 c.len
  if c.space = 0 then let l := (s.vtile x).ldm; (upto n).map (fun k => Tab.get 0 l (at_ k))
  else (upto n).map (fun k => Tab.get 0 s.mem (sramBase + descCluster x c * sramWindow + at_ k))

/-- Bytes of one element, one for IG4 (05 R111). -/
def elemSize (f : Fmt) : Nat := elemBytes f

/-- Offset of element e from an address register (05 R111). -/
def elemOff (f : Fmt) (e : Nat) : Nat := match f with | .ig4 => e / 2 | f => e * elemSize f

/-- IMM[22:8] as a signed increment (05 R111, R120). -/
def incOf (w : W64) : Int := sext 15 (bits (wImm w) 22 8)

/-- What a check of an access finds. -/
inductive Access where
  | ok
  /-- the stream context it waits for -/
  | wait (y : Nat)
  /-- it reads or writes (`out`) beyond the last byte of the stream in context y (07 R170) -/
  | over (y : Nat) (out : Bool)
  | fail (st : Stat)
  deriving DecidableEq, Repr

/-- The first of two findings that is not `ok`. -/
def Access.and (a b : Access) : Access := match a with | .ok => b | a => a

/-- Bytes between what a stream has released and an address register's place in its ring, and the bytes its increment passes
over (05 R112). -/
def ringAhead (t : VectorTile) (i : Nat) (k : Stream) (inc : Int) : Nat × Nat :=
  let a := t.areg i
  let len := max 1 (t.cdesc a.bind).len
  let ahead := (a.off + len - (k.freed - sdStart k.desc) % len) % len
  (ahead, min inc.toNat (k.prog.size - k.freed - ahead))

/-- The network port of a vector tile, and that of a cluster's SRAM (15 R347). -/
def vtilePort (x : Nat) : Nat := routerPort (x / 2) (4 + x % 2)
def sramPort (i : Nat) : Nat := routerPort i 8

/-- What a line access with SPACE 2 meets on its way: `ST_NOT_PRESENT` where its request is absorbed, `ST_FAULT_UNCORRECTABLE` where no
response returns (15 R360, R361). -/
def pathStat (s : State) (x : Nat) (c : CDesc) (write : Bool) : Stat :=
  if c.space ≠ 2 then .ok
  else (s.lineTrip (vtilePort x) 0 { addr := sramBase + c.cluster * sramWindow, host := false, write, data := [] }).2

/-- The lines that a vector tile's node reads or writes with SPACE 2 cross the network (15 R360). -/
def State.vtileTrips (s : State) (x : Nat) (l : List Trip) : State :=
  match (s.vtile x).run with
  | some r => (s.lineTrips (vtilePort x) (flaskOfKey r.heat) l).1
  | none => s

/-- Lines of a cluster's SRAM that a load of n bytes at an offset of a descriptor reads. -/
def loadLines (c : CDesc) (off n : Nat) : List Trip :=
  (((upto n).map (fun k => (c.base + (off + k) % max 1 c.len) / 64)).dedup).map (fun l =>
    { addr := sramBase + c.cluster * sramWindow + 64 * l, host := false, write := false, data := [] })

/-- The check of a load of n bytes through address register i (05 R111, R112). A load from a stream waits for the bytes that its
increment passes over, too, since it releases them (DESIGN CHOICE, notes/assumptions/117.md). -/
def loadCheck (s : State) (x : Nat) (r : VxRun) (i n size : Nat) (inc : Int) : Access :=
  let t := s.vtile x
  let a := t.areg i
  let c := t.cdesc a.bind
  if a.off % size ≠ 0 then .fail .invalid
  else if c.space ≠ 0 && !clusterUp s (descCluster x c) then .fail .notPresent
  else match c.strm with
    | none => match pathStat s x c false with | .ok => .ok | st => .fail st
    | some ctx =>
      let y := ctxKey (x / 2) ctx
      if inc < 0 then .fail .invalid else
      match streamFor s y r.heat r.node with
      | none => .fail .invalid
      | some k =>
        if sdOut k.desc then .fail .invalid else
        let (ahead, pass) := ringAhead t i k inc
        match supply s y r.heat r.node (if n = 0 && pass = 0 then 0 else ahead + max n pass) 0 with
        | .beyond => .over y false
        | .wait => .wait y
        | .ready => .ok

/-- The access of a load: its bytes, and the state after the increment. -/
def State.loadTake (s : State) (x i n : Nat) (inc : Int) : List Byte × State :=
  let t := s.vtile x
  let a := t.areg i
  let c := t.cdesc a.bind
  let bs := descRead s x c a.off n
  let s := match c.strm with
    | some ctx =>
      let y := ctxKey (x / 2) ctx
      match (s.ctx y).cur with
      | some k => s.consume y (ringAhead t i k inc).2 0
      | none => s
    | none => if c.space = 2 then s.vtileTrips x (loadLines c a.off n) else s
  (bs, s.onVtile x (fun t => t.incA i inc))

/-- Set FLUSHED in every slot of the run (05 R120). -/
def State.flushedAll (s : State) (x : Nat) (b : Bool) : State :=
  if b then s.onRun x (fun r => { r with slots := r.slots.map (fun c => { c with flags := flagIf true 0 c.flags }) }) else s

/-- LDM addresses of bytes at offsets of a descriptor with SPACE 0; none of another. -/
def ldmAddrs (c : CDesc) (offs : List Nat) : List Nat := if c.space = 0 then offs.map (fun o => c.base + o) else []

/-- The node reads LDM bytes: bytes that it has not stored are those of an earlier node (05 R129). -/
def VxRun.reads (r : VxRun) (l : List Nat) : VxRun := { r with ldmOld := r.ldmOld || l.any (fun a => !r.ldmOut.contains a) }

/-- The node stores LDM bytes (05 R138). -/
def VxRun.stores (r : VxRun) (l : List Nat) : VxRun := { r with ldmOut := l.foldl numInsert r.ldmOut }

/-- LDM bytes that a load of n bytes through address register i reads. -/
def loadLdm (t : VectorTile) (i n : Nat) : List Nat :=
  let c := t.cdesc (t.areg i).bind
  ldmAddrs c ((upto n).map (fun k => ((t.areg i).off + k) % max 1 c.len))

/-- VLD (05 R120). Inactive elements are not loaded, and set no flag (05 R108). -/
def execVld (i : VIssue) (s : State) : Out :=
  done (s.issueV i (· == 5) 0
    (fun t w => [t.rv (wD w), rp (wPred w)] ++ (if (fmtOr (bits (wImm w) 7 0)).tensor then [rs (wB w)] else []))
    (fun t r w s =>
      match fmtByte (bits (wImm w) 7 0) with
      | .error true => .fail .unsupported
      | .error false => .fail .invalid
      | .ok f =>
        let sc := t.sreg (wB w)
        if f.tensor && (posNormal? sc).isNone then .fail .invalid else
        let span := (upto 64).foldl (fun n e => if t.active w e then elemOff f.fmt e + elemSize f.fmt else n) 0
        let a := loadCheck s i.tile r (wA w) span (elemSize f.fmt) (incOf w)
        match a.and (if f.block then loadCheck s i.tile r (wC w) 2 1 2 else .ok) with
        | .fail st => .fail st
        | .wait y => .starve y
        | .over y out => .stop (s.beyond y r.heat r.node out)
        | .ok =>
          let old := loadLdm t (wA w) span ++ (if f.block then loadLdm t (wC w) 2 else [])
          let (bs, s) := s.loadTake i.tile (wA w) span (incOf w)
          let (scl, s) := if f.block then s.loadTake i.tile (wC w) 2 2 else ([], s)
          let el := (upto 64).map (fun e =>
            let o := rowOperand t.cvtctl f bs scl e
            (loadElem t.cvtctl f sc o.1, o.2))
          let fl := el.zipIdx.any (fun x => (x.1.2 || x.1.1.flushed) && t.active w x.2)
          let s := s.onVtile i.tile (fun m => m.setV w (wD w) (el.map (fun o => BitVec.ofNat 32 o.1.code)))
          .go ((s.flushedAll i.tile fl).onRun i.tile (·.reads old))))

/-- A held line as it is written: zero where nothing was stored (05 R122). -/
def LineAsm.flush (l : LineAsm) : Nat × List Byte := (l.line, (upto 64).map (fun k => Tab.get 0 l.bytes k))

/-- One byte at an address into an assembler: the line it holds after it, and the lines it hands on (05 R122). -/
def asmByte (acc : Option LineAsm × List (Nat × List Byte)) (a : Nat) (b : Byte) : Option LineAsm × List (Nat × List Byte) :=
  let line := a / 64 * 64
  let fresh : LineAsm := { line, bytes := [(a % 64, b)] }
  match acc.1 with
  | none => (some fresh, acc.2)
  | some l =>
    if l.line ≠ line then (some fresh, acc.2 ++ [l.flush])
    else
      let l := { l with bytes := Tab.put l.bytes (a % 64) b }
      if l.bytes.length = 64 then (none, acc.2 ++ [l.flush]) else (some l, acc.2)

/-- The assembler of descriptor ci after bytes at offsets. -/
def asmRun (x : Nat) (t : VectorTile) (ci : Nat) (bs : List (Nat × Byte)) : Option LineAsm × List (Nat × List Byte) :=
  let c := t.cdesc ci
  bs.foldl (fun acc b => asmByte acc (sramBase + descCluster x c * sramWindow + c.base + b.1) b.2) (Tab.find? t.asm (ci % 8), [])

/-- Offsets of n bytes from an address register. -/
def spread (t : VectorTile) (i : Nat) (bs : List Byte) : List (Nat × Byte) :=
  let a := t.areg i
  let len := max 1 (t.cdesc a.bind).len
  bs.zipIdx.map (fun b => ((a.off + b.2) % len, b.1))

/-- The check of a store of bytes through address register i (05 R111, R112). -/
def storeCheck (s : State) (x : Nat) (r : VxRun) (i : Nat) (bs : List Byte) (size : Nat) (inc : Int) : Access :=
  let t := s.vtile x
  let a := t.areg i
  let c := t.cdesc a.bind
  if a.off % size ≠ 0 then .fail .invalid
  else if c.space ≠ 0 && !clusterUp s (descCluster x c) then .fail .notPresent
  else match c.strm with
    | none => match pathStat s x c true with | .ok => .ok | st => .fail st
    | some ctx =>
      let y := ctxKey (x / 2) ctx
      if inc < 0 then .fail .invalid else
      match streamFor s y r.heat r.node with
      | none => .fail .invalid
      | some k =>
        if !sdOut k.desc then .fail .invalid else
        let held := match Tab.find? t.asm (a.bind % 8) with | some l => l.bytes.length | none => 0
        if k.prog.size < k.made + held + bs.length then .over y true else
        match space s y r.heat r.node (min (64 * (asmRun x t a.bind (spread t i bs)).2.length) (k.prog.size - k.made)) 0 with
        | .ready => .ok
        | _ => .wait y

/-- Lines that descriptor ci's assembler hands on go to its stream or to cluster SRAM. -/
def State.handLines (s : State) (x ci : Nat) (lines : List (Nat × List Byte)) : State :=
  match ((s.vtile x).cdesc ci).strm with
  | some ctx =>
    let y := ctxKey (x / 2) ctx
    lines.foldl (fun s l => match (s.ctx y).cur with
      | some k => s.produce y (l.2.take (k.prog.size - k.made)) []
      | none => s) s
  | none =>
    let s := if ((s.vtile x).cdesc ci).space = 2 then
        s.vtileTrips x (lines.map (fun l => { addr := l.1, host := false, write := true, data := l.2 }))
      else s
    lines.foldl (fun s l => (s.devWrite l.1 l.2).onRun x (fun r => { r with outs := numInsert r.outs l.1 })) s

/-- Bytes through address register i: to LDM at once, otherwise through the line assembler; then INC. -/
def State.storePut (s : State) (x i : Nat) (bs : List (Nat × Byte)) (inc : Int) : State :=
  let t := s.vtile x
  let ci := (t.areg i).bind % 8
  let c := t.cdesc ci
  let s :=
    if c.space = 0 then
      (s.onVtile x (fun t => { t with ldm := bs.foldl (fun l b => Tab.store (fun _ => 0) l (c.base + b.1) b.2) t.ldm })).onRun x
        (·.stores (ldmAddrs c (bs.map (·.1))))
    else
      let (l, lines) := asmRun x t ci bs
      (s.handLines x ci lines).onVtile x (fun t => { t with asm := match l with | some l => Tab.put t.asm ci l | none => Tab.del t.asm ci })
  s.onVtile x (fun t => t.incA i inc)

/-- The codes and scale bytes of a store (05 R121): each block of 32 takes its exponent from its active elements. -/
def storeCodes (cv : OutCvt) (idx : Nat → Nat) (act : Nat → Bool) (vs : List W32) (c : Conv) : Conv × List Nat × List Byte :=
  let rs := if cv.fmt.tensor then recipScale cv.scale else (1, 0)
  let exps := (upto 2).map (fun b => if cv.fmt.block then
      let l := ((vs.zipIdx.filter (fun x => x.2 / 32 == b && act x.2)).map (·.1))
      let m := blockMax rs l
      blockExp cv.fmt.fmt m.1 m.2
    else 0)
  let step (acc : Conv × List Nat) (x : W32 × Nat) : Conv × List Nat :=
    if !act x.2 then (acc.1, acc.2 ++ [0]) else
    let u := if cv.cvt.getLsbD 0 then (cv.gen.word (idx x.2)).toNat else 0
    let o := convert (f32 x.1) .fp32 cv.fmt.fmt cv.cvt rs (exps.getD (x.2 / 32) 0) u
    (acc.1.note cv.fmt.fmt cv.cvt x.1 o, acc.2 ++ [o.code])
  let (c, codes) := vs.zipIdx.foldl step (c, [])
  (c, codes, if cv.fmt.block then exps.map (fun e => BitVec.ofNat 8 (e + 127).toNat) else [])

/-- The bytes of an element-wise store into LDM: active elements only, in units of the element size; a nibble keeps its
neighbour (05 R108, R122). -/
def ldmStores (t : VectorTile) (w : W64) (f : Fmt) (i : Nat) (codes : List Nat) : List (Nat × Byte) :=
  let a := t.areg i
  let c := t.cdesc a.bind
  let len := max 1 c.len
  match f with
  | .ig4 => (upto 32).filterMap (fun k =>
      let o := (a.off + k) % len
      let old := (Tab.get 0 t.ldm (c.base + o)).toNat
      let nib (e h : Nat) := if t.active w e then codes.getD e 0 % 16 else old / 16 ^ h % 16
      if t.active w (2 * k) || t.active w (2 * k + 1) then some (o, BitVec.ofNat 8 (nib (2 * k) 0 + 16 * nib (2 * k + 1) 1)) else none)
  | f => (codes.zipIdx.filter (fun x => t.active w x.2)).flatMap (fun x =>
      (leBytes (elemSize f) x.1).zipIdx.map (fun b => ((a.off + elemOff f x.2 + b.2) % len, b.1)))

/-- VST (05 R121, R122). -/
def execVst (i : VIssue) (s : State) : Out :=
  done (s.issueV i (· == 5) 1 (fun t w => [t.rv (wA w), rp (wPred w)] ++
      (match cvtUnder t.cvtctl (bits (wImm w) 4 3) with | some c => if c.getLsbD 0 then [rs (wB w)] else [] | none => []))
    (fun t r w s =>
    let slot := bits (wImm w) 2 0
    let c := t.cdesc (t.areg (wD w)).bind
    let cs := t.cdesc (t.areg (wC w)).bind
    let p0 := wPred w = 0 && !wPneg w
    match cvtUnder t.cvtctl (bits (wImm w) 4 3) with
    | none => .fail .invalid
    | some cvt =>
      if r.outN ≤ slot then .fail .invalid
      else
        let f := fmtOr (r.fmts.getD slot 0)
        if !p0 && (c.space ≠ 0 || (f.block && cs.space ≠ 0)) then .fail .invalid else
        let cv : OutCvt := { fmt := f, cvt, scale := r.scales.getD slot f32One, gen := slotStream s r slot }
        let (conv, codes, scl) := storeCodes cv (elemIndex t w) (t.active w) (t.vec (wA w)) (r.slots.getD slot .init)
        let data := packCodes f.fmt codes
        let a := storeCheck s i.tile r (wD w) data (elemSize f.fmt) (incOf w)
        match a.and (if f.block then storeCheck s i.tile r (wC w) scl 1 2 else .ok) with
        | .fail st => .fail st
        | .wait y => .starve y
        | .over y out => .stop (s.beyond y r.heat r.node out)
        | .ok =>
          let s := s.storePut i.tile (wD w) (if c.space = 0 then ldmStores t w f.fmt (wD w) codes else spread t (wD w) data) (incOf w)
          let s := if f.block then s.storePut i.tile (wC w) (spread (s.vtile i.tile) (wC w) scl) 2 else s
          .go (s.onRun i.tile (fun r => { r with slots := r.slots.set slot conv }))))

/-! ## Scalars, descriptors, predicates and control (05 R110, R111, R113, R116) -/

/-- Registers that a scalar operation reads and writes. -/
def scRegs (op : ScOp) (_ : VectorTile) (w : W64) : List VReg :=
  match op with
  | .movImm _ | .load _ | .sFromA _ => [rs (wD w)]
  | .store _ | .aFromS _ => [rs (wA w)]
  | .fma => [rs (wD w), rs (wA w), rs (wB w), rs (wC w)]
  | .undef => []
  | _ => [rs (wD w), rs (wA w), rs (wB w)]

/-- SCALAR_OP, class SC (05 R116). FP32 operations round as class VA does (notes/assumptions/28.md). A move from a to s gives the offset
without the binding bits (DESIGN CHOICE, notes/assumptions/118.md). -/
def execScalarOp (i : VIssue) (op : ScOp) (s : State) : Out :=
  done (
    let (f, s) := s.draw
    s.issueV i (· == 6) (scNum op) (scRegs op) (fun t _ w s =>
      let a := t.sreg (wA w)
      let b := t.sreg (wB w)
      let c := t.sreg (wC w)
      let u : W32 := BitVec.ofNat 32 f
      let put (t' : VectorTile) : VRes := .go (s.onVtile i.tile (fun m => { t' with cnt := m.cnt }))
      let word (o : ElemOut) : VRes := match o with | .word v => put (t.setS (wD w) v) | _ => .fail .invalid
      let ldmOk (o : Nat) : Bool := o % 4 = 0 && o + 4 ≤ 262144
      let at_ (o : Nat) : List Nat := (upto 4).map (fun k => o + k)
      match op with
      | .iadd => word (viElem .add u a b)
      | .isub => word (viElem .sub u a b)
      | .imullo => word (viElem .mullo u a b)
      | .shl => word (viElem .shl u a b)
      | .shr => word (viElem .shr u a b)
      | .sar => word (viElem .sar u a b)
      | .and => word (viElem .and u a b)
      | .or => word (viElem .or u a b)
      | .xor => word (viElem .xor u a b)
      | .fadd => word (vaElem .add a b c)
      | .fsub => word (vaElem .sub a b c)
      | .fmul => word (vaElem .mul a b c)
      | .fma => word (vaElem .fma a b c)
      | .fmin => word (vaElem .min a b c)
      | .fmax => word (vaElem .max a b c)
      | .movImm v => put (t.setS (wD w) v)
      | .load o => if ldmOk o then
          .go ((s.onVtile i.tile (fun m => { t.setS (wD w) (BitVec.ofNat 32 (ofLe ((at_ o).map (fun k => Tab.get 0 t.ldm k)))) with
            cnt := m.cnt })).onRun i.tile (·.reads (at_ o))) else .fail .invalid
      | .store o => if ldmOk o then
          .go ((s.onVtile i.tile (fun m => { m with
            ldm := (leBytes 4 a.toNat).zipIdx.foldl (fun l b => Tab.store (fun _ => 0) l (o + b.2) b.1) m.ldm })).onRun i.tile (·.stores (at_ o)))
          else .fail .invalid
      | .sFromA k => put (t.setS (wD w) (BitVec.ofNat 32 (t.areg k).off))
      | .aFromS k => put (t.setA k a.toNat)
      | .undef => .fail .invalid))

/-- Bytes of a SPACE (05 R110). -/
def spaceBytes (space : Nat) : Nat := if space = 0 then 262144 else sramBytes

/-- CSET (05 R110): it writes the five fields. A CSET whose STRM names a context binds the descriptor to that stream from there on, with
the BASE, LEN and SPACE that it gives, and a STRM from 32 to 254 ends the node as in R127 (DESIGN CHOICE, notes/assumptions/116.md). -/
def execCset (i : VIssue) (c base len space strm cluster : Nat) (s : State) : Out :=
  done (
    let own := match (s.vtile i.tile).run with
      | some r => (match s.flask? (flaskOfKey r.heat) with | some f => f.clusters.contains cluster | none => false)
      | none => false
    s.issueT i 7 0 (fun _ _ => []) (fun t _ _ =>
      if (t.cdesc c).strm.isSome || 2 < space || base % 64 ≠ 0 || len % 64 ≠ 0 || len < 64 || spaceBytes space < base + len ||
         (space = 2 && !own) || (32 ≤ strm && strm ≠ 0xFF) then none
      else some { t with c := Tab.put t.c (c % 8) (CDesc.mk base len space (if strm = 0xFF then none else some strm) cluster) }))

/-- ABIND (05 R111). -/
def execAbind (i : VIssue) (a c : Nat) (s : State) : Out :=
  done (s.issueT i 7 1 (fun _ _ => []) (fun t _ _ => some { t with a := Tab.put t.a (a % 16) { off := 0, bind := c % 8 } }))

/-- AMOV (05 R111). -/
def execAmov (i : VIssue) (a : Nat) (v : AVal) (s : State) : Out :=
  done (s.issueT i 7 2 (fun _ _ => match v with | .scalar k => [rs k] | .imm _ => []) (fun t _ _ => some (t.setA a (match v with | .imm o => o | .scalar k => (t.sreg k).toNat))))

/-- PREDICATE_OP, class PR (05 R116): the active bits of the destination are written (05 R108). -/
def execPredicateOp (i : VIssue) (op : PrOp) (s : State) : Out :=
  done (s.issueT i 8 (prNum op) (fun _ w => [rp (wD w), rp (wPred w)] ++
      (match op with
        | .fromCount => [rs (wA w)] | .not | .mov => [rp (wA w)] | .undef => [] | _ => [rp (wA w), rp (wB w)]))
    (fun t _ w =>
      let a := t.preg (wA w)
      let b := t.preg (wB w)
      let put (v : W64) : Option VectorTile := some (t.setFlags w (wD w) ((upto 64).map (fun e => v.getLsbD e)))
      match op with
      | .and => put (a &&& b)
      | .or => put (a ||| b)
      | .xor => put (a ^^^ b)
      | .not => put (~~~a)
      | .mov => put a
      | .fromCount => put (BitVec.ofNat 64 (2 ^ min 64 (t.sreg (wA w)).toNat - 1))
      | .undef => none))

/-- LOOP (05 R113, R114). A BODY or STAGES outside its range ends the node with `ST_INVALID` (DESIGN CHOICE, notes/assumptions/120.md). -/
def execLoop (i : VIssue) (count body stages : Nat) (rot : Bool) (s : State) : Out :=
  done (s.issueV i (· == 9) 0 (fun _ _ => [rs count]) (fun t r _ s =>
    let fin := t.pc + 1 + body
    let enclosing := match t.loops with | l :: _ => 1 < l.stages || l.start + l.body < fin | [] => false
    if 4 ≤ t.loops.length || body = 0 || 256 < body || stages = 0 || 8 < stages || r.progLen < fin || enclosing then .fail .invalid
    else
      let n := (t.sreg count).toNat
      if n = 0 then .jump (s.onVtile i.tile (fun t => t.goto fin))
      else .jump (s.onVtile i.tile (fun t => { t with
        pc := t.pc + 1
        loops := { start := t.pc + 1, body, stages, rot, trips := n, iter := 0 } :: t.loops }))))

/-- The condition of a branch. -/
def brTaken (t : VectorTile) : BrCond → Bool
  | .always => true
  | .zero k => t.sreg k == 0
  | .nonzero k => t.sreg k != 0
  | .anyTrue p => t.preg p != 0
  | .allFalse p => t.preg p == 0

/-- The register that a condition reads. -/
def brRegs : BrCond → List VReg
  | .always => []
  | .zero k | .nonzero k => [rs k]
  | .anyTrue p | .allFalse p => [rp p]

/-- BR (05 R116). A branch out of a body leaves its loop (notes/assumptions/29.md). -/
def execBr (i : VIssue) (target : Nat) (cond : BrCond) (s : State) : Out :=
  done (s.issueV i (· == 9) 1 (fun _ _ => brRegs cond) (fun t _ _ s =>
    if brTaken t cond then
      .jump (s.onVtile i.tile (fun t => { t with
        pc := target, loops := t.loops.dropWhile (fun l => !(l.start ≤ target && target < l.start + l.body)) }))
    else .go s))

/-- CSR (05 R116, 02 R45): reserved bits of `VT.CVTCTL` stay 0. -/
def execCsr (i : VIssue) (write : Bool) (k : Nat) (s : State) : Out :=
  done (s.issueT i 9 2 (fun _ _ => [rs k]) (fun t _ _ =>
    if write then some { t with cvtctl := (t.sreg k).setWidth 16 &&& 0xFF } else some (t.setS k (t.cvtctl.setWidth 32))))

/-- UNASSIGNED_CLASS (05 R116): a class from 0xB, or an OP that its class does not define. -/
def execUnassignedClass (i : VIssue) (s : State) : Out :=
  done (s.issueV i (fun _ => true) undefOp (fun _ _ => []) (fun _ _ _ _ => .fail .invalid))

/-! ## Contexts (05 R133 to R136, 08 R195) -/

/-- Bytes of a context. -/
def ctxBytes : Nat := 282624

/-- The 16 bytes of a descriptor in a context. -/
def CDesc.bytes (c : CDesc) : List Byte :=
  leBytes 4 c.base ++ leBytes 4 c.len ++ leBytes 1 c.space ++ leBytes 1 (c.strm.getD 0xFF) ++ leBytes 2 (packCluster c.cluster) ++ leBytes 4 0

/-- The 128 bytes of a line assembler in a context. -/
def asmBytes (l : Option LineAsm) : List Byte :=
  match l with
  | none => leBytes 128 0
  | some l => (upto 64).map (fun k => Tab.get 0 l.bytes k) ++ leBytes 8 (maskOf 64 (fun k => Tab.has l.bytes k)) ++ leBytes 56 0

/-- The context header (05 R135). -/
def ctxHeader (t : VectorTile) (r : VxRun) (byYield : Bool) : List Byte :=
  padTo 256 (leBytes 4 0x58435456 ++ leBytes 2 1 ++ leBytes 2 ((if t.lanes < 64 then 1 else 0) + (if byYield then 2 else 0)) ++
    leBytes 2 t.pc ++ leBytes 1 t.rrb ++ leBytes 1 t.loops.length ++ leBytes 2 t.cvtctl.toNat ++ leBytes 2 0 ++
    leBytes 8 r.progAddr ++ leBytes 2 r.progLen ++ leBytes 6 0 ++ leBytes 8 r.seed.toNat ++ leBytes 8 t.ident.toNat ++
    (upto 4).flatMap (fun j => leBytes 4 (r.scales.getD j f32One).toNat) ++
    padTo 64 (t.loops.reverse.flatMap (fun l => leBytes 2 l.start ++ leBytes 2 l.body ++ leBytes 1 l.stages ++
      leBytes 1 (if l.rot then 1 else 0) ++ leBytes 2 0 ++ leBytes 4 l.trips ++ leBytes 4 l.iter)) ++
    (upto 4).flatMap (fun j => leBytes 4 (r.keys.getD j 0).toNat) ++ leBytes 4 r.ovfLimit ++ leBytes 4 r.unfLimit ++
    leBytes 1 r.stalePol ++ leBytes 1 r.outN ++ (upto 4).flatMap (fun j => leBytes 1 (r.fmts.getD j 0)))

/-- A context (05 R134). The address of a held line is not part of the layout (notes/assumptions/30.md). -/
def ctxImage (t : VectorTile) (r : VxRun) (byYield : Bool) : List Byte :=
  ctxHeader t r byYield ++ (upto 32).flatMap (fun i => leBytes 4 (t.sreg i).toNat) ++
  (upto 8).flatMap (fun i => leBytes 8 (t.preg i).toNat) ++
  (upto 16).flatMap (fun i => leBytes 4 ((t.areg i).off + 2 ^ 28 * (t.areg i).bind)) ++
  (upto 8).flatMap (fun i => (t.cdesc i).bytes) ++ (upto 8).flatMap (fun i => asmBytes (Tab.find? t.asm i)) ++
  padTo 1280 (r.slots.flatMap Conv.record) ++
  (upto 64).flatMap (fun e => let g := Tab.get .init t.gen e; leBytes 8 g.x.toNat ++ leBytes 8 g.c.toNat) ++ leBytes 128 0 ++
  (upto 4096).flatMap (fun k => leBytes 4 (Tab.get 0 t.v k).toNat) ++ readTab (fun _ => 0) t.ldm 0 262144

/-- A histogram record read back (02 R59). -/
def Conv.ofRecord (b : List Byte) : Conv :=
  let e (off : Nat) : Option Int := if fld b off 2 = 0x8000 then none else some (sext 16 (fld b off 2))
  { ovf := fld b 264 4, unf := fld b 268 4, flags := BitVec.ofNat 16 (fld b 272 2),
    hist := (upto 64).filterMap (fun k => if fld b (4 * k) 4 = 0 then none else some (k, fld b (4 * k) 4)),
    elements := fld b 256 8, amax := BitVec.ofNat 32 (fld b 276 4), scale := BitVec.ofNat 32 (fld b 280 4),
    eMax := e 284, eMin := e 286 }

/-- The check of a context at a restore (05 R136, 08 R195). -/
def ctxCheck (s : State) (flask : Nat) (b : List Byte) : Stat :=
  let form := fld b 0 4 = 0x58435456 && fld b 4 2 = 1 && fld b 6 2 < 4 && zeroIn b 0x0D 0x0F && zeroIn b 0x1A 0x1F && zeroIn b 0x9E 0xFF &&
    fld b 0x0B 1 ≤ 4 && (upto 4).all (fun l => zeroIn b (0x46 + 16 * l) (0x47 + 16 * l)) &&
    (upto 64).all (fun e => fld b (0xB88 + 16 * e) 1 % 2 = 1)
  let space2 := (upto 8).all (fun j =>
    if fld b (0x208 + 16 * j) 1 = 2 then
      match unpackCluster (fld b (0x20A + 16 * j) 2), s.flask? flask with
      | some i, some f => exposed s i && f.clusters.contains i
      | _, _ => false
    else true)
  if !form then .invalid else if !space2 then .noResource else .ok

/-- The line assembler of a context, at the line it is taken to hold. -/
def LineAsm.ofContext (b : List Byte) (j line : Nat) : Option LineAsm :=
  let o := 0x280 + 128 * j
  let m := fld b (o + 64) 8
  if m = 0 then none
  else some { line, bytes := (upto 64).filterMap (fun k => if m.testBit k then some (k, BitVec.ofNat 8 (fld b (o + k) 1)) else none) }

/-- A tile restored from a context; STRM bindings are the descriptor's own (05 R136). -/
def VectorTile.restore (t : VectorTile) (b : List Byte) (nomix : Bool) (bound : Nat → Option CDesc) (lineOf : Nat → CDesc → Nat) :
    VectorTile :=
  let same := fld b 0x28 8 = t.ident.toNat
  let seed : W64 := BitVec.ofNat 64 (fld b 0x20 8)
  let gen := (upto 64).map (fun e => (e, Gen.mk (BitVec.ofNat 64 (fld b (0xB80 + 16 * e) 8))
    (if same then BitVec.ofNat 64 (fld b (0xB88 + 16 * e) 8) else (laneGen nomix seed t.ident e).c)))
  let loops := ((upto (fld b 0x0B 1)).map (fun l =>
    let o := 0x40 + 16 * l
    ({ start := fld b o 2, body := fld b (o + 2) 2, stages := fld b (o + 4) 1, rot := fld b (o + 5) 1 = 1, trips := fld b (o + 8) 4,
       iter := fld b (o + 12) 4 } : LoopEnt))).reverse
  let cs := (upto 8).map (fun k => (k, (bound k).getD
      { base := fld b (0x200 + 16 * k) 4, len := fld b (0x204 + 16 * k) 4, space := fld b (0x208 + 16 * k) 1, strm := none,
        cluster := (unpackCluster (fld b (0x20A + 16 * k) 2)).getD 0 }))
  { t with
    v := (upto 4096).map (fun k => (k, BitVec.ofNat 32 (fld b (0x1000 + 4 * k) 4)))
    s := (upto 32).map (fun k => (k, BitVec.ofNat 32 (fld b (0x100 + 4 * k) 4)))
    p := (upto 8).map (fun k => (k, BitVec.ofNat 64 (fld b (0x180 + 8 * k) 8)))
    a := (upto 16).map (fun k => let v := fld b (0x1C0 + 4 * k) 4; (k, ({ off := bits v 27 0, bind := bits v 30 28 } : AReg)))
    c := cs
    rrb := fld b 0x0A 1 % 32, pc := fld b 0x08 2, loops, cvtctl := BitVec.ofNat 16 (fld b 0x0C 1),
    asm := cs.filterMap (fun c => (LineAsm.ofContext b c.1 (lineOf c.1 c.2)).map (fun l => (c.1, l))), gen
    ldm := writeTab (fun _ => 0) [] 0 (slice b 0x5000 262144),
    cnt := if same then t.cnt else { t.cnt with rekey := t.cnt.rekey + 1 } }

/-- A run restored from a context (05 R136). -/
def VxRun.restore (r : VxRun) (b : List Byte) : VxRun :=
  { r with
    seed := BitVec.ofNat 64 (fld b 0x20 8), keys := (upto 4).map (fun j => BitVec.ofNat 32 (fld b (0x80 + 4 * j) 4)),
    scales := (upto 4).map (fun j => BitVec.ofNat 32 (fld b (0x30 + 4 * j) 4)), fmts := (upto 4).map (fun j => fld b (0x9A + j) 1),
    outN := fld b 0x99 1, ovfLimit := fld b 0x90 4, unfLimit := fld b 0x94 4, stalePol := fld b 0x98 1, progAddr := fld b 0x10 8,
    progLen := fld b 0x18 2, slots := (upto (fld b 0x99 1)).map (fun j => Conv.ofRecord (slice b (0x680 + 320 * j) 320)),
    restored := true }

/-! ## Nodes (05 R126 to R129) -/

/-- The rows of R127 up to the tile. -/
def vxHead (d : List Byte) : Bool :=
  fld d 0 8 ≠ 0 && fld d 0 8 % 64 = 0 && 1 ≤ fld d 88 2 && fld d 88 2 ≤ 4096 && (fld d 92 1 < 2 || fld d 92 1 = 0xFF)

/-- The format row of R127. -/
def vxFmts (d : List Byte) : Stat :=
  let n := fld d 95 1
  if 4 < n || (upto 4).any (fun j => n ≤ j && (fld d (104 + j) 1 ≠ 0 || fld d (32 + 8 * j) 8 ≠ 0 || fld d (64 + 4 * j) 4 ≠ 0)) then .invalid
  else match ((upto n).map (fun j => fmtByte (fld d (104 + j) 1))).find? (fun x => match x with | .ok _ => false | .error _ => true) with
    | some (.error true) => .unsupported
    | some _ => .invalid
    | none => if (upto n).all (fun j => scaleAddrOk (fmtOr (fld d (104 + j) 1)) (fld d (32 + 8 * j) 8)) then .ok else .invalid

/-- The rows of R127 after the scales. -/
def vxTail (d : List Byte) : Bool :=
  let st := ((upto 8).map (fun j => fld d (96 + j) 1)).filter (· ≠ 0xFF)
  st.all (· < 32) && st.Nodup && fld d 94 1 ≤ 2 && fld d 90 2 < 256 &&
  (!(fld d 90 2).testBit 7 || (fld d 16 8 ≠ 0 && fld d 16 8 % 64 = 0)) && fld d 8 8 % 64 = 0 && fld d 93 1 < 2 &&
  (fld d 93 1 = 0 || fld d 8 8 ≠ 0)

/-- The per-tensor scales of the slots, read at node start. -/
def vxScales (s : State) (flask : Nat) (d : List Byte) : Except (Option Nat × Stat) (List W32) :=
  (upto 4).foldr (fun j acc =>
    let r := if fld d 95 1 ≤ j then .ok f32One else readScale s flask (fmtOr (fld d (104 + j) 1)) (fld d (32 + 8 * j) 8)
    match r, acc with
    | .ok w, .ok l => .ok (w :: l)
    | .wait p, _ => .error (some p, .ok)
    | .fail st, _ => .error (none, st)
    | .ok _, .error e => .error e) (.ok [])

/-- The reads of those scales, in their order. -/
def vxScaleReads (d : List Byte) : List (Nat × Nat) :=
  (upto (min 4 (fld d 95 1))).filterMap (fun j => if (fmtOr (fld d (104 + j) 1)).tensor then some (fld d (32 + 8 * j) 8, 4) else none)

/-- The streams that a descriptor binds are armed for the node without scale bytes (07 R170). -/
def vxArmed (s : State) (cluster k n : Nat) (d : List Byte) : Bool :=
  (upto 8).all (fun j =>
    let c := fld d (96 + j) 1
    c = 0xFF || match streamFor s (ctxKey cluster c) k n with | some x => !sdScales x.desc | none => false)

/-- A run as its descriptor gives it (05 R126, R128). -/
def VxRun.fresh (s : State) (k n : Nat) (d : List Byte) (scales : List W32) (streams : List Stream) (rerun : Bool) (stale : BitVec 8)
    (newScales : List Nat) (ldmOld : Bool) : VxRun :=
  { heat := k, node := n, desc := d, seed := BitVec.ofNat 64 (fld d 24 8), keys := (upto 4).map (fun j => BitVec.ofNat 32 (fld d (64 + 4 * j) 4)),
    scales, fmts := (upto 4).map (fun j => fld d (104 + j) 1), outN := fld d 95 1, ovfLimit := fld d 80 4, unfLimit := fld d 84 4,
    stalePol := fld d 94 1, progAddr := fld d 0 8, progLen := fld d 88 2,
    slots := (upto (fld d 95 1)).map (fun j => { Conv.init with scale := scales.getD j f32One }),
    issuing := false, restored := false, rerun, stale, streams, newScales, outs := [], ldmOut := [], ldmOld, since := s.time, ended := false }

/-- The tile a VECTOR descriptor asks for: a free one, a wait, or none in service. -/
def vxTile (s : State) (cluster t : Nat) : Option (Option Nat) :=
  let up := (if t = 0xFF then [2 * cluster, 2 * cluster + 1] else [2 * cluster + t]).filter (vtileUp s)
  if up.isEmpty then none else some (up.find? (fun x => (s.vtile x).run.isNone))

/-- Start a VECTOR entry, end it, or leave it waiting (05 R127). The scales of a node with RESTORE set are not read: its context holds
them (05 R136). -/
def State.startVector (s : State) (cluster : Nat) (e : KEntry) : State :=
  let d := e.desc
  let refuse (st : Stat) := (s.unqueue cluster e.heat e.node).endNode e.heat e.node st id
  if !vxHead d then refuse .invalid else
  match vxTile s cluster (fld d 92 1) with
  | none => refuse .notPresent
  | some none => s
  | some (some x) =>
    match vxFmts d with
    | .ok =>
      match (if fld d 93 1 % 2 = 1 then .ok (List.replicate 4 f32One) else vxScales s (flaskOfKey e.heat) d) with
      | .error (some p, _) => s.nodeWaits e.heat e.node p
      | .error (none, st) => (refuse st).blameFirst (flaskOfKey e.heat) (vxScaleReads d) st
      | .ok sc =>
        if !vxTail d || !vxArmed s cluster e.heat e.node d then refuse .invalid
        else (s.unqueue cluster e.heat e.node).onVtile x (fun t => { t with 
          run := some (.fresh s e.heat e.node d sc (streamsAt s e.heat e.node) false 0 [] false) })
    | st => refuse st

/-- VECTOR_NODE_START. -/
def execVectorNodeStart (cluster : Nat) (s : State) : Out :=
  done (match firstOfKind s cluster 2 with
    | some e => s.startVector cluster e
    | none => s)

/-- A stream-bound descriptor: BASE and LEN of its stream's data ring, SPACE 1 (05 R112). -/
def boundDesc (s : State) (cluster : Nat) (d : List Byte) (j : Nat) : Option CDesc :=
  let c := fld d (96 + j) 1
  if c = 0xFF then none else
  match (s.ctx (ctxKey cluster c)).cur with
  | some k => some { base := sdTunOff k.desc, len := sdTunLen k.desc, space := 1, strm := some c, cluster := 0 }
  | none => some { base := 0, len := 64, space := 1, strm := some c, cluster := 0 }

/-- The initial state of 05 R128, and the lane-mode states of 08 R194. -/
def VectorTile.start (t : VectorTile) (d : List Byte) (nomix : Bool) (bound : Nat → Option CDesc) : VectorTile :=
  { t with
    v := [], p := [], a := [], rrb := 0, pc := 0, loops := [], cvtctl := BitVec.ofNat 16 (fld d 90 2), asm := [],
    s := (upto 5).map (fun k => (k + 1, BitVec.ofNat 32 (fld d (108 + 4 * k) 4))),
    c := (upto 8).filterMap (fun j => (bound j).map (fun b => (j, b))),
    gen := (upto 64).map (fun e => (e, laneGen nomix (BitVec.ofNat 64 (fld d 24 8)) t.ident e)) }

/-- What the fetch of a node reads: its context, and its program. -/
inductive Fetched where
  | wait (page : Nat)
  | fail (st : Stat)
  | ok (ctx : List Byte) (prog : Option (List W64)) (r : VxRun)

/-- The program fetch, and the context read of a restored node (05 R128, R136). -/
def fetchNode (s : State) (x : Nat) (r : VxRun) : Fetched :=
  let flask := flaskOfKey r.heat
  let restore := r.restored || (fld r.desc 93 1 = 1 && !r.rerun)
  let ctx := if restore then readFlask s flask (fld r.desc 8 8) ctxBytes else .ok []
  match ctx with
  | .wait p => .wait p
  | .fail st => .fail st
  | .ok b =>
    match (if restore then ctxCheck s flask b else .ok) with
    | .ok =>
      let r := if restore then r.restore b else r
      if (s.vtile x).prev = some (flask, r.progAddr, r.progLen) then .ok b none r
      else match readFlask s flask r.progAddr (8 * r.progLen) with
        | .wait p => .wait p
        | .fail st => .fail st
        | .ok pb => .ok b (some ((upto r.progLen).map (fun k => BitVec.ofNat 64 (fld pb (8 * k) 8)))) r
    | st => .fail st

/-- The line a restored assembler holds: of a stream-bound descriptor the next line of its ring; of another one the context
does not say which, and it is a free line of its region (notes/assumptions/30.md). -/
def restoredLine (s : State) (x j : Nat) (c : CDesc) : Nat :=
  let b := sramBase + descCluster x c * sramWindow + c.base
  match c.strm with
  | some k => match (s.ctx (ctxKey (x / 2) k)).cur with
    | some y => b + (y.made - sdStart y.desc) % max 1 c.len / 64 * 64
    | none => b
  | none => b + Config.freeNat (s.free + j) % max 1 (c.len / 64) * 64

/-- PROGRAM_FETCH_DONE (05 R128): the fetch ends and issue begins. -/
def execProgramFetchDone (tile : Nat) (s : State) : Out :=
  done (match (s.vtile tile).run with
    | none => s
    | some r =>
      if !vtileUp s tile || r.issuing || s.faults.any (fun f => f.who == .fetch tile) then s else
      let flask := flaskOfKey r.heat
      match fetchNode s tile r with
      | .wait p => s.pageFault flask p (.fetch tile) (patienceOf s flask)
      | .fail st => (s.failVector tile r st).blameFirst flask [(fld r.desc 8 8, ctxBytes), (r.progAddr, 8 * r.progLen)] st
      | .ok ctx prog r =>
        let nomix := nomixOf s flask
        let bound := boundDesc s (tile / 2) r.desc
        (s.onFree (· + 8)).onVtile tile (fun t =>
          let sameFlask := match t.prev with | some p => p.1 == flask | none => false
          let t := { t with imem := prog.getD t.imem, ldm := if sameFlask then t.ldm else [] }
          let t := if ctx.isEmpty then t.start r.desc nomix bound else t.restore ctx nomix bound (restoredLine s tile)
          { t with prev := some (flask, r.progAddr, r.progLen), run := some { r with issuing := true } }))

/-- Every line assembler is flushed; a stream without room holds it (05 R128). -/
def State.flushAsm (s : State) (x : Nat) (r : VxRun) : Access × State :=
  (upto 8).foldl (fun acc ci =>
    match acc.1, Tab.find? (acc.2.vtile x).asm ci with
    | .ok, some l =>
      let s := acc.2
      let c := (s.vtile x).cdesc ci
      let may : Access := match c.strm with
        | some ctx =>
          let y := ctxKey (x / 2) ctx
          (match streamFor s y r.heat r.node with
            | some k => if k.room < min 64 (k.prog.size - k.made) then .wait y else .ok
            | none => .fail .invalid)
        | none => if clusterUp s (descCluster x c) then .ok else .fail .notPresent
      (match may with
        | .ok => (.ok, (s.handLines x ci [l.flush]).onVtile x (fun t => { t with asm := Tab.del t.asm ci }))
        | a => (a, s))
    | _, _ => acc) (.ok, s)

/-- A re-run that read what it writes, or LDM bytes that it had not stored, leaves its outputs undefined (04 R100, 05 R129). -/
def State.spoilVector (s : State) (x : Nat) (r : VxRun) : State :=
  if r.rerun && r.ldmOld then
    let s := (r.streams.flatMap Stream.whole).foldl (fun s y => s.undefineRange (flaskOfKey r.heat) y.1 y.2) s
    (r.outs.foldl (fun s l => s.undefineRange 0xFF l 64) s).undefineLdm x r.ldmOut
  else s.spoilRerun (flaskOfKey r.heat) r.streams r.rerun

/-- The node on a tile completes with a status, its summary byte and its flags; its streams end with it. -/
def State.closeVector (s : State) (x : Nat) (r : VxRun) (st : Stat) (summary : BitVec 8) : State :=
  let s := ((s.closeStreams r.heat r.node).onVtile x (fun t => { t with run := none })).spoilVector x r
  (s.endNode r.heat r.node st (fun n => { n with
    stale := summary ||| (r.stale &&& 0x10), cvt := padTo 4 (r.slots.flatMap (fun c => leBytes 1 c.flags.toNat)) })).settle

/-- The records, the stale check and the completion of a node that has ended (05 R128, R129). HIST_EN is bit 7 of `VT.CVTCTL` at `END`,
after CSR writes and a restore (DESIGN CHOICE, notes/assumptions/114.md). A refused scale write is the node's status, with the first run's
outputs and summary (04 R102, R103). -/
def State.finishVector (s : State) (x : Nat) (r : VxRun) : State :=
  if readWaits s r.heat r.node then s else
  let flask := flaskOfKey r.heat
  let t := s.vtile x
  let s := s.flushOutputs r.heat r.node
  if !outputsDone s r.heat r.node then s else
  let hist := t.cvtctl.getLsbD 7
  let ha := fld r.desc 16 8
  if hist && (ha = 0 || ha % 64 ≠ 0) then s.failVector x r .invalid else
  match s.writeHist flask ha hist r.slots with
  | (.wait p, s) => s.nodeWaits r.heat r.node p
  | (.fail st, s) => s.failVector x r st
  | (.ok _, s) =>
    let ts := r.slots.zipIdx.map (fun c =>
      ({ fmt := fmtOr (r.fmts.getD c.2 0), scaleAddr := fld r.desc (32 + 8 * c.2) 8, conv := c.1 } : OutTensor))
    let ck := staleCheck r.stalePol r.ovfLimit r.unfLimit (!r.restored && replayable r.streams) r.rerun ts
    if ck.rerun.isEmpty then s.closeVector x r (staleStat r.stalePol ck.stale) ck.summary
    else
      match s.writeScales flask ck.rerun with
      | (.wait p, s) => s.nodeWaits r.heat r.node p
      | (.fail st, s) => s.closeVector x r st ck.summary
      | (.ok _, s) =>
        match vxScales s flask r.desc with
        | .ok sc => (s.rearm r.heat r.node).onVtile x (fun t => { t with
            run := some (.fresh s r.heat r.node r.desc sc r.streams true ck.summary (ck.rerun.map (·.1)) r.ldmOld) })
        | .error (some p, _) => s.nodeWaits r.heat r.node p
        | .error (none, st) => (s.failVector x r st).blameFirst flask (vxScaleReads r.desc) st

/-- END (05 R128): every line assembler is flushed; then, once the outputs are acknowledged, the node ends or re-runs. -/
def execEndProgram (i : VIssue) (s : State) : Out :=
  done (
    let s := s.issueV i (· == 9) 4 (fun _ _ => []) (fun _ r _ s =>
      match s.flushAsm i.tile r with
      | (.fail st, _) => .fail st
      | (.wait y, _) => .starve y
      | (.over y out, s) => .stop (s.beyond y r.heat r.node out)
      | (.ok, s) => .jump (s.onRun i.tile (fun r => { r with ended := true })))
    match (s.vtile i.tile).run with
    | some r => if r.ended then s.finishVector i.tile r else s
    | none => s)

/-! ## Suspension (05 R133, 09 R210) -/

/-- The node on tile x is suspended with its context saved at CTX_ADDR. -/
def State.suspend (s : State) (x : Nat) (r : VxRun) (byYield : Bool) : Got × State :=
  let t := s.vtile x
  match s.tryWrite (flaskOfKey r.heat) (fld r.desc 8 8) (ctxImage t r byYield) with
  | (.ok _, s) =>
    let s := s.onVtile x (fun t => { t with
      run := none, susp := t.susp ++ [{ r with issuing := false, restored := true }], asm := [],
      cnt := { t.cnt with ctxSave := t.cnt.ctxSave + 1 } })
    (.ok [], s.onNode r.heat r.node (fun n => { n with st := .suspended, suspends := min 0xFFFF (n.suspends + 1) }))
  | g => g

/-- YIELD (05 R133): the saved PC is the next instruction's. -/
def execYield (i : VIssue) (s : State) : Out :=
  done (s.issueV i (· == 9) 3 (fun _ _ => []) (fun _ r _ s =>
    if fld r.desc 8 8 = 0 then .fail .invalid else
    let s' := s.onVtile i.tile (fun t => t.goto (t.pc + 1))
    match s'.suspend i.tile r true with
    | (.ok _, s) => .jump s
    | (.wait p, _) => .page p
    | (.fail st, _) => .fail st))

/-- A READY VECTOR node waits for tile x: it names it, or any while every vector tile in service is busy (09 R210). -/
def waitsFor (s : State) (x : Nat) (k : Nat) (n : Node) : Bool :=
  n.cls = 2 && n.st = .ready && n.target = x / 2 &&
  match readDesc s k n with
  | .ok d => fld d 92 1 = x % 2 || (fld d 92 1 = 0xFF &&
      [2 * (x / 2), 2 * (x / 2) + 1].all (fun y => !vtileUp s y || (s.vtile y).run.isSome))
  | _ => false

/-- READY nodes of a more urgent class than heat k that wait for tile x: when each became READY (09 R210). -/
def moreUrgent (s : State) (x k : Nat) : List Nat :=
  match s.heat? k with
  | none => []
  | some h => s.graph.heats.flatMap (fun y => if y.2.prio < h.prio && y.2.phase = .running then
      (y.2.nodes.filter (waitsFor s x y.1)).map (·.readyAt) else [])

/-- VECTOR_PREEMPT (09 R210). The save reads LDM and the register files, whose checks may find an error (05 R137, R138). -/
def execVectorPreempt (tile : Nat) (ecc : Ecc) (s : State) : Out :=
  done (match (s.vtile tile).run with
    | none => s
    | some r =>
      match moreUrgent s tile r.heat with
      | [] => s
      | t :: l =>
        if !vtileUp s tile || r.ended || !r.issuing || fld r.desc 8 8 = 0 || overran s r.heat r.node || readWaits s r.heat r.node then s else
        let s := s.until (max (least t l + 20000) (r.since + 100000))
        if ecc = .uncorrectable then s.failVector tile r .uncorrectable else
        match s.suspend tile r false with
        | (.ok _, s) => s.onVtile tile (fun t => { t with cnt := { t.cnt with eccCorr := t.cnt.eccCorr + (if ecc = .corrected then 1 else 0) } })
        | (.wait p, _) => s.nodeWaits r.heat r.node p
        | (.fail st, _) => s.failVector tile r st)

/-- Class of a heat; the smaller number is the more urgent (09 R208). -/
def prioOf (s : State) (k : Nat) : Nat := match s.heat? k with | some h => h.prio | none => 0

/-- The suspended node of a tile that resumes first: the most urgent, the one suspended first among equals (09 R210). -/
def nextSuspended (s : State) : List VxRun → Option VxRun
  | [] => none
  | r :: l => some (l.foldl (fun b r => if prioOf s r.heat < prioOf s b.heat then r else b) r)

/-- VECTOR_RESUME (09 R210): on the same tile, as though RESTORE were set. -/
def execVectorResume (tile : Nat) (s : State) : Out :=
  done (
    let t := s.vtile tile
    match nextSuspended s t.susp, t.run with
    | some r, none =>
      if !vtileUp s tile || !(moreUrgent s tile r.heat).isEmpty then s
      else (s.onVtile tile (fun t => { t with
        susp := t.susp.filter (fun y => !(y.heat == r.heat && y.node == r.node)), run := some { r with since := s.time } })).onNode r.heat r.node
          (fun n => { n with st := .dispatched })
    | _, _ => s)

end Sys2Proof.Machine
end

