-- ==== Sys2Proof/Machine/Serving.lean ====
section
/-!
DEFINITION. The device-resident serving loop (11): sessions, pages, requests, step heats, sampling, token entries.
-/

namespace Sys2Proof.Machine

/-! ## The serving descriptor (11 R255) -/

def svVocab (d : List Byte) : Nat := fld d 0 4
def svLayers (d : List Byte) : Nat := fld d 4 2
def svHeads (d : List Byte) : Nat := fld d 6 1
def svDim (d : List Byte) : Nat := fld d 7 1
def svMaxCtx (d : List Byte) : Nat := fld d 8 4
def svMaxBatch (d : List Byte) : Nat := fld d 12 2
def svChunk (d : List Byte) : Nat := fld d 14 2
def svPrefill (d : List Byte) : Nat := fld d 16 4
/-- PAT_H[b − 1]. -/
def svPatH (d : List Byte) (b : Nat) : Nat := fld d (20 + 4 * (b - 1)) 4
/-- PAT_A entries in use: pattern and BMAX. -/
def svPatA (d : List Byte) : List (Nat × Nat) :=
  (upto 8).filterMap (fun k => if fld d (56 + 8 * k) 8 = 2 ^ 64 - 1 then none else some (fld d (56 + 8 * k) 4, fld d (60 + 8 * k) 2))
def svStep (d : List Byte) : Nat := fld d 120 8
def svLogits (d : List Byte) : Nat := fld d 128 8
def svNRole (d : List Byte) : Nat := fld d 144 4
def svList (d : List Byte) : Nat := fld d 152 8
def svPoolLen (d : List Byte) : Nat := fld d 200 8

/-- Bytes of one session's page lists (11 R259). -/
def listBytes (d : List Byte) : Nat := svLayers d * svHeads d * (svMaxCtx d / 64) * 8

/-- Pages that one slice of the pool holds (11 R256). -/
def sliceCap (d : List Byte) : Nat := svPoolLen d / 64 / kvBytes (svDim d)

/-- Bytes of a spill slot (11 R260). -/
def spillBytes (d : List Byte) : Nat := ceilTo (kvBytes (svDim d)) 64

/-- Patterns that a loop names, each with its row count: prefill 1, PAT_H[b − 1] b, PAT_A BMAX. -/
def svPatterns (d : List Byte) : List (Nat × Nat) :=
  [(svPrefill d, 1)] ++
  (upto 8).filterMap (fun i => if svPatH d (i + 1) = 0xFFFFFFFF then none else some (svPatH d (i + 1), i + 1)) ++ svPatA d

/-- A role entry (11 R258). -/
structure Role where
  pattern : Nat
  slot : Nat
  role : Nat
  area : Nat
  row : Nat
  layer : Nat
  head : Nat
  const : Nat
  deriving DecidableEq, Repr

/-- Entry i of a role table, and whether its zero bytes are zero. -/
def roleAt (t : List Byte) (i : Nat) : Role × Bool :=
  let b := slice t (32 * i) 32
  ({ pattern := fld b 0 4, slot := fld b 4 2, role := fld b 6 1, area := fld b 7 1, row := fld b 8 2, layer := fld b 10 2,
     head := fld b 12 2, const := fld b 16 8 }, zeroIn b 14 15 && zeroIn b 24 31)

/-- The roles of a loop. -/
def rolesOf (t : List Byte) : List Role := (upto (t.length / 32)).map (fun i => (roleAt t i).1)

/-- Fields of the descriptor in range, reserved bytes zero, addresses aligned (11 R255). -/
def svForm (d : List Byte) : Bool :=
  1 ≤ svVocab d && svVocab d ≤ 262144 && 1 ≤ svLayers d && svLayers d ≤ 256 && 1 ≤ svHeads d && svHeads d ≤ 64 &&
  (svDim d = 64 || svDim d = 128) && svMaxCtx d % 64 = 0 && 128 ≤ svMaxCtx d && svMaxCtx d ≤ 262144 && 1 ≤ svMaxBatch d &&
  svMaxBatch d ≤ 256 && svChunk d % 64 = 0 && 64 ≤ svChunk d && svChunk d ≤ 4096 && zeroIn d 54 55 &&
  (upto 8).all (fun k => fld d (56 + 8 * k) 8 = 2 ^ 64 - 1 || fld d (62 + 8 * k) 2 = 0) && svStep d % 64 = 0 && svLogits d % 64 = 0 &&
  fld d 136 8 % 64 = 0 && svNRole d ≤ 65536 && zeroIn d 148 151 && svList d % 64 = 0 && fld d 168 8 % 0x200000 = 0 &&
  fld d 176 8 % 0x200000 = 0 && svPoolLen d % 0x8000000 = 0 && zeroIn d 240 255

/-- A role of the table is one of R258. -/
def roleOk (d : List Byte) (x : Role × Bool) : Bool :=
  let r := x.1
  x.2 && (r.role = 1 || (0x10 ≤ r.role && r.role ≤ 0x13)) && r.area ≤ 1 &&
  (svPatterns d).all (fun p => p.1 != r.pattern || r.row < p.2)

/-- [va, va + n) translates to one contiguous device range that starts at a. -/
def contiguous (s : State) (flask va n a : Nat) : Bool :=
  (cuts va n).all (fun c => (locate s flask c.1).1 == .dev (a + (c.1 - va)))

/-- Pool k is exactly one hearth region of stack k (11 R256). -/
def poolOk (s : State) (flask : Nat) (d : List Byte) (k : Nat) : Bool :=
  let va := fld d 184 8 + k * fld d 192 8
  (s.ctl k).regions.any (fun x => x.2.valid && x.2.hearth && x.2.len * 0x200000 == svPoolLen d &&
    contiguous s flask va (svPoolLen d) (ctlBase k + x.2.base * 0x200000))

/-- The checks of 11 R256, in its order; `roles` is the role table. -/
def svCheck (s : State) (flask : Nat) (f : Flask) (d roles : List Byte) : Stat :=
  let rs := (upto (svNRole d)).map (roleAt roles)
  let pa := svPatA d
  let pats := svPatterns d
  if !svForm d || !rs.all (roleOk d) then .invalid
  else if !(upto (min 8 (svMaxBatch d))).all (fun i => svPatH d (i + 1) ≠ 0xFFFFFFFF) then .invalid
  else if (8 < svMaxBatch d && !pa.any (fun p => svMaxBatch d ≤ p.2)) || !(pa.map (·.2)).Pairwise (· < ·) || pa.any (fun p => p.2 ≤ 8) then
    .invalid
  else if !pats.all (fun p => match Tab.find? s.graph.patterns p.1 with | some x => x.flask == flask | none => false) then .notPresent
  else if !pats.all (fun p => match Tab.find? s.graph.patterns p.1 with
      | some x => (upto x.nslot).all (fun i => (rs.filter (fun r => r.1.pattern == p.1 && r.1.slot == i)).length == 1)
      | none => false) then .invalid
  else if !(upto 8).all (fun k => !stackUp s k || poolOk s flask d k) then .invalid
  else if !(match unpackCluster (fld d 52 2) with | some i => f.clusters.contains i | none => false) then .invalid
  else if 8 ≤ (s.serving.loops.filter (fun l => flaskOfLoop l.1 == flask)).length then .noResource
  else .ok

/-! ## SERVE_OPEN (11 R254, R259, R261) -/

/-- The lowest free slot of a loop's page-list area. -/
def freeListSlot (s : State) (key : Nat) (d : List Byte) : Option Nat :=
  (upto (fld d 160 8 / max 1 (listBytes d))).find? (fun i =>
    !s.serving.sessions.any (fun x => x.2.loop == key && x.2.listSlot == i))

/-- The session that a SERVE_OPEN makes. -/
def Session.fresh (key : Nat) (c : Cmd) (slot : Nat) : Session :=
  { loop := key, qnum := c.qnum, maxCtx := c.p 8 4, key := BitVec.ofNat 32 (c.p 12 4), stop := (upto 4).map (fun i => c.p (16 + 4 * i) 4),
    st := .idle, ctxLen := 0, homes := [], pages := [], spill := [], listSlot := slot, lastTok := none, order := 0, token := 0,
    placed := false, req := none }

/-- A session joins a loop that runs. -/
def State.openSession (s : State) (c : Cmd) (key : Nat) (l : Loop) : State :=
  if svMaxCtx l.desc < c.p 8 4 then s.failCmd c.cid .invalid
  else if 65536 ≤ s.serving.sessions.length || 16384 ≤ (s.serving.sessions.filter (fun x => x.2.loop == key)).length then
    s.failCmd c.cid .noResource
  else match freeListSlot s key l.desc with
    | none => s.failCmd c.cid .noResource
    | some i =>
      let n := s.serving.nextSess
      (s.onServing (fun v => { v with
        loops := Tab.put v.loops key l, sessions := Tab.put v.sessions n (.fresh key c i), nextSess := n + 1 })).finish c.cid .ok
        (leBytes 4 n ++ leBytes 4 l.steps)

/-- SERVE_OPEN. While it waits for a page it is looked at again by its own row (notes/assumptions/16.md). -/
def execServeOpen (cid : Nat) (s : State) : Out :=
  done (s.accepted cid (fun c => c.opcode == 0x86) (fun c s =>
    let addr := c.p 0 8
    let key := loopKey c.flask addr
    if addr % 64 ≠ 0 || 2 ^ 48 ≤ addr || c.p 8 4 % 64 ≠ 0 || c.p 8 4 < 128 || !c.reserved 32 47 then s.failCmd cid .invalid else
    match s.flask? c.flask with
    | none => s.failCmd cid .invalid
    | some f =>
      match Tab.find? s.serving.loops key with
      | some l => s.openSession c key l
      | none =>
        match readFlask s c.flask addr 256 with
        | .wait p => s.cmdWaits c p
        | .fail st => (s.blame c.flask addr 256 st).failCmd cid st
        | .ok d =>
          match (if svForm d then readFlask s c.flask (fld d 136 8) (32 * svNRole d) else .ok []) with
          | .wait p => s.cmdWaits c p
          | .fail st => (s.blame c.flask (fld d 136 8) (32 * svNRole d) st).failCmd cid st
          | .ok roles =>
            match svCheck s c.flask f d roles with
            | .ok => s.openSession c key { desc := d, roles, steps := 0, decode := none, prefill := none }
            | st => s.failCmd cid st))

/-! ## Pages (11 R259, R260) -/

/-- Key of page j of (layer, head). -/
def pageKey (layer head j : Nat) : Nat := (layer * 64 + head) * 4096 + j

/-- Head of a page key. -/
def headOfKey (k : Nat) : Nat := k / 4096 % 64

/-- An engine and a page number in its slice. -/
def placeOf (e n : Nat) : Nat := e * 2 ^ 40 + n

/-- Virtual address of a page by its place. -/
def pageVa (d : List Byte) (p : Nat) : Nat :=
  let e := p / 2 ^ 40
  fld d 184 8 + e / 64 * fld d 192 8 + e % 64 * (svPoolLen d / 64) + p % 2 ^ 40 * kvBytes (svDim d)

/-- Page numbers used on an engine by the sessions of a loop. -/
def usedPages (s : State) (loop e : Nat) : List Nat :=
  s.serving.sessions.flatMap (fun x => if x.2.loop = loop then
    x.2.pages.filterMap (fun p => if p.2 / 2 ^ 40 = e then some (p.2 % 2 ^ 40) else none) else [])

/-- Free pages of an engine. -/
def freePages (s : State) (loop : Nat) (d : List Byte) (e : Nat) : Nat := sliceCap d - (usedPages s loop e).length

/-- The lowest free page of an engine. -/
def freePage (s : State) (loop : Nat) (d : List Byte) (e : Nat) : Option Nat :=
  let u := usedPages s loop e
  if stackUp s (e / 64) then (upto (min (sliceCap d) (u.length + 1))).find? (fun n => !u.contains n) else none

/-- Engines of half h = 2 stack + half. -/
def halfEngines (h : Nat) : List Nat := (upto 32).map (fun i => 64 * (h / 2) + 32 * (h % 2) + i)

/-- The member of a list with the most free pages, the first on a tie. -/
def mostFree (free : Nat → Nat) : List Nat → Option Nat
  | [] => none
  | a :: t => match mostFree free t with
    | none => some a
    | some b => if free b ≤ free a then some a else some b

/-- The home that a (session, head) pair receives: the half of a present stack with the most free pages. -/
def chooseHome (s : State) (loop : Nat) (d : List Byte) : Nat :=
  (mostFree (fun h => ((halfEngines h).map (freePages s loop d)).sum) ((upto 16).filter (fun h => stackUp s (h / 2)))).getD 0

/-- Home of a head of a session. -/
def Session.home (x : Session) (head : Nat) : Nat := x.homes.getD head 0

/-- Engine of page j of a head (11 R259). -/
def Session.engine (x : Session) (head j : Nat) : Nat := 64 * (x.home head / 2) + 32 * (x.home head % 2) + j % 32

/-- Spill slots in use in a loop. -/
def usedSlots (s : State) (loop : Nat) : List Nat :=
  s.serving.sessions.flatMap (fun x => if x.2.loop = loop then x.2.spill.map (fun p => p.2 % 2 ^ 40) else [])

/-- Spill slots of a loop in all. -/
def slotCount (d : List Byte) : Nat := fld d 176 8 / spillBytes d

/-- The lowest free spill slot. -/
def freeSlot (s : State) (loop : Nat) (d : List Byte) : Option Nat :=
  let u := usedSlots s loop
  (upto (min (slotCount d) (u.length + 1))).find? (fun n => !u.contains n)

/-- A session loses its cache (11 R260, R270). -/
def State.forget (s : State) (n : Nat) : State := s.onSession n (fun x => { x with ctxLen := 0, pages := [], spill := [] })

/-- Copy pages out to spill slots: the page that a copy waits for, if it waits. A line in error, a place that cannot be written, or a
page whose patience has expired (`late`) ends the copy and the session's cache (11 R260, R270; notes/assumptions/124.md). -/
def State.spillPages (s : State) (n loop : Nat) (d : List Byte) (late : Bool) : List (Nat × Nat) → Option Nat × State
  | [] => (none, s.onSession n (fun x => { x with st := .parked, pages := [] }))
  | (k, p) :: t =>
    let flask := flaskOfLoop loop
    let out (s : State) (a : Nat) : Option Nat × State := if late then (none, s.forget n) else (some a, s)
    match readFlask s flask (pageVa d p) (kvBytes (svDim d)), freeSlot s loop d with
    | .ok bs, some i =>
      (match s.tryWrite flask (fld d 168 8 + i * spillBytes d) (padTo (spillBytes d) bs) with
        | (.ok _, s) => State.spillPages (s.onSession n (fun x => { x with spill := Tab.put x.spill k (placeOf (p / 2 ^ 40) i) })) n loop d late t
        | (.wait a, s) => out s a
        | (.fail _, s) => (none, s.forget n))
    | .wait a, _ => out s a
    | .fail st, _ => (none, (s.blame flask (pageVa d p) (kvBytes (svDim d)) st).forget n)
    | _, none => (none, s.forget n)

/-- The idle session to park next: the oldest last token whose pages fit in the spill area (11 R260). -/
def parkable (s : State) (loop : Nat) (d : List Byte) : Option (Nat × Session) :=
  let free := slotCount d - (usedSlots s loop).length
  let l := s.serving.sessions.filter (fun x => x.2.loop == loop && x.2.st == .idle && x.2.req.isNone && !x.2.pages.isEmpty &&
    x.2.pages.length ≤ free)
  l.foldl (fun (b : Option (Nat × Session)) x => match b with
    | none => some x
    | some y => match y.2.lastTok, x.2.lastTok with
      | some t, some u => if u < t then some x else b
      | some _, none => some x
      | none, _ => b) none

/-- What an allocation comes to: a page by its place, none, or the page that parking waits for. -/
inductive PoolGot where
  | page (p : Nat)
  | none
  | wait (a : Nat)
  deriving DecidableEq, Repr

/-- A page of one of the engines, parking idle sessions until one has room. The fuel is the number of sessions. -/
def State.poolPage (s : State) (loop : Nat) (d : List Byte) (es : State → Option Nat) (late : Bool) : Nat → PoolGot × State
  | 0 => (.none, s)
  | fuel + 1 =>
    match (es s).bind (fun e => (freePage s loop d e).map (placeOf e)) with
    | some p => (.page p, s)
    | none => match parkable s loop d with
      | none => (.none, s)
      | some (n, x) => match s.spillPages n loop d late x.pages with
        | (none, s) => State.poolPage s loop d es late fuel
        | (some a, s) => (.wait a, s.onSession n (fun x => { x with spill := [] }))

/-- What allocating a session's pages comes to. -/
inductive Took where
  | ok
  | none
  | wait (a : Nat)
  deriving DecidableEq, Repr

/-- Allocate the pages of a list of keys for session n, each on its engine. Where no idle session makes room, or parking waits, the
session's pages stay as they were (`x`); what has been parked stays parked (11 R260). -/
def State.takePages (s : State) (n loop : Nat) (d : List Byte) (x : Session) (late : Bool) : List Nat → Took × State
  | [] => (.ok, s)
  | k :: t =>
    let back (s : State) : State := s.onSession n (fun y => { y with pages := x.pages })
    match s.poolPage loop d (fun _ => some (x.engine (headOfKey k) (k % 4096))) late (s.serving.sessions.length + 1) with
    | (.none, s) => (.none, back s)
    | (.wait a, s) => (.wait a, back s)
    | (.page p, s) => State.takePages (s.onSession n (fun x => { x with pages := Tab.put x.pages k p })) n loop d x late t

/-- Keys of the pages that positions [lo, hi) of a session need and that it does not hold (11 R259). -/
def needKeys (d : List Byte) (x : Session) (lo hi : Nat) : List Nat :=
  (upto (ceilDiv hi 64)).flatMap (fun j => if j < lo / 64 then [] else
    (upto (svLayers d)).flatMap (fun l => (upto (svHeads d)).filterMap (fun h =>
      if Tab.has x.pages (pageKey l h j) then none else some (pageKey l h j))))

/-- Address of the page list of (session, layer, head). -/
def listAddr (d : List Byte) (x : Session) (layer head : Nat) : Nat :=
  svList d + x.listSlot * listBytes d + (layer * svHeads d + head) * (svMaxCtx d / 64) * 8

/-- Bytes of the page list of (layer, head) for n tokens: V is 64 but for the last (11 R259). -/
def pageList (d : List Byte) (x : Session) (layer head n : Nat) : List Byte :=
  let c := ceilDiv n 64
  (upto c).flatMap (fun j =>
    leBytes 8 (pageVa d (Tab.get 0 x.pages (pageKey layer head j)) + (if j + 1 = c then n - 64 * j else 64) * 2 ^ 48))

/-- The page lists of a session for n tokens: addresses and bytes. -/
def sessionLists (d : List Byte) (x : Session) (n : Nat) : List (Nat × List Byte) :=
  (upto (svLayers d)).flatMap (fun l => (upto (svHeads d)).map (fun h => (listAddr d x l h, pageList d x l h n)))

/-! ## Requests (11 R262, R263, R269) -/

/-- The form of a SERVE_REQUEST. -/
def requestForm (c : Cmd) : Bool :=
  let t := BitVec.ofNat 32 (c.p 20 4)
  let p := BitVec.ofNat 32 (c.p 24 4)
  1 ≤ c.p 4 4 && c.p 4 4 ≤ 65536 && c.p 8 8 % 64 = 0 && 1 ≤ c.p 16 4 && c.p 16 4 ≤ 65536 && (t = 0 || (posNormal? t).isSome) &&
  0 < p.toNat && p.toNat ≤ 0x3F800000 && c.p 28 2 ≤ 1024 && c.p 30 1 < 8 && c.reserved 31 31 && c.reserved 40 47

/-- A session of the queue that carries a command. -/
def sessionOf (s : State) (c : Cmd) : Option Session :=
  match s.session? (c.p 0 4) with
  | some x => if x.qnum = c.qnum then some x else none
  | none => none

/-- A SERVE_CLOSE of the session waits, or its queue is being deleted. -/
def closing (s : State) (n : Nat) (x : Session) : Bool :=
  s.qb.cmds.any (fun c => c.work == .sessEnd n true) ||
  (match s.queue? x.qnum with | some q => q.st == .deleting | none => true)

/-- The request of an accepted SERVE_REQUEST. -/
def Req.fresh (c : Cmd) (input : List Nat) : Req :=
  { cid := c.cid, tag := c.tag, flask := c.flask, prio := c.prio, input, maxNew := c.p 16 4, temp := BitVec.ofNat 32 (c.p 20 4),
    topP := BitVec.ofNat 32 (c.p 24 4), topK := c.p 28 2, noStop := (c.p 30 1).testBit 1, tokenIrq := (c.p 30 1).testBit 2,
    seed := BitVec.ofNat 64 (c.p 32 8), out := 0, flags := 0, ending := none }

/-- A session with input takes its next state: READY with its last input token, else PREFILL (11 R263, R264). -/
def Session.begin (x : Session) : Session :=
  match x.req with
  | none => { x with st := .idle }
  | some r => match r.input with
    | [t] => { x with st := .ready, token := t }
    | _ => { x with st := .prefill }

/-- SERVE_REQUEST. While it waits for a page it is looked at again by its own row (notes/assumptions/16.md). -/
def execServeRequest (cid : Nat) (bad : Bool) (s : State) : Out :=
  done (s.accepted cid (fun c => c.opcode == 0x87) (fun c s =>
    if !requestForm c then s.failCmd cid .invalid else
    match sessionOf s c with
    | none => s.failCmd cid .notPresent
    | some x =>
      match Tab.find? s.serving.loops x.loop with
      | none => s.failCmd cid .notPresent
      | some l =>
        if bad && (c.p 30 1).testBit 0 then s.failCmd cid .uncorrectable else
        match (if (c.p 30 1).testBit 0 then .ok (s.hostRead (c.p 8 8) (4 * c.p 4 4)) else readFlask s c.flask (c.p 8 8) (4 * c.p 4 4)) with
        | .wait p => s.cmdWaits c p
        | .fail st => (s.blame c.flask (c.p 8 8) (4 * c.p 4 4) st).failCmd cid st
        | .ok b =>
          let input := (upto (c.p 4 4)).map (fun i => fld b (4 * i) 4)
          if input.any (fun t => svVocab l.desc ≤ t) || x.maxCtx - 1 < x.ctxLen + c.p 4 4 then s.failCmd cid .invalid
          else if closing s (c.p 0 4) x then s.failCmd cid .notPresent
          else if x.req.isSome then s.failCmd cid .busy
          else
            let homes := if x.homes.isEmpty then (upto (svHeads l.desc)).map (fun _ => chooseHome s x.loop l.desc) else x.homes
            let s := s.onSession (c.p 0 4) (fun x =>
              let y := { x with homes, req := some (Req.fresh c input), order := s.serving.nextOrder }
              if x.st = .parked then y else y.begin)
            (s.onServing (fun v => { v with nextOrder := v.nextOrder + 1 })).onCmd cid (fun x => { x with work := .serve (c.p 0 4) })))

/-- SERVE_CANCEL (11 R269). -/
def execServeCancel (cid : Nat) (s : State) : Out :=
  done (s.accepted cid (fun c => c.opcode == 0x88) (fun c s =>
    if !c.reserved 4 47 then s.failCmd cid .invalid else
    match sessionOf s c with
    | none => s.failCmd cid .notPresent
    | some x =>
      if x.req.isNone then s.failCmd cid .notPresent
      else (s.onCmd cid (fun y => { y with work := .sessEnd (c.p 0 4) false })).endAtBoundary (c.p 0 4) 4 .discarded))

/-- SERVE_CLOSE (11 R269). -/
def execServeClose (cid : Nat) (s : State) : Out :=
  done (s.accepted cid (fun c => c.opcode == 0x89) (fun c s =>
    if !c.reserved 4 47 then s.failCmd cid .invalid else
    match sessionOf s c with
    | none => s.failCmd cid .notPresent
    | some x =>
      if x.req.isNone then (s.dropSession (c.p 0 4)).finish cid .ok zeros16
      else (s.onCmd cid (fun y => { y with work := .sessEnd (c.p 0 4) true })).endAtBoundary (c.p 0 4) 5 .discarded))

/-- What bringing a parked session back comes to: whether every page came back to its engine; no room; a page to wait for; an error. -/
inductive Returned where
  | ok (same : Bool)
  | none
  | wait (a : Nat)
  | bad
  deriving DecidableEq, Repr

/-- Bring the pages of a parked session back, each to its engine or to the engine of its half with the most room (11 R260). -/
def State.returnPages (s : State) (n loop : Nat) (d : List Byte) (x : Session) : List (Nat × Nat) → Bool → Returned × State
  | [], same => (.ok same, s)
  | (k, v) :: t, same =>
    let e := v / 2 ^ 40
    let flask := flaskOfLoop loop
    let src := fld d 168 8 + v % 2 ^ 40 * spillBytes d
    let back (s : State) : State := s.onSession n (fun y => { y with pages := x.pages })
    let es (s : State) : Option Nat := if (freePage s loop d e).isSome then some e
      else mostFree (freePages s loop d) (halfEngines (x.home (headOfKey k)))
    match s.poolPage loop d es false (s.serving.sessions.length + 1) with
    | (.none, s) => (.none, back s)
    | (.wait a, s) => (.wait a, back s)
    | (.page p, s) =>
      match readFlask s flask src (kvBytes (svDim d)) with
      | .ok bs =>
        (match s.tryWrite flask (pageVa d p) bs with
          | (.ok _, s) => State.returnPages (s.onSession n (fun x => { x with pages := Tab.put x.pages k p })) n loop d x t (same && p / 2 ^ 40 == e)
          | (.wait a, s) => (.wait a, back s)
          | (.fail _, s) => (.bad, s))
      | .wait a => (.wait a, back s)
      | .fail st => (.bad, s.blame flask src (kvBytes (svDim d)) st)

/-- UNPARK (11 R260): a parked session with a request; `bad` is an uncorrectable error in a copy. -/
def execUnpark (session : Nat) (bad : Bool) (s : State) : Out :=
  done (match s.session? session with
    | none => s
    | some x =>
      match Tab.find? s.serving.loops x.loop with
      | none => s
      | some l =>
        if x.st ≠ .parked || x.req.isNone then s
        else if bad then (s.forget session).onSession session Session.begin
        else if s.faults.any (fun f => f.who == .loop (4 * x.loop + 2)) then s
        else match s.returnPages session x.loop l.desc x x.spill true with
          | (.none, s) => (s.endRequest session 8 .noResource).onSession session (fun x => { x with st := .parked })
          | (.ok same, s) => s.onSession session (fun x => { x with placed := x.placed || !same, spill := [] }.begin)
          | (.wait p, s) => s.pageFault (flaskOfLoop x.loop) p (.loop (4 * x.loop + 2)) (patienceOf s (flaskOfLoop x.loop))
          | (.bad, s) => (s.forget session).onSession session Session.begin)

/-! ## Step heats (11 R257, R258, R264) -/

/-- A row of a step: its session's number and record, position and token. -/
structure Row where
  n : Nat
  x : Session
  pos : Nat
  token : Nat
  deriving DecidableEq, Repr

/-- The binding value of a role (11 R258). -/
def bindValue (d : List Byte) (rows : List Row) (block : Nat) (tokens : Nat) (r : Role) : Nat :=
  match (rows[r.row]?).orElse (fun _ => rows.head?) with
  | none => r.const
  | some w =>
    let h := w.x.home r.head
    match r.role with
    | 0x01 => block + r.const
    | 0x10 => setBits (setBits r.const 39 32 (h / 2)) 47 40 (32 * (h % 2))
    | 0x11 => setBits r.const 31 16 (ceilDiv (w.pos + tokens) 64)
    | 0x12 => listAddr d w.x r.layer r.head
    | _ => fld d (208 + 16 * r.area) 8 + h / 2 * fld d (216 + 16 * r.area) 8 + r.const

/-- The instance of one stored descriptor: its patches take their binding values (09 R219). -/
def instanceOf (p : Pattern) (bind : Nat → Nat) (i : Nat) (d : List Byte) : List Byte :=
  p.patches.foldl (fun d x => if x.1 = i then overlay d (8 * x.2.1) (leBytes 8 (bind x.2.2)) else d) d

/-- The nodes of a step heat, whose instance the loop holds (notes/assumptions/31.md). -/
def stepNodes (s : State) (flask : Nat) (f : Flask) (p : Pattern) (bind : Nat → Nat) : Loaded :=
  match readFlask s flask p.store (64 * p.count + 128 * p.count) with
  | .wait a => .wait a 0
  | .fail st => .fail st 0
  | .ok b =>
    let ents := (upto p.count).map (fun i => slice b (64 * i) 64)
    let desc (i : Nat) := instanceOf p bind i (slice b (64 * p.count + 128 * i) 128)
    match ents.zipIdx.findSome? (fun e => (entryCheck s f false e.2 e.1).map (fun st => (st, e.2))) with
    | some (st, i) => .fail st i
    | none => .ok ((ents.zipIdx).map (fun e => loadNode e.1 (if hasDesc (entClass e.1) then desc e.2 else [])))

/-- The header of a step block (11 R257). -/
def stepHeader (steps b rows kind start count : Nat) : List Byte :=
  padTo 64 (leBytes 4 steps ++ leBytes 2 b ++ leBytes 2 rows ++ leBytes 1 kind ++ leBytes 3 0 ++
    (if kind = 1 then leBytes 4 start ++ leBytes 4 count else []))

/-- A row of a decode block; SAMPLED is written when the step has sampled. -/
def rowBytesOf (token pos n sampled : Nat) : List Byte := leBytes 4 token ++ leBytes 4 pos ++ leBytes 4 n ++ leBytes 4 sampled

/-- A decode step block. -/
def decodeBlock (steps : Nat) (rows : List Row) (width : Nat) : List Byte :=
  stepHeader steps rows.length width 0 0 0 ++ rows.flatMap (fun r => rowBytesOf r.token r.pos r.n 0) ++
  (List.replicate (width - rows.length) (rowBytesOf 0 0 0xFFFFFFFF 0)).flatten

/-- Write pieces of flask memory, as whole lines; the first page that is not resident, or a failing range, stops it. -/
def State.writeAll (s : State) (flask : Nat) : List (Nat × List Byte) → Got × State
  | [] => (.ok [], s)
  | (a, b) :: t => match s.tryPatch flask a b with
    | (.ok _, s) => s.writeAll flask t
    | r => r

/-- A loop waits for a page of its own areas, or goes on waiting; `what` is 0 for a decode step, 1 for a prefill step, 3 for the sampling. -/
def State.loopWaits (s : State) (key what : Nat) (page : Nat) : State :=
  let w := Waiter.loop (4 * key + what)
  if s.faults.any (fun f => f.who == w) then s else s.pageFault (flaskOfLoop key) page w (patienceOf s (flaskOfLoop key))

/-- Requests of these sessions end for want of pages (11 R260). -/
def State.endNoPages (s : State) (l : List Nat) : State := l.foldl (fun s n => s.endRequest n 8 .noResource) s

/-- What a step heat is made of. -/
structure StepPlan where
  prefill : Bool
  pattern : Nat
  rows : List Row
  /-- tokens per row: 1, or the chunk of a prefill -/
  tokens : Nat
  width : Nat
  array : Bool
  block : List Byte

/-- Write the step block and the page lists, and submit the step heat; an uncorrectable error in the pattern store faults the flask
(09 R225). A page that is not resident makes the loop wait; when the
patience has expired (`late`), the heat ends as a load failure (09 R495). -/
def State.submitStep (s : State) (key : Nat) (l : Loop) (p : StepPlan) (late : Bool) : State :=
  let d := l.desc
  let flask := flaskOfLoop key
  let addr := svStep d + if p.prefill then 32768 else 0
  match s.flask? flask, Tab.find? s.graph.patterns p.pattern with
  | some f, some pat =>
    if f.nodeQuota < entriesHeld s flask + pat.count then s else
    let rows := p.rows.map (fun r => match s.session? r.n with | some x => { r with x } | none => r)
    let writes := (addr, p.block) :: rows.flatMap (fun r => sessionLists d r.x (r.pos + p.tokens))
    let (g, t) := s.writeAll flask writes
    let g := match g with | .wait a => if late then Got.fail .pageTimeout else .wait a | g => g
    match g with
    | .wait a => s.loopWaits key (if p.prefill then 1 else 0) a
    | g =>
      let s := t
      let roles := rolesOf l.roles
      let bind (slot : Nat) : Nat := match roles.find? (fun r => r.pattern == p.pattern && r.slot == slot) with
        | some r => bindValue d rows addr p.tokens r
        | none => 0
      let loaded : Loaded := match g with | .fail st => .fail st 0 | _ => stepNodes s flask f pat bind
      let loaded := match loaded with | .wait a i => if late then Loaded.fail .pageTimeout 0 else .wait a i | r => r
      if (match g with | .ok _ => true | _ => false) && loaded == .fail .uncorrectable 0 then
        (s.blame flask pat.store (192 * pat.count) .uncorrectable).flaskFault flask none
      else
      match loaded with
      | .wait a _ => s.loopWaits key (if p.prefill then 1 else 0) a
      | r =>
        let id := 2 ^ 32 + s.graph.nextSeq % 2 ^ 32
        let k := heatKey flask id
        let h : Heat :=
          { id, flask, cid := none, loop := some (key, p.prefill), prio := (rows.filterMap (fun r => r.x.req.map (·.prio))).foldl min 7,
            seq := s.graph.nextSeq, accTime := s.time, timeout := 0, count := pat.count, nodeAddr := 0, recAddr := 0,
            pattern := some p.pattern, bindAddr := 0
            phase := match r with | .ok _ => .running | _ => .ending
            nodes := match r with | .ok n => n | _ => []
            verdict := match r with | .fail st i => some (st, i) | _ => none
            firstStale := none }
        let st : Step := { heat := k, rows := rows.map (fun r => (r.n, r.pos, r.token)), array := p.array, count := p.tokens }
        let s := (s.addHeat k h).onServing (fun v => { v with loops := Tab.mod v.loops key (fun l =>
          let l := { l with steps := l.steps + 1 }
          if p.prefill then { l with prefill := some st } else { l with decode := some st }) })
        (if p.prefill then s else rows.foldl (fun s r => s.onSession r.n (fun x => { x with st := .step })) s).progress k
  | _, _ => s

/-- PRIORITY of a session's request. -/
def Session.prio (x : Session) : Nat := match x.req with | some r => r.prio | none => 8

/-- A goes before b in the order of 11 R264: PRIORITY, time of the last token (none first, by acceptance), session number. -/
def batchLe (a b : Nat × Session) : Bool :=
  if a.2.prio = b.2.prio then
    match a.2.lastTok, b.2.lastTok with
    | none, none => a.2.order ≤ b.2.order
    | none, some _ => true
    | some _, none => false
    | some t, some u => if t = u then a.1 ≤ b.1 else t < u
  else a.2.prio < b.2.prio

/-- The READY sessions of a loop in the order of 11 R264. -/
def readyOrder (s : State) (key : Nat) : List (Nat × Session) :=
  (s.serving.sessions.filter (fun x => x.2.loop == key && x.2.st == .ready)).mergeSort batchLe

/-- READY and HELD follow the CQ of the session's queue (11 R263). -/
def State.holdReady (s : State) (key : Nat) : State :=
  s.onServing (fun v => { v with sessions := v.sessions.map (fun x =>
    if x.2.loop = key && (x.2.st = .ready || x.2.st = .held) then
      let room := match (s.queue? x.2.qnum).bind (cqOwner s) with | some o => o.cqRoom | none => false
      (x.1, { x.2 with st := if room then .ready else .held })
    else x) })

/-- Take sessions in order while they have their pages, up to n rows; those without end (11 R260, R264). The first page that parking
waits for stops it. -/
def State.formBatch (s : State) (key : Nat) (d : List Byte) (late : Bool) : List (Nat × Session) → Nat → List Nat → List Nat × Option Nat × State
  | [], _, acc => (acc, none, s)
  | _, 0, acc => (acc, none, s)
  | (n, x) :: t, k + 1, acc =>
    match s.takePages n key d x late (needKeys d x x.ctxLen (x.ctxLen + 1)) with
    | (.ok, s) => State.formBatch s key d late t k (acc ++ [n])
    | (.none, s) => State.formBatch (s.endNoPages [n]) key d late t (k + 1) acc
    | (.wait a, s) => (acc, some a, s)

/-- A loop's next decode step: the batch is formed and its heat is submitted (11 R264). -/
def State.decodeStep (s : State) (loop : Nat) (late : Bool) : State :=
  match Tab.find? s.serving.loops loop with
    | none => s
    | some l =>
      if l.decode.isSome || s.faults.any (fun f => f.who == .loop (4 * loop)) then s else
      let d := l.desc
      let s := s.holdReady loop
      match s.formBatch loop d late (readyOrder s loop) (svMaxBatch d) [] with
      | (_, some a, s) => s.loopWaits loop 0 a
      | (ns, none, s) =>
        if ns.isEmpty then s else
        let rows := (s.serving.sessions.filter (fun x => ns.contains x.1)).map (fun x =>
          ({ n := x.1, x := x.2, pos := x.2.ctxLen, token := x.2.token } : Row))
        let b := rows.length
        let (pat, width) := if b ≤ 8 then (svPatH d b, b) else ((svPatA d).find? (fun p => b ≤ p.2)).getD (0, b)
        s.submitStep loop l { prefill := false, pattern := pat, rows, tokens := 1, width, array := decide (8 < b),
                              block := decodeBlock l.steps rows width } late

/-- DECODE_STEP (11 R264). -/
def execDecodeStep (loop : Nat) (s : State) : Out := done (s.decodeStep loop false)

/-- A loop's next prefill step: the next chunk of the first session in PREFILL (11 R264). -/
def State.prefillStep (s : State) (loop : Nat) (late : Bool) : State :=
  match Tab.find? s.serving.loops loop with
    | none => s
    | some l =>
      if l.prefill.isSome || s.faults.any (fun f => f.who == .loop (4 * loop + 1)) then s else
      let d := l.desc
      let cand := (s.serving.sessions.filter (fun x => x.2.loop == loop && x.2.st == .prefill)).mergeSort (fun a b => a.2.order ≤ b.2.order)
      match cand with
      | [] => s
      | (n, x) :: _ =>
        let input := match x.req with | some r => r.input | none => []
        let c := min (svChunk d) (input.length - 1)
        match s.takePages n loop d x late (needKeys d x x.ctxLen (x.ctxLen + c)) with
        | (.none, s) => s.endNoPages [n]
        | (.wait a, s) => s.loopWaits loop 1 a
        | (.ok, s) =>
          let block := stepHeader l.steps 1 1 1 x.ctxLen c ++ (input.take c).flatMap (leBytes 4)
          s.submitStep loop l { prefill := true, pattern := svPrefill d, rows := [{ n, x, pos := x.ctxLen, token := 0 }], tokens := c,
                                width := 1, array := false, block } late

/-- PREFILL_STEP (11 R264). -/
def execPrefillStep (loop : Nat) (s : State) : Out := done (s.prefillStep loop false)

/-! ## Sampling (11 R265) -/

/-- What a row samples: a token with LOGPROB, or nothing. -/
abbrev Sampled := Option (Nat × W32)

/-- Index of the first member that satisfies p. -/
def firstIdx (l : List W32) (p : W32 → Bool) : Option Nat := l.findIdx? p

/-- The greedy choice: the lowest index of the largest finite logit. -/
def greedy (z : List W32) : Option Nat :=
  ((z.zipIdx).foldl (fun (b : Option (W32 × Nat)) x =>
    if !f32IsFin x.1 then b else match b with
      | none => some x
      | some y => if f32Key y.1 < f32Key x.1 then some x else b) none).map (·.2)

/-- Running sums in list order. -/
def sums (f : W32 → W32 → W32) : W32 → List W32 → List W32
  | _, [] => []
  | a, w :: t => f a w :: sums f (f a w) t

/-- The sampled choice at a temperature. -/
def sampleAt (z : List W32) (temp topP : W32) (topK : Nat) (u : W32) : Sampled :=
  let inv := vfElem .rcp temp
  let y := ((z.zipIdx).map (fun x => (vMul x.1 inv, x.2))).filter (fun x => f32IsFin x.1 && f32IsFin (z.getD x.2 0))
  let srt := y.mergeSort (fun a b => f32Key b.1 ≤ f32Key a.1)
  let l := if topK = 0 then srt else srt.take topK
  match l with
  | [] => none
  | a :: _ =>
    let w := l.map (fun x => vfElem .exp (vSub x.1 a.1))
    let c := sums vAdd 0 w
    let lim := vMul topP (c.getLastD 0)
    let k := match firstIdx c (fun v => vCmp .ge v lim) with | some i => i + 1 | none => c.length
    let sm := (c.take k).getLastD 0
    let x := vMul (f32OfDyadic false ((u.toNat >>> 8 : Nat), -24)) sm
    let i := match firstIdx (c.take k) (fun v => vCmp .gt v x) with | some i => i | none => k - 1
    some ((l.getD i (0, 0)).2, vfElem .ln (vMul (w.getD i 0) (vfElem .rcp sm)))

/-- The token of a row and its LOGPROB (11 R265). -/
def sample (z : List W32) (temp topP : W32) (topK : Nat) (u : W32) : Sampled :=
  match firstIdx z (fun v => v == f32Inf false) with
  | some j => some (j, 0)
  | none => if temp = 0 then (greedy z).map (fun j => (j, 0)) else sampleAt z temp topP topK u

/-- LOGPROB as BF16, to nearest even (11 R266). -/
def bf16Of (w : W32) : Nat := (convert (f32 w) .fp32 .bf16 0 (1, 0) 0 0).code

/-! ## STEP_COMPLETE (11 R266 to R270) -/

/-- A token entry (11 R266). -/
def State.postToken (s : State) (n : Nat) (x : Session) (r : Req) (tok pos : Nat) (lp : W32) (flags : Nat) : State :=
  s.enter { cid := none, qnum := x.qnum, tag := r.tag, stat := postedStat s .ok, opcode := 0x87, flask := r.flask, intr := r.tokenIrq,
            result := leBytes 4 n ++ leBytes 4 tok ++ leBytes 4 pos ++ leBytes 2 (bf16Of lp) ++ leBytes 1 0 ++ leBytes 1 flags }

/-- The reason at a token entry, the lowest code first (11 R267). -/
def endReason (x : Session) (r : Req) (tok pos : Nat) : Option Nat :=
  if x.stop.contains tok && !r.noStop then some 1 else if r.maxNew ≤ r.out then some 2 else if pos = x.maxCtx - 1 then some 3 else none

/-- Status of a reason that holds between steps (11 R267). -/
def reasonStat (k : Nat) : Stat := if k = 6 then .timeout else .discarded

/-- FLAGS of a step that samples no token for a row (11 R266, R268). -/
def stepFlags (st : Step) (x : Session) : Nat := (if st.array then 1 else 0) + if x.placed then 2 else 0

/-- Address of row i's logits. -/
def logitsVa (d : List Byte) (i : Nat) : Nat := svLogits d + i * svVocab d * 4

/-- Address of SAMPLED of row i of the decode block. -/
def sampledVa (d : List Byte) (i : Nat) : Nat := svStep d + 64 + 16 * i + 12

/-- One row of a decode step that succeeded. A session whose request is gone has lost its row (11 R271). -/
def State.rowDone (s : State) (key : Nat) (l : Loop) (st : Step) (i : Nat) (row : Nat × Nat × Nat) : State :=
  match s.session? row.1 with
  | none => s
  | some x =>
    match x.req with
    | none => s
    | some r =>
      let s := s.onSession row.1 (fun x => { x with ctxLen := row.2.1 + 1, req := some { r with flags := stepFlags st x } })
      match r.ending with
      | some k => s.endRequest row.1 k (reasonStat k)
      | none =>
        let d := l.desc
        let flask := flaskOfLoop key
        let pos := row.2.1 + 1
        match readFlask s flask (logitsVa d i) (4 * svVocab d) with
        | .ok b =>
          let z := (upto (svVocab d)).map (fun j => BitVec.ofNat 32 (fld b (4 * j) 4))
          let u := (streamOf (nomixOf s flask) r.seed x.key).word pos
          match sample z r.temp r.topP r.topK u with
          | none => s.endRequest row.1 9 .invalid
          | some (tok, lp) =>
            let flags := stepFlags st x + if x.stop.contains tok then 4 else 0
            let s := (s.tryPatch flask (sampledVa d i) (leBytes 4 tok)).2
            let s := s.postToken row.1 x r tok pos lp flags
            let r := { r with out := r.out + 1, flags, input := [] }
            let s := s.onSession row.1 (fun x => { x with st := .ready, token := tok, lastTok := some s.time, placed := false, req := some r })
            match endReason x r tok pos with
            | some k => s.endRequest row.1 k .ok
            | none => s
        | .fail e => (s.blame flask (logitsVa d i) (4 * svVocab d) e).stepFailed d e row.1 row.2.1
        | .wait _ => s.stepFailed d .pageTimeout row.1 row.2.1

/-- The row of a prefill heat that succeeded: its tokens are cached. -/
def State.prefillDone (s : State) (st : Step) (row : Nat × Nat × Nat) : State :=
  match s.session? row.1 with
  | none => s
  | some x =>
    match x.req with
    | none => s
    | some r =>
      let s := s.onSession row.1 (fun x => { x with ctxLen := row.2.1 + st.count, req := some { r with input := r.input.drop st.count, flags := stepFlags st x } })
      match r.ending with
      | some k => s.endRequest row.1 k (reasonStat k)
      | none => s.onSession row.1 Session.begin

/-- The tiles that sample a step of b rows: V0 the even rows, V1 the odd ones (11 R264; notes/assumptions/124.md). -/
def sampleTiles (d : List Byte) (b : Nat) : List Nat :=
  let i := (unpackCluster (fld d 52 2)).getD 0
  if b < 2 then [2 * i] else [2 * i, 2 * i + 1]

/-- ACLK cycles of a step's sampling nodes (11 R264). -/
def sampleCycles (d : List Byte) (b : Nat) : Nat := 4 * ceilDiv (svVocab d) 64 * ceilDiv b 2

/-- The page that a step's sampling waits for: of a row's logits, or of the block that takes SAMPLED. -/
def sampleWait (s : State) (key : Nat) (d : List Byte) (b : Nat) : Option Nat :=
  (upto b).findSome? (fun i =>
    (firstOut s (flaskOfLoop key) (logitsVa d i) (4 * svVocab d)).or (firstOut s (flaskOfLoop key) (sampledVa d i) 4))

/-- Every row of a step fails (11 R270). -/
def State.failRows (s : State) (d : List Byte) (st : Step) (e : Stat) : State :=
  st.rows.foldl (fun s r =>
    (s.onSession r.1 (fun x => { x with req := x.req.map (fun q => { q with flags := stepFlags st x }) })).stepFailed d e r.1 r.2.1) s

/-- A step heat leaves the graph engine and its loop. -/
def State.leaveStep (s : State) (loop : Nat) (prefill : Bool) (k : Nat) : State :=
  (s.dropHeat k).onServing (fun v => { v with loops := Tab.mod v.loops loop (fun l =>
    if prefill then { l with prefill := none } else { l with decode := none }) })

/-- The rows of a step whose heat has ended go on or end; a decode step samples first, on the vector tiles of SAMPLE_CLUSTER: a tile that is
out of service fails the step as a node's dispatch to it fails (09 R209, 11 R264, R270). `late`: the patience of a page that the
sampling waits for has expired. -/
def State.endStep (s : State) (loop : Nat) (l : Loop) (prefill : Bool) (k : Nat) (h : Heat) (st : Step) (late : Bool) : State :=
  let b := st.rows.length
  let tiles := sampleTiles l.desc b
  let t := s.leaveStep loop prefill k
  if h.outcome.1.failure then t.failRows l.desc st h.outcome.1
  else if prefill then st.rows.foldl (fun s r => s.prefillDone st r) t
  else if tiles.any (fun x => !vtileUp s x) then t.failRows l.desc st .notPresent
  else if late then t.failRows l.desc st .pageTimeout
  else if tiles.any (fun x => (s.vtile x).run.isSome) then s
  else match sampleWait s loop l.desc b with
    | some a => s.loopWaits loop 3 a
    | none =>
      let t := t.after (sampleCycles l.desc b * 1000 / max 1 (clusterMHz s ((tiles.headD 0) / 2)))
      (st.rows.zipIdx).foldl (fun s r => s.rowDone loop l st r.2 r.1) t

/-- The step of a loop whose heat has ended. -/
def State.stepEnd (s : State) (loop : Nat) (prefill late : Bool) : State :=
  match s.graph.heats.find? (fun h => h.2.loop == some (loop, prefill) && h.2.complete) with
  | none => s
  | some (k, h) =>
    match Tab.find? s.serving.loops loop with
    | none => s.dropHeat k
    | some l =>
      match (if prefill then l.prefill else l.decode) with
      | none => s.dropHeat k
      | some st => if st.heat ≠ k then s.dropHeat k else s.endStep loop l prefill k h st late

/-- STEP_COMPLETE: the step heat of a loop has ended and leaves the graph engine; its rows go on or end. While a tile of SAMPLE_CLUSTER
is busy, or a page is not resident, it waits (notes/assumptions/16.md). -/
def execStepComplete (loop : Nat) (prefill : Bool) (s : State) : Out := done (s.stepEnd loop prefill false)

/-- A session's rows leave the steps in flight. -/
def State.dropRows (s : State) (n : Nat) : State :=
  let cut (st : Step) : Step := { st with rows := st.rows.map (fun r => if r.1 = n then (0xFFFFFFFF, r.2) else r) }
  s.onServing (fun v => { v with loops := v.loops.map (fun l => (l.1, { l.2 with decode := l.2.decode.map cut, prefill := l.2.prefill.map cut })) })

/-- 11 R271: a stack became absent; the sessions with a home in it lose their context and their requests. -/
def State.stackLost (s : State) (k : Nat) : State :=
  let ns := (s.serving.sessions.filter (fun x => x.2.homes.any (fun h => h / 2 == k))).map (·.1)
  ns.foldl (fun s n => ((s.dropRows n).onSession n (fun x => { x with ctxLen := 0 })).endRequest n 7 .notPresent) s

end Sys2Proof.Machine
end

