-- ==== Sys2Proof/Machine/Network.lean ====
section
/-!
DEFINITION. The tile network (15): injection, the grant of an output, delivery, absorption and re-sends of the packets of user logic
and of the dispatches to it, which it carries flit by flit (notes/assumptions/32.md).
-/

namespace Sys2Proof.Machine

/-! ## Injection (15 R355, R357) -/

/-- Flits that wait at an input, link, class and channel. -/
def NetUnit.count (u : NetUnit) (inp link cls vc : Nat) : Nat :=
  (u.inq.filter (fun q => q.inp == inp && q.link == link && q.flit.cls == cls && q.flit.vc == vc)).length

/-- A flit enters a unit's input. -/
def State.enqueue (s : State) (u inp link : Nat) (f : Flit) : State :=
  s.onUnit u (fun x => { x with inq := x.inq ++ [{ inp, link, flit := f }] })

/-- A device endpoint injects at its own router. -/
def State.inject (s : State) (u : Nat) (f : Flit) : State := s.enqueue u 4 0 f

/-- A cluster endpoint may inject a flit: a credit at its router's local input and a token. -/
def canInject (s : State) (i port cls : Nat) : Bool :=
  let u := (s.unit i).refill s.time
  u.count 4 0 cls 0 < 8 && u.hasToken (4 * port + cls)

/-- A cluster endpoint injects through its bucket. -/
def State.injectPort (s : State) (i port : Nat) (f : Flit) : State :=
  (s.onUnit i (fun u => (u.refill s.time).spend (4 * port + f.cls))).inject i f

/-! ## Fabric ports as endpoints (13 R311, R312; 15 R361) -/

/-- Fabric port x = 4 i + q. -/
def State.fport (s : State) (x : Nat) : FPort := Tab.get .init s.fp x

/-- Change a fabric port. -/
def State.onPort (s : State) (x : Nat) (f : FPort → FPort) : State := s.onFp (fun t => Tab.upd .init t x f)

/-- PORT_UP: enabled, clocked and registered to a flask (13 R311). -/
def FPort.up (p : FPort) : Bool := p.en && p.fclk && !p.reconf && !p.breach && p.flask.isSome

/-- Flits of a class at RX. -/
def FPort.waiting (p : FPort) (cls : Nat) : Nat := (p.rx.filter (fun f => f.cls == cls)).length

/-- A line or message of a port that is outstanding. -/
def portReq (va tag : Nat) (write : Bool) (flit : Flit) : PReq := { tag, va, write, retry := 0, flit }

/-- A request of a port is answered at RX. With the class's 8 places taken the answer waits at the router's local input, as an answer from
afar does (01 R23). -/
def State.answer (s : State) (x tag op : Nat) (st : Stat) (data : List Byte) : State :=
  let p := s.fport x
  let f := rspFlit (routerPort (x / 4) (9 + x % 4)) tag (p.flask.getD 31) op st data
  let rest := p.outs.filter (fun r => r.tag != tag)
  if p.waiting 1 < 8 then s.onPort x (fun p => { p with outs := rest, rx := p.rx ++ [f] })
  else (s.onPort x (fun p => { p with outs := rest ++ [portReq 0 tag true { f with op := 1 }] })).inject (x / 4) f

/-! ### Requests on their way out (01 R22; 13 R312; 15 R350)

A TX flit stands in `tx` until each of its lines has left the port. A line that has not been sent has a flit without SRC: the router stamps
the source itself. -/

/-- Flask of a port. -/
def FPort.owner (p : FPort) : Nat := p.flask.getD 31

/-- The packet of a request whose address is translated. -/
def lineFlit (x dest : Nat) (p : FPort) (r : PReq) (addr : Nat) : Flit :=
  { cls := if r.write then 2 else 0, vc := 0, first := true, last := true, retry := r.retry, bad := false, dest,
    src := routerPort (x / 4) (9 + x % 4), tag := r.tag, flask := p.owner, op := r.flit.op, addr, payload := r.flit.payload }

/-- A request of port x is translated and leaves, waits for its page, or is answered; none where it has no credit or token. -/
def State.portSend (s : State) (x : Nat) (r : PReq) : Option State :=
  let p := s.fport x
  let go (dest addr : Nat) : Option State :=
    let f := lineFlit x dest p r addr
    if canInject s (x / 4) (9 + x % 4) f.cls then
      some ((s.onPort x (fun p => { p with outs := p.outs.map (fun q => if q.tag = r.tag then { r with flit := f } else q) })).injectPort
        (x / 4) (9 + x % 4) f)
    else none
  if r.flit.op ≠ 0 then go r.flit.dest 0 else
  match locate s p.owner r.va with
  | (.bad, _) => some (s.answer x r.tag (if r.write then 1 else 2) .invalid [])
  | (l, w) =>
    if r.write && !w then some (s.answer x r.tag 1 .invalid []) else
    match l with
    | .dev a => go (endpointOf s a) a
    | .host a => go (pxUnit 64) a
    | .out pg => some (s.pageFault p.owner pg (.port x r.tag) (patienceOf s p.owner))
    | .bad => some s

/-- A request of port x has not left, and its page, if it waits for one, is not out. -/
def unsent (s : State) (x : Nat) (r : PReq) : Bool := r.flit.src == 0 && !s.faults.any (fun f => f.who == .port x r.tag)

/-- The first request of a class that has not left. -/
def nextTx (s : State) (x cls : Nat) : Option PReq := (s.fport x).outs.find? (fun r => r.write == (cls == 2) && unsent s x r)

/-- Requests of a class leave port x in order while they have credit and tokens. -/
def State.sendTx (x cls : Nat) : Nat → State → State
  | 0, s => s
  | n + 1, s => match (nextTx s x cls).bind (s.portSend x) with | some t => State.sendTx x cls n t | none => s

/-- Tags that a TX flit names: of each line read, or its own. -/
def txTags (f : Flit) : List Nat :=
  if f.cls = 0 then (upto (f.payload.length / 8)).map (fun i => fld f.payload (8 * i + 6) 2) else [f.tag]

/-- Port x sends what it can; a TX flit all of whose lines have left gives back its place. -/
def State.pumpTx (s : State) (x : Nat) : State :=
  let s := State.sendTx x 2 (s.fport x).outs.length (State.sendTx x 0 (s.fport x).outs.length s)
  s.onPort x (fun p => { p with tx := p.tx.filter (fun f => p.outs.any (fun r => (txTags f).contains r.tag && unsent s x r)) })

/-! ## Delivery (15 R358, R359, R361) -/

/-- The response goes back from the unit that serves a request. -/
def State.respond (s : State) (u : Nat) (f : Flit) (op : Nat) (st : Stat) (data : List Byte) : State :=
  s.inject u (rspFlit f.src f.tag f.flask op st data)

/-- Fabric port that a flit is bound for. -/
def portFor (f : Flit) : Nat := 4 * windowIndex (adPart f.dest) (adCol f.dest) (adRow f.dest) + (adPort f.dest - 9)

/-- The node of a dispatch packet that never reaches its port completes with `ST_NOT_PRESENT` (09 R209). -/
def State.undispatched (s : State) (f : Flit) : State :=
  let x := portFor f
  match (s.fport x).dtags.find? (fun d => d.1 % 65536 == f.tag) with
  | some d => (s.failNode d.2.1 d.2.2 .notPresent).settle
  | none => s

/-- Absorb a packet at unit u (15 R361): a read, a write or a dispatch is answered `ST_NOT_PRESENT`; the node of a dispatch
completes with it (09 R209). -/
def State.absorb (s : State) (u : Nat) (f : Flit) : State :=
  let s := s.onUnit u (fun x => { x with absorbed := x.absorbed + 1 })
  let s := if u < 96 && 9 ≤ adPort f.dest && adPort f.dest ≤ 12 then
      s.onPort (4 * u + (adPort f.dest - 9)) (fun p => { p with absorbed := p.absorbed + 1 }) else s
  match f.cls with
  | 0 => s.respond u f 2 .notPresent []
  | 2 => s.respond u f 1 .notPresent []
  | 3 => if f.first then s.undispatched f else s
  | _ => s

/-- A memory endpoint serves a line read or a line write. -/
def State.serveLine (s : State) (u : Nat) (f : Flit) (host : Bool) : State :=
  match f.cls with
  | 0 =>
    if host then s.respond u f 0 .ok (s.hostRead f.addr 64)
    else match physOutcome s f.addr 64 false with
      | .ok => if (s.poisonIn f.addr 64).isEmpty then s.respond u f 0 .ok (s.devRead f.addr 64)
               else (s.countPoison f.addr 64).respond u f 2 .uncorrectable []
      | st => s.respond u f 2 st []
  | 2 =>
    if host then (s.hostWrite f.addr f.payload).respond u f 1 .ok []
    else match physOutcome s f.addr 64 true with
      | .ok => (s.devWrite f.addr f.payload).respond u f 1 .ok []
      | st => s.respond u f 1 st []
  | _ => s

/-- A packet reaches a fabric port: an answer frees its request, a message is acknowledged, and the flit waits at RX. -/
def State.toPort (s : State) (u x : Nat) (f : Flit) : State :=
  let p := s.fport x
  if !p.up then s.absorb u f
  else if f.cls = 1 then
    if p.outs.any (fun r => r.tag == f.tag) then
      s.onPort x (fun p => { p with outs := p.outs.filter (fun r => r.tag != f.tag), rx := p.rx ++ [f] })
    else s
  else
    let s := s.onPort x (fun p => { p with rx := p.rx ++ [f] })
    if f.cls = 2 then s.respond u f 1 .ok [] else s

/-- A flit leaves the network at unit u. -/
def State.deliver (s : State) (u : Nat) (f : Flit) : State :=
  if u < 96 then
    let n := adPort f.dest
    if adPart f.dest ≠ u / 24 || adRow f.dest ≠ u % 24 / 4 then s.absorb u f
    else if 9 ≤ n && n ≤ 12 then s.toPort u (4 * u + (n - 9)) f
    else if n = 8 && clusterUp s u then s.serveLine u f false
    else s.absorb u f
  else if 112 ≤ u && u < 128 then
    if ctlUp s (2 * ((u - 112) / 4) + adPort f.dest / 8) then s.serveLine u f false else s.absorb u f
  else if u = 136 then
    let n := adUnit f.dest
    if n = 64 then s.serveLine u f true
    else if 16 ≤ n && n < 28 && ctlUp s (8 + (n - 16)) then s.serveLine u f false
    else s.absorb u f
  else s.absorb u f

/-! ## The grant of an output (15 R356) -/

/-- Key of an output link. -/
def outKey (out link : Nat) : Nat := 32 * out + link

/-- Key of an input link. -/
def inKey (q : QFlit) : Nat := 32 * q.inp + q.link

/-- The heads of a unit's input channels, in order of arrival. -/
def heads : List QFlit → List QFlit → List QFlit
  | _, [] => []
  | seen, q :: t =>
    if seen.any (fun p => p.inp == q.inp && p.link == q.link && p.flit.cls == q.flit.cls && p.flit.vc == q.flit.vc) then heads seen t
    else q :: heads (q :: seen) t

/-- The flit has a credit at its next input, or its endpoint takes it. -/
def hasCredit (s : State) (u out link : Nat) (q : QFlit) : Bool :=
  if out = 4 then
    let n := adPort q.flit.dest
    let p := s.fport (4 * u + (n - 9))
    !(u < 96 && 9 ≤ n && n ≤ 12) || !p.up || p.waiting q.flit.cls < 8
  else
    let (v, inp, l) := nextHop s u out link q.flit
    (s.unit v).count inp l q.flit.cls (if 128 ≤ u && u < 136 then 1 else q.flit.vc) < 8

/-- A channel of an output is free for this flit, or held by its own packet (15 R356). -/
def channelFree (x : NetUnit) (out link : Nat) (q : QFlit) : Bool :=
  match Tab.find? x.held (outKey out link * 8 + q.flit.cls * 2 + q.flit.vc) with
  | some i => i == inKey q && !q.flit.first
  | none => true

/-- Distance after the last grant in a round of n. -/
def after (last i n : Nat) : Nat := (i + n - last % n - 1) % n

/-- Order of 15 R356: RETRY, VC 1, class round-robin, input round-robin. -/
def grantKey (x : NetUnit) (out link : Nat) (q : QFlit) : Nat :=
  let k := outKey out link
  ((3 - q.flit.retry) * 2 + (1 - q.flit.vc)) * 4096 + after (Tab.get 3 x.lastCls k) q.flit.cls 4 * 1024 +
  after (Tab.get 128 x.lastInp k) (inKey q) 512

/-- The flit an output grants, and whether some flit waits for it without a credit. -/
def winner (s : State) (u out link : Nat) : Option QFlit × Bool :=
  let x := s.unit u
  let l := (heads [] x.inq).filter (fun q => outOf s u q.inp q.flit == out && linkOf u out q == link)
  let ok := l.filter (fun q => hasCredit s u out link q && channelFree x out link q)
  (ok.foldl (fun (b : Option QFlit) q => match b with
    | none => some q
    | some p => if grantKey x out link q < grantKey x out link p then some q else b) none, l.any (fun q => !hasCredit s u out link q))

/-- The granted flit leaves its input and the round moves on. -/
def State.granted (s : State) (u out link : Nat) (q : QFlit) : State :=
  let k := outKey out link
  let c := k * 8 + q.flit.cls * 2 + q.flit.vc
  s.onUnit u (fun x => { x with
    inq := x.inq.erase q, lastCls := Tab.put x.lastCls k q.flit.cls, lastInp := Tab.put x.lastInp k (inKey q)
    held := if q.flit.last then Tab.del x.held c else Tab.put x.held c (inKey q) })

/-- A flit is dropped (15 R358, R359): no response follows a dispatch that it belongs to
(notes/assumptions/129.md). -/
def State.dropped (s : State) (f : Flit) : State :=
  if f.cls = 3 then s.onPort (portFor f) (fun p => { p with
    lost := p.lost ++ (p.dtags.filter (fun d => d.1 % 65536 == f.tag && !p.lost.contains d.1)).map (·.1) })
  else s

/-- A flit moves on, or is delivered (15 R353, R358, R359, R365). Only its destination router checks BAD and the CRC. -/
def State.moveFlit (s : State) (u out link : Nat) (q : QFlit) (err : FlitErr) : State :=
  let f := q.flit
  let cnt (s : State) : State := s.onUnit u (fun x => { x with flits := Tab.upd 0 x.flits f.cls (· + 1) })
  if err = .doubleHeader then
    ((s.onUnit u (fun x => { x with secUncorr := x.secUncorr + 1 })).probe u q.inp out 2 f).dropped f
  else
    let s := if err = .single then s.onUnit u (fun x => { x with secCorr := x.secCorr + 1 }) else s
    let f := if err = .doubleElsewhere then { f with bad := true } else f
    if out = 4 then
      if u = homeOf f.dest && (f.bad || (err = .crc && s.net.crcCtl.getLsbD f.cls)) then
        ((s.onUnit u (fun x => { x with crcFail := x.crcFail + 1 })).probe u q.inp out 3 f).dropped f
      else
        let before := (s.unit u).absorbed
        let t := (cnt s).deliver u f
        t.probe u q.inp out (if before < (t.unit u).absorbed then 4 else if err = .single then 1 else 0) f
    else
      let (v, inp, l) := nextHop s u out link f
      let g := if 128 ≤ u && u < 136 then { f with vc := 1 } else f
      ((cnt s).enqueue v inp l g).probe u q.inp out (if err = .single then 1 else 0) f

/-- The fabric ports of router u send what they can; in a cycle of the local output the head of a class that has no token counts as
waiting (15 R357). -/
def State.pumpUnit (s : State) (u out : Nat) : State :=
  if 96 ≤ u then s else
  (upto 4).foldl (fun s q =>
    let s := s.pumpTx (4 * u + q)
    if out ≠ 4 then s else
    [0, 2].foldl (fun s c => if (nextTx s (4 * u + q) c).isSome then s.regStall u (9 + q) c else s) s) s

/-- FLIT_FORWARD: one cycle of an output link. -/
def execFlitForward (unit out link : Nat) (err : FlitErr) (s : State) : Out :=
  let t := match winner s unit out link with
    | (some q, _) => (s.granted unit out link q).moveFlit unit out link q err
    | (none, true) => s.onUnit unit (fun x => { x with creditStall := x.creditStall + 1 })
    | (none, false) => s
  done (t.pumpUnit unit out)

/-! ## Re-sends (15 R360) -/

/-- A fabric port's request gets no response in 50 µs: reads and line writes are re-sent three times, everything else fails. -/
def State.portTimeout (s : State) (x : Nat) (r : PReq) : State :=
  if r.flit.op ≠ 0 || 3 ≤ r.retry then s.answer x r.tag (if r.write then 1 else 2) .uncorrectable []
  else
    let f := { r.flit with src := 0 }
    (s.onPort x (fun p => { p with outs := p.outs.map (fun q => if q.tag = r.tag then { q with retry := r.retry + 1, flit := f } else q) })).pumpTx x

/-- The node whose dispatch to a port of cluster i was lost. -/
def lostDispatch (s : State) (i tag : Nat) : Option (Nat × Nat) :=
  (upto 4).findSome? (fun q =>
    let p := s.fport (4 * i + q)
    (p.dtags.find? (fun d => d.1 % 65536 == tag && p.lost.contains d.1)).map (·.2))

/-- NETWORK_RESPONSE_TIMEOUT. A request that has not left the port has sent nothing yet. PORT 1 names the graph engine by its PX unit, which
never re-sends a dispatch. -/
def execNetworkResponseTimeout (cluster port tag : Nat) (s : State) : Out :=
  done (
    if port = 1 then
      match lostDispatch s cluster tag with
      | some d => (s.failNode d.1 d.2 .uncorrectable).settle
      | none => s
    else if port = 6 then
      let x := ctxKey cluster tag
      match (s.ctx x).cur with
      | some c => match c.reqs.head? with
        | some r => s.reissue x c r
        | none => s
      | none => s
    else
      let x := 4 * cluster + (port - 9)
      if port < 9 || 12 < port then s else
      match (s.fport x).outs.find? (fun r => r.tag == tag && r.flit.src != 0) with
      | some r => s.portTimeout x r
      | none => s)

end Sys2Proof.Machine
end

