-- ==== Sys2Proof/Machine/Fabric.lean ====
section
/-!
DEFINITION. Fabric ports and user logic's side of them (13): requests, messages, FABRIC nodes, the sink bound, clock loss,
debug capture and the block-RAM window.
-/

namespace Sys2Proof.Machine

/-! ## Endpoints (13 R315, R316) -/

/-- The fabric port of a registered endpoint of a flask. -/
def endpointPort (s : State) (flask e : Nat) : Option Nat :=
  s.sprue.moulds.findSome? (fun m =>
    if m.2.flask = flask && m.2.registered then (m.2.endpoints.find? (fun x => x.1 == e)).map (fun x => 4 * m.2.cluster + x.2) else none)

/-- The fabric port of an endpoint that a message names: a registered one, or one withdrawn by its mould's reconfiguration, whose port absorbs
(13 R313, R315; notes/assumptions/130.md). -/
def messagePort (s : State) (flask e : Nat) : Option Nat :=
  (endpointPort s flask e).or (s.sprue.moulds.findSome? (fun m =>
    if m.2.flask = flask && !m.2.registered then
      ((m.2.endpoints.find? (fun x => x.1 == e)).map (fun x => 4 * m.2.cluster + x.2)).filter (fun x => (s.fport x).reconf)
    else none))

/-- Mould that holds quarter q of ring i. -/
def mouldAt (s : State) (i q : Nat) : Option Mould :=
  (s.sprue.moulds.find? (fun m => m.2.cluster == i && m.2.quarters.contains q)).map (·.2)

/-- The mould of a port runs. -/
def portRuns (s : State) (x : Nat) : Bool := match mouldAt s (x / 4) (x % 4) with | some m => m.st = .running | none => false

/-- TX_CREDIT of a class, at a port that is up: one of its 8 places of the TX queue is free (01 R22, 13 R311). -/
def txReady (s : State) (x cls : Nat) : Bool := (s.fport x).up && ((s.fport x).tx.filter (fun f => f.cls == cls)).length < 8

/-- A TX flit is accepted and counted. -/
def State.txCount (s : State) (x : Nat) : State := s.onPort x (fun p => { p with flitsTx := p.flitsTx + 1 })

/-- A TX flit is refused (13 R313): it is dropped and each of its lines is answered `ST_INVALID`. -/
def State.refuseTx (s : State) (x op : Nat) (tags : List Nat) : State :=
  tags.foldl (fun s t => s.answer x t op .invalid []) (s.onPort x (fun p => { p with refused := p.refused + 1 }))

/-- A TX flit of port x with its lines enters the TX queue and leaves as the network allows. -/
def State.acceptTx (s : State) (x : Nat) (f : Flit) (reqs : List PReq) : State :=
  ((s.txCount x).onPort x (fun p => { p with
    tx := p.tx ++ [f], outs := p.outs.filter (fun q => !reqs.any (fun r => r.tag == q.tag)) ++ reqs })).pumpTx x

/-! ## Line reads and writes, messages (13 R312) -/

/-- A TX flit before the port has built its header: no SRC. -/
def txFlit (cls tag op dest : Nat) (data : List Byte) : Flit :=
  { cls, vc := 0, first := true, last := true, retry := 0, bad := false, dest, src := 0, tag, flask := 31, op, addr := 0, payload := data }

/-- Read lines of a port that are outstanding. -/
def FPort.readsOut (p : FPort) : Nat := (p.outs.filter (fun r => !r.write)).length

/-- The flit of a read request: 8 bytes a line, virtual address [47:6] and tag [63:48]. -/
def readFlit (lines : List (Nat × Nat)) : Flit :=
  txFlit 0 0 0 0 (lines.flatMap (fun l => leBytes 6 (l.1 / 64 * 64) ++ leBytes 2 l.2))

/-- READ_REQUEST: up to 8 line reads; at most 256 are outstanding. -/
def execReadRequest (port : Nat) (lines : List (Nat × Nat)) (s : State) : Out :=
  done (
    let p := s.fport port
    if lines.isEmpty || 8 < lines.length || 256 < p.readsOut + lines.length || !txReady s port 0 then s
    else (s.onPort port (fun p => { p with reads := p.reads + lines.length })).acceptTx port (readFlit lines)
      (lines.map (fun l => portReq (l.1 / 64 * 64) (l.2 % 65536) false (txFlit 0 (l.2 % 65536) 0 0 []))))

/-- LINE_WRITE. -/
def execLineWrite (port va tag : Nat) (data : List Byte) (s : State) : Out :=
  done (
    if !txReady s port 2 then s
    else
      let f := txFlit 2 (tag % 65536) 0 0 (padTo 64 data)
      s.acceptTx port f [portReq (va / 64 * 64) (tag % 65536) true f])

/-- ENDPOINT_MESSAGE (13 R312, R313): to an endpoint of the port's flask. -/
def execEndpointMessage (port endpoint tag : Nat) (data : List Byte) (s : State) : Out :=
  done (
    if !txReady s port 2 then s else
    match messagePort s (s.fport port).owner endpoint with
    | none => (s.txCount port).refuseTx port 1 [tag]
    | some y =>
      let f := txFlit 2 (tag % 65536) 1 (routerPort (y / 4) (9 + y % 4)) (padTo 64 data)
      s.acceptTx port f [portReq 0 (tag % 65536) true f])

/-- STREAM_OUTPUT (13 R318): a line into an output stream of the cluster's ladle, in arrival order; `last` is LAST of the
sideband. Beyond the stream's last byte the partner fails (07 R170). -/
def execStreamOutput (port ctx : Nat) (last : Bool) (data : List Byte) (s : State) : Out :=
  done (
    if !txReady s port 2 then s else
    let x := ctxKey (port / 4) ctx
    match (if ctx < 32 then (s.ctx x).cur else none) with
    | none => (s.txCount port).refuseTx port 1 [0]
    | some c =>
      if !sdOut c.desc || flaskOfKey c.heat ≠ (s.fport port).owner then (s.txCount port).refuseTx port 1 [0]
      else
        let n := min 64 (c.prog.size - c.made)
        if n = 0 then ((s.txCount port).beyond x c.heat (streamPartner c.desc) true).settle
        else if c.room < n then s
        else
          let s := (s.txCount port).produce x (slice data 0 n) []
          if last then s.onStream x (fun c => { c with early := c.early || c.made != c.prog.size }) else s)

/-! ## FABRIC nodes (13 R316, R317) -/

/-- STRM[0 to 7] of a descriptor in use. -/
def fabricStreams (d : List Byte) : List Nat := ((upto 8).map (fun i => fld d i 1)).filter (· ≠ 0xFF)

/-- What dispatching a FABRIC node comes to: a status, or the port. STRM names contexts that hold streams armed for the node (07 R170). -/
def fabricCheck (s : State) (k n : Nat) (x : Node) (d : List Byte) : Except Stat Nat :=
  let flask := flaskOfKey k
  match endpointPort s flask x.endpoint with
  | none => .error .notPresent
  | some p =>
    if p / 4 ≠ x.target then .error .invalid
    else if (s.fport p).reconf then .error .notPresent
    else if !zeroIn d 8 63 || !(fabricStreams d).all (fun c => c < 32 && (streamFor s (ctxKey x.target c) k n).isSome) then .error .invalid
    else if (streamsOf s k n).any (fun y => match (s.ctx y).cur with | some c => sdScales c.desc | none => false) then .error .invalid
    else .ok p

/-- The two CTRL flits of a dispatch: the header flit, and ARG (13 R316). -/
def dispatchFlits (s : State) (k n port dtag phase : Nat) (x : Node) (d : List Byte) : List Flit :=
  let flask := flaskOfKey k
  let f (first : Bool) (pl : List Byte) : Flit :=
    { cls := 3, vc := 0, first, last := !first, retry := 0, bad := false, dest := routerPort (port / 4) (9 + port % 4), src := pxUnit 1,
      tag := dtag % 65536, flask, op := 0, addr := 0, payload := pl }
  [f true (padTo 64 (leBytes 4 k ++ leBytes 4 n ++ leBytes 1 flask ++ leBytes 1 phase ++ leBytes 2 x.endpoint ++ leBytes 4 x.timeout ++
     slice d 0 8 ++ leBytes 8 s.time ++ leBytes 4 dtag)), f false (slice d 64 64)]

/-- The dispatch leaves the graph engine. -/
def State.fabricDispatch (s : State) (k n port phase : Nat) (x : Node) (d : List Byte) : State :=
  let t := s.graph.nextDtag
  let fl := dispatchFlits s k n port t phase x d
  let s := s.onPort port (fun p => { p with dtags := p.dtags ++ [(t, k, n)], lost := p.lost.filter (· ≠ t), nodes := p.nodes + 1 })
  fl.foldl (fun s f => s.inject 136 f) (s.onGraph (fun g => { g with nextDtag := (t + 1) % 2 ^ 32 }))

/-- STATUS that a completion's status word gives (13 R317). -/
def fabricStat (w : Nat) : Stat :=
  match w % 65536 with
  | 0x00 => .ok | 0x10 => .invalid | 0x11 => .unsupported | 0x20 => .busy | 0x21 => .noResource | 0x41 => .uncorrectable
  | _ => .invalid

/-- The completion's RSP flit: DTAG, STATUS_WORD and RESULT. -/
def completionFlit (s : State) (port dtag word : Nat) (result : List Byte) : Flit :=
  packet 1 0 (word % 65536) (pxUnit 1) (dtag % 65536) (s.fport port).owner 0
    (padTo 64 (leBytes 4 dtag ++ leBytes 4 word ++ padTo 16 result))

/-- FABRIC_COMPLETION: the flit goes to the graph engine, and the node ends once the output streams it names have completed (its NODE_COMPLETE
waits for them). A completion lost on its way is a missing response (15 R360). -/
def execFabricCompletion (port dtag word : Nat) (result : List Byte) (s : State) : Out :=
  done (
    let p := s.fport port
    if !p.up then s else
    let s := s.txCount port
    match p.dtags.find? (fun d => d.1 == dtag) with
    | none => s.onPort port (fun p => { p with badDone := p.badDone + 1 })
    | some d =>
      let st := fabricStat word
      let s := s.onPort port (fun p => { p with dtags := p.dtags.filter (fun e => e.1 != dtag) })
      match s.sends (routerPort (port / 4) (9 + port % 4)) (completionFlit s port dtag word result) true with
      | (s, false) => (s.failNode d.2.1 d.2.2 .uncorrectable).settle
      | (s, true) =>
        let s := if st = .ok then s.flushOutputs d.2.1 d.2.2 else s
        s.endNode d.2.1 d.2.2 st (fun x => { x with detail := word % 2 ^ 32, result := padTo 16 result }))

/-! ## RX, the sink bound, clocks (13 R311, R314, 01 R24) -/

/-- The first flit of a class leaves RX. -/
def takeFirst (cls : Nat) : List Flit → Option (Flit × List Flit)
  | [] => none
  | f :: t => if f.cls = cls then some (f, t) else (takeFirst cls t).map (fun x => (x.1, f :: x.2))

/-- FABRIC_RX_DELIVER: user logic accepts a flit after `waited` NCLK cycles. -/
def execFabricRxDeliver (port cls waited : Nat) (s : State) : Out :=
  done (
    let p := s.fport port
    if !p.up then s else
    match takeFirst cls p.rx with
    | none => s
    | some (_, rest) => s.onPort port (fun p => { p with
        rx := rest, flitsRx := p.flitsRx + 1, rspWaitMax := if cls = 1 then max p.rspWaitMax waited else p.rspWaitMax }))

/-- SINK_BOUND_EXPIRY (13 R314, 15 R363): a flask-scope fault, and the port is disabled until its mould is reloaded. -/
def execSinkBoundExpiry (port cls : Nat) (s : State) : Out :=
  done (
    let p := s.fport port
    if !p.up || p.waiting cls = 0 then s else
    (s.onPort port (fun p => { p with breach := true, rx := [], tx := [], outs := [] })).flaskFault p.owner none)

/-- FCLK_LOSS (01 R24, 13 R322): the port is not present; its queues are emptied and its outstanding nodes end. -/
def execFclkLoss (port : Nat) (s : State) : Out :=
  done (
    let p := s.fport port
    if p.flask.isNone || !p.fclk then s else
    ((s.onPort port (fun p => { p with fclk := false, en := false, rx := [], tx := [], outs := [], clkLost := p.clkLost + 1 })).dropFaults
      (fun f => match f.who with | .port y _ => y == port | _ => false)).endDtags port .notPresent)

/-- FABRIC_PORT_ENABLE (13 R311): PORT_EN of a port whose mould runs. -/
def execFabricPortEnable (port : Nat) (s : State) : Out :=
  done (
    let p := s.fport port
    if p.flask.isNone || p.breach || p.reconf || !portRuns s port then s
    else s.onPort port (fun p => { p with en := true, fclk := true }))

/-! ## Debug capture and block RAM (13 R306, R308, R320) -/

/-- CAPTURE_SAMPLE. Outside RUNNING capture samples nothing (14 R336). -/
def execCaptureSample (cluster : Nat) (data : W64) (s : State) : Out :=
  done (
    if !portRuns s (4 * cluster) then s
    else if traceUse s cluster 3 then s.traceEntry cluster (leBytes 8 data.toNat ++ leBytes 8 s.time)
    else s.onPort (4 * cluster) (fun p => { p with capDrop := p.capDrop + 1 }))

/-- Port A meets word k of a window access to a line on another clock (13 R306): both writing leaves that word undefined; with one writing
the stored word is the written one, and what port A reads is undefined. -/
def State.meetPortA (addr : Nat) (write : Bool) (s : State) (x : Nat × Bool × W64) : State :=
  let a := addr + 8 * x.1
  if 8 ≤ x.1 then s
  else if x.2.1 then
    if write then let (bs, s) := s.drawBytes 8; s.devWrite a bs else s.devWrite a (leBytes 8 x.2.2.toNat)
  else if write then
    let (bs, s) := s.drawBytes 9
    let o := addr - bramBase
    let k := 2 * (64 * (o / bramWindow) + o % bramWindow / 0x2000)
    s.onSprue (fun p => { p with bports := Tab.mod p.bports k (fun r => { r with word := ofLe bs }) })
  else s

/-- BLOCK_RAM_WINDOW_ACCESS on port B, at 700 MHz (13 R308); port A may meet any of the line's eight words. -/
def execBlockRamWindowAccess (addr : Nat) (write : Bool) (data : List Byte) (portA : List (Nat × Bool × W64)) (s : State) : Out :=
  done (
    if addr < bramBase || physOutcome s addr 64 write ≠ .ok then s else
    let s := if write then s.devWrite addr (padTo 64 data) else s
    portA.foldl (State.meetPortA addr write) s)

end Sys2Proof.Machine
end

