-- ==== Sys2Proof/Machine/Sprue.lean ====
section
/-!
DEFINITION. Commands and events of the sprue (14): loading and unloading moulds, the shell and the battery key, and a mould's
start-up order.
-/

namespace Sys2Proof.Machine

/-- Parameters of `MOULD_LOAD` (14 R332). -/
def mouldForm (c : Cmd) : Bool :=
  c.p 0 8 % 64 = 0 && (if c.p 8 1 = 0 then c.flask < 16 else c.p 8 1 ≤ 2 && c.flask = 0xFF) && c.p 9 1 ≤ 1 && c.reserved 10 47

/-- A load waits for the sprue (14 R338). -/
def State.queueLoad (s : State) (c : Cmd) : State :=
  (s.onCmd c.cid (fun c => { c with work := .mould })).onSprue (fun p => { p with queue := p.queue ++ [c.cid] })

/-- MOULD_LOAD with KIND 0, and any KIND the manual does not assign. -/
def execMouldLoad (cid : Nat) (s : State) : Out :=
  done (s.accepted cid (fun c => c.opcode == 0x0A && c.p 8 1 != 1 && c.p 8 1 != 2) (fun c s =>
    if mouldForm c then s.queueLoad c else s.refuseLoad cid .invalid))

/-- MOULD_LOAD with KIND 1. -/
def execMouldLoadShell (cid : Nat) (s : State) : Out :=
  done (s.accepted cid (fun c => c.opcode == 0x0A && c.p 8 1 == 1) (fun c s =>
    if mouldForm c then s.queueLoad c else s.refuseLoad cid .invalid))

/-- MOULD_LOAD with KIND 2: with BATKEY_DISABLE it is refused before its header is read (14 R340). -/
def execMouldLoadKey (cid : Nat) (s : State) : Out :=
  done (s.accepted cid (fun c => c.opcode == 0x0A && c.p 8 1 == 2) (fun c s =>
    if !mouldForm c then s.refuseLoad cid .invalid
    else if s.fuses.batkeyDisable then s.refuseLoad cid .unsupported
    else s.queueLoad c))

/-- A mould that is unloaded while RUNNING may have entries of its start-up order left: its load ends with `ST_DISCARDED`
(notes/assumptions/126.md). -/
def State.endLoadOf (s : State) (m : Mould) : State :=
  match m.cid, s.sprue.cur with
  | some c, some l => if l.cid = c then s.earlyEnd .discarded else s
  | _, _ => s

/-- MOULD_UNLOAD (14 R333). -/
def execMouldUnload (cid : Nat) (s : State) : Out :=
  done (s.accepted cid (fun c => c.opcode == 0x0B) (fun c s =>
    if !c.reserved 2 47 then s.failCmd cid .invalid else
    match Tab.find? s.sprue.moulds (c.p 0 2) with
    | none => s.failCmd cid .notPresent
    | some m =>
      if m.flask ≠ c.flask then s.failCmd cid .notPresent
      else if m.st = .loading || m.st = .starting then s.failCmd cid .busy
      else ((s.tearDown (c.p 0 2) false .notPresent).endLoadOf m).finish cid .ok zeros16))

/-- What a read of an image gives a load: the source ends (14 R330). -/
def sourceStat (st : Stat) : Stat := if st = .uncorrectable then .uncorrectable else .truncated

/-- A load as it is taken. -/
def Load.fresh (c : Cmd) (now : Nat) : Load :=
  { cid := c.cid, kind := c.p 8 1, addr := c.p 0 8, header := [], step := .verify, seq := 1, expect := 0, seen := [], key := 0, since := now }

/-- The load in progress reads its header and makes checks 1 and 2 (14 R329). -/
def State.readHeader (s : State) (l : Load) (flask : Nat) : State :=
  match readFlask s flask l.addr 1024 with
  | .wait p => match findCmd s l.cid with | some c => s.cmdWaits c p | none => s
  | .fail st => (s.blame flask l.addr 1024 st).earlyEnd (sourceStat st)
  | .ok h =>
    let s := (s.onSprue (fun p => { p with cur := some { l with header := h }, bytes := p.bytes + 1024 })).after 2000
    if !hdrForm l.kind h then s.earlyEnd .invalid else if !hdrDevice h then s.earlyEnd .wrongDevice else s

/-- MOULD_LOAD_BEGIN (14 R338): one load at a time, in acceptance order. A header that waits for a page is read again by this row
(notes/assumptions/16.md). -/
def execMouldLoadBegin (s : State) : Out :=
  done (match s.sprue.cur with
    | some l => if l.header.isEmpty then
        match findCmd s l.cid with | some c => s.readHeader l c.flask | none => s
      else s
    | none => match s.sprue.queue with
      | [] => s
      | cid :: rest =>
        let s := s.onSprue (fun p => { p with queue := rest })
        match findCmd s cid with
        | none => s
        | some c =>
          let l := Load.fresh c s.time
          (s.onSprue (fun p => { p with cur := some l })).readHeader l c.flask)

/-- Checks 4 to 7 of 14 R329, and the rule of R332 for a shell. -/
def imageCheck (s : State) (l : Load) (flask : Nat) (replace : Bool) : Stat :=
  let h := l.header
  if l.kind = 1 then (if s.sprue.moulds.isEmpty then .ok else .busy)
  else if l.kind = 2 then .ok
  else if !hdrPlace s flask h then .invalid
  else if !hdrThere s h then .notPresent
  else match replaced s flask replace h with
    | .error _ => .busy
    | .ok old => if endpointTaken s flask old h then .busy else if hdrPlls s flask h then .ok else .noResource

/-- A mould whose header has passed (14 R329, R332). -/
def newMould (l : Load) (flask : Nat) : Mould :=
  let h := l.header
  { flask, cluster := imCluster h, quarters := imQuarters h, st := .loading, endpoints := imEndpoints h, registered := false,
    hostvis := BitVec.ofNat 64 (fld h 92 8), holdOut := bits (fld h 100 2) 1 0, holdOe := bits (fld h 100 2) 3 2,
    startup := imStartup h, pos := 0, initHold := true, writesOn := false, header := h, cid := some l.cid, resetCid := none }

/-- A mould that is replaced is torn down; the new one takes its PLLs and quarters, which are blank, and holds its pin. -/
def State.reserve (s : State) (l : Load) (flask : Nat) (replace : Bool) : State :=
  let h := l.header
  let m := newMould l flask
  let old := match replaced s flask replace h with | .ok o => o | .error _ => none
  let held := match old with
    | some o => (match Tab.find? s.sprue.moulds o with | some x => x.quarters.contains 0 | none => false)
    | none => false
  let s := match old with | some o => s.tearDown o true .notPresent | none => s
  let s := m.quarters.foldl (fun s q => s.blankQuarter m.cluster q) (s.takePlls (imId h) flask (m.cluster / 24) (imPairs h))
  let s := s.onSprue (fun p => { p with moulds := Tab.put p.moulds (imId h) m })
  let s := (s.closePorts m true .notPresent).raiseVdd m.cluster
  if held then s else s.holdPin m

/-- SIGNATURE_VERIFIED (14 R329): check 3, then the others and the reservations. -/
def execSignatureVerified (s : State) : Out :=
  done (match s.sprue.cur with
    | none => s
    | some l =>
      if l.step ≠ .verify || l.header.isEmpty then s else
      match findCmd s l.cid with
      | none => s
      | some c =>
        let h := l.header
        let s := s.after 151000
        match hdrAuth s l.kind h with
        | some k => (s.authRecord (2 + (if l.kind = 0 then 1 else if l.kind = 1 then 0 else 2)) (imSlot h) k (imIdcode h) .authFail l.id c.flask).earlyEnd
            .authFail
        | none =>
          let replace := c.p 9 1 = 1
          match imageCheck s l c.flask replace with
          | .ok =>
            let s := if l.kind = 0 then s.reserve l c.flask replace else s
            let l := { l with step := .records, expect := BitVec.ofNat 256 (fld h 24 32), key := keyOf s (imKeySrc h) }
            s.onSprue (fun p => { p with cur := some l })
          | st => s.earlyEnd st)

/-- A load ends with `ST_OK`. -/
def State.loadDone (s : State) (l : Load) : State :=
  ((s.onSprue (fun p => { p with cur := none })).countLoad .ok 0).finish l.cid .ok (loadResult l.id (l.written s) (s.time - l.since))

/-- The battery key takes the payload of a key image (14 R340). -/
def State.setKey (s : State) (l : Load) (pl : List Byte) : State :=
  let op := fld pl 32 1
  if !(op = 1 || op = 2) || !zeroIn pl 33 1023 then s.earlyEnd .invalid else
  let s := s.onSprue (fun p => if op = 1 then { p with keyValid := true, batKey := BitVec.ofNat 256 (fld pl 0 32), vbattLost := false }
                               else { p with keyValid := false, batKey := 0 })
  (s.security 0x21 0xFF (leBytes 1 op ++ leBytes 7 0 ++ leBytes 8 s.time)).loadDone l

/-- The last record of an image is written. -/
def State.recordsDone (s : State) (l : Load) (pl : List Byte) : State :=
  match l.kind with
  | 0 => if framesAll l.header l.seen then s.onMould l.id (fun m => { m with st := .starting }) else s.earlyEnd .invalid
  | 1 => (s.onSprue (fun p => { p with shell := 3, shellHeader := l.header })).loadDone l
  | _ => s.setKey l pl

/-- IMAGE_RECORD (14 R326, R330): the next record. -/
def execImageRecord (s : State) : Out :=
  done (match s.sprue.cur with
    | none => s
    | some l =>
      if l.step ≠ .records || imCount l.header < l.seq then s else
      match findCmd s l.cid with
      | none => s
      | some c =>
        let a := l.addr + 1024 + 1088 * (l.seq - 1)
        match readFlask s c.flask a 1088 with
        | .wait p => s.cmdWaits c p
        | .fail st => (s.blame c.flask a 1088 st).earlyEnd (sourceStat st)
        | .ok r =>
          let s := (s.onSprue (fun p => { p with bytes := p.bytes + 1088 })).after 544
          match openRecord l.key l.header r l.seq l.expect with
          | none => (s.authRecord (2 + (if l.kind = 0 then 1 else if l.kind = 1 then 0 else 2)) (imSlot l.header) 5 (imIdcode l.header) .authFail l.id
              c.flask).earlyEnd .authFail
          | some pl =>
            if !recordForm l.kind l.header r pl l.seq l.seen then s.earlyEnd .invalid else
            let p := recPlace r
            let l := { l with seq := l.seq + 1, expect := BitVec.ofNat 256 (fld r 1056 32), seen := (4 * p.1 + p.2.1, p.2.2.1, p.2.2.2) :: l.seen }
            let s := if l.kind = 2 then s
              else if l.kind = 1 && !exposed s p.1 then s
              else s.putFrame p.1 p.2.1 p.2.2.1 p.2.2.2 pl
            let s := s.onSprue (fun x => { x with cur := some l })
            if l.seq = imCount l.header + 1 then s.recordsDone l pl else s)

/-- PLL_LOCK (13 R310). -/
def execPllLock (part pll : Nat) (s : State) : Out :=
  done (if 4 ≤ part || 32 ≤ pll then s else
    s.onSprue (fun p => { p with plls := Tab.mod p.plls (32 * part + pll) (fun x => { x with locked := true }) }))

/-! ## The start-up order (14 R337) -/

/-- The mould whose start-up order performs an event next: the lowest MOULD_ID that waits for it. -/
def nextStart (s : State) (ev : Nat) : Option (Nat × Mould) :=
  s.sprue.moulds.find? (fun m => (m.2.st == .starting || m.2.st == .running) && m.2.pos < 4 && (m.2.startup.getD m.2.pos (0, 0)).1 == ev)

/-- Every PLL that a mould uses is locked. -/
def pllsLocked (s : State) (id : Nat) : Bool := s.sprue.plls.all (fun x => !x.2.users.contains id || x.2.locked)

/-- An entry of STARTUP is performed after its delay; the last one ends the load, or the restart of 18 R441. -/
def State.startStep (s : State) (ev : Nat) (f : Nat → Mould → State → State) : State :=
  match nextStart s ev with
  | none => s
  | some (id, m) =>
    let s := (f id m (s.after (1000 * (m.startup.getD m.pos (0, 0)).2))).onMould id (fun m => { m with pos := m.pos + 1 })
    if m.pos + 1 < 4 then s else
    let s := s.onMould id (fun m => { m with cid := none, resetCid := none })
    match m.cid, s.sprue.cur with
    | some c, some l => if l.cid = c then s.loadDone l else s
    | _, _ => s

/-- LOCK_WAIT: passes once every PLL of the mould is locked. -/
def execLockWait (s : State) : Out :=
  done (match nextStart s 1 with
    | some (id, _) => if pllsLocked s id then s.startStep 1 (fun _ _ s => s) else s
    | none => s)

/-- INIT_END ends the initial-state hold. -/
def execInitEnd (s : State) : Out :=
  done (s.startStep 2 (fun id _ s => s.onMould id (fun m => { m with initHold := false })))

/-- WRITES_ON. -/
def execWritesOn (s : State) : Out :=
  done (s.startStep 3 (fun id _ s => s.onMould id (fun m => { m with writesOn := true })))

/-- BORDER_OPEN: the holds end, the endpoints are registered, the mould runs, and its ports belong to its flask; PORT_EN enables
them (14 R334, R337). -/
def execBorderOpen (s : State) : Out :=
  done (s.startStep 4 (fun id m s =>
    let s := s.onMould id (fun m => { m with st := .running, registered := true })
    let s := if m.quarters.contains 0 then s.freePin m.cluster else s
    s.onFp (fun t => m.quarters.foldl (fun t q => Tab.upd .init t (4 * m.cluster + q) (fun p =>
      { p with flask := some m.flask, reconf := false, breach := false })) t)))

/-- VBATT_LOST (14 R328, 21 R485). -/
def execVbattLost (s : State) : Out :=
  done (((s.onBoard (fun b => { b with vbattOk := false })).onSprue (fun p => { p with keyValid := false, batKey := 0, vbattLost := true })).security
    0x22 0xFF (leBytes 8 s.time))

end Sys2Proof.Machine
end

