-- ==== Sys2Proof/Machine/Firmware.lean ====
section
/-!
DEFINITION. Firmware, the flash and the fuses: `FW_LOAD` with its three targets, and the checks that a start makes of a firmware
region (18 R427 to R431).
-/

namespace Sys2Proof.Machine

/-! ## The header (18 R427) -/

/-- SIGN_SLOT, IDCODE, VERSION, SVN, LENGTH. -/
def fwSlot (h : List Byte) : Nat := fld h 7 1
def fwVersionOf (h : List Byte) : Nat := fld h 12 4
def fwSvnOf (h : List Byte) : Nat := fld h 16 4
def fwLength (h : List Byte) : Nat := fld h 24 8

/-- The fields of a header of a TYPE. -/
def fwForm (type : Nat) (h : List Byte) : Bool :=
  fld h 0 4 == 0x57464B49 && fld h 4 2 == 1 && fld h 6 1 == type && fwSvnOf h ≤ 64 && zeroIn h 20 23 && zeroIn h 64 255 &&
  1 ≤ fwLength h && fwLength h ≤ 16776192 &&
  (type == 0 || ((fwSlot h < 4 || fwSlot h == 0xFF) && fwLength h % 40 == 0))

/-- Set bits of FW_SVN (18 R429). -/
def svnCount (w : W64) : Nat := ((upto 64).filter (fun k => w.getLsbD k)).length

/-- The body's digest is BODY_HASH. -/
def bodyOk (img : List Byte) : Bool := digest256 (img.drop 1024) == BitVec.ofNat 256 (fld img 32 32)

/-- The checks of 18 R428 on a firmware whose fields and IDCODE hold, from the signer on: the check of 20 R472 that fails. -/
def fwAuth (s : State) (img : List Byte) : Option Nat :=
  if digest256 (slice img 256 384) ≠ Config.romKeyHash then some 1
  else if !sigOk img then some 2
  else if !bodyOk img then some 5
  else if fwSvnOf img < svnCount s.fuseArray.fwSvn then some 6
  else none

/-- A PK_HASH slot is burnt. -/
def slotBurnt (f : Fuses) : Bool := f.pkHash.any (· ≠ 0)

/-- The signature of a provisioning record (18 R431): an unsigned one passes while no slot is burnt. -/
def provAuth (s : State) (img : List Byte) : Option Nat :=
  if fwSlot img = 0xFF then (if slotBurnt s.fuses then some 1 else if bodyOk img then none else some 5)
  else if s.fuses.pkHash.getD (fwSlot img) 0 = 0 || !slotOk s (fwSlot img) img then some 1
  else if !sigOk img then some 2
  else if !bodyOk img then some 5
  else none

/-! ## Provisioning entries (18 R431) -/

/-- FIELD, VALUE of entry k of a body. -/
def provEntry (body : List Byte) (k : Nat) : Nat × Nat := (fld body (40 * k) 4, fld body (40 * k + 8) 32)

/-- Bits of a field as it is burnt. -/
def provField (f : Fuses) (field : Nat) : Nat :=
  match field with
  | 1 => f.aesKey.toNat
  | 10 => f.flashPrimary.toNat
  | 11 => f.flashGolden.toNat
  | n => if 2 ≤ n && n ≤ 5 then (f.pkHash.getD (n - 2) 0).toNat else 0

/-- An entry may be burnt (18 R431). -/
def provOk (f : Fuses) (e : Nat × Nat) : Bool :=
  1 ≤ e.1 && e.1 ≤ 11 && (e.1 == 6 || !f.provLock) && provField f e.1 == 0 && (e.1 != 10 || 0x02000000 ≤ e.2 % 2 ^ 32)

/-- An entry is burnt: bits are only ever set. -/
def provBurn (f : Fuses) (e : Nat × Nat) : Fuses :=
  let v := e.2
  match e.1 with
  | 1 => { f with aesKey := f.aesKey ||| BitVec.ofNat 256 v, aesKeySet := true }
  | 6 => { f with pkRevoked := f.pkRevoked ||| BitVec.ofNat 4 v }
  | 7 => { f with encRequired := f.encRequired || v.testBit 0 }
  | 8 => { f with batkeyDisable := f.batkeyDisable || v.testBit 0 }
  | 9 => { f with provLock := f.provLock || v.testBit 0 }
  | 10 => { f with flashPrimary := f.flashPrimary ||| BitVec.ofNat 32 v }
  | 11 => { f with flashGolden := f.flashGolden ||| BitVec.ofNat 32 v }
  | n => if 2 ≤ n && n ≤ 5 then { f with pkHash := f.pkHash.set (n - 2) (f.pkHash.getD (n - 2) 0 ||| BitVec.ofNat 256 v) } else f

/-- Entries of a body. -/
def provEntries (body : List Byte) : List (Nat × Nat) := (upto (body.length / 40)).map (provEntry body)

/-- Every entry is checked before any is burnt, each against what the earlier ones leave (notes/assumptions/54.md). -/
def provCheck (f : Fuses) (body : List Byte) : Bool :=
  ((provEntries body).foldl (fun (x : Bool × Fuses) e => (x.1 && provOk x.2 e, provBurn x.2 e)) (true, f)).1 &&
  (upto (body.length / 40)).all (fun k => fld body (40 * k + 4) 4 == 0)

/-! ## FW_LOAD (18 R430) -/

/-- Parameters in range. -/
def fwLoadForm (c : Cmd) : Bool :=
  c.p 0 8 % 64 == 0 && c.p 8 1 < 3 && (if c.p 8 1 = 0 then c.p 9 1 < 2 else c.p 9 1 == 0) && c.reserved 10 47 && c.flask == 0xFF

/-- An image of a `FW_LOAD` is read from device memory: a header, then as many bytes as it says. -/
def fwRead (s : State) (a n : Nat) : Except Stat (List Byte) :=
  match readFlask s 0xFF a n with
  | .ok b => .ok b
  | .wait _ => .error .truncated
  | .fail st => .error (sourceStat st)

/-- A check of a `FW_LOAD` fails: status, and the check of 20 R472 of a security record. -/
def State.fwFail (s : State) (cid : Nat) (source : Nat) (img : List Byte) (st : Stat) (check : Option Nat) : State :=
  let s := match check with | some k => s.authRecord source (fwSlot img) k (imIdcode img) st 0xFFFF 0xFF | none => s
  s.failCmd cid st

/-- The image of a `FW_LOAD`, or why it is refused: status and failing check. -/
def fwImage (s : State) (a target : Nat) : Except (List Byte × Stat × Option Nat) (List Byte) :=
  match fwRead s a 1024 with
  | .error st => .error ([], st, none)
  | .ok h =>
    if !(if target = 1 then hdrForm 1 h else fwForm (target / 2) h) then .error (h, .invalid, none)
    else if !hdrDevice h then .error (h, .wrongDevice, none)
    else
      let early := if target = 1 then hdrAuth s 1 h else none
      match early with
      | some k => .error (h, .authFail, some k)
      | none =>
        match fwRead s a (if target = 1 then fld h 16 8 else 1024 + fwLength h) with
        | .error st => .error (h, st, none)
        | .ok img =>
          match (if target = 0 then fwAuth s img else if target = 2 then provAuth s img else none) with
          | some k => .error (h, .authFail, some k)
          | none => if target = 2 && !provCheck s.fuseArray (img.drop 1024) then .error (h, .invalid, none) else .ok img

/-- The region of the target is erased, and is invalid until it is programmed (18 R430). -/
def Flash.erase (f : Flash) (target : Nat) : Flash :=
  if target = 0 then { f with primaryFw := { f.primaryFw with valid := false } }
  else if target = 1 then { f with primaryShell := some [] } else f

/-- A `FW_LOAD`: the image is checked before anything is erased. One that finds another being programmed waits, and is looked at
again by its own row (notes/assumptions/16.md). -/
def State.fwLoad (s : State) (c : Cmd) : State :=
  if !fwLoadForm c then s.failCmd c.cid .invalid
  else if s.flash.writing.isSome then s
  else
    let target := c.p 8 1
    match fwImage s (c.p 0 8) target with
    | .error e =>
      let n := if e.1.isEmpty then 1024 else if target = 1 then fld e.1 16 8 else 1024 + fwLength e.1
      (s.blame 0xFF (c.p 0 8) n e.2.1).fwFail c.cid (if target = 2 then 5 else 1) e.1 e.2.1 e.2.2
    | .ok img =>
      (s.onFlash (fun f => { f.erase target with writing := some (target, img) })).onCmd c.cid (fun c => { c with work := .flash })

/-- FW_LOAD with TARGET 0, and any TARGET the manual does not assign. -/
def execFwLoad (cid : Nat) (s : State) : Out :=
  done (s.accepted cid (fun c => c.opcode == 0x09 && c.p 8 1 != 1 && c.p 8 1 != 2) (fun c s => s.fwLoad c))

/-- FW_LOAD with TARGET 1. -/
def execFwLoadShell (cid : Nat) (s : State) : Out :=
  done (s.accepted cid (fun c => c.opcode == 0x09 && c.p 8 1 == 1) (fun c s => s.fwLoad c))

/-- FW_LOAD with TARGET 2 (18 R431). -/
def execFwLoadProvisioning (cid : Nat) (s : State) : Out :=
  done (s.accepted cid (fun c => c.opcode == 0x09 && c.p 8 1 == 2) (fun c s => s.fwLoad c))

/-! ## The end of programming -/

/-- FUSE_BURN (20 R472). -/
def State.burnRecord (s : State) (field : Nat) : State :=
  s.security 0x23 0xFF (leBytes 4 field ++ leBytes 4 (svnCount s.fuseArray.fwSvn) ++ leBytes 8 s.time)

/-- COMMIT_SVN burns FW_SVN up to an image's SVN (18 R430). -/
def State.commitSvn (s : State) (svn : Nat) : State :=
  if svn ≤ svnCount s.fuseArray.fwSvn then s
  else (s.onFuseArray (fun f => { f with fwSvn := f.fwSvn ||| BitVec.ofNat 64 (2 ^ svn - 1) })).burnRecord 12

/-- A provisioning record is burnt, entry by entry. -/
def State.burnAll (s : State) (body : List Byte) : State :=
  (provEntries body).foldl (fun (s : State) e => (s.onFuseArray (fun f => provBurn f e)).burnRecord e.1) s

/-- A firmware region as an image leaves it. -/
def FwRegion.ofImage (img : List Byte) : FwRegion :=
  { valid := true, version := BitVec.ofNat 32 (fwVersionOf img), svn := fwSvnOf img, digest := digest256 img }

/-- FLASH_PROGRAM_DONE: the read-back's hash matches, or it does not and the region stays invalid. Fuses that are burnt have no
read-back. -/
def execFlashProgramDone (cid : Nat) (ok : Bool) (s : State) : Out :=
  done (match findCmd s cid, s.flash.writing with
    | some c, some (target, img) =>
      if c.work ≠ .flash then s else
      let s := s.onFlash (fun f => { f with writing := none })
      if target = 2 then (s.burnAll (img.drop 1024)).finish cid .ok zeros16
      else if !ok then s.fwFail cid 1 img .authFail (some 5)
      else if target = 1 then (s.onFlash (fun f => { f with primaryShell := some img })).finish cid .ok zeros16
      else
        let s := s.onFlash (fun f => { f with primaryFw := .ofImage img })
        (if c.p 9 1 = 1 then s.commitSvn (fwSvnOf img) else s).finish cid .ok zeros16
    | _, _ => s)

/-! ## Step 3 of a start (18 R428) -/

/-- A firmware region passes: its header, signature and hash hold, and its SVN is not refused. -/
def regionOk (s : State) (r : FwRegion) : Bool := r.valid && svnCount s.fuseArray.fwSvn ≤ r.svn

/-- A region that fails at boot: AUTH_FAIL of source 0, whose SIGN_SLOT and IDCODE, and the check of an invalid region, are those of bytes
the model does not hold: free
(notes/assumptions/55.md). -/
def State.bootFail (s : State) (r : FwRegion) : State :=
  let (b, s) := s.drawBytes 6
  s.authRecord 0 (fld b 0 1) (if r.valid then 6 else fld b 5 1) (fld b 1 4) .authFail 0xFFFF 0xFF

/-- Step 3: the image that runs, true for golden; none when both fail. -/
def State.chooseFirmware (s : State) : Option Bool × State :=
  if regionOk s s.flash.primaryFw then (some false, s) else
  let s := s.bootFail s.flash.primaryFw
  if regionOk s s.flash.goldenFw then (some true, s.security 0x24 0xFF (leBytes 1 1 ++ leBytes 7 0 ++ leBytes 8 s.time))
  else (none, (s.bootFail s.flash.goldenFw).security 0x24 0xFF (leBytes 1 3 ++ leBytes 7 0 ++ leBytes 8 s.time))

end Sys2Proof.Machine
end

