-- ==== Sys2Proof/Machine/Nimra.lean ====
section
/-!
DEFINITION. Nimra packets and the collective engine (16 R377 to R396): what is received, sent, placed, reduced and completed.
-/

namespace Sys2Proof.Machine

/-! ## Addresses of a frame (16 R377) -/

/-- MAC address of port n. -/
def macOf (s : State) (n : Nat) : Nat := bits (fld s.nimra.cfg 0 8) 47 0 + n
/-- IPv6 address of device d on rail n. -/
def ipv6Of (s : State) (d n : Nat) : Nat := fld s.nimra.cfg (256 + 8 * n) 8 * 2 ^ 64 + (0x4E6D000000000000 + d * 256 + n)
/-- MAC address of the next hop on rail n. -/
def nextHopOf (s : State) (n : Nat) : Nat := bits (fld s.nimra.cfg (512 + 8 * n) 8) 47 0
/-- UDP source port of a packet; its low 20 bits are the flow label. -/
def udpSource (p : NPacket) : Nat := 0xC000 + Config.nimraHash p.srcNode p.dstNode p.msg % 16384
/-- UDP destination port. -/
def udpDest : Nat := 48620

/-! ## The bytes of a packet and of its frame (16 R377, R378) -/

/-- FLAGS of a packet's header. -/
def packetFlags (p : NPacket) : Nat := p.ackValid.toNat + 2 * p.ece.toNat + 4 * p.last.toNat + 8 * p.retx.toNat

/-- The 48 bytes of a header (16 R378). -/
def packetHeader (type : Nat) (p : NPacket) : List Byte :=
  leBytes 1 (1 + 16 * type) ++ leBytes 1 (packetFlags p) ++ leBytes 2 (p.srcNode + 4096 * p.srcFlask) ++ leBytes 2 (p.dstNode + 4096 * p.dstFlask) ++
    leBytes 1 p.group ++ leBytes 1 p.rail ++ leBytes 4 p.psn ++ leBytes 4 p.ackPsn ++ leBytes 8 p.sack.toNat ++ leBytes 4 p.seq ++
    leBytes 2 p.payload.length ++ leBytes 1 p.op ++ leBytes 1 p.status ++ leBytes 8 p.offset ++ leBytes 2 p.msg ++ leBytes 1 p.idx ++
    leBytes 1 (p.count - 1) ++ leBytes 4 p.epoch

/-- A packet: header, payload and CRC-32 (16 R378; conventions notes/assumptions/13.md). -/
def packetBytes (type : Nat) (p : NPacket) : List Byte :=
  let b := packetHeader type p ++ p.payload
  b ++ leBytes 4 (crc32 b)

/-- `n` bytes of a number in network order, as Ethernet and IPv6 carry their own fields (notes/assumptions/127.md). -/
def netBytes (n v : Nat) : List Byte := (leBytes n v).reverse

/-- The one's-complement sum of 16-bit words in network order. -/
def onesSum : List Byte → Nat
  | a :: b :: t => let v := 256 * a.toNat + b.toNat + onesSum t
    v % 65536 + v / 65536
  | [a] => 256 * a.toNat
  | [] => 0

/-- The UDP checksum over the IPv6 pseudo-header; a sum of 0 is sent as 0xFFFF (16 R377). -/
def udpChecksum (src dst : Nat) (udp : List Byte) : Nat :=
  let c := 65535 - onesSum (netBytes 16 src ++ netBytes 16 dst ++ netBytes 4 udp.length ++ netBytes 4 17 ++ udp) % 65536
  if c = 0 then 65535 else c

/-- The UDP datagram of a packet, between two IPv6 addresses. -/
def udpBytes (src dst type : Nat) (p : NPacket) : List Byte :=
  let b := packetBytes type p
  let head (c : Nat) : List Byte := netBytes 2 (udpSource p) ++ netBytes 2 udpDest ++ netBytes 2 (8 + b.length) ++ netBytes 2 c
  head (udpChecksum src dst (head 0 ++ b)) ++ b

/-- The IPv6 packet: traffic class DSCP with ECT(0), hop limit 64, flow label the low 20 bits of the source port (16 R377). -/
def ipv6Bytes (s : State) (n type : Nat) (p : NPacket) : List Byte :=
  let src := ipv6Of s p.srcNode n
  let dst := ipv6Of s p.dstNode n
  let u := udpBytes src dst type p
  netBytes 4 (6 * 2 ^ 28 + (4 * bits (fld s.nimra.cfg 8 1) 5 0 + 2) * 2 ^ 20 + udpSource p % 2 ^ 20) ++ netBytes 2 u.length ++ netBytes 1 17 ++
    netBytes 1 64 ++ netBytes 16 src ++ netBytes 16 dst ++ u

/-- The frame that port n sends, from destination MAC to FCS (16 R377). -/
def frameBytes (s : State) (n type : Nat) (p : NPacket) : List Byte :=
  let b := netBytes 6 (nextHopOf s n) ++ netBytes 6 (macOf s n) ++ netBytes 2 0x86DD ++ ipv6Bytes s n type p
  b ++ leBytes 4 (crc32 b)

/-! ## Members and running nodes -/

/-- Rank of a node and flask in a group. -/
def rankOf (x : Group) (node flask : Nat) : Option Nat := x.members.findIdx? (· == (node, flask))

/-- The group with a number. -/
def State.group? (s : State) (g : Nat) : Option Group := Tab.find? s.nimra.groups g

/-- The running node of a group (16 R386: one at a time). -/
def runningColl (s : State) (g : Nat) : Option Coll := s.nimra.colls.find? (fun c => c.group == g && c.running)

/-- Change the running node of a group. -/
def State.onColl (s : State) (g : Nat) (f : Coll → Coll) : State :=
  s.onNimra (fun m => { m with colls := m.colls.map (fun c => if c.group == g && c.running then f c else c) })

/-- Bytes of contributions, and of gathered data, that rank `me` of P needs from rank r (16 R386). -/
def needsFrom (d : List Byte) (p me r : Nat) : Nat × Nat :=
  match coOp d with
  | 1 => (chunkLen d p me, chunkLen d p r)
  | 2 => (0, coBytes d)
  | 3 => (chunkLen d p me, 0)
  | _ => (0, 0)

/-- ALL_REDUCE of no bytes. -/
def isBarrier (d : List Byte) : Bool := coOp d = 1 && coBytes d = 0

/-- The ports that are ACTIVE. -/
def activeMask (s : State) : Nat := ((upto 32).map (fun n => if portActive s n then 2 ^ n else 0)).sum

/-- Payload of a READY with a credit of `credit` segments (16 R388; layout notes/assumptions/40.md). -/
def readyPayload (s : State) (d : List Byte) (credit : Nat) : List Byte :=
  padTo 64 (leBytes 4 (coSeq d) ++ leBytes 1 (coOp d) ++ leBytes 1 (coDtype d) ++ leBytes 1 (coRedop d) ++ leBytes 1 0 ++
    leBytes 8 (coBytes d) ++ leBytes 4 (activeMask s) ++ leBytes 4 credit)

/-- A READY to rank r. -/
def State.sendReady (s : State) (g : Nat) (x : Group) (d : List Byte) (r credit : Nat) : State :=
  s.post (x.members.getD r (0, 0)).1 2 { groupPkt g x r (coSeq d) (coOp d) with payload := readyPayload s d credit }

/-- A running node ends with a failure (16 R392). -/
def State.endColl (s : State) (c : Coll) (st : Stat) (detail : Nat) (abort : Bool) : State :=
  let s := if abort && !coOneSided c.desc then s.sendAborts c.group (coSeq c.desc) else s
  let s := (collSpoils s c).foldl (fun s x => s.undefineRange (flaskOfKey c.heat) x.1 x.2) s
  let s := (s.onNimra (fun m => { m with colls := m.colls.filter (fun y => !(y.heat == c.heat && y.node == c.node)) })).dropFaults
    (fun f => match f.who with | .place g r => g == c.group && r < 65536 | _ => false)
  s.endNode c.heat c.node st (fun x => { x with detail := detail % 4096 })

/-- Every collective, PUT and GET with a peer ends with `ST_NOT_PRESENT`, its rank in DETAIL; nothing waits for it or from it
(16 R379, R392). -/
def State.losePeer (s : State) (node : Nat) : State :=
  let s := s.onNimra (fun m => { m with backlog := m.backlog.filter (fun b => b.1 != node), held := m.held.filter (fun h => h.2.srcNode != node) })
  s.nimra.colls.foldl (fun s c =>
    if !c.running then s else
    match s.group? c.group with
    | none => s
    | some x => match x.members.findIdx? (fun m => m.1 == node) with
      | some r => if r = x.rank || (coOneSided c.desc && coPeer c.desc ≠ r) then s else s.endColl c .notPresent r true
      | none => s)
    (s.onNimra (fun m =>
      let l := m.serves.filter (fun v => match Tab.find? m.groups v.group with
        | some x => (x.members.getD v.rank (0, 0)).1 != node
        | none => false)
      { m with serves := l }))

/-! ## Rails (16 R379 to R381) -/

/-- A rail becomes DOWN for a peer; its unacknowledged packets move to the other rails, and a peer without rails is
unreachable (16 R380). -/
def State.railDown (s : State) (n node : Nat) : State :=
  let l := (s.peer n node).sent
  let s := s.onPeer n node (fun e => { e with up := false, sent := [], probing := false })
  if unreachable s node then s.losePeer node else l.foldl (fun (s : State) p => s.post node p.type p.pkt) s

/-- A port leaves ACTIVE: its rail is DOWN for every peer at once (16 R380). -/
def State.portDown (s : State) (n : Nat) : State :=
  let mine := (upto 4096).map (fun k => (4096 * n + k, s.peer n k))
  let sent := mine.flatMap (fun x => x.2.sent.map (fun p => (x.1 % 4096, p)))
  let down := mine.map (fun x => (x.1, { x.2 with up := false, sent := [], probing := false }))
  let s := s.onNimra (fun m =>
    let t := m.peers.filter (fun x => x.1 < 4096 * n) ++ down ++ m.peers.filter (fun x => 4096 * (n + 1) ≤ x.1)
    { m with peers := t })
  let gone := (s.nimra.groups.flatMap (fun g => g.2.members.map (·.1))).dedup.filter (fun k => some k != s.nimra.nodeId && unreachable s k)
  let s := gone.foldl State.losePeer s
  sent.foldl (fun (s : State) x => if gone.contains x.1 then s else s.post x.1 x.2.type x.2.pkt) s

/-- A packet is resent under a new PSN with its timeout doubled, up to 8 × RTO_US; one already sent 8 times takes the rail
down. A pause for a receiver that is not ready does not count (16 R379, R380, R390). -/
def State.resend (s : State) (n node : Nat) (x : Sent) (paused : Bool) : State :=
  if 8 ≤ x.sends && !paused then s.railDown n node else
  ((s.onPeer n node (fun e => { e with sent := e.sent.filter (fun y => y.psn != x.psn) })).sendSeq n node x.type x.pkt
    (if paused then x.sends else x.sends + 1) (min (2 * x.rto) (8 * rtoUs s))).onEport n (fun e => { e with retx := e.retx + 1 })

/-- PSN a lies before b mod 2^32. -/
def psnBefore (a b : Nat) : Bool := 2 ^ 31 ≤ (a + 2 ^ 32 - b) % 2 ^ 32

/-- The acknowledgement that a packet carries covers a PSN. -/
def ackCovers (p : NPacket) (psn : Nat) : Bool :=
  psnBefore psn p.ackPsn || (let d := (psn + 2 ^ 32 - p.ackPsn) % 2 ^ 32; 1 ≤ d && d ≤ 64 && p.sack.getLsbD (d - 1))

/-- PSNs later than `psn` that SACK reports. -/
def sackedLater (p : NPacket) (psn : Nat) : Nat :=
  ((upto 64).filter (fun i => p.sack.getLsbD i && psnBefore psn ((p.ackPsn + 1 + i) % 2 ^ 32))).length

/-- The window after an acknowledgement: halved on ECE once a round trip, one more at the end of a round trip without ECE
(16 R381). `rtt` is the smoothed round-trip time at the end of a round trip, else 0. -/
def Peer.window (e : Peer) (ece : Bool) (rtt : Nat) : Peer :=
  let e := if rtt = 0 then e else { e with srtt := rtt, halved := false, cwnd := if e.halved || ece then e.cwnd else min 64 (e.cwnd + 1) }
  if ece && !e.halved then { e with cwnd := max 1 (e.cwnd / 2), halved := true } else e

/-- An acknowledgement from a peer on rail n (16 R379 to R381): packets it reports are released, and a PSN with three later ones
received is resent. -/
def State.acked (s : State) (n : Nat) (p : NPacket) (rtt : Nat) : State :=
  let node := p.srcNode
  let e := s.peer n node
  let freed := e.sent.filter (fun x => ackCovers p x.psn)
  let kept := (e.sent.filter (fun x => !ackCovers p x.psn)).map (fun x => { x with later := sackedLater p x.psn })
  let s := s.onPeer n node (fun e => ({ e with sent := kept } : Peer).window p.ece rtt)
  let s := freed.foldl (fun s x => s.onColl x.pkt.group (fun c =>
    if x.type = 0 && coSeq c.desc = x.pkt.seq then
      { c with rnr := false,
               gotG := if coOp c.desc = 4 && x.pkt.op = 2 then Tab.upd 0 c.gotG (coPeer c.desc) (· + x.pkt.payload.length) else c.gotG }
    else c)) s
  (kept.filter (fun x => 3 ≤ x.later)).foldl (fun s x => s.resend n node x false) s

/-- A standalone ACK. -/
def ackPkt (p : NPacket) : NPacket :=
  { p with last := false, retx := false, srcFlask := p.dstFlask, dstFlask := p.srcFlask, seq := 0, op := 0, status := 0, offset := 0, msg := 0,
           idx := 0, count := 1, payload := [] }

/-- A peer's entry is emptied on every rail, and its epoch recorded (16 R379). -/
def State.emptyPeer (s : State) (node : Nat) (ep : Nat) : State :=
  s.onNimra (fun m => { m with peers := (upto 32).foldl (fun t n => Tab.put t (4096 * n + node) { Peer.init with epoch := some ep }) m.peers })

/-- A packet is owed an acknowledgement; with 16 owed, a standalone ACK leaves (16 R379). -/
def State.owe (s : State) (n : Nat) (p : NPacket) : State :=
  let s := s.onPeer n p.srcNode (fun e => { e with owed := e.owed + 1 })
  if 16 ≤ (s.peer n p.srcNode).owed then s.sendPlain n p.srcNode 1 (ackPkt p) else s

/-- What comes of a packet before its TYPE acts. -/
inductive Verdict where
  | drop
  | take
  deriving DecidableEq, Repr

/-- 16 R375, R379: a packet arrives at port n. Its epoch is checked, what it acknowledges is released, and of a sequenced one the
PSN is checked. -/
def State.receive (s : State) (n : Nat) (p : NPacket) (sequenced : Bool) (rtt : Nat) : Verdict × State :=
  if !portActive s n then (.drop, s) else
  let s := s.onEport n (fun e => { e with fecCorr := e.fecCorr + p.fec })
  if s.nimra.nodeId.isNone || s.nimra.nodeId ≠ some p.dstNode then (.drop, s.onEport n (fun e => { e with rxDrop := e.rxDrop + 1 }))
  else if s.nimra.nodeId = some p.srcNode then (.drop, s.onEport n (fun e => { e with dupNode := e.dupNode + 1 }))
  else
    let s := s.onEport n (fun e => { e with rxFrames := e.rxFrames + 1, ecnCe := e.ecnCe + (if p.ce then 1 else 0) })
    let node := p.srcNode
    let old := (s.peer n node).epoch
    let s := match old with
      | some ep => if ep = p.epoch then s else (s.emptyPeer node p.epoch).losePeer node
      | none => s
    let s := if p.ackValid && (old.isNone || old = some p.epoch) then s.acked n p rtt else s
    if !sequenced then (.take, s)
    else if old ≠ some p.epoch && p.psn ≠ 0 then (.drop, s.sendPlain n node 1 (ackPkt p))
    else
      let s := s.onPeer n node (fun e => { e with epoch := some p.epoch })
      let e := s.peer n node
      let d := (p.psn + 2 ^ 32 - e.rcv) % 2 ^ 32
      if 2 ^ 31 ≤ d || (1 ≤ d && e.map.contains (d - 1)) then (.drop, s.owe n p)
      else if 64 ≤ d then (.drop, s)
      else (.take, s)

/-- The received PSNs from the next expected one, as offsets, after offset d: how many are consecutive, and what is beyond. -/
def advance : Nat → List Nat → Nat → Nat
  | 0, _, k => k
  | fuel + 1, l, k => if l.contains k then advance fuel l (k + 1) else k

/-- A packet's PSN has been received, and is owed its acknowledgement (16 R379). -/
def State.gotPsn (s : State) (n : Nat) (p : NPacket) : State :=
  let node := p.srcNode
  (s.onPeer n node (fun e =>
    let d := (p.psn + 2 ^ 32 - e.rcv) % 2 ^ 32
    let l := d :: e.map.map (· + 1)
    let k := advance 65 l 0
    { e with rcv := (e.rcv + k) % 2 ^ 32, map := (l.filter (fun o => k ≤ o)).map (fun o => o - k - 1), ece := e.ece || p.ce })).owe n p

/-! ## Sending (16 R386, R388, R391) -/

/-- FP32 words of n elements of memory bytes, BF16 expanded exactly (16 R387). -/
def reduceWords (d : List Byte) (bs : List Byte) : List W32 :=
  if coDtype d = 0 then (upto (bs.length / 4)).map (fun i => BitVec.ofNat 32 (fld bs (4 * i) 4))
  else (upto (bs.length / 2)).map (fun i => BitVec.ofNat 32 (65536 * fld bs (2 * i) 2))

/-- Bytes of an element. -/
def coElem (d : List Byte) : Nat := if coDtype d = 0 then 4 else 2

/-- The BF16 write-back of one element (02 R53, a conversion word of zero). -/
def bf16Out (w : W32) : CvtOut := convert (f32 w) .fp32 .bf16 0 (1, 0) 0 0

/-- Bytes of the reduced chunk from its accumulator. -/
def reducedBytes (d : List Byte) (acc : Tab W32) (off n : Nat) : List Byte :=
  (upto (n / coElem d)).flatMap (fun i =>
    let w := Tab.get 0 acc (off / coElem d + i)
    if coDtype d = 0 then leBytes 4 w.toNat else leBytes 2 (bf16Out w).code)

/-- Bytes of the owned chunk that every rank has been added to. -/
def reducedTo (c : Coll) (p me : Nat) : Nat := (upto p).foldl (fun m r => min m (Tab.get 0 c.added r)) (chunkLen c.desc p me)

/-- The next packet of a running node toward rank r: OP, offset, length, and the stream's length. -/
def nextSend (s : State) (c : Coll) (p me r : Nat) : Option (Nat × Nat × Nat × Nat) :=
  let d := c.desc
  let pay := payloadMax s
  let ask (op off limit total : Nat) : Option (Nat × Nat × Nat × Nat) :=
    if off < limit then some (op, off, min pay (limit - off), total) else none
  match coOp d with
  | 4 => if r = coPeer d then ask 2 (Tab.get 0 c.sentC r) (coBytes d) (coBytes d) else none
  | 5 => if r = coPeer d && Tab.get 0 c.sentC r = 0 then some (3, 0, 64, 64) else none
  | op =>
    if !c.readyFrom.contains r then none else
    let contrib := if op = 2 then none else
      ask 0 (Tab.get 0 c.sentC r) (min (chunkLen d p r) (Tab.get 0 c.credits r * segSize d p)) (chunkLen d p r)
    match contrib with
    | some x => some x
    | none => if op = 2 then ask 1 (Tab.get 0 c.sentG r) (coBytes d) (coBytes d)
      else if op = 1 then ask 1 (Tab.get 0 c.sentG r) (reducedTo c p me) (chunkLen d p me) else none

/-- OFFSET of a packet (16 R378; notes/assumptions/40.md): in the owner's chunk, in DST, or the remote address. -/
def sendOffset (d : List Byte) (p me op off : Nat) : Nat :=
  match op with
  | 0 => off
  | 1 => (if coOp d = 2 then me * coBytes d else me * chunkSize d p) + off
  | _ => coRemote d + off

/-- Where a packet's bytes lie in SRC. -/
def sendFrom (d : List Byte) (p r op off : Nat) : Nat := if op = 0 then coSrc d + r * chunkSize d p + off else coSrc d + off

/-- The bytes of a packet. -/
def sendBytes (s : State) (c : Coll) (p r op off n : Nat) : Got :=
  let d := c.desc
  let f := flaskOfKey c.heat
  match op with
  | 0 => readFlask s f (sendFrom d p r op off) n
  | 1 => if coOp d = 2 then readFlask s f (sendFrom d p r op off) n else .ok (reducedBytes d c.acc off n)
  | 2 => readFlask s f (sendFrom d p r op off) n
  | _ => .ok (padTo 64 (leBytes 8 (coBytes d)))

/-- Message number, index and count of the packet at an offset of a stream (16 R378: messages of at most 256 packets). -/
def msgFields (s : State) (g seq r off total : Nat) : Nat × Nat × Nat :=
  let k := off / payloadMax s
  let all := (total + payloadMax s - 1) / payloadMax s
  (Config.msgNumber (g * 2 ^ 32 + seq) r (k / 256) % 65536, k % 256, min 256 (all - k / 256 * 256))

/-- A running node's page fault waits, once. -/
def State.placeWaits (s : State) (flask page g r : Nat) : State :=
  if s.faults.any (fun f => f.who == .place g r) then s else s.pageFault flask page (.place g r) (patienceOf s flask)

/-- One packet of the running node of group g toward rank r; none where nothing may leave. -/
def State.sendOne (s : State) (g r : Nat) : Option State :=
  match runningColl s g, s.group? g with
  | some c, some x =>
    let p := x.members.length
    if c.rnr || s.faults.any (fun f => f.who == .place g x.rank) then none else
    match nextSend s c p x.rank r with
    | none => none
    | some (op, off, n, total) =>
      match sendBytes s c p r op off n with
      | .wait pg => some (s.placeWaits (flaskOfKey c.heat) pg g x.rank)
      | .fail st => some ((s.blame (flaskOfKey c.heat) (sendFrom c.desc p r op off) n st).endColl c st 0 true)
      | .ok bs =>
        let (m, i, k) := msgFields s g (coSeq c.desc) r off total
        let q : NPacket := { groupPkt g x r (coSeq c.desc) op with
          offset := sendOffset c.desc p x.rank op off, msg := m, idx := i, count := k, last := i + 1 = k, payload := bs }
        (s.trySend (x.members.getD r (0, 0)).1 0 q).map (fun s =>
          let n := if op = 3 then 0 else n
          (s.onColl g (fun c => { c with
            sentC := if op = 1 then c.sentC else Tab.upd 0 c.sentC r (· + (if op = 3 then 1 else n))
            sentG := if op = 1 then Tab.upd 0 c.sentG r (· + n) else c.sentG
            tx := c.tx + n })).onGroup g (fun x => { x with bytesTx := x.bytesTx + n }))
  | _, _ => none

/-- Packets toward one rank, while they may leave; the fuel is every window of every rail. -/
def sendTo (g r : Nat) : Nat → State → State
  | 0, s => s
  | fuel + 1, s => match s.sendOne g r with | some s => sendTo g r fuel s | none => s

/-- A NACK or an RNR goes back on the rail its packet came on. -/
def State.answerPkt (s : State) (n type : Nat) (p : NPacket) (status : Nat) : State :=
  s.sendPlain n p.srcNode type { ackPkt p with group := p.group, seq := p.seq, op := p.op, status := status % 256, offset := p.offset, msg := p.msg, idx := p.idx }

/-- One packet of a GET that this device serves. -/
def State.serveOne (s : State) (v : Serve) : Option State :=
  match s.group? v.group with
  | none => none
  | some x =>
    let w := putWaiter v.rank
    let node := (x.members.getD v.rank (0, 0)).1
    let n := min (payloadMax s) (v.bytes - v.sent)
    let back (type st : Nat) (s : State) : State :=
      match (upto 32).find? (railUp s node) with
      | some k => s.sendPlain k node type { groupPkt v.group x v.rank 0 3 with status := st % 256 }
      | none => s
    if n = 0 || s.faults.any (fun f => f.who == .place v.group w) then none else
    match readFlask s x.flask (v.va + v.sent) n with
    | .wait pg => let (st, s) := s.draw; some (back 3 st (s.placeWaits x.flask pg v.group w))
    | .fail st => some ((back 4 st.code (s.blame x.flask (v.va + v.sent) n st)).onNimra (fun m => { m with serves := m.serves.filter (· != v) }))
    | .ok bs =>
      let (m, i, k) := msgFields s v.group 0 v.rank v.sent v.bytes
      let q : NPacket := { groupPkt v.group x v.rank 0 4 with
        offset := v.va + v.sent, msg := m, idx := i, count := k, last := i + 1 = k, payload := bs }
      (s.trySend node 0 q).map (fun s => (s.onNimra (fun m => { m with
        serves := (m.serves.map (fun y => if y = v then { y with sent := y.sent + n } else y)).filter (fun y => y.sent < y.bytes) })).onGroup v.group
          (fun x => { x with bytesTx := x.bytesTx + n }))

/-- Packets of served GETs, while they may leave. -/
def serveAll : Nat → State → State
  | 0, s => s
  | fuel + 1, s => match s.nimra.serves.findSome? s.serveOne with | some s => serveAll fuel s | none => s

/-- Everything that READY, credit and window allow leaves (16 R391). -/
def State.pump (s : State) : State :=
  let s := s.flushBacklog
  let s := (s.nimra.colls.filter (·.running)).foldl (fun s c =>
    match s.group? c.group with
    | none => s
    | some x => ((upto x.members.length).filter (· ≠ x.rank)).foldl (fun s r => sendTo c.group r 2048 s) s) s
  serveAll 2048 s

/-! ## Reducing (16 R387) -/

/-- One reduction of two elements. -/
def reduceOp (d : List Byte) (a b : W32) : W32 :=
  match coRedop d with
  | 0 => f32Sum (f32 a) (f32 b)
  | 1 => vMax a b
  | _ => vMin a b

/-- A rank's elements of a part of the chunk are taken into the accumulator. -/
def Coll.absorb (c : Coll) (r off : Nat) (bs : List Byte) : Coll :=
  let e0 := off / coElem c.desc
  { c with acc := ((reduceWords c.desc bs).zipIdx).foldl (fun t x => Tab.put t (e0 + x.2)
             (if r = 0 then x.1 else reduceOp c.desc (Tab.get 0 t (e0 + x.2)) x.1)) c.acc
           added := Tab.put c.added r (off + bs.length) }

/-- How far every rank below r has been added. -/
def lowerTo (c : Coll) (len r : Nat) : Nat := (upto r).foldl (fun m k => min m (Tab.get 0 c.added k)) len

/-- This device's own part is added as far as every lower rank's has been. -/
def State.absorbOwn (s : State) (g : Nat) : State :=
  match runningColl s g, s.group? g with
  | some c, some x =>
    let p := x.members.length
    let d := c.desc
    let a := Tab.get 0 c.added x.rank
    let b := lowerTo c (chunkLen d p x.rank) x.rank
    if !coReduces d || b ≤ a || p = 1 then s else
    let src := coSrc d + x.rank * chunkSize d p + a
    match readFlask s (flaskOfKey c.heat) src (b - a) with
    | .wait pg => s.placeWaits (flaskOfKey c.heat) pg g x.rank
    | .fail st => (s.blame (flaskOfKey c.heat) src (b - a) st).endColl c st 0 true
    | .ok bs => s.onColl g (fun c => c.absorb x.rank a bs)
  | _, _ => s

/-- Where DST holds the owned chunk. -/
def ownOffset (d : List Byte) (p me : Nat) : Nat := if coOp d = 1 then me * chunkSize d p else 0

/-- Overflows of the BF16 write-back of a part of the reduced chunk. -/
def reduceOvf (d : List Byte) (acc : Tab W32) (off n : Nat) : Nat :=
  if coDtype d = 0 then 0
  else ((upto (n / 2)).filter (fun i => (bf16Out (Tab.get 0 acc (off / 2 + i))).ovf)).length

/-- A segment of rank r is added when every lower rank's is and all of it has come; the credit goes back (16 R387, R388). What is
then reduced is written to DST. -/
def State.addSegment (s : State) (g r : Nat) : State :=
  match runningColl s g, s.group? g with
  | some c, some x =>
    let d := c.desc
    let p := x.members.length
    let len := chunkLen d p x.rank
    let a := Tab.get 0 c.added r
    let b := min len (a + segSize d p)
    let keys := (upto (b - a)).map (fun i => 2 ^ 40 * r + a + i)
    if !coReduces d || r = x.rank || p ≤ r || b ≤ a || lowerTo c len r < b || !keys.all (Tab.has c.scratch ·) then s else
    let bs := keys.map (fun k => Tab.get 0 c.scratch k)
    let s := s.onColl g (fun c => ({ c with scratch := c.scratch.filter (fun x => !(2 ^ 40 * r + a ≤ x.1 && x.1 < 2 ^ 40 * r + b)) } : Coll).absorb r a bs)
    (s.sendReady g x d r 1).absorbOwn g
  | _, _ => s

/-- The reduced bytes of the owned chunk reach DST. -/
def State.writeReduced (s : State) (g a : Nat) : State :=
  match runningColl s g, s.group? g with
  | some c, some x =>
    let d := c.desc
    let p := x.members.length
    let b := reducedTo c p x.rank
    if !coReduces d || b ≤ a then s else
    let s := s.onColl g (fun c => { c with ovf := sat32 c.ovf (reduceOvf d c.acc a (b - a)) })
    match s.tryPatch (flaskOfKey c.heat) (coDst d + ownOffset d p x.rank + a) (reducedBytes d c.acc a (b - a)) with
    | (.ok _, s) => s
    | (.wait pg, s) => s.placeWaits (flaskOfKey c.heat) pg g x.rank
    | (.fail st, s) => s.endColl c st 0 true
  | _, _ => s

/-- DST of the next segment can be written: its page is there. -/
def ownDst (s : State) (g : Nat) : Got :=
  match runningColl s g, s.group? g with
  | some c, some x =>
    let d := c.desc
    let p := x.members.length
    let a := reducedTo c p x.rank
    let n := min (segSize d p) (chunkLen d p x.rank - a)
    if coReduces d && 0 < n then patchCheck s (flaskOfKey c.heat) (coDst d + ownOffset d p x.rank + a) n else .ok []
  | _, _ => .ok []

/-- REDUCE_SEGMENT_DONE. While the page of DST is not resident it changes nothing but the fault (notes/assumptions/16.md). -/
def execReduceSegmentDone (group rank : Nat) (s : State) : Out :=
  done (match runningColl s group, s.group? group with
    | some c, some x =>
      match ownDst s group with
      | .wait pg => s.placeWaits (flaskOfKey c.heat) pg group x.rank
      | .fail st => (s.endColl c st 0 true).settle
      | .ok _ => (((s.addSegment group rank).writeReduced group (reducedTo c x.members.length x.rank)).pump).settle
    | _, _ => s)

/-! ## Starting (16 R386, R388, R392) -/

/-- A READY agrees with a node (16 R385, R392). -/
def readyAgrees (d : List Byte) (m : ReadyMsg) : Bool :=
  m.seq == coSeq d && m.op == coOp d && m.bytes == coBytes d && m.dtype == coDtype d && m.redop == coRedop d

/-- ns since a node's start, as ARRIVE counts them. -/
def arriveNs (s : State) (c : Coll) : Nat := min (s.time - c.since) 0xFFFFFFFF

/-- A READY from rank r with a credit is taken by the running node. -/
def State.takeReady (s : State) (g : Nat) (x : Group) (m : ReadyMsg) (credit : Nat) : State :=
  match runningColl s g with
  | none => s
  | some c =>
    if !readyAgrees c.desc m then s.endColl c .invalid m.rank true else
    let t := arriveNs s c
    s.onColl g (fun c => { c with
      readyFrom := numInsert c.readyFrom m.rank
      credits := Tab.upd 0 c.credits m.rank (· + credit)
      arrive := if needsFrom c.desc x.members.length x.rank m.rank = (0, 0) && !Tab.has c.arrive m.rank then Tab.put c.arrive m.rank t else c.arrive })

/-- A queued node starts. -/
def State.startColl (s : State) (c : Coll) : State :=
  match s.group? c.group with
  | none => s
  | some x =>
    let d := c.desc
    let g := c.group
    let p := x.members.length
    let s := s.onNimra (fun m => { m with colls := m.colls.map (fun y => if y.heat == c.heat && y.node == c.node then
      { y with running := true, since := s.time } else y) })
    let c := { c with running := true, since := s.time }
    if coOneSided d then s else
    match x.keptAborts.find? (fun a => a.1 == coSeq d) with
    | some a => (s.onGroup g (fun x => { x with lastSeq := coSeq d, keptAborts := x.keptAborts.filter (fun a => coSeq d < a.1) })).endColl
        { c with running := false } .discarded a.2 false
    | none =>
      let s := s.onGroup g (fun x => { x with lastSeq := coSeq d, kept := [], keptAborts := x.keptAborts.filter (fun a => coSeq d < a.1) })
      let rs := (upto p).filter (· ≠ x.rank)
      let s := if coReduces d then s.undefineRange (flaskOfKey c.heat) (coScratch d) (2 * (p - 1) * segSize d p) else s
      let s := (rs.filter (fun r => isBarrier d || needsFrom d p x.rank r ≠ (0, 0))).foldl
        (fun (s : State) r => s.sendReady g x d r (if coReduces d then 2 else 0)) s
      let s := x.kept.foldl (fun (s : State) m => s.takeReady g x m (if coReduces d then 2 else 0)) s
      let s := s.absorbOwn g
      match ownDst s g with
      | .ok _ => s.writeReduced g 0
      | _ => s

/-- Queued nodes start in order of dispatch: 16 run, one of a group (16 R386). -/
def startColls : Nat → State → State
  | 0, s => s
  | fuel + 1, s =>
    if 16 ≤ (s.nimra.colls.filter (·.running)).length then s else
    match s.nimra.colls.find? (fun c => !c.running && (runningColl s c.group).isNone) with
    | some c => startColls fuel (s.startColl c)
    | none => s

/-- Nodes start, packets leave, and heats go on. -/
def State.nimraGo (s : State) : State := ((startColls 80 s).pump).settle

/-! ## Placing (16 R379, R390) -/

/-- What placing a packet's data comes to. -/
inductive Place where
  | done (s : State)
  | wait (flask page waiter : Nat)
  | nack (flask va : Nat) (st : Stat)
  | fail (c : Coll) (flask va : Nat) (st : Stat)

/-- Bytes from rank r are placed: their counts, and ARRIVE with the last one needed. -/
def Coll.arrived (c : Coll) (p me r now n : Nat) (gathered : Bool) (m : Nat × Nat × Nat) : Coll :=
  let c := { c with placed := m :: c.placed
                    gotC := if gathered then c.gotC else Tab.upd 0 c.gotC r (· + n)
                    gotG := if gathered then Tab.upd 0 c.gotG r (· + n) else c.gotG }
  if needsFrom c.desc p me r = (Tab.get 0 c.gotC r, Tab.get 0 c.gotG r) then { c with arrive := Tab.put c.arrive r now } else c

/-- Data of a collective for the running node (OP 0, 1), or of a GET (OP 4). -/
def placeColl (s : State) (p : NPacket) (x : Group) (r : Nat) : Place :=
  match runningColl s p.group with
  | none => .done s
  | some c =>
    let d := c.desc
    let n := p.payload.length
    let m := (r, p.msg, p.idx)
    let f := flaskOfKey c.heat
    let count (g : Bool) (s : State) : State :=
      (s.onColl p.group (fun c => c.arrived x.members.length x.rank r (arriveNs s c) n g m)).onGroup p.group (fun x => { x with bytesRx := x.bytesRx + n })
    let write (a : Nat) : Place := match s.tryPatch f a p.payload with
      | (.ok _, s) => .done (count true s)
      | (.wait pg, _) => .wait f pg r
      | (.fail st, _) => .fail c f a st
    if c.placed.contains m || coSeq d ≠ p.seq then .done s else
    match p.op with
    | 0 => if coReduces d then .done (count false (s.onColl p.group (fun c =>
          let t := (p.payload.zipIdx).foldl (fun t y => Tab.put t (2 ^ 40 * r + p.offset + y.2) y.1) c.scratch
          { c with scratch := t }))) else .done s
    | 1 => if coOp d = 1 || coOp d = 2 then write (coDst d + p.offset) else .done s
    | _ => if coOp d = 5 && coPeer d = r then write (coDst d + (p.offset - coRemote d)) else .done s

/-- A packet's data is placed (16 R379, R386, R390). -/
def placeData (s : State) (p : NPacket) : Place :=
  match s.group? p.group with
  | none => if p.op = 2 || p.op = 3 then .nack 0xFF 0 .notPresent else .done s
  | some x =>
    match (if p.dstFlask = x.flask then rankOf x p.srcNode p.srcFlask else none) with
    | none => if p.op = 2 || p.op = 3 then .nack 0xFF 0 .invalid else .done s
    | some r =>
      match p.op with
      | 2 =>
        if s.nimra.maps.contains (p.srcNode, p.msg, p.idx) then .done s else
        match s.tryPatch x.flask p.offset p.payload with
        | (.ok _, s) => .done ((s.onNimra (fun m =>
            let l := (p.srcNode, p.msg, p.idx) :: m.maps
            { m with maps := if p.count ≤ (l.filter (fun y => y.1 == p.srcNode && y.2.1 == p.msg)).length then
                l.filter (fun y => !(y.1 == p.srcNode && y.2.1 == p.msg)) else l })).onGroup p.group (fun x => { x with bytesRx := x.bytesRx + p.payload.length }))
        | (.wait pg, _) => .wait x.flask pg (putWaiter r)
        | (.fail st, _) => .nack x.flask p.offset st
      | 3 =>
        let n := fld p.payload 0 8
        if !mapped s x.flask p.offset n false then .nack 0xFF 0 .invalid
        else .done (s.onNimra (fun m => { m with serves := m.serves ++ [{ group := p.group, rank := r, va := p.offset, bytes := n, sent := 0 }] }))
      | _ => placeColl s p x r

/-- A DATA packet whose PSN is in its window: placed, or held while its page is not resident (notes/assumptions/41.md). -/
def State.placePkt (s : State) (n : Nat) (p : NPacket) : State :=
  match placeData s p with
  | .done s => s.gotPsn n p
  | .nack flask va st => ((s.gotPsn n p).blame flask va p.payload.length st).answerPkt n 4 p st.code
  | .fail c flask va st => ((s.gotPsn n p).blame flask va p.payload.length st).endColl c st 0 true
  | .wait flask pg w =>
    let (st, s) := s.draw
    ((s.placeWaits flask pg p.group w).onNimra (fun m => { m with held := m.held ++ [(n, p)] })).answerPkt n 3 p st

/-- DATA. -/
def execData (port : Nat) (p : NPacket) (s : State) : Out :=
  done (match s.receive port p true 0 with
    | (.drop, s) => s.nimraGo
    | (.take, s) => if s.nimra.held.any (fun h => h.1 == port && h.2.srcNode == p.srcNode && h.2.psn == p.psn) then s.nimraGo
      else (s.placePkt port p).nimraGo)

/-- A page that placement or sending waited for is resident: packets held for it are placed, and sending goes on. -/
def State.placeResume (s : State) (g w : Nat) : State :=
  let mine (h : Nat × NPacket) : Bool := h.2.group == g && (match s.group? g with
    | some x => (match rankOf x h.2.srcNode h.2.srcFlask with
      | some r => w == (if h.2.op = 2 then putWaiter r else r)
      | none => false)
    | none => false)
  let l := s.nimra.held.filter mine
  let s := s.onNimra (fun m => { m with held := m.held.filter (fun h => !mine h) })
  (l.foldl (fun (s : State) h => if (s.peer h.1 h.2.srcNode).epoch = some h.2.epoch then s.placePkt h.1 h.2 else s) s).nimraGo

/-- The patience of such a page ends (16 R390, R392): a NACK to the peer of a PUT or GET, the end of the local node else. -/
def State.placeExpire (s : State) (g w : Nat) : State :=
  if w < 65536 then
    match runningColl s g with
    | some c => (s.endColl c .pageTimeout 0 true).nimraGo
    | none => s
  else
    match s.group? g with
    | none => s
    | some x =>
      let node := (x.members.getD (w - 65536) (0, 0)).1
      let l := s.nimra.held.filter (fun h => h.2.group == g && h.2.srcNode == node && h.2.op == 2)
      let s := l.foldl (fun (s : State) h => (s.gotPsn h.1 h.2).answerPkt h.1 4 h.2 Stat.pageTimeout.code) s
      let gets := s.nimra.serves.filter (fun v => v.group == g && v.rank == w - 65536)
      let s := if gets.isEmpty then s else match (upto 32).find? (railUp s node) with
        | some k => s.sendPlain k node 4 { groupPkt g x (w - 65536) 0 3 with status := Stat.pageTimeout.code % 256 }
        | none => s
      (s.onNimra (fun m => { m with held := m.held.filter (fun h => !l.contains h), serves := m.serves.filter (fun v => !gets.contains v) })).nimraGo

/-! ## The other packets (16 R379, R380, R388, R390, R392) -/

/-- ACK: also of a PROBE, whose rail is UP again (16 R380). -/
def execAck (port : Nat) (p : NPacket) (rtt : Nat) (s : State) : Out :=
  done (match s.receive port p false rtt with
    | (.drop, s) => s
    | (.take, s) => (s.onPeer port p.srcNode (fun e => if e.probing then { e with up := true, probing := false } else e)).nimraGo)

/-- The message of a READY's payload. -/
def readyMsg (r : Nat) (p : NPacket) : ReadyMsg :=
  { rank := r, seq := fld p.payload 0 4, op := fld p.payload 4 1, bytes := fld p.payload 8 8, dtype := fld p.payload 5 1, redop := fld p.payload 6 1 }

/-- READY: for the running node, kept for a later one, or dropped for a finished one (16 R388, R392). -/
def execReady (port : Nat) (p : NPacket) (s : State) : Out :=
  done (match s.receive port p true 0 with
    | (.drop, s) => s.nimraGo
    | (.take, s) =>
      let s := (s.gotPsn port p).onPeer 0 p.srcNode (fun e => { e with ports := some (BitVec.ofNat 32 (fld p.payload 16 4)) })
      match s.group? p.group with
      | none => s.nimraGo
      | some x => match rankOf x p.srcNode p.srcFlask with
        | none => s.nimraGo
        | some r =>
          let m := readyMsg r p
          match runningColl s p.group with
          | some c =>
            if m.seq = coSeq c.desc then (s.takeReady p.group x m (fld p.payload 20 4)).nimraGo
            else if m.seq ≤ x.lastSeq then s.nimraGo
            else (s.onGroup p.group (fun x => { x with kept := x.kept.filter (fun k => k.rank != r) ++ [m] })).nimraGo
          | none => if m.seq ≤ x.lastSeq then s.nimraGo
            else (s.onGroup p.group (fun x => { x with kept := x.kept.filter (fun k => k.rank != r) ++ [m] })).nimraGo)

/-- The running node that a packet of a peer concerns. -/
def collOfPkt (s : State) (p : NPacket) : Option (Coll × Nat) :=
  match s.group? p.group, runningColl s p.group with
  | some x, some c => match rankOf x p.srcNode p.srcFlask with
    | some r => if coSeq c.desc = p.seq && (!coOneSided c.desc || coPeer c.desc = r) then some (c, r) else none
    | none => none
  | _, _ => none

/-- RNR: the message pauses (16 R390). -/
def execRnr (port : Nat) (p : NPacket) (s : State) : Out :=
  done (match s.receive port p false 0 with
    | (.drop, s) => s
    | (.take, s) => match collOfPkt s p with
      | some (c, _) => (s.onColl c.group (fun c => { c with rnr := true })).nimraGo
      | none => s.nimraGo)

/-- The status a NACK carries: the low byte of its code (16 R378, R390). -/
def nackStat (b : Nat) : Stat :=
  match b with
  | 0x70 => .notPresent
  | 0x41 => .uncorrectable
  | 0xA0 => .pageTimeout
  | _ => .invalid

/-- NACK ends the local node with its status (16 R390). -/
def execNack (port : Nat) (p : NPacket) (s : State) : Out :=
  done (match s.receive port p false 0 with
    | (.drop, s) => s
    | (.take, s) => match collOfPkt s p with
      | some (c, r) => (s.endColl c (nackStat p.status) r false).nimraGo
      | none => s.nimraGo)

/-- ABORT ends the group's node of that SEQ, or is kept for a later start (16 R392). -/
def execAbort (port : Nat) (p : NPacket) (s : State) : Out :=
  done (match s.receive port p true 0 with
    | (.drop, s) => s.nimraGo
    | (.take, s) =>
      let s := s.gotPsn port p
      match s.group? p.group with
      | none => s.nimraGo
      | some x => match rankOf x p.srcNode p.srcFlask with
        | none => s.nimraGo
        | some r =>
          let s := s.onGroup p.group (fun x => { x with aborts := x.aborts + 1 })
          match runningColl s p.group with
          | some c => if !coOneSided c.desc && coSeq c.desc = p.seq then (s.endColl c .discarded r false).nimraGo
            else if p.seq ≤ x.lastSeq then s.nimraGo
            else (s.onGroup p.group (fun x => { x with keptAborts := x.keptAborts ++ [(p.seq, r)] })).nimraGo
          | none => if p.seq ≤ x.lastSeq then s.nimraGo
            else (s.onGroup p.group (fun x => { x with keptAborts := x.keptAborts ++ [(p.seq, r)] })).nimraGo)

/-- PROBE is acknowledged (16 R380). -/
def execProbe (port : Nat) (p : NPacket) (s : State) : Out :=
  done (match s.receive port p false 0 with
    | (.drop, s) => s
    | (.take, s) => (s.sendPlain port p.srcNode 1 (ackPkt p)).nimraGo)

/-- A packet that only carries the engine's own fields. -/
def barePkt (node : Nat) : NPacket :=
  { ackValid := false, ece := false, last := false, retx := false, srcNode := 0, srcFlask := 0, dstNode := node, dstFlask := 0, group := 0, rail := 0,
    psn := 0, ackPsn := 0, sack := 0, seq := 0, op := 0, status := 0, offset := 0, msg := 0, idx := 0, count := 1, epoch := 0, ce := false,
    fec := 0, payload := [] }

/-- ACK_TIMER (16 R379). -/
def execAckTimer (port peer : Nat) (s : State) : Out :=
  done (if 4096 ≤ peer || (s.peer port peer).owed = 0 then s else s.sendPlain port peer 1 (barePkt peer))

/-- RESEND_TIMEOUT (16 R379 to R381): the window falls to 1 and the packet is resent, or the rail goes DOWN. -/
def execResendTimeout (port peer psn : Nat) (s : State) : Out :=
  done (match (s.peer port peer).sent.find? (fun x => x.psn == psn) with
    | none => s
    | some x =>
      let paused := match runningColl s x.pkt.group with | some c => c.rnr && x.type = 0 && coSeq c.desc = x.pkt.seq | none => false
      ((s.onPeer port peer (fun e => { e with cwnd := 1 })).resend port peer x paused).nimraGo)

/-- PROBE_TIMER: a PROBE on the rail for every peer it is DOWN for (16 R380). -/
def execProbeTimer (port : Nat) (s : State) : Out :=
  done (if !portActive s port || s.nimra.nodeId.isNone then s else
    let ps := (s.nimra.peers.filter (fun x => x.1 / 4096 == port && !x.2.up && some (x.1 % 4096) != s.nimra.nodeId)).map (fun x => x.1 % 4096)
    ps.foldl (fun (s : State) k => (s.sendPlain port k 6 (barePkt k)).onPeer port k (fun e => { e with probing := true })) s)

/-- RECEIVED_FRAME_DROP (16 R370, R377); `symbols` of the frame were corrected and `words` of its code words were uncorrectable
(16 R393). -/
def execReceivedFrameDrop (port : Nat) (why : FrameDrop) (symbols words : Nat) (s : State) : Out :=
  done (if 32 ≤ port then s else s.onEport port (fun e =>
    let e := { e with fecCorr := e.fecCorr + symbols, fecUncorr := e.fecUncorr + words }
    match why with
    | .notNimra => { e with rxDrop := e.rxDrop + 1 }
    | .crc => { e with crcFail := e.crcFail + 1 }))

/-! ## Dispatch and completion (16 R385, R389) -/

/-- Two ranges of memory meet. -/
def rangesMeet (a n b m : Nat) : Bool := 0 < n && 0 < m && a < b + m && b < a + n

/-- Fields of a descriptor that need no group (16 R385). -/
def coForm (d : List Byte) : Bool :=
  let op := coOp d
  let one := coOneSided d
  1 ≤ op && op ≤ 5 && (if coReduces d then coDtype d ≤ 1 && coRedop d ≤ 2 else coDtype d = 0 && coRedop d = 0 && coScratch d = 0) &&
  zeroIn d 3 3 && zeroIn d 58 127 && (if one then coSeq d = 0 && 64 ≤ coBytes d else coSeq d ≠ 0 && coRemote d = 0 && coPeer d = 0) &&
  coBytes d % 64 = 0 && coBytes d ≤ 2 ^ 40 && coSrc d % 64 = 0 && coDst d % 64 = 0 && coScratch d % 64 = 0 && coWait d % 64 = 0 &&
  coRemote d % 64 = 0 && (op ≠ 4 || coDst d = 0)

/-- Addresses of a descriptor in its flask, with P members and this rank. -/
def coPlaces (s : State) (flask p me : Nat) (x : Group) (d : List Byte) : Bool :=
  let src := if coOp d = 5 then 0 else coBytes d
  let dst := match coOp d with | 2 => p * coBytes d | 3 => chunkLen d p me | 4 => 0 | _ => coBytes d
  mapped s flask (coSrc d) src false && mapped s flask (coDst d) dst true &&
  (!coReduces d || mapped s flask (coScratch d) (2 * (p - 1) * segSize d p) true) &&
  (coWait d = 0 || mapped s flask (coWait d) (4 * p) true) &&
  (!rangesMeet (coSrc d) src (coDst d) dst || (coOp d = 1 && coSrc d = coDst d)) &&
  (if coOneSided d then coPeer d < p && coPeer d ≠ me else x.lastSeq < coSeq d)

/-- The dispatch check of a COLLECTIVE node (16 R385). -/
def collCheck (s : State) (k : Nat) (x : Node) (d : List Byte) : Except Stat Nat :=
  if !coForm d then .error .invalid else
  match s.group? x.endpoint with
  | none => .error .notPresent
  | some g =>
    if g.flask ≠ flaskOfKey k then .error .invalid
    else if s.nimra.nodeId.isNone then .error .notPresent
    else if coPlaces s (flaskOfKey k) g.members.length g.rank g d then .ok x.endpoint else .error .invalid

/-- The engine's queue has a place (16 R386). -/
def collRoom (s : State) : Bool := (s.nimra.colls.filter (fun c => !c.running)).length < 64

/-- A COLLECTIVE node reaches the engine. -/
def State.collDispatch (s : State) (k n group : Nat) (d : List Byte) : State :=
  let c : Coll :=
    { heat := k, node := n, group, desc := d, phase := phaseOf s k n, running := false, since := 0, readyFrom := [], credits := [], sentC := [], sentG := [],
      gotC := [], gotG := [], added := [], acc := [], scratch := [], placed := [], arrive := [], ovf := 0, rnr := false, tx := 0, fate := none }
  (s.onNimra (fun m => { m with colls := m.colls ++ [c] })).nimraGo

/-- A running node has received, reduced and sent everything (16 R386, R390). -/
def collFinished (c : Coll) (p me : Nat) : Bool :=
  let d := c.desc
  let rs := (upto p).filter (· ≠ me)
  match coOp d with
  | 4 => Tab.get 0 c.gotG (coPeer d) == coBytes d
  | 5 => Tab.get 0 c.gotG (coPeer d) == coBytes d
  | op =>
    rs.all (fun r => needsFrom d p me r == (Tab.get 0 c.gotC r, Tab.get 0 c.gotG r) && (!isBarrier d || c.readyFrom.contains r)) &&
    (op == 2 || p == 1 || (upto p).all (fun r => Tab.get 0 c.added r == chunkLen d p me)) &&
    (op == 2 || rs.all (fun r => Tab.get 0 c.sentC r == chunkLen d p r)) &&
    (match op with
      | 1 => rs.all (fun r => Tab.get 0 c.sentG r == chunkLen d p me)
      | 2 => rs.all (fun r => Tab.get 0 c.sentG r == coBytes d)
      | _ => true)

/-- ARRIVE of every rank; of a rank that sent neither data nor a READY the manual states none: a free value
(notes/assumptions/42.md). -/
def State.arrivals (s : State) (c : Coll) (p me : Nat) : List Nat × State :=
  (upto p).foldl (fun (a : List Nat × State) r =>
    if r = me then (a.1 ++ [0], a.2) else
    match Tab.find? c.arrive r with
    | some t => (a.1 ++ [t], a.2)
    | none => let (v, s) := a.2.draw; (a.1 ++ [v % 2 ^ 32], s)) ([], s)

/-- LATE_RANK and LATE_MARGIN (16 R389). -/
def lateness (l : List Nat) (me : Nat) : Nat × Nat :=
  let top := l.foldl max 0
  let r := l.idxOf top
  let others := (l.zipIdx.filter (fun x => x.2 ≠ r && x.2 ≠ me)).map (·.1)
  (r, if l.length = 2 then top else top - others.foldl max 0)

/-- What this device copies itself: SRC to DST with one member, its own data of ALL_GATHER (16 R386). -/
def ownCopy (c : Coll) (p me : Nat) : Option (Nat × Nat × Nat) :=
  let d := c.desc
  if coOneSided d then none
  else if p = 1 then (if coSrc d = coDst d then none else some (coSrc d, coDst d, coBytes d))
  else if coOp d = 2 then some (coSrc d, coDst d + me * coBytes d, coBytes d) else none

/-- COLLECTIVE_COMPLETE (16 R389): the arrival times are written, then the node ends with its record. A page that the last copy or
the arrival times need makes it wait (notes/assumptions/16.md). -/
def execCollectiveComplete (flask heat node : Nat) (s : State) : Out :=
  done (
    let k := heatKey flask heat
    match s.nimra.colls.find? (fun c => c.heat == k && c.node == node && c.running) with
    | none => s
    | some c =>
      match s.group? c.group with
      | none => s
      | some x =>
        let p := x.members.length
        let d := c.desc
        if !collFinished c p x.rank then s else
        let copied : Got × State := match ownCopy c p x.rank with
          | none => (.ok [], s)
          | some (a, b, n) => match readFlask s flask a n with
            | .ok bs => s.tryPatch flask b bs
            | .fail st => (.fail st, s.blame flask a n st)
            | g => (g, s)
        let (times, s1) := copied.2.arrivals c p x.rank
        let waits : Got × State := match copied.1 with
          | .ok _ => if coWait d = 0 then (.ok [], s1) else s1.tryPatch flask (coWait d) (times.flatMap (leBytes 4))
          | g => (g, copied.2)
        match waits with
        | (.wait pg, _) => s.placeWaits flask pg c.group x.rank
        | (.fail st, s) => (s.endColl c st 0 true).nimraGo
        | (.ok _, s) =>
          let (late, margin) := if coOneSided d then (0, 0) else lateness times x.rank
          let s := s.onGroup c.group (fun x => { x with
            nodes := x.nodes + 1
            lateRank := if coOneSided d then x.lateRank else late
            lateMargin := if coOneSided d then x.lateMargin else margin
            waitTotal := if coOneSided d then x.waitTotal else x.waitTotal + margin })
          let s := s.onNimra (fun m => { m with colls := m.colls.filter (fun y => !(y.heat == c.heat && y.node == c.node)) })
          (s.endNode c.heat c.node .ok (fun y => { y with
            detail := if coOneSided d then 0 else late
            result := leBytes 4 margin ++ leBytes 4 c.ovf ++ leBytes 8 c.tx })).nimraGo)

end Sys2Proof.Machine
end

