-- ==== Sys2Proof/Machine/Ports.lean ====
section
/-!
DEFINITION. Ethernet ports and `LINK_CONTROL` (16 R370 to R376, R384).
-/

namespace Sys2Proof.Machine

/-! ## Configuration (16 R371, R393) -/

/-- MODES and CTLE of `EP.CFG`. -/
def EPort.modes (e : EPort) : Nat := bits e.cfg.toNat 23 16
def EPort.ctle (e : EPort) : Nat := bits e.cfg.toNat 31 24
/-- ENABLE. -/
def EPort.enabled (e : EPort) : Bool := bits e.cfg.toNat 7 0 = 1

/-- The reference of port n is there (01 R21, R25), and so is its rail (18 R421). -/
def portRef (s : State) (n : Nat) : Bool := refHere s (if n < 16 then .eth0 else .eth1) && !s.board.badRails.contains .serdes

/-- Attempt a (0 to 5) is allowed by MODES (16 R373). -/
def attemptOk (modes a : Nat) : Bool := if a < 2 then modes.testBit 0 else a < 6 && modes.testBit 1

/-- The first allowed attempt from a on. -/
def nextAttempt (modes a : Nat) : Option Nat := (upto 6).find? (fun k => a ≤ k && attemptOk modes k)

/-- Event 0x0B of 20 R463. -/
def State.portEvent (s : State) (n state : Nat) (st : Stat) : State := s.devEvent 0x0B st 0 (n + 256 * state)

/-- PORT commands whose ports are all ACTIVE, DOWN or DISABLED complete (16 R384). -/
def State.finishLinks (s : State) : State :=
  let ready (c : Cmd) : Bool := c.work == .link && (upto 32).all (fun n => !(c.p 4 4).testBit n ||
    (match (s.eport n).st with | .active | .down | .disabled => true | _ => false))
  (s.qb.cmds.filter ready).foldl (fun (s : State) c => s.finish c.cid .ok
    (leBytes 4 (maskOf 32 (portUp s)) ++ leBytes 4 (maskOf 32 (fun n => portUp s n && (s.eport n).g400)))) s

/-- A port's exit from ACTIVE counts, and takes its rail down (16 R372, R380). -/
def State.leaveActive (s : State) (n : Nat) : State :=
  if (s.eport n).st = .active then (s.onEport n (fun e => { e with linkDowns := e.linkDowns + 1, st := .an })).portDown n else s

/-- A port begins its attempts (16 R373), or is DOWN where MODES allows none. -/
def State.firstAttempt (s : State) (n : Nat) : State :=
  match nextAttempt (s.eport n).modes 0 with
  | some a => s.onEport n (fun e => { e with st := .an, attempt := a, lanes := 0, g400 := false })
  | none => (s.onEport n (fun e => { e with st := .down, lanes := 0, g400 := false })).portEvent n 6 .notPresent

/-- FALLBACK: the next attempt, or DOWN (16 R373). -/
def State.fallback (s : State) (n : Nat) : State :=
  match nextAttempt (s.eport n).modes ((s.eport n).attempt + 1) with
  | some a => s.onEport n (fun e => { e with st := .an, attempt := a, lanes := 0, g400 := false })
  | none => ((s.onEport n (fun e => { e with st := .down, lanes := 0, g400 := false })).portEvent n 6 .notPresent).finishLinks

/-- `EP.CFG` is set. -/
def cfgWord (enable medium modes ctle : Nat) : W32 := BitVec.ofNat 32 (enable + 256 * medium + 65536 * modes + 2 ^ 24 * ctle)

/-- A port is enabled (16 R372): it leaves DISABLED when its reference is there. -/
def State.enablePort (s : State) (n medium modes ctle : Nat) : State :=
  if !portRef s n then s else
  let s := s.onEport n (fun e => { e with cfg := cfgWord 1 medium modes ctle })
  if (s.eport n).st = .disabled then s.firstAttempt n else s

/-- A port is disabled: its transmitter is off. -/
def State.disablePort (s : State) (n : Nat) : State :=
  (s.leaveActive n).onEport n (fun e => { e with st := .disabled, lanes := 0, g400 := false, cfg := e.cfg &&& 0xFFFFFF00 })

/-- 16 R374: at the end of bring-up firmware enables every port whose reference is present. -/
def State.enablePorts (s : State) : State := (upto 32).foldl (fun (s : State) n => s.enablePort n 0 3 0xFF) s

/-! ## LINK_CONTROL PORT (16 R384) -/

/-- Fields of a PORT sub-operation. -/
def portForm (c : Cmd) : Bool :=
  c.flask = 0xFF && c.reserved 1 3 && c.p 8 1 ≤ 2 && c.p 9 1 ≤ 1 && c.p 10 1 < 4 && (c.p 11 1 < 16 || c.p 11 1 = 0xFF) &&
  (c.p 8 1 = 0 || c.p 10 1 ≠ 0) && c.reserved 12 47

/-- Ports that a PORT command names. -/
def namedPorts (c : Cmd) : List Nat := (upto 32).filter (fun n => (c.p 4 4).testBit n)

/-- A PORT command acts on each named port, and completes when all have settled. -/
def State.portCommand (s : State) (c : Cmd) (f : Nat → State → State) : State :=
  if !portForm c then s.failCmd c.cid .invalid else
  (((namedPorts c).foldl (fun s n => f n s) s).onCmd c.cid (fun c => { c with work := .link })).finishLinks.nimraGo

/-- LINK_CONTROL PORT with ACTION 0, and any ACTION the manual does not assign. -/
def execPortDisable (cid : Nat) (s : State) : Out :=
  done (s.accepted cid (fun c => c.opcode == 0x14 && c.p 0 1 == 2 && c.p 8 1 != 1 && c.p 8 1 != 2) (fun c s =>
    s.portCommand c (fun n s => s.disablePort n)))

/-- LINK_CONTROL PORT with ACTION 1. -/
def execPortEnable (cid : Nat) (s : State) : Out :=
  done (s.accepted cid (fun c => c.opcode == 0x14 && c.p 0 1 == 2 && c.p 8 1 == 1) (fun c s =>
    s.portCommand c (fun n s => s.enablePort n (c.p 9 1) (c.p 10 1) (c.p 11 1))))

/-- LINK_CONTROL PORT with ACTION 2: a port that is not DISABLED returns to auto-negotiation. -/
def execRetrain (cid : Nat) (s : State) : Out :=
  done (s.accepted cid (fun c => c.opcode == 0x14 && c.p 0 1 == 2 && c.p 8 1 == 2) (fun c s =>
    s.portCommand c (fun n s =>
      if (s.eport n).st = .disabled || !portRef s n then s else
      ((s.leaveActive n).onEport n (fun e => { e with cfg := cfgWord 1 (c.p 9 1) (c.p 10 1) (c.p 11 1) })).firstAttempt n)))

/-! ## The states of a port (16 R372) -/

/-- A port is in a state. -/
def portIn (s : State) (n : Nat) (st : PortSt) : Bool := n < 32 && (s.eport n).st == st

/-- The agreed mode is one the present attempt advertises (16 R372, R373; notes/assumptions/43.md). -/
def advertises (e : EPort) (m : PhyMode) : Bool :=
  match m with
  | .g400 => e.attempt < 2 && e.modes.testBit 0
  | .g200a => e.attempt < 4 && e.modes.testBit 1
  | .g200b => (e.attempt = 4 || e.attempt = 5) && e.modes.testBit 1

/-- AN_AGREEMENT. -/
def execAnAgreement (port : Nat) (mode : PhyMode) (s : State) : Out :=
  done (if portIn s port .an && advertises (s.eport port) mode then
      s.onEport port (fun e => { e with st := .training, g400 := mode == .g400 })
    else s)

/-- AN_RESTART: negotiation begins again, without limit. -/
def execAnRestart (port : Nat) (s : State) : Out :=
  done (if portIn s port .an then s.onEport port (fun e => { e with lanes := 0 }) else s)

/-- The receiver of a lane: with a fixed step, the search is skipped (16 R371). -/
def laneFixed (e : EPort) (l : LaneEq) : LaneEq := if e.ctle = 0xFF then { l with ctle := l.ctle % 16 } else { l with ctle := e.ctle % 16 }

/-- Lane number of the first lane that a mode uses. -/
def firstLane (e : EPort) : Nat := if e.attempt < 4 then 0 else 2

/-- TRAINING_DONE: every lane of the mode is trained. -/
def execTrainingDone (port : Nat) (lanes : List LaneEq) (s : State) : Out :=
  done (
    let e := s.eport port
    if !portIn s port .training || lanes.length ≠ (if e.g400 then 4 else 2) then s else
    let blank : LaneEq := { ctle := 0, tap1 := 0, tap2 := 0, tap3 := 0, margin := 0 }
    s.onEport port (fun e => { e with
      st := .align, lanes := lanes.length
      laneEq := (List.replicate (firstLane e) blank ++ lanes.map (laneFixed e) ++ List.replicate 4 blank).take 4 }))

/-- TRAINING_TIMEOUT. -/
def execTrainingTimeout (port : Nat) (s : State) : Out := done (if portIn s port .training then (s.fallback port).nimraGo else s)

/-- ALIGN_DONE: the port carries Nimra; at 200 Gb/s it is reported (16 R374). -/
def execAlignDone (port : Nat) (s : State) : Out :=
  done (if portIn s port .align then
      let s := s.onEport port (fun e => { e with st := .active })
      ((if (s.eport port).g400 then s else s.portEvent port 4 .ok).finishLinks).nimraGo
    else s)

/-- ALIGN_TIMEOUT. -/
def execAlignTimeout (port : Nat) (s : State) : Out := done (if portIn s port .align then (s.fallback port).nimraGo else s)

/-- LINK_LOSS: back to AN from the first attempt (16 R372, R373); `words` code words were uncorrectable meanwhile (16 R393). -/
def execLinkLoss (port words : Nat) (s : State) : Out :=
  done (if portIn s port .active then
    (((s.onEport port (fun e => { e with fecUncorr := e.fecUncorr + words })).leaveActive port).firstAttempt port).nimraGo else s)

/-! ## NODE_CONFIG and groups (16 R375, R376, R379, R384) -/

/-- A configuration block is as 16 R376 asks. -/
def blockForm (b : List Byte) : Bool :=
  bits (fld b 0 8) 63 48 = 0 && !(fld b 0 8).testBit 40 && fld b 8 1 < 64 && fld b 9 1 ≤ 2 && zeroIn b 10 11 &&
  (fld b 12 4 = 0 || (10 ≤ fld b 12 4 && fld b 12 4 ≤ 10000)) && zeroIn b 16 255 &&
  (upto 32).all (fun n => bits (fld b (512 + 8 * n) 8) 63 48 = 0) && zeroIn b 768 1023

/-- Fields of NODE_CONFIG. -/
def nodeForm (c : Cmd) : Bool :=
  c.flask = 0xFF && c.reserved 1 3 && (c.p 4 4 < 4096 || c.p 4 4 = 0xFFFF) && c.reserved 8 15 && c.p 16 8 % 64 = 0 && c.reserved 24 47

/-- A node ID and configuration take effect: a new epoch, every peer entry empty (16 R379). -/
def State.configure (s : State) (id : Option Nat) (b : List Byte) : State :=
  s.onNimra (fun m =>
    let k := m.configs + 1
    { m with nodeId := id, cfg := b, configs := k, epoch := s.startCount % 65536 * 65536 + k % 65536, peers := [], wrr := [], backlog := [],
             held := [], serves := [], maps := [] })

/-- LINK_CONTROL NODE_CONFIG, and any SUBOP the manual does not assign. -/
def execNodeConfig (cid : Nat) (s : State) : Out :=
  done (s.accepted cid (fun c => c.opcode == 0x14 && c.p 0 1 != 2 && c.p 0 1 != 3 && c.p 0 1 != 4) (fun c s =>
    if c.p 0 1 ≠ 1 || !nodeForm c then s.failCmd cid .invalid else
    match readFlask s 0xFF (c.p 16 8) 1024 with
    | .wait _ => s
    | .fail st => (s.blame 0xFF (c.p 16 8) 1024 st).failCmd cid st
    | .ok b =>
      if !blockForm b then s.failCmd cid .invalid
      else if !s.nimra.groups.isEmpty then s.failCmd cid .busy
      else (s.configure (if c.p 4 4 = 0xFFFF then none else some (c.p 4 4)) b).finish cid .ok zeros16))

/-- Fields of GROUP_CREATE. -/
def groupForm (c : Cmd) : Bool :=
  c.flask < 16 && c.reserved 1 3 && c.p 4 4 / 256 % 256 = 0 && 1 ≤ c.p 8 4 && c.p 8 4 ≤ 4096 && c.p 6 2 < c.p 8 4 && c.reserved 12 15 &&
  c.p 16 8 % 64 = 0 && c.reserved 24 47

/-- Entries of a member list. -/
def memberList (b : List Byte) (n : Nat) : List (Nat × Nat) := (upto n).map (fun i => (fld b (4 * i) 4 % 4096, fld b (4 * i) 4 / 65536 % 16))

/-- A member list is as 16 R384 asks. -/
def membersOk (s : State) (c : Cmd) (b : List Byte) : Bool :=
  let n := c.p 8 4
  let l := memberList b n
  (upto n).all (fun i => let v := fld b (4 * i) 4; v < 2 ^ 20 && v / 4096 % 16 = 0) && (l.map (·.1)).Nodup &&
  l[c.p 6 2]? == (s.nimra.nodeId.map (fun d => (d, c.flask)))

/-- A new group (16 R394). -/
def Group.fresh (flask rank : Nat) (members : List (Nat × Nat)) : Group :=
  { flask, rank, members, lastSeq := 0, nodes := 0, bytesTx := 0, bytesRx := 0, aborts := 0, lateRank := 0, lateMargin := 0, waitTotal := 0,
    kept := [], keptAborts := [] }

/-- LINK_CONTROL GROUP_CREATE. -/
def execGroupCreate (cid : Nat) (s : State) : Out :=
  done (s.accepted cid (fun c => c.opcode == 0x14 && c.p 0 1 == 3) (fun c s =>
    if !groupForm c then s.failCmd cid .invalid
    else if s.nimra.nodeId.isNone then s.failCmd cid .notPresent
    else match readFlask s c.flask (c.p 16 8) (4 * c.p 8 4) with
      | .wait p => if s.faults.any (fun f => f.who == .image cid) then s else s.pageFault c.flask p (.image cid) (patienceOf s c.flask)
      | .fail st => (s.blame c.flask (c.p 16 8) (4 * c.p 8 4) st).failCmd cid st
      | .ok b =>
        if !membersOk s c b then s.failCmd cid .invalid
        else if Tab.has s.nimra.groups (c.p 4 1) then s.failCmd cid .busy
        else (s.onNimra (fun m => { m with groups := Tab.put m.groups (c.p 4 1) (Group.fresh c.flask (c.p 6 2) (memberList b (c.p 8 4))) })).finish
          cid .ok zeros16))

/-- A group is gone, with the GETs it served. -/
def State.dropGroup (s : State) (g : Nat) : State :=
  (s.onNimra (fun m => { m with
    groups := Tab.del m.groups g, serves := m.serves.filter (fun v => v.group != g), held := m.held.filter (fun h => h.2.group != g) })).dropFaults
    (fun f => match f.who with | .place h _ => h == g | _ => false)

/-- LINK_CONTROL GROUP_DESTROY. -/
def execGroupDestroy (cid : Nat) (s : State) : Out :=
  done (s.accepted cid (fun c => c.opcode == 0x14 && c.p 0 1 == 4) (fun c s =>
    if !(c.flask < 16 && c.reserved 1 3 && c.reserved 5 47) then s.failCmd cid .invalid
    else match s.group? (c.p 4 1) with
      | none => s.failCmd cid .notPresent
      | some x =>
        if x.flask ≠ c.flask then s.failCmd cid .notPresent
        else if s.nimra.colls.any (fun y => y.group == c.p 4 1) then s.failCmd cid .busy
        else (s.dropGroup (c.p 4 1)).finish cid .ok zeros16))

end Sys2Proof.Machine
end

