-- ==== Sys2Proof/Machine/Power.lean ====
section
/-!
DEFINITION. The service level in service (18 R436), and the power controller: the control period, caps, the fast cut, regulators, droop
and heat up to the limit (19). The controller's arithmetic is exact (notes/assumptions/50.md).
-/

namespace Sys2Proof.Machine

/-! ## I3C interrupts and the service level -/

/-- Both I3C targets raise an IBI where IBIs are enabled (17 R414). -/
def State.ibi (s : State) (payload : Nat) : State :=
  let f (t : I3cTgt) : I3cTgt := if t.ibiOn && t.addr.isSome then { t with ibis := payload :: t.ibis } else t
  (s.onI3c f).onI3c2 f

/-- Partition p exposes a cluster that has not failed. -/
def healthyPart (s : State) (p : Nat) : Bool := (upto 24).any (fun i => clusterThere s (24 * p + i))

/-- A partition with a healthy cluster and at least one of its stacks (00 R4, level 1). -/
def computePart (s : State) (p : Nat) : Bool := healthyPart s p && (ctlUp s (2 * p) || ctlUp s (2 * p + 1))

/-- The conditions of level 2 that can stop holding in service (18 R435): the engines' self-tests are a start's. -/
def fullService (s : State) : Bool := (upto 4).all (healthyPart s) && (upto 8).all (fun k => (s.ctl k).train == 1)

/-- The conditions of level 1 that can stop holding in service; a CXL port reset is no failure of the port (notes/assumptions/51.md). -/
def reducedService (s : State) : Bool :=
  !s.board.lostRefs.contains .cxl && !s.board.badRails.contains .serdes && (upto 4).any (computePart s)

/-- Every status, for an event whose status the manual does not give. -/
def allStats : List Stat :=
  [.ok, .invalid, .unsupported, .busy, .noResource, .timeout, .discarded, .uncorrectable, .stale, .authFail, .wrongDevice, .truncated,
   .notPresent, .capFloor, .degraded, .pageTimeout]

/-- The level takes a lower value: event 0x04 (10 R242), whose STATUS at level 0 is free (notes/assumptions/51.md), and IBI 0x02. -/
def State.setLevel (s : State) (l : Nat) : State :=
  let (st, s) : Option Stat × State :=
    if l = 1 then (some .degraded, s) else if l = 2 then (some .ok, s) else s.choose allStats
  ((s.onBoot (fun b => { b with level := l, ready := b.ready && l != 0 })).devEvent 4 (st.getD .ok) 0 l).ibi 2

/-- 18 R436: in service the level only falls. -/
def State.fall (s : State) : State :=
  if s.boot.phase ≠ .ready || s.boot.level = 0 then s
  else if !reducedService s then s.setLevel 0
  else if s.boot.level = 2 && !fullService s then s.setLevel 1
  else s

/-! ## Exact figures -/

/-- The value of an FP32 word; a NaN or an infinity counts as 0. -/
def ratOf (w : W32) : Rat :=
  match f32 w with
  | .fin neg m e =>
    let v : Rat := if 0 ≤ e then (m : Rat) * 2 ^ e.toNat else (m : Rat) / 2 ^ (-e).toNat
    if neg then -v else v
  | _ => 0

/-- The FP32 word nearest a value, ties to even. -/
def ofRat (q : Rat) : W32 :=
  if q = 0 then 0 else
  let (m, e) := dyDiv q.num.natAbs 0 q.den 0
  f32OfDyadic false (if q < 0 then -(m : Int) else m, e)

/-- A learned figure moves by 1/8 toward what was measured (19 R450). -/
def learn (old new : W32) : W32 := ofRat (ratOf old + (ratOf new - ratOf old) / 8)

/-- A figure of the control period in whole watts. -/
def wholeWatts (q : Rat) : Nat := q.floor.toNat

/-! ## The control period (19 R450) -/

/-- Partition record. -/
def State.partPw (s : State) (p : Nat) : PartPw := Tab.get .init s.power.parts p

/-- Change a partition's record. -/
def State.onPart (s : State) (p : Nat) (f : PartPw → PartPw) : State := s.onPower (fun w => { w with parts := Tab.upd .init w.parts p f })

/-- Issue cycles of a partition over the period. -/
def issueTotal (m : PartMeasure) : Nat := (m.issue.map (·.2)).sum

/-- φ of a partition: the entry with the most issue cycles, the lowest of several; none if it issued nothing. -/
def leaderOf (m : PartMeasure) : Option (Nat × Nat) :=
  (m.issue.filter (fun x => x.1 < 256 && 0 < x.2)).foldl (fun b x =>
    match b with
    | none => some x
    | some y => if y.2 < x.2 || (y.2 = x.2 && x.1 < y.1) then some x else some y) none

/-- Phase entry n belongs to a flask that owns a cluster or a hearth engine of partition p: only its nodes issue there (09 R220). -/
def phaseIn (s : State) (p n : Nat) : Bool :=
  s.flasks.any (fun f => decide (f.2.phaseBase ≤ n) && decide (n < f.2.phaseBase + f.2.phaseCount) &&
    (f.2.clusters.any (fun i => i / 24 == p) || f.2.hearth.any (fun e => e / 128 == p)))

/-- FSENS moves by 1/8 toward the observed ratio, in 0.16 fixed point. -/
def learnSens (old new : Nat) : Nat := (((old : Int) + ((new : Int) - old) / 8).toNat) % 65536

/-- A partition's phase learns from the period. -/
def State.learnPart (s : State) (p : Nat) (m : PartMeasure) : State :=
  match leaderOf m with
  | none => s
  | some (n, cycles) =>
    let x := s.partPw p
    s.onPower (fun w => { w with phases := Tab.upd .init w.phases n (fun e =>
      let e := { e with opLast := x.point, dutyLast := x.d }
      if 2 * cycles < issueTotal m then e else
      { e with pPart := learn e.pPart m.pPart, pHearth := learn e.pHearth m.pHearth, rate := learn e.rate m.rate
               fsens := if x.point = x.prev then e.fsens else learnSens e.fsens m.fsens }) })

/-- A mould lies in partition p: the voltage column of 19 R446. -/
def mouldIn (s : State) (p : Nat) : Bool := s.sprue.moulds.any (fun m => m.2.cluster / 24 == p)

/-- What the allocation works with for one partition. -/
structure Lever where
  /-- it issued nothing: it runs at point 0 and duty 16 -/
  idle : Bool
  mould : Bool
  static : Rat
  pPart : Rat
  pHearth : Rat
  rate : Rat
  fsens : Rat
  hShare : Rat
  point : Nat
  d : Nat
  h : Nat

/-- power(p). -/
def Lever.power (x : Lever) : Rat :=
  let f : Rat := aclkMHz x.point
  let v : Rat := pointMv x.point x.mould
  if x.idle then x.static
  else x.static + x.pPart * (f * v * v) / (700 * 850 * 850) * x.d / 16 + x.pHearth * x.h / 16

/-- rate(p). -/
def Lever.speed (x : Lever) : Rat :=
  let f : Rat := aclkMHz x.point
  if x.idle then 0
  else x.rate * (1 - x.fsens + x.fsens * f / 700) * x.d / 16 + x.hShare * x.rate * x.h / 16

/-- The steps that a partition may take: a point down, at point 0 the duty, and the hearth duty. -/
def Lever.steps (x : Lever) : List Lever :=
  if x.idle then [] else
  (if 0 < x.point then [{ x with point := x.point - 1 }] else if 1 < x.d then [{ x with d := x.d - 1 }] else []) ++
  (if 1 < x.h then [{ x with h := x.h - 1 }] else [])

/-- Step a from x loses less rate per watt saved than step b from y. -/
def cheaper (a b : Rat × Rat) : Bool :=
  if a.2 ≤ 0 then false else if b.2 ≤ 0 then true else a.1 * b.2 < b.1 * a.2

/-- Rate lost and power saved by a step. -/
def Lever.cost (x y : Lever) : Rat × Rat := (x.speed - y.speed, x.power - y.power)

/-- The cheapest step over all partitions; ties go to the lower partition, then to the point or duty. -/
def bestStep (l : List Lever) : Option (Nat × Lever) :=
  ((l.zipIdx.flatMap (fun x => x.1.steps.map (fun y => (x.2, y, x.1.cost y)))).foldl (fun (b : Option (Nat × Lever × (Rat × Rat))) y =>
    match b with
    | none => some y
    | some z => if cheaper y.2.2 z.2.2 then some y else some z) none).map (fun z => (z.1, z.2.1))

/-- Σ power(p). -/
def totalPower (l : List Lever) : Rat := (l.map Lever.power).sum

/-- The search; the fuel bounds the 4 × 45 steps. -/
def searchAlloc (b : Rat) : Nat → List Lever → List Lever
  | 0, l => l
  | fuel + 1, l =>
    if totalPower l ≤ b then l else
    match bestStep l with
    | none => l
    | some (p, y) => searchAlloc b fuel (l.set p y)

/-- Throttle lowers a partition's allotted power by 10 % for each of the periods it has acted (19 R457). -/
def throttleAlloc (goal : Rat) : Nat → Lever → Lever
  | 0, x => x
  | fuel + 1, x =>
    if x.power ≤ goal then x else
    match bestStep [x] with
    | none => x
    | some (_, y) => throttleAlloc goal fuel y

/-- A partition's lever from its measure and its phase's learned figures; point 15 and full duties. -/
def leverOf (s : State) (p : Nat) (m : PartMeasure) : Lever :=
  let n := leaderOf m
  let e : PhaseEnt := match n with | some x => Tab.get .init s.power.phases x.1 | none => .init
  let idle := n.isNone || s.grid.partReset.contains p
  { idle, mould := mouldIn s p, static := m.static, pPart := ratOf e.pPart, pHearth := ratOf e.pHearth, rate := ratOf e.rate,
    fsens := (e.fsens : Rat) / 65536, hShare := (m.hShare : Rat) / 65536, point := if idle then 0 else 15, d := 16, h := 16 }

/-- The highest point whose voltage a lost regulator still gives (19 R459). -/
def heldPoint (mould : Bool) (mv : Nat) : Nat := (((upto 16).filter (fun k => pointMv k mould ≤ mv)).getLast?).getD 0

/-- The point a partition may take this period: 4 points from its present one, below a droop limit, and what a lost regulator
allows (19 R447, R455, R459). -/
def clampPoint (x : PartPw) (mould : Bool) (k : Nat) : Nat :=
  let k := if x.limit then 0 else k
  let k := max (min k (x.point + 4)) (x.point - 4)
  let k := if 100 < x.trips then min k (x.point - 1) else k
  if x.lost then min k (heldPoint mould x.confirmed) else k

/-- A clock of partition p is stretched. -/
def stretching (s : State) (p : Nat) : Bool := s.power.stretched.any (fun i => i / 24 == p)

/-- The frequency goes to that of a point; while a clock of the partition is stretched, the change waits (19 R461). -/
def PartPw.moveTo (x : PartPw) (held : Bool) (k : Nat) : PartPw :=
  if held && x.point ≠ k then { x with waits := some k } else { x with point := k, waits := none }

/-- The point to which a partition is on its way. -/
def PartPw.goal (x : PartPw) : Nat := x.rising.getD (x.waits.getD x.point)

/-- The result applies: a raise waits for its regulator (a lost one changes nothing more), a lowering is at once (19 R447). A partition
above point 0 runs at d = 16 (19 R448), one under limit at d = 1; the duties of a fast cut of this cycle are a ceiling (19 R461). -/
def PartPw.apply (x : PartPw) (y : Lever) (power : Nat) (held cut : Bool) : PartPw :=
  let k := clampPoint x y.mould y.point
  let d := if x.limit then 1 else if k = 0 then y.d else 16
  let z := x.moveTo held (if x.lost then k else min k x.point)
  { z with
    rising := if x.point < k && !x.lost then some k else none, target := pointMv k y.mould, d := if cut then min d x.d else d, h := y.h, power
    trips := 0, cuts := if x.throttle then x.cuts + 1 else 0, prev := x.point }

/-- The accepted cap takes effect (19 R454): it is kept in the black box, with its record. -/
def State.takeCap (s : State) : State :=
  match s.power.next with
  | none => s
  | some v =>
    let cap := v / 2
    let s := (s.onPower (fun w => { w with cap, next := none })).onBox (fun b => b.updCtl (fun c => { c with cap }))
    s.logRec 0x14 0xFF (leBytes 4 cap ++ leBytes 1 (v % 2) ++ leBytes 3 0 ++ leBytes 8 s.time)

/-- The floor state changes (19 R452). -/
def State.setFloor (s : State) (b : Bool) : State :=
  if s.power.floor = b then s else (s.onPower (fun w => { w with floor := b })).ibi 2

/-- Result of a cap command. -/
def capResult (s : State) : List Byte := leBytes 4 s.power.cap ++ leBytes 4 s.power.power ++ leBytes 4 s.power.floorEst

/-- `POWER_CAP_SET` commands complete at the end of the period. -/
def State.finishCaps (s : State) : State :=
  ((s.qb.cmds.filter (fun c => c.work == .cap)).map (·.cid)).foldl (fun (s : State) c =>
    s.finish c (if s.power.floor then .capFloor else .ok) (capResult s)) s

/-- At point 0 with both duties at 1. -/
def atFloor (x : PartPw) (y : Lever) : Bool := y.idle || (x.goal == 0 && x.d == 1 && x.h == 1)

/-- Levers at the settings applied. -/
def Lever.at (y : Lever) (x : PartPw) : Lever := { y with point := x.goal, d := x.d, h := x.h }

/-- What the controller measures of partition p. -/
def measureOf (l : List PartMeasure) (p : Nat) : PartMeasure :=
  l.getD p { issue := [], pPart := 0, pHearth := 0, rate := 0, fsens := 0, hShare := 0, static := 0, power := 0 }

/-- The power controller works: from step 7 of a start (18 R422, R423). -/
def powerRuns (s : State) : Bool := s.boot.phase = .pause1 || s.boot.phase = .pause2 || s.boot.phase = .ready

/-- One 100 µs sample exceeds 1.05 × CAP (19 R451). -/
def overCap (s : State) (watts : Nat) : Bool := decide (105 * s.power.cap < 100 * watts)

/-- A sample, with the fast cut where it is over: 4 off every partition's duty, down to 1 (19 R451). -/
def State.takeSample (s : State) (watts : Nat) : State :=
  let cut := overCap s watts
  let s := s.onPower (fun w => { w with power := watts })
  if cut then
    (upto 4).foldl (fun s p => s.onPart p (fun x => { x with d := max 1 (x.d - 4) })) (s.onPower (fun w => { w with fastCut := true }))
  else s

/-- One control period; `cut` says that a fast cut came in the same cycle. -/
def State.controlPeriod (s : State) (ms : List PartMeasure) (fixed : Nat) (cut : Bool) : State :=
  let s := s.takeCap
  let s := (upto 4).foldl (fun (s : State) p => if s.grid.partReset.contains p then s else s.learnPart p (measureOf ms p)) s
  let b : Rat := (s.power.cap : Rat) - fixed
  let start := (upto 4).map (fun p => leverOf s p (measureOf ms p))
  let found := searchAlloc b 256 start
  let found := found.zipIdx.map (fun y =>
    let x := s.partPw y.2
    if x.throttle then throttleAlloc (y.1.power * (9 / 10) ^ (x.cuts + 1)) 64 y.1 else y.1)
  let acting := s.power.parts.any (fun x => x.2.throttle || x.2.limit) || !s.power.stackHot.isEmpty || !s.power.stackLimit.isEmpty
  let s := (found.zipIdx).foldl (fun (s : State) y => s.onPart y.2 (fun x => x.apply y.1 (measureOf ms y.2).power (stretching s y.2) cut)) s
  let placed := found.zipIdx.map (fun y => y.1.at (s.partPw y.2))
  let above : Bool := decide (b < totalPower placed)
  let low := (found.zipIdx).all (fun y => atFloor (s.partPw y.2) y.1)
  let est := wholeWatts (fixed + totalPower (start.map (fun y => { y with point := 0, d := 1, h := 1 })))
  let s := s.setFloor (above && (low || s.power.floor))
  let s := s.onPower (fun w => { w with
    fastCut := cut, fixed, floorEst := est, stackHot := w.stackHot.map (fun x => (x.1, x.2 + 1))
    throttleMs := w.throttleMs + (if acting then 1 else 0), floorMs := w.floorMs + (if w.floor then 1 else 0) })
  s.finishCaps

/-- CONTROL_PERIOD (19 R450): a sample of the same cycle comes first, and its cut bounds the result (19 R461). -/
def execControlPeriod (parts : List PartMeasure) (fixed : Nat) (sample : Option Nat) (s : State) : Out :=
  let parts := parts.mapIdx (fun p m => { m with issue := m.issue.filter (fun x => phaseIn s p x.1) })
  done (if powerRuns s then
    match sample with
    | some w => (s.takeSample w).controlPeriod parts fixed (overCap s w)
    | none => s.controlPeriod parts fixed false
  else s)

/-- POWER_SAMPLE (19 R450, R451). -/
def execPowerSample (watts : Nat) (s : State) : Out := done (if powerRuns s then s.takeSample watts else s)

/-- POWER_CAP_SET (19 R454): accepted now, applied from the next control period. -/
def execPowerCapSet (cid : Nat) (s : State) : Out :=
  done (s.accepted cid (fun c => c.opcode == 0x0E) (fun c s =>
    let v := c.p 0 4
    if c.flask ≠ 0xFF || !(v = 0 || (700 ≤ v && v ≤ 2800)) || !c.reserved 4 47 then s.failCmd cid .invalid
    else (s.onPower (fun w => { w with next := some (2 * (if v = 0 then 2400 else v)) })).onCmd cid (fun c => { c with work := .cap })))

/-- REGULATOR_SETTLED (19 R447): the raised frequency follows. -/
def execRegulatorSettled (part : Nat) (s : State) : Out :=
  done (if 4 ≤ part || !powerRuns s then s else
    s.onPart part (fun x => match x.rising with | some k => { x.moveTo (stretching s part) k with rising := none } | none => x))

/-- AVS_READBACK (19 R459): after three failures in a row the regulator is lost. -/
def execAvsReadback (part : Nat) (ok : Bool) (mv : Nat) (s : State) : Out :=
  done (
    if 4 ≤ part || !powerRuns s then s
    else if ok then s.onPart part (fun x => { x with fails := 0, confirmed := mv })
    else
      let x := s.partPw part
      let s := s.onPart part (fun x => { x with fails := min 3 (x.fails + 1) })
      if x.lost || x.fails < 2 then s
      else
        let k := heldPoint (mouldIn s part) x.confirmed
        (s.onPart part (fun x => { x.moveTo (stretching s part) (min x.point k) with lost := true, rising := none })).devEvent 0x10 .uncorrectable part x.confirmed)

/-! ## Droop (19 R455) -/

/-- DROOP_TRIP. -/
def execDroopTrip (cluster : Nat) (s : State) : Out :=
  done (if !exposed s cluster || !powerRuns s then s else
    (s.onPart (cluster / 24) (fun x => { x with droop := x.droop + 1, trips := x.trips + 1 })).onPower (fun w =>
      { w with stretched := numInsert w.stretched cluster }))

/-- DROOP_RECOVER: at least 64 stretched cycles have passed. A frequency change that waited for the end of the stretch follows. -/
def execDroopRecover (cluster cycles : Nat) (s : State) : Out :=
  done (if !s.power.stretched.contains cluster then s else
    let s := s.onPower (fun w => { w with stretched := w.stretched.filter (· != cluster) })
    s.onPart (cluster / 24) (fun x =>
      let x := { x with stretch := x.stretch + max 64 cycles }
      if stretching s (cluster / 24) then x else x.moveTo false (x.waits.getD x.point)))

end Sys2Proof.Machine
end

