-- ==== Sys2Proof/Machine/Resets.lean ====
section
/-!
DEFINITION. Resets of tiles, clusters, hearth engines, partitions and the device, `SELF_TEST`, and the failure of a cluster in
service (18 R438 to R444, 01 R17).
-/

namespace Sys2Proof.Machine

/-! ## Units in scope (18 R439, R440) -/

/-- The units of a reset: matrix tiles, vector tiles, ladles and cluster controllers by cluster, hearth engines. -/
structure Scope where
  mt : List Nat
  vt : List Nat
  lad : List Nat
  ctl : List Nat
  eng : List Nat

/-- Everything of some clusters. -/
def Scope.clusters (l : List Nat) : Scope :=
  { mt := l.flatMap (fun i => (upto 4).map (4 * i + ·)), vt := l.flatMap (fun i => (upto 2).map (2 * i + ·)), lad := l, ctl := l, eng := [] }

/-- One tile: 0 to 3 M, 4 and 5 V, 6 L, 7 K. -/
def Scope.tile (i t : Nat) : Scope :=
  { mt := if t < 4 then [4 * i + t] else [], vt := if t = 4 || t = 5 then [2 * i + t - 4] else [], lad := if t = 6 then [i] else [],
    ctl := if t = 7 then [i] else [], eng := [] }

/-- Exposed clusters of a partition. -/
def clustersOf (s : State) (p : Nat) : List Nat := ((upto 24).map (24 * p + ·)).filter (exposed s)

/-- A partition: its clusters and the engines of its stacks. -/
def Scope.partition (s : State) (p : Nat) : Scope :=
  { Scope.clusters (clustersOf s p) with eng := (upto 128).map (128 * p + ·) }

/-- Nodes on units. -/
def nodesIn (s : State) (u : Scope) : List (Nat × Nat) :=
  (s.mt.filterMap (fun x => match x.2.run with | some r => if u.mt.contains x.1 then some (r.heat, r.node) else none | none => none) ++
   s.vt.flatMap (fun x => if u.vt.contains x.1 then (x.2.run.toList ++ x.2.susp).map (fun r => (r.heat, r.node)) else []) ++
   s.ld.flatMap (fun x => if u.lad.contains (x.1 / 32) then (x.2.cur.toList ++ x.2.shadow.toList).map (fun r => (r.heat, r.node)) else []) ++
   s.graph.kq.flatMap (fun x => if u.ctl.contains x.1 then x.2.map (fun e => (e.heat, e.node)) else []) ++
   s.hb.flatMap (fun x => (x.2.queue ++ x.2.runs.map (·.2)).filterMap (fun h =>
     if u.eng.any (fun e => e / 64 == x.1 && h.uses (e % 64)) then some (h.heat, h.node) else none))).dedup

/-- The nodes lost with units: a cluster controller's reset loses every node sent to its cluster (notes/assumptions/52.md). -/
def Scope.loses (u : Scope) : Scope :=
  let c := Scope.clusters u.ctl
  { mt := u.mt ++ c.mt, vt := u.vt ++ c.vt, lad := u.lad ++ c.lad, ctl := u.ctl, eng := u.eng }

/-- A unit that has not failed enters reset. -/
def UnitSt.down (x : UnitSt) : UnitSt := if x = .failed then .failed else .reset

/-- A unit in reset returns to service. -/
def UnitSt.back (x : UnitSt) : UnitSt := if x = .reset then .ok else x

/-- Units enter reset: their nodes end with `ST_DISCARDED`, their counters clear, a vector tile keeps its LDM and its lane map
(18 R440, 03 R89). -/
def State.takeDown (s : State) (u : Scope) : State :=
  let s := ((nodesIn s u.loses).foldl (fun (s : State) x => s.failNode x.1 x.2 .discarded) s).settle
  let s := s.onMt (fun t => u.mt.foldl (fun t x => Tab.put t x { MatrixTile.init with st := (Tab.get .init t x).st.down }) t)
  let s := s.onVt (fun t => u.vt.foldl (fun t x =>
    let v := Tab.get .init t x
    Tab.put t x { VectorTile.init with st := v.st.down, ldm := v.ldm, ident := v.ident, lanes := v.lanes, badLanes := v.badLanes }) t)
  let s := s.onLd (fun t => t.filter (fun x => !u.lad.contains (x.1 / 32)))
  let s := s.onLk (fun t =>
    let t := u.lad.foldl (fun t i => Tab.upd .ok t (2 * i) UnitSt.down) t
    u.ctl.foldl (fun t i => Tab.upd .ok t (2 * i + 1) UnitSt.down) t)
  s.onHe (fun t => u.eng.foldl (fun t x => Tab.put t x { Engine.init with st := (Tab.get .init t x).st.down }) t)

/-- Units return to service. -/
def State.bringUp (s : State) (u : Scope) : State :=
  let s := s.onMt (fun t => u.mt.foldl (fun t x => Tab.mod t x (fun m => { m with st := m.st.back })) t)
  let s := s.onVt (fun t => u.vt.foldl (fun t x => Tab.mod t x (fun m => { m with st := m.st.back })) t)
  let s := s.onLk (fun t =>
    let t := u.lad.foldl (fun t i => Tab.mod t (2 * i) UnitSt.back) t
    u.ctl.foldl (fun t i => Tab.mod t (2 * i + 1) UnitSt.back) t)
  s.onHe (fun t => u.eng.foldl (fun t x => Tab.mod t x (fun e => { e with st := e.st.back })) t)

/-! ## Rings (18 R441) -/

/-- A mould's ring restarts: its endpoints go, its border signals and its initial state hold, so that every register of its quarters is
back at its initial value, and its start-up order runs again. -/
def State.restartMould (s : State) (id : Nat) (cid : Option Nat) : State :=
  match Tab.find? s.sprue.moulds id with
  | none => s
  | some m =>
    if m.st = .isolated || m.cid.isSome then s else
    let s := m.quarters.foldl (fun (s : State) q => s.holdInit m.cluster q) ((s.withdraw id true .discarded).holdPin m)
    s.onMould id (fun m => { m with st := .starting, pos := 0, initHold := true, writesOn := false, registered := false, resetCid := cid })

/-- A load whose mould lies in a cluster that is reset ends early (14 R330). -/
def State.loadMeetsReset (s : State) (clusters : List Nat) : State :=
  match s.sprue.cur with
  | some l => if l.kind = 0 && l.step = .records && clusters.contains (imCluster l.header) then s.earlyEnd .discarded else s
  | none => s

/-- Every mould of some clusters restarts. -/
def State.restartRings (s : State) (clusters : List Nat) (cid : Option Nat) : State :=
  ((s.sprue.moulds.filter (fun m => clusters.contains m.2.cluster)).map (·.1)).foldl (fun (s : State) id => s.restartMould id cid) s

/-! ## RESET (18 R439) -/

/-- RESET record (20 R472). -/
def State.resetRecord (s : State) (c : Cmd) : State :=
  s.logRec 0x13 c.flask (slice c.params 0 6 ++ leBytes 1 c.flask ++ leBytes 9 0 ++ leBytes 8 s.time)

/-- UNIT as a cluster, where it is packed as 07 R168 packs one. -/
def resetCluster (c : Cmd) : Option Nat := unpackCluster (c.p 4 2)

/-- UNIT as a hearth engine, 64 s + e. -/
def resetEngine (c : Cmd) : Option Nat := if c.p 4 2 < 512 then some (64 * bits (c.p 4 2) 2 0 + bits (c.p 4 2) 8 3) else none

/-- Fields that no scope but its own may set. -/
def resetForm (c : Cmd) : Bool :=
  c.reserved 6 47 && (c.p 0 1 == 4 || c.p 1 1 == 0) && c.p 1 1 < 3 && c.p 2 1 < 2 && (c.p 0 1 == 1 || c.p 2 1 == 0) && c.p 3 1 < 8 &&
  (c.p 0 1 == 0 || c.p 3 1 == 0)

/-- The units of an accepted RESET or CLUSTER_TEST, and its clusters and partition that are out of service as a whole. -/
def scopeOf (s : State) (c : Cmd) : Scope × List Nat × List Nat :=
  if c.opcode = 0x15 then
    match unpackCluster (c.p 4 2) with | some i => (Scope.clusters [i], [i], []) | none => (Scope.clusters [], [], [])
  else match c.p 0 1 with
    | 0 => match resetCluster c with | some i => (Scope.tile i (c.p 3 1), [], []) | none => (Scope.clusters [], [], [])
    | 1 => match resetCluster c with | some i => (Scope.clusters [i], [i], []) | none => (Scope.clusters [], [], [])
    | 2 => match resetEngine c with | some e => ({ Scope.clusters [] with eng := [e] }, [], []) | none => (Scope.clusters [], [], [])
    | 3 => (Scope.partition s (c.p 4 2), [], [c.p 4 2])
    | _ => (Scope.clusters [], [], [])

/-- A reset begins on its units. -/
def State.beginReset (s : State) (c : Cmd) : State :=
  let (u, cl, ps) := scopeOf s c
  let s := s.takeDown u
  let s := s.loadMeetsReset (cl ++ ps.flatMap (clustersOf s))
  s.onGrid (fun g => { g with inReset := cl.foldl numInsert g.inReset, partReset := ps.foldl numInsert g.partReset })

/-- The command of a reset begins its work. -/
def State.startReset (s : State) (c : Cmd) : State :=
  ((s.resetRecord c).onCmd c.cid (fun c => { c with work := .reset })).beginReset c

/-- A cluster of the caller (18 R439). -/
def callerOwns (s : State) (c : Cmd) (i : Nat) : Bool :=
  c.flask == 0xFF || (match s.flask? c.flask with | some f => f.clusters.contains i | none => false)

/-- A cluster's unit is exposed and has not failed. -/
def tileThere (s : State) (i t : Nat) : Bool :=
  clusterThere s i &&
  (if t < 4 then (Tab.get .init s.mt (4 * i + t)).st ≠ .failed
   else if t < 6 then (Tab.get .init s.vt (2 * i + t - 4)).st ≠ .failed
   else Tab.get .ok s.lk (2 * i + t - 6) ≠ .failed)

/-- RESET with SCOPE 0, and any SCOPE the manual does not assign. -/
def execResetTile (cid : Nat) (s : State) : Out :=
  done (s.accepted cid (fun c => c.opcode == 0x0D && !(1 ≤ c.p 0 1 && c.p 0 1 ≤ 4)) (fun c s =>
    match resetCluster c with
    | none => s.failCmd cid .invalid
    | some i =>
      if c.p 0 1 ≠ 0 || !resetForm c || !callerOwns s c i then s.failCmd cid .invalid
      else if !tileThere s i (c.p 3 1) then s.failCmd cid .notPresent
      else s.startReset c))

/-- RESET with SCOPE 1; with RING the moulds of the ring restart too. -/
def execResetCluster (cid : Nat) (s : State) : Out :=
  done (s.accepted cid (fun c => c.opcode == 0x0D && c.p 0 1 == 1) (fun c s =>
    match resetCluster c with
    | none => s.failCmd cid .invalid
    | some i =>
      if !resetForm c || !callerOwns s c i then s.failCmd cid .invalid
      else if !clusterThere s i then s.failCmd cid .notPresent
      else
        let s := s.startReset c
        if c.p 2 1 = 1 then s.restartRings [i] (some cid) else s))

/-- RESET with SCOPE 2. -/
def execResetHearthEngine (cid : Nat) (s : State) : Out :=
  done (s.accepted cid (fun c => c.opcode == 0x0D && c.p 0 1 == 2) (fun c s =>
    match resetEngine c with
    | none => s.failCmd cid .invalid
    | some e =>
      let own := c.flask = 0xFF || (match s.flask? c.flask with | some f => f.hearth.contains e | none => false)
      if !resetForm c || !own then s.failCmd cid .invalid
      else if !ctlUp s (e / 64) || (Tab.get .init s.he e).st = .failed then s.failCmd cid .notPresent
      else s.startReset c))

/-- RESET with SCOPE 3: every mould of the partition restarts, and its PLLs relock (18 R440, R441). -/
def execResetPartition (cid : Nat) (s : State) : Out :=
  done (s.accepted cid (fun c => c.opcode == 0x0D && c.p 0 1 == 3) (fun c s =>
    let p := c.p 4 2
    if !resetForm c || 3 < p || c.flask ≠ 0xFF then s.failCmd cid .invalid
    else if !healthyPart s p then s.failCmd cid .notPresent
    else
      let s := (s.startReset c).restartRings (clustersOf s p) (some cid)
      s.onSprue (fun x => { x with plls := x.plls.map (fun y => (y.1, if y.1 / 32 = p then { y.2 with locked := false } else y.2)) })))

/-- Resets and tests in progress but one. -/
def otherResets (s : State) (cid : Nat) : List Cmd := s.qb.cmds.filter (fun c => c.cid != cid && (c.work == .reset || c.work == .test))

/-- The units of a reset that no other reset in progress covers (18 R444; notes/assumptions/52.md). -/
def Scope.minus (u : Scope) (l : List Scope) : Scope :=
  { mt := u.mt.filter (fun x => !l.any (fun v => v.mt.contains x)), vt := u.vt.filter (fun x => !l.any (fun v => v.vt.contains x)),
    lad := u.lad.filter (fun x => !l.any (fun v => v.lad.contains x)), ctl := u.ctl.filter (fun x => !l.any (fun v => v.ctl.contains x)),
    eng := u.eng.filter (fun x => !l.any (fun v => v.eng.contains x)) }

/-- A reset ends: its units are back in service, but for those that another reset covers and for a partition that failed in
service. -/
def State.endReset (s : State) (c : Cmd) : State :=
  let (u, cl, ps) := scopeOf s c
  let others := (otherResets s c.cid).map (scopeOf s)
  let cl := cl.filter (fun i => !others.any (fun o => o.2.1.contains i))
  let ps := ps.filter (fun p => !others.any (fun o => o.2.2.contains p) && healthyPart s p)
  (s.bringUp (u.minus (others.map (·.1)))).onGrid (fun g => { g with
    inReset := g.inReset.filter (fun i => !cl.contains i), partReset := g.partReset.filter (fun p => !ps.contains p) })

/-- The units of one scope lie in another. -/
def Scope.within (u v : Scope) : Bool :=
  u.mt.all v.mt.contains && u.vt.all v.vt.contains && u.lad.all v.lad.contains && u.ctl.all v.ctl.contains && u.eng.all v.eng.contains

/-- A reset in progress covers another: it is wider, or of the same units and later (18 R444). -/
def covers (s : State) (a b : Cmd) : Bool :=
  let u := (scopeOf s a).1
  let v := (scopeOf s b).1
  v.within u && (!u.within v || b.cid < a.cid)

/-- The resets that a reset covers complete with it (18 R444). -/
def State.endCovered (s : State) (c : Cmd) : State :=
  ((otherResets s c.cid).filter (fun b => b.work == .reset && covers s c b)).foldl
    (fun (s : State) b => (s.endReset b).finish b.cid .ok zeros16) s

/-- RESET_COMPLETE (18 R439, R440, R444): once the moulds that restart with it run, and no wider reset covers its units. -/
def execResetComplete (cid : Nat) (s : State) : Out :=
  done (match findCmd s cid with
    | none => s
    | some c =>
      if c.work ≠ .reset || s.sprue.moulds.any (fun m => m.2.resetCid == some cid) || (otherResets s cid).any (fun a => covers s a c) then s
      else ((s.endCovered c).endReset c).finish cid .ok zeros16)

/-! ## SELF_TEST (18 R438) -/

/-- SELF_TEST START_MODE, and any SUBOP the manual does not assign. -/
def execStartMode (cid : Nat) (s : State) : Out :=
  done (s.accepted cid (fun c => c.opcode == 0x15 && c.p 0 1 != 2 && c.p 0 1 != 3) (fun c s =>
    if c.p 0 1 ≠ 1 || c.flask ≠ 0xFF || 1 < c.p 4 1 || !c.reserved 1 3 || !c.reserved 5 47 then s.failCmd cid .invalid
    else (s.onBox (fun b => b.updCtl (fun x => { x with quick := c.p 4 1 = 1 }))).finish cid .ok zeros16))

/-- SELF_TEST PROBE_FILTER: `NT.PROBE_CTL` takes the value under its access types. -/
def execProbeFilter (cid : Nat) (s : State) : Out :=
  done (s.accepted cid (fun c => c.opcode == 0x15 && c.p 0 1 == 2) (fun c s =>
    let i := c.p 4 4
    let own := c.flask = 0xFF || (match Tab.find? s.claims (claimKey 1 i) with | some k => k.owner = c.flask && k.use = 1 | none => false)
    if 96 ≤ i || !own || !c.reserved 1 3 || !c.reserved 16 47 then s.failCmd cid .invalid
    else if !exposed s i then s.failCmd cid .notPresent
    else (s.onUnit i (fun u => { u with probeCtl := BitVec.ofNat 64 (c.p 8 8) &&& 0x00003FFFFFFFFF3F })).finish cid .ok zeros16))

/-- Work of a cluster: nodes dispatched to it or queued (18 R438). -/
def clusterBusy (s : State) (i : Nat) : Bool := !(nodesIn s (Scope.clusters [i])).isEmpty

/-- SELF_TEST CLUSTER_TEST: the cluster is reset, then tested. -/
def execClusterTest (cid : Nat) (s : State) : Out :=
  done (s.accepted cid (fun c => c.opcode == 0x15 && c.p 0 1 == 3) (fun c s =>
    match unpackCluster (c.p 4 2) with
    | none => s.failCmd cid .invalid
    | some i =>
      if !c.reserved 1 3 || !c.reserved 6 47 || !callerOwns s c i then s.failCmd cid .invalid
      else if !clusterThere s i then s.failCmd cid .notPresent
      else if clusterBusy s i then s.failCmd cid .busy
      else (s.onCmd cid (fun c => { c with work := .test })).beginReset c))

/-- The physical site of a cluster as 18 R433 lays it out. -/
def siteOf (s : State) (i : Nat) : Nat := i / 24 + i % 4 * 4 + Tab.get 0 s.grid.site i * 16

/-- A cluster is failed: its work is discarded and its moulds are frozen (01 R17, 14 R334). -/
def State.loseCluster (s : State) (i : Nat) : State :=
  let u := Scope.clusters [i]
  let s := ((nodesIn s u.loses).foldl (fun (s : State) x => s.failNode x.1 x.2 .discarded) s).settle
  let s := s.onGrid (fun g => { g with failed := numInsert g.failed i })
  let s := s.loadMeetsReset [i]
  ((s.sprue.moulds.filter (fun m => m.2.cluster == i)).map (·.1)).foldl (fun (s : State) id => s.freeze id .discarded) s

/-- Cluster SRAM of cluster i reads zero (18 R494). -/
def State.zeroSram (s : State) (i : Nat) : State :=
  let inWin (a : Nat) : Bool := sramBase + i * sramWindow ≤ a && a < sramBase + (i + 1) * sramWindow
  (s.onMem (fun t => t.filter (fun x => !inWin x.1))).onPoison (fun l => l.filter (fun a => !inWin a))

/-- CLUSTER_TEST_DONE (18 R438, R494): the cluster is back, its SRAM zero; or it is failed, with a defect entry of SOURCE 4. -/
def execClusterTestDone (cid : Nat) (cause : Option Nat) (s : State) : Out :=
  done (match findCmd s cid with
    | none => s
    | some c =>
      match c.work, unpackCluster (c.p 4 2) with
      | .test, some i =>
        match cause with
        | none => (((s.endCovered c).endReset c).zeroSram i).finish cid .ok zeros16
        | some k =>
          let place := siteOf s i + k % 7 * 256
          let s := (((s.endReset c).loseCluster i).addDefect 1 4 place 0).devEvent 0x0A .notPresent 1 place
          s.fall.finish cid .ok (leBytes 1 1 ++ leBytes 1 (k % 7))
      | _, _ => s)

/-- CLUSTER_FAIL (01 R17, 18 R434, R440): the cluster keeps its identifier and is reported as failed. -/
def execClusterFail (cluster cause : Nat) (s : State) : Out :=
  done (
    if !clusterThere s cluster || s.boot.phase ≠ .ready then s else
    ((s.loseCluster cluster).unitFailed 1 (siteOf s cluster + cause % 7 * 256)).fall)

/-! ## A device reset and power-on reset (18 R440, R443) -/

/-- What no start keeps: the black box, the fuses, the flash, the battery key, the board's side and what the device has sent stay. -/
def State.wipe (s : State) : State :=
  { s with
    mem := [], poison := [], cores := [], grid := .init, flasks := [], faults := [], claims := [], graph := .init, mt := [], vt := [],
    lk := [], he := [], hb := [], ld := [], mc := [], net := .init, fp := [], serving := .init, power := .init, cxl := .init
    i3c := .init, i3c2 := .init
    qb := { Quibor.init with msixSent := s.qb.msixSent }
    sprue := { Sprue.init with keyValid := s.sprue.keyValid, batKey := s.sprue.batKey, vbattLost := s.sprue.vbattLost }
    nimra := { Nimra.init with wire := s.nimra.wire }
    flash := { s.flash with writing := none }
    board := { s.board with thermtrip := false }
    boot := { Boot.init with shutdown := s.boot.shutdown } }

/-- A device reset: the queue of records commits, then everything but what 18 R440 keeps is gone, and a start follows: its findings
come with POWER_ON_RESET_RELEASE (notes/assumptions/53.md). -/
def State.deviceReset (s : State) (cause : Nat) (quick : Bool) : State :=
  (s.commitQueue.wipe).onBoot (fun b => { b with cause := if s.boot.phase = .halted then 3 else cause, quick })

/-- The mode that 18 R424 gives a start that names none. -/
def storedMode (s : State) : Bool := match s.box.ctl with | some c => c.quick | none => false

/-- Entries of a CQ are posted, at most n. -/
def postMany (cq : Nat) : Nat → State → State
  | 0, s => s
  | n + 1, s => postMany cq n (postCompletion cq false s)

/-- The CQ of a queue has room for what waits and for one entry more. -/
def cqTakes (s : State) (q : Nat) : Bool :=
  match s.queue? q with
  | none => true
  | some x => match cqOwner s x with
    | none => true
    | some o => ringDiff o.cqTail o.cqHead o.cqSize + o.waiting.length + 1 < o.cqSize

/-- RESET with SCOPE 4: its completion is posted before the reset begins; until the CQ has room for it, the command waits and is
looked at again by its own row (notes/assumptions/16.md). -/
def execResetDevice (cid : Nat) (s : State) : Out :=
  done (s.accepted cid (fun c => c.opcode == 0x0D && c.p 0 1 == 4) (fun c s =>
    if !resetForm c || c.p 4 2 ≠ 0 || c.flask ≠ 0xFF then s.failCmd cid .invalid
    else if !cqTakes s c.qnum then s
    else
      let s := (s.resetRecord c).finish cid .ok zeros16
      let cq := match s.queue? c.qnum with | some q => q.cqOf | none => c.qnum
      let n := match s.queue? cq with | some o => o.waiting.length | none => 0
      let quick := if c.p 1 1 = 0 then true else if c.p 1 1 = 1 then false else storedMode s
      (postMany cq n s).deviceReset 1 quick))

/-- POWER_ON_RESET_ASSERT (18 R421, 21 R484): a loss of power. Records not yet committed are absent (20 R468, R474). -/
def State.powerLost (s : State) : State := (s.breakCommit.wipe).onBox (fun b => { b with queue := [] })

/-- POWER_ON_RESET_ASSERT. -/
def execPowerOnResetAssert (s : State) : Out := done s.powerLost

end Sys2Proof.Machine
end

