-- ==== Sys2Proof/Machine/Bringup.lean ====
section
/-!
DEFINITION. The start: power-on reset's release, the memory test, self-test and readiness; rails and reference clocks; the management
cores' watchdog (18 R421 to R437, 21 R484 to R490, 17 R418, R419).
-/

namespace Sys2Proof.Machine

/-! ## The defect list at a start (18 R432, R433) -/

/-- The list as this start has it: what is committed, and what waits for its commit (18 R434). -/
def defectsNow (s : State) : List Defect :=
  s.box.defects ++ (s.box.queue.filter (fun r => r.type == 1)).map (fun r => defectOf r.body)

/-- An entry applies: one with a DIMM serial only while that module is fitted in its channel. -/
def defectApplies (s : State) (d : Defect) : Bool := d.dimm == 0 || d.dimm == (s.ctl (d.place % 256)).serial

/-- SOURCE of what a start finds. -/
def startSource (s : State) : Nat := if s.boot.quick then 2 else 1

/-- A rail is out of range. -/
def railBad (s : State) (r : Rail) : Bool := s.board.badRails.contains r

/-- Partition p has its rail, REFCLK_SYS, and no PARTITION entry. -/
def partHere (s : State) (p : Nat) : Bool :=
  !railBad s ([Rail.p0, .p1, .p2, .p3].getD p .p0) && refHere s .sys && !(defectsNow s).any (fun d => d.kind == 8 && d.place % 4 == p)

/-! ## Times (18 R423, R425) -/

/-- 2 MiB pages of controller k under test: all of them, or of a quick start those with a MEM_LINE or RETIRED_PAGE entry, and those
whose number mod 64 is the start count's. -/
def pageTested (s : State) (k page : Nat) : Bool :=
  !s.boot.quick || page % 64 == s.startCount % 64 ||
  s.box.defects.any (fun d => (d.kind == 4 || d.kind == 5) && d.place % 256 == k && defectApplies s d && d.place / 256 / 0x200000 == page)

/-- Nanoseconds of a pass of controller k over n bytes: 4.096 TB/s, or the channel's rate. -/
def passNs (s : State) (k n : Nat) : Nat :=
  if k < 8 then n * 1000 / 4096000 else if (s.ctl k).rate = 0 then 0 else n * 1000 / (800 * (s.ctl k).rate)

/-- A figure over the trained controllers: the slowest one's. -/
def slowest (f : Nat → Nat) (s : State) : Nat :=
  ((upto 20).map (fun k => if (s.ctl k).train = 1 then f k else 0)).foldl max 0

/-- Bytes of controller k under test. -/
def bytesTested (s : State) (k : Nat) : Nat :=
  if s.boot.quick then 0x200000 * ((upto (ctlBytes s k / 0x200000)).filter (pageTested s k)).length else ctlBytes s k

/-- One pass of the test. -/
def testPass (s : State) : Nat := slowest (fun k => passNs s k (bytesTested s k)) s

/-- The closing write of a quick start: every backed line once. -/
def closingPass (s : State) : Nat := if s.boot.quick then slowest (fun k => passNs s k (ctlBytes s k)) s else 0

/-- A retention pause. -/
def pauseNs (s : State) : Nat := if s.boot.quick then 17500000000 else 120000000000

/-! ## Findings of the memory test (18 R425, R426) -/

/-- A read pass can find line `o` of controller k in error: a line under test of a trained controller. -/
def lineTested (s : State) (x : Nat × Nat) : Bool :=
  x.1 < 20 && (s.ctl x.1).train == 1 && x.2 % 64 == 0 && x.2 < ctlBytes s x.1 && pageTested s x.1 (x.2 / 0x200000)

/-- What a read pass finds joins what this start found before. -/
def State.takeFindings (s : State) (m : MemFindings) : State :=
  s.onBoot (fun b => { b with found := (m.lines.filter (lineTested s)).foldl (fun l x => if l.contains x then l else l ++ [x]) b.found })

/-- Lines of controller k that failed, in the order found. -/
def linesFailed (s : State) (k : Nat) : List Nat := (s.boot.found.filter (fun x => x.1 == k)).map (·.2)

/-- A controller's findings: its first 64 lines become MEM_LINE entries, and more fail it for this start. -/
def State.testedCtl (s : State) (k : Nat) : State :=
  let l := linesFailed s k
  let serial := if k < 8 then 0 else (s.ctl k).serial
  let s := (l.take 64).foldl (fun (s : State) o => s.addDefect 4 (startSource s) (k + 256 * o) serial) s
  if l.length ≤ 64 then s
  else if k < 8 then (s.addDefect 6 (startSource s) k 0).onCtl k (fun m => { m with train := 2 })
  else (s.onCtl k (fun m => { m with train := 2 })).devEvent 0x09 .notPresent 0 (k - 8)

/-- Remap entries of controller k from the list, the most recently added first (12 R291). -/
def State.loadRemaps (s : State) (k : Nat) : State :=
  let l := ((defectsNow s).filter (fun d => d.kind == 4 && d.place % 256 == k && defectApplies s d)).map (fun d => d.place / 256)
  s.onCtl k (fun m => { m with remap := (l.reverse.take 8).mapIdx (fun j o => (j, { valid := true, line := o })) })

/-! ## Mapping (01 R13 to R16, 05 R130) -/

/-- Physical lanes of vector tile v of a site with an entry, in ascending order. -/
def badLanesOf (s : State) (site v : Nat) : List Nat :=
  (upto 68).filter (fun l => (defectsNow s).any (fun d =>
    d.kind == 2 && d.place % 128 == site && d.place / 128 % 2 == v && d.place / 256 == l))

/-- How many they are. -/
def lanesLost (s : State) (site v : Nat) : Nat := (badLanesOf s site v).length

/-- A site is healthy: no CLUSTER_SITE entry, and 32 lanes in each vector tile. -/
def siteOk (s : State) (site : Nat) : Bool :=
  !(defectsNow s).any (fun d => d.kind == 1 && d.place % 128 == site) && lanesLost s site 0 ≤ 36 && lanesLost s site 1 ≤ 36

/-- Physical rows of the healthy sites of a column, upward. -/
def columnOf (s : State) (p c : Nat) : List Nat := (upto 7).filter (fun r => siteOk s (p + 4 * c + 16 * r))

/-- Rows that partition p exposes (01 R16). -/
def rowsOf (s : State) (p : Nat) : Nat :=
  if partHere s p then min 6 (least 7 ((upto 4).map (fun c => (columnOf s p c).length))) else 0

/-- The mapping of 01 R14 and R16 is fixed. -/
def State.fixMapping (s : State) : State :=
  let rows := (upto 4).map (rowsOf s)
  let site : Tab Nat := (upto 96).filterMap (fun i =>
    let r := i % 24 / 4
    if r < rows.getD (i / 24) 0 then some (i, (columnOf s (i / 24) (i % 4)).getD r 0) else none)
  s.onGrid (fun _ => { Grid.init with rows, site })

/-- The lane map of each vector tile of an exposed cluster, and LANE_IDENT, which identifies it (05 R130, R135). -/
def State.fixLanes (s : State) : State :=
  s.onVt (fun _ => (upto 192).filterMap (fun t =>
    let site := siteOf s (t / 2)
    let bad := badLanesOf s site (t % 2)
    if exposed s (t / 2) then
      some (t, { VectorTile.init with lanes := 68 - bad.length, badLanes := bad, ident := Config.laneIdent (2 * site + t % 2) bad })
    else none))

/-- Engines with an entry are failed (18 R433). -/
def State.failEngines (s : State) : State :=
  ((defectsNow s).filter (fun d => d.kind == 3)).foldl (fun (s : State) d =>
    s.onHe (fun t => Tab.upd .init t (64 * (d.place % 8) + d.place / 8 % 64) (fun e => { e with st := .failed }))) s

/-! ## Service level (18 R435) -/

/-- The level that a start takes. -/
def startLevel (s : State) (u : UnitFindings) : Nat :=
  let two := fullService s && s.cxl.link.isSome && u.intake && u.graph && u.copyEng && u.coll && u.power
  let one := refHere s .cxl && !railBad s .serdes && (upto 4).any (computePart s) && u.intake && u.graph
  if one && two then 2 else if one then 1 else 0

/-! ## Steps 1 to 7 (18 R423) -/

/-- Step 2: the cores that take part. -/
def coresOf (s : State) (f : StartFindings) : List Nat :=
  (upto 4).filter (fun k => f.cores.getD k false && !s.box.defects.any (fun d => d.kind == 7 && d.place % 4 == k))

/-- The cores as the boot core finds them. -/
def State.bootCores (s : State) (l : List Nat) : State :=
  (s.onCores (fun _ => (upto 4).map (fun k => (k, { healthy := l.contains k, beat := 2000000 })))).onBoot
    (fun b => { b with bootCore := l.headD 0 })

/-- Step 4: fuses, the control copy, the start's mode, and its START_BEGIN record, committed before the control copy counts the start
(18 R424, 20 R471, R472). -/
def State.beginRecord (s : State) : State :=
  let fresh := s.box.ctl.isNone
  let quick := if fresh || s.box.unfinished then false else if s.boot.cause = 0 then storedMode s else s.boot.quick
  let s := if fresh then s.onBox (fun b => (b.putCtl .fresh).updCtl id) else s
  let s := (s.onFuses (fun _ => s.fuseArray)).onBoot (fun b => { b with quick })
  let s := s.logRec 0x10 0xFF (leBytes 4 (s.startCount + 1) ++ leBytes 1 (if quick then 1 else 0) ++ leBytes 1 s.boot.cause ++ leBytes 2 0 ++
    leBytes 4 s.boot.fwVersion.toNat ++ leBytes 1 (if s.boot.golden then 1 else 0))
  let s := s.commitQueue
  let newest := (s.box.evtSlot + eventSlots - 1) % eventSlots
  s.onBox (fun b => b.updCtl (fun c => { c with startCount := c.startCount + 1, evtHint := newest }))

/-- Step 7: a stack trains, or is absent (18 R421, R433, 12 R294). -/
def State.trainStack (s : State) (f : StartFindings) (k : Nat) : State :=
  let here := partHere s (k / 2) && !railBad s .hbm && !railBad s .qHbm && !(defectsNow s).any (fun d => d.kind == 6 && d.place % 8 == k)
  if !here then s
  else if f.stackOk.getD k false then
    s.onCtl k (fun m => { m with train := 1, rate := 80, bytes := hbmBytes, interval := 864000000000 / (hbmBytes / 64) })
  else s.onCtl k (fun m => { m with train := 2 })

/-- Capacities of a module: 16 GiB to 256 GiB, a power of two or 1.5 times one (12 R293). -/
def dimmSizes : List Nat := [16, 24, 32, 48, 64, 96, 128, 192, 256].map (· * 2 ^ 30)

/-- A module that a channel accepts (12 R293). -/
def dimmFits (m : Dimm) : Bool :=
  m.rdimm && m.ecc && dimmSizes.contains m.bytes && (m.ranks == 1 || m.ranks == 2) && [1, 2, 4].contains m.logical &&
  (m.width == 4 || m.width == 8)

/-- A DDR5 channel trains, or is absent (12 R293, R294). Hash masks beyond the module's capacity are not accepted (12 R279). -/
def State.trainChan (s : State) (f : StartFindings) (d : Nat) : State :=
  match f.dimms.getD d none with
  | none => s
  | some m =>
    if !dimmFits m || !refHere s .ddr || railBad s .qDdr then s
    else
      let rate := f.dimmRate.getD d 0
      let serial := f.dimmSerial.getD d 0 % 2 ^ 32
      if rate = 6400 || rate = 5600 || rate = 4800 then
        s.onCtl (8 + d) (fun c => { c with train := 1, rate := rate / 100, bytes := m.bytes, serial, nRanks := m.ranks * m.logical
                                           hash := c.hash.filter (fun h => bits h.2.toNat 47 0 < m.bytes)
                                           interval := 864000000000 / (m.bytes / 64) })
      else s.onCtl (8 + d) (fun c => { c with train := 2, serial })

/-- Steps 6 to 8 up to the first retention pause. The power controller takes its rails, and the cap of the control copy (19 R454). -/
def State.trainAll (s : State) (f : StartFindings) (m : MemFindings) : State :=
  let s := (upto 8).foldl (fun (s : State) k => s.trainStack f k) s
  let s := (upto 12).foldl (fun (s : State) d => s.trainChan f d) s
  let cap := match s.box.ctl with | some c => c.cap | none => 2400
  let s := s.onPower (fun _ => { Power.init with cap, next := s.power.next, parts := (upto 4).map (fun p => (p, { PartPw.init with d := 16, h := 16, target := pointMv 0 false })) })
  ((s.until 445100000).after (7 * testPass s)).takeFindings m |>.onBoot (fun b => { b with phase := .pause1, held := none })

/-- Steps 3 to 5, and on to 7 where REFCLK_SYS is there (01 R25). -/
def State.runStart (s : State) (f : StartFindings) (m : MemFindings) : State :=
  match s.chooseFirmware with
  | (none, s) => (s.until 44100000).onBoot (fun b => { b with phase := .recovery })
  | (some golden, s) =>
    let r := if golden then s.flash.goldenFw else s.flash.primaryFw
    let s := s.onBoot (fun b => { b with golden, fwVersion := r.version, fwDigest := r.digest, fwSvn := r.svn })
    let s := (s.until 45100000).beginRecord
    if refHere s .sys then s.trainAll f m else s.onBoot (fun b => { b with phase := .noRef, held := some (f, m) })

/-- The level-0 set is there: a core, the boot ROM, the black box, the I3C target and the sprue (R4, 01 R20). -/
def levelZero (s : State) (f : StartFindings) : Bool := !(coresOf s f).isEmpty && f.rom && f.box && f.i3c && f.sprue

/-- POWER_ON_RESET_RELEASE (18 R421, R423, 19 R458): with both rails of PX in range, and after a shutdown with every sensor at 95 °C or
less. A device without the level-0 set answers nothing. -/
def execPowerOnResetRelease (found : StartFindings) (mem : MemFindings) (s : State) : Out :=
  done (
    if s.boot.phase ≠ .off || found.badRails.contains .px || found.badRails.contains .io18 || (s.boot.shutdown && !found.cool) then s else
    let s := (s.onTime (fun _ => 0)).onBoard (fun b => { b with badRails := found.badRails, lostRefs := [] })
    let s := s.onBoot (fun b => { b with shutdown := b.shutdown && b.cause != 0 })
    let l := coresOf s found
    let s := (s.after 2000000).bootCores l
    if !levelZero s found then s.onBoot (fun b => { b with phase := .dead }) else s.runStart found mem)

/-! ## The retention pauses, and steps 8 to 13 -/

/-- Step 9: the test's findings and self-test's join the list, under this start's SOURCE. -/
def State.mergeDefects (s : State) (u : UnitFindings) : State :=
  let s := (upto 20).foldl (fun (s : State) k => s.testedCtl k) s
  (u.sites.filter (fun d => d.kind == 1 || d.kind == 2 || d.kind == 3 || d.kind == 8)).foldl
    (fun (s : State) d => s.addDefect d.kind (startSource s) d.place 0) s

/-- Step 11: a sequencer that twice fails its microcode's digest marks its tile failed, with an entry in the list (18 R437). -/
def State.microFail (s : State) (x : Nat × Nat) : State :=
  if !exposed s x.1 || 8 ≤ x.2 then s else
  let s := if x.2 < 4 then s.onMt (fun t => Tab.upd .init t (4 * x.1 + x.2) (fun m => { m with st := .failed }))
    else if x.2 < 6 then s.onVt (fun t => Tab.upd .init t (2 * x.1 + x.2 - 4) (fun m => { m with st := .failed }))
    else s.onLk (fun t => Tab.put t (2 * x.1 + x.2 - 6) .failed)
  s.addDefect 1 (startSource s) (siteOf s x.1 + (if x.2 < 4 then 0 else x.2 / 2 - 1 + x.2 / 7) * 256) 0

/-- The same of a hearth engine. -/
def State.microEngine (s : State) (x : Nat) : State :=
  if 512 ≤ x then s else
  (s.onHe (fun t => Tab.upd .init t x (fun e => { e with st := .failed }))).addDefect 3 (startSource s) (x / 64 + 8 * (x % 64)) 0

/-- Steps 10 to 12: mapping, lanes, engines, remap entries, the shell, and VBATT (21 R485). -/
def State.fixUnits (s : State) (u : UnitFindings) : State :=
  let s := s.fixMapping.fixLanes.failEngines
  let s := u.microTiles.foldl State.microFail s
  let s := u.microEngines.foldl State.microEngine s
  let s := (upto 8).foldl (fun (s : State) k => if partHere s (k / 2) then s else s.onCtl k (fun m => { m with train := 0 })) s
  let s := (upto 20).foldl (fun (s : State) k => if (s.ctl k).train = 1 then s.loadRemaps k else s) s
  let s := if s.board.vbattOk then s else s.onSprue (fun p => { p with keyValid := false, batKey := 0, vbattLost := true })
  s.bootShell

/-- Step 13: the level is taken, the ports are enabled, and the start's end is recorded (16 R374, 18 R435, 20 R463, R472). -/
def State.becomeReady (s : State) (u : UnitFindings) : State :=
  let l := startLevel s u
  let s := s.onBoot (fun b => { b with phase := .ready, found := [], held := none })
  let s := if l = 0 then s else (s.onBoot (fun b => { b with level := l, ready := true })).ibi 2
  let n := exposedCount s
  let s := if l = 2 && n < 96 then s.devEvent 0x0C .ok 0 n else s
  let s := s.enablePorts
  s.logRec 0x11 0xFF (leBytes 4 s.startCount ++ leBytes 1 l ++ leBytes 3 0 ++ leBytes 4 n ++ leBytes 8 (s.time / 1000000))

/-- RETENTION_PAUSE_END: the read pass of all-zero, then of all-ones; after the second the start runs to its end. -/
def execRetentionPauseEnd (mem : MemFindings) (units : UnitFindings) (s : State) : Out :=
  done (match s.boot.phase with
    | .pause1 => ((s.after (pauseNs s + 2 * testPass s)).takeFindings mem).onBoot (fun b => { b with phase := .pause2 })
    | .pause2 =>
      let s := (s.after (pauseNs s + testPass s + closingPass s)).takeFindings mem
      let s := ((s.after 10000000).mergeDefects units).after 2529000000
      ((s.fixUnits units).commitQueue).becomeReady units
    | _ => s)

/-! ## Rails and references in service (18 R421, 21 R484, R488) -/

/-- Partition p fails with the effects of a partition reset from which it does not return (notes/assumptions/56.md). -/
def State.losePartition (s : State) (p : Nat) : State :=
  if !healthyPart s p && s.grid.partReset.contains p then s else
  let s := s.takeDown (Scope.partition s p)
  let s := (clustersOf s p).foldl (fun (s : State) i => s.loseCluster i) s
  let s := (upto 2).foldl (fun (s : State) j => s.stackLost (2 * p + j)) s
  (s.onGrid (fun g => { g with partReset := numInsert g.partReset p })).devEvent 0x0A .notPresent 8 p

/-- Memory controllers fail until the next start. -/
def State.loseCtls (s : State) (l : List Nat) : State :=
  l.foldl (fun (s : State) k =>
    if (s.ctl k).train ≠ 1 then s else
    let s := if k < 8 then s.takeDown { Scope.clusters [] with eng := (upto 64).map (64 * k + ·) } else s
    let s := s.onCtl k (fun m => { m with train := 2 })
    if k < 8 then (s.stackLost k).devEvent 0x0A .notPresent 6 k else s) s

/-- Ports leave ACTIVE and stay DISABLED. -/
def State.losePorts (s : State) (l : List Nat) : State := (l.foldl (fun (s : State) n => s.disablePort n) s).finishLinks

/-- The CXL port fails: the link is down. -/
def State.loseCxl (s : State) : State := s.onCxl (fun c => { c with link := none })

/-- Units that a rail feeds fail. -/
def State.loseRail (s : State) (r : Rail) : State :=
  match r with
  | .p0 => s.losePartition 0
  | .p1 => s.losePartition 1
  | .p2 => s.losePartition 2
  | .p3 => s.losePartition 3
  | .hbm | .qHbm => s.loseCtls (upto 8)
  | .qDdr => s.loseCtls ((upto 12).map (8 + ·))
  | .serdes => (s.losePorts (upto 32)).loseCxl
  | .px | .io18 => s.powerLost

/-- RAIL_OUT_OF_RANGE. -/
def execRailOutOfRange (rail : Rail) (s : State) : Out :=
  done (
    if rail = .px || rail = .io18 then s.powerLost
    else if railBad s rail then s
    else
      let s := s.onBoard (fun b => { b with badRails := rail :: b.badRails })
      if s.boot.phase = .off || s.boot.phase = .dead then s else (s.loseRail rail).fall)

/-- Units that a reference feeds fail (21 R488). -/
def State.loseRef (s : State) (r : RefClk) : State :=
  match r with
  | .sys => (upto 4).foldl (fun (s : State) p => s.losePartition p) s
  | .cxl => s.loseCxl
  | .ddr => s.loseCtls ((upto 12).map (8 + ·))
  | .eth0 => s.losePorts (upto 16)
  | .eth1 => s.losePorts ((upto 16).map (16 + ·))

/-- REFCLK_MISSING. -/
def execRefclkMissing (ref : RefClk) (s : State) : Out :=
  done (
    if !s.board.refs.contains ref then s else
    let s := s.onBoard (fun b => { b with refs := b.refs.filter (· ≠ ref) })
    if s.boot.phase = .off || s.boot.phase = .dead then s
    else ((s.onBoard (fun b => { b with lostRefs := if b.lostRefs.contains ref then b.lostRefs else ref :: b.lostRefs })).loseRef ref).fall)

/-- REFCLK_DETECTED: a start that waits for REFCLK_SYS goes on with steps 6 to 8 (18 R423). -/
def execRefclkDetected (ref : RefClk) (s : State) : Out :=
  done (
    let s := s.onBoard (fun b => { b with refs := if b.refs.contains ref then b.refs else ref :: b.refs })
    match s.boot.phase, s.boot.held with
    | .noRef, some (f, m) => if ref = .sys then (s.onBoard (fun b => { b with lostRefs := b.lostRefs.filter (· ≠ .sys) })).trainAll f m else s
    | _, _ => s)

/-- PERST_N_RELEASE (21 R490): CXL training begins; the link comes up with CXL_LINK_UP. -/
def execPerstNRelease (s : State) : Out := done (s.onBoard (fun b => { b with perst := false }))

/-! ## Management cores (17 R418, R419) -/

/-- Core of a role: its own core while healthy, else the lowest-numbered healthy one. -/
def coreOf (s : State) (role : Nat) : Option Nat :=
  if (Tab.get .init s.cores role).healthy then some role else (upto 4).find? (fun k => (Tab.get .init s.cores k).healthy)

/-- Role of an admin command (17 R418). -/
def roleOf (opcode : Nat) : Nat := if opcode = 6 || opcode = 7 then 1 else if opcode = 0x0E then 2 else 0

/-- CORE_HEARTBEAT. -/
def execCoreHeartbeat (core : Nat) (s : State) : Out :=
  done (
    if 4 ≤ core || !coresRun s || !(Tab.get .init s.cores core).healthy then s else
    let s := s.after 100000
    s.onCores (fun t => Tab.upd .init t core (fun c => { c with beat := s.time })))

/-- HEARTBEAT_MISS: the core is failed until the next start. Admin commands it carried out end with `ST_DISCARDED`, a DOE request in
progress is abandoned, a commit is broken off (20 R468), page faults pass to the new core; without a core the device answers nothing. -/
def execHeartbeatMiss (core : Nat) (s : State) : Out :=
  done (
    if 4 ≤ core || !coresRun s || !(Tab.get .init s.cores core).healthy then s else
    let s := s.until ((Tab.get .init s.cores core).beat + 1000000)
    let held := (upto 4).filter (fun r => coreOf s r = some core)
    let carried := s.qb.cmds.filter (fun c => c.opcode < 0x80 && held.contains (roleOf c.opcode))
    let s := s.onCores (fun t => Tab.upd .init t core (fun c => { c with healthy := false }))
    let s := if held.contains 3 then s.breakCommit else s
    let s := carried.foldl (fun (s : State) c => s.abortCmd c .discarded) s
    let s := if held.contains 3 && s.cxl.doeReq then s.onCxl (fun c => { c with doeReq := false, doeSnap := [], doeErr := true }) else s
    let s := s.unitFailed 7 core
    if (upto 4).any (fun k => (Tab.get .init s.cores k).healthy) then s
    else (s.loseCxl).onBoot (fun b => { b with phase := .dead, level := 0, ready := false }))

end Sys2Proof.Machine
end

