-- ==== Sys2Proof/Machine/Cxl.lean ====
section
/-!
DEFINITION. The CXL port: host accesses to device memory, back-invalidates, decoders, port resets, the DOE mailbox with CDAT and SPDM
(17 R397 to R411). Formats that the manual takes from CXL, PCI Express and SPDM are notes/assumptions/57.md.
-/

namespace Sys2Proof.Machine

/-! ## Decoders and host accesses (17 R402 to R406) -/

/-- Decoder k. -/
def State.hdm? (s : State) (k : Nat) : Hdm := Tab.get .init s.cxl.hdm k

/-- The DPA that a committed decoder gives a host address, of a line. -/
def dpaOf (s : State) (hpa : Nat) : Option Nat :=
  ((upto 4).find? (fun k => let d := s.hdm? k; d.committed && d.base ≤ hpa && hpa < d.base + d.size)).map (fun k =>
    let d := s.hdm? k; (d.dpa + (hpa - d.base)) / 64 * 64)

/-- A host line that is a valid target: backed, present, and outside the reserved chunk. -/
def hostTarget (s : State) (l : Nat) : Bool :=
  (ctlOf l).isSome && physOutcome s l 64 false == .ok && !reservedTouched l 64

/-- Snoop-filter entries. -/
def snoopEntries : Nat := 4194304

/-- A line enters the snoop filter; a full one evicts its oldest entry with a BISnp (17 R404). -/
def Cxl.enter (c : Cxl) (l : Nat) (exclusive : Bool) : Cxl :=
  let rest := c.snoop.filter (fun x => x.1 != l)
  let c := if rest.length < snoopEntries then { c with snoop := rest }
    else { c with snoop := rest.drop 1, biHeld := c.biHeld ++ (rest.take 1).map (fun x => (x.1, none)) }
  { c with snoop := c.snoop ++ [(l, exclusive)] }

/-- The response of a host read. -/
def State.hostAnswer (s : State) (data : List Byte) (poison : Bool) : State := s.onCxl (fun c => { c with lastRead := some (data, poison) })

/-- A host access crosses the network from the CXL port (01 R28); the status says whether its response returned. -/
def State.hostTrip (s : State) (l : Nat) (write : Bool) (data : List Byte) : State × Stat :=
  s.lineTrip (pxUnit 64) 31 { addr := l, host := false, write, data }

/-- A host read of a valid line: its controller checks it, and a poisoned line is counted (12 R289). -/
def State.hostLine (s : State) (l : Nat) (err : LineErr) : State :=
  match ctlOf l with
  | none => s
  | some (k, o) =>
    let s := (s.ddrAccess k o false).readLine k o err
    match s.hostTrip l false [] with
    | (s, .ok) => s.hostAnswer (s.devRead l 64) (s.poison.contains l)
    | (s, _) => s

/-- CXL_MEM_READ. -/
def execCxlMemRead (hpa : Nat) (cacheable exclusive : Bool) (err : LineErr) (s : State) : Out :=
  done (match if cxlUp s then dpaOf s hpa else none with
    | none => s
    | some l =>
      if !hostTarget s l then s.hostAnswer (leBytes 64 0) true
      else
        let s := s.hostLine l err
        if cacheable then s.onCxl (fun c => c.enter l exclusive) else s)

/-- CXL_MEM_WRITE. -/
def execCxlMemWrite (hpa : Nat) (data : List Byte) (poison : Bool) (s : State) : Out :=
  done (match if cxlUp s then dpaOf s hpa else none with
    | none => s
    | some l =>
      if !hostTarget s l then s.devEvent 0x0F .invalid 1 l
      else
        let s := match ctlOf l with | some (k, o) => s.ddrAccess k o false | none => s
        match s.hostTrip l true (padTo 64 data) with
        | (s, .notPresent) => s
        | (s, _) =>
          let s := s.devWrite l (padTo 64 data)
          if poison then (s.poisonLine l).onCxl (fun c => { c with hostPoison := c.hostPoison + 1 }) else s)

/-- MEMWRPTL. -/
def execMemWrPtl (hpa : Nat) (s : State) : Out :=
  done (match if cxlUp s then dpaOf s hpa else none with
    | none => s
    | some l => (s.onCxl (fun c => { c with ptlDrop := c.ptlDrop + 1 })).devEvent 0x0F .invalid 0 l)

/-! ## Back-invalidates (17 R404, R405) -/

/-- The accesses held for a line proceed. -/
def State.releaseLine (s : State) (l : Nat) : State :=
  let writes := s.cxl.biHeld.filterMap (fun x => if x.1 = l then x.2 else none)
  writes.foldl (fun (s : State) d => s.devWrite l d) (s.onCxl (fun c => { c with biHeld := c.biHeld.filter (fun x => x.1 != l) }))

/-- BIRSP. -/
def execBiRsp (line : Nat) (s : State) : Out := done (if biOut s line then s.releaseLine line else s)

/-- Contexts with a request for a line outstanding. -/
def waitersAt (s : State) (l : Nat) : List Nat :=
  s.ld.filterMap (fun x => match x.2.cur with
    | some c => if !sdLink c.desc && c.reqs.any (fun r => !r.host && r.line == l) then some x.1 else none
    | none => none)

/-- BI_TIMEOUT: the line is poisoned, and the access held for it ends with `ST_FAULT_UNCORRECTABLE`. -/
def execBiTimeout (line : Nat) (s : State) : Out :=
  done (
    if !biOut s line then s else
    let s := (s.onCxl (fun c => { c with biHeld := c.biHeld.filter (fun x => x.1 != line), biTimeout := c.biTimeout + 1 })).poisonLine line
    let s := s.devEvent 0x0E .uncorrectable 0 line
    ((waitersAt s line).foldl (fun (s : State) x => s.failStream x .uncorrectable) s).settle)

/-- HOST_SNOOP (17 R407): no host line is ever held. -/
def execHostSnoop (_line : Nat) (s : State) : Out := done (s.onCxl (fun c => { c with rspI := true }))

/-! ## Decoder commit (17 R403) -/

/-- DPA ranges overlap. -/
def overlaps (a n b m : Nat) : Bool := a < b + m && b < a + n

/-- HDM_DECODER_COMMIT: base and size in multiples of 256 MiB. -/
def execHdmDecoderCommit (index base size dpa : Nat) (s : State) : Out :=
  done (
    if 4 ≤ index || !cxlUp s then s else
    let u := 0x10000000
    let d : Hdm := { base := base / u * u, size := size / u * u, dpa, committed := true, err := false }
    let bad := (upto 4).any (fun k => k != index && (s.hdm? k).committed && overlaps d.dpa d.size (s.hdm? k).dpa (s.hdm? k).size)
    s.onCxl (fun c => { c with hdm := Tab.put c.hdm index (if bad then { d with committed := false, err := true } else d) }))

/-! ## The port's resets and its link (17 R397 to R399) -/

/-- Every accepted command ends as under QUEUE_DELETE with ABORT, its completion dropped, and every queue is gone. -/
def State.dropQueues (s : State) : State :=
  let s := (s.qb.cmds.foldl (fun (s : State) c => s.abortCmd c .discarded) s).closeSessions (fun _ _ => true)
  s.onQb (fun q => { q with
    aqSqBase := 0, aqCqBase := 0, aqCfg := 0, wrr := Quibor.init.wrr, dbDrop := 0, evtLost := 0, queues := [], cls := 0, used := 0
    last := [], cmds := q.cmds.map (fun c => { c with qnum := 2 ^ 20 }), msixTable := [], msixPending := [] })

/-- CXL_PORT_RESET (17 R399, 21 R490): the host attachment alone. The accesses held for the host's caches proceed. -/
def execCxlPortReset (perst : Bool) (s : State) : Out :=
  done (
    let s := if perst then s.onBoard (fun b => { b with perst := true }) else s
    let s := s.dropQueues
    let s := (s.cxl.biHeld.map (·.1)).foldl (fun (s : State) l => s.releaseLine l) s
    s.onCxl (fun c => { c with
      link := none, pbr := 0, hdm := [], snoop := [], biHeld := [], lastRead := none, doeReq := false, doeSnap := [], doeResp := none, doeErr := false
      spdmAlgs := false }))

/-- The link can train: the start has reached step 6, REFCLK_CXL and the SerDes rail are there, and PERST_N is released. -/
def cxlTrains (s : State) : Bool :=
  (s.boot.phase = .pause1 || s.boot.phase = .pause2 || s.boot.phase = .ready) && refHere s .cxl && !railBad s .serdes && !s.board.perst

/-- CXL_LINK_UP: a narrower or slower link keeps the service level. -/
def execCxlLinkUp (width rate : Nat) (s : State) : Out :=
  done (if cxlTrains s && [1, 2, 4, 8].contains width && [25, 50, 80, 160, 320, 640].contains rate then
      s.onCxl (fun c => { c with link := some (width, rate) })
    else s)

/-! ## The DOE mailbox (17 R408) -/

/-- eFuse bits [2399:1280] (14 R327). -/
def fuseWords (f : Fuses) : List Byte :=
  f.pkHash.flatMap (fun h => leBytes 32 h.toNat) ++
  leBytes 4 (f.pkRevoked.toNat + (if f.encRequired then 16 else 0) + (if f.batkeyDisable then 32 else 0)) ++
  leBytes 4 f.flashPrimary.toNat ++ leBytes 4 f.flashGolden.toNat

/-- Contents of measurement block i, 1 to 7 (17 R410). -/
def measureValue (s : State) (i : Nat) : List Byte :=
  match i with
  | 1 => leBytes 32 Config.romDigest.toNat
  | 2 => leBytes 32 s.boot.fwDigest.toNat
  | 3 => leBytes 4 s.boot.fwVersion.toNat ++ leBytes 4 s.boot.fwSvn
  | 4 => sha256 (fuseWords s.fuses)
  | 5 => if s.sprue.shell = 0 then leBytes 32 0 else sha256 (padTo 1024 s.sprue.shellHeader)
  | 6 => sha256 ((s.sprue.moulds.filter (fun m => m.2.st == .running)).flatMap (fun m => leBytes 2 m.1 ++ padTo 1024 m.2.header))
  | _ => leBytes 1 ((if s.sprue.keyValid then 1 else 0) + (if s.fuses.encRequired then 2 else 0) + (if s.fuses.batkeyDisable then 4 else 0))

/-- DOE_REQUEST: blocks 5 to 7 are measured as the device receives it (17 R410); `read` says that the host has read the response that waited.
The mailbox holds one request at a time: while one is in progress another is not taken. -/
def execDoeRequest (bytes : Nat) (read : Bool) (s : State) : Out :=
  done (
    if !cxlUp s || s.cxl.doeErr then s else
    s.onCxl (fun c =>
      let c : Cxl := if read then { c with doeResp := none } else c
      if 4096 < bytes || c.doeResp.isSome then { c with doeErr := true }
      else if c.doeReq then c
      else { c with doeReq := true, doeSnap := [5, 6, 7].map (measureValue s) }))

/-- DOE_ABORT. -/
def execDoeAbort (s : State) : Out :=
  done (if cxlUp s then s.onCxl (fun c => { c with doeErr := false, doeReq := false, doeSnap := [], doeResp := none }) else s)

/-- A request that waits in the mailbox is answered. -/
def State.doeAnswer (s : State) (f : State → List Byte × State) : State :=
  if s.cxl.doeReq && !s.cxl.doeErr then
    let (r, s) := f s
    s.onCxl (fun c => { c with doeReq := false, doeSnap := [], doeResp := some r })
  else s

/-- A data object: vendor, type, length in 32-bit words, payload. -/
def doeObject (vendor type : Nat) (payload : List Byte) : List Byte :=
  let n := ceilTo payload.length 4
  leBytes 2 vendor ++ leBytes 1 type ++ leBytes 1 0 ++ leBytes 4 (n / 4 + 2) ++ padTo n payload

/-- The data objects of the mailbox: discovery, CMA/SPDM, CDAT. -/
def doeProtocols : List (Nat × Nat) := [(0x0001, 0), (0x0001, 1), (0x1E98, 2)]

/-- DOE_DISCOVERY: the protocol under an index, and the next index, 0 after the last. -/
def execDoeDiscovery (index : Nat) (s : State) : Out :=
  done (s.doeAnswer (fun s =>
    let p := doeProtocols.getD index (0xFFFF, 0)
    (doeObject 0x0001 0 (leBytes 2 p.1 ++ leBytes 1 p.2 ++ leBytes 1 (if index + 1 < 3 then index + 1 else 0)), s)))

/-! ## CDAT (17 R411) -/

/-- The memory ranges of R402: handle, DPA, length; read latency, write latency in ns. -/
def cdatRanges : List (Nat × Nat × Nat × Nat × Nat) :=
  [(0, 0, 0x8000000000, 380, 300), (1, 0x10000000000, 0x30000000000, 450, 320)]

/-- DSMAS of a range. -/
def dsmas (r : Nat × Nat × Nat × Nat × Nat) : List Byte :=
  leBytes 1 0 ++ leBytes 1 0 ++ leBytes 2 24 ++ leBytes 1 r.1 ++ leBytes 3 0 ++ leBytes 8 r.2.1 ++ leBytes 8 r.2.2.1

/-- DSLBIS of a range: data type, base unit, value. -/
def dslbis (handle type unit v : Nat) : List Byte :=
  leBytes 1 1 ++ leBytes 1 0 ++ leBytes 2 24 ++ leBytes 1 handle ++ leBytes 1 0 ++ leBytes 1 type ++ leBytes 1 0 ++ leBytes 8 unit ++
  leBytes 2 v ++ leBytes 6 0

/-- The structures after the header. -/
def cdatEntries : List (List Byte) :=
  cdatRanges.map dsmas ++ cdatRanges.flatMap (fun r =>
    [dslbis r.1 1 1000 r.2.2.2.1, dslbis r.1 2 1000 r.2.2.2.2, dslbis r.1 4 1000 64, dslbis r.1 5 1000 64])

/-- The header: length, revision, checksum, sequence. -/
def cdatHeader : List Byte :=
  let n := 16 + (cdatEntries.map (·.length)).sum
  let sum := ((cdatEntries.flatten ++ leBytes 4 n ++ leBytes 1 1).map (·.toNat)).sum
  leBytes 4 n ++ leBytes 1 1 ++ leBytes 1 ((256 - sum % 256) % 256) ++ leBytes 6 0 ++ leBytes 4 0

/-- CDAT_READ: an entry and the handle of the next, 0xFFFF after the last. -/
def execCdatRead (entry : Nat) (s : State) : Out :=
  done (s.doeAnswer (fun s =>
    let all := cdatHeader :: cdatEntries
    (doeObject 0x1E98 2 (leBytes 1 0 ++ leBytes 1 0 ++ leBytes 2 (if entry + 1 < all.length then entry + 1 else 0xFFFF) ++ all.getD entry []), s)))

/-! ## SPDM 1.2 (17 R409, R410) -/

/-- A message: version, code, two parameters, body. -/
def spdmMsg (version code p1 p2 : Nat) (body : List Byte) : List Byte :=
  leBytes 1 version ++ leBytes 1 code ++ leBytes 1 p1 ++ leBytes 1 p2 ++ body

/-- An SPDM response in its data object. -/
def State.spdmAnswer (s : State) (f : State → List Byte × State) : State :=
  s.doeAnswer (fun s => let (r, s) := f s; (doeObject 0x0001 1 r, s))

/-- ERROR with a code. -/
def spdmError (code data : Nat) : List Byte := spdmMsg 0x12 0x7F code data []

/-- A request that needs the algorithms is unexpected before they are negotiated. -/
def State.spdmAfter (s : State) (f : State → List Byte × State) : State :=
  s.spdmAnswer (fun s => if s.cxl.spdmAlgs then f s else (spdmError 0x04 0, s))

/-- GET_VERSION: 1.2; a new connection begins. -/
def execGetVersion (s : State) : Out :=
  done (s.spdmAnswer (fun s =>
    (spdmMsg 0x10 0x04 0 0 (leBytes 1 0 ++ leBytes 1 1 ++ leBytes 2 0x1200), s.onCxl (fun c => { c with spdmAlgs := false }))))

/-- GET_CAPABILITIES: CERT, CHAL, MEAS with signature; the timing exponent and the sizes are free. -/
def execGetCapabilities (s : State) : Out :=
  done (s.spdmAnswer (fun s =>
    let (b, s) := s.drawBytes 9
    (spdmMsg 0x12 0x61 0 0 (leBytes 1 0 ++ b.take 1 ++ leBytes 2 0 ++ leBytes 4 0x16 ++ b.drop 1), s)))

/-- NEGOTIATE_ALGORITHMS: what of the device's algorithms the request offers is fixed. -/
def execNegotiateAlgorithms (rsaPss3072 sha256 : Bool) (s : State) : Out :=
  done (s.spdmAnswer (fun s =>
    (spdmMsg 0x12 0x63 0 0 (leBytes 2 36 ++ leBytes 1 1 ++ leBytes 1 0 ++ leBytes 4 2 ++ leBytes 4 (if rsaPss3072 then 8 else 0) ++
      leBytes 4 (if sha256 then 1 else 0) ++ leBytes 16 0),
     s.onCxl (fun c => { c with spdmAlgs := rsaPss3072 && sha256 }))))

/-- Digest of the slot-0 chain. -/
def chainDigest : List Byte := Machine.sha256 Config.certChain

/-- GET_DIGESTS. -/
def execGetDigests (s : State) : Out := done (s.spdmAfter (fun s => (spdmMsg 0x12 0x01 0 1 chainDigest, s)))

/-- GET_CERTIFICATE: a portion of slot 0. -/
def execGetCertificate (slot offset length : Nat) (s : State) : Out :=
  done (s.spdmAfter (fun s =>
    let n := Config.certChain.length
    if slot ≠ 0 || n ≤ offset then (spdmError 0x01 0, s)
    else
      let part := (Config.certChain.drop offset).take length
      (spdmMsg 0x12 0x02 slot 0 (leBytes 2 part.length ++ leBytes 2 (n - offset - part.length) ++ part), s)))

/-- A signature under the device key, which is derived from the eFuse secret. -/
def State.signed (s : State) (request response : List Byte) : List Byte :=
  response ++ Config.spdmSign s.fuses.deviceSecret (request ++ response)

/-- CHALLENGE: the nonce of the answer is free. -/
def execChallenge (slot : Nat) (nonce : List Byte) (s : State) : Out :=
  done (s.spdmAfter (fun s =>
    if slot ≠ 0 then (spdmError 0x01 0, s)
    else
      let (b, s) := s.drawBytes 32
      (s.signed nonce (spdmMsg 0x12 0x03 slot 1 (chainDigest ++ b ++ leBytes 2 0)), s)))

/-- A measurement block: index, specification, size, and the value with its type; blocks 5 to 7 as the request found them. -/
def measureBytes (s : State) (i : Nat) : List Byte :=
  let v := if i < 5 then measureValue s i else s.cxl.doeSnap.getD (i - 5) []
  leBytes 1 i ++ leBytes 1 1 ++ leBytes 2 (v.length + 3) ++ leBytes 1 ([0, 1, 0x86, 2, 1, 1, 0x82].getD (i - 1) 0) ++ leBytes 2 v.length ++ v

/-- GET_MEASUREMENTS: index 0 asks for the number of blocks, 0xFF for all of them. -/
def execGetMeasurements (index : Nat) (sign : Bool) (nonce : List Byte) (s : State) : Out :=
  done (s.spdmAfter (fun s =>
    if 7 < index && index ≠ 0xFF then (spdmError 0x01 0, s)
    else
      let is : List Nat := if index = 0 then [] else if index = 0xFF then (upto 7).map (· + 1) else [index]
      let rec' := is.flatMap (measureBytes s)
      let (b, s) := s.drawBytes 32
      let m := spdmMsg 0x12 0x60 (if index = 0 then 7 else 0) 0 (leBytes 1 is.length ++ leBytes 3 rec'.length ++ rec' ++ b ++ leBytes 2 0)
      (if sign then s.signed nonce m else m, s)))

/-- SPDM_UNSUPPORTED. -/
def execSpdmUnsupported (code : Nat) (s : State) : Out := done (s.spdmAnswer (fun s => (spdmError 0x07 code, s)))

end Sys2Proof.Machine
end

