-- ==== Sys2Proof/Machine/Dispatching.lean ====
section
/-!
DEFINITION. Dispatch of READY nodes (09 R200, R201, R207 to R209, R220, R495; 06 R152).
-/

namespace Sys2Proof.Machine

/-- Some unit, or a queue at one, holds node n of heat k. -/
def inUnit (s : State) (k n : Nat) : Bool :=
  s.graph.kq.any (fun x => x.2.any (fun e => e.heat == k && e.node == n)) ||
  s.mt.any (fun x => match x.2.run with | some r => r.heat == k && r.node == n | none => false) ||
  s.vt.any (fun x => (x.2.run.toList ++ x.2.susp).any (fun r => r.heat == k && r.node == n)) ||
  s.hb.any (fun x => (x.2.queue ++ x.2.runs.map (·.2)).any (fun h => h.heat == k && h.node == n)) ||
  s.fp.any (fun x => x.2.dtags.any (fun d => d.2.1 == k && d.2.2 == n)) ||
  s.nimra.colls.any (fun c => c.heat == k && c.node == n)

/-- Nodes dispatched to cluster i's controller and not started: those queued there, and those whose descriptor read waits
(09 R207, R495). -/
def controllerLoad (s : State) (i : Nat) : Nat :=
  (Tab.get [] s.graph.kq i).length + (s.faults.filter (fun f => match f.who with
    | .desc k n => !inUnit s k n && (match s.node? k n with | some x => x.cls ≤ 3 && x.target == i | none => false)
    | _ => false)).length

/-- The descriptor of a node that is sent to its unit: of a held HEARTH dispatch the one its check has read. -/
def descOf (s : State) (k : Nat) (x : Node) : Got :=
  match x.held with
  | some (d, _, _) => .ok d
  | none => readDesc s k x

/-- The unit of a READY node accepts one more (09 R207). -/
def accepts (s : State) (k : Nat) (x : Node) : Bool :=
  match x.cls with
  | 1 | 2 | 3 => controllerLoad s x.target < 16
  | 4 => match descOf s k x with | .ok d => 8 ≤ heStack d || (s.die (heStack d)).queue.length < 16 | _ => true
  | 6 => collRoom s
  | _ => true

/-- Class that a READY node counts as (09 R208). -/
def urgency (h : Heat) (x : Node) : Nat := if x.aged then 0 else h.prio

/-- A node goes before another: class, order of acceptance, index (09 R208). -/
def goesBefore (a b : Nat × Nat × Nat) : Bool :=
  a.1 < b.1 || (a.1 == b.1 && (a.2.1 < b.2.1 || (a.2.1 == b.2.1 && a.2.2 < b.2.2)))

/-- READY nodes whose units accept them: rank, heat, node. -/
def readyNodes (s : State) : List ((Nat × Nat × Nat) × Nat × Nat) :=
  s.graph.heats.flatMap (fun y =>
    if y.2.phase = .running then
      y.2.nodes.zipIdx.filterMap (fun x =>
        if x.1.st = .ready && accepts s y.1 x.1 then some ((urgency y.2 x.1, y.2.seq, x.2), y.1, x.2) else none)
    else [])

/-- The node dispatched next. -/
def nextNode (s : State) : Option (Nat × Nat) :=
  ((readyNodes s).foldl (fun best x => match best with
    | none => some x
    | some b => if goesBefore x.1 b.1 then some x else best) none).map (·.2)

/-- Pages of a flask are pinned (06 R152). -/
def State.pin (s : State) (flask : Nat) (pages : List Nat) : State :=
  s.onFlask flask (fun f => { f with pages := pages.foldl (fun t v => Tab.mod t v (fun p => { p with pins := p.pins + 1 })) f.pages })

/-- A HEARTH node's checks, and its place in its base die's queue (06 R151 to R153). What the check has read is kept while a page holds the
dispatch. -/
def State.sendHearth (s : State) (k n : Nat) (d : List Byte) : State :=
  match hearthPrep s k n d ((s.node? k n).bind (·.held)) with
  | .wait p held => (s.onNode k n (fun x => { x with held })).pageFault (flaskOfKey k) p (.hearth k n) (patienceOf s (flaskOfKey k))
  | .fail st =>
    let es := (upto (heCount d)).map (fun j => 64 * heStack d + heFirst d + j)
    let e := if st = .notPresent then firstDown s es else none
    (s.endNode k n st (fun x => { x with detail := heDetail e })).blameFirst (flaskOfKey k) (heReadsOf d) st
  | .ok h => ((s.ctrl (stackCommand (heStack d)) (flaskOfKey k) true).1.pin (flaskOfKey k) h.pinned).onDie (heStack d) (fun b =>
      { b with queue := b.queue ++ [h] })

/-- A dispatched node goes to its unit in a CTRL packet (01 R28) with its descriptor; a unit that is out of service ends it (09 R200, R209). -/
def State.sendNode (s : State) (k n : Nat) (x : Node) : State :=
  if x.cls = 8 then s.endNode k n .ok id
  else if x.cls = 7 then s
  else if x.cls ≤ 3 && (!clusterUp s x.target || lkState s x.target true ≠ .ok) then
    (s.ctrl (routerPort x.target 7) (flaskOfKey k) false).1.endNode k n .notPresent id
  else match descOf s k x with
    | .wait p => s.pageFault (flaskOfKey k) p (.desc k n) (patienceOf s (flaskOfKey k))
    | .fail st => (s.endNode k n st id).blame (flaskOfKey k) x.descAddr 128 st
    | .ok d =>
      match x.cls with
      | 4 => s.sendHearth k n d
      | 5 => match fabricCheck s k n x d with
        | .error st => s.endNode k n st id
        | .ok p => s.fabricDispatch k n p (phaseOf s k n) x d
      | 6 => match collCheck s k x d with
        | .error st => s.endNode k n st id
        | .ok g => (s.ctrl (pxUnit 2) (flaskOfKey k) true).1.collDispatch k n g d
      | c => (s.ctrl (routerPort x.target 7) (flaskOfKey k) true).1.onGraph (fun g => { g with kq := Tab.upd [] g.kq x.target (fun l =>
          l ++ [{ heat := k, node := n, cls := c, desc := d, phase := phaseOf s k n }]) })

/-- NODE_DISPATCH: the first READY node, in the order of 09 R208, whose unit has room. -/
def execNodeDispatch (s : State) : Out :=
  done (match nextNode s with
    | none => s
    | some (k, n) =>
      match s.node? k n with
      | none => s
      | some x => (s.onNode k n (fun x => { x with st := .dispatched, start := s.time })).sendNode k n x)

/-- A read or dispatch that waited at the graph engine is made again. -/
def State.sendAgain (s : State) (k n : Nat) : State :=
  match s.node? k n with
  | some x => if x.st = .dispatched && x.ended.isNone && !inUnit s k n then s.sendNode k n x else s
  | none => s

/-- The page that a fault waits for is still not there. -/
def stillOut (s : State) (f : PFault) : Bool :=
  match (locate s f.flask f.va).1 with | .out _ => true | _ => false

/-- The queue of a node's unit has room when its read or its dispatch goes on: of a base die's and the collective engine's (06 R153,
09 R207, 16 R386); a controller has counted the node already. -/
def hasRoom (s : State) (k n : Nat) : Bool :=
  match s.node? k n with
  | some x => (x.cls ≠ 4 && x.cls ≠ 6) || accepts s k x
  | none => true

/-- HEARTH_DISPATCH_RESUME (06 R152): the page is resident; a full queue at the base die holds the dispatch further. -/
def execHearthDispatchResume (fault : Nat) (s : State) : Out :=
  done (match s.faults.find? (fun f => f.id == fault) with
    | none => s
    | some f =>
      match f.who with
      | .hearth k n => if stillOut s f || !hasRoom s k n then s else (s.dropFaults (fun g => g.id == fault)).sendAgain k n
      | _ => s)

end Sys2Proof.Machine
end

