-- ==== Sys2Proof/Machine/Faults.lean ====
section
/-!
DEFINITION. Pages that come back, patience that expires (07 R180, R181, 09 R495), and the unmapping of pages (12 R287).
-/

namespace Sys2Proof.Machine

/-- A stream that waited translates again from its saved position (07 R180). -/
def State.resumeStream (s : State) (x : Nat) : State :=
  (s.unpause x).onCtx x (fun c => if c.st = .paused then { c with st := c.back } else c)

/-- A waiter goes on once its page is resident, or fails at its next access when the page is no longer mapped. What has a row of
its own (a node's or a heat's read, a held dispatch, a command) only leaves its wait here; a node whose unit has no room goes on
waiting. -/
def State.wake (s : State) (f : PFault) : State :=
  let t := s.dropFaults (fun g => g.id == f.id)
  match f.who with
  | .stream x => t.resumeStream x
  | .load k => match t.heat? k with
    | some h => if h.phase = .loading && h.verdict.isNone then t.takeHeat k else t
    | none => t
  | .desc k n | .hearth k n => if hasRoom s k n then t.sendAgain k n else s
  | .port x _ => t.pumpTx x
  | .place g w => t.placeResume g w
  | _ => t

/-- The graph engine's and the cluster controllers' reads and writes, which FLASK_MEMORY_READ_DONE ends. -/
def Waiter.engineRead : Waiter → Bool
  | .load _ | .desc _ _ | .program _ _ _ | .fetch _ | .record _ _ => true
  | _ => false

/-- A dispatch held at the graph engine. -/
def Waiter.heldDispatch : Waiter → Bool
  | .hearth _ _ => true
  | _ => false

/-- FLASK_MEMORY_READ_DONE (09 R495): a waiting read completes when its page is resident, or fails when it is no longer mapped. -/
def execFlaskMemoryReadDone (fault : Nat) (s : State) : Out :=
  done (match s.faults.find? (fun f => f.id == fault) with
    | none => s
    | some f => if !f.who.engineRead || stillOut s f then s else s.wake f)

/-- PAGE_RESIDENT (07 R180): firmware reports a page resident; what waits for it goes on, but for the reads and dispatches that
have rows of their own. -/
def execPageResident (flask va : Nat) (s : State) : Out :=
  done (
    let base := match (s.flask? flask).bind (fun f => pageOf f va) with | some p => p.1 | none => va
    let l := s.faults.filter (fun f => f.flask == flask && f.va == base && !f.who.engineRead && !f.who.heldDispatch && !stillOut s f)
    l.foldl State.wake s)

/-- What waited ends with a status (07 R181, 09 R205, R495, 10 R249, 13 R312, 14 R330, 16 R390, R392). -/
def State.expire (s : State) (f : PFault) (st : Stat) : State :=
  let s := s.dropFaults (fun g => g.id == f.id)
  match f.who with
  | .stream x => (s.failStream x st).settle
  | .program i k n => ((s.unqueue i k n).endNode k n st id).settle
  | .load k => s.expireLoad k st
  | .desc k n | .hearth k n => (s.failNode k n st).settle
  | .record k n => ((s.onNode k n (fun x => { x with written := true })).endHeat k st n none).settle
  | .fetch t => match (s.vtile t).run with | some r => s.failVector t r st | none => s
  | .copy c => match findCmd s c with | some c => s.abortCmd c st | none => s
  | .image c => match findCmd s c with | some c => s.abortCmd c st | none => s
  | .port x tag => match (s.fport x).outs.find? (fun r => r.tag == tag) with
    | some r => s.answer x tag (if r.write then 1 else 2) st []
    | none => s
  | .place g w => s.placeExpire g w
  | .loop k =>
    match k % 4 with
    | 0 => s.decodeStep (k / 4) true
    | 1 => s.prefillStep (k / 4) true
    | 2 => s
    | _ => s.stepEnd (k / 4) false true

/-- FAULT_PATIENCE_EXPIRY (07 R181): a page that is resident by now wins. -/
def execFaultPatienceExpiry (fault : Nat) (s : State) : Out :=
  done (match s.faults.find? (fun f => f.id == fault) with
    | none => s
    | some f =>
      let s := s.until f.due
      if stillOut s f then s.expire f .pageTimeout else s.wake f)

/-! ## MEM_UNMAP (12 R287) -/

/-- A page may be unmapped: it is not pinned, does not move, and no translated request is under way to it. -/
def Page.idle (s : State) (p : Page) : Bool :=
  p.pins == 0 && p.move.isNone && !translated s (p.st == .host) p.pa p.size

/-- Pages of a range are unmapped once all of them are idle; what waits for one of them then fails at its next access. -/
def State.tryUnmap (s : State) (c : Cmd) : State :=
  match s.flask? c.flask with
  | none => s.failCmd c.cid .notPresent
  | some f =>
    let l := pagesIn f (c.p 0 8) (c.p 8 8)
    if !l.all (fun p => p.2.idle s) then s.onCmd c.cid (fun c => { c with work := .unmap }) else
    let s := s.onFlask c.flask (fun f => { f with pages := f.pages.filter (fun p => !l.any (fun q => q.1 == p.1)) })
    let w := s.faults.filter (fun g => g.flask == c.flask && l.any (fun q => q.1 == g.va))
    (w.foldl State.wake s).finish c.cid .ok zeros16

/-- MEM_UNMAP with KIND 0, and any KIND the manual does not assign. Run again by its own row, it looks again at pages that were not
idle (notes/assumptions/16.md). -/
def execMemUnmap (cid : Nat) (s : State) : Out :=
  done (match findCmd s cid with
    | none => s
    | some c =>
      if c.opcode ≠ 0x07 || c.p 16 1 = 1 then s else
      match c.work with
      | .unmap => s.tryUnmap c
      | .pending =>
        if c.p 16 1 ≠ 0 || !c.reserved 17 47 || 16 ≤ c.flask then s.failCmd cid .invalid
        else match s.flask? c.flask with
          | none => s.failCmd cid .notPresent
          | some f => if whollyMapped f (c.p 0 8) (c.p 8 8) then s.tryUnmap c else s.failCmd cid .invalid
      | _ => s)

end Sys2Proof.Machine
end

