-- ==== Sys2Proof/Machine/Flasks.lean ====
section
/-!
DEFINITION. Creating and destroying flasks, and flask-scope faults (09 R221 to R227).
-/

namespace Sys2Proof.Machine

/-- The numbers below n whose bit is set. -/
def bitsOf (n v : Nat) : List Nat := (upto n).filter (fun i => v.testBit i)

/-- A flask as its resource descriptor sets it (09 R221): PATIENCE 0 gives 10,000 µs. -/
def flaskOf (d : List Byte) : Flask :=
  { clusters := bitsOf 96 (fld d 0 16)
    hearth := (upto 8).flatMap (fun k => (bitsOf 64 (fld d (16 + 8 * k) 8)).map (64 * k + ·))
    hbmQuota := fld d 80 8, ddrQuota := fld d 88 8, nodeQuota := fld d 96 4, queueQuota := fld d 100 4
    phaseBase := fld d 104 1, phaseCount := fld d 106 2
    patience := if fld d 108 4 = 0 then 10000 else fld d 108 4
    nomix := (fld d 112 1).testBit 0, faulted := false, destroying := false, pages := [] }

/-- Fields of a descriptor are in range (09 R221). -/
def flaskForm (d : List Byte) : Bool :=
  zeroIn d 12 15 && fld d 80 8 % 0x200000 == 0 && fld d 88 8 % 0x200000 == 0 &&
  1 ≤ fld d 96 4 && fld d 96 4 ≤ 131072 && 1 ≤ fld d 100 4 && fld d 100 4 ≤ 1048575 && zeroIn d 105 105 &&
  1 ≤ fld d 106 2 && fld d 104 1 + fld d 106 2 ≤ 256 &&
  (fld d 108 4 == 0 || (100 ≤ fld d 108 4 && fld d 108 4 ≤ 1000000)) && fld d 112 1 < 2 && zeroIn d 113 127

/-- Two phase ranges overlap. -/
def phasesMeet (f g : Flask) : Bool := meets f.phaseBase f.phaseCount g.phaseBase g.phaseCount

/-- Rows 2 and 3 of 09 R222. -/
def flaskFit (s : State) (n : Nat) (f : Flask) : Stat :=
  if (s.flask? n).isSome || s.flasks.any (fun g => g.2.clusters.any (f.clusters.contains ·) || g.2.hearth.any (f.hearth.contains ·) ||
      phasesMeet f g.2) then .busy
  else if !f.clusters.all (clusterThere s) || !f.hearth.all (fun e => stackUp s (e / 64) && (Tab.get .init s.he e).st ≠ .failed) ||
      131072 < quotaSum s (·.nodeQuota) + f.nodeQuota || queuesFree s < f.queueQuota || hbmFree s < f.hbmQuota ||
      ddrFree s < f.ddrQuota then .noResource
  else .ok

/-- FLASK_CREATE (09 R222): the flask's entries of the phase table take their reset values (19 R449). The descriptor is read
where the packet's FLASK has it (notes/assumptions/25.md); while that read waits for a page, its own row looks again. -/
def execFlaskCreate (cid : Nat) (s : State) : Out :=
  done (s.accepted cid (fun c => c.opcode == 0x04) (fun c s =>
    let n := c.p 0 1
    if 15 < n || !c.reserved 1 7 || !c.reserved 16 47 then s.failCmd cid .invalid else
    match readFlask s c.flask (c.p 8 8) 128 with
    | .wait p => s.cmdWaits c p
    | .fail st => (s.blame c.flask (c.p 8 8) 128 st).failCmd cid st
    | .ok d =>
      if !flaskForm d then s.failCmd cid .invalid else
      let f := flaskOf d
      match flaskFit s n f with
      | .ok =>
        let s := s.onFlasks (fun t => Tab.put t n f)
        (s.onPower (fun p => { p with
          phases := p.phases.filter (fun e => !(f.phaseBase ≤ e.1 && e.1 < f.phaseBase + f.phaseCount)) })).finish cid .ok zeros16
      | st => s.failCmd cid st))

/-! ## FLASK_DESTROY (09 R224) -/

/-- A heat ends with `ST_DISCARDED` and completes; a record whose page is not resident is dropped (notes/assumptions/46.md). -/
def State.discardHeat (s : State) (k : Nat) : State :=
  match s.heat? k with
  | none => s
  | some h =>
    if h.phase = .held then s.dropHeld k .discarded else
    if h.phase = .closing then s.discardEntry k else
    let s := s.endHeat k .discarded 0xFFFFFFFF none
    let s := match s.heat? k with
      | some h => h.nodes.zipIdx.foldl (fun (s : State) (x : Node × Nat) =>
          if x.1.written || h.loop.isSome then s else (s.tryWrite h.flask (h.recAddr + 64 * x.2) (nodeRecord x.1)).2) s
      | none => s
    let s := s.dropFaults (fun f => match f.who with | .record k' _ => k' == k | .load k' => k' == k | _ => false)
    match s.heat? k with
    | some h => if h.cid.isSome then s.closeHeat k h else s.dropHeat k
    | none => s

/-- On-die state of a flask reads zero (09 R224 step 4): cluster SRAM, block RAMs, LDMs, weight banks and accumulator buffers, and a vector
tile's program memory, which no later flask finds filled (05 R128). The XS of a hearth engine lives only while a node runs. -/
def State.zeroOnDie (s : State) (f : Flask) : State :=
  let inSram (a : Nat) : Bool := f.clusters.any (fun i => sramBase + i * sramWindow ≤ a && a < sramBase + (i + 1) * sramWindow)
  let s := (s.onMem (fun t => t.filter (fun x => !inSram x.1))).onPoison (fun l => l.filter (fun a => !inSram a))
  let s := f.clusters.foldl (fun s i => (upto 4).foldl (fun s q => s.zeroBram i q) s) s
  let s := s.onVt (fun t => t.map (fun x => (x.1, if f.clusters.contains (x.1 / 2) then { x.2 with ldm := [], asm := [], imem := [], prev := none } else x.2)))
  let s := s.onHe (fun t => t.map (fun x => (x.1, if f.hearth.contains x.1 then { x.2 with acc := [] } else x.2)))
  s.onMt (fun t => t.map (fun x => (x.1,
    if f.clusters.contains (x.1 / 4) then { x.2 with bankA := .init, bankB := .init, acc := [] } else x.2)))

/-- SCRUB (09 R224 step 5): zero in every byte of device memory that the flask's pages hold. -/
def State.scrub (s : State) (f : Flask) : State :=
  (f.pages.flatMap (fun p => p.2.holds)).foldl (fun s h => s.zeroDev h.1 h.2) s

/-- Commands of a flask that other queues carry end with `ST_DISCARDED` too (notes/assumptions/46.md). -/
def State.abortFlask (s : State) (n cid : Nat) : State :=
  (s.qb.cmds.filter (fun c => c.flask == n && c.cid != cid && c.qnum < 2 ^ 20 && c.opcode != 5)).foldl
    (fun s c => s.abortCmd c .discarded) s

/-- Steps 1 to 5 of 09 R224. -/
def State.destroyWork (s : State) (n cid : Nat) (scrub : Bool) : State :=
  match s.flask? n with
  | none => s
  | some f =>
    let s := s.onFlask n (fun f => { f with destroying := true })
    let s := ((s.graph.heats.filter (fun h => h.2.flask == n)).map (·.1)).foldl State.discardHeat s
    let s := s.closeSessions (fun _ x => flaskOfLoop x.loop == n)
    let s := (s.failLoadsOf n .discarded).abortFlask n cid
    let s := ((s.nimra.groups.filter (fun g => g.2.flask == n)).map (·.1)).foldl State.dropGroup s
    let s := s.onGraph (fun g => { g with patterns := g.patterns.filter (fun p => p.2.flask != n) })
    let s := ((s.sprue.moulds.filter (fun m => m.2.flask == n)).map (·.1)).foldl (fun (s : State) id => s.tearDown id false .discarded) s
    let s := ((s.claims.filter (fun c => c.2.owner == n)).map (·.1)).foldl State.release s
    let s := (s.zeroOnDie f).dropFaults (fun x => x.flask == n)
    (if scrub then s.scrub f else s).settle

/-- Queues of a flask. -/
def queuesOf (s : State) (n : Nat) : List Nat := (s.qb.queues.filter (fun q => q.1 != 0 && q.2.flask == n)).map (·.1)

/-- Steps 6 and 7: the pages go, the queues' commands end, and once every completion is posted the queues and the flask go. -/
def State.destroyEnd (s : State) (n cid : Nat) : State :=
  let s := s.onFlask n (fun f => { f with pages := [] })
  let qs := queuesOf s n
  let s := qs.foldl (fun (s : State) q => (s.onQueue q (fun x => { x with st := .deleting, held := none })).abortQueue q) s
  if qs.all (queueQuiet s) then
    let s := s.onQb (fun b => { b with queues := b.queues.filter (fun q => !qs.contains q.1) })
    (s.onFlasks (fun t => Tab.del t n)).finish cid .ok zeros16
  else s.onCmd cid (fun c => { c with work := .destroy })

/-- FLASK_DESTROY (09 R224). Run again by its own row, it looks again at the completions that wait (notes/assumptions/16.md). -/
def execFlaskDestroy (cid : Nat) (s : State) : Out :=
  done (match findCmd s cid with
    | none => s
    | some c =>
      if c.opcode ≠ 0x05 then s else
      let n := c.p 0 1
      match c.work with
      | .destroy => s.destroyEnd n cid
      | .pending =>
        if 1 < c.p 1 1 || !c.reserved 2 47 then s.failCmd cid .invalid
        else match s.flask? n with
          | none => s.failCmd cid .notPresent
          | some f => ((if f.destroying then s else s.destroyWork n cid (c.p 1 1 = 1))).destroyEnd n cid
      | _ => s)

/-- FLASK_FAULT (09 R225, R226). -/
def execFlaskFault (flask : Nat) (cmd : Option Nat) (s : State) : Out := done (s.flaskFault flask cmd)

end Sys2Proof.Machine
end

