-- ==== Sys2Proof/Machine/I3c.lean ====
section
/-!
DEFINITION. The I3C targets: common command codes, management requests and their responses (17 R412 to R417, 20 R477).
-/

namespace Sys2Proof.Machine

/-! ## Targets -/

/-- A target is on its bus: a management core has left the boot ROM, and the second target is claimed (17 R417). -/
def tgtThere (s : State) (t : I3cTarget) : Bool :=
  coresRun s && (match t with | .main => true | .second => Tab.has s.claims (claimKey 2 0))

/-- A target's record. -/
def State.tgt (s : State) (t : I3cTarget) : I3cTgt := match t with | .main => s.i3c | .second => s.i3c2

/-- Change a target. -/
def State.onTgt (s : State) (t : I3cTarget) (f : I3cTgt → I3cTgt) : State := match t with | .main => s.onI3c f | .second => s.onI3c2 f

/-- A CCC acts on a target that is on its bus. -/
def State.ccc (s : State) (t : I3cTarget) (f : I3cTgt → I3cTgt) : State := if tgtThere s t then s.onTgt t f else s

/-- A CCC that reads a target by its dynamic address. -/
def State.cccGet (s : State) (t : I3cTarget) (v : List Byte) : State :=
  s.ccc t (fun x => if x.addr.isSome then { x with lastRead := v } else x)

/-- Provisioned ID (17 R413). -/
def provisionedId (s : State) (t : I3cTarget) : Nat :=
  s.fuses.mfrId.toNat * 2 ^ 33 + (match t with | .main => 0 | .second => 2 ^ 31) + bits (serialOf s) 30 0

/-! ## CCCs (17 R412) -/

/-- ENTDAA: a target without an address sends its ID, BCR and DCR, and takes the address. -/
def execEntdaa (target : I3cTarget) (addr : Nat) (s : State) : Out :=
  done (s.ccc target (fun x =>
    if x.addr.isSome || 128 ≤ addr then x
    else { x with addr := some addr, lastRead := beBytes 6 (provisionedId s target) ++ [0x06, 0x00] }))

/-- RSTDAA. -/
def execRstdaa (target : I3cTarget) (s : State) : Out := done (s.ccc target (fun x => { x with addr := none }))

/-- SETNEWDA. -/
def execSetnewda (target : I3cTarget) (addr : Nat) (s : State) : Out :=
  done (s.ccc target (fun x => if x.addr.isSome && addr < 128 then { x with addr := some addr } else x))

/-- GETPID. -/
def execGetpid (target : I3cTarget) (s : State) : Out := done (s.cccGet target (beBytes 6 (provisionedId s target)))

/-- GETBCR. -/
def execGetbcr (target : I3cTarget) (s : State) : Out := done (s.cccGet target [0x06])

/-- GETDCR. -/
def execGetdcr (target : I3cTarget) (s : State) : Out := done (s.cccGet target [0x00])

/-- GETSTATUS: two bytes whose content the manual does not give. -/
def execGetstatus (target : I3cTarget) (s : State) : Out :=
  done (let (b, s) := s.drawBytes 2; s.cccGet target b)

/-- GETMWL. -/
def execGetmwl (target : I3cTarget) (s : State) : Out := done (s.cccGet target (beBytes 2 (s.tgt target).mwl))

/-- SETMWL: below 64 it is refused. -/
def execSetmwl (target : I3cTarget) (len : Nat) (s : State) : Out :=
  done (s.ccc target (fun x => if 64 ≤ len && len < 65536 then { x with mwl := len } else x))

/-- GETMRL, with the size of the IBI payload. -/
def execGetmrl (target : I3cTarget) (s : State) : Out := done (s.cccGet target (beBytes 2 (s.tgt target).mrl ++ [0x01]))

/-- SETMRL: below 263 it is refused. -/
def execSetmrl (target : I3cTarget) (len : Nat) (s : State) : Out :=
  done (s.ccc target (fun x => if 263 ≤ len && len < 65536 then { x with mrl := len } else x))

/-- ENEC. -/
def execEnec (target : I3cTarget) (s : State) : Out := done (s.ccc target (fun x => { x with ibiOn := true }))

/-- DISEC. -/
def execDisec (target : I3cTarget) (s : State) : Out := done (s.ccc target (fun x => { x with ibiOn := false }))

/-! ## Frames (17 R414) -/

/-- One bit of the PEC's CRC. -/
def pecStep (c : Nat) : Nat := if c.testBit 7 then (2 * c % 256) ^^^ 0x07 else 2 * c % 256

/-- CRC-8, polynomial 0x07, initial 0. -/
def pec (bs : List Byte) : Nat := bs.foldl (fun c b => pecStep^[8] (c ^^^ b.toNat)) 0

/-- A request frame is well formed: its length matches LEN and its PEC holds. -/
def frameOk (f : List Byte) : Bool :=
  let n := fld f 2 2
  n ≤ 59 && f.length == n + 5 && pec (f.take (n + 4)) == fld f (n + 4) 1

/-- Payload of a request. -/
def framePayload (f : List Byte) : List Byte := slice f 4 (fld f 2 2)

/-- A response frame. -/
def responseFrame (f : List Byte) (st : Stat) (payload : List Byte) : List Byte :=
  let b := leBytes 1 (fld f 0 1 % 128 + 128) ++ leBytes 1 (fld f 1 1) ++ leBytes 2 st.code ++ leBytes 2 payload.length ++ payload
  b ++ leBytes 1 (pec b)

/-- A response becomes ready: an unread one is gone, and an IBI is raised where they are enabled. -/
def State.mgmtRespond (s : State) (t : I3cTarget) (r : List Byte) : State :=
  s.onTgt t (fun x => { x with resp := some r, ibis := if x.ibiOn then 0x01 :: x.ibis else x.ibis })

/-- A target with an address receives a request with one of a row's OPs: a broken frame, or a payload that is not `len` bytes, gives
`ST_INVALID`; otherwise `f` answers its payload with a status, a payload and the state. -/
def State.mgmtRequest (s : State) (t : I3cTarget) (f : List Byte) (ops : Nat → Bool) (len : Option Nat)
    (g : List Byte → State → Stat × List Byte × State) : State :=
  if !tgtThere s t || (s.tgt t).addr.isNone || !ops (fld f 0 1) then s
  else if !frameOk f || (match len with | some n => fld f 2 2 != n | none => false) then s.mgmtRespond t (responseFrame f .invalid [])
  else
    let (st, pl, s) := g (framePayload f) s
    s.mgmtRespond t (responseFrame f st pl)

/-! ## Requests (17 R415 to R417) -/

/-- IDENT: `CX.ID`, `CX.SERIAL`, `CX.FW_VERSION`. -/
def execIdent (target : I3cTarget) (frame : List Byte) (s : State) : Out :=
  done (s.mgmtRequest target frame (· == 1) (some 0) (fun _ s =>
    (.ok, leBytes 8 (0x7400 + 65536 * (Config.stepping % 256)) ++ leBytes 8 (serialOf s) ++ leBytes 8 s.boot.fwVersion.toNat, s)))

/-- The HEALTH payload (17 R416). -/
def healthPayload (s : State) : List Byte :=
  let up := s.boot.level ≠ 0
  let bit (b : Bool) (v : Nat) : Nat := if b then v else 0
  let ctls := if up then upto 20 else (upto 20).filter (fun k => (s.ctl k).train = 1)
  leBytes 1 s.boot.level ++
  leBytes 1 (bit s.cxl.link.isSome 1 + bit (throttling s) 2 + bit s.power.floor 4 + bit s.boot.shutdown 8) ++
  leBytes 2 (ofInt 16 (hottest s)) ++ leBytes 4 s.power.power ++ leBytes 4 s.power.cap ++
  (if up then clustersField s else leBytes 4 0) ++
  leBytes 4 (if up then maskOf 32 (portUp s) else 0) ++ leBytes 1 (if up then maskOf 8 (stackUp s) else 0) ++
  leBytes 1 (maskOf 5 (fun i => !refHere s ([RefClk.sys, .cxl, .ddr, .eth0, .eth1].getD i .sys))) ++
  leBytes 1 (coresMask s) ++ leBytes 1 0 ++ leBytes 8 s.time ++
  leBytes 8 ((ctls.map (fun k => (s.ctl k).ceCount)).sum) ++ leBytes 8 ((ctls.map (fun k => (s.ctl k).ueCount)).sum) ++
  leBytes 8 (s.box.seq - 1) ++ leBytes 8 0

/-- HEALTH. -/
def execHealth (target : I3cTarget) (frame : List Byte) (s : State) : Out :=
  done (s.mgmtRequest target frame (· == 2) (some 0) (fun _ s => (.ok, healthPayload s, s)))

/-- A cap is accepted: applied from the next control period, or kept in the black box at once where no period runs (19 R454). -/
def State.capOverI3c (s : State) (w : Nat) : State :=
  let s := s.onPower (fun p => { p with next := some (2 * w + 1) })
  if powerRuns s then s else s.takeCap

/-- CAP_SET. -/
def execCapSet (target : I3cTarget) (frame : List Byte) (s : State) : Out :=
  done (s.mgmtRequest target frame (· == 3) (if target = .main then some 4 else none) (fun b s =>
    let w := fld b 0 4
    if target = .second then (.unsupported, [], s)
    else if w < 700 || 2800 < w then (.invalid, [], s)
    else (if s.power.floor then .capFloor else .ok, [], s.capOverI3c w)))

/-- BB_READ: raw bytes of the MRAM (20 R477). -/
def execBbRead (target : I3cTarget) (frame : List Byte) (s : State) : Out :=
  done (s.mgmtRequest target frame (· == 4) (some 4) (fun b s =>
    let o := fld b 0 4
    if 0x1000000 ≤ o || o % 256 ≠ 0 then (.invalid, [], s) else (.ok, boxRead s o 256, s)))

/-- I3C_RESET: the response is posted, and read, before the device reset begins; the start takes the mode of 18 R424. -/
def execI3cReset (target : I3cTarget) (frame : List Byte) (s : State) : Out :=
  done (
    let s' := s.mgmtRequest target frame (· == 5) (if target = .main then some 4 else none) (fun b s =>
      if target = .second then (.unsupported, [], s) else if fld b 0 4 ≠ 0x52535444 then (.invalid, [], s) else (.ok, [], s))
    if target = .main && s'.i3c.resp = some (responseFrame frame .ok []) && fld frame 0 1 = 5 && s.i3c.addr.isSome && coresRun s then
      (s'.deviceReset 2 (storedMode s')).onI3c (fun x => { x with lastRead := responseFrame frame .ok [] })
    else s')

/-- I3C_UNSUPPORTED_OP. -/
def execI3cUnsupportedOp (target : I3cTarget) (frame : List Byte) (s : State) : Out :=
  done (s.mgmtRequest target frame (fun op => !(1 ≤ op && op ≤ 5)) none (fun _ s => (.unsupported, [], s)))

/-- I3C_RESPONSE_READ: the response, or the single byte 0x00. -/
def execI3cResponseRead (target : I3cTarget) (s : State) : Out :=
  done (s.ccc target (fun x =>
    if x.addr.isNone then x
    else match x.resp with
      | some r => { x with resp := none, lastRead := r }
      | none => { x with lastRead := [0] }))

end Sys2Proof.Machine
end

