-- ==== Sys2Proof/Machine/Registers.lean ====
section
/-!
DEFINITION. REGISTER_WRITE: the registers that can be written and have no command of their own. A read-only or reserved field keeps
its value.
-/

namespace Sys2Proof.Machine

/-- An access of BAR0 that is not ignored (17 R400): aligned, of 32 or 64 bits. -/
def barAccess (off width : Nat) : Bool := (width == 32 && off % 4 == 0) || (width == 64 && off % 8 == 0)

/-- A register's value after an access to its bytes from `byte`. -/
def mergeBits (old byte width v : Nat) : Nat := setBits old (8 * byte + width - 1) (8 * byte) v

/-- A vector of the MSI-X table that is no longer masked sends its pending message (17 R400; notes/assumptions/9.md). -/
def State.unmasked (s : State) (v : Nat) : State :=
  if !msixMasked s v && s.qb.msixPending.contains v then
    s.onQb (fun b => { b with msixPending := b.msixPending.filter (· != v), msixSent := v :: b.msixSent })
  else s

/-- A write to BAR0 by the host, over a link that is up (00 R4, 10 R229, 17 R400). The bases of queue 0 are ignored while it exists. -/
def barWrite (off width v : Nat) (s : State) : State :=
  if !barAccess off width || !cxlUp s then s
  else if 0x20000 ≤ off && off < 0x28000 then
    let k := (off - 0x20000) / 16
    let old := (Tab.get msixDefault s.qb.msixTable k).toNat
    (s.onQb (fun b => { b with msixTable := Tab.put b.msixTable k (BitVec.ofNat 128 (mergeBits old ((off - 0x20000) % 16) width v)) })).unmasked k
  else
    let w (old : W64) : W64 := BitVec.ofNat 64 (mergeBits old.toNat (off % 8) width v)
    match off / 8 * 8 with
    | 0x10008 => if aqEnabled s then s else s.onQb (fun b => { b with aqSqBase := w b.aqSqBase })
    | 0x10010 => if aqEnabled s then s else s.onQb (fun b => { b with aqCqBase := w b.aqCqBase })
    | 0x10020 => s.onQb (fun b => { b with wrr := w b.wrr })
    | _ => s

/-- A region entry's low word (12 R276); a reserved CODE is not taken (notes/assumptions/49.md). -/
def regionLow (r : Region) (v : Nat) : Region :=
  if 2 ≤ bits v 2 1 then r else
  { r with valid := v.testBit 0, light := v.testBit 1, hearth := v.testBit 3,
           owner := if v.testBit 4 then some (bits v 8 5) else none, ownerReg := bits v 8 5, base := bits v 63 32 }

/-- Outputs of the hash that a controller uses (12 R279). -/
def hashOutputs (k : Nat) : Nat := if k < 8 then 10 else 6

/-- A mask lies within the bits of a controller's offsets: [26:0] of a stack's, and on DDR5 those below the DIMM's capacity, or those
of the slot while the capacity is not known (12 R279). -/
def maskFits (k bytes m : Nat) : Bool :=
  (upto 48).all (fun b => !m.testBit b || 2 ^ b < (if k < 8 then 2 ^ 27 else if bytes = 0 then ddrSlot else bytes))

/-- 12 R279: firmware accepts a mask that includes its own home bit and no other output's, within the controller's bits. -/
def hashAccepted (s : State) (k j v : Nat) : Bool :=
  maskFits k (s.ctl k).bytes (bits v 47 0) && v.testBit (bits v 53 48) &&
  (upto (hashOutputs k)).all (fun i => i == j ||
    (!v.testBit (bits (hashReg s k i).toNat 53 48) && !(hashReg s k i).getLsbD (bits v 53 48)))

/-- A write to a register. -/
def writeReg (r : Reg) (value : W64) (s : State) : State :=
  let v := value.toNat
  match r with
  | .bar0 off width => barWrite off width v s
  | .hbArb k => if 8 ≤ k then s else
      s.onHb (fun t => Tab.upd .init t k (fun d => { d with arb := BitVec.ofNat 32 v &&& 0x00FFFF0F }))
  | .mcRegion k j half => if 20 ≤ k || 32 ≤ j then s else
      s.onCtl k (fun m => { m with regions := Tab.upd .init m.regions j (fun r =>
        if half = 0 then regionLow r v else { r with len := bits v 31 0 }) })
  | .mcHash k j => if 20 ≤ k || 16 ≤ j || (s.ctl k).train = 1 || !hashAccepted s k j v then s else
      s.onCtl k (fun m => { m with hash := Tab.put m.hash j (value &&& 0x803FFFFFFFFFFFFF) })
  | .mcBucket k => if 20 ≤ k then s else s.onCtl k (fun m => { m with threshold := bits v 23 16, leakMs := bits v 47 32 })
  | .mcScrub k => if 20 ≤ k then s else s.onCtl k (fun m => { m with interval := bits v 31 0 })
  | .mcDdrCtl d => if 12 ≤ d then s else s.onCtl (8 + d) (fun m => { m with ddrCtl := value &&& 0x0000FFFFFFFFFF03 })
  | .mcDdrPd d => if 12 ≤ d then s else s.onCtl (8 + d) (fun m => { m with ddrPd := value &&& 0x00000000FFFFFFFF })
  | .ntRoute p => s.onNet (fun n => { n with routes := n.routes.mapIdx (fun i x => if i = p then value &&& 0x3FF else x) })
  | .ntReg i n c => if 96 ≤ i || 14 ≤ n || 4 ≤ c then s else
      s.onUnit i (fun u => { u with regs := Tab.put u.regs (4 * n + c) (value &&& 0xFFFFFFFF) })
  | .ntCrc => s.onNet (fun n => { n with crcCtl := BitVec.ofNat 4 v })
  | .ntProbe i => if 96 ≤ i then s else s.onUnit i (fun u => { u with probeCtl := value &&& 0x00003FFFFFFFFF3F })
  | .epCfg n => if 32 ≤ n then s else
      s.onNimra (fun m => { m with ports := Tab.upd .init m.ports n (fun e => { e with cfg := BitVec.ofNat 32 v }) })

/-- REGISTER_WRITE. -/
def execRegisterWrite (reg : Reg) (value : W64) (s : State) : Out := done (writeReg reg value s)

end Sys2Proof.Machine
end

