-- ==== Sys2Proof/Machine/Telemetry.lean ====
section
/-!
DEFINITION. The telemetry pages of every block and `TELEMETRY_READ` (10 R250). A page is the list of its registers: byte offset and
64-bit value. A counter stops at its maximum (03 R89).
-/

namespace Sys2Proof.Machine

/-- A 4 KiB page; bytes that hold no register are zero. -/
def pageBytes (l : List (Nat × Nat)) : List Byte := l.foldl (fun b x => overlay b x.1 (leBytes 8 x.2)) (leBytes 4096 0)

/-- Counters at consecutive offsets from 0. -/
def counters (l : List Nat) : List (Nat × Nat) := l.zipIdx.map (fun x => (8 * x.2, min x.1 (2 ^ 64 - 1)))

/-- The page is the reader's to read: the device's, or of a cluster of its flask (09 R223). -/
def ownsCluster (s : State) (flask i : Nat) : Bool :=
  flask == 0xFF || (match s.flask? flask with | some f => f.clusters.contains i | none => false)

/-- ... or of an engine of its flask. -/
def ownsEngine (s : State) (flask : Nat) (p : Nat → Bool) : Bool :=
  flask == 0xFF || (match s.flask? flask with | some f => f.hearth.any p | none => false)

/-- MT (03 R89). -/
def mtPage (t : MatrixTile) : List (Nat × Nat) :=
  let c := t.cnt
  counters [c.rowIssue, c.stripDummy, c.stripGated, c.holdOpnd, c.holdWload, c.holdLoop, c.holdOut, c.holdRamp, c.holdCap, c.resident,
    c.eccCorr]

/-- VT (05 R137). -/
def vtPage (t : VectorTile) : List (Nat × Nat) :=
  let c := t.cnt
  counters [c.instr, c.pair, c.dep, c.stream, c.sram, c.sfu, c.cap, c.ctxSave, c.rekey, c.eccCorr] ++
  [(0x50, t.lanes % 128 + if t.lanes < 64 then 128 else 0)]

/-- Code of a context's state (07 R162). -/
def CtxSt.code : CtxSt → Nat
  | .idle => 0 | .filling => 1 | .active => 2 | .paused => 3 | .ending => 4

/-- LD (07 R183). -/
def ldPage (x : Ctx) : List (Nat × Nat) :=
  let c := x.cnt
  let bit (b : Bool) (v : Nat) : Nat := if b then v else 0
  counters [c.bytesIn, c.bytesOut, c.padBytes, c.xlate, c.arb, c.credit, c.bank, c.upstream, c.faults, c.faultCycles, c.rtMiss, c.retry] ++
  [(0x60, x.st.code + bit x.shadow.isSome 8 +
      (match x.cur with | some y => bit (sdRt y.desc) 16 + bit (sdOut y.desc) 32 + bit (sdLink y.desc) 64 | none => 0)),
   (0x68, match x.cur with | some y => y.issued / max 1 y.prog.run % 2 ^ 48 | none => 0)]

/-- HE (06 R157). -/
def hePage (e : Engine) : List (Nat × Nat) :=
  counters [e.linesRead, e.macCycles, e.waitSlot, e.waitX, e.waitGang, e.waitOut, e.nodes, e.eccCorr, e.slotHearth, e.slotExt, e.slotRefresh] ++
  [(0x58, match e.st with | .ok => 1 | .failed => 2 | .reset => 4)]

/-- Code of a queue's state (10 R230). -/
def QSt.code : QSt → Nat
  | .active => 1 | .stopped => 2 | .deleting => 3

/-- The context record of a queue number (10 R230), zero without a queue. -/
def queueRecord (s : State) (n : Nat) : List (Nat × Nat) :=
  match s.queue? n with
  | none => []
  | some q =>
    let o := (cqOwner s q).getD q
    [(0, q.sqBase), (8, o.cqBase),
     (16, q.sqLog + o.cqLog * 2 ^ 5 + q.qclass * 2 ^ 10 + q.st.code * 2 ^ 13 + q.flask * 2 ^ 16 +
        (match q.msix with | some v => v * 2 ^ 24 + 2 ^ 35 | none => 0) + q.cqOf * 2 ^ 36 + if o.phase then 2 ^ 56 else 0),
     (24, q.sqHead + q.sqTail * 2 ^ 16 + o.cqTail * 2 ^ 32 + o.cqHead * 2 ^ 48)]

/-- PW.PART (19 R460). -/
def partWord (p : PartPw) : Nat :=
  p.point % 16 + p.d % 32 * 2 ^ 4 + p.h % 32 * 2 ^ 9 + min p.power 65535 * 2 ^ 16 + ofInt 16 p.temp * 2 ^ 32

/-- Throttle acts somewhere, and limit does (19 R457, R460). -/
def throttleOn (s : State) : Bool := s.power.parts.any (fun x => x.2.throttle) || !s.power.stackHot.isEmpty
def limitOn (s : State) : Bool := s.power.parts.any (fun x => x.2.limit) || !s.power.stackLimit.isEmpty

/-- PW, unit 0 (19 R460). -/
def pwPage (s : State) : List (Nat × Nat) :=
  let p := s.power
  let part (k : Nat) : PartPw := Tab.get .init p.parts k
  let bit (b : Bool) (v : Nat) : Nat := if b then v else 0
  [(0x000, p.power), (0x008, p.cap), (0x010, bit p.floor 1 + bit (throttleOn s) 2 + bit (limitOn s) 4 + bit p.fastCut 8),
   (0x018, p.floorEst), (0x020, p.fixed)] ++
  (upto 4).map (fun k => (0x040 + 8 * k, partWord (part k))) ++
  (upto 4).map (fun k => (0x060 + 8 * k, min (part k).droop (2 ^ 64 - 1))) ++
  (upto 4).map (fun k => (0x080 + 8 * k, min (part k).stretch (2 ^ 64 - 1))) ++
  [(0x0A0, min p.throttleMs (2 ^ 64 - 1)), (0x0A8, min p.floorMs (2 ^ 64 - 1))]

/-- PW, unit 1: the phase table (19 R449), of a flask its own range. -/
def phasePage (s : State) (flask : Nat) : List (Nat × Nat) :=
  let mine (n : Nat) : Bool := flask == 0xFF ||
    (match s.flask? flask with | some f => f.phaseBase ≤ n && n < f.phaseBase + f.phaseCount | none => false)
  ((upto 256).filter mine).flatMap (fun n =>
    let e := Tab.get .init s.power.phases n
    [(16 * n, e.pPart.toNat + e.pHearth.toNat * 2 ^ 32),
     (16 * n + 8, e.rate.toNat + e.fsens % 65536 * 2 ^ 32 + e.opLast % 256 * 2 ^ 48 + e.dutyLast % 32 * 2 ^ 56)])

/-- MC.CE_BUCKET (12 R290). -/
def MemCtl.bucketWord (m : MemCtl) : Nat := m.level + m.threshold * 2 ^ 16 + m.leakMs * 2 ^ 32 + if m.armed then 2 ^ 63 else 0

/-- Words of a region entry (12 R276). -/
def regionWords (r : Region) : Nat × Nat :=
  ((if r.valid then 1 else 0) + (if r.light then 2 else 0) + (if r.hearth then 8 else 0) +
    (if r.owner.isSome then 16 else 0) + r.ownerReg * 32 + r.base * 2 ^ 32, r.len)

/-- MC (12 R295). -/
def mcPage (s : State) (k : Nat) : List (Nat × Nat) :=
  let m := s.ctl k
  let ddr (v : Nat) : Nat := if k < 8 then 0 else v
  counters [m.ceCount, m.ueCount, m.poisonRead] ++
  [(0x018, m.bucketWord), (0x020, m.interval + if m.interval = 0 then 0 else 2 ^ 32), (0x028, m.scrubPos), (0x030, m.scrubPasses),
   (0x038, min m.fillBytes (2 ^ 64 - 1)), (0x040, ddr m.ddrCtl.toNat), (0x048, ddr m.ddrPd.toNat),
   (0x050, m.train + m.rate * 2 ^ 8 + (if m.train = 1 then ctlBytes s k / 2 ^ 30 * 2 ^ 16 else 0))] ++
  (upto 16).map (fun j => (0x080 + 8 * j, (hashReg s k j).toNat)) ++
  (upto 8).map (fun j =>
    let r := Tab.get .init m.remap j
    (0x100 + 8 * j, if r.valid then 1 + (if s.poison.contains (ctlBase k + r.line) then 2 else 0) + r.line else 0)) ++
  (upto 32).flatMap (fun j =>
    let w := regionWords (Tab.get .init m.regions j)
    [(0x200 + 16 * j, w.1), (0x208 + 16 * j, w.2)])

/-- USE of the owner of cluster i's trace SRAM, 0 without one. -/
def traceUseOf (s : State) (i : Nat) : Nat := match Tab.find? s.claims (claimKey 1 i) with | some c => c.use | none => 0

/-- NT (15 R366). -/
def ntPage (s : State) (u : Nat) : List (Nat × Nat) :=
  let x := s.unit u
  (upto 4).map (fun c => (8 * c, min (Tab.get 0 x.flits c) (2 ^ 64 - 1))) ++
  (counters [x.secCorr, x.secUncorr, x.crcFail, x.absorbed, x.creditStall, x.regStall, x.probeHits]).map (fun y => (0x20 + y.1, y.2)) ++
  (if u < 96 then [(0x058, x.traceWp % 65536 + (if x.wrapped then 2 ^ 16 else 0) + traceUseOf s u * 2 ^ 17),
      (0x060, x.probeCtl.toNat)] ++
      (upto 56).map (fun k => (0x100 + 8 * k, (Tab.get regDefault x.regs k).toNat))
    else []) ++
  (if 96 ≤ u && u < 112 && u % 4 = 0 then [(0x068, routeReg s ((u - 96) / 4))] else []) ++
  (if u = 136 then [(0x070, s.net.crcCtl.toNat)] else [])

/-- FP (13 R321). -/
def fpPage (p : FPort) : List (Nat × Nat) :=
  let bit (b : Bool) (v : Nat) : Nat := if b then v else 0
  counters [p.flitsTx, p.flitsRx, p.refused, p.absorbed, p.reads, p.rspWaitMax, p.nodes, p.badDone, p.clkLost, p.capDrop] ++
  [(0x50, bit p.up 1 + bit p.fclk 2 + bit p.reconf 4 + bit p.breach 8 + (p.flask.getD 0xFF) * 2 ^ 8)]

/-- Code of a port's state (16 R372). -/
def PortSt.code : PortSt → Nat
  | .disabled => 0 | .an => 1 | .training => 2 | .align => 3 | .active => 4 | .fallback => 5 | .down => 6

/-- Word of a trained lane (16 R393). -/
def laneWord (e : LaneEq) : Nat :=
  e.ctle % 16 + e.tap1.toNat * 2 ^ 4 + e.tap2.toNat * 2 ^ 12 + e.tap3.toNat * 2 ^ 20 + e.margin % 4096 * 2 ^ 32

/-- EP (16 R393). The attempt is the item of R373's list, 0 while the port is DISABLED (notes/assumptions/47.md). -/
def epPage (s : State) (n : Nat) : List (Nat × Nat) :=
  let e := s.eport n
  let lost := (s.nimra.peers.filter (fun x => x.1 / 4096 == n && !x.2.up)).length
  [(0x00, e.st.code + (if e.g400 then 8 else 0) + e.lanes % 16 * 16 + (if e.st = .disabled then 0 else (e.attempt / 2 + 1) % 4 * 256)),
   (0x08, e.cfg.toNat)] ++
  (counters [e.txFrames, e.rxFrames, e.rxDrop, e.crcFail, e.fecCorr, e.fecUncorr, e.retx, e.ecnCe, e.linkDowns, e.dupNode, lost]).map
    (fun y => (0x10 + y.1, y.2)) ++
  (e.laneEq.take 4).zipIdx.map (fun y => (0x68 + 8 * y.2, laneWord y.1))

/-- CE (16 R394, R395), zero for a group that does not exist. -/
def cePage (s : State) (g : Nat) : List (Nat × Nat) :=
  match s.group? g with
  | none => []
  | some x => [(0x00, 1 + x.flask * 16 + (x.members.length - 1) * 2 ^ 16 + x.rank * 2 ^ 32)] ++
    (counters [x.lastSeq, x.nodes, x.bytesTx, x.bytesRx, x.aborts]).map (fun y => (8 + y.1, y.2)) ++
    [(0x30, x.lateRank % 4096 + x.lateMargin * 2 ^ 32), (0x38, min x.waitTotal (2 ^ 64 - 1))]

/-- SP (14 R341). -/
def spPage (s : State) : List (Nat × Nat) :=
  let p := s.sprue
  let bit (b : Bool) (v : Nat) : Nat := if b then v else 0
  [(0x00, p.shell + bit p.cur.isSome 4 + bit p.keyValid 8 + bit p.vbattLost 16 +
      (match p.loadErr with | some st => st.code * 2 ^ 16 + p.errId * 2 ^ 32 | none => 0))] ++
  (counters [p.loads, p.fails, p.authFails, p.bytes, p.queue.length % 256]).map (fun y => (8 + y.1, y.2))

/-- A claimed resource may be read by its owner and by the device (15 R368, 20 R465). -/
def claimReader (s : State) (k flask : Nat) : Bool :=
  flask == 0xFF || (match Tab.find? s.claims k with | some c => c.owner == flask | none => false)

/-- One page of trace SRAM (15 R368). -/
def trPage (s : State) (u : Nat) : List Byte := readTab hostDefault s.net.trace (4096 * u) 4096

/-- TM (20 R465). -/
def tmPage (s : State) (u : Nat) : List (Nat × Nat) :=
  match Tab.find? s.claims (claimKey 3 u) with
  | some c => [(0, (s.time - c.since) % 2 ^ 64), (8, c.owner)]
  | none => []

/-- The range, the reader and the presence of a unit (10 R250), then its page. -/
def pageIf (range own there : Bool) (page : List (Nat × Nat)) : Except Stat (List Byte) :=
  if !range || !own then .error .invalid else if !there then .error .notPresent else .ok (pageBytes page)

/-- The page of a block's unit for a reader, or the status of 10 R250. A memory controller is there whether or not its memory is
(12 R295: MC.TRAIN reads 0 for absent memory; notes/assumptions/48.md). -/
def telemetryPage (s : State) (flask block u : Nat) : Except Stat (List Byte) :=
  let dev := flask == 0xFF
  match block with
  | 0x01 => pageIf (u < 384) (ownsCluster s flask (u / 4)) (exposed s (u / 4)) (mtPage (Tab.get .init s.mt u))
  | 0x02 => pageIf (u < 192) (ownsCluster s flask (u / 2)) (exposed s (u / 2)) (vtPage (Tab.get .init s.vt u))
  | 0x03 => pageIf (u < 3072) (ownsCluster s flask (u / 32)) (exposed s (u / 32)) (ldPage (s.ctx u))
  | 0x04 => pageIf (u < 512) (ownsEngine s flask (· == u)) (stackUp s (u / 64)) (hePage (Tab.get .init s.he u))
  | 0x05 => pageIf (u < 8) (ownsEngine s flask (fun e => e / 64 == u)) (stackUp s u) [(0, (s.die u).arb.toNat)]
  | 0x06 => pageIf (u < 2 ^ 20) (dev || (match s.queue? u with | some q => q.flask == flask | none => true)) true (queueRecord s u)
  | 0x10 => pageIf (u < 2) (dev || u == 1) true (if u = 0 then pwPage s else phasePage s flask)
  | 0x11 => pageIf (u < 20) dev true (mcPage s u)
  | 0x12 => pageIf (u < 137) (dev || (u < 96 && ownsCluster s flask u)) (96 ≤ u || exposed s u) (ntPage s u)
  | 0x13 => pageIf (u < 384) (ownsCluster s flask (u / 4)) (exposed s (u / 4)) (fpPage (s.fport u))
  | 0x14 => pageIf (u < 32) dev true (epPage s u)
  | 0x15 =>
    if 1536 ≤ u || !claimReader s (claimKey 1 (u / 16)) flask then .error .invalid
    else if !exposed s (u / 16) then .error .notPresent else .ok (trPage s u)
  | 0x16 => pageIf (u < 256) (dev || (match s.group? u with | some x => x.flask == flask | none => true)) true (cePage s u)
  | 0x17 => pageIf (u < 32) (claimReader s (claimKey 3 u) flask) true (tmPage s u)
  | 0x18 => pageIf (u == 0) dev true (spPage s)
  | _ => .error .invalid

/-- TELEMETRY_READ (10 R250). -/
def execTelemetryRead (cid : Nat) (bad : Bool) (s : State) : Out :=
  done (s.accepted cid (fun c => c.opcode == 0x0F) (fun c s =>
    let off := c.p 16 2
    let len := c.p 18 2
    if !c.reserved 1 3 || !c.reserved 20 47 || c.p 8 8 % 64 ≠ 0 || off % 64 ≠ 0 || len < 64 || len % 64 ≠ 0 || 4096 < off + len then
      s.failCmd cid .invalid
    else match telemetryPage s c.flask (c.p 0 1) (c.p 4 4) with
      | .error st => s.failCmd cid st
      | .ok b => if bad then s.failCmd cid .uncorrectable else (s.hostWrite (c.p 8 8) (slice b off len)).finish cid .ok (leBytes 8 s.time)))

end Sys2Proof.Machine
end

