-- ==== Sys2Proof/Machine/Thermal.lean ====
section
/-!
DEFINITION. Temperature: refresh, throttle, limit and shutdown (19 R456 to R458).
-/

namespace Sys2Proof.Machine

/-! ## Readings (19 R456) -/

/-- Readings of the sensors of partition p: its exposed clusters' and its own two. -/
def partTemps (s : State) (t : Temps) (p : Nat) : List Int :=
  (clustersOf s p).map (fun i => t.clusters.getD i 0) ++ [t.parts.getD (2 * p) 0, t.parts.getD (2 * p + 1) 0]

/-- The hottest of some readings. -/
def hottestOf (l : List Int) : Int := l.foldl max (l.headD 0)

/-- A threshold with its hysteresis: it begins to act at `on`, and stops at `off` or less. -/
def trips (acting : Bool) (on off t : Int) : Bool := on ≤ t || (acting && off < t)

/-! ## Throttle and limit (19 R457) -/

/-- The rows of a partition: a limit sets point 0 and d = 1 at once. PX sensors count for every partition. -/
def State.heatPart (s : State) (t : Temps) (p : Nat) : State :=
  let own := hottestOf (partTemps s t p)
  let hot := max own (hottestOf (t.px.take 4))
  s.onPart p (fun x =>
    let throttle := trips x.throttle 100 98 hot
    let limit := trips x.limit 105 100 hot
    let x := { x with temp := own, throttle, limit, cuts := if throttle then x.cuts else 0 }
    if limit then { x.moveTo (stretching s p) 0 with d := 1, rising := none, target := pointMv 0 (mouldIn s p) } else x)

/-- The rows of a stack. -/
def State.heatStack (s : State) (t : Temps) (k : Nat) : State :=
  let r := t.hbm.getD k 0
  let s := s.onCtl k (fun m => { m with hot := 85 < r })
  s.onPower (fun w =>
    let hot := trips (Tab.has w.stackHot k) 95 93 r
    let lim := trips (w.stackLimit.contains k) 100 95 r
    { w with
      stackHot := if !hot then Tab.del w.stackHot k else if Tab.has w.stackHot k then w.stackHot else Tab.put w.stackHot k 0
      stackLimit := if lim then numInsert w.stackLimit k else w.stackLimit.filter (· != k) })

/-- The hearth duty at which a stack runs: its partition's h, less 10 % for each period of throttle, or 1 under limit. -/
def stackDuty (s : State) (k : Nat) : Nat :=
  let h := (s.partPw (k / 2)).h
  if s.power.stackLimit.contains k then min 1 h
  else match Tab.find? s.power.stackHot k with
    | some c => max (min 1 h) (h * 9 ^ c / 10 ^ c)
    | none => h

/-! ## Shutdown (19 R458) -/

/-- The sensor that trips, with its class, its index and its reading: the first in the order of 20 R472. -/
def trippedBy (s : State) (t : Temps) : Option (Nat × Nat × Int) :=
  let at' (cls : Nat) (on : Int) (l : List (Nat × Int)) : Option (Nat × Nat × Int) := (l.find? (fun x => on ≤ x.2)).map (fun x => (cls, x))
  let of (n : Nat) (l : List Int) : List (Nat × Int) := (upto n).map (fun i => (i, l.getD i 0))
  (at' 0 115 ((of 96 t.clusters).filter (fun x => exposed s x.1))).orElse (fun _ =>
    (at' 1 115 (of 8 t.parts)).orElse (fun _ => (at' 2 115 (of 4 t.px)).orElse (fun _ => at' 3 105 (of 8 t.hbm))))

/-- A shutdown: the record commits, THERMTRIP_N is asserted, the work is lost as under a device reset, and the device is at level 0; a
PX sensor also stops the management cores. -/
def State.shutDown (s : State) (x : Nat × Nat × Int) : State :=
  let s := if s.boot.level = 0 then s else s.setLevel 0
  let s := (s.logRec 0x15 0xFF (leBytes 1 x.1 ++ leBytes 2 x.2.1 ++ leBytes 1 0 ++ leBytes 2 (ofInt 16 x.2.2) ++ leBytes 2 0 ++
    leBytes 8 s.time)).commitQueue
  let boot := { s.boot with phase := if x.1 = 2 then .dead else .halted, level := 0, ready := false, shutdown := true, found := [], held := none }
  let w := s.wipe
  { w with
    boot, cores := s.cores, i3c := s.i3c, board := { w.board with thermtrip := true }
    power := { Power.init with cap := s.power.cap, next := s.power.next, temps := s.power.temps } }

/-- THERMAL_SAMPLE. -/
def execThermalSample (temps : Temps) (s : State) : Out :=
  done (
    if !coresRun s then s else
    let s := s.onPower (fun w => { w with temps := some temps })
    if s.boot.phase = .halted then s else
    match trippedBy s temps with
    | some x => s.shutDown x
    | none =>
      let was := throttling s
      let s := (upto 4).foldl (fun (s : State) p => s.heatPart temps p) s
      let s := (upto 8).foldl (fun (s : State) k => s.heatStack temps k) s
      if throttling s = was then s else s.ibi 2)

end Sys2Proof.Machine
end

