-- ==== Sys2Proof/Machine/Dispatch.lean ====
section
/-!
DEFINITION. The meaning of every command: one arm per constructor of Instr, each a direct call of its own definition.
-/

namespace Sys2Proof.Machine

def exec (i : Instr) (s : State) : Host.Outcome State Fault Refusal :=
  match i with
  | .identify cid bad => Sys2Proof.Machine.execIdentify cid bad s
  | .queueCreate cid => Sys2Proof.Machine.execQueueCreate cid s
  | .queueDelete cid => Sys2Proof.Machine.execQueueDelete cid s
  | .flaskCreate cid => Sys2Proof.Machine.execFlaskCreate cid s
  | .flaskDestroy cid => Sys2Proof.Machine.execFlaskDestroy cid s
  | .memMap cid => Sys2Proof.Machine.execMemMap cid s
  | .memMapRegion cid => Sys2Proof.Machine.execMemMapRegion cid s
  | .memMapMigrate cid => Sys2Proof.Machine.execMemMapMigrate cid s
  | .memUnmap cid => Sys2Proof.Machine.execMemUnmap cid s
  | .memUnmapRegion cid => Sys2Proof.Machine.execMemUnmapRegion cid s
  | .memFill cid => Sys2Proof.Machine.execMemFill cid s
  | .fwLoad cid => Sys2Proof.Machine.execFwLoad cid s
  | .fwLoadShell cid => Sys2Proof.Machine.execFwLoadShell cid s
  | .fwLoadProvisioning cid => Sys2Proof.Machine.execFwLoadProvisioning cid s
  | .mouldLoad cid => Sys2Proof.Machine.execMouldLoad cid s
  | .mouldLoadShell cid => Sys2Proof.Machine.execMouldLoadShell cid s
  | .mouldLoadKey cid => Sys2Proof.Machine.execMouldLoadKey cid s
  | .mouldUnload cid => Sys2Proof.Machine.execMouldUnload cid s
  | .patternRegister cid => Sys2Proof.Machine.execPatternRegister cid s
  | .patternRemove cid => Sys2Proof.Machine.execPatternRemove cid s
  | .resetTile cid => Sys2Proof.Machine.execResetTile cid s
  | .resetCluster cid => Sys2Proof.Machine.execResetCluster cid s
  | .resetHearthEngine cid => Sys2Proof.Machine.execResetHearthEngine cid s
  | .resetPartition cid => Sys2Proof.Machine.execResetPartition cid s
  | .resetDevice cid => Sys2Proof.Machine.execResetDevice cid s
  | .resetComplete cid => Sys2Proof.Machine.execResetComplete cid s
  | .powerCapSet cid => Sys2Proof.Machine.execPowerCapSet cid s
  | .telemetryRead cid bad => Sys2Proof.Machine.execTelemetryRead cid bad s
  | .blackboxRead cid bad => Sys2Proof.Machine.execBlackboxRead cid bad s
  | .defectListRead cid bad => Sys2Proof.Machine.execDefectListRead cid bad s
  | .resourceClaim cid => Sys2Proof.Machine.execResourceClaim cid s
  | .resourceRelease cid => Sys2Proof.Machine.execResourceRelease cid s
  | .nodeConfig cid => Sys2Proof.Machine.execNodeConfig cid s
  | .portDisable cid => Sys2Proof.Machine.execPortDisable cid s
  | .portEnable cid => Sys2Proof.Machine.execPortEnable cid s
  | .retrain cid => Sys2Proof.Machine.execRetrain cid s
  | .groupCreate cid => Sys2Proof.Machine.execGroupCreate cid s
  | .groupDestroy cid => Sys2Proof.Machine.execGroupDestroy cid s
  | .startMode cid => Sys2Proof.Machine.execStartMode cid s
  | .probeFilter cid => Sys2Proof.Machine.execProbeFilter cid s
  | .clusterTest cid => Sys2Proof.Machine.execClusterTest cid s
  | .nop cid => Sys2Proof.Machine.execNop cid s
  | .heatSubmit cid => Sys2Proof.Machine.execHeatSubmit cid s
  | .heatAbort cid => Sys2Proof.Machine.execHeatAbort cid s
  | .heatQuery cid => Sys2Proof.Machine.execHeatQuery cid s
  | .copy cid => Sys2Proof.Machine.execCopy cid s
  | .copyPieceDone cid bad => Sys2Proof.Machine.execCopyPieceDone cid bad s
  | .fence cid => Sys2Proof.Machine.execFence cid s
  | .serveOpen cid => Sys2Proof.Machine.execServeOpen cid s
  | .serveRequest cid bad => Sys2Proof.Machine.execServeRequest cid bad s
  | .serveCancel cid => Sys2Proof.Machine.execServeCancel cid s
  | .serveClose cid => Sys2Proof.Machine.execServeClose cid s
  | .aqCfgWrite value => Sys2Proof.Machine.execAqCfgWrite value s
  | .sqDoorbell width value host => Sys2Proof.Machine.execSqDoorbell width value host s
  | .cqDoorbell width value => Sys2Proof.Machine.execCqDoorbell width value s
  | .registerWrite reg value => Sys2Proof.Machine.execRegisterWrite reg value s
  | .intakeFetch bad => Sys2Proof.Machine.execIntakeFetch bad s
  | .packetAccept qnum => Sys2Proof.Machine.execPacketAccept qnum s
  | .completionPost cq bad => Sys2Proof.Machine.execCompletionPost cq bad s
  | .deviceEventPost bad => Sys2Proof.Machine.execDeviceEventPost bad s
  | .commandTimeout cid => Sys2Proof.Machine.execCommandTimeout cid s
  | .heatLoadBegin flask => Sys2Proof.Machine.execHeatLoadBegin flask s
  | .flaskMemoryReadDone fault => Sys2Proof.Machine.execFlaskMemoryReadDone fault s
  | .nodeDispatch => Sys2Proof.Machine.execNodeDispatch  s
  | .hearthDispatchResume fault => Sys2Proof.Machine.execHearthDispatchResume fault s
  | .hostSignal flask heat node bad => Sys2Proof.Machine.execHostSignal flask heat node bad s
  | .nodeComplete flask heat node bad => Sys2Proof.Machine.execNodeComplete flask heat node bad s
  | .nodeRecordWrite flask heat node bad => Sys2Proof.Machine.execNodeRecordWrite flask heat node bad s
  | .heatComplete flask heat => Sys2Proof.Machine.execHeatComplete flask heat s
  | .nodeTimeout flask heat node arrival => Sys2Proof.Machine.execNodeTimeout flask heat node arrival s
  | .heatTimeout flask heat => Sys2Proof.Machine.execHeatTimeout flask heat s
  | .readyAgeing flask heat node => Sys2Proof.Machine.execReadyAgeing flask heat node s
  | .vectorPreempt tile ecc => Sys2Proof.Machine.execVectorPreempt tile ecc s
  | .vectorResume tile => Sys2Proof.Machine.execVectorResume tile s
  | .matrixNodeStart cluster => Sys2Proof.Machine.execMatrixNodeStart cluster s
  | .weightLoadDone tile => Sys2Proof.Machine.execWeightLoadDone tile s
  | .rowCycle tile ecc loop => Sys2Proof.Machine.execRowCycle tile ecc loop s
  | .activityLevelStep tile gap => Sys2Proof.Machine.execActivityLevelStep tile gap s
  | .tileHoldResume tile cycles planned waits => Sys2Proof.Machine.execTileHoldResume tile cycles planned waits s
  | .matrixNodeEnd tile => Sys2Proof.Machine.execMatrixNodeEnd tile s
  | .vectorNodeStart cluster => Sys2Proof.Machine.execVectorNodeStart cluster s
  | .programFetchDone tile => Sys2Proof.Machine.execProgramFetchDone tile s
  | .vectorArithmetic n op => Sys2Proof.Machine.execVectorArithmetic n op s
  | .vectorInteger n op => Sys2Proof.Machine.execVectorInteger n op s
  | .specialFunction n fn => Sys2Proof.Machine.execSpecialFunction n fn s
  | .vcvt n => Sys2Proof.Machine.execVcvt n s
  | .vrsum n op => Sys2Proof.Machine.execVrsum n op s
  | .vrmaxi n => Sys2Proof.Machine.execVrmaxi n s
  | .vperm n => Sys2Proof.Machine.execVperm n s
  | .vbcast n => Sys2Proof.Machine.execVbcast n s
  | .vrand n => Sys2Proof.Machine.execVrand n s
  | .vld n => Sys2Proof.Machine.execVld n s
  | .vst n => Sys2Proof.Machine.execVst n s
  | .scalarOp n op => Sys2Proof.Machine.execScalarOp n op s
  | .cset n c base len space strm cluster => Sys2Proof.Machine.execCset n c base len space strm cluster s
  | .abind n a c => Sys2Proof.Machine.execAbind n a c s
  | .amov n a v => Sys2Proof.Machine.execAmov n a v s
  | .predicateOp n op => Sys2Proof.Machine.execPredicateOp n op s
  | .loop n count body stages rot => Sys2Proof.Machine.execLoop n count body stages rot s
  | .br n target cond => Sys2Proof.Machine.execBr n target cond s
  | .csr n write r => Sys2Proof.Machine.execCsr n write r s
  | .yield n => Sys2Proof.Machine.execYield n s
  | .endProgram n => Sys2Proof.Machine.execEndProgram n s
  | .hearthGangStart stack => Sys2Proof.Machine.execHearthGangStart stack s
  | .hearthNodeEnd stack run bad => Sys2Proof.Machine.execHearthNodeEnd stack run bad s
  | .hearthEngineFail stack engine => Sys2Proof.Machine.execHearthEngineFail stack engine s
  | .hbmSlotGrant stack pc claims => Sys2Proof.Machine.execHbmSlotGrant stack pc claims s
  | .hbmRefresh stack pc => Sys2Proof.Machine.execHbmRefresh stack pc s
  | .streamArm cluster => Sys2Proof.Machine.execStreamArm cluster s
  | .ladleRequestIssue cluster rates => Sys2Proof.Machine.execLadleRequestIssue cluster rates s
  | .ladleResponse cluster ctx req err lost => Sys2Proof.Machine.execLadleResponse cluster ctx req err lost s
  | .partnerRelease cluster ctx bytes stall => Sys2Proof.Machine.execPartnerRelease cluster ctx bytes stall s
  | .streamComplete cluster ctx => Sys2Proof.Machine.execStreamComplete cluster ctx s
  | .pageResident flask va => Sys2Proof.Machine.execPageResident flask va s
  | .pageFaultService fault => Sys2Proof.Machine.execPageFaultService fault s
  | .faultPatienceExpiry fault => Sys2Proof.Machine.execFaultPatienceExpiry fault s
  | .pageMoveDone flask va bad => Sys2Proof.Machine.execPageMoveDone flask va bad s
  | .memoryRead ctrl offset err q => Sys2Proof.Machine.execMemoryRead ctrl offset err q s
  | .memoryWrite ctrl offset data q => Sys2Proof.Machine.execMemoryWrite ctrl offset data q s
  | .regionFillDone cid => Sys2Proof.Machine.execRegionFillDone cid s
  | .memFillDone cid => Sys2Proof.Machine.execMemFillDone cid s
  | .scrubRead ctrl err => Sys2Proof.Machine.execScrubRead ctrl err s
  | .ceBucketLeak ctrl => Sys2Proof.Machine.execCeBucketLeak ctrl s
  | .ddr5Refresh chan rank bank => Sys2Proof.Machine.execDdr5Refresh chan rank bank s
  | .ddr5RowIdleClose chan bank => Sys2Proof.Machine.execDdr5RowIdleClose chan bank s
  | .ddr5PowerDown chan rank => Sys2Proof.Machine.execDdr5PowerDown chan rank s
  | .ddr5SelfRefresh chan rank => Sys2Proof.Machine.execDdr5SelfRefresh chan rank s
  | .dimmTemperatureRead chan temp => Sys2Proof.Machine.execDimmTemperatureRead chan temp s
  | .flitForward unit out link err => Sys2Proof.Machine.execFlitForward unit out link err s
  | .networkResponseTimeout cluster port tag => Sys2Proof.Machine.execNetworkResponseTimeout cluster port tag s
  | .sinkBoundExpiry port cls => Sys2Proof.Machine.execSinkBoundExpiry port cls s
  | .fclkLoss port => Sys2Proof.Machine.execFclkLoss port s
  | .fabricPortEnable port => Sys2Proof.Machine.execFabricPortEnable port s
  | .readRequest port lines => Sys2Proof.Machine.execReadRequest port lines s
  | .lineWrite port va tag data => Sys2Proof.Machine.execLineWrite port va tag data s
  | .endpointMessage port endpoint tag data => Sys2Proof.Machine.execEndpointMessage port endpoint tag data s
  | .streamOutput port ctx last data => Sys2Proof.Machine.execStreamOutput port ctx last data s
  | .fabricCompletion port dtag word result => Sys2Proof.Machine.execFabricCompletion port dtag word result s
  | .fabricRxDeliver port cls waited => Sys2Proof.Machine.execFabricRxDeliver port cls waited s
  | .captureSample cluster data => Sys2Proof.Machine.execCaptureSample cluster data s
  | .mouldLoadBegin => Sys2Proof.Machine.execMouldLoadBegin  s
  | .signatureVerified => Sys2Proof.Machine.execSignatureVerified  s
  | .imageRecord => Sys2Proof.Machine.execImageRecord  s
  | .pllLock part pll => Sys2Proof.Machine.execPllLock part pll s
  | .lockWait => Sys2Proof.Machine.execLockWait  s
  | .initEnd => Sys2Proof.Machine.execInitEnd  s
  | .writesOn => Sys2Proof.Machine.execWritesOn  s
  | .borderOpen => Sys2Proof.Machine.execBorderOpen  s
  | .blockRamWindowAccess addr write data portA => Sys2Proof.Machine.execBlockRamWindowAccess addr write data portA s
  | .vbattLost => Sys2Proof.Machine.execVbattLost  s
  | .anAgreement port mode => Sys2Proof.Machine.execAnAgreement port mode s
  | .anRestart port => Sys2Proof.Machine.execAnRestart port s
  | .trainingDone port lanes => Sys2Proof.Machine.execTrainingDone port lanes s
  | .trainingTimeout port => Sys2Proof.Machine.execTrainingTimeout port s
  | .alignDone port => Sys2Proof.Machine.execAlignDone port s
  | .alignTimeout port => Sys2Proof.Machine.execAlignTimeout port s
  | .linkLoss port words => Sys2Proof.Machine.execLinkLoss port words s
  | .data port p => Sys2Proof.Machine.execData port p s
  | .ack port p rtt => Sys2Proof.Machine.execAck port p rtt s
  | .ready port p => Sys2Proof.Machine.execReady port p s
  | .rnr port p => Sys2Proof.Machine.execRnr port p s
  | .nack port p => Sys2Proof.Machine.execNack port p s
  | .abort port p => Sys2Proof.Machine.execAbort port p s
  | .probe port p => Sys2Proof.Machine.execProbe port p s
  | .ackTimer port peer => Sys2Proof.Machine.execAckTimer port peer s
  | .resendTimeout port peer psn => Sys2Proof.Machine.execResendTimeout port peer psn s
  | .probeTimer port => Sys2Proof.Machine.execProbeTimer port s
  | .reduceSegmentDone group rank => Sys2Proof.Machine.execReduceSegmentDone group rank s
  | .collectiveComplete flask heat node => Sys2Proof.Machine.execCollectiveComplete flask heat node s
  | .decodeStep loop => Sys2Proof.Machine.execDecodeStep loop s
  | .prefillStep loop => Sys2Proof.Machine.execPrefillStep loop s
  | .stepComplete loop prefill => Sys2Proof.Machine.execStepComplete loop prefill s
  | .unpark session bad => Sys2Proof.Machine.execUnpark session bad s
  | .cxlMemRead hpa cacheable exclusive err => Sys2Proof.Machine.execCxlMemRead hpa cacheable exclusive err s
  | .cxlMemWrite hpa data poison => Sys2Proof.Machine.execCxlMemWrite hpa data poison s
  | .memWrPtl hpa => Sys2Proof.Machine.execMemWrPtl hpa s
  | .biRsp line => Sys2Proof.Machine.execBiRsp line s
  | .biTimeout line => Sys2Proof.Machine.execBiTimeout line s
  | .hostSnoop line => Sys2Proof.Machine.execHostSnoop line s
  | .hdmDecoderCommit index base size dpa => Sys2Proof.Machine.execHdmDecoderCommit index base size dpa s
  | .cxlPortReset perst => Sys2Proof.Machine.execCxlPortReset perst s
  | .cxlLinkUp width rate => Sys2Proof.Machine.execCxlLinkUp width rate s
  | .doeRequest bytes read => Sys2Proof.Machine.execDoeRequest bytes read s
  | .doeAbort => Sys2Proof.Machine.execDoeAbort  s
  | .doeDiscovery index => Sys2Proof.Machine.execDoeDiscovery index s
  | .cdatRead entry => Sys2Proof.Machine.execCdatRead entry s
  | .getVersion => Sys2Proof.Machine.execGetVersion  s
  | .getCapabilities => Sys2Proof.Machine.execGetCapabilities  s
  | .negotiateAlgorithms rsaPss3072 sha256 => Sys2Proof.Machine.execNegotiateAlgorithms rsaPss3072 sha256 s
  | .getDigests => Sys2Proof.Machine.execGetDigests  s
  | .getCertificate slot offset length => Sys2Proof.Machine.execGetCertificate slot offset length s
  | .challenge slot nonce => Sys2Proof.Machine.execChallenge slot nonce s
  | .getMeasurements index sign nonce => Sys2Proof.Machine.execGetMeasurements index sign nonce s
  | .spdmUnsupported code => Sys2Proof.Machine.execSpdmUnsupported code s
  | .entdaa target addr => Sys2Proof.Machine.execEntdaa target addr s
  | .rstdaa target => Sys2Proof.Machine.execRstdaa target s
  | .setnewda target addr => Sys2Proof.Machine.execSetnewda target addr s
  | .getpid target => Sys2Proof.Machine.execGetpid target s
  | .getbcr target => Sys2Proof.Machine.execGetbcr target s
  | .getdcr target => Sys2Proof.Machine.execGetdcr target s
  | .getstatus target => Sys2Proof.Machine.execGetstatus target s
  | .getmwl target => Sys2Proof.Machine.execGetmwl target s
  | .setmwl target len => Sys2Proof.Machine.execSetmwl target len s
  | .getmrl target => Sys2Proof.Machine.execGetmrl target s
  | .setmrl target len => Sys2Proof.Machine.execSetmrl target len s
  | .enec target => Sys2Proof.Machine.execEnec target s
  | .disec target => Sys2Proof.Machine.execDisec target s
  | .ident target frame => Sys2Proof.Machine.execIdent target frame s
  | .health target frame => Sys2Proof.Machine.execHealth target frame s
  | .capSet target frame => Sys2Proof.Machine.execCapSet target frame s
  | .bbRead target frame => Sys2Proof.Machine.execBbRead target frame s
  | .i3cReset target frame => Sys2Proof.Machine.execI3cReset target frame s
  | .i3cUnsupportedOp target frame => Sys2Proof.Machine.execI3cUnsupportedOp target frame s
  | .i3cResponseRead target => Sys2Proof.Machine.execI3cResponseRead target s
  | .coreHeartbeat core => Sys2Proof.Machine.execCoreHeartbeat core s
  | .heartbeatMiss core => Sys2Proof.Machine.execHeartbeatMiss core s
  | .powerOnResetRelease found mem => Sys2Proof.Machine.execPowerOnResetRelease found mem s
  | .retentionPauseEnd mem units => Sys2Proof.Machine.execRetentionPauseEnd mem units s
  | .powerOnResetAssert => Sys2Proof.Machine.execPowerOnResetAssert  s
  | .railOutOfRange rail => Sys2Proof.Machine.execRailOutOfRange rail s
  | .refclkDetected ref => Sys2Proof.Machine.execRefclkDetected ref s
  | .refclkMissing ref => Sys2Proof.Machine.execRefclkMissing ref s
  | .clusterFail cluster cause => Sys2Proof.Machine.execClusterFail cluster cause s
  | .flaskFault flask cmd => Sys2Proof.Machine.execFlaskFault flask cmd s
  | .powerSample watts => Sys2Proof.Machine.execPowerSample watts s
  | .controlPeriod parts fixed sample => Sys2Proof.Machine.execControlPeriod parts fixed sample s
  | .regulatorSettled part => Sys2Proof.Machine.execRegulatorSettled part s
  | .avsReadback part ok mv => Sys2Proof.Machine.execAvsReadback part ok mv s
  | .droopTrip cluster => Sys2Proof.Machine.execDroopTrip cluster s
  | .droopRecover cluster cycles => Sys2Proof.Machine.execDroopRecover cluster cycles s
  | .thermalSample temps => Sys2Proof.Machine.execThermalSample temps s
  | .blackboxCommit => Sys2Proof.Machine.execBlackboxCommit  s
  | .flashProgramDone cid ok => Sys2Proof.Machine.execFlashProgramDone cid ok s
  | .clusterTestDone cid cause => Sys2Proof.Machine.execClusterTestDone cid cause s
  | .perstNRelease => Sys2Proof.Machine.execPerstNRelease  s
  | .receivedFrameDrop port why symbols words => Sys2Proof.Machine.execReceivedFrameDrop port why symbols words s
  | .unassignedClass n => Sys2Proof.Machine.execUnassignedClass n s

end Sys2Proof.Machine
end

