-- ==== Sys2Proof/Safety.lean ====
section
/-!
DEFINITION. What counts as a safe run, in the terms the claims use.
-/

namespace Sys2Proof.Machine

/-- A step goes on: it answers a next state. -/
def StepsOn (s : State) : Prop := ∃ t, step s = .next t

/-- A command answers a next state, of which P holds. -/
def Answers (i : Instr) (s : State) (P : State → Prop) : Prop := ∃ t, exec i s = .next t ∧ P t

/-- An accepted command of opcode op whose row has not run yet (10 R236, R244). -/
structure Fresh (s : State) (cid op : Nat) (c : Cmd) : Prop where
  found : findCmd s cid = some c
  pending : c.work = .pending
  opcode : c.opcode = op

/-- An accepted command whose work is under way. -/
structure Works (s : State) (cid : Nat) (w : Work) (c : Cmd) : Prop where
  found : findCmd s cid = some c
  work : c.work = w

/-- The instruction at a vector tile's PC issues and executes as operation `num` of its class: the tile `t` runs node `r` in service, the
node has not ended and waits for no page, the word `w` of class `k` lies in its program and in its stage, its OP names no other operation,
and its reads find no uncorrectable error (05 R114 to R117, R138). -/
structure Issues (s : State) (i : VIssue) (k num : Nat) (t : VectorTile) (r : VxRun) (w : W64) : Prop where
  tile : s.vtile i.tile = t
  run : t.run = some r
  up : vtileUp s i.tile = true
  issuing : r.issuing = true
  going : r.ended = false
  within : overran s r.heat r.node = false
  resident : readWaits s r.heat r.node = false
  inProgram : t.pc < r.progLen
  word : t.imem.getD t.pc 0 = w
  cls : wCls w = k
  named : (Tab.find? s.vops (opKey w)).getD num = num
  runs : stageRuns t w = some true
  sound : i.ecc ≠ .uncorrectable

/-- The word at the PC of the issuing tile. -/
def State.atPc (s : State) (i : VIssue) : W64 := (s.vtile i.tile).imem.getD (s.vtile i.tile).pc 0

/-- The state as an instruction of run `r` issues as operation `num`: its OP is named, and it is counted with its stalls (05 R117, R137). -/
def State.issued (s : State) (i : VIssue) (r : VxRun) (num : Nat) (rg : List VReg) : State :=
  let t := s.vtile i.tile
  let w := s.atPc i
  ((s.onVops (fun v => Tab.put v (opKey w) num)).onVtile i.tile (fun m => { m with
    cnt := m.cnt.issue i (i.paired && t.mayPair (wCls w) rg) })).unstall r.heat r.node i.stream i.waits

/-- The instruction is counted, and no first of a pair stands before the next. -/
def State.counted (s : State) (i : VIssue) : State :=
  s.onVtile i.tile (fun t => { t with lastA := none, cnt := { t.cnt with instr := t.cnt.instr + 1 } })

/-- The instruction that issued in `s0` is counted, PC moves on, and it may be the first of a pair (05 R113, R114, R117). -/
def State.retired (s : State) (i : VIssue) (s0 : State) (rg : List VReg) : State :=
  (s.counted i).onVtile i.tile (fun t => { t.goto (t.pc + 1) with lastA := (s0.vtile i.tile).asFirst (wCls (s0.atPc i)) rg })

/-- An issued instruction that leaves its tile as `t'`, but for the counts, and retires. -/
def State.executed (s : State) (i : VIssue) (r : VxRun) (num : Nat) (rg : List VReg) (t' : VectorTile) : State :=
  ((s.issued i r num rg).onVtile i.tile (fun m => { t' with cnt := m.cnt })).retired i s rg

/-- `Reaches s t`: some run of steps leads from s to t, each answering a next state. -/
inductive Reaches : State → State → Prop
  | refl (s : State) : Reaches s s
  | step {s t u : State} : Reaches s t → Sys2Proof.Machine.step t = .next u → Reaches s u

/-- A property of states that every step keeps. -/
def Invariant (I : State → Prop) : Prop := ∀ s t, I s → step s = .next t → I t

/-- A relation between the states around every step. -/
def EveryStep (R : State → State → Prop) : Prop := ∀ s t, step s = .next t → R s t

/-- Every memory is in its canonical form: rising addresses, and no entry equal to what an unlisted address reads as. -/
structure MemoriesCanonical (s : State) : Prop where
  device : Tab.canon memDefault s.mem
  host : Tab.canon hostDefault s.host
  mram : Tab.canon hostDefault s.box.mram

/-- Every bit burnt in a is burnt in b, and what no command burns is as it was (18 R431). -/
structure Fuses.Le (a b : Fuses) : Prop where
  aesKey : a.aesKey &&& b.aesKey = a.aesKey
  aesKeySet : a.aesKeySet = true → b.aesKeySet = true
  pkHash : ∀ k, a.pkHash.getD k 0 &&& b.pkHash.getD k 0 = a.pkHash.getD k 0
  pkRevoked : a.pkRevoked &&& b.pkRevoked = a.pkRevoked
  encRequired : a.encRequired = true → b.encRequired = true
  batkeyDisable : a.batkeyDisable = true → b.batkeyDisable = true
  flashPrimary : a.flashPrimary &&& b.flashPrimary = a.flashPrimary
  flashGolden : a.flashGolden &&& b.flashGolden = a.flashGolden
  fwSvn : a.fwSvn &&& b.fwSvn = a.fwSvn
  provLock : a.provLock = true → b.provLock = true
  serial : b.serial = a.serial
  mfrId : b.mfrId = a.mfrId
  deviceSecret : b.deviceSecret = a.deviceSecret

end Sys2Proof.Machine
end

