-- ==== Sys2Proof/Certificates/Slice0/Obligations.lean ====
section
/-!
DEFINITION. What is stated of the device, for the provers. A statement about a command concludes what `exec` answers for every state
and operands that meet the hypotheses; the state it answers is written out in the model's named operations, so that nothing else of
the state changes.
-/

open Sys2Proof Sys2Proof.Machine

/-- Queues and claims (10 R247, R248, R251). A `QUEUE_CREATE` that passes its check creates the queue it describes, active and
empty, and ends with `ST_OK`. A `QUEUE_DELETE` with ABORT marks the queue, ends everything accepted on it, and tries the deletion; a deletion
whose queue is quiet, with no session open on it, removes the queue and ends with `ST_OK`. A `RESOURCE_CLAIM` of a free resource records its owner, its use and the time. A `RESOURCE_RELEASE` by the owner frees the
resource. Nothing else changes. -/
def Obligations.QueueAndClaimCommands : Prop :=
  (∀ s cid c, Fresh s cid 0x02 c → queueCreateCheck s c = .ok →
    exec (.queueCreate cid) s = .next
      ((s.onQb (fun b => { b with queues := Tab.put b.queues (c.p 0 4) {
            sqBase := c.p 8 8, cqBase := c.p 16 8, sqLog := c.p 5 1, cqLog := c.p 6 1, qclass := c.p 4 1, st := .active,
            flask := c.flask, msix := if c.p 28 2 = 0xFFFF then none else some (c.p 28 2)
            cqOf := if c.p 24 4 = 0xFFFFFFFF then c.p 0 4 else c.p 24 4
            phase := true, sqHead := 0, sqTail := 0, cqTail := 0, cqHead := 0, held := none, waiting := [] } })).finish cid .ok zeros16)) ∧
  (∀ s cid c q, Fresh s cid 0x03 c → c.p 0 4 ≠ 0 → c.p 0 4 < 2 ^ 20 → c.p 4 1 = 1 → c.reserved 5 47 = true →
    s.queue? (c.p 0 4) = some q → q.flask = c.flask → q.st ≠ .deleting →
    s.qb.queues.any (fun x => x.1 != c.p 0 4 && x.2.cqOf == c.p 0 4) = false →
    exec (.queueDelete cid) s = .next ((((s.onCmd cid (fun x => { x with work := .qdel (c.p 0 4) })).onQueue (c.p 0 4)
      (fun q => { q with st := .deleting, held := none })).abortQueue (c.p 0 4)).tryDelete cid (c.p 0 4))) ∧
  (∀ s cid c n, Works s cid (.qdel n) c → queueQuiet s n = true → s.serving.sessions.filter (fun x => x.2.qnum == n) = [] →
    exec (.queueDelete cid) s = .next ((s.onQb (fun b => { b with queues := Tab.del b.queues n })).finish cid .ok zeros16)) ∧
  (∀ s cid c, Fresh s cid 0x12 c → claimForm c = true → claimOutside s c = false → Tab.find? s.claims (claimKey (c.p 0 1) (c.p 4 4)) = none →
    exec (.resourceClaim cid) s = .next ((if c.p 0 1 = 1 then
      (s.onClaims (fun t => Tab.put t (claimKey (c.p 0 1) (c.p 4 4)) { owner := c.flask, use := c.p 1 1, since := s.time })).clearTrace
        (c.p 4 4)
      else s.onClaims (fun t => Tab.put t (claimKey (c.p 0 1) (c.p 4 4)) { owner := c.flask, use := c.p 1 1, since := s.time })).finish
        cid .ok zeros16)) ∧
  (∀ s cid c o, Fresh s cid 0x13 c → claimForm c = true → Tab.find? s.claims (claimKey (c.p 0 1) (c.p 4 4)) = some o →
    o.owner = c.flask →
    exec (.resourceRelease cid) s = .next ((s.release (claimKey (c.p 0 1) (c.p 4 4))).finish cid .ok zeros16))

/-- 10 R245: "It completes with `ST_OK` and a zero result once it is accepted. It changes no state." The parameter bytes of a `NOP`
are all reserved, and one that is not zero makes it end with `ST_INVALID` (00 R9). The only change is the completion. -/
def Obligations.NopDoesNothing : Prop :=
  ∀ s cid c, Fresh s cid 0x80 c →
    (c.reserved 0 47 = true → exec (.nop cid) s = .next (s.finish cid .ok (List.replicate 16 0))) ∧
    (c.reserved 0 47 = false → exec (.nop cid) s = .next (s.finish cid .invalid (List.replicate 16 0)))

/-- What the end of an accepted command is (10 R240, R252): the command is no longer accepted; unless it succeeded with SUPPRESS,
an entry with its tag, queue, opcode, flask and result waits, last, for the CQ its queue posts into, and carries `ST_DEGRADED` in
place of `ST_OK` at service level 1. Nothing else changes. -/
def Obligations.EndOfCommand : Prop :=
  ∀ s cid c q st res, findCmd s cid = some c → s.queue? c.qnum = some q →
    let gone := s.onQb (fun b => { b with cmds := b.cmds.filter (fun x => x.cid != cid) })
    (c.suppress = true ∧ st = .ok → s.finish cid st res = gone) ∧
    (¬ (c.suppress = true ∧ st = .ok) → s.finish cid st res =
      gone.onQb (fun b => { b with queues := Tab.mod b.queues q.cqOf (fun o => { o with waiting := o.waiting ++
        [{ cid := some cid, qnum := c.qnum, tag := c.tag, stat := if st = .ok ∧ s.boot.level = 1 then .degraded else st
           opcode := c.opcode, flask := c.flask, result := padTo 16 res, intr := c.intr }] }) }))

/-- Host-visible queue commands (10 R238, R246, R249, 17 R407). `IDENTIFY` writes the identity page and answers the exposed clusters and the
service level. A `FENCE` ends once everything accepted before it in its scope has completed and been posted, and waits until then. A
`COPY` that passes its check begins; each piece of at most 64 KiB whose
lines cross the network moves its bytes, and the last one ends the command with the bytes moved. A request for host memory that the host
answers with an error ends the command with `ST_FAULT_UNCORRECTABLE`. -/
def Obligations.IdentifyFenceCopy : Prop :=
  (∀ s cid c, Fresh s cid 0x01 c → c.flask = 0xFF → c.p 0 8 % 4096 = 0 → c.reserved 8 47 = true →
    exec (.identify cid false) s = .next ((s.hostWrite (c.p 0 8) (identity s)).finish cid .ok
      (leBytes 4 (exposedCount s) ++ leBytes 1 s.boot.level)) ∧
    exec (.identify cid true) s = .next (s.failCmd cid .uncorrectable)) ∧
  (∀ s cid c, Fresh s cid 0x85 c ∨ (Works s cid .fence c ∧ c.opcode = 0x85) → c.p 0 1 ≤ 1 → c.reserved 1 47 = true →
    (fenceMet s c = true → exec (.fence cid) s = .next (s.finish cid .ok zeros16)) ∧
    (fenceMet s c = false → exec (.fence cid) s = .next (s.onCmd cid (fun x => { x with work := .fence })))) ∧
  (∀ s cid c, Fresh s cid 0x84 c → copyCheck s c = .ok →
    exec (.copy cid) s = .next (s.onCmd cid (fun x => { x with work := .copy 0 }))) ∧
  (∀ s cid c k bs t w, Works s cid (.copy k) c → s.faults.any (fun f => f.who == .copy cid) = false → k < c.p 16 8 →
    let n := min 0x10000 (c.p 16 8 - k)
    let hostSrc : Bool := bits (c.p 24 1) 0 0 = 1
    let hostDst : Bool := bits (c.p 24 1) 1 1 = 1
    let u := s.reachSide c.flask (c.p 0 8 + k) n hostSrc
    let v := t.reachSide c.flask (c.p 8 8 + k) n hostDst
    readSide u c.flask (c.p 0 8 + k) n hostSrc = .ok bs → u.writeSide c.flask (c.p 8 8 + k) hostDst bs = (.ok [], t) →
    v.lineTrips (pxUnit 9) (flitFlask c.flask) (tripsOf v c.flask (c.p 0 8 + k) n hostSrc false [] ++
      tripsOf v c.flask (c.p 8 8 + k) n hostDst true bs) = (w, .ok) →
    exec (.copyPieceDone cid false) s = .next (if k + 0x10000 < c.p 16 8 then w.onCmd cid (fun x => { x with work := .copy (k + 0x10000) })
      else w.finish cid .ok (leBytes 8 (c.p 16 8)))) ∧
  (∀ s cid c k, Works s cid (.copy k) c → s.faults.any (fun f => f.who == .copy cid) = false → bits (c.p 24 1) 1 0 ≠ 0 →
    exec (.copyPieceDone cid true) s = .next ((s.undefineCopy c k).finish cid .uncorrectable (leBytes 8 k)))

/-- Doorbells and queue 0 (10 R229, R231, R232). A 64-bit write whose reserved bits are clear, while the device is READY, moves the
tail of an active SQ by no more than its free entries, or the head of a CQ by no more than it holds; any other index of such a queue
stops the queue and posts event 0x01; every other write is ignored and counted. While the CXL link is up, ENABLE
written with aligned bases and sizes in range creates queue 0, and ENABLE cleared deletes it; with the link down no write arrives. -/
def Obligations.DoorbellsAndQueueZero : Prop :=
  (∀ s v q host, doorbellForm (s.hostStores host) 64 v.toNat = true → bits v.toNat 20 20 = 0 →
    (s.hostStores host).queue? (bits v.toNat 19 0) = some q → q.st = .active →
    (bits v.toNat 47 32 < q.sqSize → ringDiff (bits v.toNat 47 32) q.sqTail q.sqSize ≤ q.sqSize - 1 - ringDiff q.sqTail q.sqHead q.sqSize →
      exec (.sqDoorbell 64 v host) s = .next ((s.hostStores host).onQueue (bits v.toNat 19 0)
        (fun q => { q with sqTail := bits v.toNat 47 32 }))) ∧
    (q.sqSize ≤ bits v.toNat 47 32 → exec (.sqDoorbell 64 v host) s = .next (((s.hostStores host).onQueue (bits v.toNat 19 0)
        (fun q => { q with st := .stopped })).event
        { code := 1, stat := .invalid, byte1 := 0, data := v.toNat, flask := q.flask, qnum := bits v.toNat 19 0 }))) ∧
  (∀ s w v host, w ≠ 64 → exec (.sqDoorbell w v host) s = .next ((s.hostStores host).onQb (fun b => { b with dbDrop := b.dbDrop + 1 }))) ∧
  (∀ s v q o, doorbellForm s 64 v.toNat = true → bits v.toNat 20 20 = 1 → s.queue? (bits v.toNat 19 0) = some q →
    s.queue? q.cqOf = some o → bits v.toNat 47 32 < o.cqSize →
    ringDiff (bits v.toNat 47 32) o.cqHead o.cqSize ≤ ringDiff o.cqTail o.cqHead o.cqSize →
    exec (.cqDoorbell 64 v) s = .next (s.onQueue q.cqOf (fun o => { o with cqHead := bits v.toNat 47 32 }))) ∧
  (∀ s v, cxlUp s = false → exec (.aqCfgWrite v) s = .next s) ∧
  (∀ s v, cxlUp s = true → s.queue? 0 = none → bits v.toNat 31 31 = 1 → 4 ≤ bits v.toNat 4 0 → bits v.toNat 4 0 ≤ 16 → 4 ≤ bits v.toNat 9 5 →
    bits v.toNat 9 5 ≤ 16 → s.qb.aqSqBase.toNat % 4096 = 0 → s.qb.aqCqBase.toNat % 4096 = 0 →
    ∃ t, exec (.aqCfgWrite v) s = .next t ∧
      t.queue? 0 = some (Queue.fresh s.qb.aqSqBase.toNat s.qb.aqCqBase.toNat (bits v.toNat 4 0) (bits v.toNat 9 5) 0 0xFF (some 0) 0) ∧
      (∀ n, n ≠ 0 → t.queue? n = s.queue? n) ∧ aqEnabled t = true ∧ t.mem = s.mem ∧ t.host = s.host) ∧
  (∀ s v q, cxlUp s = true → s.queue? 0 = some q → bits v.toNat 31 31 = 0 → q.st ≠ .deleting → exec (.aqCfgWrite v) s = .next s.deleteAdmin)

/-- Intake and posting (10 R235 to R237, R240 to R243). A grant of the round-robin fetches the packet at the queue's head: one that
passes the header checks and may be accepted becomes an accepted command, one that fails is completed at once. A held packet is
accepted once it may be. A completion that waits is written at the tail of a CQ with room, the phase inverting at the wrap; an access
that fails stops the queue under event 0x02. The oldest device event is posted on queue 0 and raises vector 0. A command whose timer
expires ends with `ST_TIMEOUT`. -/
def Obligations.IntakeAndPosting : Prop :=
  (∀ s n cl u q, grant s = some (n, cl, u) → s.queue? n = some q →
    let b := s.hostRead (q.sqBase + 64 * q.sqHead) 64
    let t := (s.onQb (fun x => { x with cls := cl, used := u + 1, last := Tab.put x.last cl n })).onQueue n
      (fun q => { q with sqHead := (q.sqHead + 1) % q.sqSize })
    (∀ st, headerCheck t n q b = some st → exec (.intakeFetch false) s = .next (t.refuse n b st)) ∧
    (headerCheck t n q b = none → mayAccept t n b = true → exec (.intakeFetch false) s = .next (t.accept n b)) ∧
    (headerCheck t n q b = none → mayAccept t n b = false → exec (.intakeFetch false) s =
      .next (t.onQueue n (fun q => { q with held := some b })))) ∧
  (∀ s n q b, s.queue? n = some q → q.held = some b → mayAccept s n b = true →
    headerCheck (s.onQueue n (fun q => { q with held := none })) n q b = none →
    exec (.packetAccept n) s = .next ((s.onQueue n (fun q => { q with held := none })).accept n b)) ∧
  (∀ s n q e rest, s.queue? n = some q → q.waiting = e :: rest → q.cqRoom = true →
    (let head := match s.queue? e.qnum with | some x => x.sqHead | none => 0
     let u := (s.hostWrite (q.cqBase + 32 * q.cqTail)
       (entryBytes e.tag e.stat.code e.qnum q.phase head e.opcode e.flask e.result)).onQueue n (fun q => { q.posted with waiting := rest })
     let v := match (s.queue? e.qnum).bind (·.msix) with
       | some v => if e.intr || e.stat.failure then u.raise v else u
       | none => u
     exec (.completionPost n false) s = .next ((match e.cid with | some c => v.heatPosted c | none => v).reapAdmin)) ∧
    exec (.completionPost n true) s = .next ((s.onQueue n (fun q => { q with st := .stopped })).event
      { code := 2, stat := .uncorrectable, byte1 := 0, data := q.cqBase + 32 * q.cqTail, flask := q.flask, qnum := n })) ∧
  (∀ s q e rest, s.queue? 0 = some q → s.qb.events = e :: rest → q.st ≠ .deleting → q.cqRoom = true →
    exec (.deviceEventPost false) s = .next ((((s.hostWrite (q.cqBase + 32 * q.cqTail)
      (entryBytes 0xFFFF e.stat.code e.qnum q.phase q.sqHead 0 e.flask (eventResult e))).onQueue 0 Queue.posted).onQb
        (fun b => { b with events := rest })).raise 0)) ∧
  (∀ s cid c, findCmd s cid = some c → c.timeout ≠ 0 → c.qnum < 2 ^ 20 → c.work = .pending →
    exec (.commandTimeout cid) s = .next ((s.until (c.accTime + 1000 * c.timeout)).finish cid .timeout zeros16))

/-- Pages of a flask (12 R283 to R287). A KIND 0 map that passes its check and finds its pages maps them and ends with `ST_OK`; a
migration plans its moves and goes on until they are done; an unmap of pages that are all idle removes exactly them, wakes what
waited for them, and ends with `ST_OK`. A page's move waits until no request still goes to its old place, and ends with its bytes at the
new place, and with the poison of a page from the host. -/
def Obligations.PageCommands : Prop :=
  (∀ s cid c t, Fresh s cid 0x06 c → c.p 16 1 = 0 → mapCheck s c = .ok →
    s.mapPages c (psizeBytes (c.p 18 1)) ((upto (c.p 8 8 / psizeBytes (c.p 18 1))).map (· * psizeBytes (c.p 18 1))) = some t →
    exec (.memMap cid) s = .next (t.finish cid .ok zeros16)) ∧
  (∀ s cid c f l t, Fresh s cid 0x06 c → c.p 16 1 = 2 → mapCheck s c = .ok → s.flask? c.flask = some f →
    s.planMoves c ((pagesIn f (c.p 0 8) (c.p 8 8)).map (·.1)) = some (l, t) →
    exec (.memMapMigrate cid) s = .next (if l = [] then t.finish cid .ok zeros16 else t.onCmd cid (fun x => { x with work := .migrate l }))) ∧
  (∀ s cid c l, Works s cid (.migrate l) c → stillToMove s c l = [] →
    exec (.memMapMigrate cid) s = .next (s.finish cid .ok zeros16)) ∧
  (∀ s cid c f, (Fresh s cid 0x07 c ∧ c.reserved 17 47 = true ∧ c.flask < 16 ∧ whollyMapped f (c.p 0 8) (c.p 8 8) = true) ∨
      (Works s cid .unmap c ∧ c.opcode = 0x07) → c.p 16 1 = 0 → s.flask? c.flask = some f →
    (∀ p ∈ pagesIn f (c.p 0 8) (c.p 8 8), p.2.idle s = true) →
    exec (.memUnmap cid) s = .next (((s.faults.filter (fun g => g.flask == c.flask &&
      (pagesIn f (c.p 0 8) (c.p 8 8)).any (fun q => q.1 == g.va))).foldl State.wake
        (s.onFlask c.flask (fun f' => { f' with pages := f'.pages.filter (fun p =>
          !(pagesIn f (c.p 0 8) (c.p 8 8)).any (fun q => q.1 == p.1)) }))).finish cid .ok zeros16)) ∧
  (∀ s flask va bad f p m, s.flask? flask = some f → Tab.find? f.pages va = some p → p.move = some m → m.cid = none →
    translated s (p.st == .host) p.pa p.size = false →
    ((m.dst = .hbm ∨ m.dst = .ddr) → (p.st = .outHost ∨ p.st = .host) →
      exec (.pageMoveDone flask va bad) s = .next (((pagePoison s p bad).foldl (fun s o => s.poisonLine (m.pa + o))
        ((s.reach m.pa p.size).devWrite m.pa (s.hostRead p.pa p.size))).onFlask flask (fun f => { f with
          pages := Tab.mod f.pages va (fun p =>
            { p with st := m.dst, pa := m.pa, move := none, home := if m.dst = .hbm then .hbm else .ddr }) }))) ∧
    ((m.dst = .host ∨ m.dst = .outHost) → (p.st = .hbm ∨ p.st = .ddr) →
      exec (.pageMoveDone flask va bad) s = .next (((s.reach p.pa p.size).hostWrite m.pa (s.devRead p.pa p.size)).onFlask flask
        (fun f => { f with pages := Tab.mod f.pages va (fun p => { p with st := m.dst, pa := m.pa, move := none }) }))))

/-- Page faults (07 R180, R181, 09 R495, 12 R286). Firmware gives the page of a fault that is out of its home tier a place and begins
its move. When the page is resident, what waits for it goes on. When a fault's patience runs out first, what waited ends with
`ST_PAGE_TIMEOUT`. -/
def Obligations.PageFaults : Prop :=
  (∀ s id x f p a t, s.faults.find? (fun g => g.id == id) = some x → s.flask? x.flask = some f → Tab.find? f.pages x.va = some p →
    p.move = none → (p.st = .outDdr ∨ p.st = .outHost) →
    tierUse f p.home + p.size - (if p.st.tier? = some p.home then p.size else 0) ≤ quotaOf f p.home →
    s.allocPage p.home 0xFF p.size = (some a, t) →
    exec (.pageFaultService id) s = .next ((t.onFlask x.flask (fun f => { f with pages := Tab.mod f.pages x.va (fun y => { y with
      move := some { dst := if p.home = .hbm then .hbm else .ddr, pa := a, cid := none } }) })).onFaults
        (fun l => l.map (fun f => if f.id = id then { f with served := true } else f)))) ∧
  (∀ s id x, s.faults.find? (fun g => g.id == id) = some x → x.who.engineRead = true → stillOut s x = false →
    exec (.flaskMemoryReadDone id) s = .next (s.wake x)) ∧
  (∀ s flask va f p, s.flask? flask = some f → pageOf f va = some p →
    exec (.pageResident flask va) s = .next ((s.faults.filter (fun f => f.flask == flask && f.va == p.1 && !f.who.engineRead &&
      !f.who.heldDispatch && !stillOut s f)).foldl State.wake s)) ∧
  (∀ s id x, s.faults.find? (fun g => g.id == id) = some x →
    (stillOut (s.until x.due) x = true → exec (.faultPatienceExpiry id) s = .next ((s.until x.due).expire x .pageTimeout)) ∧
    (stillOut (s.until x.due) x = false → exec (.faultPatienceExpiry id) s = .next ((s.until x.due).wake x)))

/-- Regions and fills (12 R276, R277, R287, R288). A region definition that passes its check takes the controller's lowest free entry
and goes on as the fill of its range; a deletion names exactly one region and fills its range. When the fill is done the range reads
zero, `FILL_BYTES` counts it, and a deleted region's entry is clear. `MEM_FILL` writes its pattern over its range. -/
def Obligations.RegionsAndFills : Prop :=
  (∀ s cid c k o j, Fresh s cid 0x06 c → c.p 16 1 = 1 → regionCheck s c = .ok → ctlOf (c.p 0 8) = some (k, o) →
    (upto 32).find? (fun j => !(Tab.get .init (s.ctl k).regions j).valid) = some j →
    exec (.memMapRegion cid) s = .next ((s.onCtl k (fun m => { m with regions := Tab.put m.regions j {
        valid := true, light := c.p 21 1 = 1, hearth := (c.p 19 1).testBit 3,
        owner := if c.p 22 1 = 0xFF then none else some (c.p 22 1), ownerReg := c.p 22 1 % 16, base := o / 0x200000, len := c.p 8 8 / 0x200000 } })).onCmd cid
          (fun x => { x with work := .region k j false }))) ∧
  (∀ s cid c k o j r, Fresh s cid 0x07 c → c.p 16 1 = 1 → ctlOf (c.p 0 8) = some (k, o) →
    (s.ctl k).regions.find? (fun x => x.2.valid && x.2.base * 0x200000 == o && x.2.len * 0x200000 == c.p 8 8) = some (j, r) →
    c.flask = 0xFF → c.reserved 17 47 = true →
    (heldByPage s (c.p 0 8) (c.p 8 8) = false →
      exec (.memUnmapRegion cid) s = .next (s.onCmd cid (fun x => { x with work := .region k j true }))) ∧
    (heldByPage s (c.p 0 8) (c.p 8 8) = true → exec (.memUnmapRegion cid) s = .next (s.finish cid .busy zeros16))) ∧
  (∀ s cid c k j del, Works s cid (.region k j del) c →
    let r := Tab.get .init (s.ctl k).regions j
    exec (.regionFillDone cid) s = .next (((s.zeroDev (ctlBase k + r.base * 0x200000) (r.len * 0x200000)).onCtl k (fun m => { m with
      fillBytes := m.fillBytes + r.len * 0x200000
      regions := if del then Tab.put m.regions j .init else m.regions })).finish cid .ok zeros16)) ∧
  (∀ s cid c, Fresh s cid 0x08 c → fillCheck s c = .ok →
    exec (.memFill cid) s = .next (s.onCmd cid (fun x => { x with work := .fill }))) ∧
  (∀ s cid c, Works s cid .fill c →
    exec (.memFillDone cid) s = .next (((cuts (c.p 0 8) (c.p 8 8)).foldl
      (fun s x => s.fillPiece c.flask x.1 x.2 (slice c.params 16 8)) s).finish cid .ok zeros16))

/-- A line of memory (12 R274, R275, R281, R289 to R292). A controller in service whose turn it is for the request stores a whole line
as its 64 bytes, and leaves every other byte of device memory as it was; it serves a read by dealing with what its code finds. A scrub read checks the line at the scrub
position and moves to the next, counting a pass at the end; a leak takes one from the bucket and arms the storm event again at half
the threshold. A correctable error counts and fills the bucket. A code word that reads right changes nothing; one that its code corrects is
written back and counts as correctable; one beyond its code is poisoned, counts and posts event 0x06. -/
def Obligations.LinesAndErrors : Prop :=
  (∀ s k o data q, memTurn s k o q = true → ctlUp s k = true → o + 64 ≤ ctlBytes s k → o % 64 = 0 → data.length = 64 → biOut s (ctlBase k + o) = false →
    snooped s (ctlBase k + o) true = false → exec (.memoryWrite k o data q) s =
      .next ((s.ddrAccess k o (queuedHit s k o q)).devWrite (ctlBase k + o) data)) ∧
  (∀ s k o err q, memTurn s k (o / 64 * 64) q = true → ctlUp s k = true → o < ctlBytes s k → biOut s (ctlBase k + o / 64 * 64) = false →
    snooped s (ctlBase k + o / 64 * 64) false = false →
    exec (.memoryRead k o err q) s = .next ((s.ddrAccess k (o / 64 * 64) (queuedHit s k (o / 64 * 64) q)).readLine k (o / 64 * 64) err)) ∧
  (∀ s k err, ctlUp s k = true → (s.ctl k).interval ≠ 0 →
    exec (.scrubRead k err) s = .next (((s.ddrAccess k (s.ctl k).scrubPos false).checkLine k (s.ctl k).scrubPos err).onCtl k (fun m =>
      if (s.ctl k).scrubPos + 64 < ctlBytes s k then { m with scrubPos := (s.ctl k).scrubPos + 64 }
      else { m with scrubPos := 0, scrubPasses := m.scrubPasses + 1 }))) ∧
  (∀ s k, k < 20 → exec (.ceBucketLeak k) s = .next (s.onCtl k (fun m =>
    { m with level := m.level - 1, armed := m.armed || (m.level - 1 ≤ max 1 m.threshold / 2) }))) ∧
  (∀ (s : State) k, s.correctable k = (if (s.ctl k).armed && (s.ctl k).level == max 1 (s.ctl k).threshold && (s.ctl k).level < 0xFFFF then
      (s.onCtl k (fun m => { m with ceCount := m.ceCount + 1, level := min (m.level + 1) 0xFFFF, armed := false })).devEvent 5 .ok 0 k
    else s.onCtl k (fun m => { m with ceCount := m.ceCount + 1, level := min (m.level + 1) 0xFFFF }))) ∧
  (∀ (s : State) k o, s.checkLine k o .clean = s) ∧
  (∀ (s : State) k o err, err.flips ≠ [] → (8 ≤ k ∨ o < 0xBF8000000) →
    let r := lineRead s k o err
    let l := ctlBase k + o / 64 * 64
    (r.bad = true → s.checkLine k o err = ((s.stow l r.data true).onCtl k (fun m => { m with ueCount := m.ueCount + 1 })).devEvent 6
      .uncorrectable 0 (k + 256 * (o / 64 * 64))) ∧
    (r.bad = false → r.fixed = true → err.stays = false → s.checkLine k o err = (s.stow l r.data r.poison).correctable k) ∧
    (r.bad = false → r.fixed = true → err.stays = true →
      s.checkLine k o err = ((s.stow l r.data r.poison).correctable k).remapLine k o))

/-- A line written reads back, and no other byte of device memory changes (12 R274, 01 R27). -/
def Obligations.LineReadsBack : Prop :=
  ∀ s t k o data q, Tab.canon memDefault s.mem → memTurn s k o q = true → ctlUp s k = true → o + 64 ≤ ctlBytes s k → o + 64 ≤ ddrSlot →
    o % 64 = 0 → data.length = 64 → biOut s (ctlBase k + o) = false → snooped s (ctlBase k + o) true = false →
    exec (.memoryWrite k o data q) s = .next t →
    t.devRead (ctlBase k + o) 64 = data ∧
    ∀ a, ¬ (ctlBase k + o ≤ a ∧ a < ctlBase k + o + 64) → t.devRead a 1 = s.devRead a 1

/-- DDR5 (12 R281, R282). A refresh of a rank that does not refresh itself counts and closes the rows of one bank of every bank group;
an idle row closes; an idle rank enters power-down where `PD_IDLE` allows it and self-refresh where `SR_IDLE` does; above 85 °C a
channel refreshes at half the interval. An access wakes its rank; it leaves its row closed under page policy 1 and open under policy 2,
and otherwise open where a queued request hits it or the bank's predictor stands at 2 or more. -/
def Obligations.Ddr5Channels : Prop :=
  (∀ s ch r b, ddrThere s ch = true → r < 8 → Tab.get .awake (s.ctl (8 + ch)).ranks r ≠ .selfRefresh →
    exec (.ddr5Refresh ch r b) s = .next (s.onCtl (8 + ch) (fun m => { m with
      refreshes := m.refreshes + 1
      banks := m.banks.map (fun x => if x.1 / 64 = r ∧ x.1 % 64 / 16 = b % 4 then (x.1, { x.2 with row := none }) else x) }))) ∧
  (∀ s ch b, ddrThere s ch = true → exec (.ddr5RowIdleClose ch b) s = .next (s.onCtl (8 + ch) (fun m =>
    { m with banks := Tab.mod m.banks b (fun x => { x with row := none }) }))) ∧
  (∀ s ch r, ddrThere s ch = true → r < 8 → bits (s.ctl (8 + ch)).ddrPd.toNat 15 0 ≠ 0 →
    Tab.get .awake (s.ctl (8 + ch)).ranks r = .awake →
    exec (.ddr5PowerDown ch r) s = .next (s.onCtl (8 + ch) (fun m => { m with ranks := Tab.put m.ranks r .powerDown }))) ∧
  (∀ s ch r, ddrThere s ch = true → r < 8 → bits (s.ctl (8 + ch)).ddrPd.toNat 31 16 ≠ 0 →
    exec (.ddr5SelfRefresh ch r) s = .next (s.onCtl (8 + ch) (fun m => { m with ranks := Tab.put m.ranks r .selfRefresh }))) ∧
  (∀ s ch temp, ddrThere s ch = true →
    exec (.dimmTemperatureRead ch temp) s = .next (s.onCtl (8 + ch) (fun m => { m with hot := decide (85 < temp) }))) ∧
  (∀ (s : State) k o hit, 8 ≤ k → Tab.get .awake ((s.ddrAccess k o hit).ctl k).ranks (ddrRank s k o) = .awake) ∧
  (∀ (b : DBank) row hit, (b.access 1 row hit).row = none ∧ (b.access 2 row hit).row = some row ∧
    (b.access 0 row hit).row = (if hit || 2 ≤ (b.access 0 row hit).ctr then some row else none) ∧
    (∀ r, b.last = some r → (b.access 0 row hit).ctr = if r = row then min (b.ctr + 1) 3 else b.ctr - 1))

/-- Flasks (09 R221 to R226). `FLASK_CREATE` with a descriptor that reads, keeps its form and fits makes the flask the descriptor
describes and clears its entries of the phase table. `FLASK_DESTROY` does its work, and ends when nothing of the flask's queues is
left to post. A flask-scope fault ends the heats and the serving loops of the flask, makes it FAULTED and posts event 0x03, and ends with
`ST_DISCARDED` the command accepted at the same time (10 R253); a second one changes nothing. -/
def Obligations.FlaskCommands : Prop :=
  (∀ s cid c d, Fresh s cid 0x04 c → c.p 0 1 ≤ 15 → c.reserved 1 7 = true → c.reserved 16 47 = true →
    readFlask s c.flask (c.p 8 8) 128 = .ok d → flaskForm d = true → flaskFit s (c.p 0 1) (flaskOf d) = .ok →
    exec (.flaskCreate cid) s = .next (((s.onFlasks (fun t => Tab.put t (c.p 0 1) (flaskOf d))).onPower (fun p => { p with
      phases := p.phases.filter (fun e => !((flaskOf d).phaseBase ≤ e.1 && e.1 < (flaskOf d).phaseBase + (flaskOf d).phaseCount)) })).finish
        cid .ok zeros16)) ∧
  (∀ s cid c f, Fresh s cid 0x05 c → c.p 1 1 ≤ 1 → c.reserved 2 47 = true → s.flask? (c.p 0 1) = some f → f.destroying = false →
    exec (.flaskDestroy cid) s = .next ((s.destroyWork (c.p 0 1) cid (c.p 1 1 = 1)).destroyEnd (c.p 0 1) cid)) ∧
  (∀ s cid c, Works s cid .destroy c → c.opcode = 0x05 → queuesOf s (c.p 0 1) = [] →
    exec (.flaskDestroy cid) s = .next (((s.onFlask (c.p 0 1) (fun f => { f with pages := [] })).onFlasks
      (fun t => Tab.del t (c.p 0 1))).finish cid .ok zeros16)) ∧
  (∀ s n f, s.flask? n = some f → f.faulted = false →
    let faults (s : State) : State :=
      ((((((s.graph.heats.filter (fun h => h.2.flask == n)).map (·.1)).foldl State.cutHeat s).endLoops n).freezeFlask n).settle.onFlask n
        (fun x => { x with faulted := true })).event
          { code := 3, stat := .uncorrectable, byte1 := 0, data := 0, flask := n, qnum := 0 }
    exec (.flaskFault n none) s = .next (faults s) ∧
    ∀ cid c, findCmd s cid = some c → c.flask = n → c.work = .pending → c.accTime = s.time →
      exec (.flaskFault n (some cid)) s = .next (faults (s.abortCmd c .discarded))) ∧
  (∀ s n f cmd, s.flask? n = some f → f.faulted = true → exec (.flaskFault n cmd) s = .next s)

/-- Heats (09 R201, R206, R214 to R216). A submission that passes its check enters the graph engine and loads, or is held when
another is held or its entries are not free; the earliest held heat loads once they are. An abort ends a heat with `ST_DISCARDED`;
a query counts its nodes. A heat whose nodes are DONE with their records written completes with its outcome and its result; it is
gone when that completion is posted, or at once where none is posted. -/
def Obligations.HeatCommands : Prop :=
  (∀ s cid c, Fresh s cid 0x81 c → submitCheck s c = .ok →
    (heldHeats s c.flask = [] → entriesFit s c.flask (c.p 4 4) = true →
      exec (.heatSubmit cid) s = .next (((s.addHeat (heatKey c.flask (c.p 0 4)) (Heat.fresh s c)).onCmd cid
        (fun x => { x with work := .heat })).takeHeat (heatKey c.flask (c.p 0 4)))) ∧
    (heldHeats s c.flask ≠ [] ∨ entriesFit s c.flask (c.p 4 4) = false →
      exec (.heatSubmit cid) s = .next ((s.addHeat (heatKey c.flask (c.p 0 4)) { Heat.fresh s c with phase := .held }).onCmd cid
        (fun x => { x with work := .heldHeat })))) ∧
  (∀ s flask k h rest c, heldHeats s flask = (k, h) :: rest → entriesFit s flask h.count = true → h.cid = some c →
    exec (.heatLoadBegin flask) s = .next (((s.onHeat k (fun h => { h with phase := .loading })).onCmd c
      (fun x => { x with work := .heat })).takeHeat k)) ∧
  (∀ s cid c h, Fresh s cid 0x82 c → c.reserved 4 47 = true → s.heat? (heatKey c.flask (c.p 0 4)) = some h → h.phase ≠ .held →
    exec (.heatAbort cid) s = .next (((s.onCmd cid (fun x => { x with work := .abort })).cutHeat (heatKey c.flask (c.p 0 4))).settle)) ∧
  (∀ s cid c h, Fresh s cid 0x82 c → c.reserved 4 47 = true → s.heat? (heatKey c.flask (c.p 0 4)) = some h → h.phase = .held →
    exec (.heatAbort cid) s = .next ((s.dropHeld (heatKey c.flask (c.p 0 4)) .discarded).finish cid .ok zeros16)) ∧
  (∀ s cid c, Fresh s cid 0x82 c → c.reserved 4 47 = true → s.heat? (heatKey c.flask (c.p 0 4)) = none →
    exec (.heatAbort cid) s = .next (s.finish cid .notPresent zeros16)) ∧
  (∀ s cid c h, Fresh s cid 0x83 c → c.reserved 4 47 = true → s.heat? (heatKey c.flask (c.p 0 4)) = some h → h.phase = .running →
    exec (.heatQuery cid) s = .next (s.finish cid .ok (leBytes 4 2 ++ leBytes 4 (h.nodes.filter (fun x => x.counts == 0)).length ++
      leBytes 4 (h.nodes.filter (fun x => x.counts == 1)).length ++ leBytes 4 (h.nodes.filter (fun x => x.counts == 2)).length))) ∧
  (∀ s flask id h c, s.heat? (heatKey flask id) = some h → h.complete = true → h.cid = some c →
    let t := s.finish c h.outcome.1 (h.result s.time)
    (entryWaits t c = true → exec (.heatComplete flask id) s = .next (t.onHeat (heatKey flask id) (fun h =>
      { h with phase := .closing, verdict := some h.outcome }))) ∧
    (entryWaits t c = false → (∀ x ∈ s.qb.cmds, x.work ≠ .abort) → exec (.heatComplete flask id) s = .next (t.dropHeat (heatKey flask id))))

/-- Nodes (09 R200, R203, R205, R207 to R211, R225, R495). The first READY node, in the order of R208, whose unit has room is
dispatched. The graph engine processes the end of a node: it is DONE with its status; an uncorrectable table entry ends the heat
with `ST_FAULT_UNCORRECTABLE`. Its record is written once. A HOST_SIGNAL node writes its line and raises its vector. Timers end a node or a heat with `ST_TIMEOUT`, unless the
node's last output or an awaited byte arrives in the same cycle (07 R184), and age a READY node. A hearth dispatch that waited for a page is made again. -/
def Obligations.NodeLife : Prop :=
  (∀ s k n x, nextNode s = some (k, n) → s.node? k n = some x →
    exec .nodeDispatch s = .next ((s.onNode k n (fun x => { x with st := .dispatched, start := s.time })).sendNode k n x)) ∧
  (∀ s id f k n, s.faults.find? (fun g => g.id == id) = some f → f.who = .hearth k n → hasRoom s k n = true →
    stillOut s f = false → exec (.hearthDispatchResume id) s = .next ((s.dropFaults (fun g => g.id == id)).sendAgain k n)) ∧
  (∀ s flask heat n x, s.node? (heatKey flask heat) n = some x → x.cls = 7 → x.st = .dispatched → x.ended = none →
    let line := s.hostWrite x.descAddr (leBytes 4 heat ++ leBytes 4 n ++ leBytes 8 x.aux ++ leBytes 8 s.time ++ leBytes 40 0)
    exec (.hostSignal flask heat n false) s = .next ((if x.endpoint = 0xFFFF then line else line.raise x.endpoint).endNode
      (heatKey flask heat) n .ok id)) ∧
  (∀ s flask heat n x, s.node? (heatKey flask heat) n = some x → x.ended = some .ok → x.st ≠ .done → x.cls ≠ 5 →
    exec (.nodeComplete flask heat n false) s = .next (((s.onNode (heatKey flask heat) n
      (fun x => { x with st := .done, status := some .ok })).progress (heatKey flask heat)).settle)) ∧
  (∀ s flask heat n x, s.node? (heatKey flask heat) n = some x →
    exec (.nodeComplete flask heat n true) s = .next ((s.endHeat (heatKey flask heat) .uncorrectable n none).settle)) ∧
  (∀ s flask heat n h x t, s.heat? (heatKey flask heat) = some h → s.node? (heatKey flask heat) n = some x → x.st = .done →
    x.written = false → s.faults.any (fun f => f.who == .record (heatKey flask heat) n) = false → h.loop = none →
    s.tryWrite flask (h.recAddr + 64 * n) (nodeRecord x) = (.ok [], t) →
    exec (.nodeRecordWrite flask heat n false) s = .next (t.onNode (heatKey flask heat) n (fun x => { x with written := true }))) ∧
  (∀ s flask heat n x, s.node? (heatKey flask heat) n = some x → x.timeout ≠ 0 → (x.st = .dispatched ∨ x.st = .suspended) →
    x.ended = none → exec (.nodeTimeout flask heat n false) s =
      .next ((s.until (x.start + 1000 * x.timeout)).failNode (heatKey flask heat) n .timeout).settle) ∧
  (∀ s flask heat n, exec (.nodeTimeout flask heat n true) s = .next s) ∧
  (∀ s flask heat h, s.heat? (heatKey flask heat) = some h → h.timeout ≠ 0 → h.verdict = none → h.phase ≠ .held →
    exec (.heatTimeout flask heat) s = .next ((s.until (h.accTime + 1000 * h.timeout)).endHeat (heatKey flask heat) .timeout
      0xFFFFFFFF none).settle) ∧
  (∀ s flask heat n x, s.node? (heatKey flask heat) n = some x → x.st = .ready → x.aged = false →
    exec (.readyAgeing flask heat n) s = .next ((s.until (x.readyAt + 1000001)).onNode (heatKey flask heat) n
      (fun x => { x with aged := true })))

/-- Patterns (09 R218). A registration whose entries, descriptors and patches read and pass their checks, and whose store can be
written, writes the store and records the pattern; a removal of a pattern that no heat uses removes it. -/
def Obligations.PatternCommands : Prop :=
  (∀ s cid c f ps b t, Fresh s cid 0x0C c → c.p 4 4 ≠ 0 → s.flask? c.flask = some f → registerForm c = true →
    Tab.has s.graph.patterns (c.p 0 4) = false → c.p 4 4 ≤ f.nodeQuota → readStore s c f = .ok ps b →
    s.tryWrite c.flask (c.p 16 8) b = (.ok [], t) →
    exec (.patternRegister cid) s = .next ((t.onGraph (fun g => { g with patterns := Tab.put g.patterns (c.p 0 4) {
        flask := c.flask, count := c.p 4 4, store := c.p 16 8, nslot := c.p 36 2, patches := ps } })).finish cid .ok zeros16)) ∧
  (∀ s cid c p, Fresh s cid 0x0C c → c.p 4 4 = 0 → registerForm c = true → Tab.find? s.graph.patterns (c.p 0 4) = some p →
    p.flask = c.flask → (∀ h ∈ s.graph.heats, h.2.pattern ≠ some (c.p 0 4)) → s.serving.loops = [] →
    exec (.patternRemove cid) s = .next ((s.onGraph (fun g => { g with patterns := Tab.del g.patterns (c.p 0 4) })).finish cid .ok
      zeros16))

/-- Loads (14 R329 to R333, R338, R340). A well-formed `MOULD_LOAD` of each kind waits for the sprue, in order; a key load is refused
with `ST_UNSUPPORTED` where BATKEY_DISABLE is burnt. The sprue takes the first waiting load and reads its header. A header whose
signature and checks pass moves the load to its records; each record that opens is written in its frame. An unload removes a mould
that neither loads nor starts. -/
def Obligations.MouldLoads : Prop :=
  (∀ s cid c, Fresh s cid 0x0A c → mouldForm c = true →
    (c.p 8 1 = 0 → exec (.mouldLoad cid) s = .next ((s.onCmd c.cid (fun x => { x with work := .mould })).onSprue
      (fun p => { p with queue := p.queue ++ [c.cid] }))) ∧
    (c.p 8 1 = 1 → exec (.mouldLoadShell cid) s = .next ((s.onCmd c.cid (fun x => { x with work := .mould })).onSprue
      (fun p => { p with queue := p.queue ++ [c.cid] }))) ∧
    (c.p 8 1 = 2 → s.fuses.batkeyDisable = false → exec (.mouldLoadKey cid) s = .next ((s.onCmd c.cid (fun x => { x with work := .mould })).onSprue
      (fun p => { p with queue := p.queue ++ [c.cid] }))) ∧
    (c.p 8 1 = 2 → s.fuses.batkeyDisable = true → exec (.mouldLoadKey cid) s = .next (s.refuseLoad cid .unsupported))) ∧
  (∀ s cid c m, Fresh s cid 0x0B c → c.reserved 2 47 = true → Tab.find? s.sprue.moulds (c.p 0 2) = some m → m.flask = c.flask →
    (m.st = .running ∨ m.st = .isolated) → 
    exec (.mouldUnload cid) s = .next (((s.tearDown (c.p 0 2) false .notPresent).endLoadOf m).finish cid .ok zeros16)) ∧
  (∀ s cid rest c h, s.sprue.cur = none → s.sprue.queue = cid :: rest → findCmd s cid = some c →
    readFlask s c.flask (c.p 0 8) 1024 = .ok h → hdrForm (c.p 8 1) h = true → hdrDevice h = true →
    exec .mouldLoadBegin s = .next ((s.onSprue (fun p => { p with
      queue := rest, bytes := p.bytes + 1024,
      cur := some {
        cid := c.cid, kind := c.p 8 1, addr := c.p 0 8, header := h, step := .verify, seq := 1, expect := 0, seen := [],
        key := 0, since := s.time } })).after 2000)) ∧
  (∀ s l c, s.sprue.cur = some l → l.step = .verify → l.header ≠ [] → findCmd s l.cid = some c → hdrAuth (s.after 151000) l.kind l.header = none →
    imageCheck (s.after 151000) l c.flask (c.p 9 1 = 1) = .ok →
    exec .signatureVerified s = .next ((if l.kind = 0 then (s.after 151000).reserve l c.flask (c.p 9 1 = 1) else s.after 151000).onSprue
      (fun p => { p with cur := some { l with
        step := .records, expect := BitVec.ofNat 256 (fld l.header 24 32),
        key := keyOf (if l.kind = 0 then (s.after 151000).reserve l c.flask (c.p 9 1 = 1) else s.after 151000) (imKeySrc l.header) } }))) ∧
  (∀ s l c r pl, s.sprue.cur = some l → l.step = .records → l.seq < imCount l.header → findCmd s l.cid = some c → l.kind = 0 →
    readFlask s c.flask (l.addr + 1024 + 1088 * (l.seq - 1)) 1088 = .ok r → openRecord l.key l.header r l.seq l.expect = some pl →
    recordForm 0 l.header r pl l.seq l.seen = true →
    exec .imageRecord s = .next (((((s.onSprue (fun p => { p with bytes := p.bytes + 1088 })).after 544).putFrame (recPlace r).1
      (recPlace r).2.1 (recPlace r).2.2.1 (recPlace r).2.2.2 pl)).onSprue (fun p => { p with cur := some { l with
        seq := l.seq + 1, expect := BitVec.ofNat 256 (fld r 1056 32),
        seen := (4 * (recPlace r).1 + (recPlace r).2.1, (recPlace r).2.2.1, (recPlace r).2.2.2) :: l.seen } })))

/-- A mould's start-up order, its PLLs, and the battery key's supply (13 R310, 14 R328, R334, R337, 21 R485). An event that is
next in a mould's order is performed after its delay and moves the order on; LOCK_WAIT passes once every PLL of the mould is locked;
the mould that opens its border runs with its endpoints registered and its ports its flask's. A PLL locks. Losing VBATT loses the key and is
recorded. At an edge of the user clocks (13 R298 to R301; which clocks tick is the model's choice, notes/assumptions/125.md, as is what a
configuration's fields are, 122.md) a flip-flop whose clock ticks takes its SR value, or its data where it is enabled and WRITES_ON
has released the enables; it holds its initial value before. A cell's table is split or whole; a wide-mux slice shows input 8 c + j on cell 7; a carry
chain runs up a column of 192 slices and starts anew at its foot. -/
def Obligations.MouldStartUp : Prop :=
  (∀ s p k, p < 4 → k < 32 → exec (.pllLock p k) s = .next (s.onSprue (fun x => { x with
    plls := Tab.mod x.plls (32 * p + k) (fun y => { y with locked := true }) }))) ∧
  (∀ s id m, nextStart s 1 = some (id, m) → pllsLocked s id = true → m.pos < 3 →
    exec .lockWait s = .next ((s.after (1000 * (m.startup.getD m.pos (0, 0)).2)).onMould id (fun m => { m with pos := m.pos + 1 }))) ∧
  (∀ s id m, nextStart s 1 = some (id, m) → pllsLocked s id = false → exec .lockWait s = .next s) ∧
  (∀ s id m, nextStart s 2 = some (id, m) → m.pos < 3 → exec .initEnd s =
    .next ((((s.after (1000 * (m.startup.getD m.pos (0, 0)).2))).onMould id (fun m => { m with initHold := false })).onMould id
      (fun m => { m with pos := m.pos + 1 }))) ∧
  (∀ s id m, nextStart s 3 = some (id, m) → m.pos < 3 → exec .writesOn s =
    .next ((((s.after (1000 * (m.startup.getD m.pos (0, 0)).2))).onMould id (fun m => { m with writesOn := true })).onMould id
      (fun m => { m with pos := m.pos + 1 }))) ∧
  (∀ s id m, nextStart s 4 = some (id, m) → m.pos < 3 → 0 ∉ m.quarters → exec .borderOpen s =
    .next ((((s.after (1000 * (m.startup.getD m.pos (0, 0)).2)).onMould id (fun m => { m with st := .running, registered := true })).onFp
      (fun t => m.quarters.foldl (fun t q => Tab.upd .init t (4 * m.cluster + q) (fun p =>
        { p with flask := some m.flask, reconf := false, breach := false })) t)).onMould id (fun m => { m with pos := m.pos + 1 }))) ∧
  (∀ s, exec .vbattLost s = .next (((s.onBoard (fun b => { b with vbattOk := false })).onSprue (fun p =>
    { p with keyValid := false, batKey := 0, vbattLost := true })).security 0x22 0xFF (leBytes 8 s.time))) ∧
  (∀ s, movingMoulds s = [] → s.userEdge = s) ∧
  (∀ s i q e, Tab.find? s.sprue.ffs (ffKey i q e) = none → ffStored s i q e = (cellConf s i q (e / 2) (13 + e % 2) % 2 == 1)) ∧
  (∀ s i ev ck writes q e,
    (sliceClock s i q (e / 16) ∉ ck → ffNext s i ev ck writes q e = ev (.ff q e)) ∧
    (sliceClock s i q (e / 16) ∈ ck → ffNext s i ev ck writes q e =
      if srOn s i ev q e then (if srAsync s i q e then ev (.ff q e) else srValue s i q e)
      else if writes && ffEnable s i ev q e then ffData s i ev q e else ev (.ff q e))) ∧
  (∀ s i x ev q c,
    let wide := isWide s i q (c / 8)
    let split : Bool := cellConf s i q c 0 % 2 == 1
    let sel := ofBits ((upto 6).map (wideSel s i ev q (c / 8)))
    cellLf s i x ev q c = (if wide then (if c % 8 = 7 then cellIn s i ev q (8 * (c / 8) + sel / 8) (sel % 8) else x (65536 * q + c))
      else lutHalf s i ev q c (if !split && cellIn s i ev q c 5 then 1 else 0)) ∧
    cellLh s i ev q c = (!wide && split && lutHalf s i ev q c 1)) ∧
  (∀ s i ev q c, c % 1536 ≠ 0 → carryIn s i ev q c = ev (.carry q (c - 1))) ∧
  (∀ s i ev q c, c % 1536 = 0 → carryIn s i ev q c = (sliceConf s i q (c / 8) 11 % 2 == 1))

/-- Element instructions (05 R105, R116, R123 to R125). An instruction of class VA, VI or VF writes into the destination the
operation of its sources, element by element; a reduction writes the tree of the entering elements into a scalar register, `VRMAXI` with
the lowest index that holds the maximum; `VPERM` picks elements by index and `VBCAST` repeats a scalar. The tile's other state, and
the rest of the machine, is as it was, but for the name of the word's OP (log entry 19) and the pairing of issues. -/
def Obligations.VectorElementInstructions : Prop :=
  (∀ s i op t r w t', Issues s i 0 (vaNum op) t r w →
    t.setOut w (map3 (vaElem op) (t.vec (wA w)) (t.vec (wB w)) (t.vec (wC w))) = some t' →
    exec (.vectorArithmetic i op) s = .next (s.executed i r (vaNum op) (outReg (9 ≤ vaNum op) t w) t')) ∧
  (∀ s i op t r w t', Issues s i 1 (viNum op) t r w →
    t.setOut w (((t.vec (wA w)).zip (t.vec (wB w))).zipIdx.map (fun x =>
      viElem op (BitVec.ofNat 32 (Config.freeNat (s.free + x.2))) x.1.1 x.1.2)) = some t' →
    exec (.vectorInteger i op) s = .next ((s.onFree (· + 64)).executed i r (viNum op) (outReg (9 ≤ viNum op) t w) t')) ∧
  (∀ s i fn t r w, Issues s i 2 (vfNum fn) t r w → fn ≠ .undef →
    exec (.specialFunction i fn) s = .next (s.executed i r (vfNum fn) [t.rv (wD w)]
      (t.setV w (wD w) ((t.vec (wA w)).map (vfElem fn))))) ∧
  (∀ s i t r w, (Issues s i 4 0 t r w →
      exec (.vrsum i .sum) s = .next (s.executed i r 0 [rs (wD w)] (t.setS (wD w) (treeReduce vAdd (t.entering w 0))))) ∧
    (Issues s i 4 1 t r w →
      exec (.vrsum i .max) s = .next (s.executed i r 1 [rs (wD w)] (t.setS (wD w) (treeReduce vMax (t.entering w (f32Inf true)))))) ∧
    (Issues s i 4 2 t r w →
      exec (.vrsum i .min) s = .next (s.executed i r 2 [rs (wD w)] (t.setS (wD w) (treeReduce vMin (t.entering w (f32Inf false))))))) ∧
  (∀ s i t r w k, Issues s i 4 3 t r w → wD w < 31 →
    (t.entering w (f32Inf true)).findIdx? (fun v => totalKey v == totalKey (treeReduce vMax (t.entering w (f32Inf true))) && !f32IsNan v) = some k →
    exec (.vrmaxi i) s = .next ((s.onFree (· + 1)).executed i r 3 [rs (wD w), rs (wD w + 1)]
      ((t.setS (wD w) (treeReduce vMax (t.entering w (f32Inf true)))).setS (wD w + 1) (BitVec.ofNat 32 k)))) ∧
  (∀ s i t r w, (Issues s i 4 4 t r w → exec (.vperm i) s = .next (s.executed i r 4 [t.rv (wD w)]
      (t.setV w (wD w) ((t.vec (wB w)).map (fun v => (t.vec (wA w)).getD (v.toNat % 64) 0))))) ∧
    (Issues s i 4 5 t r w → exec (.vbcast i) s = .next (s.executed i r 5 [t.rv (wD w)]
      (t.setV w (wD w) (List.replicate 64 (t.sreg (wA w)))))))

/-- Conversions, random words, loads and stores (05 R110 to R112, R120 to R124, 08 R194, R197, 02 R47, R50, R53). `VCVT` without TOINT
and FROMINT converts every element under the control word of RM and counts the active ones in its slot; `VRAND` writes lane-mode or
element-indexed words and steps the active lanes' generators; a load whose check passes takes its bytes, decodes and scales them, rounds
them into the destination as every conversion does, and notes a flush; a store whose check passes encodes the source and puts its bytes. -/
def Obligations.VectorConvertLoadStore : Prop :=
  (∀ s i t r w dst cvt, Issues s i 3 0 t r w → vcvtFmt (bits (wImm w) 7 0) = .ok dst → cvtUnder t.cvtctl (bits (wImm w) 12 11) = some cvt →
    (wImm w).testBit 13 = false → (wImm w).testBit 14 = false → cvt.getLsbD 0 = false → bits (wImm w) 10 8 < r.outN → r.outN ≤ 4 →
    let a := t.vec (wA w)
    let outs := a.zipIdx.map (fun x => convert (f32 x.1) .fp32 dst cvt (1, 0) 0 (0 : W32).toNat)
    exec (.vcvt i) s = .next ((((((s.onFree (· + 64)).issued i r 0 [t.rv (wD w)]).onVtile i.tile (fun m =>
      { t.setV w (wD w) (outs.map (fun o => f32OfCode dst o.code)) with cnt := m.cnt }))).onRun i.tile (fun r => { r with
        slots := r.slots.modify (bits (wImm w) 10 8) (fun c => (a.zip outs).zipIdx.foldl (fun c x =>
          if t.active w x.2 then c.countOnly dst cvt x.1.1 x.1.2 else c) c) })).retired i (s.onFree (· + 64)) [t.rv (wD w)])) ∧
  (∀ s i t r w, Issues s i 10 0 t r w → bits (wImm w) 22 5 = 0 → (wImm w).testBit 0 = true → (wImm w).testBit 4 = false →
    let t' := t.setV w (wD w) ((upto 64).map (fun e => rngOut (Tab.get .init t.gen e).x))
    exec (.vrand i) s = .next (s.executed i r 0 [t.rv (wD w)] { t' with
      gen := (upto 64).foldl (fun z e => if t.active w e then Tab.put z e (Tab.get .init t.gen e).step else z) t.gen })) ∧
  (∀ s i t r w, Issues s i 10 0 t r w → bits (wImm w) 22 5 = 0 → (wImm w).testBit 0 = false → (wImm w).testBit 4 = false →
    bits (wImm w) 3 1 < 4 →
    exec (.vrand i) s = .next (s.executed i r 0 [t.rv (wD w)] (t.setV w (wD w) ((upto 64).map (fun e =>
      rngOut ((slotStream (s.issued i r 0 [t.rv (wD w)]) r (bits (wImm w) 3 1)).at (elemIndex t w e))))))) ∧
  (∀ s i t r w f, Issues s i 5 0 t r w → fmtByte (bits (wImm w) 7 0) = .ok f → f.block = false → f.tensor = false →
    let rg := [t.rv (wD w), rp (wPred w)] ++ (if (fmtOr (bits (wImm w) 7 0)).tensor then [rs (wB w)] else [])
    let u := s.issued i r 0 rg
    let span := (upto 64).foldl (fun n e => if t.active w e then elemOff f.fmt e + elemSize f.fmt else n) 0
    loadCheck u i.tile r (wA w) span (elemSize f.fmt) (incOf w) = .ok →
    let v := u.loadTake i.tile (wA w) span (incOf w)
    let el := (upto 64).map (fun e =>
      let o := rowOperand t.cvtctl f v.1 [] e
      (convert o.1 .ig4 .fp32 (t.cvtctl &&& 0xFFFE) (1, 0) 0 0, o.2))
    exec (.vld i) s = .next ((((v.2.onVtile i.tile (fun m => m.setV w (wD w) (el.map (fun o => BitVec.ofNat 32 o.1.code)))).flushedAll
      i.tile (el.zipIdx.any (fun x => (x.1.2 || x.1.1.flushed) && t.active w x.2))).onRun i.tile
        (·.reads (loadLdm t (wA w) span))).retired i s rg)) ∧
  (∀ s i t r w cvt, Issues s i 5 1 t r w → cvtUnder t.cvtctl (bits (wImm w) 4 3) = some cvt → bits (wImm w) 2 0 < r.outN →
    (t.cdesc (t.areg (wD w)).bind).space ≠ 0 → wPred w = 0 → wPneg w = false →
    let slot := bits (wImm w) 2 0
    let f := fmtOr (r.fmts.getD slot 0)
    let rg := [t.rv (wA w), rp (wPred w)] ++ (if cvt.getLsbD 0 then [rs (wB w)] else [])
    let u := s.issued i r 1 rg
    f.block = false →
    let cv : OutCvt := { fmt := f, cvt, scale := r.scales.getD slot f32One, gen := slotStream u r slot }
    let x := storeCodes cv (elemIndex t w) (t.active w) (t.vec (wA w)) (r.slots.getD slot .init)
    storeCheck u i.tile r (wD w) (packCodes f.fmt x.2.1) (elemSize f.fmt) (incOf w) = .ok →
    exec (.vst i) s = .next (((u.storePut i.tile (wD w) (spread t (wD w) (packCodes f.fmt x.2.1)) (incOf w)).onRun i.tile
      (fun r => { r with slots := r.slots.set slot x.1 })).retired i s rg))

/-- Scalars, addresses, predicates and control (05 R107, R108, R110, R111, R113, R116, 02 R45). Each instruction's result, and nothing
else of the tile but PC, the counts, the name of the word's OP and the pairing of issues; a predicate's inactive bits keep their
values. -/
def Obligations.VectorScalarAndControl : Prop :=
  (∀ s i t r w,
    let a := t.sreg (wA w)
    let b := t.sreg (wB w)
    let res (op : ScOp) (t' : VectorTile) : Prop := Issues s i 6 (scNum op) t r w →
      exec (.scalarOp i op) s = .next ((s.onFree (· + 1)).executed i r (scNum op) (scRegs op t w) t')
    let word (op : ScOp) (v : W32) : Prop := res op (t.setS (wD w) v)
    word .iadd (a + b) ∧ word .isub (a - b) ∧ word .imullo (a * b) ∧ word .and (a &&& b) ∧ word .or (a ||| b) ∧ word .xor (a ^^^ b) ∧
    (b.toNat < 32 → word .shl (a <<< b.toNat) ∧ word .shr (a >>> b.toNat) ∧ word .sar (a.sshiftRight b.toNat)) ∧
    word .fadd (vAdd a b) ∧ word .fmul (vMul a b) ∧ word .fma (vFma false a b (t.sreg (wC w))) ∧
    word .fmin (vMin a b) ∧ word .fmax (vMax a b) ∧
    (∀ v, word (.movImm v) v) ∧ (∀ k, word (.sFromA k) (BitVec.ofNat 32 (t.areg k).off)) ∧
    (∀ k, res (.aFromS k) (t.setA k a.toNat)) ∧
    (∀ o, o % 4 = 0 → o + 4 ≤ 262144 → Issues s i 6 16 t r w →
      let u := (s.onFree (· + 1)).issued i r 16 [rs (wD w)]
      let at_ := (upto 4).map (fun k => o + k)
      exec (.scalarOp i (.load o)) s = .next (((u.onVtile i.tile (fun m => { t.setS (wD w) (BitVec.ofNat 32 (ofLe (at_.map (fun k =>
        Tab.get 0 t.ldm k)))) with cnt := m.cnt })).onRun i.tile (·.reads at_)).retired i (s.onFree (· + 1)) [rs (wD w)])) ∧
    (∀ o, o % 4 = 0 → o + 4 ≤ 262144 → Issues s i 6 17 t r w →
      let u := (s.onFree (· + 1)).issued i r 17 [rs (wA w)]
      exec (.scalarOp i (.store o)) s = .next (((u.onVtile i.tile (fun m => { m with
        ldm := (leBytes 4 a.toNat).zipIdx.foldl (fun l b => Tab.store (fun _ => 0) l (o + b.2) b.1) m.ldm })).onRun i.tile
          (·.stores ((upto 4).map (fun k => o + k)))).retired i (s.onFree (· + 1)) [rs (wA w)]))) ∧
  (∀ s i c base len cluster t r w, Issues s i 7 0 t r w → (t.cdesc c).strm = none → base % 64 = 0 → len % 64 = 0 → 64 ≤ len →
    base + len ≤ 262144 →
    exec (.cset i c base len 0 0xFF cluster) s = .next (s.executed i r 0 [] { t with
      c := Tab.put t.c (c % 8) { base := base, len := len, space := 0, strm := none, cluster := cluster } })) ∧
  (∀ s i a c t r w, Issues s i 7 1 t r w → exec (.abind i a c) s = .next (s.executed i r 1 [] { t with
      a := Tab.put t.a (a % 16) { off := 0, bind := c % 8 } })) ∧
  (∀ s i a v t r w, Issues s i 7 2 t r w → exec (.amov i a v) s = .next (s.executed i r 2
    (match v with | .scalar k => [rs k] | .imm _ => []) (t.setA a (match v with | .imm o => o | .scalar k => (t.sreg k).toNat)))) ∧
  (∀ s i t r w,
    let a := t.preg (wA w)
    let b := t.preg (wB w)
    let res (op : PrOp) (rg : List VReg) (v : W64) : Prop := Issues s i 8 (prNum op) t r w →
      exec (.predicateOp i op) s = .next (s.executed i r (prNum op) ([rp (wD w), rp (wPred w)] ++ rg)
        (t.setFlags w (wD w) ((upto 64).map (fun e => v.getLsbD e))))
    let two := [rp (wA w), rp (wB w)]
    res .and two (a &&& b) ∧ res .or two (a ||| b) ∧ res .xor two (a ^^^ b) ∧ res .not [rp (wA w)] (~~~a) ∧ res .mov [rp (wA w)] a ∧
    res .fromCount [rs (wA w)] (BitVec.ofNat 64 (2 ^ min 64 (t.sreg (wA w)).toNat - 1))) ∧
  (∀ s i k body stages rot t r w, Issues s i 9 0 t r w → t.loops = [] → 1 ≤ body → body ≤ 256 → 1 ≤ stages → stages ≤ 8 →
    t.pc + 1 + body ≤ r.progLen →
    (t.sreg k ≠ 0 → exec (.loop i k body stages rot) s = .next (((s.issued i r 0 [rs k]).onVtile i.tile (fun m => { m with
      pc := m.pc + 1, loops := { start := m.pc + 1, body, stages, rot, trips := (t.sreg k).toNat, iter := 0 } :: m.loops })).counted i)) ∧
    (t.sreg k = 0 → exec (.loop i k body stages rot) s = .next (((s.issued i r 0 [rs k]).onVtile i.tile
      (fun m => m.goto (t.pc + 1 + body))).counted i))) ∧
  (∀ s i target cond t r w, Issues s i 9 1 t r w →
    (brTaken t cond = true → exec (.br i target cond) s = .next (((s.issued i r 1 (brRegs cond)).onVtile i.tile (fun m => { m with
      pc := target, loops := m.loops.dropWhile (fun l => !(l.start ≤ target && target < l.start + l.body)) })).counted i)) ∧
    (brTaken t cond = false → exec (.br i target cond) s = .next ((s.issued i r 1 (brRegs cond)).retired i s (brRegs cond)))) ∧
  (∀ s i k t r w, Issues s i 9 2 t r w →
    exec (.csr i true k) s = .next (s.executed i r 2 [rs k] { t with cvtctl := (t.sreg k).setWidth 16 &&& 0xFF }) ∧
    exec (.csr i false k) s = .next (s.executed i r 2 [rs k] (t.setS k (t.cvtctl.setWidth 32))))

/-- A VECTOR node from its start to its end (05 R116, R126 to R129, R133, 09 R210). A node whose descriptor passes starts on a
tile in service that runs none, with its scales read unless it restores a context. Its program fetch fills the instruction memory and starts the tile at PC 0. `END` of a node whose
output is written makes its records and completes it. `YIELD` and a preemption save the context at CTX_ADDR and suspend the node; a
resumed node, the most urgent of those suspended on its tile, is fetched again with its context. An instruction of a class or an OP
without an assignment ends its node with `ST_INVALID`. -/
def Obligations.VectorNodes : Prop :=
  (∀ s cluster e x sc, firstOfKind s cluster 2 = some e → vxHead e.desc = true → vxTile s cluster (fld e.desc 92 1) = some (some x) →
    vxFmts e.desc = .ok → vxTail e.desc = true → (fld e.desc 93 1 % 2 = 1 ∧ sc = List.replicate 4 f32One ∨
      fld e.desc 93 1 % 2 = 0 ∧ vxScales s (flaskOfKey e.heat) e.desc = .ok sc) →
    vxArmed s cluster e.heat e.node e.desc = true →
    exec (.vectorNodeStart cluster) s = .next ((s.unqueue cluster e.heat e.node).onVtile x (fun t => { t with
      run := some (.fresh s e.heat e.node e.desc sc (streamsAt s e.heat e.node) false 0 [] false) }))) ∧
  (∀ s tile r b, (s.vtile tile).run = some r → vtileUp s tile = true → r.issuing = false →
    s.faults.any (fun f => f.who == .fetch tile) = false → r.restored = false → fld r.desc 93 1 = 0 →
    (s.vtile tile).prev ≠ some (flaskOfKey r.heat, r.progAddr, r.progLen) → readFlask s (flaskOfKey r.heat) r.progAddr (8 * r.progLen) = .ok b →
    exec (.programFetchDone tile) s = .next ((s.onFree (· + 8)).onVtile tile (fun t =>
      { ({ t with
          imem := (upto r.progLen).map (fun k => BitVec.ofNat 64 (fld b (8 * k) 8))
          ldm := if (match t.prev with | some p => p.1 == flaskOfKey r.heat | none => false) then t.ldm else [] } : VectorTile).start r.desc (nomixOf s (flaskOfKey r.heat)) (boundDesc s (tile / 2) r.desc) with
        prev := some (flaskOfKey r.heat, r.progAddr, r.progLen)
        run := some { r with issuing := true } }))) ∧
  (∀ s i t r w u, Issues s i 9 4 t r w → (s.issued i r 4 []).flushAsm i.tile r = (.ok, u) →
    (u.vtile i.tile).run = some r →
    exec (.endProgram i) s = .next (((u.onRun i.tile (fun r => { r with ended := true })).counted i).finishVector i.tile
      { r with ended := true })) ∧
  (∀ s i t r w b u, Issues s i 9 3 t r w → fld r.desc 8 8 ≠ 0 →
    ((s.issued i r 3 []).onVtile i.tile (fun t => t.goto (t.pc + 1))).suspend i.tile r true = (.ok b, u) →
    exec (.yield i) s = .next (u.counted i)) ∧
  (∀ s tile ecc r at0 l b u, (s.vtile tile).run = some r → moreUrgent s tile r.heat = at0 :: l → vtileUp s tile = true → r.ended = false →
    r.issuing = true → fld r.desc 8 8 ≠ 0 → overran s r.heat r.node = false → readWaits s r.heat r.node = false → ecc ≠ .uncorrectable →
    (s.until (max (least at0 l + 20000) (r.since + 100000))).suspend tile r false = (.ok b, u) →
    exec (.vectorPreempt tile ecc) s = .next (u.onVtile tile (fun t => { t with
      cnt := { t.cnt with eccCorr := t.cnt.eccCorr + (if ecc = .corrected then 1 else 0) } }))) ∧
  (∀ s tile r, nextSuspended s (s.vtile tile).susp = some r → (s.vtile tile).run = none → vtileUp s tile = true →
    moreUrgent s tile r.heat = [] →
    exec (.vectorResume tile) s = .next ((s.onVtile tile (fun t => { t with
      susp := t.susp.filter (fun y => !(y.heat == r.heat && y.node == r.node))
      run := some { r with since := s.time } })).onNode r.heat r.node (fun n => { n with st := .dispatched }))) ∧
  (∀ s i k t r w, Issues s i k undefOp t r w →
    exec (.unassignedClass i) s = .next ((s.issued i r undefOp []).failVector i.tile r .invalid))

/-- A context save of a VECTOR node (05 R133, 09 R210): when the bytes at CTX_ADDR can be written, the node is SUSPENDED with its
suspends counted, the tile runs none and is the node's to resume, its line assemblers are empty, and the save is counted. -/
def Obligations.VectorContextSaved : Prop :=
  ∀ (s : State) tile r byYield b t, s.tryWrite (flaskOfKey r.heat) (fld r.desc 8 8) (ctxImage (s.vtile tile) r byYield) = (.ok b, t) →
    s.suspend tile r byYield = (.ok [], ((t.onVtile tile (fun v => { v with
      run := none
      susp := v.susp ++ [{ r with issuing := false, restored := true }]
      asm := []
      cnt := { v.cnt with ctxSave := v.cnt.ctxSave + 1 } })).onNode r.heat r.node (fun n => { n with
        st := .suspended
        suspends := min 0xFFFF (n.suspends + 1) })))

/-- A MATRIX node from its start to its end (02 R59, R60, 03 R67, R68, R72 to R90, 04 R97 to R102). A node that passes its checks starts on a tile that runs none.
A load whose streams hold the block fills the bank that was not filled last. A row cycle that need not wait takes its operands; a corrected
error is counted. The activity level goes one step to its target under the duty ceiling. A hold ends when its cause is gone, its cycles
counted. A node whose rows are done and whose outputs have left completes. -/
def Obligations.MatrixNodes : Prop :=
  (∀ s cluster e sc sy x, firstOfKind s cluster 1 = some e → mxCheck e.desc = .ok → fld e.desc 15 1 < 4 →
    mxScales s (flaskOfKey e.heat) e.desc = .ok (sc, sy) → mxTile s cluster (fld e.desc 15 1) = some (some x) → mxTail e.desc = .ok →
    mxResident e.desc = false → mxArmed s cluster e.heat e.node e.desc = true →
    exec (.matrixNodeStart cluster) s = .next ((s.unqueue cluster e.heat e.node).onTile x (fun t => { t with
      run := some (.fresh e.heat e.node e.desc sc sy (streamsAt s e.heat e.node) false 0 [])
      hold := none
      held := 0
      acc := [] }))) ∧
  (∀ s tile r, (s.tile tile).run = some r → tileUp s tile = true → overran s r.heat r.node = false →
    r.loads < (mxDesc r.desc).total → r.loads = r.pass → exec (.weightLoadDone tile) s = .next (s.loadBlock tile r)) ∧
  (∀ s tile r, (s.tile tile).run = some r → tileUp s tile = true → r.ended = false → (s.tile tile).hold = none →
    overran s r.heat r.node = false → rowState s tile r = .go →
    ∀ loop, exec (.rowCycle tile .clean loop) s = .next ((s.loopWait tile r loop).rowIssue tile r) ∧
    exec (.rowCycle tile .corrected loop) s = .next (((s.onTile tile (fun m => { m with
      cnt := { m.cnt with eccCorr := m.cnt.eccCorr + 1 } })).loopWait tile r loop).rowIssue tile r) ∧
    exec (.rowCycle tile .uncorrectable loop) s = .next (s.failMatrix r .uncorrectable)) ∧
  (∀ s tile gap, clusterThere s (tile / 4) = true → (s.tile tile).run = none → (s.tile tile).hold = none →
    exec (.activityLevelStep tile gap) s = .next (s.onTile tile (fun m => { m with
      level := levelStep m.level (levelTarget m gap (dutyCeiling (dutyOf s tile) ((m.frame + 1) % 64)))
      frame := (m.frame + 1) % 64
      cnt := { m.cnt with
        stripDummy := m.cnt.stripDummy + 64 * m.level
        stripGated := m.cnt.stripGated + 64 * (16 - m.level) } }))) ∧
  (∀ s tile cycles planned waits r, (s.tile tile).run = some r → (s.tile tile).hold = some .opnd → rowState s tile r = .go →
    exec (.tileHoldResume tile cycles planned waits) s = .next ((s.unstall r.heat r.node cycles waits).onTile tile (fun m => { m with
      hold := none
      held := 0
      cnt := { m.cnt with
        stripDummy := m.cnt.stripDummy + (cycles - m.held) * m.level
        stripGated := m.cnt.stripGated + (cycles - m.held) * (16 - m.level)
        holdOpnd := m.cnt.holdOpnd + cycles } }))) ∧
  (∀ s tile r u b, (s.tile tile).run = some r → r.ended = true → overran s r.heat r.node = false → readWaits s r.heat r.node = false →
    outputsDone (s.flushOutputs r.heat r.node) r.heat r.node = true →
    (s.flushOutputs r.heat r.node).writeHist (flaskOfKey r.heat) (fld r.desc 72 8) ((fld r.desc 18 2).testBit 7) [r.conv] = (.ok b, u) →
    let ck := staleCheck (fld r.desc 26 1) (fld r.desc 32 4) (fld r.desc 36 4) (replayable r.streams) r.rerun
      [{ fmt := fmtOr (fld r.desc 14 1), scaleAddr := fld r.desc 64 8, conv := r.conv }]
    ck.rerun = [] →
    exec (.matrixNodeEnd tile) s = .next (((((u.closeStreams r.heat r.node).onTile tile (fun m => { m with
      run := none
      hold := none
      held := 0 })).spoilRerun (flaskOfKey r.heat) r.streams r.rerun).endNode r.heat r.node (staleStat (fld r.desc 26 1) ck.stale)
        (fun x => { x with
          stale := ck.summary ||| (r.stale &&& 0x10)
          cvt := leBytes 4 (r.conv.flags.toNat % 256) })).settle))

/-- HEARTH nodes and HBM slots (06 R143 to R158, 12 R280). The first queued node whose engines are free starts, and X is read into its engines.
A node whose engines have run and whose histogram is written ends, its pages unpinned. A failed engine is out of service and its nodes are
discarded. One slot of a pseudo-channel goes to refresh, the external path or the engine, and is counted; a refresh moves to the next bank. -/
def Obligations.HearthEngines : Prop :=
  (∀ s stack h xs, firstGang ((s.die stack).runs.map (·.2)) [] (s.die stack).queue = some h → ctlUp s stack = true →
    (∀ j < heCount h.desc, (Tab.get .init s.he (64 * stack + heFirst h.desc + j)).st = .ok) →
    readFlask s (flaskOfKey h.heat) (fld h.desc 48 8) (heXBytes h.desc) = .ok xs →
    exec (.hearthGangStart stack) s = .next ((s.onDie stack (fun b => { b with
      queue := b.queue.filter (fun q => !(q.heat == h.heat && q.node == h.node))
      runs := Tab.put b.runs b.nextRun { h with xs, begun := s.time }
      nextRun := b.nextRun + 1 })).onGang h (fun j e => { e with
        waitX := e.waitX + ceilDiv (heXBytes h.desc) 512
        waitGang := e.waitGang + gangWait s h j }))) ∧
  (∀ s stack run how h c u v b, Tab.find? (s.die stack).runs run = some h → how.bad = none →
    (s.gangFindings h how).gangRun h = .ok (c, u) →
    u.writeHist (flaskOfKey h.heat) (fld h.desc 72 8) ((heCvt h.desc).getLsbD 7) [c] = (.ok b, v) →
    let ck := staleCheck (fld h.desc 16 1) (fld h.desc 20 4) (fld h.desc 24 4) true false
      [{ fmt := fmtOr (fld h.desc 3 1), scaleAddr := 0, conv := c }]
    exec (.hearthNodeEnd stack run how) s = .next (((v.onDie stack (fun b => { b with
      runs := Tab.del b.runs run })).unpin (flaskOfKey h.heat) h.pinned).endNode h.heat h.node
        (staleStat (fld h.desc 16 1) ck.stale) (fun x => { x with
          stale := ck.summary
          cvt := leBytes 4 (c.flags.toNat % 256) }))) ∧
  (∀ s stack engine, stack < 8 → engine < 64 → (Tab.get .init s.he (64 * stack + engine)).st ≠ .failed →
    nodesOnEngine s stack engine false = [] →
    exec (.hearthEngineFail stack engine) s = .next ((s.onEngine (64 * stack + engine) (fun e => { e with
      st := .failed })).unitFailed 3 (stack + 8 * engine))) ∧
  (∀ s stack pc claims, pc < 64 → stack < 8 → ctlUp s stack = true →
    let ch := Tab.get .init (s.die stack).chans pc
    let failed := (Tab.get .init s.he (64 * stack + pc)).st == .failed
    let c := if failed then { claims with hearth := none } else claims
    let g := slotGrant (s.die stack) (extMost s stack) ch failed c
    let got := match g with | .ext id => some id | _ => none
    exec (.hbmSlotGrant stack pc claims) s = .next ((s.onEngine (64 * stack + pc) (fun e => e.slot g c)).onDie stack (fun b => { b with
      chans := Tab.put (s.die stack).chans pc { ch with
        cycle := (ch.cycle + 1) % 16
        ext := if ch.cycle = 15 then 0 else if got.isSome then ch.ext + 1 else ch.ext
        granted := got } })) ∧
    (claims.refresh = true → g = .refresh) ∧
    (claims.refresh = false → claims.ext = [] → (g = .free ∨ g = .hearth)) ∧
    (failed = true → g ≠ .hearth)) ∧
  (∀ s stack pc, pc < 64 → stack < 8 → ctlUp s stack = true →
    exec (.hbmRefresh stack pc) s = .next ((s.onDie stack (fun b => { b with
      chans := Tab.upd .init b.chans pc (fun c => { c with bank := (c.bank + 1) % 16 }) })).onCtl stack
        (fun m => { m with refreshes := m.refreshes + 1 })))

/-- Streams (07 R161, R162, R165 to R174, R182). A STREAM node whose program passes its checks arms its idle context, FILLING. The issue slot goes to the
eligible context with the smallest dry time, and the request carries the deadline tag of that time. A response that crosses the network of an input stream's device line that has no error enters the tundish ring; a lost one is
asked for again, up to three times. A partner releases input bytes and hands over output bytes. A finished stream completes with `ST_OK`. -/
def Obligations.StreamLife : Prop :=
  (∀ s cluster e b p, firstOfKind s cluster 3 = some e → streamHead e.desc = true →
    ladleDown s cluster = false → readFlask s (flaskOfKey e.heat) (fld e.desc 64 8) (16 * fld e.desc 3 1) = .ok b →
    programCheck e.desc b = .ok p →
    let x := ctxKey cluster (sdCtx e.desc)
    tundishOk s x e.desc = true → linkOk s x (freshStream e.heat e.node e.desc p) = true → (s.ctx x).st = .idle →
    exec (.streamArm cluster) s = .next ((((s.unqueue cluster e.heat e.node).onCtx x (fun c => { c with
      st := .filling
      cur := some (freshStream e.heat e.node e.desc p) })).armed x).progress e.heat)) ∧
  (∀ s cluster rates x sc c, ladleDown s cluster = false → slotWinner s cluster rates = some (x, sc) → (s.ctx x).cur = some c →
    exec (.ladleRequestIssue cluster rates) s = .next ((((s.passSlot cluster (sdOut c.desc)).issue x sc
      (deadlineTag (dryTime c ((rates.find? (fun y => y.1 == x % 32)).map (·.2))) (clusterMHz s cluster))).watch cluster).settle)) ∧
  (∀ s u cluster ctx req c r, (s.ctx (ctxKey cluster ctx)).cur = some c → c.reqs.find? (fun r => r.id == req) = some r →
    sdLink c.desc = false → sdOut c.desc = false → r.host = false → biOut s r.line = false → snooped s r.line false = false →
    physOutcome s r.line 64 false = .ok →
    let t := (s.reach r.line 64).lineError r.line .clean
    t.poisonIn r.line 64 = [] → t.returns (ctxKey cluster ctx) c r .ok = (u, true) → (u.ctx (ctxKey cluster ctx)).cur = some c →
    exec (.ladleResponse cluster ctx req .clean false) s = .next
      ((((u.ringWrite (ctxKey cluster ctx) c.desc r.scale r.pos (((t.devRead r.line 64).drop r.off).take r.len)).onLdCnt
        (ctxKey cluster ctx) (fun k => { k with bytesIn := k.bytesIn + r.len })).onStream (ctxKey cluster ctx) (fun c =>
          { c.drop r.id with bytes := c.bytes + if r.scale then 0 else r.len })).watch cluster)) ∧
  (∀ s cluster ctx req err c r, (s.ctx (ctxKey cluster ctx)).cur = some c → c.reqs.find? (fun r => r.id == req) = some r → r.retry < 3 →
    sdLink c.desc = false →
    exec (.ladleResponse cluster ctx req err true) s = .next (((((s.onLdCnt (ctxKey cluster ctx) (fun k => { k with
      retry := k.retry + 1 })).onStream (ctxKey cluster ctx) (fun c => { c with
        reqs := c.reqs.map (fun q => if q.id = r.id then { r with retry := r.retry + 1 } else q) })).depart (ctxKey cluster ctx) c
          { r with retry := r.retry + 1 }).settle).watch cluster)) ∧
  (∀ s cluster ctx bytes stall c, (s.ctx (ctxKey cluster ctx)).cur = some c → sdOut c.desc = true → c.made + bytes ≤ c.prog.size →
    bytes ≤ c.room →
    exec (.partnerRelease cluster ctx bytes stall) s = .next ((((s.stalled (ctxKey cluster ctx) stall).touch (ctxKey cluster ctx)).onStream
      (ctxKey cluster ctx) (fun c => { c with made := c.made + bytes })).collect (ctxKey cluster ctx))) ∧
  (∀ s cluster ctx c, (s.ctx (ctxKey cluster ctx)).cur = some c → c.finished = true → c.fate = none → heldForRerun s c = false →
    exec (.streamComplete cluster ctx) s = .next (s.endStream (ctxKey cluster ctx) .ok).settle)

/-- The network and the fabric ports' life (01 R24, 07 R182, 13 R311, R314, R322, 15 R351 to R360, R363). The winner of an output's arbitration moves. A request of a ladle or of
a fabric port without a response in its bound is retried; the node of a dispatch that was dropped on its way fails. A sink that takes longer than its bound breaches and faults its flask. A port that
loses FCLK ends its dispatches with `ST_NOT_PRESENT`; a port whose mould runs is enabled. -/
def Obligations.NetworkAndPortLife : Prop :=
  (∀ s unit out link err q b, winner s unit out link = (some q, b) →
    exec (.flitForward unit out link err) s = .next (((s.granted unit out link q).moveFlit unit out link q err).pumpUnit unit out)) ∧
  (∀ s cluster tag c r rest, (s.ctx (ctxKey cluster tag)).cur = some c → c.reqs = r :: rest → r.retry < 3 →
    sdLink c.desc = false →
    exec (.networkResponseTimeout cluster 6 tag) s = .next ((((s.onLdCnt (ctxKey cluster tag) (fun k => { k with
      retry := k.retry + 1 })).onStream (ctxKey cluster tag) (fun c => { c with
        reqs := c.reqs.map (fun q => if q.id = r.id then { r with retry := r.retry + 1 } else q) })).depart (ctxKey cluster tag) c
          { r with retry := r.retry + 1 }).settle)) ∧
  (∀ s cluster n tag r, n < 4 → (s.fport (4 * cluster + n)).outs.find? (fun r => r.tag == tag && r.flit.src != 0) = some r →
    r.flit.op = 0 → r.retry < 3 →
    exec (.networkResponseTimeout cluster (9 + n) tag) s = .next ((s.onPort (4 * cluster + n) (fun p => { p with
      outs := p.outs.map (fun q => if q.tag = r.tag then { q with retry := r.retry + 1, flit := { r.flit with src := 0 } } else q) })).pumpTx
        (4 * cluster + n))) ∧
  (∀ s cluster tag d, lostDispatch s cluster tag = some d →
    exec (.networkResponseTimeout cluster 1 tag) s = .next ((s.failNode d.1 d.2 .uncorrectable).settle)) ∧
  (∀ s port cls, (s.fport port).up = true → (s.fport port).waiting cls ≠ 0 →
    exec (.sinkBoundExpiry port cls) s = .next ((s.onPort port (fun p => { p with
      breach := true
      rx := []
      tx := []
      outs := [] })).flaskFault (s.fport port).owner none)) ∧
  (∀ s port f, (s.fport port).flask = some f → (s.fport port).fclk = true →
    exec (.fclkLoss port) s = .next (((s.onPort port (fun p => { p with
      fclk := false
      en := false
      rx := []
      tx := []
      outs := []
      clkLost := p.clkLost + 1 })).dropFaults (fun f => match f.who with | .port y _ => y == port | _ => false)).endDtags port .notPresent)) ∧
  (∀ s port f, (s.fport port).flask = some f → (s.fport port).breach = false → (s.fport port).reconf = false → portRuns s port = true →
    exec (.fabricPortEnable port) s = .next (s.onPort port (fun p => { p with
      en := true
      fclk := true })))

/-- A port's traffic (13 R306, R308, R312 to R318, R320, 14 R336). Reads, line writes and endpoint messages enter the TX queue of a ready port, counted, from which the
network takes what it has credits for; output bytes enter their stream's tundish; a completion of a node's dispatch crosses the network and ends the node, which fails where it is lost; a received flit is taken and counted. A capture sample enters
its trace, and an access of the block RAM window reads or writes the bytes. -/
def Obligations.PortTraffic : Prop :=
  (∀ s port lines, 1 ≤ lines.length → lines.length ≤ 8 → (s.fport port).readsOut + lines.length ≤ 256 → txReady s port 0 = true →
    exec (.readRequest port lines) s = .next ((s.onPort port (fun p => { p with reads := p.reads + lines.length })).acceptTx port
      (readFlit lines) (lines.map (fun l => portReq (l.1 / 64 * 64) (l.2 % 65536) false (txFlit 0 (l.2 % 65536) 0 0 []))))) ∧
  (∀ s port va tag data, txReady s port 2 = true →
    let f := txFlit 2 (tag % 65536) 0 0 (padTo 64 data)
    exec (.lineWrite port va tag data) s = .next (s.acceptTx port f [portReq (va / 64 * 64) (tag % 65536) true f])) ∧
  (∀ s port endpoint tag data y, txReady s port 2 = true → messagePort s (s.fport port).owner endpoint = some y →
    let f := txFlit 2 (tag % 65536) 1 (routerPort (y / 4) (9 + y % 4)) (padTo 64 data)
    exec (.endpointMessage port endpoint tag data) s = .next (s.acceptTx port f [portReq 0 (tag % 65536) true f])) ∧
  (∀ (s : State) x f reqs, s.acceptTx x f reqs = ((s.txCount x).onPort x (fun p => { p with
    tx := p.tx ++ [f]
    outs := p.outs.filter (fun q => !reqs.any (fun r => r.tag == q.tag)) ++ reqs })).pumpTx x) ∧
  (∀ s port ctx last data c, txReady s port 2 = true → ctx < 32 → (s.ctx (ctxKey (port / 4) ctx)).cur = some c → sdOut c.desc = true →
    flaskOfKey c.heat = (s.fport port).owner → c.made < c.prog.size → min 64 (c.prog.size - c.made) ≤ c.room →
    let u := (s.txCount port).produce (ctxKey (port / 4) ctx) (slice data 0 (min 64 (c.prog.size - c.made))) []
    exec (.streamOutput port ctx last data) s = .next (if last then u.onStream (ctxKey (port / 4) ctx)
      (fun c => { c with early := c.early || c.made != c.prog.size }) else u)) ∧
  (∀ s port dtag word result d u, (s.fport port).up = true → (s.fport port).dtags.find? (fun d => d.1 == dtag) = some d →
    let t := (s.txCount port).onPort port (fun p => { p with dtags := p.dtags.filter (fun e => e.1 != dtag) })
    t.sends (routerPort (port / 4) (9 + port % 4)) (completionFlit t port dtag word result) true = (u, true) →
    (fabricStat word ≠ .ok → exec (.fabricCompletion port dtag word result) s = .next (u.endNode d.2.1 d.2.2 (fabricStat word) (fun x => { x with
      detail := word % 2 ^ 32
      result := padTo 16 result }))) ∧
    (fabricStat word = .ok → exec (.fabricCompletion port dtag word result) s = .next ((u.flushOutputs d.2.1 d.2.2).endNode d.2.1 d.2.2 .ok
      (fun x => { x with
        detail := word % 2 ^ 32
        result := padTo 16 result })))) ∧
  (∀ s port dtag word result d u, (s.fport port).up = true → (s.fport port).dtags.find? (fun d => d.1 == dtag) = some d →
    let t := (s.txCount port).onPort port (fun p => { p with dtags := p.dtags.filter (fun e => e.1 != dtag) })
    t.sends (routerPort (port / 4) (9 + port % 4)) (completionFlit t port dtag word result) true = (u, false) →
    exec (.fabricCompletion port dtag word result) s = .next ((u.failNode d.2.1 d.2.2 .uncorrectable).settle)) ∧
  (∀ s port cls waited f rest, (s.fport port).up = true → takeFirst cls (s.fport port).rx = some (f, rest) →
    exec (.fabricRxDeliver port cls waited) s = .next (s.onPort port (fun p => { p with
      rx := rest
      flitsRx := p.flitsRx + 1
      rspWaitMax := if cls = 1 then max p.rspWaitMax waited else p.rspWaitMax }))) ∧
  (∀ s cluster data, portRuns s (4 * cluster) = true → traceUse s cluster 3 = true →
    exec (.captureSample cluster data) s = .next (s.traceEntry cluster (leBytes 8 data.toNat ++ leBytes 8 s.time))) ∧
  (∀ s addr data, bramBase ≤ addr → physOutcome s addr 64 true = .ok →
    exec (.blockRamWindowAccess addr true data []) s = .next (s.devWrite addr (padTo 64 data))) ∧
  (∀ s addr, bramBase ≤ addr → physOutcome s addr 64 false = .ok → exec (.blockRamWindowAccess addr false [] []) s = .next s)

/-- RESET (18 R439 to R441). A form that passes its checks starts its reset; a cluster or partition reset restarts rings, a partition's
PLLs unlock, a device reset completes the command first. When the unit's mould has started again the command ends
with `ST_OK`, with the resets that it covers; a reset that another one covers waits for that one (18 R444). -/
def Obligations.ResetCommands : Prop :=
  (∀ s cid c i, Fresh s cid 0x0D c → resetCluster c = some i → c.p 0 1 = 0 → resetForm c = true → callerOwns s c i = true →
    tileThere s i (c.p 3 1) = true → exec (.resetTile cid) s = .next (s.startReset c)) ∧
  (∀ s cid c i, Fresh s cid 0x0D c → resetCluster c = some i → c.p 0 1 = 1 → resetForm c = true → callerOwns s c i = true →
    clusterThere s i = true → exec (.resetCluster cid) s =
      .next (if c.p 2 1 = 1 then (s.startReset c).restartRings [i] (some cid) else s.startReset c)) ∧
  (∀ s cid c e, Fresh s cid 0x0D c → resetEngine c = some e → c.p 0 1 = 2 → resetForm c = true → c.flask = 0xFF →
    ctlUp s (e / 64) = true → (Tab.get .init s.he e).st ≠ .failed → exec (.resetHearthEngine cid) s = .next (s.startReset c)) ∧
  (∀ s cid c, Fresh s cid 0x0D c → c.p 0 1 = 3 → resetForm c = true → c.p 4 2 ≤ 3 → c.flask = 0xFF → healthyPart s (c.p 4 2) = true →
    exec (.resetPartition cid) s = .next (((s.startReset c).restartRings (clustersOf s (c.p 4 2)) (some cid)).onSprue (fun x => { x with
      plls := x.plls.map (fun y => (y.1, if y.1 / 32 = c.p 4 2 then { y.2 with locked := false } else y.2)) }))) ∧
  (∀ s cid c q, Fresh s cid 0x0D c → c.p 0 1 = 4 → resetForm c = true → c.p 4 2 = 0 → c.flask = 0xFF → cqTakes s c.qnum = true →
    c.p 1 1 ≤ 1 → (s.resetRecord c |>.finish cid .ok zeros16).queue? c.qnum = some q →
    (∀ o, (s.resetRecord c |>.finish cid .ok zeros16).queue? q.cqOf = some o → o.waiting = []) →
    exec (.resetDevice cid) s = .next ((postMany q.cqOf 0 ((s.resetRecord c).finish cid .ok zeros16)).deviceReset 1 (c.p 1 1 = 0))) ∧
  (∀ s cid c, Works s cid .reset c → (∀ m ∈ s.sprue.moulds, m.2.resetCid ≠ some cid) →
    ((∀ x ∈ otherResets s cid, covers s x c = false) →
      exec (.resetComplete cid) s = .next (((s.endCovered c).endReset c).finish cid .ok zeros16)) ∧
    ((∃ x ∈ otherResets s cid, covers s x c = true) → exec (.resetComplete cid) s = .next s))

/-- The power cap, telemetry and the black box (10 R250, 19 R454, 20 R468, R475, R476). A cap takes effect at the next control period. Telemetry
and black box reads write the page's or the log's bytes into host memory and report how many and what comes next; the defect list is read
from an index. A commit moves the first queued record into the log. -/
def Obligations.PowerCapAndLogs : Prop :=
  (∀ s cid c, Fresh s cid 0x0E c → c.flask = 0xFF → (c.p 0 4 = 0 ∨ 700 ≤ c.p 0 4 ∧ c.p 0 4 ≤ 2800) → c.reserved 4 47 = true →
    exec (.powerCapSet cid) s = .next ((s.onPower (fun w => { w with
      next := some (2 * (if c.p 0 4 = 0 then 2400 else c.p 0 4)) })).onCmd cid (fun c => { c with work := .cap }))) ∧
  (∀ s cid c b, Fresh s cid 0x0F c → c.reserved 1 3 = true → c.reserved 20 47 = true → c.p 8 8 % 64 = 0 → c.p 16 2 % 64 = 0 →
    64 ≤ c.p 18 2 → c.p 18 2 % 64 = 0 → c.p 16 2 + c.p 18 2 ≤ 4096 → telemetryPage s c.flask (c.p 0 1) (c.p 4 4) = .ok b →
    exec (.telemetryRead cid false) s = .next ((s.hostWrite (c.p 8 8) (slice b (c.p 16 2) (c.p 18 2))).finish cid .ok (leBytes 8 s.time))) ∧
  (∀ s cid c, Fresh s cid 0x10 c → boxReadForm c = true →
    (c.p 20 1 = 0 → exec (.blackboxRead cid false) s = .next ((s.hostWrite (c.p 0 8) (boxRead s (c.p 8 8) (c.p 16 4))).finish cid .ok
      (boxResult (c.p 16 4) false (c.p 8 8)))) ∧
    (c.p 20 1 ≠ 0 → ((recordsOf s (c.p 21 1)).filter (fun b => c.p 8 8 ≤ fld b 0 8 && (c.flask == 0xFF || fld b 10 1 == c.flask))) = [] →
      exec (.blackboxRead cid false) s = .next ((s.hostWrite (c.p 0 8) []).finish cid .ok
        (boxResult 0 (boxGap s (c.p 21 1) (c.p 8 8)) (c.p 8 8))))) ∧
  (∀ s cid c, Fresh s cid 0x11 c → 1 ≤ c.p 12 4 → c.p 12 4 ≤ 32768 → c.reserved 16 47 = true →
    let l := (s.box.defects.drop (c.p 8 4)).take (c.p 12 4)
    exec (.defectListRead cid false) s = .next ((s.hostWrite (c.p 0 8) (l.flatMap defectBytes)).finish cid .ok
      (leBytes 4 s.box.defects.length ++ leBytes 4 l.length))) ∧
  (∀ s r rest, coresRun s = true → s.box.queue = r :: rest → r.type ≠ 1 → isSecurity r.type = false →
    exec .blackboxCommit s = .next ((s.onBox (fun b => { b with queue := rest })).onBox (·.putEvent r)))

/-- LINK_CONTROL (16 R375, R376, R384). NODE_CONFIG takes effect with no group defined; PORT disables, enables or retrains the named ports and ends
when they have settled; a group is created from its member list, and destroyed when no collective uses it. -/
def Obligations.LinkControl : Prop :=
  (∀ s cid c b, Fresh s cid 0x14 c → c.p 0 1 = 1 → nodeForm c = true → readFlask s 0xFF (c.p 16 8) 1024 = .ok b → blockForm b = true →
    s.nimra.groups = [] → exec (.nodeConfig cid) s =
      .next ((s.configure (if c.p 4 4 = 0xFFFF then none else some (c.p 4 4)) b).finish cid .ok zeros16)) ∧
  (∀ s cid c, Fresh s cid 0x14 c → c.p 0 1 = 2 → portForm c = true →
    (c.p 8 1 = 0 → exec (.portDisable cid) s = .next ((((namedPorts c).foldl (fun s n => s.disablePort n) s).onCmd c.cid (fun c => { c with
      work := .link })).finishLinks.nimraGo)) ∧
    (c.p 8 1 = 1 → exec (.portEnable cid) s = .next ((((namedPorts c).foldl (fun s n => s.enablePort n (c.p 9 1) (c.p 10 1) (c.p 11 1)) s).onCmd
      c.cid (fun c => { c with work := .link })).finishLinks.nimraGo)) ∧
    (c.p 8 1 = 2 → exec (.retrain cid) s = .next ((((namedPorts c).foldl (fun s n =>
      if (s.eport n).st = .disabled || !portRef s n then s else
        ((s.leaveActive n).onEport n (fun e => { e with cfg := cfgWord 1 (c.p 9 1) (c.p 10 1) (c.p 11 1) })).firstAttempt n) s).onCmd
      c.cid (fun c => { c with work := .link })).finishLinks.nimraGo))) ∧
  (∀ s cid c b node, Fresh s cid 0x14 c → c.p 0 1 = 3 → groupForm c = true → s.nimra.nodeId = some node →
    readFlask s c.flask (c.p 16 8) (4 * c.p 8 4) = .ok b → membersOk s c b = true → Tab.has s.nimra.groups (c.p 4 1) = false →
    exec (.groupCreate cid) s = .next ((s.onNimra (fun m => { m with
      groups := Tab.put m.groups (c.p 4 1) (Group.fresh c.flask (c.p 6 2) (memberList b (c.p 8 4))) })).finish cid .ok zeros16)) ∧
  (∀ s cid c x, Fresh s cid 0x14 c → c.p 0 1 = 4 → c.flask < 16 → c.reserved 1 3 = true → c.reserved 5 47 = true →
    s.group? (c.p 4 1) = some x → x.flask = c.flask → (∀ y ∈ s.nimra.colls, y.group ≠ c.p 4 1) →
    exec (.groupDestroy cid) s = .next ((s.dropGroup (c.p 4 1)).finish cid .ok zeros16))

/-- SELF_TEST and register writes (06 R156, 12 R290, R292, 15 R359, 16 R374, 17 R400, 18 R438, R494). The start mode and the probe filter of an exposed unit are set; a
cluster test takes an idle cluster out, and at its end clears its SRAM or takes the cluster out of service with a finding, an event and a
lower level. A write of BAR 0 and of each writable register keeps its reserved bits clear. -/
def Obligations.SelfTestAndRegisters : Prop :=
  (∀ s cid c, Fresh s cid 0x15 c → c.p 0 1 = 1 → c.flask = 0xFF → c.p 4 1 ≤ 1 → c.reserved 1 3 = true → c.reserved 5 47 = true →
    exec (.startMode cid) s = .next ((s.onBox (fun b => b.updCtl (fun x => { x with quick := c.p 4 1 = 1 }))).finish cid .ok zeros16)) ∧
  (∀ s cid c, Fresh s cid 0x15 c → c.p 0 1 = 2 → c.p 4 4 < 96 → c.flask = 0xFF → c.reserved 1 3 = true → c.reserved 16 47 = true →
    exposed s (c.p 4 4) = true → exec (.probeFilter cid) s = .next ((s.onUnit (c.p 4 4) (fun u => { u with
      probeCtl := BitVec.ofNat 64 (c.p 8 8) &&& 0x00003FFFFFFFFF3F })).finish cid .ok zeros16)) ∧
  (∀ s cid c i, Fresh s cid 0x15 c → c.p 0 1 = 3 → unpackCluster (c.p 4 2) = some i → c.reserved 1 3 = true → c.reserved 6 47 = true →
    callerOwns s c i = true → clusterThere s i = true → clusterBusy s i = false →
    exec (.clusterTest cid) s = .next ((s.onCmd cid (fun c => { c with work := .test })).beginReset c)) ∧
  (∀ s cid c i, Works s cid .test c → unpackCluster (c.p 4 2) = some i →
    exec (.clusterTestDone cid none) s = .next ((((s.endCovered c).endReset c).zeroSram i).finish cid .ok zeros16) ∧
    ∀ k, let place := siteOf s i + k % 7 * 256
      exec (.clusterTestDone cid (some k)) s = .next (((((s.endReset c).loseCluster i).addDefect 1 4 place 0).devEvent 0x0A .notPresent 1
        place).fall.finish cid .ok (leBytes 1 1 ++ leBytes 1 (k % 7)))) ∧
  (∀ (s : State) v,
    (∀ off width, exec (.registerWrite (.bar0 off width) v) s = .next (barWrite off width v.toNat s)) ∧
    (∀ k < 8, exec (.registerWrite (.hbArb k) v) s = .next (s.onHb (fun t => Tab.upd .init t k (fun d => { d with
      arb := BitVec.ofNat 32 v.toNat &&& 0x00FFFF0F })))) ∧
    (∀ k < 20, exec (.registerWrite (.mcScrub k) v) s = .next (s.onCtl k (fun m => { m with interval := bits v.toNat 31 0 })) ∧
      exec (.registerWrite (.mcBucket k) v) s = .next (s.onCtl k (fun m => { m with
        threshold := bits v.toNat 23 16
        leakMs := bits v.toNat 47 32 }))) ∧
    (∀ i < 96, exec (.registerWrite (.ntProbe i) v) s = .next (s.onUnit i (fun u => { u with
      probeCtl := v &&& 0x00003FFFFFFFFF3F }))) ∧
    (∀ n < 32, exec (.registerWrite (.epCfg n) v) s = .next (s.onNimra (fun m => { m with
      ports := Tab.upd .init m.ports n (fun e => { e with cfg := BitVec.ofNat 32 v.toNat }) }))))

/-- FW_LOAD (18 R430, R431). An image that passes its checks is written: the target region is erased first and invalid meanwhile; another is
refused with its status and leaves the flash as it was. When an image is
programmed the region holds it; a provisioning record's entries are burnt, and COMMIT_SVN burns the version count. -/
def Obligations.FirmwareLoads : Prop :=
  (∀ s cid c, Fresh s cid 0x09 c → fwLoadForm c = true → s.flash.writing = none →
    let t := match fwImage s (c.p 0 8) (c.p 8 1) with
      | .error e => (s.blame 0xFF (c.p 0 8) (if e.1 = [] then 1024 else if c.p 8 1 = 1 then fld e.1 16 8 else 1024 + fwLength e.1)
          e.2.1).fwFail c.cid (if c.p 8 1 = 2 then 5 else 1) e.1 e.2.1 e.2.2
      | .ok img => (s.onFlash (fun f => { f.erase (c.p 8 1) with
          writing := some (c.p 8 1, img) })).onCmd c.cid (fun c => { c with work := .flash })
    (c.p 8 1 = 0 → exec (.fwLoad cid) s = .next t) ∧ (c.p 8 1 = 1 → exec (.fwLoadShell cid) s = .next t) ∧
      (c.p 8 1 = 2 → exec (.fwLoadProvisioning cid) s = .next t)) ∧
  (∀ s cid c img, Works s cid .flash c → s.flash.writing = some (2, img) → ∀ ok, exec (.flashProgramDone cid ok) s =
    .next (((s.onFlash (fun f => { f with writing := none })).burnAll (img.drop 1024)).finish cid .ok zeros16)) ∧
  (∀ s cid c img, Works s cid .flash c → s.flash.writing = some (1, img) → exec (.flashProgramDone cid true) s =
    .next (((s.onFlash (fun f => { f with writing := none })).onFlash (fun f => { f with
      primaryShell := some img })).finish cid .ok zeros16)) ∧
  (∀ s cid c img, Works s cid .flash c → s.flash.writing = some (0, img) → exec (.flashProgramDone cid true) s =
    .next ((if c.p 9 1 = 1 then (((s.onFlash (fun f => { f with writing := none })).onFlash (fun f => { f with
      primaryFw := .ofImage img })).commitSvn (fwSvnOf img)) else ((s.onFlash (fun f => { f with writing := none })).onFlash (fun f => { f with
        primaryFw := .ofImage img }))).finish cid .ok zeros16)) ∧
  (∀ s cid c img, Works s cid .flash c → s.flash.writing = some (1, img) → exec (.flashProgramDone cid false) s =
    .next ((s.onFlash (fun f => { f with writing := none })).fwFail cid 1 img .authFail (some 5)))

/-- Serving loops (11 R254, R257 to R271). A session opens on the loop its descriptor makes or joins. A request with a valid input binds to the
session, with its homes chosen at the first; a session without a request closes at once, and a cancelled or closed one ends its request at a
step boundary. A decode step carries the batch of ready sessions and a prefill step the next chunk of the first. A decode step's rows sample when its
heat is complete and the tiles of SAMPLE_CLUSTER are idle and in service; with one of them out of service the step's rows fail. A parked session returns when its pages are back. -/
def Obligations.ServingLoops : Prop :=
  (∀ s cid c f d roles, Fresh s cid 0x86 c → c.p 0 8 % 64 = 0 → c.p 0 8 < 2 ^ 48 → c.p 8 4 % 64 = 0 → 128 ≤ c.p 8 4 →
    c.reserved 32 47 = true → s.flask? c.flask = some f → Tab.find? s.serving.loops (loopKey c.flask (c.p 0 8)) = none →
    readFlask s c.flask (c.p 0 8) 256 = .ok d → svForm d = true → readFlask s c.flask (fld d 136 8) (32 * svNRole d) = .ok roles →
    svCheck s c.flask f d roles = .ok →
    exec (.serveOpen cid) s = .next (s.openSession c (loopKey c.flask (c.p 0 8)) { desc := d, roles, steps := 0, decode := none, prefill := none })) ∧
  (∀ (s : State) c key l i, c.p 8 4 ≤ svMaxCtx l.desc → s.serving.sessions.length < 65536 →
    (s.serving.sessions.filter (fun x => x.2.loop == key)).length < 16384 → freeListSlot s key l.desc = some i →
    s.openSession c key l = ((s.onServing (fun v => { v with
      loops := Tab.put v.loops key l
      sessions := Tab.put v.sessions s.serving.nextSess (.fresh key c i)
      nextSess := s.serving.nextSess + 1 })).finish c.cid .ok (leBytes 4 s.serving.nextSess ++ leBytes 4 l.steps))) ∧
  (∀ s cid c x l b, Fresh s cid 0x87 c → requestForm c = true → sessionOf s c = some x → Tab.find? s.serving.loops x.loop = some l →
    (c.p 30 1).testBit 0 = false → readFlask s c.flask (c.p 8 8) (4 * c.p 4 4) = .ok b →
    let input := (upto (c.p 4 4)).map (fun i => fld b (4 * i) 4)
    (∀ t ∈ input, t < svVocab l.desc) → x.ctxLen + c.p 4 4 ≤ x.maxCtx - 1 → closing s (c.p 0 4) x = false → x.req = none → x.homes ≠ [] →
    exec (.serveRequest cid false) s = .next (((s.onSession (c.p 0 4) (fun x' =>
      let y := { x' with
        homes := x.homes
        req := some (Req.fresh c input)
        order := s.serving.nextOrder }
      if x'.st = .parked then y else y.begin)).onServing (fun v => { v with nextOrder := v.nextOrder + 1 })).onCmd cid
        (fun x => { x with work := .serve (c.p 0 4) }))) ∧
  (∀ s cid c x r, Fresh s cid 0x88 c → c.reserved 4 47 = true → sessionOf s c = some x → x.req = some r →
    exec (.serveCancel cid) s = .next ((s.onCmd cid (fun y => { y with work := .sessEnd (c.p 0 4) false })).endAtBoundary (c.p 0 4) 4
      .discarded)) ∧
  (∀ s cid c x, Fresh s cid 0x89 c → c.reserved 4 47 = true → sessionOf s c = some x →
    (x.req = none → exec (.serveClose cid) s = .next ((s.dropSession (c.p 0 4)).finish cid .ok zeros16)) ∧
    (∀ r, x.req = some r → exec (.serveClose cid) s =
      .next ((s.onCmd cid (fun y => { y with work := .sessEnd (c.p 0 4) true })).endAtBoundary (c.p 0 4) 5 .discarded))) ∧
  (∀ s loop l ns u, Tab.find? s.serving.loops loop = some l → l.decode = none → s.faults.any (fun f => f.who == .loop (4 * loop)) = false →
    (s.holdReady loop).formBatch loop l.desc false (readyOrder (s.holdReady loop) loop) (svMaxBatch l.desc) [] = (ns, none, u) → ns ≠ [] →
    let rows := (u.serving.sessions.filter (fun x => ns.contains x.1)).map (fun x => ({ n := x.1, x := x.2, pos := x.2.ctxLen, token := x.2.token } : Row))
    rows.length ≤ 8 →
    exec (.decodeStep loop) s = .next (u.submitStep loop l {
      prefill := false, pattern := svPatH l.desc rows.length, rows, tokens := 1, width := rows.length, array := false
      block := decodeBlock l.steps rows rows.length } false)) ∧
  (∀ s loop l n x rest u, Tab.find? s.serving.loops loop = some l → l.prefill = none →
    s.faults.any (fun f => f.who == .loop (4 * loop + 1)) = false →
    (s.serving.sessions.filter (fun x => x.2.loop == loop && x.2.st == .prefill)).mergeSort (fun a b => a.2.order ≤ b.2.order) = (n, x) :: rest →
    ∀ r, x.req = some r →
    let k := min (svChunk l.desc) (r.input.length - 1)
    s.takePages n loop l.desc x false (needKeys l.desc x x.ctxLen (x.ctxLen + k)) = (.ok, u) →
    exec (.prefillStep loop) s = .next (u.submitStep loop l {
      prefill := true, pattern := svPrefill l.desc, rows := [{ n, x, pos := x.ctxLen, token := 0 }], tokens := k, width := 1, array := false
      block := stepHeader l.steps 1 1 1 x.ctxLen k ++ (r.input.take k).flatMap (leBytes 4) } false)) ∧
  (∀ s loop k h l st, s.graph.heats.find? (fun h => h.2.loop == some (loop, false) && h.2.complete) = some (k, h) →
    Tab.find? s.serving.loops loop = some l → l.decode = some st → st.heat = k → h.outcome.1.failure = false →
    let tiles := sampleTiles l.desc st.rows.length
    let t := (s.dropHeat k).onServing (fun v => { v with loops := Tab.mod v.loops loop (fun l => { l with decode := none }) })
    ((∀ x ∈ tiles, vtileUp s x = true ∧ (s.vtile x).run = none) → sampleWait s loop l.desc st.rows.length = none →
      exec (.stepComplete loop false) s = .next ((st.rows.zipIdx).foldl (fun s r => s.rowDone loop l st r.2 r.1)
        (t.after (sampleCycles l.desc st.rows.length * 1000 / max 1 (clusterMHz s ((tiles.headD 0) / 2)))))) ∧
    ((∃ x ∈ tiles, vtileUp s x = false) → exec (.stepComplete loop false) s = .next (t.failRows l.desc st .notPresent))) ∧
  (∀ s n x l u same, s.session? n = some x → Tab.find? s.serving.loops x.loop = some l → x.st = .parked → x.req ≠ none →
    s.faults.any (fun f => f.who == .loop (4 * x.loop + 2)) = false → s.returnPages n x.loop l.desc x x.spill true = (.ok same, u) →
    exec (.unpark n false) s = .next (u.onSession n (fun x => { x with
      placed := x.placed || !same
      spill := [] }.begin)))

/-- A Nimra port (16 R370, R372 to R374, R377). Auto-negotiation agrees on a mode that the attempt advertises and the port trains; training done
it aligns its lanes; aligned it is ACTIVE, with an event at 200G. A timeout falls back to the next attempt; an ACTIVE port that loses
its link starts again. Dropped frames are counted, and so are corrected symbols and uncorrectable code words. -/
def Obligations.NimraPort : Prop :=
  (∀ s n m, portIn s n .an = true → advertises (s.eport n) m = true → exec (.anAgreement n m) s = .next (s.onEport n (fun e => { e with
    st := .training
    g400 := m == .g400 }))) ∧
  (∀ s n, portIn s n .an = true → exec (.anRestart n) s = .next (s.onEport n (fun e => { e with lanes := 0 }))) ∧
  (∀ s n lanes, portIn s n .training = true → lanes.length = (if (s.eport n).g400 then 4 else 2) →
    let blank : LaneEq := { ctle := 0, tap1 := 0, tap2 := 0, tap3 := 0, margin := 0 }
    exec (.trainingDone n lanes) s = .next (s.onEport n (fun e => { e with
      st := .align
      lanes := lanes.length
      laneEq := (List.replicate (firstLane e) blank ++ lanes.map (laneFixed e) ++ List.replicate 4 blank).take 4 }))) ∧
  (∀ s n, portIn s n .training = true → exec (.trainingTimeout n) s = .next (s.fallback n).nimraGo) ∧
  (∀ s n, portIn s n .align = true →
    let u := s.onEport n (fun e => { e with st := .active })
    exec (.alignDone n) s = .next (((if (u.eport n).g400 then u else u.portEvent n 4 .ok).finishLinks).nimraGo)) ∧
  (∀ s n, portIn s n .align = true → exec (.alignTimeout n) s = .next (s.fallback n).nimraGo) ∧
  (∀ s n words, portIn s n .active = true → exec (.linkLoss n words) s =
    .next (((s.onEport n (fun e => { e with fecUncorr := e.fecUncorr + words })).leaveActive n).firstAttempt n).nimraGo) ∧
  (∀ s n symbols words, n < 32 →
    exec (.receivedFrameDrop n .notNimra symbols words) s = .next (s.onEport n (fun e => { e with
      fecCorr := e.fecCorr + symbols
      fecUncorr := e.fecUncorr + words
      rxDrop := e.rxDrop + 1 })) ∧
    exec (.receivedFrameDrop n .crc symbols words) s = .next (s.onEport n (fun e => { e with
      fecCorr := e.fecCorr + symbols
      fecUncorr := e.fecUncorr + words
      crcFail := e.crcFail + 1 })))

/-- Nimra packets (16 R375, R379, R380, R388, R390, R392). Of a packet that its port takes: DATA is placed; an ACK brings a probed peer up; READY and ABORT
of a group's rank act on the group's collective of their sequence number, and are kept for a later one; RNR and NACK pause or end the
collective they name; a PROBE is acknowledged. -/
def Obligations.NimraPackets : Prop :=
  (∀ s n p u, s.receive n p true 0 = (.take, u) → (∀ h ∈ u.nimra.held, ¬ (h.1 = n ∧ h.2.srcNode = p.srcNode ∧ h.2.psn = p.psn)) →
    exec (.data n p) s = .next (u.placePkt n p).nimraGo) ∧
  (∀ s n p rtt u, s.receive n p false rtt = (.take, u) → exec (.ack n p rtt) s = .next (u.onPeer n p.srcNode (fun e =>
    if e.probing then { e with
      up := true
      probing := false } else e)).nimraGo) ∧
  (∀ s n p u x r, s.receive n p true 0 = (.take, u) →
    let v := (u.gotPsn n p).onPeer 0 p.srcNode (fun e => { e with ports := some (BitVec.ofNat 32 (fld p.payload 16 4)) })
    v.group? p.group = some x → rankOf x p.srcNode p.srcFlask = some r →
    (runningColl v p.group = none → x.lastSeq < (readyMsg r p).seq → exec (.ready n p) s = .next (v.onGroup p.group (fun x => { x with
      kept := x.kept.filter (fun k => k.rank != r) ++ [readyMsg r p] })).nimraGo) ∧
    (∀ c, runningColl v p.group = some c → (readyMsg r p).seq = coSeq c.desc →
      exec (.ready n p) s = .next (v.takeReady p.group x (readyMsg r p) (fld p.payload 20 4)).nimraGo)) ∧
  (∀ s n p u c r, s.receive n p false 0 = (.take, u) → collOfPkt u p = some (c, r) →
    exec (.rnr n p) s = .next (u.onColl c.group (fun c => { c with rnr := true })).nimraGo ∧
    exec (.nack n p) s = .next (u.endColl c (nackStat p.status) r false).nimraGo) ∧
  (∀ s n p u x r, s.receive n p true 0 = (.take, u) → (u.gotPsn n p).group? p.group = some x → rankOf x p.srcNode p.srcFlask = some r →
    let v := (u.gotPsn n p).onGroup p.group (fun x => { x with aborts := x.aborts + 1 })
    (runningColl v p.group = none → x.lastSeq < p.seq → exec (.abort n p) s = .next (v.onGroup p.group (fun x => { x with
      keptAborts := x.keptAborts ++ [(p.seq, r)] })).nimraGo) ∧
    (∀ c, runningColl v p.group = some c → coOneSided c.desc = false → coSeq c.desc = p.seq →
      exec (.abort n p) s = .next (v.endColl c .discarded r false).nimraGo)) ∧
  (∀ s n p u, s.receive n p false 0 = (.take, u) → exec (.probe n p) s = .next (u.sendPlain n p.srcNode 1 (ackPkt p)).nimraGo)

/-- Nimra timers and collectives (16 R379 to R381, R385, R387, R389). An owed acknowledgement leaves on its timer; a packet without one is sent again and the
window closes to one; the probe timer asks every peer that is down. A segment of a reduction is added, and a finished collective's node ends with
its result. -/
def Obligations.NimraTimersAndCollectives : Prop :=
  (∀ s n k, k < 4096 → (s.peer n k).owed ≠ 0 → exec (.ackTimer n k) s = .next (s.sendPlain n k 1 (barePkt k))) ∧
  (∀ s n k psn x, (s.peer n k).sent.find? (fun x => x.psn == psn) = some x → runningColl s x.pkt.group = none →
    exec (.resendTimeout n k psn) s = .next ((s.onPeer n k (fun e => { e with cwnd := 1 })).resend n k x false).nimraGo) ∧
  (∀ s n node, portActive s n = true → s.nimra.nodeId = some node →
    exec (.probeTimer n) s = .next (((s.nimra.peers.filter (fun x => x.1 / 4096 == n && !x.2.up && some (x.1 % 4096) != some node)).map
      (fun x => x.1 % 4096)).foldl (fun (s : State) k => (s.sendPlain n k 6 (barePkt k)).onPeer n k (fun e => { e with probing := true })) s)) ∧
  (∀ s g r c x b, runningColl s g = some c → s.group? g = some x → ownDst s g = .ok b →
    exec (.reduceSegmentDone g r) s = .next (((s.addSegment g r).writeReduced g (reducedTo c x.members.length x.rank)).pump).settle) ∧
  (∀ s flask heat node c x, s.nimra.colls.find? (fun c => c.heat == heatKey flask heat && c.node == node && c.running) = some c →
    s.group? c.group = some x → collFinished c x.members.length x.rank = true → ownCopy c x.members.length x.rank = none →
    coWait c.desc = 0 → coOneSided c.desc = true →
    exec (.collectiveComplete flask heat node) s = .next ((((s.arrivals c x.members.length x.rank).2.onGroup c.group (fun x => { x with
      nodes := x.nodes + 1 })).onNimra (fun m => { m with
        colls := m.colls.filter (fun y => !(y.heat == c.heat && y.node == c.node)) })).endNode c.heat c.node .ok (fun y => { y with
          detail := 0
          result := leBytes 4 0 ++ leBytes 4 c.ovf ++ leBytes 8 c.tx })).nimraGo) ∧
  (∀ s flask heat node c x, s.nimra.colls.find? (fun c => c.heat == heatKey flask heat && c.node == node && c.running) = some c →
    s.group? c.group = some x → collFinished c x.members.length x.rank = true → ownCopy c x.members.length x.rank = none →
    coWait c.desc = 0 → coOneSided c.desc = false →
    let t := s.arrivals c x.members.length x.rank
    let l := lateness t.1 x.rank
    exec (.collectiveComplete flask heat node) s = .next (((t.2.onGroup c.group (fun x => { x with
      nodes := x.nodes + 1
      lateRank := l.1
      lateMargin := l.2
      waitTotal := x.waitTotal + l.2 })).onNimra (fun m => { m with
        colls := m.colls.filter (fun y => !(y.heat == c.heat && y.node == c.node)) })).endNode c.heat c.node .ok (fun y => { y with
          detail := l.1
          result := leBytes 4 l.2 ++ leBytes 4 c.ovf ++ leBytes 8 c.tx })).nimraGo)

/-- CXL.mem (17 R397 to R399, R402 to R407). A host read of a valid line that the mesh carries to its controller and back answers its bytes and enters
the snoop filter when it is cached; a write that arrives stores the line, poisoned when the host says so. An address outside what is there answers poison, or is dropped with an event; a partial write is
always dropped. BIRsp frees the accesses held for a line. The host's snoop answer, decoder commits, a port reset and link training change
only the port. -/
def Obligations.CxlMemory : Prop :=
  (∀ s hpa cacheable exclusive err l k o v, cxlUp s = true → dpaOf s hpa = some l → hostTarget s l = true → ctlOf l = some (k, o) →
    ((s.ddrAccess k o false).readLine k o err).hostTrip l false [] = (v, .ok) →
    let u := v.hostAnswer (v.devRead l 64) (v.poison.contains l)
    exec (.cxlMemRead hpa cacheable exclusive err) s = .next (if cacheable then u.onCxl (fun c => c.enter l exclusive) else u)) ∧
  (∀ s hpa cacheable exclusive err l, cxlUp s = true → dpaOf s hpa = some l → hostTarget s l = false →
    exec (.cxlMemRead hpa cacheable exclusive err) s = .next (s.hostAnswer (leBytes 64 0) true)) ∧
  (∀ s hpa data poison l k o v st, cxlUp s = true → dpaOf s hpa = some l → hostTarget s l = true → ctlOf l = some (k, o) →
    (s.ddrAccess k o false).hostTrip l true (padTo 64 data) = (v, st) → st ≠ .notPresent →
    let u := v.devWrite l (padTo 64 data)
    exec (.cxlMemWrite hpa data poison) s = .next (if poison then (u.poisonLine l).onCxl (fun c => { c with
      hostPoison := c.hostPoison + 1 }) else u)) ∧
  (∀ s hpa data poison l, cxlUp s = true → dpaOf s hpa = some l → hostTarget s l = false →
    exec (.cxlMemWrite hpa data poison) s = .next (s.devEvent 0x0F .invalid 1 l)) ∧
  (∀ s hpa l, cxlUp s = true → dpaOf s hpa = some l → exec (.memWrPtl hpa) s = .next ((s.onCxl (fun c => { c with
    ptlDrop := c.ptlDrop + 1 })).devEvent 0x0F .invalid 0 l)) ∧
  (∀ s line, biOut s line = true → exec (.biRsp line) s = .next (s.releaseLine line)) ∧
  (∀ (s : State) line, exec (.hostSnoop line) s = .next (s.onCxl (fun c => { c with rspI := true }))) ∧
  (∀ s index base size dpa, index < 4 → cxlUp s = true → base % 0x10000000 = 0 → size % 0x10000000 = 0 →
    (∀ k < 4, k ≠ index → (s.hdm? k).committed = false) →
    exec (.hdmDecoderCommit index base size dpa) s = .next (s.onCxl (fun c => { c with
      hdm := Tab.put c.hdm index { base, size, dpa, committed := true, err := false } }))) ∧
  (∀ (s : State), s.dropQueues.cxl.biHeld = [] → exec (.cxlPortReset false) s = .next (s.dropQueues.onCxl (fun c => { c with
    link := none, pbr := 0, hdm := [], snoop := [], biHeld := [], lastRead := none, doeReq := false, doeSnap := [], doeResp := none, doeErr := false
    spdmAlgs := false }))) ∧
  (∀ s width rate, cxlTrains s = true → width ∈ [1, 2, 4, 8] → rate ∈ [25, 50, 80, 160, 320, 640] →
    exec (.cxlLinkUp width rate) s = .next (s.onCxl (fun c => { c with link := some (width, rate) })))

/-- R405: a back-invalidate that the host does not answer poisons the line, counts CX.BI_TIMEOUT, posts event 0x0E and ends the streams that
wait for the line with `ST_FAULT_UNCORRECTABLE`; a held write is gone. -/
def Obligations.BackInvalidateTimeout : Prop :=
  ∀ s line, biOut s line = true →
    let u := ((s.onCxl (fun c => { c with
      biHeld := c.biHeld.filter (fun x => x.1 != line)
      biTimeout := c.biTimeout + 1 })).poisonLine line).devEvent 0x0E .uncorrectable 0 line
    exec (.biTimeout line) s = .next ((waitersAt u line).foldl (fun (s : State) x => s.failStream x .uncorrectable) u).settle

/-- The mailbox of the CXL function (17 R408 to R411). A request that fits waits in it, unless one already does, and is answered by the protocol it names; an abort clears
it. Each answer is the object of its protocol with the bytes that the device gives; a request that needs the algorithms is answered once they are
negotiated, and one that the device does not implement with ERROR UnsupportedRequest. -/
def Obligations.DoeAndSpdm : Prop :=
  (∀ s bytes, cxlUp s = true → s.cxl.doeErr = false → bytes ≤ 4096 →
    exec (.doeRequest bytes true) s = .next (s.onCxl (fun c =>
      if s.cxl.doeReq then { c with doeResp := none }
      else { c with
        doeResp := none
        doeReq := true
        doeSnap := [5, 6, 7].map (measureValue s) }))) ∧
  (∀ s, cxlUp s = true → exec .doeAbort s = .next (s.onCxl (fun c => { c with
    doeErr := false
    doeReq := false
    doeSnap := []
    doeResp := none }))) ∧
  (∀ s, s.cxl.doeReq = true → s.cxl.doeErr = false →
    let answer (u : State) (b : List Byte) : Host.Outcome State Fault Refusal := .next (u.onCxl (fun c => { c with
      doeReq := false
      doeSnap := []
      doeResp := some b }))
    let spdm (u : State) (b : List Byte) := answer u (doeObject 0x0001 1 b)
    (∀ k < 3, exec (.doeDiscovery k) s = answer s (doeObject 0x0001 0 (leBytes 2 (doeProtocols.getD k (0, 0)).1 ++
      leBytes 1 (doeProtocols.getD k (0, 0)).2 ++ leBytes 1 (if k + 1 < 3 then k + 1 else 0)))) ∧
    (∀ k, exec (.cdatRead k) s = answer s (doeObject 0x1E98 2 (leBytes 1 0 ++ leBytes 1 0 ++
      leBytes 2 (if k + 1 < (cdatHeader :: cdatEntries).length then k + 1 else 0xFFFF) ++ (cdatHeader :: cdatEntries).getD k []))) ∧
    exec .getVersion s = spdm (s.onCxl (fun c => { c with spdmAlgs := false })) (spdmMsg 0x10 0x04 0 0 (leBytes 1 0 ++ leBytes 1 1 ++
      leBytes 2 0x1200)) ∧
    exec .getCapabilities s = spdm (s.drawBytes 9).2 (spdmMsg 0x12 0x61 0 0 (leBytes 1 0 ++ (s.drawBytes 9).1.take 1 ++ leBytes 2 0 ++
      leBytes 4 0x16 ++ (s.drawBytes 9).1.drop 1)) ∧
    (∀ r h, exec (.negotiateAlgorithms r h) s = spdm (s.onCxl (fun c => { c with spdmAlgs := r && h })) (spdmMsg 0x12 0x63 0 0
      (leBytes 2 36 ++ leBytes 1 1 ++ leBytes 1 0 ++ leBytes 4 2 ++ leBytes 4 (if r then 8 else 0) ++ leBytes 4 (if h then 1 else 0) ++
        leBytes 16 0))) ∧
    (∀ code, exec (.spdmUnsupported code) s = spdm s (spdmError 0x07 code)) ∧
    (s.cxl.spdmAlgs = true →
      exec .getDigests s = spdm s (spdmMsg 0x12 0x01 0 1 chainDigest) ∧
      (∀ off len, off < Config.certChain.length → exec (.getCertificate 0 off len) s = spdm s (spdmMsg 0x12 0x02 0 0
        (leBytes 2 ((Config.certChain.drop off).take len).length ++
          leBytes 2 (Config.certChain.length - off - ((Config.certChain.drop off).take len).length) ++
          (Config.certChain.drop off).take len))) ∧
      (∀ nonce, exec (.challenge 0 nonce) s = spdm (s.drawBytes 32).2 ((s.drawBytes 32).2.signed nonce (spdmMsg 0x12 0x03 0 1
        (chainDigest ++ (s.drawBytes 32).1 ++ leBytes 2 0)))) ∧
      (∀ k nonce, 1 ≤ k → k ≤ 7 → exec (.getMeasurements k false nonce) s = spdm (s.drawBytes 32).2 (spdmMsg 0x12 0x60 0 0 (leBytes 1 1 ++
        leBytes 3 (measureBytes s k).length ++ measureBytes s k ++ (s.drawBytes 32).1 ++ leBytes 2 0)))))

/-- I3C CCCs (17 R412, R413). A target on its bus without an address sends its identity and takes the assigned one; its address is cleared or
changed; reads give the ID, BCR, DCR, two bytes of status and the lengths; lengths and interrupts are set. -/
def Obligations.I3cCccs : Prop :=
  ∀ s x, tgtThere s x = true →
    let set (f : I3cTgt → I3cTgt) : Host.Outcome State Fault Refusal := .next (s.onTgt x f)
    let get (v : List Byte) := set (fun t => if t.addr.isSome then { t with lastRead := v } else t)
    (∀ a < 128, exec (.entdaa x a) s = set (fun t => if t.addr.isSome then t else { t with
      addr := some a
      lastRead := beBytes 6 (provisionedId s x) ++ [0x06, 0x00] })) ∧
    exec (.rstdaa x) s = set (fun t => { t with addr := none }) ∧
    (∀ a < 128, exec (.setnewda x a) s = set (fun t => if t.addr.isSome then { t with addr := some a } else t)) ∧
    exec (.getpid x) s = get (beBytes 6 (provisionedId s x)) ∧
    exec (.getbcr x) s = get [0x06] ∧ exec (.getdcr x) s = get [0x00] ∧
    exec (.getstatus x) s = .next ((s.drawBytes 2).2.onTgt x (fun t => if t.addr.isSome then { t with lastRead := (s.drawBytes 2).1 } else t)) ∧
    exec (.getmwl x) s = get (beBytes 2 (s.tgt x).mwl) ∧ exec (.getmrl x) s = get (beBytes 2 (s.tgt x).mrl ++ [0x01]) ∧
    (∀ n, 64 ≤ n → n < 65536 → exec (.setmwl x n) s = set (fun t => { t with mwl := n })) ∧
    (∀ n, 263 ≤ n → n < 65536 → exec (.setmrl x n) s = set (fun t => { t with mrl := n })) ∧
    exec (.enec x) s = set (fun t => { t with ibiOn := true }) ∧ exec (.disec x) s = set (fun t => { t with ibiOn := false })

/-- Management requests over I3C (17 R415 to R417, 20 R477). An addressed target answers a well-formed frame: IDENT and HEALTH their payloads, CAP_SET a
new cap, BB_READ 256 bytes of the MRAM, RESET with its word a device reset, another operation `ST_UNSUPPORTED`. A response is read once. -/
def Obligations.I3cRequests : Prop :=
  (∀ s x frame, tgtThere s x = true → (s.tgt x).addr.isSome = true → frameOk frame = true →
    let answer (u : State) (st : Stat) (pl : List Byte) : Host.Outcome State Fault Refusal :=
      .next (u.mgmtRespond x (responseFrame frame st pl))
    (fld frame 0 1 = 1 → fld frame 2 2 = 0 → exec (.ident x frame) s = answer s .ok
      (leBytes 8 (0x7400 + 65536 * (Config.stepping % 256)) ++ leBytes 8 (serialOf s) ++ leBytes 8 s.boot.fwVersion.toNat)) ∧
    (fld frame 0 1 = 2 → fld frame 2 2 = 0 → exec (.health x frame) s = answer s .ok (healthPayload s)) ∧
    (fld frame 0 1 = 3 → fld frame 2 2 = 4 → x = .main → 700 ≤ fld (framePayload frame) 0 4 → fld (framePayload frame) 0 4 ≤ 2800 →
      exec (.capSet x frame) s = answer (s.capOverI3c (fld (framePayload frame) 0 4)) (if s.power.floor then .capFloor else .ok) []) ∧
    (fld frame 0 1 = 4 → fld frame 2 2 = 4 → fld (framePayload frame) 0 4 < 0x1000000 → fld (framePayload frame) 0 4 % 256 = 0 →
      exec (.bbRead x frame) s = answer s .ok (boxRead s (fld (framePayload frame) 0 4) 256)) ∧
    (fld frame 0 1 = 0 ∨ 6 ≤ fld frame 0 1 → exec (.i3cUnsupportedOp x frame) s = answer s .unsupported [])) ∧
  (∀ s frame, tgtThere s .main = true → (s.tgt .main).addr.isSome = true → frameOk frame = true → fld frame 0 1 = 5 → fld frame 2 2 = 4 →
    fld (framePayload frame) 0 4 = 0x52535444 → coresRun s = true →
    let u := s.mgmtRespond .main (responseFrame frame .ok [])
    exec (.i3cReset .main frame) s = .next ((u.deviceReset 2 (storedMode u)).onI3c (fun x => { x with
      lastRead := responseFrame frame .ok [] }))) ∧
  (∀ s x, tgtThere s x = true → exec (.i3cResponseRead x) s = .next (s.onTgt x (fun t => if t.addr.isNone then t else match t.resp with
    | some r => { t with
      resp := none
      lastRead := r }
    | none => { t with lastRead := [0] })))

/-- Starts, rails, clocks and cores (01 R17, 17 R418, R419, 18 R421, R423, R434, 19 R458, 21 R484, R488, R490). A release of reset with the rails of PX good,
a healthy core and every other unit that it needs runs the start, and without one of them the device is dead; the pauses of the memory test end it ready. Loss of PX is a loss of power, of another rail the loss of
what it feeds. A reference clock that comes starts a start that waits for it, and one that goes takes what needs it. A core beats, or is
failed; a cluster can fail; PERST is released. -/
def Obligations.StartsAndRails : Prop :=
  (∀ s found mem, s.boot.phase = .off → Rail.px ∉ found.badRails → Rail.io18 ∉ found.badRails → (s.boot.shutdown = true → found.cool = true) →
    let u := ((s.onTime (fun _ => 0)).onBoard (fun b => { b with
      badRails := found.badRails
      lostRefs := [] })).onBoot (fun b => { b with shutdown := b.shutdown && b.cause != 0 })
    let v := (u.after 2000000).bootCores (coresOf u found)
    (coresOf u found ≠ [] → found.rom = true → found.box = true → found.i3c = true → found.sprue = true →
      exec (.powerOnResetRelease found mem) s = .next (v.runStart found mem)) ∧
    ((coresOf u found = [] ∨ found.rom = false ∨ found.box = false ∨ found.i3c = false ∨ found.sprue = false) →
      exec (.powerOnResetRelease found mem) s = .next (v.onBoot (fun b => { b with phase := .dead })))) ∧
  (∀ s mem units, s.boot.phase = .pause1 → exec (.retentionPauseEnd mem units) s =
    .next (((s.after (pauseNs s + 2 * testPass s)).takeFindings mem).onBoot (fun b => { b with phase := .pause2 }))) ∧
  (∀ s mem units, s.boot.phase = .pause2 → exec (.retentionPauseEnd mem units) s = .next ((((((((s.after (pauseNs s + testPass s +
    closingPass s)).takeFindings mem).after 10000000).mergeDefects units).after 2529000000).fixUnits units).commitQueue).becomeReady units)) ∧
  (∀ s, exec .powerOnResetAssert s = .next (s.breakCommit.wipe.onBox (fun b => { b with queue := [] }))) ∧
  (∀ s, exec (.railOutOfRange .px) s = .next s.powerLost ∧ exec (.railOutOfRange .io18) s = .next s.powerLost) ∧
  (∀ s r, r ≠ .px → r ≠ .io18 → railBad s r = false → s.boot.phase ≠ .off → s.boot.phase ≠ .dead →
    exec (.railOutOfRange r) s = .next ((s.onBoard (fun b => { b with badRails := r :: b.badRails })).loseRail r).fall) ∧
  (∀ s f m, s.boot.phase = .noRef → s.boot.held = some (f, m) → RefClk.sys ∉ s.board.refs →
    exec (.refclkDetected .sys) s = .next (((s.onBoard (fun b => { b with
      refs := if b.refs.contains .sys then b.refs else .sys :: b.refs })).onBoard (fun b => { b with
        lostRefs := b.lostRefs.filter (· ≠ .sys) })).trainAll f m)) ∧
  (∀ s r, r ∈ s.board.refs → s.boot.phase ≠ .off → s.boot.phase ≠ .dead →
    exec (.refclkMissing r) s = .next ((((s.onBoard (fun b => { b with refs := b.refs.filter (· ≠ r) })).onBoard (fun b => { b with
      lostRefs := if b.lostRefs.contains r then b.lostRefs else r :: b.lostRefs })).loseRef r).fall)) ∧
  (∀ s k, k < 4 → coresRun s = true → (Tab.get .init s.cores k).healthy = true →
    exec (.coreHeartbeat k) s = .next ((s.after 100000).onCores (fun t => Tab.upd .init t k (fun c => { c with
      beat := (s.after 100000).time })))) ∧
  (∀ s k, k < 4 → coresRun s = true → (Tab.get .init s.cores k).healthy = true →
    let u := s.until ((Tab.get .init s.cores k).beat + 1000000)
    let held := (upto 4).filter (fun r => coreOf u r = some k)
    let v := u.onCores (fun t => Tab.upd .init t k (fun c => { c with healthy := false }))
    let w := (u.qb.cmds.filter (fun c => c.opcode < 0x80 && held.contains (roleOf c.opcode))).foldl
      (fun (s : State) c => s.abortCmd c .discarded) (if held.contains 3 then v.breakCommit else v)
    w.cxl.doeReq = false → (∃ j < 4, (Tab.get .init (w.unitFailed 7 k).cores j).healthy = true) →
    exec (.heartbeatMiss k) s = .next (w.unitFailed 7 k)) ∧
  (∀ s cluster cause, clusterThere s cluster = true → s.boot.phase = .ready → exec (.clusterFail cluster cause) s =
    .next ((s.loseCluster cluster).unitFailed 1 (siteOf s cluster + cause % 7 * 256)).fall) ∧
  (∀ s, exec .perstNRelease s = .next (s.onBoard (fun b => { b with perst := false })))

/-- Power and heat (19 R447, R450, R451, R455, R458, R459). A sample above 105 % of the cap cuts every partition by four steps at once; otherwise it is kept. A control
period runs while the controller works, after a sample that falls due with it; a partition learns from the phase entries of its own flasks. A regulator that has settled takes its point; a good readback confirms the voltage, and the
third bad one in a row holds the partition at the highest point it carries. A droop trip stretches an exposed cluster's clock until it recovers; while a
cluster of a partition is stretched its point does not move, and a point that waits is taken when the last one recovers. A temperature sample
that trips nothing throttles, and lifts, what its sensors say. -/
def Obligations.PowerAndHeat : Prop :=
  (∀ s w, powerRuns s = true → 100 * w ≤ 105 * s.power.cap →
    exec (.powerSample w) s = .next (s.onPower (fun p => { p with power := w }))) ∧
  (∀ s w, powerRuns s = true → 105 * s.power.cap < 100 * w →
    exec (.powerSample w) s = .next ((upto 4).foldl (fun s p => s.onPart p (fun x => { x with d := max 1 (x.d - 4) }))
      ((s.onPower (fun p => { p with power := w })).onPower (fun p => { p with fastCut := true })))) ∧
  (∀ s parts fixed, powerRuns s = true →
    let own := parts.mapIdx (fun p m => { m with issue := m.issue.filter (fun x => phaseIn s p x.1) })
    exec (.controlPeriod parts fixed none) s = .next (s.controlPeriod own fixed false) ∧
    (∀ w, exec (.controlPeriod parts fixed (some w)) s = .next ((s.takeSample w).controlPeriod own fixed (decide (105 * s.power.cap < 100 * w))))) ∧
  (∀ s p, p < 4 → powerRuns s = true → exec (.regulatorSettled p) s = .next (s.onPart p (fun x => match x.rising with
    | some k => { x.moveTo (stretching s p) k with
      rising := none }
    | none => x))) ∧
  (∀ (x : PartPw) k, x.moveTo false k = { x with
      point := k
      waits := none } ∧
    (x.point ≠ k → x.moveTo true k = { x with
      waits := some k })) ∧
  (∀ s p mv, p < 4 → powerRuns s = true → exec (.avsReadback p true mv) s = .next (s.onPart p (fun x => { x with
    fails := 0
    confirmed := mv }))) ∧
  (∀ s p mv, p < 4 → powerRuns s = true →
    let x := s.partPw p
    let u := s.onPart p (fun x => { x with fails := min 3 (x.fails + 1) })
    let k := heldPoint (mouldIn u p) x.confirmed
    (x.lost = true ∨ x.fails < 2 → exec (.avsReadback p false mv) s = .next u) ∧
    (x.lost = false → 2 ≤ x.fails → exec (.avsReadback p false mv) s = .next ((u.onPart p (fun x => { x.moveTo (stretching u p) (min x.point k) with
      lost := true
      rising := none })).devEvent 0x10 .uncorrectable p x.confirmed))) ∧
  (∀ s c, exposed s c = true → powerRuns s = true → exec (.droopTrip c) s = .next ((s.onPart (c / 24) (fun x => { x with
    droop := x.droop + 1
    trips := x.trips + 1 })).onPower (fun w => { w with stretched := numInsert w.stretched c }))) ∧
  (∀ s c n, c ∈ s.power.stretched →
    let u := s.onPower (fun w => { w with stretched := w.stretched.filter (· != c) })
    exec (.droopRecover c n) s = .next (u.onPart (c / 24) (fun x =>
      let y := { x with
        stretch := x.stretch + max 64 n }
      if stretching u (c / 24) then y else y.moveTo false (y.waits.getD y.point)))) ∧
  (∀ s temps, coresRun s = true → s.boot.phase ≠ .halted → trippedBy (s.onPower (fun w => { w with temps := some temps })) temps = none →
    let u := s.onPower (fun w => { w with temps := some temps })
    let v := (upto 8).foldl (fun (s : State) k => s.heatStack temps k) ((upto 4).foldl (fun (s : State) p => s.heatPart temps p) u)
    exec (.thermalSample temps) s = .next (if throttling v = throttling u then v else v.ibi 2))

/-- A step runs the command at the front of the queue, with the queue's rest behind it; on an empty queue the block idles: its clock
counts a nanosecond, and an edge of a mould's user clocks may fall (the model's choice, notes/assumptions/1.md and 125.md). -/
def Obligations.StepRunsTheFrontCommand : Prop :=
  (∀ (s : State) c, step { s with pending := c :: s.pending } = exec c s) ∧
  (∀ (s : State) c rest, s.pending = c :: rest → step s = exec c { s with pending := rest }) ∧
  (∀ s : State, s.pending = [] → step s = .next (s.after 1).userEdge)

/-- No row of the table has bits, so no word spells a command, and putting a word in front of the queue changes nothing. -/
def Obligations.NoWordSpellsACommand : Prop :=
  ∀ (s : State) n w, decodeTableWord n w = none ∧ s.withFetchWord n w = s

/-- Right after reset (18 R421, R423, 10 R229, 17 R398): no start has run, power-on reset is asserted and no core runs, the level is 0 and
READY is clear; nothing is stored; no CXL link is up and no target has an address; no queue, flask, heat, mould or node ID is there. -/
def Obligations.ResetState : Prop :=
  State.reset.pending = [] ∧ State.reset.boot.phase = .off ∧ coresRun State.reset = false ∧ powerRuns State.reset = false ∧
  State.reset.boot.level = 0 ∧ State.reset.boot.ready = false ∧ State.reset.mem = [] ∧ State.reset.poison = [] ∧
  State.reset.cxl.link = none ∧ cxlUp State.reset = false ∧ State.reset.i3c.addr = none ∧ State.reset.i3c2.addr = none ∧
  State.reset.flasks = [] ∧ State.reset.qb.cmds = [] ∧ State.reset.graph.heats = [] ∧ State.reset.sprue.moulds = [] ∧
  State.reset.nimra.nodeId = none ∧ State.reset.serving.sessions = [] ∧ State.reset.box.defects = [] ∧ State.reset.power.cap = 2400

/-- The invariants hold right after reset. -/
def Obligations.ResetKeepsForm : Prop := MemoriesCanonical State.reset ∧ State.reset.box.defects.length ≤ 32768

/-- Every memory keeps its canonical form at every step: device memory, host memory and the black box's MRAM. -/
def Obligations.MemoriesStayCanonical : Prop := Invariant MemoriesCanonical

/-- A fuse that is burnt stays burnt at every step, whichever command runs, and what no command burns is as it was (18 R430, R431). -/
def Obligations.FusesOnlyBurn : Prop := EveryStep (fun s t => Fuses.Le s.fuseArray t.fuseArray)

/-- 18 R434: an entry of the defect list is never removed or changed by a step; the list only grows at its end, and holds at most
32,768 entries (R432). -/
def Obligations.DefectListOnlyGrows : Prop :=
  EveryStep (fun s t => s.box.defects <+: t.box.defects ∧ (s.box.defects.length ≤ 32768 → t.box.defects.length ≤ 32768))

/-- No step writes a golden region of the flash (14 R339, 18 R430). -/
def Obligations.GoldenRegionsKept : Prop :=
  EveryStep (fun s t => t.flash.goldenFw = s.flash.goldenFw ∧ t.flash.goldenShell = s.flash.goldenShell)

/-- A run of any length keeps the burnt fuses, the defect list and the golden regions of the state it began in. -/
def Obligations.RunsKeepWhatIsPermanent : Prop :=
  ∀ s t, Reaches s t → Fuses.Le s.fuseArray t.fuseArray ∧ s.box.defects <+: t.box.defects ∧
    t.flash.goldenFw = s.flash.goldenFw ∧ t.flash.goldenShell = s.flash.goldenShell ∧ (MemoriesCanonical s → MemoriesCanonical t)

/-- A command that answers a next state leaves the queue of waiting commands as it was; a step takes exactly the front one. -/
def Obligations.QueueIsFirstInFirstOut : Prop :=
  (∀ c s t, exec c s = .next t → t.pending = s.pending) ∧
  (∀ s t c rest, s.pending = c :: rest → step s = .next t → t.pending = rest)

/-- 08 R186: bit k of the output is bit (k + r) mod 32 of t, where t is bits 31 to 0 of (x ⊕ (x >> 21)) >> 27 and r is bits 63 to 59 of x. -/
def Obligations.OutputFunction : Prop :=
  ∀ (x : BitVec 64) k, k < 32 → (rngOut x).getLsbD k =
    let i := (k + x.toNat / 2 ^ 59) % 32 + 27
    ((x.getLsbD i).xor (x.getLsbD (i + 21)))

/-- 02 R49, with the codes of R39: a NaN of any source converts to the target's canonical NaN with its sign, whatever the controls, scale,
exponent and random word; IG4 0x8 is such a NaN, and so is every element under a scale byte of 0xFF. The overflow and underflow counts stay. -/
def Obligations.NanConverts : Prop :=
  (∀ neg src dst cvt r e u,
    let o := convert (.nan neg) src dst cvt r e u
    o.code = (match dst with
      | .fp32 => if neg then 0xFFC00000 else 0x7FC00000
      | .bf16 => if neg then 0xFFC0 else 0x7FC0
      | .fp16 => if neg then 0xFE00 else 0x7E00
      | .e5m2 => if neg then 0xFE else 0x7E
      | .e4m3 => if neg then 0xFF else 0x7F
      | .ig4 => 8) ∧
    ∀ (c : Conv) v, (c.note dst cvt v o).ovf = c.ovf ∧ (c.note dst cvt v o).unf = c.unf) ∧
  decodeCode .ig4 8 = .nan false ∧
  (∀ f code, ∃ neg, scaledElem f code (some 0xFF) = .nan neg) ∧
  scaledElem .ig4 8 (some 0xFF) = .nan false

/-- A command row whose command is not accepted, or is another opcode's, changes nothing (the model's choice, notes/assumptions/2.md): shown
for one row of each group of queue commands. -/
def Obligations.RowsOfOtherCommands : Prop :=
  (∀ s cid, findCmd s cid = none →
    exec (.nop cid) s = .next s ∧ exec (.queueCreate cid) s = .next s ∧ exec (.memMap cid) s = .next s ∧ exec (.flaskCreate cid) s = .next s ∧
    exec (.heatSubmit cid) s = .next s ∧ exec (.mouldLoad cid) s = .next s ∧ exec (.fwLoad cid) s = .next s ∧
    exec (.resetTile cid) s = .next s ∧ exec (.serveOpen cid) s = .next s ∧ exec (.nodeConfig cid) s = .next s) ∧
  (∀ s cid c, Fresh s cid 0x80 c →
    exec (.queueCreate cid) s = .next s ∧ exec (.memMap cid) s = .next s ∧ exec (.flaskCreate cid) s = .next s ∧
    exec (.heatSubmit cid) s = .next s ∧ exec (.mouldLoad cid) s = .next s ∧ exec (.fwLoad cid) s = .next s ∧
    exec (.resetTile cid) s = .next s ∧ exec (.serveOpen cid) s = .next s ∧ exec (.nodeConfig cid) s = .next s)

/-- A command whose reserved parameter bytes are not all zero ends with `ST_INVALID` and does nothing else (00 R9, 10 R240): HEAT_ABORT,
HEAT_QUERY, SERVE_CANCEL, SERVE_CLOSE, POWER_CAP_SET, TELEMETRY_READ and DEFECT_LIST_READ. -/
def Obligations.ReservedBytesAreRefused : Prop :=
  ∀ (s : State) cid c, findCmd s cid = some c → c.work = .pending → c.reserved 4 47 = false →
    let no : Host.Outcome State Fault Refusal := .next (s.failCmd cid .invalid)
    (c.opcode = 0x82 → exec (.heatAbort cid) s = no) ∧ (c.opcode = 0x83 → exec (.heatQuery cid) s = no) ∧
    (c.opcode = 0x88 → exec (.serveCancel cid) s = no) ∧ (c.opcode = 0x89 → exec (.serveClose cid) s = no) ∧
    (c.opcode = 0x0E → exec (.powerCapSet cid) s = no) ∧
    (c.opcode = 0x0F → c.reserved 20 47 = false → ∀ bad, exec (.telemetryRead cid bad) s = no) ∧
    (c.opcode = 0x11 → c.reserved 16 47 = false → ∀ bad, exec (.defectListRead cid bad) s = no)

/-- Nimra before and beside NODE_CONFIG (16 R375): without a node ID a received packet is dropped and counted, and one that carries the
device's own ID as its source counts as a duplicate node and is dropped; the symbols corrected in its frame count all the same. -/
def Obligations.NimraIdentity : Prop :=
  (∀ s n p sq rtt, portActive s n = true → s.nimra.nodeId = none →
    s.receive n p sq rtt = (.drop, (s.onEport n (fun e => { e with fecCorr := e.fecCorr + p.fec })).onEport n (fun e => { e with rxDrop := e.rxDrop + 1 }))) ∧
  (∀ s n p sq rtt, portActive s n = true → s.nimra.nodeId = some p.srcNode → p.dstNode = p.srcNode →
    s.receive n p sq rtt = (.drop, (s.onEport n (fun e => { e with fecCorr := e.fecCorr + p.fec })).onEport n (fun e => { e with dupNode := e.dupNode + 1 })))

/-- 02 R51: a finite source that is not zero and converts to a zero code is an underflow, from rounding or from target flush, and the
tensor's count takes it; a source that its own flush bit zeroes sets FLUSHED instead and does not count. -/
def Obligations.Underflow : Prop :=
  ∀ neg m ex src dst cvt r e u (c : Conv) v, m ≠ 0 →
    let o := convert (.fin neg m ex) src dst cvt r e u
    let d := c.note dst cvt v o
    ((flushSet cvt src && subnormalVal src m ex) = true →
      o.code = codeOf dst neg 0 ∧ o.unf = false ∧ d.unf = c.unf ∧ d.flags.getLsbD 0 = true) ∧
    ((flushSet cvt src && subnormalVal src m ex) = false →
      (o.unf = true ↔ o.code = codeOf dst neg 0) ∧ d.unf = if o.unf then sat32 c.unf 1 else c.unf)
end

