-- ==== Sys2Proof/Laws/Tab.lean ====
section
/-!
SUPPORT. Laws of the sparse table: what a key reads after an update, and the canonical form that every update keeps.
-/

namespace Sys2Proof.Machine

variable {α : Type}

theorem Tab.find?_put_self (t : Tab α) (n : Nat) (a : α) : Tab.find? (Tab.put t n a) n = some a := by
  induction t with
  | nil => simp [Tab.put, Tab.find?]
  | cons x t ih =>
    obtain ⟨k, b⟩ := x
    unfold Tab.put
    split
    · simp [Tab.find?]
    · split
      · simp [Tab.find?]
      · rename_i h1 h2
        simp [Tab.find?, h1, h2, ih]

theorem Tab.find?_put_ne (t : Tab α) {n m : Nat} (a : α) (h : m ≠ n) : Tab.find? (Tab.put t n a) m = Tab.find? t m := by
  induction t with
  | nil =>
    have : ¬ n = m := fun e => h e.symm
    simp [Tab.put, Tab.find?, this]
  | cons x t ih =>
    obtain ⟨k, b⟩ := x
    unfold Tab.put
    have hn : ¬ n = m := fun e => h e.symm
    split
    · rename_i e; subst e
      simp only [Tab.find?, hn, if_false]
    · split
      · rename_i h1 h2
        simp only [Tab.find?, hn, if_false]
        by_cases hm : m < n
        · have : ¬ k = m := by omega
          have : m < k := by omega
          simp [hm, *]
        · simp [hm]
      · simp only [Tab.find?, ih]

@[simp] theorem Tab.get_put_self (d : α) (t : Tab α) (n : Nat) (a : α) : Tab.get d (Tab.put t n a) n = a := by
  simp [Tab.get, Tab.find?_put_self]

theorem Tab.get_put_ne (d : α) (t : Tab α) {n m : Nat} (a : α) (h : m ≠ n) : Tab.get d (Tab.put t n a) m = Tab.get d t m := by
  simp [Tab.get, Tab.find?_put_ne t a h]

@[simp] theorem Tab.get_upd_self (d : α) (t : Tab α) (n : Nat) (f : α → α) :
    Tab.get d (Tab.upd d t n f) n = f (Tab.get d t n) := by simp [Tab.upd]

theorem Tab.get_upd_ne (d e : α) (t : Tab α) {n m : Nat} (f : α → α) (h : m ≠ n) :
    Tab.get d (Tab.upd e t n f) m = Tab.get d t m := by simp [Tab.upd, Tab.get_put_ne d t _ h]

theorem Tab.find?_mod_self (t : Tab α) (n : Nat) (f : α → α) : Tab.find? (Tab.mod t n f) n = (Tab.find? t n).map f := by
  unfold Tab.mod
  cases h : Tab.find? t n <;> simp [h, Tab.find?_put_self]

theorem Tab.find?_mod_ne (t : Tab α) {n m : Nat} (f : α → α) (h : m ≠ n) : Tab.find? (Tab.mod t n f) m = Tab.find? t m := by
  unfold Tab.mod
  cases Tab.find? t n <;> simp [Tab.find?_put_ne, h]

theorem Tab.mem_put {t : Tab α} {n : Nat} {a : α} {x : Nat × α} (h : x ∈ Tab.put t n a) : x = (n, a) ∨ x ∈ t := by
  induction t with
  | nil => simpa [Tab.put] using h
  | cons y t ih =>
    obtain ⟨k, b⟩ := y
    unfold Tab.put at h
    split at h
    · simp at h ⊢; tauto
    · split at h
      · simpa using h
      · simp at h ⊢; tauto

theorem Tab.mem_del {t : Tab α} {n : Nat} {x : Nat × α} (h : x ∈ Tab.del t n) : x ∈ t := by
  induction t with
  | nil => simp [Tab.del] at h
  | cons y t ih =>
    obtain ⟨k, b⟩ := y
    unfold Tab.del at h
    split at h
    · simp [h]
    · split at h
      · exact h
      · simp at h ⊢; tauto

theorem Tab.wf_put {t : Tab α} (n : Nat) (a : α) (h : Tab.wf t) : Tab.wf (Tab.put t n a) := by
  induction t with
  | nil => simp [Tab.wf, Tab.put]
  | cons y t ih =>
    obtain ⟨k, b⟩ := y
    rw [Tab.wf, List.pairwise_cons] at h
    unfold Tab.put
    split
    · rename_i e; subst e
      exact List.pairwise_cons.2 h
    · split
      · rename_i h1 h2
        refine List.pairwise_cons.2 ⟨?_, List.pairwise_cons.2 h⟩
        intro x hx
        rcases List.mem_cons.1 hx with rfl | hx
        · exact h2
        · exact lt_trans h2 (h.1 x hx)
      · rename_i h1 h2
        refine List.pairwise_cons.2 ⟨?_, ih h.2⟩
        intro x hx
        rcases Tab.mem_put hx with rfl | hx
        · show k < n; omega
        · exact h.1 x hx

theorem Tab.wf_del {t : Tab α} (n : Nat) (h : Tab.wf t) : Tab.wf (Tab.del t n) := by
  induction t with
  | nil => simp [Tab.wf, Tab.del]
  | cons y t ih =>
    obtain ⟨k, b⟩ := y
    rw [Tab.wf, List.pairwise_cons] at h
    unfold Tab.del
    split
    · exact h.2
    · split
      · exact List.pairwise_cons.2 h
      · exact List.pairwise_cons.2 ⟨fun x hx => h.1 x (Tab.mem_del hx), ih h.2⟩

theorem Tab.canon_filter [DecidableEq α] {d : Nat → α} {t : Tab α} (p : Nat × α → Bool) (h : Tab.canon d t) :
    Tab.canon d (t.filter p) :=
  ⟨h.1.filter p, fun x hx => h.2 x (List.mem_of_mem_filter hx)⟩

theorem Tab.canon_nil [DecidableEq α] (d : Nat → α) : Tab.canon d ([] : Tab α) := ⟨List.Pairwise.nil, by simp⟩

end Sys2Proof.Machine
end

