-- ==== Sys2Proof/Laws/Memory.lean ====
section
/-!
SUPPORT. Laws of the byte memories: the canonical form that every write keeps, and what a byte reads after one.
-/

namespace Sys2Proof.Machine

/-- The byte at an address of a sparse memory. -/
abbrev byteAt (d : Nat → Byte) (t : Tab Byte) (a : Nat) : Byte := Tab.get (d a) t a

theorem mem_cellsOf {d : Nat → Byte} {a : Nat} {bs : List Byte} {x : Nat × Byte} (h : x ∈ cellsOf d a bs) :
    ∃ k, ∃ hk : k < bs.length, x = (a + k, bs[k]) ∧ bs[k] ≠ d (a + k) := by
  unfold cellsOf at h
  simp only [List.mem_filter, List.mem_mapIdx, decide_eq_true_eq] at h
  obtain ⟨⟨k, hk, rfl⟩, hd⟩ := h
  exact ⟨k, hk, rfl, hd⟩

theorem cellsOf_wf (d : Nat → Byte) (a : Nat) (bs : List Byte) : Tab.wf (cellsOf d a bs) := by
  unfold cellsOf Tab.wf
  apply List.Pairwise.filter
  rw [List.pairwise_iff_getElem]
  intro i j hi hj hij
  simp only [List.getElem_mapIdx]
  omega

theorem writeTab_canon {d : Nat → Byte} {t : Tab Byte} (a : Nat) (bs : List Byte) (h : Tab.canon d t) :
    Tab.canon d (writeTab d t a bs) := by
  obtain ⟨hw, hd⟩ := h
  have hT : ∀ x ∈ t.takeWhile (fun x => x.1 < a), x.1 < a := fun x hx => by
    simpa using List.mem_takeWhile_imp hx
  have hD : ∀ x ∈ t.dropWhile (fun x => x.1 < a + bs.length), a + bs.length ≤ x.1 := by
    clear hT hd
    induction t with
    | nil => simp
    | cons y t ih =>
      rw [Tab.wf, List.pairwise_cons] at hw
      rw [List.dropWhile_cons]
      split
      · exact ih hw.2
      · rename_i hy
        simp at hy
        intro x hx
        rcases List.mem_cons.1 hx with rfl | hx
        · exact hy
        · exact le_of_lt (lt_of_le_of_lt hy (hw.1 x hx))
  have hC : ∀ x ∈ cellsOf d a bs, a ≤ x.1 ∧ x.1 < a + bs.length := fun x hx => by
    obtain ⟨k, hk, rfl, -⟩ := mem_cellsOf hx
    exact ⟨by simp, by simpa using hk⟩
  refine ⟨?_, ?_⟩
  · show List.Pairwise _ (t.takeWhile _ ++ cellsOf d a bs ++ t.dropWhile _)
    rw [List.pairwise_append, List.pairwise_append]
    refine ⟨⟨hw.sublist (List.takeWhile_sublist _), cellsOf_wf d a bs, ?_⟩, hw.sublist (List.dropWhile_sublist _), ?_⟩
    · intro x hx y hy
      exact lt_of_lt_of_le (hT x hx) (hC y hy).1
    · intro x hx y hy
      rcases List.mem_append.1 hx with hx | hx
      · exact lt_of_lt_of_le (lt_of_lt_of_le (hT x hx) (Nat.le_add_right _ _)) (hD y hy)
      · exact lt_of_lt_of_le (hC x hx).2 (hD y hy)
  · intro x hx
    unfold writeTab at hx
    rcases List.mem_append.1 hx with hx | hx
    · rcases List.mem_append.1 hx with hx | hx
      · exact hd x ((List.takeWhile_sublist _).subset hx)
      · obtain ⟨k, hk, rfl, hk'⟩ := mem_cellsOf hx
        exact hk'
    · exact hd x ((List.dropWhile_sublist _).subset hx)

theorem find?_eq_of_mem {t : Tab Byte} (h : Tab.wf t) {a : Nat} {b : Byte} (hm : (a, b) ∈ t) : Tab.find? t a = some b := by
  induction t with
  | nil => simp at hm
  | cons y t ih =>
    obtain ⟨k, c⟩ := y
    rw [Tab.wf, List.pairwise_cons] at h
    rcases List.mem_cons.1 hm with e | hm
    · cases e; simp [Tab.find?]
    · have := h.1 _ hm
      have h1 : ¬ k = a := by simp at this; omega
      have h2 : ¬ a < k := by simp at this; omega
      simp [Tab.find?, h1, h2, ih h.2 hm]

theorem find?_some_mem {t : Tab Byte} {a : Nat} {b : Byte} (h : Tab.find? t a = some b) : (a, b) ∈ t := by
  induction t with
  | nil => simp [Tab.find?] at h
  | cons y t ih =>
    obtain ⟨k, c⟩ := y
    unfold Tab.find? at h
    split at h
    · rename_i e; subst e; simp at h; simp [h]
    · split at h
      · simp at h
      · exact List.mem_cons_of_mem _ (ih h)

theorem find?_writeTab_out {d : Nat → Byte} {t : Tab Byte} {a x : Nat} {bs : List Byte} (h : Tab.canon d t)
    (hx : x < a ∨ a + bs.length ≤ x) : Tab.find? (writeTab d t a bs) x = Tab.find? t x := by
  have hw := (writeTab_canon a bs h).1
  cases e : Tab.find? t x with
  | some b =>
    apply find?_eq_of_mem hw
    have hm := find?_some_mem e
    unfold writeTab
    rw [List.mem_append, List.mem_append]
    rcases hx with hx | hx
    · left; left
      clear hw e
      have hwf := h.1
      clear h
      induction t with
      | nil => simp at hm
      | cons y t ih =>
        rw [Tab.wf, List.pairwise_cons] at hwf
        rw [List.takeWhile_cons]
        rcases List.mem_cons.1 hm with e | hm
        · subst e; simp [hx]
        · have : y.1 < x := hwf.1 _ hm
          have : y.1 < a := by omega
          simp [this, ih hm hwf.2]
    · right
      clear hw e
      have hwf := h.1
      clear h
      induction t with
      | nil => simp at hm
      | cons y t ih =>
        rw [Tab.wf, List.pairwise_cons] at hwf
        rw [List.dropWhile_cons]
        split
        · rcases List.mem_cons.1 hm with e | hm
          · subst e; rename_i hy; simp at hy; omega
          · exact ih hm hwf.2
        · exact hm
  | none =>
    cases e' : Tab.find? (writeTab d t a bs) x with
    | none => rfl
    | some b =>
      have hm := find?_some_mem e'
      unfold writeTab at hm
      rw [List.mem_append, List.mem_append] at hm
      rcases hm with (hm | hm) | hm
      · rw [find?_eq_of_mem h.1 ((List.takeWhile_sublist _).subset hm)] at e; cases e
      · obtain ⟨k, hk, e2, -⟩ := mem_cellsOf hm
        simp at e2; omega
      · rw [find?_eq_of_mem h.1 ((List.dropWhile_sublist _).subset hm)] at e; cases e

/-- A byte outside a write reads as before. -/
theorem byteAt_writeTab_out {d : Nat → Byte} {t : Tab Byte} {a x : Nat} {bs : List Byte} (h : Tab.canon d t)
    (hx : x < a ∨ a + bs.length ≤ x) : byteAt d (writeTab d t a bs) x = byteAt d t x := by
  simp [byteAt, Tab.get, find?_writeTab_out h hx]

/-- A byte that a write stores reads as stored. -/
theorem byteAt_writeTab_in {d : Nat → Byte} {t : Tab Byte} {a k : Nat} {bs : List Byte} (h : Tab.canon d t)
    (hk : k < bs.length) : byteAt d (writeTab d t a bs) (a + k) = bs[k] := by
  have hw := (writeTab_canon a bs h).1
  by_cases e : bs[k] = d (a + k)
  · have : Tab.find? (writeTab d t a bs) (a + k) = none := by
      cases e' : Tab.find? (writeTab d t a bs) (a + k) with
      | none => rfl
      | some b =>
        have hm := find?_some_mem e'
        have hd := (writeTab_canon a bs h).2 _ hm
        unfold writeTab at hm
        rw [List.mem_append, List.mem_append] at hm
        rcases hm with (hm | hm) | hm
        · have := List.mem_takeWhile_imp hm; simp at this
        · obtain ⟨j, hj, e2, hne⟩ := mem_cellsOf hm
          simp at e2
          obtain ⟨e3, e4⟩ := e2
          subst e3
          exact absurd e hne
        · have hD : ∀ y ∈ t.dropWhile (fun y => y.1 < a + bs.length), a + bs.length ≤ y.1 := by
            have hwf := h.1
            clear hm e' hd hw h
            induction t with
            | nil => simp
            | cons y t ih =>
              rw [Tab.wf, List.pairwise_cons] at hwf
              rw [List.dropWhile_cons]
              split
              · exact ih hwf.2
              · rename_i hy
                simp at hy
                intro z hz
                rcases List.mem_cons.1 hz with rfl | hz
                · exact hy
                · exact le_of_lt (lt_of_le_of_lt hy (hwf.1 z hz))
          have := hD _ hm; simp at this; omega
    simp [byteAt, Tab.get, this, e]
  · have hm : (a + k, bs[k]) ∈ writeTab d t a bs := by
      unfold writeTab
      rw [List.mem_append, List.mem_append]
      left; right
      unfold cellsOf
      simp only [List.mem_filter, List.mem_mapIdx, decide_eq_true_eq]
      exact ⟨⟨k, hk, rfl⟩, e⟩
    simp [byteAt, Tab.get, find?_eq_of_mem hw hm]

theorem readFrom_eq {d : Nat → Byte} (n : Nat) : ∀ (a : Nat) (t : Tab Byte), Tab.wf t → (∀ x ∈ t, a ≤ x.1) →
    readFrom d n a t = (List.range n).map (fun k => byteAt d t (a + k)) := by
  induction n with
  | zero => intro a t _ _; cases t <;> simp [readFrom]
  | succ n ih =>
    intro a t hw ha
    cases t with
    | nil =>
      rw [readFrom, ih (a + 1) [] hw (by simp), List.range_succ_eq_map, List.map_cons, List.map_map]
      congr 1
      apply List.map_congr_left
      intro k _
      simp [byteAt, Tab.get, Tab.find?]; ring_nf
    | cons y t =>
      obtain ⟨k, b⟩ := y
      have hk : a ≤ k := ha (k, b) (by simp)
      have hw' := hw
      rw [Tab.wf, List.pairwise_cons] at hw'
      unfold readFrom
      rw [List.range_succ_eq_map, List.map_cons, List.map_map]
      split
      · rename_i e
        rw [ih (a + 1) t hw'.2 (fun x hx => by have := hw'.1 x hx; simp at this; omega)]
        congr 1
        · simp [byteAt, Tab.get, Tab.find?, e]
        · apply List.map_congr_left
          intro j _
          have h1 : ¬ k = a + (j + 1) := by omega
          have h2 : ¬ a + (j + 1) < k := by omega
          have h3 : a + 1 + j = a + (j + 1) := by omega
          simp [byteAt, Tab.get, Tab.find?, h1, h2, h3]
      · rename_i e
        rw [ih (a + 1) ((k, b) :: t) hw (fun x hx => by
          rcases List.mem_cons.1 hx with rfl | hx
          · show a + 1 ≤ k; omega
          · have := hw'.1 x hx; simp at this; omega)]
        congr 1
        · have h1 : a < k := by omega
          simp [byteAt, Tab.get, Tab.find?, e, h1]
        · apply List.map_congr_left
          intro j _
          have h3 : a + 1 + j = a + (j + 1) := by omega
          simp [h3]

/-- A range reads byte by byte. -/
theorem readTab_eq {d : Nat → Byte} {t : Tab Byte} (h : Tab.wf t) (a n : Nat) :
    readTab d t a n = (List.range n).map (fun k => byteAt d t (a + k)) := by
  unfold readTab
  have hD : ∀ y ∈ t.dropWhile (fun y => y.1 < a), a ≤ y.1 := by
    clear n
    induction t with
    | nil => simp
    | cons y t ih =>
      rw [Tab.wf, List.pairwise_cons] at h
      rw [List.dropWhile_cons]
      split
      · exact ih h.2
      · rename_i hy
        simp at hy
        intro z hz
        rcases List.mem_cons.1 hz with rfl | hz
        · exact hy
        · exact le_of_lt (lt_of_le_of_lt hy (h.1 z hz))
  rw [readFrom_eq n a _ (h.sublist (List.dropWhile_sublist _)) hD]
  apply List.map_congr_left
  intro k _
  suffices Tab.find? (t.dropWhile (fun y => y.1 < a)) (a + k) = Tab.find? t (a + k) by simp [byteAt, Tab.get, this]
  clear hD
  induction t with
  | nil => rfl
  | cons y t ih =>
    rw [Tab.wf, List.pairwise_cons] at h
    rw [List.dropWhile_cons]
    split
    · rename_i hy
      simp at hy
      rw [ih h.2]
      have h1 : ¬ y.1 = a + k := by omega
      have h2 : ¬ a + k < y.1 := by omega
      simp [Tab.find?, h1, h2]
    · rfl

end Sys2Proof.Machine
end

