-- ==== Sys2Proof/Laws/State.lean ====
section
/-!
SUPPORT. What each update of State leaves alone: one lemma per update, true by rfl, so that no later proof unfolds a
record update.
-/

namespace Sys2Proof.Machine

@[simp] theorem State.onTime_eq (f : Nat → Nat) (s : State) : (s.onTime f).time = f s.time := rfl

@[simp] theorem State.onTime_frame (f : Nat → Nat) (s : State) :
    (s.onTime f).pending = s.pending ∧ (s.onTime f).free = s.free ∧ (s.onTime f).host = s.host ∧
    (s.onTime f).mem = s.mem ∧ (s.onTime f).poison = s.poison ∧ (s.onTime f).board = s.board ∧
    (s.onTime f).fuseArray = s.fuseArray ∧ (s.onTime f).fuses = s.fuses ∧ (s.onTime f).flash = s.flash ∧
    (s.onTime f).box = s.box ∧ (s.onTime f).boot = s.boot ∧ (s.onTime f).cores = s.cores ∧
    (s.onTime f).grid = s.grid ∧ (s.onTime f).qb = s.qb ∧ (s.onTime f).flasks = s.flasks ∧
    (s.onTime f).faults = s.faults ∧ (s.onTime f).nextFault = s.nextFault ∧ (s.onTime f).claims = s.claims ∧
    (s.onTime f).graph = s.graph ∧ (s.onTime f).mt = s.mt ∧ (s.onTime f).vt = s.vt ∧ (s.onTime f).lk = s.lk ∧
    (s.onTime f).he = s.he ∧ (s.onTime f).hb = s.hb ∧ (s.onTime f).ld = s.ld ∧ (s.onTime f).slots = s.slots ∧
    (s.onTime f).vops = s.vops ∧ (s.onTime f).mc = s.mc ∧ (s.onTime f).net = s.net ∧ (s.onTime f).fp = s.fp ∧
    (s.onTime f).sprue = s.sprue ∧ (s.onTime f).nimra = s.nimra ∧ (s.onTime f).serving = s.serving ∧
    (s.onTime f).power = s.power ∧ (s.onTime f).cxl = s.cxl ∧ (s.onTime f).i3c = s.i3c ∧
    (s.onTime f).i3c2 = s.i3c2 := by
  and_intros <;> rfl

@[simp] theorem State.onFree_eq (f : Nat → Nat) (s : State) : (s.onFree f).free = f s.free := rfl

@[simp] theorem State.onFree_frame (f : Nat → Nat) (s : State) :
    (s.onFree f).pending = s.pending ∧ (s.onFree f).time = s.time ∧ (s.onFree f).host = s.host ∧
    (s.onFree f).mem = s.mem ∧ (s.onFree f).poison = s.poison ∧ (s.onFree f).board = s.board ∧
    (s.onFree f).fuseArray = s.fuseArray ∧ (s.onFree f).fuses = s.fuses ∧ (s.onFree f).flash = s.flash ∧
    (s.onFree f).box = s.box ∧ (s.onFree f).boot = s.boot ∧ (s.onFree f).cores = s.cores ∧
    (s.onFree f).grid = s.grid ∧ (s.onFree f).qb = s.qb ∧ (s.onFree f).flasks = s.flasks ∧
    (s.onFree f).faults = s.faults ∧ (s.onFree f).nextFault = s.nextFault ∧ (s.onFree f).claims = s.claims ∧
    (s.onFree f).graph = s.graph ∧ (s.onFree f).mt = s.mt ∧ (s.onFree f).vt = s.vt ∧ (s.onFree f).lk = s.lk ∧
    (s.onFree f).he = s.he ∧ (s.onFree f).hb = s.hb ∧ (s.onFree f).ld = s.ld ∧ (s.onFree f).slots = s.slots ∧
    (s.onFree f).vops = s.vops ∧ (s.onFree f).mc = s.mc ∧ (s.onFree f).net = s.net ∧ (s.onFree f).fp = s.fp ∧
    (s.onFree f).sprue = s.sprue ∧ (s.onFree f).nimra = s.nimra ∧ (s.onFree f).serving = s.serving ∧
    (s.onFree f).power = s.power ∧ (s.onFree f).cxl = s.cxl ∧ (s.onFree f).i3c = s.i3c ∧
    (s.onFree f).i3c2 = s.i3c2 := by
  and_intros <;> rfl

@[simp] theorem State.onHost_eq (f : Tab Byte → Tab Byte) (s : State) : (s.onHost f).host = f s.host := rfl

@[simp] theorem State.onHost_frame (f : Tab Byte → Tab Byte) (s : State) :
    (s.onHost f).pending = s.pending ∧ (s.onHost f).time = s.time ∧ (s.onHost f).free = s.free ∧
    (s.onHost f).mem = s.mem ∧ (s.onHost f).poison = s.poison ∧ (s.onHost f).board = s.board ∧
    (s.onHost f).fuseArray = s.fuseArray ∧ (s.onHost f).fuses = s.fuses ∧ (s.onHost f).flash = s.flash ∧
    (s.onHost f).box = s.box ∧ (s.onHost f).boot = s.boot ∧ (s.onHost f).cores = s.cores ∧
    (s.onHost f).grid = s.grid ∧ (s.onHost f).qb = s.qb ∧ (s.onHost f).flasks = s.flasks ∧
    (s.onHost f).faults = s.faults ∧ (s.onHost f).nextFault = s.nextFault ∧ (s.onHost f).claims = s.claims ∧
    (s.onHost f).graph = s.graph ∧ (s.onHost f).mt = s.mt ∧ (s.onHost f).vt = s.vt ∧ (s.onHost f).lk = s.lk ∧
    (s.onHost f).he = s.he ∧ (s.onHost f).hb = s.hb ∧ (s.onHost f).ld = s.ld ∧ (s.onHost f).slots = s.slots ∧
    (s.onHost f).vops = s.vops ∧ (s.onHost f).mc = s.mc ∧ (s.onHost f).net = s.net ∧ (s.onHost f).fp = s.fp ∧
    (s.onHost f).sprue = s.sprue ∧ (s.onHost f).nimra = s.nimra ∧ (s.onHost f).serving = s.serving ∧
    (s.onHost f).power = s.power ∧ (s.onHost f).cxl = s.cxl ∧ (s.onHost f).i3c = s.i3c ∧
    (s.onHost f).i3c2 = s.i3c2 := by
  and_intros <;> rfl

@[simp] theorem State.onMem_eq (f : Tab Byte → Tab Byte) (s : State) : (s.onMem f).mem = f s.mem := rfl

@[simp] theorem State.onMem_frame (f : Tab Byte → Tab Byte) (s : State) :
    (s.onMem f).pending = s.pending ∧ (s.onMem f).time = s.time ∧ (s.onMem f).free = s.free ∧
    (s.onMem f).host = s.host ∧ (s.onMem f).poison = s.poison ∧ (s.onMem f).board = s.board ∧
    (s.onMem f).fuseArray = s.fuseArray ∧ (s.onMem f).fuses = s.fuses ∧ (s.onMem f).flash = s.flash ∧
    (s.onMem f).box = s.box ∧ (s.onMem f).boot = s.boot ∧ (s.onMem f).cores = s.cores ∧ (s.onMem f).grid = s.grid ∧
    (s.onMem f).qb = s.qb ∧ (s.onMem f).flasks = s.flasks ∧ (s.onMem f).faults = s.faults ∧
    (s.onMem f).nextFault = s.nextFault ∧ (s.onMem f).claims = s.claims ∧ (s.onMem f).graph = s.graph ∧
    (s.onMem f).mt = s.mt ∧ (s.onMem f).vt = s.vt ∧ (s.onMem f).lk = s.lk ∧ (s.onMem f).he = s.he ∧
    (s.onMem f).hb = s.hb ∧ (s.onMem f).ld = s.ld ∧ (s.onMem f).slots = s.slots ∧ (s.onMem f).vops = s.vops ∧
    (s.onMem f).mc = s.mc ∧ (s.onMem f).net = s.net ∧ (s.onMem f).fp = s.fp ∧ (s.onMem f).sprue = s.sprue ∧
    (s.onMem f).nimra = s.nimra ∧ (s.onMem f).serving = s.serving ∧ (s.onMem f).power = s.power ∧
    (s.onMem f).cxl = s.cxl ∧ (s.onMem f).i3c = s.i3c ∧ (s.onMem f).i3c2 = s.i3c2 := by
  and_intros <;> rfl

@[simp] theorem State.onPoison_eq (f : List Nat → List Nat) (s : State) : (s.onPoison f).poison = f s.poison := rfl

@[simp] theorem State.onPoison_frame (f : List Nat → List Nat) (s : State) :
    (s.onPoison f).pending = s.pending ∧ (s.onPoison f).time = s.time ∧ (s.onPoison f).free = s.free ∧
    (s.onPoison f).host = s.host ∧ (s.onPoison f).mem = s.mem ∧ (s.onPoison f).board = s.board ∧
    (s.onPoison f).fuseArray = s.fuseArray ∧ (s.onPoison f).fuses = s.fuses ∧ (s.onPoison f).flash = s.flash ∧
    (s.onPoison f).box = s.box ∧ (s.onPoison f).boot = s.boot ∧ (s.onPoison f).cores = s.cores ∧
    (s.onPoison f).grid = s.grid ∧ (s.onPoison f).qb = s.qb ∧ (s.onPoison f).flasks = s.flasks ∧
    (s.onPoison f).faults = s.faults ∧ (s.onPoison f).nextFault = s.nextFault ∧ (s.onPoison f).claims = s.claims ∧
    (s.onPoison f).graph = s.graph ∧ (s.onPoison f).mt = s.mt ∧ (s.onPoison f).vt = s.vt ∧ (s.onPoison f).lk = s.lk ∧
    (s.onPoison f).he = s.he ∧ (s.onPoison f).hb = s.hb ∧ (s.onPoison f).ld = s.ld ∧ (s.onPoison f).slots = s.slots ∧
    (s.onPoison f).vops = s.vops ∧ (s.onPoison f).mc = s.mc ∧ (s.onPoison f).net = s.net ∧ (s.onPoison f).fp = s.fp ∧
    (s.onPoison f).sprue = s.sprue ∧ (s.onPoison f).nimra = s.nimra ∧ (s.onPoison f).serving = s.serving ∧
    (s.onPoison f).power = s.power ∧ (s.onPoison f).cxl = s.cxl ∧ (s.onPoison f).i3c = s.i3c ∧
    (s.onPoison f).i3c2 = s.i3c2 := by
  and_intros <;> rfl

@[simp] theorem State.onBoard_eq (f : Board → Board) (s : State) : (s.onBoard f).board = f s.board := rfl

@[simp] theorem State.onBoard_frame (f : Board → Board) (s : State) :
    (s.onBoard f).pending = s.pending ∧ (s.onBoard f).time = s.time ∧ (s.onBoard f).free = s.free ∧
    (s.onBoard f).host = s.host ∧ (s.onBoard f).mem = s.mem ∧ (s.onBoard f).poison = s.poison ∧
    (s.onBoard f).fuseArray = s.fuseArray ∧ (s.onBoard f).fuses = s.fuses ∧ (s.onBoard f).flash = s.flash ∧
    (s.onBoard f).box = s.box ∧ (s.onBoard f).boot = s.boot ∧ (s.onBoard f).cores = s.cores ∧
    (s.onBoard f).grid = s.grid ∧ (s.onBoard f).qb = s.qb ∧ (s.onBoard f).flasks = s.flasks ∧
    (s.onBoard f).faults = s.faults ∧ (s.onBoard f).nextFault = s.nextFault ∧ (s.onBoard f).claims = s.claims ∧
    (s.onBoard f).graph = s.graph ∧ (s.onBoard f).mt = s.mt ∧ (s.onBoard f).vt = s.vt ∧ (s.onBoard f).lk = s.lk ∧
    (s.onBoard f).he = s.he ∧ (s.onBoard f).hb = s.hb ∧ (s.onBoard f).ld = s.ld ∧ (s.onBoard f).slots = s.slots ∧
    (s.onBoard f).vops = s.vops ∧ (s.onBoard f).mc = s.mc ∧ (s.onBoard f).net = s.net ∧ (s.onBoard f).fp = s.fp ∧
    (s.onBoard f).sprue = s.sprue ∧ (s.onBoard f).nimra = s.nimra ∧ (s.onBoard f).serving = s.serving ∧
    (s.onBoard f).power = s.power ∧ (s.onBoard f).cxl = s.cxl ∧ (s.onBoard f).i3c = s.i3c ∧
    (s.onBoard f).i3c2 = s.i3c2 := by
  and_intros <;> rfl

@[simp] theorem State.onFuseArray_eq (f : Fuses → Fuses) (s : State) : (s.onFuseArray f).fuseArray = f s.fuseArray := rfl

@[simp] theorem State.onFuseArray_frame (f : Fuses → Fuses) (s : State) :
    (s.onFuseArray f).pending = s.pending ∧ (s.onFuseArray f).time = s.time ∧ (s.onFuseArray f).free = s.free ∧
    (s.onFuseArray f).host = s.host ∧ (s.onFuseArray f).mem = s.mem ∧ (s.onFuseArray f).poison = s.poison ∧
    (s.onFuseArray f).board = s.board ∧ (s.onFuseArray f).fuses = s.fuses ∧ (s.onFuseArray f).flash = s.flash ∧
    (s.onFuseArray f).box = s.box ∧ (s.onFuseArray f).boot = s.boot ∧ (s.onFuseArray f).cores = s.cores ∧
    (s.onFuseArray f).grid = s.grid ∧ (s.onFuseArray f).qb = s.qb ∧ (s.onFuseArray f).flasks = s.flasks ∧
    (s.onFuseArray f).faults = s.faults ∧ (s.onFuseArray f).nextFault = s.nextFault ∧
    (s.onFuseArray f).claims = s.claims ∧ (s.onFuseArray f).graph = s.graph ∧ (s.onFuseArray f).mt = s.mt ∧
    (s.onFuseArray f).vt = s.vt ∧ (s.onFuseArray f).lk = s.lk ∧ (s.onFuseArray f).he = s.he ∧
    (s.onFuseArray f).hb = s.hb ∧ (s.onFuseArray f).ld = s.ld ∧ (s.onFuseArray f).slots = s.slots ∧
    (s.onFuseArray f).vops = s.vops ∧ (s.onFuseArray f).mc = s.mc ∧ (s.onFuseArray f).net = s.net ∧
    (s.onFuseArray f).fp = s.fp ∧ (s.onFuseArray f).sprue = s.sprue ∧ (s.onFuseArray f).nimra = s.nimra ∧
    (s.onFuseArray f).serving = s.serving ∧ (s.onFuseArray f).power = s.power ∧ (s.onFuseArray f).cxl = s.cxl ∧
    (s.onFuseArray f).i3c = s.i3c ∧ (s.onFuseArray f).i3c2 = s.i3c2 := by
  and_intros <;> rfl

@[simp] theorem State.onFuses_eq (f : Fuses → Fuses) (s : State) : (s.onFuses f).fuses = f s.fuses := rfl

@[simp] theorem State.onFuses_frame (f : Fuses → Fuses) (s : State) :
    (s.onFuses f).pending = s.pending ∧ (s.onFuses f).time = s.time ∧ (s.onFuses f).free = s.free ∧
    (s.onFuses f).host = s.host ∧ (s.onFuses f).mem = s.mem ∧ (s.onFuses f).poison = s.poison ∧
    (s.onFuses f).board = s.board ∧ (s.onFuses f).fuseArray = s.fuseArray ∧ (s.onFuses f).flash = s.flash ∧
    (s.onFuses f).box = s.box ∧ (s.onFuses f).boot = s.boot ∧ (s.onFuses f).cores = s.cores ∧
    (s.onFuses f).grid = s.grid ∧ (s.onFuses f).qb = s.qb ∧ (s.onFuses f).flasks = s.flasks ∧
    (s.onFuses f).faults = s.faults ∧ (s.onFuses f).nextFault = s.nextFault ∧ (s.onFuses f).claims = s.claims ∧
    (s.onFuses f).graph = s.graph ∧ (s.onFuses f).mt = s.mt ∧ (s.onFuses f).vt = s.vt ∧ (s.onFuses f).lk = s.lk ∧
    (s.onFuses f).he = s.he ∧ (s.onFuses f).hb = s.hb ∧ (s.onFuses f).ld = s.ld ∧ (s.onFuses f).slots = s.slots ∧
    (s.onFuses f).vops = s.vops ∧ (s.onFuses f).mc = s.mc ∧ (s.onFuses f).net = s.net ∧ (s.onFuses f).fp = s.fp ∧
    (s.onFuses f).sprue = s.sprue ∧ (s.onFuses f).nimra = s.nimra ∧ (s.onFuses f).serving = s.serving ∧
    (s.onFuses f).power = s.power ∧ (s.onFuses f).cxl = s.cxl ∧ (s.onFuses f).i3c = s.i3c ∧
    (s.onFuses f).i3c2 = s.i3c2 := by
  and_intros <;> rfl

@[simp] theorem State.onFlash_eq (f : Flash → Flash) (s : State) : (s.onFlash f).flash = f s.flash := rfl

@[simp] theorem State.onFlash_frame (f : Flash → Flash) (s : State) :
    (s.onFlash f).pending = s.pending ∧ (s.onFlash f).time = s.time ∧ (s.onFlash f).free = s.free ∧
    (s.onFlash f).host = s.host ∧ (s.onFlash f).mem = s.mem ∧ (s.onFlash f).poison = s.poison ∧
    (s.onFlash f).board = s.board ∧ (s.onFlash f).fuseArray = s.fuseArray ∧ (s.onFlash f).fuses = s.fuses ∧
    (s.onFlash f).box = s.box ∧ (s.onFlash f).boot = s.boot ∧ (s.onFlash f).cores = s.cores ∧
    (s.onFlash f).grid = s.grid ∧ (s.onFlash f).qb = s.qb ∧ (s.onFlash f).flasks = s.flasks ∧
    (s.onFlash f).faults = s.faults ∧ (s.onFlash f).nextFault = s.nextFault ∧ (s.onFlash f).claims = s.claims ∧
    (s.onFlash f).graph = s.graph ∧ (s.onFlash f).mt = s.mt ∧ (s.onFlash f).vt = s.vt ∧ (s.onFlash f).lk = s.lk ∧
    (s.onFlash f).he = s.he ∧ (s.onFlash f).hb = s.hb ∧ (s.onFlash f).ld = s.ld ∧ (s.onFlash f).slots = s.slots ∧
    (s.onFlash f).vops = s.vops ∧ (s.onFlash f).mc = s.mc ∧ (s.onFlash f).net = s.net ∧ (s.onFlash f).fp = s.fp ∧
    (s.onFlash f).sprue = s.sprue ∧ (s.onFlash f).nimra = s.nimra ∧ (s.onFlash f).serving = s.serving ∧
    (s.onFlash f).power = s.power ∧ (s.onFlash f).cxl = s.cxl ∧ (s.onFlash f).i3c = s.i3c ∧
    (s.onFlash f).i3c2 = s.i3c2 := by
  and_intros <;> rfl

@[simp] theorem State.onBox_eq (f : BlackBox → BlackBox) (s : State) : (s.onBox f).box = f s.box := rfl

@[simp] theorem State.onBox_frame (f : BlackBox → BlackBox) (s : State) :
    (s.onBox f).pending = s.pending ∧ (s.onBox f).time = s.time ∧ (s.onBox f).free = s.free ∧
    (s.onBox f).host = s.host ∧ (s.onBox f).mem = s.mem ∧ (s.onBox f).poison = s.poison ∧
    (s.onBox f).board = s.board ∧ (s.onBox f).fuseArray = s.fuseArray ∧ (s.onBox f).fuses = s.fuses ∧
    (s.onBox f).flash = s.flash ∧ (s.onBox f).boot = s.boot ∧ (s.onBox f).cores = s.cores ∧
    (s.onBox f).grid = s.grid ∧ (s.onBox f).qb = s.qb ∧ (s.onBox f).flasks = s.flasks ∧
    (s.onBox f).faults = s.faults ∧ (s.onBox f).nextFault = s.nextFault ∧ (s.onBox f).claims = s.claims ∧
    (s.onBox f).graph = s.graph ∧ (s.onBox f).mt = s.mt ∧ (s.onBox f).vt = s.vt ∧ (s.onBox f).lk = s.lk ∧
    (s.onBox f).he = s.he ∧ (s.onBox f).hb = s.hb ∧ (s.onBox f).ld = s.ld ∧ (s.onBox f).slots = s.slots ∧
    (s.onBox f).vops = s.vops ∧ (s.onBox f).mc = s.mc ∧ (s.onBox f).net = s.net ∧ (s.onBox f).fp = s.fp ∧
    (s.onBox f).sprue = s.sprue ∧ (s.onBox f).nimra = s.nimra ∧ (s.onBox f).serving = s.serving ∧
    (s.onBox f).power = s.power ∧ (s.onBox f).cxl = s.cxl ∧ (s.onBox f).i3c = s.i3c ∧ (s.onBox f).i3c2 = s.i3c2 := by
  and_intros <;> rfl

@[simp] theorem State.onBoot_eq (f : Boot → Boot) (s : State) : (s.onBoot f).boot = f s.boot := rfl

@[simp] theorem State.onBoot_frame (f : Boot → Boot) (s : State) :
    (s.onBoot f).pending = s.pending ∧ (s.onBoot f).time = s.time ∧ (s.onBoot f).free = s.free ∧
    (s.onBoot f).host = s.host ∧ (s.onBoot f).mem = s.mem ∧ (s.onBoot f).poison = s.poison ∧
    (s.onBoot f).board = s.board ∧ (s.onBoot f).fuseArray = s.fuseArray ∧ (s.onBoot f).fuses = s.fuses ∧
    (s.onBoot f).flash = s.flash ∧ (s.onBoot f).box = s.box ∧ (s.onBoot f).cores = s.cores ∧
    (s.onBoot f).grid = s.grid ∧ (s.onBoot f).qb = s.qb ∧ (s.onBoot f).flasks = s.flasks ∧
    (s.onBoot f).faults = s.faults ∧ (s.onBoot f).nextFault = s.nextFault ∧ (s.onBoot f).claims = s.claims ∧
    (s.onBoot f).graph = s.graph ∧ (s.onBoot f).mt = s.mt ∧ (s.onBoot f).vt = s.vt ∧ (s.onBoot f).lk = s.lk ∧
    (s.onBoot f).he = s.he ∧ (s.onBoot f).hb = s.hb ∧ (s.onBoot f).ld = s.ld ∧ (s.onBoot f).slots = s.slots ∧
    (s.onBoot f).vops = s.vops ∧ (s.onBoot f).mc = s.mc ∧ (s.onBoot f).net = s.net ∧ (s.onBoot f).fp = s.fp ∧
    (s.onBoot f).sprue = s.sprue ∧ (s.onBoot f).nimra = s.nimra ∧ (s.onBoot f).serving = s.serving ∧
    (s.onBoot f).power = s.power ∧ (s.onBoot f).cxl = s.cxl ∧ (s.onBoot f).i3c = s.i3c ∧
    (s.onBoot f).i3c2 = s.i3c2 := by
  and_intros <;> rfl

@[simp] theorem State.onCores_eq (f : Tab Core → Tab Core) (s : State) : (s.onCores f).cores = f s.cores := rfl

@[simp] theorem State.onCores_frame (f : Tab Core → Tab Core) (s : State) :
    (s.onCores f).pending = s.pending ∧ (s.onCores f).time = s.time ∧ (s.onCores f).free = s.free ∧
    (s.onCores f).host = s.host ∧ (s.onCores f).mem = s.mem ∧ (s.onCores f).poison = s.poison ∧
    (s.onCores f).board = s.board ∧ (s.onCores f).fuseArray = s.fuseArray ∧ (s.onCores f).fuses = s.fuses ∧
    (s.onCores f).flash = s.flash ∧ (s.onCores f).box = s.box ∧ (s.onCores f).boot = s.boot ∧
    (s.onCores f).grid = s.grid ∧ (s.onCores f).qb = s.qb ∧ (s.onCores f).flasks = s.flasks ∧
    (s.onCores f).faults = s.faults ∧ (s.onCores f).nextFault = s.nextFault ∧ (s.onCores f).claims = s.claims ∧
    (s.onCores f).graph = s.graph ∧ (s.onCores f).mt = s.mt ∧ (s.onCores f).vt = s.vt ∧ (s.onCores f).lk = s.lk ∧
    (s.onCores f).he = s.he ∧ (s.onCores f).hb = s.hb ∧ (s.onCores f).ld = s.ld ∧ (s.onCores f).slots = s.slots ∧
    (s.onCores f).vops = s.vops ∧ (s.onCores f).mc = s.mc ∧ (s.onCores f).net = s.net ∧ (s.onCores f).fp = s.fp ∧
    (s.onCores f).sprue = s.sprue ∧ (s.onCores f).nimra = s.nimra ∧ (s.onCores f).serving = s.serving ∧
    (s.onCores f).power = s.power ∧ (s.onCores f).cxl = s.cxl ∧ (s.onCores f).i3c = s.i3c ∧
    (s.onCores f).i3c2 = s.i3c2 := by
  and_intros <;> rfl

@[simp] theorem State.onGrid_eq (f : Grid → Grid) (s : State) : (s.onGrid f).grid = f s.grid := rfl

@[simp] theorem State.onGrid_frame (f : Grid → Grid) (s : State) :
    (s.onGrid f).pending = s.pending ∧ (s.onGrid f).time = s.time ∧ (s.onGrid f).free = s.free ∧
    (s.onGrid f).host = s.host ∧ (s.onGrid f).mem = s.mem ∧ (s.onGrid f).poison = s.poison ∧
    (s.onGrid f).board = s.board ∧ (s.onGrid f).fuseArray = s.fuseArray ∧ (s.onGrid f).fuses = s.fuses ∧
    (s.onGrid f).flash = s.flash ∧ (s.onGrid f).box = s.box ∧ (s.onGrid f).boot = s.boot ∧
    (s.onGrid f).cores = s.cores ∧ (s.onGrid f).qb = s.qb ∧ (s.onGrid f).flasks = s.flasks ∧
    (s.onGrid f).faults = s.faults ∧ (s.onGrid f).nextFault = s.nextFault ∧ (s.onGrid f).claims = s.claims ∧
    (s.onGrid f).graph = s.graph ∧ (s.onGrid f).mt = s.mt ∧ (s.onGrid f).vt = s.vt ∧ (s.onGrid f).lk = s.lk ∧
    (s.onGrid f).he = s.he ∧ (s.onGrid f).hb = s.hb ∧ (s.onGrid f).ld = s.ld ∧ (s.onGrid f).slots = s.slots ∧
    (s.onGrid f).vops = s.vops ∧ (s.onGrid f).mc = s.mc ∧ (s.onGrid f).net = s.net ∧ (s.onGrid f).fp = s.fp ∧
    (s.onGrid f).sprue = s.sprue ∧ (s.onGrid f).nimra = s.nimra ∧ (s.onGrid f).serving = s.serving ∧
    (s.onGrid f).power = s.power ∧ (s.onGrid f).cxl = s.cxl ∧ (s.onGrid f).i3c = s.i3c ∧
    (s.onGrid f).i3c2 = s.i3c2 := by
  and_intros <;> rfl

@[simp] theorem State.onQb_eq (f : Quibor → Quibor) (s : State) : (s.onQb f).qb = f s.qb := rfl

@[simp] theorem State.onQb_frame (f : Quibor → Quibor) (s : State) :
    (s.onQb f).pending = s.pending ∧ (s.onQb f).time = s.time ∧ (s.onQb f).free = s.free ∧ (s.onQb f).host = s.host ∧
    (s.onQb f).mem = s.mem ∧ (s.onQb f).poison = s.poison ∧ (s.onQb f).board = s.board ∧
    (s.onQb f).fuseArray = s.fuseArray ∧ (s.onQb f).fuses = s.fuses ∧ (s.onQb f).flash = s.flash ∧
    (s.onQb f).box = s.box ∧ (s.onQb f).boot = s.boot ∧ (s.onQb f).cores = s.cores ∧ (s.onQb f).grid = s.grid ∧
    (s.onQb f).flasks = s.flasks ∧ (s.onQb f).faults = s.faults ∧ (s.onQb f).nextFault = s.nextFault ∧
    (s.onQb f).claims = s.claims ∧ (s.onQb f).graph = s.graph ∧ (s.onQb f).mt = s.mt ∧ (s.onQb f).vt = s.vt ∧
    (s.onQb f).lk = s.lk ∧ (s.onQb f).he = s.he ∧ (s.onQb f).hb = s.hb ∧ (s.onQb f).ld = s.ld ∧
    (s.onQb f).slots = s.slots ∧ (s.onQb f).vops = s.vops ∧ (s.onQb f).mc = s.mc ∧ (s.onQb f).net = s.net ∧
    (s.onQb f).fp = s.fp ∧ (s.onQb f).sprue = s.sprue ∧ (s.onQb f).nimra = s.nimra ∧ (s.onQb f).serving = s.serving ∧
    (s.onQb f).power = s.power ∧ (s.onQb f).cxl = s.cxl ∧ (s.onQb f).i3c = s.i3c ∧ (s.onQb f).i3c2 = s.i3c2 := by
  and_intros <;> rfl

@[simp] theorem State.onFlasks_eq (f : Tab Flask → Tab Flask) (s : State) : (s.onFlasks f).flasks = f s.flasks := rfl

@[simp] theorem State.onFlasks_frame (f : Tab Flask → Tab Flask) (s : State) :
    (s.onFlasks f).pending = s.pending ∧ (s.onFlasks f).time = s.time ∧ (s.onFlasks f).free = s.free ∧
    (s.onFlasks f).host = s.host ∧ (s.onFlasks f).mem = s.mem ∧ (s.onFlasks f).poison = s.poison ∧
    (s.onFlasks f).board = s.board ∧ (s.onFlasks f).fuseArray = s.fuseArray ∧ (s.onFlasks f).fuses = s.fuses ∧
    (s.onFlasks f).flash = s.flash ∧ (s.onFlasks f).box = s.box ∧ (s.onFlasks f).boot = s.boot ∧
    (s.onFlasks f).cores = s.cores ∧ (s.onFlasks f).grid = s.grid ∧ (s.onFlasks f).qb = s.qb ∧
    (s.onFlasks f).faults = s.faults ∧ (s.onFlasks f).nextFault = s.nextFault ∧ (s.onFlasks f).claims = s.claims ∧
    (s.onFlasks f).graph = s.graph ∧ (s.onFlasks f).mt = s.mt ∧ (s.onFlasks f).vt = s.vt ∧ (s.onFlasks f).lk = s.lk ∧
    (s.onFlasks f).he = s.he ∧ (s.onFlasks f).hb = s.hb ∧ (s.onFlasks f).ld = s.ld ∧ (s.onFlasks f).slots = s.slots ∧
    (s.onFlasks f).vops = s.vops ∧ (s.onFlasks f).mc = s.mc ∧ (s.onFlasks f).net = s.net ∧ (s.onFlasks f).fp = s.fp ∧
    (s.onFlasks f).sprue = s.sprue ∧ (s.onFlasks f).nimra = s.nimra ∧ (s.onFlasks f).serving = s.serving ∧
    (s.onFlasks f).power = s.power ∧ (s.onFlasks f).cxl = s.cxl ∧ (s.onFlasks f).i3c = s.i3c ∧
    (s.onFlasks f).i3c2 = s.i3c2 := by
  and_intros <;> rfl

@[simp] theorem State.onFaults_eq (f : List PFault → List PFault) (s : State) : (s.onFaults f).faults = f s.faults := rfl

@[simp] theorem State.onFaults_frame (f : List PFault → List PFault) (s : State) :
    (s.onFaults f).pending = s.pending ∧ (s.onFaults f).time = s.time ∧ (s.onFaults f).free = s.free ∧
    (s.onFaults f).host = s.host ∧ (s.onFaults f).mem = s.mem ∧ (s.onFaults f).poison = s.poison ∧
    (s.onFaults f).board = s.board ∧ (s.onFaults f).fuseArray = s.fuseArray ∧ (s.onFaults f).fuses = s.fuses ∧
    (s.onFaults f).flash = s.flash ∧ (s.onFaults f).box = s.box ∧ (s.onFaults f).boot = s.boot ∧
    (s.onFaults f).cores = s.cores ∧ (s.onFaults f).grid = s.grid ∧ (s.onFaults f).qb = s.qb ∧
    (s.onFaults f).flasks = s.flasks ∧ (s.onFaults f).nextFault = s.nextFault ∧ (s.onFaults f).claims = s.claims ∧
    (s.onFaults f).graph = s.graph ∧ (s.onFaults f).mt = s.mt ∧ (s.onFaults f).vt = s.vt ∧ (s.onFaults f).lk = s.lk ∧
    (s.onFaults f).he = s.he ∧ (s.onFaults f).hb = s.hb ∧ (s.onFaults f).ld = s.ld ∧ (s.onFaults f).slots = s.slots ∧
    (s.onFaults f).vops = s.vops ∧ (s.onFaults f).mc = s.mc ∧ (s.onFaults f).net = s.net ∧ (s.onFaults f).fp = s.fp ∧
    (s.onFaults f).sprue = s.sprue ∧ (s.onFaults f).nimra = s.nimra ∧ (s.onFaults f).serving = s.serving ∧
    (s.onFaults f).power = s.power ∧ (s.onFaults f).cxl = s.cxl ∧ (s.onFaults f).i3c = s.i3c ∧
    (s.onFaults f).i3c2 = s.i3c2 := by
  and_intros <;> rfl

@[simp] theorem State.onNextFault_eq (f : Nat → Nat) (s : State) : (s.onNextFault f).nextFault = f s.nextFault := rfl

@[simp] theorem State.onNextFault_frame (f : Nat → Nat) (s : State) :
    (s.onNextFault f).pending = s.pending ∧ (s.onNextFault f).time = s.time ∧ (s.onNextFault f).free = s.free ∧
    (s.onNextFault f).host = s.host ∧ (s.onNextFault f).mem = s.mem ∧ (s.onNextFault f).poison = s.poison ∧
    (s.onNextFault f).board = s.board ∧ (s.onNextFault f).fuseArray = s.fuseArray ∧
    (s.onNextFault f).fuses = s.fuses ∧ (s.onNextFault f).flash = s.flash ∧ (s.onNextFault f).box = s.box ∧
    (s.onNextFault f).boot = s.boot ∧ (s.onNextFault f).cores = s.cores ∧ (s.onNextFault f).grid = s.grid ∧
    (s.onNextFault f).qb = s.qb ∧ (s.onNextFault f).flasks = s.flasks ∧ (s.onNextFault f).faults = s.faults ∧
    (s.onNextFault f).claims = s.claims ∧ (s.onNextFault f).graph = s.graph ∧ (s.onNextFault f).mt = s.mt ∧
    (s.onNextFault f).vt = s.vt ∧ (s.onNextFault f).lk = s.lk ∧ (s.onNextFault f).he = s.he ∧
    (s.onNextFault f).hb = s.hb ∧ (s.onNextFault f).ld = s.ld ∧ (s.onNextFault f).slots = s.slots ∧
    (s.onNextFault f).vops = s.vops ∧ (s.onNextFault f).mc = s.mc ∧ (s.onNextFault f).net = s.net ∧
    (s.onNextFault f).fp = s.fp ∧ (s.onNextFault f).sprue = s.sprue ∧ (s.onNextFault f).nimra = s.nimra ∧
    (s.onNextFault f).serving = s.serving ∧ (s.onNextFault f).power = s.power ∧ (s.onNextFault f).cxl = s.cxl ∧
    (s.onNextFault f).i3c = s.i3c ∧ (s.onNextFault f).i3c2 = s.i3c2 := by
  and_intros <;> rfl

@[simp] theorem State.onClaims_eq (f : Tab Claim → Tab Claim) (s : State) : (s.onClaims f).claims = f s.claims := rfl

@[simp] theorem State.onClaims_frame (f : Tab Claim → Tab Claim) (s : State) :
    (s.onClaims f).pending = s.pending ∧ (s.onClaims f).time = s.time ∧ (s.onClaims f).free = s.free ∧
    (s.onClaims f).host = s.host ∧ (s.onClaims f).mem = s.mem ∧ (s.onClaims f).poison = s.poison ∧
    (s.onClaims f).board = s.board ∧ (s.onClaims f).fuseArray = s.fuseArray ∧ (s.onClaims f).fuses = s.fuses ∧
    (s.onClaims f).flash = s.flash ∧ (s.onClaims f).box = s.box ∧ (s.onClaims f).boot = s.boot ∧
    (s.onClaims f).cores = s.cores ∧ (s.onClaims f).grid = s.grid ∧ (s.onClaims f).qb = s.qb ∧
    (s.onClaims f).flasks = s.flasks ∧ (s.onClaims f).faults = s.faults ∧ (s.onClaims f).nextFault = s.nextFault ∧
    (s.onClaims f).graph = s.graph ∧ (s.onClaims f).mt = s.mt ∧ (s.onClaims f).vt = s.vt ∧ (s.onClaims f).lk = s.lk ∧
    (s.onClaims f).he = s.he ∧ (s.onClaims f).hb = s.hb ∧ (s.onClaims f).ld = s.ld ∧ (s.onClaims f).slots = s.slots ∧
    (s.onClaims f).vops = s.vops ∧ (s.onClaims f).mc = s.mc ∧ (s.onClaims f).net = s.net ∧ (s.onClaims f).fp = s.fp ∧
    (s.onClaims f).sprue = s.sprue ∧ (s.onClaims f).nimra = s.nimra ∧ (s.onClaims f).serving = s.serving ∧
    (s.onClaims f).power = s.power ∧ (s.onClaims f).cxl = s.cxl ∧ (s.onClaims f).i3c = s.i3c ∧
    (s.onClaims f).i3c2 = s.i3c2 := by
  and_intros <;> rfl

@[simp] theorem State.onGraph_eq (f : Graph → Graph) (s : State) : (s.onGraph f).graph = f s.graph := rfl

@[simp] theorem State.onGraph_frame (f : Graph → Graph) (s : State) :
    (s.onGraph f).pending = s.pending ∧ (s.onGraph f).time = s.time ∧ (s.onGraph f).free = s.free ∧
    (s.onGraph f).host = s.host ∧ (s.onGraph f).mem = s.mem ∧ (s.onGraph f).poison = s.poison ∧
    (s.onGraph f).board = s.board ∧ (s.onGraph f).fuseArray = s.fuseArray ∧ (s.onGraph f).fuses = s.fuses ∧
    (s.onGraph f).flash = s.flash ∧ (s.onGraph f).box = s.box ∧ (s.onGraph f).boot = s.boot ∧
    (s.onGraph f).cores = s.cores ∧ (s.onGraph f).grid = s.grid ∧ (s.onGraph f).qb = s.qb ∧
    (s.onGraph f).flasks = s.flasks ∧ (s.onGraph f).faults = s.faults ∧ (s.onGraph f).nextFault = s.nextFault ∧
    (s.onGraph f).claims = s.claims ∧ (s.onGraph f).mt = s.mt ∧ (s.onGraph f).vt = s.vt ∧ (s.onGraph f).lk = s.lk ∧
    (s.onGraph f).he = s.he ∧ (s.onGraph f).hb = s.hb ∧ (s.onGraph f).ld = s.ld ∧ (s.onGraph f).slots = s.slots ∧
    (s.onGraph f).vops = s.vops ∧ (s.onGraph f).mc = s.mc ∧ (s.onGraph f).net = s.net ∧ (s.onGraph f).fp = s.fp ∧
    (s.onGraph f).sprue = s.sprue ∧ (s.onGraph f).nimra = s.nimra ∧ (s.onGraph f).serving = s.serving ∧
    (s.onGraph f).power = s.power ∧ (s.onGraph f).cxl = s.cxl ∧ (s.onGraph f).i3c = s.i3c ∧
    (s.onGraph f).i3c2 = s.i3c2 := by
  and_intros <;> rfl

@[simp] theorem State.onMt_eq (f : Tab MatrixTile → Tab MatrixTile) (s : State) : (s.onMt f).mt = f s.mt := rfl

@[simp] theorem State.onMt_frame (f : Tab MatrixTile → Tab MatrixTile) (s : State) :
    (s.onMt f).pending = s.pending ∧ (s.onMt f).time = s.time ∧ (s.onMt f).free = s.free ∧ (s.onMt f).host = s.host ∧
    (s.onMt f).mem = s.mem ∧ (s.onMt f).poison = s.poison ∧ (s.onMt f).board = s.board ∧
    (s.onMt f).fuseArray = s.fuseArray ∧ (s.onMt f).fuses = s.fuses ∧ (s.onMt f).flash = s.flash ∧
    (s.onMt f).box = s.box ∧ (s.onMt f).boot = s.boot ∧ (s.onMt f).cores = s.cores ∧ (s.onMt f).grid = s.grid ∧
    (s.onMt f).qb = s.qb ∧ (s.onMt f).flasks = s.flasks ∧ (s.onMt f).faults = s.faults ∧
    (s.onMt f).nextFault = s.nextFault ∧ (s.onMt f).claims = s.claims ∧ (s.onMt f).graph = s.graph ∧
    (s.onMt f).vt = s.vt ∧ (s.onMt f).lk = s.lk ∧ (s.onMt f).he = s.he ∧ (s.onMt f).hb = s.hb ∧ (s.onMt f).ld = s.ld ∧
    (s.onMt f).slots = s.slots ∧ (s.onMt f).vops = s.vops ∧ (s.onMt f).mc = s.mc ∧ (s.onMt f).net = s.net ∧
    (s.onMt f).fp = s.fp ∧ (s.onMt f).sprue = s.sprue ∧ (s.onMt f).nimra = s.nimra ∧ (s.onMt f).serving = s.serving ∧
    (s.onMt f).power = s.power ∧ (s.onMt f).cxl = s.cxl ∧ (s.onMt f).i3c = s.i3c ∧ (s.onMt f).i3c2 = s.i3c2 := by
  and_intros <;> rfl

@[simp] theorem State.onVt_eq (f : Tab VectorTile → Tab VectorTile) (s : State) : (s.onVt f).vt = f s.vt := rfl

@[simp] theorem State.onVt_frame (f : Tab VectorTile → Tab VectorTile) (s : State) :
    (s.onVt f).pending = s.pending ∧ (s.onVt f).time = s.time ∧ (s.onVt f).free = s.free ∧ (s.onVt f).host = s.host ∧
    (s.onVt f).mem = s.mem ∧ (s.onVt f).poison = s.poison ∧ (s.onVt f).board = s.board ∧
    (s.onVt f).fuseArray = s.fuseArray ∧ (s.onVt f).fuses = s.fuses ∧ (s.onVt f).flash = s.flash ∧
    (s.onVt f).box = s.box ∧ (s.onVt f).boot = s.boot ∧ (s.onVt f).cores = s.cores ∧ (s.onVt f).grid = s.grid ∧
    (s.onVt f).qb = s.qb ∧ (s.onVt f).flasks = s.flasks ∧ (s.onVt f).faults = s.faults ∧
    (s.onVt f).nextFault = s.nextFault ∧ (s.onVt f).claims = s.claims ∧ (s.onVt f).graph = s.graph ∧
    (s.onVt f).mt = s.mt ∧ (s.onVt f).lk = s.lk ∧ (s.onVt f).he = s.he ∧ (s.onVt f).hb = s.hb ∧ (s.onVt f).ld = s.ld ∧
    (s.onVt f).slots = s.slots ∧ (s.onVt f).vops = s.vops ∧ (s.onVt f).mc = s.mc ∧ (s.onVt f).net = s.net ∧
    (s.onVt f).fp = s.fp ∧ (s.onVt f).sprue = s.sprue ∧ (s.onVt f).nimra = s.nimra ∧ (s.onVt f).serving = s.serving ∧
    (s.onVt f).power = s.power ∧ (s.onVt f).cxl = s.cxl ∧ (s.onVt f).i3c = s.i3c ∧ (s.onVt f).i3c2 = s.i3c2 := by
  and_intros <;> rfl

@[simp] theorem State.onLk_eq (f : Tab UnitSt → Tab UnitSt) (s : State) : (s.onLk f).lk = f s.lk := rfl

@[simp] theorem State.onLk_frame (f : Tab UnitSt → Tab UnitSt) (s : State) :
    (s.onLk f).pending = s.pending ∧ (s.onLk f).time = s.time ∧ (s.onLk f).free = s.free ∧ (s.onLk f).host = s.host ∧
    (s.onLk f).mem = s.mem ∧ (s.onLk f).poison = s.poison ∧ (s.onLk f).board = s.board ∧
    (s.onLk f).fuseArray = s.fuseArray ∧ (s.onLk f).fuses = s.fuses ∧ (s.onLk f).flash = s.flash ∧
    (s.onLk f).box = s.box ∧ (s.onLk f).boot = s.boot ∧ (s.onLk f).cores = s.cores ∧ (s.onLk f).grid = s.grid ∧
    (s.onLk f).qb = s.qb ∧ (s.onLk f).flasks = s.flasks ∧ (s.onLk f).faults = s.faults ∧
    (s.onLk f).nextFault = s.nextFault ∧ (s.onLk f).claims = s.claims ∧ (s.onLk f).graph = s.graph ∧
    (s.onLk f).mt = s.mt ∧ (s.onLk f).vt = s.vt ∧ (s.onLk f).he = s.he ∧ (s.onLk f).hb = s.hb ∧ (s.onLk f).ld = s.ld ∧
    (s.onLk f).slots = s.slots ∧ (s.onLk f).vops = s.vops ∧ (s.onLk f).mc = s.mc ∧ (s.onLk f).net = s.net ∧
    (s.onLk f).fp = s.fp ∧ (s.onLk f).sprue = s.sprue ∧ (s.onLk f).nimra = s.nimra ∧ (s.onLk f).serving = s.serving ∧
    (s.onLk f).power = s.power ∧ (s.onLk f).cxl = s.cxl ∧ (s.onLk f).i3c = s.i3c ∧ (s.onLk f).i3c2 = s.i3c2 := by
  and_intros <;> rfl

@[simp] theorem State.onHe_eq (f : Tab Engine → Tab Engine) (s : State) : (s.onHe f).he = f s.he := rfl

@[simp] theorem State.onHe_frame (f : Tab Engine → Tab Engine) (s : State) :
    (s.onHe f).pending = s.pending ∧ (s.onHe f).time = s.time ∧ (s.onHe f).free = s.free ∧ (s.onHe f).host = s.host ∧
    (s.onHe f).mem = s.mem ∧ (s.onHe f).poison = s.poison ∧ (s.onHe f).board = s.board ∧
    (s.onHe f).fuseArray = s.fuseArray ∧ (s.onHe f).fuses = s.fuses ∧ (s.onHe f).flash = s.flash ∧
    (s.onHe f).box = s.box ∧ (s.onHe f).boot = s.boot ∧ (s.onHe f).cores = s.cores ∧ (s.onHe f).grid = s.grid ∧
    (s.onHe f).qb = s.qb ∧ (s.onHe f).flasks = s.flasks ∧ (s.onHe f).faults = s.faults ∧
    (s.onHe f).nextFault = s.nextFault ∧ (s.onHe f).claims = s.claims ∧ (s.onHe f).graph = s.graph ∧
    (s.onHe f).mt = s.mt ∧ (s.onHe f).vt = s.vt ∧ (s.onHe f).lk = s.lk ∧ (s.onHe f).hb = s.hb ∧ (s.onHe f).ld = s.ld ∧
    (s.onHe f).slots = s.slots ∧ (s.onHe f).vops = s.vops ∧ (s.onHe f).mc = s.mc ∧ (s.onHe f).net = s.net ∧
    (s.onHe f).fp = s.fp ∧ (s.onHe f).sprue = s.sprue ∧ (s.onHe f).nimra = s.nimra ∧ (s.onHe f).serving = s.serving ∧
    (s.onHe f).power = s.power ∧ (s.onHe f).cxl = s.cxl ∧ (s.onHe f).i3c = s.i3c ∧ (s.onHe f).i3c2 = s.i3c2 := by
  and_intros <;> rfl

@[simp] theorem State.onHb_eq (f : Tab BaseDie → Tab BaseDie) (s : State) : (s.onHb f).hb = f s.hb := rfl

@[simp] theorem State.onHb_frame (f : Tab BaseDie → Tab BaseDie) (s : State) :
    (s.onHb f).pending = s.pending ∧ (s.onHb f).time = s.time ∧ (s.onHb f).free = s.free ∧ (s.onHb f).host = s.host ∧
    (s.onHb f).mem = s.mem ∧ (s.onHb f).poison = s.poison ∧ (s.onHb f).board = s.board ∧
    (s.onHb f).fuseArray = s.fuseArray ∧ (s.onHb f).fuses = s.fuses ∧ (s.onHb f).flash = s.flash ∧
    (s.onHb f).box = s.box ∧ (s.onHb f).boot = s.boot ∧ (s.onHb f).cores = s.cores ∧ (s.onHb f).grid = s.grid ∧
    (s.onHb f).qb = s.qb ∧ (s.onHb f).flasks = s.flasks ∧ (s.onHb f).faults = s.faults ∧
    (s.onHb f).nextFault = s.nextFault ∧ (s.onHb f).claims = s.claims ∧ (s.onHb f).graph = s.graph ∧
    (s.onHb f).mt = s.mt ∧ (s.onHb f).vt = s.vt ∧ (s.onHb f).lk = s.lk ∧ (s.onHb f).he = s.he ∧ (s.onHb f).ld = s.ld ∧
    (s.onHb f).slots = s.slots ∧ (s.onHb f).vops = s.vops ∧ (s.onHb f).mc = s.mc ∧ (s.onHb f).net = s.net ∧
    (s.onHb f).fp = s.fp ∧ (s.onHb f).sprue = s.sprue ∧ (s.onHb f).nimra = s.nimra ∧ (s.onHb f).serving = s.serving ∧
    (s.onHb f).power = s.power ∧ (s.onHb f).cxl = s.cxl ∧ (s.onHb f).i3c = s.i3c ∧ (s.onHb f).i3c2 = s.i3c2 := by
  and_intros <;> rfl

@[simp] theorem State.onLd_eq (f : Tab Ctx → Tab Ctx) (s : State) : (s.onLd f).ld = f s.ld := rfl

@[simp] theorem State.onLd_frame (f : Tab Ctx → Tab Ctx) (s : State) :
    (s.onLd f).pending = s.pending ∧ (s.onLd f).time = s.time ∧ (s.onLd f).free = s.free ∧ (s.onLd f).host = s.host ∧
    (s.onLd f).mem = s.mem ∧ (s.onLd f).poison = s.poison ∧ (s.onLd f).board = s.board ∧
    (s.onLd f).fuseArray = s.fuseArray ∧ (s.onLd f).fuses = s.fuses ∧ (s.onLd f).flash = s.flash ∧
    (s.onLd f).box = s.box ∧ (s.onLd f).boot = s.boot ∧ (s.onLd f).cores = s.cores ∧ (s.onLd f).grid = s.grid ∧
    (s.onLd f).qb = s.qb ∧ (s.onLd f).flasks = s.flasks ∧ (s.onLd f).faults = s.faults ∧
    (s.onLd f).nextFault = s.nextFault ∧ (s.onLd f).claims = s.claims ∧ (s.onLd f).graph = s.graph ∧
    (s.onLd f).mt = s.mt ∧ (s.onLd f).vt = s.vt ∧ (s.onLd f).lk = s.lk ∧ (s.onLd f).he = s.he ∧ (s.onLd f).hb = s.hb ∧
    (s.onLd f).slots = s.slots ∧ (s.onLd f).vops = s.vops ∧ (s.onLd f).mc = s.mc ∧ (s.onLd f).net = s.net ∧
    (s.onLd f).fp = s.fp ∧ (s.onLd f).sprue = s.sprue ∧ (s.onLd f).nimra = s.nimra ∧ (s.onLd f).serving = s.serving ∧
    (s.onLd f).power = s.power ∧ (s.onLd f).cxl = s.cxl ∧ (s.onLd f).i3c = s.i3c ∧ (s.onLd f).i3c2 = s.i3c2 := by
  and_intros <;> rfl

@[simp] theorem State.onSlots_eq (f : Tab (Nat × Nat) → Tab (Nat × Nat)) (s : State) : (s.onSlots f).slots = f s.slots := rfl

@[simp] theorem State.onSlots_frame (f : Tab (Nat × Nat) → Tab (Nat × Nat)) (s : State) :
    (s.onSlots f).pending = s.pending ∧ (s.onSlots f).time = s.time ∧ (s.onSlots f).free = s.free ∧
    (s.onSlots f).host = s.host ∧ (s.onSlots f).mem = s.mem ∧ (s.onSlots f).poison = s.poison ∧
    (s.onSlots f).board = s.board ∧ (s.onSlots f).fuseArray = s.fuseArray ∧ (s.onSlots f).fuses = s.fuses ∧
    (s.onSlots f).flash = s.flash ∧ (s.onSlots f).box = s.box ∧ (s.onSlots f).boot = s.boot ∧
    (s.onSlots f).cores = s.cores ∧ (s.onSlots f).grid = s.grid ∧ (s.onSlots f).qb = s.qb ∧
    (s.onSlots f).flasks = s.flasks ∧ (s.onSlots f).faults = s.faults ∧ (s.onSlots f).nextFault = s.nextFault ∧
    (s.onSlots f).claims = s.claims ∧ (s.onSlots f).graph = s.graph ∧ (s.onSlots f).mt = s.mt ∧
    (s.onSlots f).vt = s.vt ∧ (s.onSlots f).lk = s.lk ∧ (s.onSlots f).he = s.he ∧ (s.onSlots f).hb = s.hb ∧
    (s.onSlots f).ld = s.ld ∧ (s.onSlots f).vops = s.vops ∧ (s.onSlots f).mc = s.mc ∧ (s.onSlots f).net = s.net ∧
    (s.onSlots f).fp = s.fp ∧ (s.onSlots f).sprue = s.sprue ∧ (s.onSlots f).nimra = s.nimra ∧
    (s.onSlots f).serving = s.serving ∧ (s.onSlots f).power = s.power ∧ (s.onSlots f).cxl = s.cxl ∧
    (s.onSlots f).i3c = s.i3c ∧ (s.onSlots f).i3c2 = s.i3c2 := by
  and_intros <;> rfl

@[simp] theorem State.onVops_eq (f : Tab Nat → Tab Nat) (s : State) : (s.onVops f).vops = f s.vops := rfl

@[simp] theorem State.onVops_frame (f : Tab Nat → Tab Nat) (s : State) :
    (s.onVops f).pending = s.pending ∧ (s.onVops f).time = s.time ∧ (s.onVops f).free = s.free ∧
    (s.onVops f).host = s.host ∧ (s.onVops f).mem = s.mem ∧ (s.onVops f).poison = s.poison ∧
    (s.onVops f).board = s.board ∧ (s.onVops f).fuseArray = s.fuseArray ∧ (s.onVops f).fuses = s.fuses ∧
    (s.onVops f).flash = s.flash ∧ (s.onVops f).box = s.box ∧ (s.onVops f).boot = s.boot ∧
    (s.onVops f).cores = s.cores ∧ (s.onVops f).grid = s.grid ∧ (s.onVops f).qb = s.qb ∧
    (s.onVops f).flasks = s.flasks ∧ (s.onVops f).faults = s.faults ∧ (s.onVops f).nextFault = s.nextFault ∧
    (s.onVops f).claims = s.claims ∧ (s.onVops f).graph = s.graph ∧ (s.onVops f).mt = s.mt ∧ (s.onVops f).vt = s.vt ∧
    (s.onVops f).lk = s.lk ∧ (s.onVops f).he = s.he ∧ (s.onVops f).hb = s.hb ∧ (s.onVops f).ld = s.ld ∧
    (s.onVops f).slots = s.slots ∧ (s.onVops f).mc = s.mc ∧ (s.onVops f).net = s.net ∧ (s.onVops f).fp = s.fp ∧
    (s.onVops f).sprue = s.sprue ∧ (s.onVops f).nimra = s.nimra ∧ (s.onVops f).serving = s.serving ∧
    (s.onVops f).power = s.power ∧ (s.onVops f).cxl = s.cxl ∧ (s.onVops f).i3c = s.i3c ∧
    (s.onVops f).i3c2 = s.i3c2 := by
  and_intros <;> rfl

@[simp] theorem State.onMc_eq (f : Tab MemCtl → Tab MemCtl) (s : State) : (s.onMc f).mc = f s.mc := rfl

@[simp] theorem State.onMc_frame (f : Tab MemCtl → Tab MemCtl) (s : State) :
    (s.onMc f).pending = s.pending ∧ (s.onMc f).time = s.time ∧ (s.onMc f).free = s.free ∧ (s.onMc f).host = s.host ∧
    (s.onMc f).mem = s.mem ∧ (s.onMc f).poison = s.poison ∧ (s.onMc f).board = s.board ∧
    (s.onMc f).fuseArray = s.fuseArray ∧ (s.onMc f).fuses = s.fuses ∧ (s.onMc f).flash = s.flash ∧
    (s.onMc f).box = s.box ∧ (s.onMc f).boot = s.boot ∧ (s.onMc f).cores = s.cores ∧ (s.onMc f).grid = s.grid ∧
    (s.onMc f).qb = s.qb ∧ (s.onMc f).flasks = s.flasks ∧ (s.onMc f).faults = s.faults ∧
    (s.onMc f).nextFault = s.nextFault ∧ (s.onMc f).claims = s.claims ∧ (s.onMc f).graph = s.graph ∧
    (s.onMc f).mt = s.mt ∧ (s.onMc f).vt = s.vt ∧ (s.onMc f).lk = s.lk ∧ (s.onMc f).he = s.he ∧ (s.onMc f).hb = s.hb ∧
    (s.onMc f).ld = s.ld ∧ (s.onMc f).slots = s.slots ∧ (s.onMc f).vops = s.vops ∧ (s.onMc f).net = s.net ∧
    (s.onMc f).fp = s.fp ∧ (s.onMc f).sprue = s.sprue ∧ (s.onMc f).nimra = s.nimra ∧ (s.onMc f).serving = s.serving ∧
    (s.onMc f).power = s.power ∧ (s.onMc f).cxl = s.cxl ∧ (s.onMc f).i3c = s.i3c ∧ (s.onMc f).i3c2 = s.i3c2 := by
  and_intros <;> rfl

@[simp] theorem State.onNet_eq (f : Network → Network) (s : State) : (s.onNet f).net = f s.net := rfl

@[simp] theorem State.onNet_frame (f : Network → Network) (s : State) :
    (s.onNet f).pending = s.pending ∧ (s.onNet f).time = s.time ∧ (s.onNet f).free = s.free ∧
    (s.onNet f).host = s.host ∧ (s.onNet f).mem = s.mem ∧ (s.onNet f).poison = s.poison ∧
    (s.onNet f).board = s.board ∧ (s.onNet f).fuseArray = s.fuseArray ∧ (s.onNet f).fuses = s.fuses ∧
    (s.onNet f).flash = s.flash ∧ (s.onNet f).box = s.box ∧ (s.onNet f).boot = s.boot ∧ (s.onNet f).cores = s.cores ∧
    (s.onNet f).grid = s.grid ∧ (s.onNet f).qb = s.qb ∧ (s.onNet f).flasks = s.flasks ∧
    (s.onNet f).faults = s.faults ∧ (s.onNet f).nextFault = s.nextFault ∧ (s.onNet f).claims = s.claims ∧
    (s.onNet f).graph = s.graph ∧ (s.onNet f).mt = s.mt ∧ (s.onNet f).vt = s.vt ∧ (s.onNet f).lk = s.lk ∧
    (s.onNet f).he = s.he ∧ (s.onNet f).hb = s.hb ∧ (s.onNet f).ld = s.ld ∧ (s.onNet f).slots = s.slots ∧
    (s.onNet f).vops = s.vops ∧ (s.onNet f).mc = s.mc ∧ (s.onNet f).fp = s.fp ∧ (s.onNet f).sprue = s.sprue ∧
    (s.onNet f).nimra = s.nimra ∧ (s.onNet f).serving = s.serving ∧ (s.onNet f).power = s.power ∧
    (s.onNet f).cxl = s.cxl ∧ (s.onNet f).i3c = s.i3c ∧ (s.onNet f).i3c2 = s.i3c2 := by
  and_intros <;> rfl

@[simp] theorem State.onFp_eq (f : Tab FPort → Tab FPort) (s : State) : (s.onFp f).fp = f s.fp := rfl

@[simp] theorem State.onFp_frame (f : Tab FPort → Tab FPort) (s : State) :
    (s.onFp f).pending = s.pending ∧ (s.onFp f).time = s.time ∧ (s.onFp f).free = s.free ∧ (s.onFp f).host = s.host ∧
    (s.onFp f).mem = s.mem ∧ (s.onFp f).poison = s.poison ∧ (s.onFp f).board = s.board ∧
    (s.onFp f).fuseArray = s.fuseArray ∧ (s.onFp f).fuses = s.fuses ∧ (s.onFp f).flash = s.flash ∧
    (s.onFp f).box = s.box ∧ (s.onFp f).boot = s.boot ∧ (s.onFp f).cores = s.cores ∧ (s.onFp f).grid = s.grid ∧
    (s.onFp f).qb = s.qb ∧ (s.onFp f).flasks = s.flasks ∧ (s.onFp f).faults = s.faults ∧
    (s.onFp f).nextFault = s.nextFault ∧ (s.onFp f).claims = s.claims ∧ (s.onFp f).graph = s.graph ∧
    (s.onFp f).mt = s.mt ∧ (s.onFp f).vt = s.vt ∧ (s.onFp f).lk = s.lk ∧ (s.onFp f).he = s.he ∧ (s.onFp f).hb = s.hb ∧
    (s.onFp f).ld = s.ld ∧ (s.onFp f).slots = s.slots ∧ (s.onFp f).vops = s.vops ∧ (s.onFp f).mc = s.mc ∧
    (s.onFp f).net = s.net ∧ (s.onFp f).sprue = s.sprue ∧ (s.onFp f).nimra = s.nimra ∧
    (s.onFp f).serving = s.serving ∧ (s.onFp f).power = s.power ∧ (s.onFp f).cxl = s.cxl ∧ (s.onFp f).i3c = s.i3c ∧
    (s.onFp f).i3c2 = s.i3c2 := by
  and_intros <;> rfl

@[simp] theorem State.onSprue_eq (f : Sprue → Sprue) (s : State) : (s.onSprue f).sprue = f s.sprue := rfl

@[simp] theorem State.onSprue_frame (f : Sprue → Sprue) (s : State) :
    (s.onSprue f).pending = s.pending ∧ (s.onSprue f).time = s.time ∧ (s.onSprue f).free = s.free ∧
    (s.onSprue f).host = s.host ∧ (s.onSprue f).mem = s.mem ∧ (s.onSprue f).poison = s.poison ∧
    (s.onSprue f).board = s.board ∧ (s.onSprue f).fuseArray = s.fuseArray ∧ (s.onSprue f).fuses = s.fuses ∧
    (s.onSprue f).flash = s.flash ∧ (s.onSprue f).box = s.box ∧ (s.onSprue f).boot = s.boot ∧
    (s.onSprue f).cores = s.cores ∧ (s.onSprue f).grid = s.grid ∧ (s.onSprue f).qb = s.qb ∧
    (s.onSprue f).flasks = s.flasks ∧ (s.onSprue f).faults = s.faults ∧ (s.onSprue f).nextFault = s.nextFault ∧
    (s.onSprue f).claims = s.claims ∧ (s.onSprue f).graph = s.graph ∧ (s.onSprue f).mt = s.mt ∧
    (s.onSprue f).vt = s.vt ∧ (s.onSprue f).lk = s.lk ∧ (s.onSprue f).he = s.he ∧ (s.onSprue f).hb = s.hb ∧
    (s.onSprue f).ld = s.ld ∧ (s.onSprue f).slots = s.slots ∧ (s.onSprue f).vops = s.vops ∧ (s.onSprue f).mc = s.mc ∧
    (s.onSprue f).net = s.net ∧ (s.onSprue f).fp = s.fp ∧ (s.onSprue f).nimra = s.nimra ∧
    (s.onSprue f).serving = s.serving ∧ (s.onSprue f).power = s.power ∧ (s.onSprue f).cxl = s.cxl ∧
    (s.onSprue f).i3c = s.i3c ∧ (s.onSprue f).i3c2 = s.i3c2 := by
  and_intros <;> rfl

@[simp] theorem State.onNimra_eq (f : Nimra → Nimra) (s : State) : (s.onNimra f).nimra = f s.nimra := rfl

@[simp] theorem State.onNimra_frame (f : Nimra → Nimra) (s : State) :
    (s.onNimra f).pending = s.pending ∧ (s.onNimra f).time = s.time ∧ (s.onNimra f).free = s.free ∧
    (s.onNimra f).host = s.host ∧ (s.onNimra f).mem = s.mem ∧ (s.onNimra f).poison = s.poison ∧
    (s.onNimra f).board = s.board ∧ (s.onNimra f).fuseArray = s.fuseArray ∧ (s.onNimra f).fuses = s.fuses ∧
    (s.onNimra f).flash = s.flash ∧ (s.onNimra f).box = s.box ∧ (s.onNimra f).boot = s.boot ∧
    (s.onNimra f).cores = s.cores ∧ (s.onNimra f).grid = s.grid ∧ (s.onNimra f).qb = s.qb ∧
    (s.onNimra f).flasks = s.flasks ∧ (s.onNimra f).faults = s.faults ∧ (s.onNimra f).nextFault = s.nextFault ∧
    (s.onNimra f).claims = s.claims ∧ (s.onNimra f).graph = s.graph ∧ (s.onNimra f).mt = s.mt ∧
    (s.onNimra f).vt = s.vt ∧ (s.onNimra f).lk = s.lk ∧ (s.onNimra f).he = s.he ∧ (s.onNimra f).hb = s.hb ∧
    (s.onNimra f).ld = s.ld ∧ (s.onNimra f).slots = s.slots ∧ (s.onNimra f).vops = s.vops ∧ (s.onNimra f).mc = s.mc ∧
    (s.onNimra f).net = s.net ∧ (s.onNimra f).fp = s.fp ∧ (s.onNimra f).sprue = s.sprue ∧
    (s.onNimra f).serving = s.serving ∧ (s.onNimra f).power = s.power ∧ (s.onNimra f).cxl = s.cxl ∧
    (s.onNimra f).i3c = s.i3c ∧ (s.onNimra f).i3c2 = s.i3c2 := by
  and_intros <;> rfl

@[simp] theorem State.onServing_eq (f : Serving → Serving) (s : State) : (s.onServing f).serving = f s.serving := rfl

@[simp] theorem State.onServing_frame (f : Serving → Serving) (s : State) :
    (s.onServing f).pending = s.pending ∧ (s.onServing f).time = s.time ∧ (s.onServing f).free = s.free ∧
    (s.onServing f).host = s.host ∧ (s.onServing f).mem = s.mem ∧ (s.onServing f).poison = s.poison ∧
    (s.onServing f).board = s.board ∧ (s.onServing f).fuseArray = s.fuseArray ∧ (s.onServing f).fuses = s.fuses ∧
    (s.onServing f).flash = s.flash ∧ (s.onServing f).box = s.box ∧ (s.onServing f).boot = s.boot ∧
    (s.onServing f).cores = s.cores ∧ (s.onServing f).grid = s.grid ∧ (s.onServing f).qb = s.qb ∧
    (s.onServing f).flasks = s.flasks ∧ (s.onServing f).faults = s.faults ∧ (s.onServing f).nextFault = s.nextFault ∧
    (s.onServing f).claims = s.claims ∧ (s.onServing f).graph = s.graph ∧ (s.onServing f).mt = s.mt ∧
    (s.onServing f).vt = s.vt ∧ (s.onServing f).lk = s.lk ∧ (s.onServing f).he = s.he ∧ (s.onServing f).hb = s.hb ∧
    (s.onServing f).ld = s.ld ∧ (s.onServing f).slots = s.slots ∧ (s.onServing f).vops = s.vops ∧
    (s.onServing f).mc = s.mc ∧ (s.onServing f).net = s.net ∧ (s.onServing f).fp = s.fp ∧
    (s.onServing f).sprue = s.sprue ∧ (s.onServing f).nimra = s.nimra ∧ (s.onServing f).power = s.power ∧
    (s.onServing f).cxl = s.cxl ∧ (s.onServing f).i3c = s.i3c ∧ (s.onServing f).i3c2 = s.i3c2 := by
  and_intros <;> rfl

@[simp] theorem State.onPower_eq (f : Power → Power) (s : State) : (s.onPower f).power = f s.power := rfl

@[simp] theorem State.onPower_frame (f : Power → Power) (s : State) :
    (s.onPower f).pending = s.pending ∧ (s.onPower f).time = s.time ∧ (s.onPower f).free = s.free ∧
    (s.onPower f).host = s.host ∧ (s.onPower f).mem = s.mem ∧ (s.onPower f).poison = s.poison ∧
    (s.onPower f).board = s.board ∧ (s.onPower f).fuseArray = s.fuseArray ∧ (s.onPower f).fuses = s.fuses ∧
    (s.onPower f).flash = s.flash ∧ (s.onPower f).box = s.box ∧ (s.onPower f).boot = s.boot ∧
    (s.onPower f).cores = s.cores ∧ (s.onPower f).grid = s.grid ∧ (s.onPower f).qb = s.qb ∧
    (s.onPower f).flasks = s.flasks ∧ (s.onPower f).faults = s.faults ∧ (s.onPower f).nextFault = s.nextFault ∧
    (s.onPower f).claims = s.claims ∧ (s.onPower f).graph = s.graph ∧ (s.onPower f).mt = s.mt ∧
    (s.onPower f).vt = s.vt ∧ (s.onPower f).lk = s.lk ∧ (s.onPower f).he = s.he ∧ (s.onPower f).hb = s.hb ∧
    (s.onPower f).ld = s.ld ∧ (s.onPower f).slots = s.slots ∧ (s.onPower f).vops = s.vops ∧ (s.onPower f).mc = s.mc ∧
    (s.onPower f).net = s.net ∧ (s.onPower f).fp = s.fp ∧ (s.onPower f).sprue = s.sprue ∧
    (s.onPower f).nimra = s.nimra ∧ (s.onPower f).serving = s.serving ∧ (s.onPower f).cxl = s.cxl ∧
    (s.onPower f).i3c = s.i3c ∧ (s.onPower f).i3c2 = s.i3c2 := by
  and_intros <;> rfl

@[simp] theorem State.onCxl_eq (f : Cxl → Cxl) (s : State) : (s.onCxl f).cxl = f s.cxl := rfl

@[simp] theorem State.onCxl_frame (f : Cxl → Cxl) (s : State) :
    (s.onCxl f).pending = s.pending ∧ (s.onCxl f).time = s.time ∧ (s.onCxl f).free = s.free ∧
    (s.onCxl f).host = s.host ∧ (s.onCxl f).mem = s.mem ∧ (s.onCxl f).poison = s.poison ∧
    (s.onCxl f).board = s.board ∧ (s.onCxl f).fuseArray = s.fuseArray ∧ (s.onCxl f).fuses = s.fuses ∧
    (s.onCxl f).flash = s.flash ∧ (s.onCxl f).box = s.box ∧ (s.onCxl f).boot = s.boot ∧ (s.onCxl f).cores = s.cores ∧
    (s.onCxl f).grid = s.grid ∧ (s.onCxl f).qb = s.qb ∧ (s.onCxl f).flasks = s.flasks ∧
    (s.onCxl f).faults = s.faults ∧ (s.onCxl f).nextFault = s.nextFault ∧ (s.onCxl f).claims = s.claims ∧
    (s.onCxl f).graph = s.graph ∧ (s.onCxl f).mt = s.mt ∧ (s.onCxl f).vt = s.vt ∧ (s.onCxl f).lk = s.lk ∧
    (s.onCxl f).he = s.he ∧ (s.onCxl f).hb = s.hb ∧ (s.onCxl f).ld = s.ld ∧ (s.onCxl f).slots = s.slots ∧
    (s.onCxl f).vops = s.vops ∧ (s.onCxl f).mc = s.mc ∧ (s.onCxl f).net = s.net ∧ (s.onCxl f).fp = s.fp ∧
    (s.onCxl f).sprue = s.sprue ∧ (s.onCxl f).nimra = s.nimra ∧ (s.onCxl f).serving = s.serving ∧
    (s.onCxl f).power = s.power ∧ (s.onCxl f).i3c = s.i3c ∧ (s.onCxl f).i3c2 = s.i3c2 := by
  and_intros <;> rfl

@[simp] theorem State.onI3c_eq (f : I3cTgt → I3cTgt) (s : State) : (s.onI3c f).i3c = f s.i3c := rfl

@[simp] theorem State.onI3c_frame (f : I3cTgt → I3cTgt) (s : State) :
    (s.onI3c f).pending = s.pending ∧ (s.onI3c f).time = s.time ∧ (s.onI3c f).free = s.free ∧
    (s.onI3c f).host = s.host ∧ (s.onI3c f).mem = s.mem ∧ (s.onI3c f).poison = s.poison ∧
    (s.onI3c f).board = s.board ∧ (s.onI3c f).fuseArray = s.fuseArray ∧ (s.onI3c f).fuses = s.fuses ∧
    (s.onI3c f).flash = s.flash ∧ (s.onI3c f).box = s.box ∧ (s.onI3c f).boot = s.boot ∧ (s.onI3c f).cores = s.cores ∧
    (s.onI3c f).grid = s.grid ∧ (s.onI3c f).qb = s.qb ∧ (s.onI3c f).flasks = s.flasks ∧
    (s.onI3c f).faults = s.faults ∧ (s.onI3c f).nextFault = s.nextFault ∧ (s.onI3c f).claims = s.claims ∧
    (s.onI3c f).graph = s.graph ∧ (s.onI3c f).mt = s.mt ∧ (s.onI3c f).vt = s.vt ∧ (s.onI3c f).lk = s.lk ∧
    (s.onI3c f).he = s.he ∧ (s.onI3c f).hb = s.hb ∧ (s.onI3c f).ld = s.ld ∧ (s.onI3c f).slots = s.slots ∧
    (s.onI3c f).vops = s.vops ∧ (s.onI3c f).mc = s.mc ∧ (s.onI3c f).net = s.net ∧ (s.onI3c f).fp = s.fp ∧
    (s.onI3c f).sprue = s.sprue ∧ (s.onI3c f).nimra = s.nimra ∧ (s.onI3c f).serving = s.serving ∧
    (s.onI3c f).power = s.power ∧ (s.onI3c f).cxl = s.cxl ∧ (s.onI3c f).i3c2 = s.i3c2 := by
  and_intros <;> rfl

@[simp] theorem State.onI3c2_eq (f : I3cTgt → I3cTgt) (s : State) : (s.onI3c2 f).i3c2 = f s.i3c2 := rfl

@[simp] theorem State.onI3c2_frame (f : I3cTgt → I3cTgt) (s : State) :
    (s.onI3c2 f).pending = s.pending ∧ (s.onI3c2 f).time = s.time ∧ (s.onI3c2 f).free = s.free ∧
    (s.onI3c2 f).host = s.host ∧ (s.onI3c2 f).mem = s.mem ∧ (s.onI3c2 f).poison = s.poison ∧
    (s.onI3c2 f).board = s.board ∧ (s.onI3c2 f).fuseArray = s.fuseArray ∧ (s.onI3c2 f).fuses = s.fuses ∧
    (s.onI3c2 f).flash = s.flash ∧ (s.onI3c2 f).box = s.box ∧ (s.onI3c2 f).boot = s.boot ∧
    (s.onI3c2 f).cores = s.cores ∧ (s.onI3c2 f).grid = s.grid ∧ (s.onI3c2 f).qb = s.qb ∧
    (s.onI3c2 f).flasks = s.flasks ∧ (s.onI3c2 f).faults = s.faults ∧ (s.onI3c2 f).nextFault = s.nextFault ∧
    (s.onI3c2 f).claims = s.claims ∧ (s.onI3c2 f).graph = s.graph ∧ (s.onI3c2 f).mt = s.mt ∧ (s.onI3c2 f).vt = s.vt ∧
    (s.onI3c2 f).lk = s.lk ∧ (s.onI3c2 f).he = s.he ∧ (s.onI3c2 f).hb = s.hb ∧ (s.onI3c2 f).ld = s.ld ∧
    (s.onI3c2 f).slots = s.slots ∧ (s.onI3c2 f).vops = s.vops ∧ (s.onI3c2 f).mc = s.mc ∧ (s.onI3c2 f).net = s.net ∧
    (s.onI3c2 f).fp = s.fp ∧ (s.onI3c2 f).sprue = s.sprue ∧ (s.onI3c2 f).nimra = s.nimra ∧
    (s.onI3c2 f).serving = s.serving ∧ (s.onI3c2 f).power = s.power ∧ (s.onI3c2 f).cxl = s.cxl ∧
    (s.onI3c2 f).i3c = s.i3c := by
  and_intros <;> rfl

end Sys2Proof.Machine
end

