-- ==== Sys2Proof/Laws/Kept.lean ====
section
/-!
SUPPORT. What every meaning keeps, as one relation between the state before and the state after, so that one lemma for each
operation carries every invariant of the machine at once.
-/

set_option linter.unusedTactic false
set_option linter.unreachableTactic false
set_option linter.unusedSimpArgs false
set_option linter.unusedVariables false

namespace Sys2Proof.Machine

/-- What no command breaks, from state s to state t. -/
structure Kept (s t : State) : Prop where
  pending : t.pending = s.pending
  mem : Tab.canon memDefault s.mem → Tab.canon memDefault t.mem
  host : Tab.canon hostDefault s.host → Tab.canon hostDefault t.host
  mram : Tab.canon hostDefault s.box.mram → Tab.canon hostDefault t.box.mram
  fuses : Fuses.Le s.fuseArray t.fuseArray
  defects : s.box.defects <+: t.box.defects
  bound : s.box.defects.length ≤ 32768 → t.box.defects.length ≤ 32768
  goldenFw : t.flash.goldenFw = s.flash.goldenFw
  goldenShell : t.flash.goldenShell = s.flash.goldenShell

theorem Fuses.Le.refl (a : Fuses) : Fuses.Le a a := by constructor <;> simp

theorem Fuses.Le.trans {a b c : Fuses} (h : Fuses.Le a b) (k : Fuses.Le b c) : Fuses.Le a c := by
  have t : ∀ {n : Nat} {x y z : BitVec n}, x &&& y = x → y &&& z = y → x &&& z = x := by
    intro n x y z h k; rw [← h, BitVec.and_assoc, k]
  constructor
  · exact t h.aesKey k.aesKey
  · exact fun e => k.aesKeySet (h.aesKeySet e)
  · exact fun i => t (h.pkHash i) (k.pkHash i)
  · exact t h.pkRevoked k.pkRevoked
  · exact fun e => k.encRequired (h.encRequired e)
  · exact fun e => k.batkeyDisable (h.batkeyDisable e)
  · exact t h.flashPrimary k.flashPrimary
  · exact t h.flashGolden k.flashGolden
  · exact t h.fwSvn k.fwSvn
  · exact fun e => k.provLock (h.provLock e)
  · exact k.serial.trans h.serial
  · exact k.mfrId.trans h.mfrId
  · exact k.deviceSecret.trans h.deviceSecret

theorem Kept.refl (s : State) : Kept s s :=
  ⟨rfl, id, id, id, .refl _, List.prefix_refl _, id, rfl, rfl⟩

theorem Kept.trans {s t u : State} (h : Kept s t) (k : Kept t u) : Kept s u :=
  ⟨k.pending.trans h.pending, k.mem ∘ h.mem, k.host ∘ h.host, k.mram ∘ h.mram, h.fuses.trans k.fuses,
   h.defects.trans k.defects, k.bound ∘ h.bound, k.goldenFw.trans h.goldenFw, k.goldenShell.trans h.goldenShell⟩

/-- A state equal in what Kept speaks of. -/
theorem Kept.of_eq {b s t : State} (h : Kept b s) (e : t.pending = s.pending ∧ t.mem = s.mem ∧ t.host = s.host ∧
    t.box = s.box ∧ t.fuseArray = s.fuseArray ∧ t.flash = s.flash) : Kept b t := by
  obtain ⟨e1, e2, e3, e4, e5, e6⟩ := e
  obtain ⟨h1, h2, h3, h4, h5, h6, h7, h8, h9⟩ := h
  constructor <;> simp only [e1, e2, e3, e4, e5, e6] <;> assumption

/-- A fold of an operation that keeps. -/
theorem Kept.foldl {b : State} {α : Type} (f : State → α → State) (l : List α) {s : State} (h : Kept b s)
    (hf : ∀ t x, Kept b t → Kept b (f t x)) : Kept b (l.foldl f s) := by
  induction l generalizing s with
  | nil => exact h
  | cons x l ih => exact ih (hf s x h)

/-- A fold that carries something beside the state. -/
theorem Kept.foldl_fst {b : State} {α β : Type} (f : State × β → α → State × β) (l : List α) {x : State × β} (h : Kept b x.1)
    (hf : ∀ y a, Kept b y.1 → Kept b (f y a).1) : Kept b (l.foldl f x).1 := by
  induction l generalizing x with
  | nil => exact h
  | cons a l ih => exact ih (hf x a h)

/-- A fold that carries something before the state. -/
theorem Kept.foldl_snd {b : State} {α β : Type} (f : β × State → α → β × State) (l : List α) {x : β × State} (h : Kept b x.2)
    (hf : ∀ y a, Kept b y.2 → Kept b (f y a).2) : Kept b (l.foldl f x).2 := by
  induction l generalizing x with
  | nil => exact h
  | cons a l ih => exact ih (hf x a h)

/-- A local definition that keeps, put in front of what follows. -/
theorem Kept.cut {b : State} (x : State) {P : Prop} (h : Kept b x) (k : Kept b x → P) : P := k h

theorem Kept.getD {b d : State} {o : Option State} (h : ∀ t, o = some t → Kept b t) (k : Kept b d) : Kept b (o.getD d) := by
  cases o with
  | none => exact k
  | some t => exact h t rfl

theorem kept_onFlash {b s : State} (f : Flash → Flash) (h : Kept b s) (h1 : (f s.flash).goldenFw = s.flash.goldenFw)
    (h2 : (f s.flash).goldenShell = s.flash.goldenShell) : Kept b (s.onFlash f) :=
  h.trans ⟨rfl, id, id, id, .refl _, List.prefix_refl _, id, h1, h2⟩

/-- What a meaning answers keeps what no command breaks. -/
def OutKept (b : State) (o : Out) : Prop := ∀ t, o = .next t → Kept b t

theorem OutKept.done {b s : State} (h : Kept b s) : OutKept b (done s) := fun t e => by cases e; exact h

theorem kept_onTime {b s : State} (f : Nat → Nat) (h : Kept b s) : Kept b (s.onTime f) := h.of_eq ⟨rfl, rfl, rfl, rfl, rfl, rfl⟩

theorem kept_onFree {b s : State} (f : Nat → Nat) (h : Kept b s) : Kept b (s.onFree f) := h.of_eq ⟨rfl, rfl, rfl, rfl, rfl, rfl⟩

theorem kept_onPoison {b s : State} (f : List Nat → List Nat) (h : Kept b s) : Kept b (s.onPoison f) := h.of_eq ⟨rfl, rfl, rfl, rfl, rfl, rfl⟩

theorem kept_onBoard {b s : State} (f : Board → Board) (h : Kept b s) : Kept b (s.onBoard f) := h.of_eq ⟨rfl, rfl, rfl, rfl, rfl, rfl⟩

theorem kept_onFuses {b s : State} (f : Fuses → Fuses) (h : Kept b s) : Kept b (s.onFuses f) := h.of_eq ⟨rfl, rfl, rfl, rfl, rfl, rfl⟩

theorem kept_onBoot {b s : State} (f : Boot → Boot) (h : Kept b s) : Kept b (s.onBoot f) := h.of_eq ⟨rfl, rfl, rfl, rfl, rfl, rfl⟩

theorem kept_onCores {b s : State} (f : Tab Core → Tab Core) (h : Kept b s) : Kept b (s.onCores f) := h.of_eq ⟨rfl, rfl, rfl, rfl, rfl, rfl⟩

theorem kept_onGrid {b s : State} (f : Grid → Grid) (h : Kept b s) : Kept b (s.onGrid f) := h.of_eq ⟨rfl, rfl, rfl, rfl, rfl, rfl⟩

theorem kept_onQb {b s : State} (f : Quibor → Quibor) (h : Kept b s) : Kept b (s.onQb f) := h.of_eq ⟨rfl, rfl, rfl, rfl, rfl, rfl⟩

theorem kept_onFlasks {b s : State} (f : Tab Flask → Tab Flask) (h : Kept b s) : Kept b (s.onFlasks f) := h.of_eq ⟨rfl, rfl, rfl, rfl, rfl, rfl⟩

theorem kept_onFaults {b s : State} (f : List PFault → List PFault) (h : Kept b s) : Kept b (s.onFaults f) := h.of_eq ⟨rfl, rfl, rfl, rfl, rfl, rfl⟩

theorem kept_onNextFault {b s : State} (f : Nat → Nat) (h : Kept b s) : Kept b (s.onNextFault f) := h.of_eq ⟨rfl, rfl, rfl, rfl, rfl, rfl⟩

theorem kept_onClaims {b s : State} (f : Tab Claim → Tab Claim) (h : Kept b s) : Kept b (s.onClaims f) := h.of_eq ⟨rfl, rfl, rfl, rfl, rfl, rfl⟩

theorem kept_onGraph {b s : State} (f : Graph → Graph) (h : Kept b s) : Kept b (s.onGraph f) := h.of_eq ⟨rfl, rfl, rfl, rfl, rfl, rfl⟩

theorem kept_onMt {b s : State} (f : Tab MatrixTile → Tab MatrixTile) (h : Kept b s) : Kept b (s.onMt f) := h.of_eq ⟨rfl, rfl, rfl, rfl, rfl, rfl⟩

theorem kept_onVt {b s : State} (f : Tab VectorTile → Tab VectorTile) (h : Kept b s) : Kept b (s.onVt f) := h.of_eq ⟨rfl, rfl, rfl, rfl, rfl, rfl⟩

theorem kept_onLk {b s : State} (f : Tab UnitSt → Tab UnitSt) (h : Kept b s) : Kept b (s.onLk f) := h.of_eq ⟨rfl, rfl, rfl, rfl, rfl, rfl⟩

theorem kept_onHe {b s : State} (f : Tab Engine → Tab Engine) (h : Kept b s) : Kept b (s.onHe f) := h.of_eq ⟨rfl, rfl, rfl, rfl, rfl, rfl⟩

theorem kept_onHb {b s : State} (f : Tab BaseDie → Tab BaseDie) (h : Kept b s) : Kept b (s.onHb f) := h.of_eq ⟨rfl, rfl, rfl, rfl, rfl, rfl⟩

theorem kept_onLd {b s : State} (f : Tab Ctx → Tab Ctx) (h : Kept b s) : Kept b (s.onLd f) := h.of_eq ⟨rfl, rfl, rfl, rfl, rfl, rfl⟩

theorem kept_onSlots {b s : State} (f : Tab (Nat × Nat) → Tab (Nat × Nat)) (h : Kept b s) : Kept b (s.onSlots f) := h.of_eq ⟨rfl, rfl, rfl, rfl, rfl, rfl⟩

theorem kept_onVops {b s : State} (f : Tab Nat → Tab Nat) (h : Kept b s) : Kept b (s.onVops f) := h.of_eq ⟨rfl, rfl, rfl, rfl, rfl, rfl⟩

theorem kept_onMc {b s : State} (f : Tab MemCtl → Tab MemCtl) (h : Kept b s) : Kept b (s.onMc f) := h.of_eq ⟨rfl, rfl, rfl, rfl, rfl, rfl⟩

theorem kept_onNet {b s : State} (f : Network → Network) (h : Kept b s) : Kept b (s.onNet f) := h.of_eq ⟨rfl, rfl, rfl, rfl, rfl, rfl⟩

theorem kept_onFp {b s : State} (f : Tab FPort → Tab FPort) (h : Kept b s) : Kept b (s.onFp f) := h.of_eq ⟨rfl, rfl, rfl, rfl, rfl, rfl⟩

theorem kept_onSprue {b s : State} (f : Sprue → Sprue) (h : Kept b s) : Kept b (s.onSprue f) := h.of_eq ⟨rfl, rfl, rfl, rfl, rfl, rfl⟩

theorem kept_onNimra {b s : State} (f : Nimra → Nimra) (h : Kept b s) : Kept b (s.onNimra f) := h.of_eq ⟨rfl, rfl, rfl, rfl, rfl, rfl⟩

theorem kept_onServing {b s : State} (f : Serving → Serving) (h : Kept b s) : Kept b (s.onServing f) := h.of_eq ⟨rfl, rfl, rfl, rfl, rfl, rfl⟩

theorem kept_onPower {b s : State} (f : Power → Power) (h : Kept b s) : Kept b (s.onPower f) := h.of_eq ⟨rfl, rfl, rfl, rfl, rfl, rfl⟩

theorem kept_onCxl {b s : State} (f : Cxl → Cxl) (h : Kept b s) : Kept b (s.onCxl f) := h.of_eq ⟨rfl, rfl, rfl, rfl, rfl, rfl⟩

theorem kept_onI3c {b s : State} (f : I3cTgt → I3cTgt) (h : Kept b s) : Kept b (s.onI3c f) := h.of_eq ⟨rfl, rfl, rfl, rfl, rfl, rfl⟩

theorem kept_onI3c2 {b s : State} (f : I3cTgt → I3cTgt) (h : Kept b s) : Kept b (s.onI3c2 f) := h.of_eq ⟨rfl, rfl, rfl, rfl, rfl, rfl⟩

end Sys2Proof.Machine
end

