-- ==== Sys2Proof/Laws/KeptOps.lean ====
section
/-!
SUPPORT. What the operations of Machine/Ops.lean keep.
-/

namespace Sys2Proof.Machine

theorem kept_after {σ : State} {s : State} (ns : Nat) (hκ : Kept σ s) :
    Kept σ (State.after s ns) := by
  unfold State.after
  repeat' (first
    | with_reducible assumption
    | with_reducible intro _
    | with_reducible apply kept_onTime)

theorem kept_until {σ : State} {s : State} (t : Nat) (hκ : Kept σ s) :
    Kept σ (State.until s t) := by
  unfold State.until
  repeat' (first
    | with_reducible assumption
    | with_reducible intro _
    | with_reducible apply kept_onTime)

theorem kept_draw {σ : State} {s : State} (hκ : Kept σ s) :
    Kept σ (State.draw s).2 := by
  unfold State.draw
  repeat' (first
    | with_reducible assumption
    | with_reducible intro _
    | with_reducible apply kept_onFree)

theorem kept_draw_eq {σ : State} {s : State} {ρ τ} (hκ : Kept σ s) (e : State.draw s = (ρ, τ)) : Kept σ τ := by
  have := kept_draw  (hκ := hκ) 
  rw [e] at this; exact this

theorem kept_choose {σ : State} {α : Type} {s : State} (l : List α) (hκ : Kept σ s) :
    Kept σ (State.choose s l).2 := by
  unfold State.choose
  repeat' (first
    | with_reducible assumption
    | with_reducible intro _
    | with_reducible apply kept_draw)

theorem kept_choose_eq {σ : State} {α : Type} {s : State} (l : List α) {ρ τ} (hκ : Kept σ s) (e : State.choose s l = (ρ, τ)) : Kept σ τ := by
  have := kept_choose (l := l) (hκ := hκ) 
  rw [e] at this; exact this

theorem kept_drawBytes {σ : State} {s : State} (n : Nat) (hκ : Kept σ s) :
    Kept σ (State.drawBytes s n).2 := by
  unfold State.drawBytes
  repeat' (first
    | with_reducible assumption
    | with_reducible intro _
    | with_reducible apply kept_onFree)

theorem kept_drawBytes_eq {σ : State} {s : State} (n : Nat) {ρ τ} (hκ : Kept σ s) (e : State.drawBytes s n = (ρ, τ)) : Kept σ τ := by
  have := kept_drawBytes (n := n) (hκ := hκ) 
  rw [e] at this; exact this

theorem kept_onMem {b s : State} (f : Tab Byte → Tab Byte) (h : Kept b s)
    (hf : ∀ t, Tab.canon memDefault t → Tab.canon memDefault (f t)) : Kept b (s.onMem f) :=
  h.trans ⟨rfl, hf _, id, id, .refl _, List.prefix_refl _, id, rfl, rfl⟩

theorem kept_devWrite {b : State} {s : State} (a : Nat) (bs : List Byte) (h : Kept b s) : Kept b (s.devWrite a bs) := by
  unfold State.devWrite
  split
  · exact h
  · exact kept_onCxl _ (kept_onPoison _ (kept_onMem _ h (fun t ht => writeTab_canon _ _ ht)))

theorem kept_devFill {σ : State} {s : State} (a n : Nat) (pat : List Byte) (hκ : Kept σ s) :
    Kept σ (State.devFill s a n pat) := by
  unfold State.devFill
  repeat' (first
    | with_reducible assumption
    | with_reducible intro _
    | with_reducible apply kept_devWrite)

theorem kept_stow {σ : State} {s : State} (l : Nat) (bs : List Byte) (poison : Bool) (hκ : Kept σ s) :
    Kept σ (State.stow s l bs poison) :=
  kept_onPoison _ (kept_onMem _ hκ (fun _ ht => writeTab_canon _ _ ht))

theorem kept_poisonLine {σ : State} {s : State} (l : Nat) (hκ : Kept σ s) :
    Kept σ (State.poisonLine s l) := by
  unfold State.poisonLine
  repeat' (first
    | with_reducible assumption
    | with_reducible intro _
    | with_reducible apply kept_onPoison)

theorem kept_hostWrite {b : State} {s : State} (a : Nat) (bs : List Byte) (h : Kept b s) : Kept b (s.hostWrite a bs) :=
  h.trans ⟨rfl, id, fun k => writeTab_canon a bs k, id, .refl _, List.prefix_refl _, id, rfl, rfl⟩

theorem kept_onCtl {σ : State} {s : State} (k : Nat) (f : MemCtl → MemCtl) (hκ : Kept σ s) :
    Kept σ (State.onCtl s k f) := by
  unfold State.onCtl
  repeat' (first
    | with_reducible assumption
    | with_reducible intro _
    | with_reducible apply kept_onMc)

theorem kept_countPoison {σ : State} {s : State} (a n : Nat) (hκ : Kept σ s) :
    Kept σ (State.countPoison s a n) := by
  unfold State.countPoison
  repeat' (first
    | with_reducible assumption
    | with_reducible intro _
    | with_reducible apply kept_onCtl
    | with_reducible apply Kept.foldl
    | dsimp -zeta -letToHave only
    | split)

theorem kept_blame {σ : State} {s : State} (flask va n : Nat) (st : Stat) (hκ : Kept σ s) :
    Kept σ (State.blame s flask va n st) := by
  unfold State.blame
  repeat' (first
    | with_reducible assumption
    | with_reducible intro _
    | with_reducible apply kept_countPoison
    | with_reducible apply Kept.foldl
    | with_reducible apply Kept.foldl_fst
    | dsimp -zeta -letToHave only
    | split)

theorem kept_blameFirst {σ : State} {s : State} (flask : Nat) (l : List (Nat × Nat)) (st : Stat) (hκ : Kept σ s) :
    Kept σ (State.blameFirst s flask l st) := by
  unfold State.blameFirst
  repeat' (first
    | with_reducible assumption
    | with_reducible intro _
    | with_reducible apply kept_blame
    | dsimp -zeta -letToHave only
    | split)

theorem kept_flaskWrite {σ : State} {s : State} (flask va : Nat) (bs : List Byte) (hκ : Kept σ s) :
    Kept σ (State.flaskWrite s flask va bs) := by
  unfold State.flaskWrite
  repeat' (first
    | with_reducible assumption
    | with_reducible intro _
    | with_reducible apply kept_devWrite
    | with_reducible apply kept_hostWrite
    | with_reducible apply Kept.foldl
    | (extract_lets +onlyGivenNames x; refine Kept.cut (b := σ) x ?_ (fun hx => ?_); (on_goal 1 => unfold x; clear x); (on_goal 2 => revert hx; generalize x = y; clear x; intro hx))
    | (extract_lets +onlyGivenNames x; subst x)
    | with_reducible apply Kept.foldl_fst
    | dsimp -zeta -letToHave only
    | split)

theorem kept_tryWrite {σ : State} {s : State} (flask va : Nat) (bs : List Byte) (hκ : Kept σ s) :
    Kept σ (State.tryWrite s flask va bs).2 := by
  unfold State.tryWrite
  repeat' (first
    | with_reducible assumption
    | with_reducible intro _
    | with_reducible apply kept_flaskWrite
    | dsimp -zeta -letToHave only
    | split)

theorem kept_tryWrite_eq {σ : State} {s : State} (flask va : Nat) (bs : List Byte) {ρ τ} (hκ : Kept σ s) (e : State.tryWrite s flask va bs = (ρ, τ)) : Kept σ τ := by
  have := kept_tryWrite (flask := flask) (va := va) (bs := bs) (hκ := hκ) 
  rw [e] at this; exact this

theorem kept_tryPatch {σ : State} {s : State} (flask va : Nat) (bs : List Byte) (hκ : Kept σ s) :
    Kept σ (State.tryPatch s flask va bs).2 := by
  unfold State.tryPatch
  repeat' (first
    | with_reducible assumption
    | with_reducible intro _
    | with_reducible apply kept_blame
    | with_reducible apply kept_tryWrite
    | refine kept_tryWrite_eq (e := by with_reducible assumption) (hκ := ?_)
    | (extract_lets +onlyGivenNames x; refine Kept.cut (b := σ) x ?_ (fun hx => ?_); (on_goal 1 => unfold x; clear x); (on_goal 2 => revert hx; generalize x = y; clear x; intro hx))
    | (extract_lets +onlyGivenNames x; subst x)
    | dsimp -zeta -letToHave only
    | split)

theorem kept_tryPatch_eq {σ : State} {s : State} (flask va : Nat) (bs : List Byte) {ρ τ} (hκ : Kept σ s) (e : State.tryPatch s flask va bs = (ρ, τ)) : Kept σ τ := by
  have := kept_tryPatch (flask := flask) (va := va) (bs := bs) (hκ := hκ) 
  rw [e] at this; exact this

theorem kept_pageFault {σ : State} {s : State} (flask va : Nat) (who : Waiter) (patience : Nat) (hκ : Kept σ s) :
    Kept σ (State.pageFault s flask va who patience) := by
  unfold State.pageFault
  repeat' (first
    | with_reducible assumption
    | with_reducible intro _
    | with_reducible apply kept_onFaults
    | with_reducible apply kept_onNextFault)

theorem kept_dropFaults {σ : State} {s : State} (gone : PFault → Bool) (hκ : Kept σ s) :
    Kept σ (State.dropFaults s gone) := by
  unfold State.dropFaults
  repeat' (first
    | with_reducible assumption
    | with_reducible intro _
    | with_reducible apply kept_onFaults)

theorem kept_onBox {b s : State} (f : BlackBox → BlackBox) (h : Kept b s) (hd : (f s.box).defects = s.box.defects)
    (hm : Tab.canon hostDefault s.box.mram → Tab.canon hostDefault (f s.box).mram) : Kept b (s.onBox f) := by
  refine h.trans ⟨rfl, id, id, hm, .refl _, ?_, ?_, rfl, rfl⟩
  · show s.box.defects <+: (f s.box).defects; rw [hd]
  · show _ → (f s.box).defects.length ≤ _; rw [hd]; exact id

theorem BlackBox.putCtl_defects (x : BlackBox) (c : BbControl) : (x.putCtl c).defects = x.defects := rfl

theorem BlackBox.putCtl_canon (x : BlackBox) (c : BbControl) (h : Tab.canon hostDefault x.mram) :
    Tab.canon hostDefault (x.putCtl c).mram := writeTab_canon _ _ h

theorem BlackBox.updCtl_defects (x : BlackBox) (f : BbControl → BbControl) : (x.updCtl f).defects = x.defects := by
  unfold BlackBox.updCtl; split <;> rfl

theorem BlackBox.updCtl_canon (x : BlackBox) (f : BbControl → BbControl) (h : Tab.canon hostDefault x.mram) :
    Tab.canon hostDefault (x.updCtl f).mram := by
  unfold BlackBox.updCtl; split
  · exact h
  · exact putCtl_canon _ _ h

theorem kept_updCtl {b s : State} (f : BbControl → BbControl) (h : Kept b s) : Kept b (s.onBox (fun x => x.updCtl f)) :=
  kept_onBox _ h (BlackBox.updCtl_defects _ _) (BlackBox.updCtl_canon _ _)

theorem kept_logRec {b : State} {s : State} (type flask : Nat) (body : List Byte) (h : Kept b s) :
    Kept b (s.logRec type flask body) := by
  refine kept_onBox _ h ?_ ?_
  · unfold BlackBox.enqueue; split
    · exact BlackBox.updCtl_defects _ _
    · rfl
  · unfold BlackBox.enqueue; split
    · exact BlackBox.updCtl_canon _ _
    · exact id

theorem kept_addDefect {σ : State} {s : State} (kind source place dimm : Nat) (hκ : Kept σ s) :
    Kept σ (State.addDefect s kind source place dimm) := by
  unfold State.addDefect
  repeat' (first
    | with_reducible assumption
    | with_reducible intro _
    | with_reducible apply kept_logRec
    | dsimp -zeta -letToHave only
    | split)

theorem kept_event {σ : State} {s : State} (e : DevEvent) (hκ : Kept σ s) :
    Kept σ (State.event s e) := by
  unfold State.event
  repeat' (first
    | with_reducible assumption
    | with_reducible intro _
    | with_reducible apply kept_onQb
    | with_reducible apply kept_logRec
    | (extract_lets +onlyGivenNames x; refine Kept.cut (b := σ) x ?_ (fun hx => ?_); (on_goal 1 => unfold x; clear x); (on_goal 2 => revert hx; generalize x = y; clear x; intro hx))
    | (extract_lets +onlyGivenNames x; subst x)
    | dsimp -zeta -letToHave only
    | split)

theorem kept_devEvent {σ : State} {s : State} (code : Nat) (stat : Stat) (byte1 data : Nat) (hκ : Kept σ s) :
    Kept σ (State.devEvent s code stat byte1 data) := by
  unfold State.devEvent
  repeat' (first
    | with_reducible assumption
    | with_reducible intro _
    | with_reducible apply kept_event)

theorem kept_security {σ : State} {s : State} (type flask : Nat) (body : List Byte) (hκ : Kept σ s) :
    Kept σ (State.security s type flask body) := by
  unfold State.security
  repeat' (first
    | with_reducible assumption
    | with_reducible intro _
    | with_reducible apply kept_logRec)

theorem kept_onCmd {σ : State} {s : State} (cid : Nat) (f : Cmd → Cmd) (hκ : Kept σ s) :
    Kept σ (State.onCmd s cid f) := by
  unfold State.onCmd
  repeat' (first
    | with_reducible assumption
    | with_reducible intro _
    | with_reducible apply kept_onQb)

theorem kept_enter {σ : State} {s : State} (e : Entry) (hκ : Kept σ s) :
    Kept σ (State.enter s e) := by
  unfold State.enter
  repeat' (first
    | with_reducible assumption
    | with_reducible intro _
    | with_reducible apply kept_onQb
    | dsimp -zeta -letToHave only
    | split)

theorem kept_finish {σ : State} {s : State} (cid : Nat) (st : Stat) (result : List Byte) (hκ : Kept σ s) :
    Kept σ (State.finish s cid st result) := by
  unfold State.finish
  repeat' (first
    | with_reducible assumption
    | with_reducible intro _
    | with_reducible apply kept_onQb
    | with_reducible apply kept_enter
    | (extract_lets +onlyGivenNames x; refine Kept.cut (b := σ) x ?_ (fun hx => ?_); (on_goal 1 => unfold x; clear x); (on_goal 2 => revert hx; generalize x = y; clear x; intro hx))
    | (extract_lets +onlyGivenNames x; subst x)
    | dsimp -zeta -letToHave only
    | split)

theorem kept_failCmd {σ : State} {s : State} (cid : Nat) (st : Stat) (hκ : Kept σ s) :
    Kept σ (State.failCmd s cid st) := by
  unfold State.failCmd
  repeat' (first
    | with_reducible assumption
    | with_reducible intro _
    | with_reducible apply kept_finish)

theorem kept_accepted {b : State} {s : State} (cid : Nat) (ofRow : Cmd → Bool) (f : Cmd → State → State) (h : Kept b s)
    (hf : ∀ c t, Kept b t → Kept b (f c t)) : Kept b (s.accepted cid ofRow f) := by
  unfold State.accepted
  split
  · split
    · exact hf _ _ h
    · exact h
  · exact h

theorem kept_onFlask {σ : State} {s : State} (f : Nat) (g : Flask → Flask) (hκ : Kept σ s) :
    Kept σ (State.onFlask s f g) := by
  unfold State.onFlask
  repeat' (first
    | with_reducible assumption
    | with_reducible intro _
    | with_reducible apply kept_onFlasks)

theorem kept_onUnit {σ : State} {s : State} (u : Nat) (f : NetUnit → NetUnit) (hκ : Kept σ s) :
    Kept σ (State.onUnit s u f) := by
  unfold State.onUnit
  repeat' (first
    | with_reducible assumption
    | with_reducible intro _
    | with_reducible apply kept_onNet)

theorem kept_traceEntry {σ : State} {s : State} (i : Nat) (e : List Byte) (hκ : Kept σ s) :
    Kept σ (State.traceEntry s i e) := by
  unfold State.traceEntry
  repeat' (first
    | with_reducible assumption
    | with_reducible intro _
    | with_reducible apply kept_onNet
    | with_reducible apply kept_onUnit)

theorem kept_clearTrace {σ : State} {s : State} (i : Nat) (hκ : Kept σ s) :
    Kept σ (State.clearTrace s i) := by
  unfold State.clearTrace
  repeat' (first
    | with_reducible assumption
    | with_reducible intro _
    | with_reducible apply kept_onNet
    | with_reducible apply kept_onUnit)

end Sys2Proof.Machine
end

