-- ==== Sys2Proof/Laws/KeptHearths.lean ====
section
/-!
SUPPORT. What the operations of Machine/Hearths.lean keep.
-/

namespace Sys2Proof.Machine

theorem kept_onDie {σ : State} {s : State} (k : Nat) (f : BaseDie → BaseDie) (hκ : Kept σ s) :
    Kept σ (State.onDie s k f) := by
  unfold State.onDie
  repeat' (first
    | with_reducible assumption
    | with_reducible intro _
    | with_reducible apply kept_onHb)

theorem kept_onEngine {σ : State} {s : State} (x : Nat) (f : Engine → Engine) (hκ : Kept σ s) :
    Kept σ (State.onEngine s x f) := by
  unfold State.onEngine
  repeat' (first
    | with_reducible assumption
    | with_reducible intro _
    | with_reducible apply kept_onHe)

theorem kept_stopGang {σ : State} {s : State} (h : HNode) (hκ : Kept σ s) :
    Kept σ (State.stopGang s h) := by
  unfold State.stopGang
  repeat' (first
    | with_reducible assumption
    | with_reducible intro _
    | with_reducible apply kept_onEngine
    | with_reducible apply Kept.foldl)

end Sys2Proof.Machine
end

