-- ==== Sys2Proof/Laws/KeptRails.lean ====
section
/-!
SUPPORT. What the operations of Machine/Rails.lean keep.
-/

namespace Sys2Proof.Machine

theorem kept_onEport {σ : State} {s : State} (n : Nat) (f : EPort → EPort) (hκ : Kept σ s) :
    Kept σ (State.onEport s n f) := by
  unfold State.onEport
  repeat' (first
    | with_reducible assumption
    | with_reducible intro _
    | with_reducible apply kept_onNimra)

theorem kept_onPeer {σ : State} {s : State} (n node : Nat) (f : Peer → Peer) (hκ : Kept σ s) :
    Kept σ (State.onPeer s n node f) := by
  unfold State.onPeer
  repeat' (first
    | with_reducible assumption
    | with_reducible intro _
    | with_reducible apply kept_onNimra)

theorem kept_onWire {σ : State} {s : State} (n node type : Nat) (p : NPacket) (hκ : Kept σ s) :
    Kept σ (State.onWire s n node type p) := by
  unfold State.onWire
  repeat' (first
    | with_reducible assumption
    | with_reducible intro _
    | with_reducible apply kept_onNimra
    | with_reducible apply kept_onEport
    | with_reducible apply kept_onPeer)

theorem kept_sendPlain {σ : State} {s : State} (n node type : Nat) (p : NPacket) (hκ : Kept σ s) :
    Kept σ (State.sendPlain s n node type p) := by
  unfold State.sendPlain
  repeat' (first
    | with_reducible assumption
    | with_reducible intro _
    | with_reducible apply kept_onWire
    | dsimp -zeta -letToHave only
    | split)

theorem kept_sendSeq {σ : State} {s : State} (n node type : Nat) (p : NPacket) (sends rto : Nat) (hκ : Kept σ s) :
    Kept σ (State.sendSeq s n node type p sends rto) := by
  unfold State.sendSeq
  repeat' (first
    | with_reducible assumption
    | with_reducible intro _
    | with_reducible apply kept_onPeer
    | with_reducible apply kept_onWire)

theorem kept_trySend {σ : State} {s : State} (node type : Nat) (p : NPacket) (hκ : Kept σ s) :
    ∀ t, State.trySend s node type p = some t → Kept σ t := by
  unfold State.trySend
  repeat' (first
    | with_reducible assumption
    | with_reducible intro _
    | (cases ‹(some _ : Option State) = some _›)
    | (cases ‹(none : Option State) = some _›)
    | with_reducible apply kept_onNimra
    | with_reducible apply kept_sendSeq
    | dsimp -zeta -letToHave only
    | split
    | (revert ‹(_ : Option State) = some _›; split))

theorem kept_post {σ : State} {s : State} (node type : Nat) (p : NPacket) (hκ : Kept σ s) :
    Kept σ (State.post s node type p) := by
  unfold State.post
  extract_lets wait
  have hw : Kept σ wait := kept_onNimra _ hκ
  split
  · exact hw
  · exact Kept.getD (kept_trySend node type p hκ) hw

theorem kept_flushBacklog {σ : State} {s : State} (hκ : Kept σ s) :
    Kept σ (State.flushBacklog s) := by
  unfold State.flushBacklog
  repeat' (first
    | with_reducible assumption
    | with_reducible intro _
    | with_reducible apply kept_onNimra
    | with_reducible apply kept_post
    | with_reducible apply Kept.foldl)

theorem kept_onGroup {σ : State} {s : State} (g : Nat) (f : Group → Group) (hκ : Kept σ s) :
    Kept σ (State.onGroup s g f) := by
  unfold State.onGroup
  repeat' (first
    | with_reducible assumption
    | with_reducible intro _
    | with_reducible apply kept_onNimra)

theorem kept_sendAborts {σ : State} {s : State} (g seq : Nat) (hκ : Kept σ s) :
    Kept σ (State.sendAborts s g seq) := by
  unfold State.sendAborts
  repeat' (first
    | with_reducible assumption
    | with_reducible intro _
    | with_reducible apply kept_post
    | with_reducible apply kept_onGroup
    | with_reducible apply Kept.foldl
    | (extract_lets +onlyGivenNames x; refine Kept.cut (b := σ) x ?_ (fun hx => ?_); (on_goal 1 => unfold x; clear x); (on_goal 2 => revert hx; generalize x = y; clear x; intro hx))
    | (extract_lets +onlyGivenNames x; subst x)
    | with_reducible apply Kept.foldl_fst
    | dsimp -zeta -letToHave only
    | split)

end Sys2Proof.Machine
end

