-- ==== Sys2Proof/Laws/KeptGraph.lean ====
section
/-!
SUPPORT. What the operations of Machine/Graph.lean keep.
-/

namespace Sys2Proof.Machine

theorem kept_onHeat {σ : State} {s : State} (k : Nat) (f : Heat → Heat) (hκ : Kept σ s) :
    Kept σ (State.onHeat s k f) := by
  unfold State.onHeat
  repeat' (first
    | with_reducible assumption
    | with_reducible intro _
    | with_reducible apply kept_onGraph)

theorem kept_onNode {σ : State} {s : State} (k n : Nat) (f : Node → Node) (hκ : Kept σ s) :
    Kept σ (State.onNode s k n f) := by
  unfold State.onNode
  repeat' (first
    | with_reducible assumption
    | with_reducible intro _
    | with_reducible apply kept_onHeat)

theorem kept_onCtx {σ : State} {s : State} (x : Nat) (f : Ctx → Ctx) (hκ : Kept σ s) :
    Kept σ (State.onCtx s x f) := by
  unfold State.onCtx
  repeat' (first
    | with_reducible assumption
    | with_reducible intro _
    | with_reducible apply kept_onLd)

theorem kept_unpause {σ : State} {s : State} (x : Nat) (hκ : Kept σ s) :
    Kept σ (State.unpause s x) := by
  unfold State.unpause
  repeat' (first
    | with_reducible assumption
    | with_reducible intro _
    | with_reducible apply kept_onCtx
    | dsimp -zeta -letToHave only
    | split)

theorem kept_unpin {σ : State} {s : State} (flask : Nat) (pages : List Nat) (hκ : Kept σ s) :
    Kept σ (State.unpin s flask pages) := by
  unfold State.unpin
  repeat' (first
    | with_reducible assumption
    | with_reducible intro _
    | with_reducible apply kept_onFlask)

theorem kept_undefine {σ : State} {s : State} (flask va n : Nat) (hκ : Kept σ s) :
    Kept σ (State.undefine s flask va n) := by
  unfold State.undefine
  repeat' (first
    | with_reducible assumption
    | with_reducible intro _
    | with_reducible apply kept_drawBytes
    | with_reducible apply kept_flaskWrite)

theorem kept_undefineRange {σ : State} {s : State} (flask va n : Nat) (hκ : Kept σ s) :
    Kept σ (State.undefineRange s flask va n) := by
  unfold State.undefineRange
  repeat' (first
    | with_reducible assumption
    | with_reducible intro _
    | with_reducible apply kept_undefine
    | with_reducible apply Kept.foldl)

theorem kept_undefineStream {σ : State} {s : State} (x : Stream) (hκ : Kept σ s) :
    Kept σ (State.undefineStream s x) := by
  unfold State.undefineStream
  repeat' (first
    | with_reducible assumption
    | with_reducible intro _
    | with_reducible apply kept_undefineRange
    | with_reducible apply Kept.foldl)

theorem kept_endNode {σ : State} {s : State} (k n : Nat) (st : Stat) (f : Node → Node) (hκ : Kept σ s) :
    Kept σ (State.endNode s k n st f) := by
  unfold State.endNode
  repeat' (first
    | with_reducible assumption
    | with_reducible intro _
    | with_reducible apply OutKept.done
    | with_reducible apply kept_finish
    | with_reducible apply kept_onNode)

theorem kept_armed {σ : State} {s : State} (x : Nat) (hκ : Kept σ s) :
    Kept σ (State.armed s x) := by
  unfold State.armed
  repeat' (first
    | with_reducible assumption
    | with_reducible intro _
    | with_reducible apply kept_onNode
    | with_reducible apply kept_onCtx
    | with_reducible apply kept_endNode
    | dsimp -zeta -letToHave only
    | split)

theorem kept_undefineLdm {σ : State} {s : State} (x : Nat) (l : List Nat) (hκ : Kept σ s) :
    Kept σ (State.undefineLdm s x l) := by
  unfold State.undefineLdm
  repeat' (first
    | with_reducible assumption
    | with_reducible intro _
    | with_reducible apply kept_onVt
    | with_reducible apply kept_drawBytes)

theorem kept_spoil {σ : State} {s : State} (p : Nat → Nat → Bool) (hκ : Kept σ s) :
    Kept σ (State.spoil s p) := by
  unfold State.spoil
  repeat' (first
    | with_reducible assumption
    | with_reducible intro _
    | with_reducible apply kept_undefineRange
    | with_reducible apply kept_undefineLdm
    | with_reducible apply Kept.foldl)

theorem kept_stopUnits {σ : State} {s : State} (p : Nat → Nat → Bool) (hκ : Kept σ s) :
    Kept σ (State.stopUnits s p) := by
  unfold State.stopUnits
  repeat' (first
    | with_reducible assumption
    | with_reducible intro _
    | with_reducible apply kept_onGraph
    | with_reducible apply kept_onMt
    | with_reducible apply kept_onVt
    | with_reducible apply kept_onHb
    | with_reducible apply kept_onLd
    | with_reducible apply kept_onFp
    | with_reducible apply kept_onNimra
    | with_reducible apply kept_dropFaults
    | with_reducible apply kept_sendAborts
    | with_reducible apply kept_stopGang
    | with_reducible apply kept_unpause
    | with_reducible apply kept_unpin
    | with_reducible apply kept_undefineStream
    | with_reducible apply kept_armed
    | with_reducible apply kept_spoil
    | with_reducible apply Kept.foldl
    | (extract_lets +onlyGivenNames x; refine Kept.cut (b := σ) x ?_ (fun hx => ?_); (on_goal 1 => unfold x; clear x); (on_goal 2 => revert hx; generalize x = y; clear x; intro hx))
    | (extract_lets +onlyGivenNames x; subst x)
    | dsimp -zeta -letToHave only
    | split)

theorem kept_failNodeWith {σ : State} {s : State} (k n : Nat) (st : Stat) (f : Node → Node) (hκ : Kept σ s) :
    Kept σ (State.failNodeWith s k n st f) := by
  unfold State.failNodeWith
  repeat' (first
    | with_reducible assumption
    | with_reducible intro _
    | with_reducible apply kept_onNode
    | with_reducible apply kept_endNode
    | with_reducible apply kept_stopUnits
    | dsimp -zeta -letToHave only
    | split)

theorem kept_failNode {σ : State} {s : State} (k n : Nat) (st : Stat) (hκ : Kept σ s) :
    Kept σ (State.failNode s k n st) := by
  unfold State.failNode
  repeat' (first
    | with_reducible assumption
    | with_reducible intro _
    | with_reducible apply kept_failNodeWith)

theorem kept_endHeat {σ : State} {s : State} (k : Nat) (st : Stat) (first : Nat) (own : Option (Nat × Stat)) (hκ : Kept σ s) :
    Kept σ (State.endHeat s k st first own) := by
  unfold State.endHeat
  repeat' (first
    | with_reducible assumption
    | with_reducible intro _
    | with_reducible apply OutKept.done
    | with_reducible apply kept_dropFaults
    | with_reducible apply kept_finish
    | with_reducible apply kept_onHeat
    | with_reducible apply kept_stopUnits
    | (extract_lets +onlyGivenNames x; refine Kept.cut (b := σ) x ?_ (fun hx => ?_); (on_goal 1 => unfold x; clear x); (on_goal 2 => revert hx; generalize x = y; clear x; intro hx))
    | (extract_lets +onlyGivenNames x; subst x)
    | dsimp -zeta -letToHave only
    | split)

theorem kept_progress {σ : State} {s : State} (k : Nat) (hκ : Kept σ s) :
    Kept σ (State.progress s k) := by
  unfold State.progress
  repeat' (first
    | with_reducible assumption
    | with_reducible intro _
    | with_reducible apply OutKept.done
    | with_reducible apply kept_onHeat
    | with_reducible apply kept_armed
    | with_reducible apply kept_endHeat
    | (extract_lets +onlyGivenNames x; refine Kept.cut (b := σ) x ?_ (fun hx => ?_); (on_goal 1 => unfold x; clear x); (on_goal 2 => revert hx; generalize x = y; clear x; intro hx))
    | (extract_lets +onlyGivenNames x; subst x)
    | dsimp -zeta -letToHave only
    | split)

theorem kept_settle {σ : State} {s : State} (hκ : Kept σ s) :
    Kept σ (State.settle s) := by
  unfold State.settle
  repeat' (first
    | with_reducible assumption
    | with_reducible intro _
    | with_reducible apply kept_progress
    | with_reducible apply Kept.foldl)

theorem kept_instantiate {σ : State} {s : State} (flask : Nat) (p : Pattern) (area bind : Nat) (hκ : Kept σ s) :
    Kept σ (State.instantiate s flask p area bind).2 := by
  unfold State.instantiate
  repeat' (first
    | with_reducible assumption
    | with_reducible intro _
    | with_reducible apply kept_tryWrite
    | refine kept_tryWrite_eq (e := by with_reducible assumption) (hκ := ?_)
    | with_reducible apply Kept.foldl
    | with_reducible apply Kept.foldl_snd
    | dsimp -zeta -letToHave only
    | split)

theorem kept_instantiate_eq {σ : State} {s : State} (flask : Nat) (p : Pattern) (area bind : Nat) {ρ τ} (hκ : Kept σ s) (e : State.instantiate s flask p area bind = (ρ, τ)) : Kept σ τ := by
  have := kept_instantiate (flask := flask) (p := p) (area := area) (bind := bind) (hκ := hκ) 
  rw [e] at this; exact this

theorem kept_tryLoad {σ : State} {s : State} (h : Heat) (f : Flask) (hκ : Kept σ s) :
    Kept σ (State.tryLoad s h f).2 := by
  unfold State.tryLoad
  repeat' (first
    | with_reducible assumption
    | with_reducible intro _
    | with_reducible apply kept_instantiate
    | refine kept_instantiate_eq (e := by with_reducible assumption) (hκ := ?_)
    | (extract_lets +onlyGivenNames x; refine Kept.cut (b := σ) x ?_ (fun hx => ?_); (on_goal 1 => unfold x; clear x); (on_goal 2 => revert hx; generalize x = y; clear x; intro hx))
    | (extract_lets +onlyGivenNames x; subst x)
    | dsimp -zeta -letToHave only
    | split)

theorem kept_tryLoad_eq {σ : State} {s : State} (h : Heat) (f : Flask) {ρ τ} (hκ : Kept σ s) (e : State.tryLoad s h f = (ρ, τ)) : Kept σ τ := by
  have := kept_tryLoad (h := h) (f := f) (hκ := hκ) 
  rw [e] at this; exact this

theorem kept_failLoading {σ : State} {s : State} (k : Nat) (st : Stat) (entry : Nat) (hκ : Kept σ s) :
    Kept σ (State.failLoading s k st entry) := by
  unfold State.failLoading
  repeat' (first
    | with_reducible assumption
    | with_reducible intro _
    | with_reducible apply kept_blameFirst
    | with_reducible apply kept_onHeat
    | dsimp -zeta -letToHave only
    | split)

theorem kept_loadHeat {σ : State} {s : State} (k : Nat) (hκ : Kept σ s) :
    Kept σ (State.loadHeat s k) := by
  unfold State.loadHeat
  repeat' (first
    | with_reducible assumption
    | with_reducible intro _
    | with_reducible apply kept_pageFault
    | with_reducible apply kept_onHeat
    | with_reducible apply kept_progress
    | with_reducible apply kept_tryLoad
    | with_reducible apply kept_failLoading
    | refine kept_tryLoad_eq (e := by with_reducible assumption) (hκ := ?_)
    | dsimp -zeta -letToHave only
    | split)

theorem kept_expireLoad {σ : State} {s : State} (k : Nat) (st : Stat) (hκ : Kept σ s) :
    Kept σ (State.expireLoad s k st) := by
  unfold State.expireLoad
  repeat' (first
    | with_reducible assumption
    | with_reducible intro _
    | with_reducible apply kept_onHeat
    | with_reducible apply kept_progress
    | with_reducible apply kept_tryLoad
    | with_reducible apply kept_failLoading
    | refine kept_tryLoad_eq (e := by with_reducible assumption) (hκ := ?_)
    | dsimp -zeta -letToHave only
    | split)

end Sys2Proof.Machine
end

