-- ==== Sys2Proof/Laws/KeptMoulds.lean ====
section
/-!
SUPPORT. What the operations of Machine/Moulds.lean keep.
-/

namespace Sys2Proof.Machine

theorem kept_zeroBram {σ : State} {s : State} (i q : Nat) (hκ : Kept σ s) : Kept σ (s.zeroBram i q) :=
  kept_onMem _ hκ (fun _ ht => Tab.canon_filter _ ht)

theorem kept_holdInit {σ : State} {s : State} (i q : Nat) (hκ : Kept σ s) :
    Kept σ (State.holdInit s i q) := by
  unfold State.holdInit
  repeat' (first
    | with_reducible assumption
    | with_reducible intro _
    | with_reducible apply kept_onSprue)

theorem kept_blankQuarter {σ : State} {s : State} (i q : Nat) (hκ : Kept σ s) :
    Kept σ (State.blankQuarter s i q) := by
  unfold State.blankQuarter
  repeat' (first
    | with_reducible assumption
    | with_reducible intro _
    | with_reducible apply kept_onSprue
    | with_reducible apply kept_zeroBram
    | with_reducible apply kept_holdInit)

theorem kept_blankShell {σ : State} {s : State} (hκ : Kept σ s) :
    Kept σ (State.blankShell s) := by
  unfold State.blankShell
  repeat' (first
    | with_reducible assumption
    | with_reducible intro _
    | with_reducible apply kept_onSprue)

theorem kept_fillBram {σ : State} {s : State} (i b : Nat) (hκ : Kept σ s) : Kept σ (s.fillBram i b) :=
  kept_devWrite _ _ hκ

theorem kept_putFrame {σ : State} {s : State} (i q ft fr : Nat) (payload : List Byte) (hκ : Kept σ s) :
    Kept σ (State.putFrame s i q ft fr payload) := by
  unfold State.putFrame
  repeat' (first
    | with_reducible assumption
    | with_reducible intro _
    | with_reducible apply kept_onSprue
    | with_reducible apply kept_fillBram
    | (extract_lets +onlyGivenNames x; refine Kept.cut (b := σ) x ?_ (fun hx => ?_); (on_goal 1 => unfold x; clear x); (on_goal 2 => revert hx; generalize x = y; clear x; intro hx))
    | (extract_lets +onlyGivenNames x; subst x)
    | dsimp -zeta -letToHave only
    | split)

theorem kept_authRecord {σ : State} {s : State} (source slot check idcode : Nat) (st : Stat) (mould flask : Nat) (hκ : Kept σ s) :
    Kept σ (State.authRecord s source slot check idcode st mould flask) := by
  unfold State.authRecord
  repeat' (first
    | with_reducible assumption
    | with_reducible intro _
    | with_reducible apply kept_security)

theorem kept_countLoad {σ : State} {s : State} (st : Stat) (id : Nat) (hκ : Kept σ s) :
    Kept σ (State.countLoad s st id) := by
  unfold State.countLoad
  repeat' (first
    | with_reducible assumption
    | with_reducible intro _
    | with_reducible apply kept_onSprue)

theorem kept_holdPin {σ : State} {s : State} (m : Mould) (hκ : Kept σ s) :
    Kept σ (State.holdPin s m) := by
  unfold State.holdPin
  repeat' (first
    | with_reducible assumption
    | with_reducible intro _
    | with_reducible apply kept_onSprue
    | with_reducible apply kept_draw
    | refine kept_draw_eq (e := by with_reducible assumption) (hκ := ?_)
    | (extract_lets +onlyGivenNames x; refine Kept.cut (b := σ) x ?_ (fun hx => ?_); (on_goal 1 => unfold x; clear x); (on_goal 2 => revert hx; generalize x = y; clear x; intro hx))
    | (extract_lets +onlyGivenNames x; subst x)
    | dsimp -zeta -letToHave only
    | split)

theorem kept_freePin {σ : State} {s : State} (i : Nat) (hκ : Kept σ s) :
    Kept σ (State.freePin s i) := by
  unfold State.freePin
  repeat' (first
    | with_reducible assumption
    | with_reducible intro _
    | with_reducible apply kept_onSprue)

theorem kept_endDtags {σ : State} {s : State} (x : Nat) (st : Stat) (hκ : Kept σ s) :
    Kept σ (State.endDtags s x st) := by
  unfold State.endDtags
  repeat' (first
    | with_reducible assumption
    | with_reducible intro _
    | with_reducible apply kept_failNode
    | with_reducible apply kept_settle
    | with_reducible apply Kept.foldl)

theorem kept_closePorts {σ : State} {s : State} (m : Mould) (reconf : Bool) (st : Stat) (hκ : Kept σ s) :
    Kept σ (State.closePorts s m reconf st) := by
  unfold State.closePorts
  repeat' (first
    | with_reducible assumption
    | with_reducible intro _
    | with_reducible apply kept_onFp
    | with_reducible apply kept_dropFaults
    | with_reducible apply kept_endDtags
    | with_reducible apply Kept.foldl)

theorem kept_onMould {σ : State} {s : State} (id : Nat) (f : Mould → Mould) (hκ : Kept σ s) :
    Kept σ (State.onMould s id f) := by
  unfold State.onMould
  repeat' (first
    | with_reducible assumption
    | with_reducible intro _
    | with_reducible apply kept_onSprue)

theorem kept_withdraw {σ : State} {s : State} (id : Nat) (reconf : Bool) (st : Stat) (hκ : Kept σ s) :
    Kept σ (State.withdraw s id reconf st) := by
  unfold State.withdraw
  repeat' (first
    | with_reducible assumption
    | with_reducible intro _
    | with_reducible apply kept_closePorts
    | with_reducible apply kept_onMould
    | dsimp -zeta -letToHave only
    | split)

theorem kept_freeUser {σ : State} {s : State} (id : Nat) (hκ : Kept σ s) :
    Kept σ (State.freeUser s id) := by
  unfold State.freeUser
  repeat' (first
    | with_reducible assumption
    | with_reducible intro _
    | with_reducible apply kept_onSprue)

theorem kept_takePlls {σ : State} {s : State} (id flask part : Nat) (pairs : List (Nat × Nat)) (hκ : Kept σ s) :
    Kept σ (State.takePlls s id flask part pairs) := by
  unfold State.takePlls
  repeat' (first
    | with_reducible assumption
    | with_reducible intro _
    | with_reducible apply kept_onSprue
    | with_reducible apply Kept.foldl
    | dsimp -zeta -letToHave only
    | split)

theorem kept_raiseVdd {σ : State} {s : State} (i : Nat) (hκ : Kept σ s) :
    Kept σ (State.raiseVdd s i) := by
  unfold State.raiseVdd
  repeat' (first
    | with_reducible assumption
    | with_reducible intro _
    | with_reducible apply kept_onPower)

theorem kept_tearDown {σ : State} {s : State} (id : Nat) (keepPin : Bool) (st : Stat) (hκ : Kept σ s) :
    Kept σ (State.tearDown s id keepPin st) := by
  unfold State.tearDown
  repeat' (first
    | with_reducible assumption
    | with_reducible intro _
    | with_reducible apply kept_onSprue
    | with_reducible apply kept_blankQuarter
    | with_reducible apply kept_holdPin
    | with_reducible apply kept_freePin
    | with_reducible apply kept_withdraw
    | with_reducible apply kept_freeUser
    | with_reducible apply Kept.foldl
    | (extract_lets +onlyGivenNames x; refine Kept.cut (b := σ) x ?_ (fun hx => ?_); (on_goal 1 => unfold x; clear x); (on_goal 2 => revert hx; generalize x = y; clear x; intro hx))
    | (extract_lets +onlyGivenNames x; subst x)
    | dsimp -zeta -letToHave only
    | split)

theorem kept_freeze {σ : State} {s : State} (id : Nat) (st : Stat) (hκ : Kept σ s) :
    Kept σ (State.freeze s id st) := by
  unfold State.freeze
  repeat' (first
    | with_reducible assumption
    | with_reducible intro _
    | with_reducible apply kept_holdPin
    | with_reducible apply kept_onMould
    | with_reducible apply kept_withdraw
    | dsimp -zeta -letToHave only
    | split)

theorem kept_loadFlash {σ : State} {s : State} (region : Option (List Byte)) (n : Nat) (hκ : Kept σ s) :
    Kept σ (State.loadFlash s region n).2 := by
  unfold State.loadFlash
  repeat' (first
    | with_reducible assumption
    | with_reducible intro _
    | with_reducible apply kept_onSprue
    | with_reducible apply kept_blankShell
    | with_reducible apply kept_authRecord
    | with_reducible apply Kept.foldl
    | (extract_lets +onlyGivenNames x; refine Kept.cut (b := σ) x ?_ (fun hx => ?_); (on_goal 1 => unfold x; clear x); (on_goal 2 => revert hx; generalize x = y; clear x; intro hx))
    | (extract_lets +onlyGivenNames x; subst x)
    | dsimp -zeta -letToHave only
    | split)

theorem kept_loadFlash_eq {σ : State} {s : State} (region : Option (List Byte)) (n : Nat) {ρ τ} (hκ : Kept σ s) (e : State.loadFlash s region n = (ρ, τ)) : Kept σ τ := by
  have := kept_loadFlash (region := region) (n := n) (hκ := hκ) 
  rw [e] at this; exact this

theorem kept_loadGolden {σ : State} {s : State} (hκ : Kept σ s) :
    Kept σ (State.loadGolden s) := by
  unfold State.loadGolden
  repeat' (first
    | with_reducible assumption
    | with_reducible intro _
    | with_reducible apply kept_loadFlash)

theorem kept_bootShell {σ : State} {s : State} (hκ : Kept σ s) :
    Kept σ (State.bootShell s) := by
  unfold State.bootShell
  repeat' (first
    | with_reducible assumption
    | with_reducible intro _
    | with_reducible apply kept_loadFlash
    | with_reducible apply kept_loadGolden
    | refine kept_loadFlash_eq (e := by with_reducible assumption) (hκ := ?_)
    | dsimp -zeta -letToHave only
    | split)

theorem kept_earlyEnd {σ : State} {s : State} (st : Stat) (hκ : Kept σ s) :
    Kept σ (State.earlyEnd s st) := by
  unfold State.earlyEnd
  repeat' (first
    | with_reducible assumption
    | with_reducible intro _
    | with_reducible apply kept_onSprue
    | with_reducible apply kept_dropFaults
    | with_reducible apply kept_finish
    | with_reducible apply kept_blankQuarter
    | with_reducible apply kept_countLoad
    | with_reducible apply kept_holdPin
    | with_reducible apply kept_onMould
    | with_reducible apply kept_withdraw
    | with_reducible apply kept_loadGolden
    | with_reducible apply Kept.foldl
    | (extract_lets +onlyGivenNames x; refine Kept.cut (b := σ) x ?_ (fun hx => ?_); (on_goal 1 => unfold x; clear x); (on_goal 2 => revert hx; generalize x = y; clear x; intro hx))
    | (extract_lets +onlyGivenNames x; subst x)
    | dsimp -zeta -letToHave only
    | split)

theorem kept_refuseLoad {σ : State} {s : State} (cid : Nat) (st : Stat) (hκ : Kept σ s) :
    Kept σ (State.refuseLoad s cid st) := by
  unfold State.refuseLoad
  repeat' (first
    | with_reducible assumption
    | with_reducible intro _
    | with_reducible apply kept_draw
    | with_reducible apply kept_failCmd
    | with_reducible apply kept_countLoad)

theorem kept_failLoad {σ : State} {s : State} (cid : Nat) (st : Stat) (hκ : Kept σ s) :
    Kept σ (State.failLoad s cid st) := by
  unfold State.failLoad
  repeat' (first
    | with_reducible assumption
    | with_reducible intro _
    | with_reducible apply kept_onSprue
    | with_reducible apply kept_earlyEnd
    | with_reducible apply kept_refuseLoad
    | dsimp -zeta -letToHave only
    | split)

theorem kept_failLoadsOf {σ : State} {s : State} (flask : Nat) (st : Stat) (hκ : Kept σ s) :
    Kept σ (State.failLoadsOf s flask st) := by
  unfold State.failLoadsOf
  repeat' (first
    | with_reducible assumption
    | with_reducible intro _
    | with_reducible apply kept_failLoad
    | with_reducible apply Kept.foldl)

theorem kept_freezeFlask {σ : State} {s : State} (flask : Nat) (hκ : Kept σ s) :
    Kept σ (State.freezeFlask s flask) := by
  unfold State.freezeFlask
  repeat' (first
    | with_reducible assumption
    | with_reducible intro _
    | with_reducible apply kept_freeze
    | with_reducible apply kept_failLoadsOf
    | with_reducible apply Kept.foldl)

end Sys2Proof.Machine
end

