-- ==== Sys2Proof/Laws/KeptSessions.lean ====
section
/-!
SUPPORT. What the operations of Machine/Sessions.lean keep.
-/

namespace Sys2Proof.Machine

theorem kept_onSession {σ : State} {s : State} (n : Nat) (f : Session → Session) (hκ : Kept σ s) :
    Kept σ (State.onSession s n f) := by
  unfold State.onSession
  repeat' (first
    | with_reducible assumption
    | with_reducible intro _
    | with_reducible apply kept_onServing)

theorem kept_dropSession {σ : State} {s : State} (n : Nat) (hκ : Kept σ s) :
    Kept σ (State.dropSession s n) := by
  unfold State.dropSession
  repeat' (first
    | with_reducible assumption
    | with_reducible intro _
    | with_reducible apply kept_onServing
    | (extract_lets +onlyGivenNames x; refine Kept.cut (b := σ) x ?_ (fun hx => ?_); (on_goal 1 => unfold x; clear x); (on_goal 2 => revert hx; generalize x = y; clear x; intro hx))
    | (extract_lets +onlyGivenNames x; subst x)
    | dsimp -zeta -letToHave only
    | split)

theorem kept_endRequest {σ : State} {s : State} (n reason : Nat) (st : Stat) (hκ : Kept σ s) :
    Kept σ (State.endRequest s n reason st) := by
  unfold State.endRequest
  repeat' (first
    | with_reducible assumption
    | with_reducible intro _
    | with_reducible apply kept_finish
    | with_reducible apply kept_onSession
    | with_reducible apply kept_dropSession
    | with_reducible apply Kept.foldl
    | (extract_lets +onlyGivenNames x; refine Kept.cut (b := σ) x ?_ (fun hx => ?_); (on_goal 1 => unfold x; clear x); (on_goal 2 => revert hx; generalize x = y; clear x; intro hx))
    | (extract_lets +onlyGivenNames x; subst x)
    | dsimp -zeta -letToHave only
    | split)

theorem kept_endAtBoundary {σ : State} {s : State} (n reason : Nat) (st : Stat) (hκ : Kept σ s) :
    Kept σ (State.endAtBoundary s n reason st) := by
  unfold State.endAtBoundary
  repeat' (first
    | with_reducible assumption
    | with_reducible intro _
    | with_reducible apply kept_onSession
    | with_reducible apply kept_endRequest
    | dsimp -zeta -letToHave only
    | split)

theorem kept_closeSessions {σ : State} {s : State} (p : Nat → Session → Bool) (hκ : Kept σ s) :
    Kept σ (State.closeSessions s p) := by
  unfold State.closeSessions
  repeat' (first
    | with_reducible assumption
    | with_reducible intro _
    | with_reducible apply kept_dropSession
    | with_reducible apply kept_endRequest
    | with_reducible apply Kept.foldl)

theorem kept_dropHeat {σ : State} {s : State} (k : Nat) (hκ : Kept σ s) :
    Kept σ (State.dropHeat s k) := by
  unfold State.dropHeat
  repeat' (first
    | with_reducible assumption
    | with_reducible intro _
    | with_reducible apply kept_onGraph)

theorem kept_heatGone {σ : State} {s : State} (k : Nat) (hκ : Kept σ s) :
    Kept σ (State.heatGone s k) := by
  unfold State.heatGone
  repeat' (first
    | with_reducible assumption
    | with_reducible intro _
    | with_reducible apply kept_finish
    | with_reducible apply kept_dropHeat
    | with_reducible apply Kept.foldl)

theorem kept_heatPosted {σ : State} {s : State} (cid : Nat) (hκ : Kept σ s) :
    Kept σ (State.heatPosted s cid) := by
  unfold State.heatPosted
  repeat' (first
    | with_reducible assumption
    | with_reducible intro _
    | with_reducible apply kept_heatGone
    | dsimp -zeta -letToHave only
    | split)

theorem kept_closeHeat {σ : State} {s : State} (k : Nat) (h : Heat) (hκ : Kept σ s) :
    Kept σ (State.closeHeat s k h) := by
  unfold State.closeHeat
  repeat' (first
    | with_reducible assumption
    | with_reducible intro _
    | with_reducible apply kept_finish
    | with_reducible apply kept_onHeat
    | with_reducible apply kept_heatGone
    | (extract_lets +onlyGivenNames x; refine Kept.cut (b := σ) x ?_ (fun hx => ?_); (on_goal 1 => unfold x; clear x); (on_goal 2 => revert hx; generalize x = y; clear x; intro hx))
    | (extract_lets +onlyGivenNames x; subst x)
    | dsimp -zeta -letToHave only
    | split)

theorem kept_discardEntry {σ : State} {s : State} (k : Nat) (hκ : Kept σ s) :
    Kept σ (State.discardEntry s k) := by
  unfold State.discardEntry
  repeat' (first
    | with_reducible assumption
    | with_reducible intro _
    | with_reducible apply kept_onQb
    | with_reducible apply kept_onHeat
    | (extract_lets +onlyGivenNames x; refine Kept.cut (b := σ) x ?_ (fun hx => ?_); (on_goal 1 => unfold x; clear x); (on_goal 2 => revert hx; generalize x = y; clear x; intro hx))
    | (extract_lets +onlyGivenNames x; subst x)
    | dsimp -zeta -letToHave only
    | split)

theorem kept_dropHeld {σ : State} {s : State} (k : Nat) (st : Stat) (hκ : Kept σ s) :
    Kept σ (State.dropHeld s k st) := by
  unfold State.dropHeld
  repeat' (first
    | with_reducible assumption
    | with_reducible intro _
    | with_reducible apply kept_finish
    | with_reducible apply kept_dropHeat
    | dsimp -zeta -letToHave only
    | split)

theorem kept_cutHeat {σ : State} {s : State} (k : Nat) (hκ : Kept σ s) :
    Kept σ (State.cutHeat s k) := by
  unfold State.cutHeat
  repeat' (first
    | with_reducible assumption
    | with_reducible intro _
    | with_reducible apply kept_endHeat
    | with_reducible apply kept_discardEntry
    | with_reducible apply kept_dropHeld
    | dsimp -zeta -letToHave only
    | split)

theorem kept_orphan {σ : State} {s : State} (cid : Nat) (st : Stat) (hκ : Kept σ s) :
    Kept σ (State.orphan s cid st) := by
  unfold State.orphan
  repeat' (first
    | with_reducible assumption
    | with_reducible intro _
    | with_reducible apply kept_onCmd
    | with_reducible apply kept_enter
    | dsimp -zeta -letToHave only
    | split)

theorem kept_stopMoves {σ : State} {s : State} (cid : Nat) (hκ : Kept σ s) :
    Kept σ (State.stopMoves s cid) := by
  unfold State.stopMoves
  repeat' (first
    | with_reducible assumption
    | with_reducible intro _
    | with_reducible apply kept_onFlasks)

theorem kept_undefineCopy {σ : State} {s : State} (c : Cmd) (k : Nat) (hκ : Kept σ s) :
    Kept σ (State.undefineCopy s c k) := by
  unfold State.undefineCopy
  repeat' (first
    | with_reducible assumption
    | with_reducible intro _
    | with_reducible apply kept_drawBytes
    | with_reducible apply kept_hostWrite
    | with_reducible apply kept_undefineRange
    | refine kept_drawBytes_eq (e := by with_reducible assumption) (hκ := ?_)
    | with_reducible apply Kept.foldl
    | (extract_lets +onlyGivenNames x; refine Kept.cut (b := σ) x ?_ (fun hx => ?_); (on_goal 1 => unfold x; clear x); (on_goal 2 => revert hx; generalize x = y; clear x; intro hx))
    | (extract_lets +onlyGivenNames x; subst x)
    | dsimp -zeta -letToHave only
    | split)

theorem kept_abortCmd {σ : State} {s : State} (c : Cmd) (st : Stat) (hκ : Kept σ s) :
    Kept σ (State.abortCmd s c st) := by
  unfold State.abortCmd
  repeat' (first
    | with_reducible assumption
    | with_reducible intro _
    | with_reducible apply kept_onQb
    | with_reducible apply kept_dropFaults
    | with_reducible apply kept_finish
    | with_reducible apply kept_failCmd
    | with_reducible apply kept_undefineRange
    | with_reducible apply kept_endHeat
    | with_reducible apply kept_settle
    | with_reducible apply kept_failLoad
    | with_reducible apply kept_endRequest
    | with_reducible apply kept_endAtBoundary
    | with_reducible apply kept_dropHeld
    | with_reducible apply kept_orphan
    | with_reducible apply kept_stopMoves
    | with_reducible apply kept_undefineCopy
    | with_reducible refine kept_onFlash _ ?_ rfl rfl
    | dsimp -zeta -letToHave only
    | split)

theorem kept_stepFailed {σ : State} {s : State} (d : List Byte) (st : Stat) (n pos : Nat) (hκ : Kept σ s) :
    Kept σ (State.stepFailed s d st n pos) := by
  unfold State.stepFailed
  repeat' (first
    | with_reducible assumption
    | with_reducible intro _
    | with_reducible apply kept_onSession
    | with_reducible apply kept_endRequest)

theorem kept_endLoops {σ : State} {s : State} (f : Nat) (hκ : Kept σ s) :
    Kept σ (State.endLoops s f) := by
  unfold State.endLoops
  repeat' (first
    | with_reducible assumption
    | with_reducible intro _
    | with_reducible apply kept_closeSessions
    | with_reducible apply kept_stepFailed
    | with_reducible apply Kept.foldl)

theorem kept_flaskFault {σ : State} {s : State} (f : Nat) (cmd : Option Nat) (hκ : Kept σ s) :
    Kept σ (State.flaskFault s f cmd) := by
  unfold State.flaskFault
  repeat' (first
    | with_reducible assumption
    | with_reducible intro _
    | with_reducible apply kept_event
    | with_reducible apply kept_onFlask
    | with_reducible apply kept_settle
    | with_reducible apply kept_freezeFlask
    | with_reducible apply kept_cutHeat
    | with_reducible apply kept_abortCmd
    | with_reducible apply kept_endLoops
    | with_reducible apply Kept.foldl
    | (extract_lets +onlyGivenNames x; refine Kept.cut (b := σ) x ?_ (fun hx => ?_); (on_goal 1 => unfold x; clear x); (on_goal 2 => revert hx; generalize x = y; clear x; intro hx))
    | (extract_lets +onlyGivenNames x; subst x)
    | dsimp -zeta -letToHave only
    | split)

end Sys2Proof.Machine
end

