-- ==== Sys2Proof/Laws/KeptQueues.lean ====
section
/-!
SUPPORT. What the operations of Machine/Queues.lean keep.
-/

namespace Sys2Proof.Machine

theorem kept_onQueue {σ : State} {s : State} (q : Nat) (f : Queue → Queue) (hκ : Kept σ s) :
    Kept σ (State.onQueue s q f) := by
  unfold State.onQueue
  repeat' (first
    | with_reducible assumption
    | with_reducible intro _
    | with_reducible apply kept_onQb)

theorem kept_raise {σ : State} {s : State} (v : Nat) (hκ : Kept σ s) :
    Kept σ (State.raise s v) := by
  unfold State.raise
  repeat' (first
    | with_reducible assumption
    | with_reducible intro _
    | with_reducible apply kept_onQb
    | dsimp -zeta -letToHave only
    | split)

theorem kept_reapAdmin {σ : State} {s : State} (hκ : Kept σ s) :
    Kept σ (State.reapAdmin s) := by
  unfold State.reapAdmin
  repeat' (first
    | with_reducible assumption
    | with_reducible intro _
    | with_reducible apply kept_onQb
    | dsimp -zeta -letToHave only
    | split)

theorem kept_postCompletion {σ : State} (cq : Nat) (bad : Bool) {s : State} (hκ : Kept σ s) :
    Kept σ (postCompletion cq bad s) := by
  unfold postCompletion
  repeat' (first
    | with_reducible assumption
    | with_reducible intro _
    | with_reducible apply kept_hostWrite
    | with_reducible apply kept_event
    | with_reducible apply kept_heatPosted
    | with_reducible apply kept_onQueue
    | with_reducible apply kept_raise
    | with_reducible apply kept_reapAdmin
    | (extract_lets +onlyGivenNames x; refine Kept.cut (b := σ) x ?_ (fun hx => ?_); (on_goal 1 => unfold x; clear x); (on_goal 2 => revert hx; generalize x = y; clear x; intro hx))
    | (extract_lets +onlyGivenNames x; subst x)
    | dsimp -zeta -letToHave only
    | split)

theorem kept_execCompletionPost {σ : State} (cq : Nat) (bad : Bool) {s : State} (hκ : Kept σ s) :
    OutKept σ (execCompletionPost cq bad s) := by
  unfold execCompletionPost
  repeat' (first
    | with_reducible assumption
    | with_reducible intro _
    | with_reducible apply OutKept.done
    | with_reducible apply kept_postCompletion)

theorem kept_postEvent {σ : State} (bad : Bool) {s : State} (hκ : Kept σ s) :
    Kept σ (postEvent bad s) := by
  unfold postEvent
  repeat' (first
    | with_reducible assumption
    | with_reducible intro _
    | with_reducible apply kept_onQb
    | with_reducible apply kept_hostWrite
    | with_reducible apply kept_event
    | with_reducible apply kept_onQueue
    | with_reducible apply kept_raise
    | (extract_lets +onlyGivenNames x; refine Kept.cut (b := σ) x ?_ (fun hx => ?_); (on_goal 1 => unfold x; clear x); (on_goal 2 => revert hx; generalize x = y; clear x; intro hx))
    | (extract_lets +onlyGivenNames x; subst x)
    | dsimp -zeta -letToHave only
    | split)

theorem kept_execDeviceEventPost {σ : State} (bad : Bool) {s : State} (hκ : Kept σ s) :
    OutKept σ (execDeviceEventPost bad s) := by
  unfold execDeviceEventPost
  repeat' (first
    | with_reducible assumption
    | with_reducible intro _
    | with_reducible apply OutKept.done
    | with_reducible apply kept_postEvent)

theorem kept_accept {σ : State} {s : State} (qnum : Nat) (b : List Byte) (hκ : Kept σ s) :
    Kept σ (State.accept s qnum b) := by
  unfold State.accept
  repeat' (first
    | with_reducible assumption
    | with_reducible intro _
    | with_reducible apply kept_onQb)

theorem kept_refuse {σ : State} {s : State} (qnum : Nat) (b : List Byte) (st : Stat) (hκ : Kept σ s) :
    Kept σ (State.refuse s qnum b st) := by
  unfold State.refuse
  repeat' (first
    | with_reducible assumption
    | with_reducible intro _
    | with_reducible apply kept_enter)

theorem kept_intake {σ : State} (bad : Bool) {s : State} (hκ : Kept σ s) :
    Kept σ (intake bad s) := by
  unfold intake
  repeat' (first
    | with_reducible assumption
    | with_reducible intro _
    | with_reducible apply kept_onQb
    | with_reducible apply kept_event
    | with_reducible apply kept_onQueue
    | with_reducible apply kept_accept
    | with_reducible apply kept_refuse
    | (extract_lets +onlyGivenNames x; refine Kept.cut (b := σ) x ?_ (fun hx => ?_); (on_goal 1 => unfold x; clear x); (on_goal 2 => revert hx; generalize x = y; clear x; intro hx))
    | (extract_lets +onlyGivenNames x; subst x)
    | dsimp -zeta -letToHave only
    | split)

theorem kept_execIntakeFetch {σ : State} (bad : Bool) {s : State} (hκ : Kept σ s) :
    OutKept σ (execIntakeFetch bad s) := by
  unfold execIntakeFetch
  repeat' (first
    | with_reducible assumption
    | with_reducible intro _
    | with_reducible apply OutKept.done
    | with_reducible apply kept_intake)

theorem kept_acceptHeld {σ : State} (n : Nat) {s : State} (hκ : Kept σ s) :
    Kept σ (acceptHeld n s) := by
  unfold acceptHeld
  repeat' (first
    | with_reducible assumption
    | with_reducible intro _
    | with_reducible apply kept_onQueue
    | with_reducible apply kept_accept
    | with_reducible apply kept_refuse
    | (extract_lets +onlyGivenNames x; refine Kept.cut (b := σ) x ?_ (fun hx => ?_); (on_goal 1 => unfold x; clear x); (on_goal 2 => revert hx; generalize x = y; clear x; intro hx))
    | (extract_lets +onlyGivenNames x; subst x)
    | dsimp -zeta -letToHave only
    | split)

theorem kept_execPacketAccept {σ : State} (n : Nat) {s : State} (hκ : Kept σ s) :
    OutKept σ (execPacketAccept n s) := by
  unfold execPacketAccept
  repeat' (first
    | with_reducible assumption
    | with_reducible intro _
    | with_reducible apply OutKept.done
    | with_reducible apply kept_acceptHeld)

theorem kept_hostStores {σ : State} {s : State} (l : List (Nat × List Byte)) (hκ : Kept σ s) :
    Kept σ (State.hostStores s l) := by
  unfold State.hostStores
  repeat' (first
    | with_reducible assumption
    | with_reducible intro _
    | with_reducible apply kept_hostWrite
    | with_reducible apply Kept.foldl)

theorem kept_dropDoorbell {σ : State} {s : State} (hκ : Kept σ s) :
    Kept σ (State.dropDoorbell s) := by
  unfold State.dropDoorbell
  repeat' (first
    | with_reducible assumption
    | with_reducible intro _
    | with_reducible apply kept_onQb)

theorem kept_doorbellError {σ : State} {s : State} (n flask v : Nat) (hκ : Kept σ s) :
    Kept σ (State.doorbellError s n flask v) := by
  unfold State.doorbellError
  repeat' (first
    | with_reducible assumption
    | with_reducible intro _
    | with_reducible apply kept_event
    | with_reducible apply kept_onQueue)

theorem kept_ringSq {σ : State} (width v : Nat) {s : State} (hκ : Kept σ s) :
    Kept σ (ringSq width v s) := by
  unfold ringSq
  repeat' (first
    | with_reducible assumption
    | with_reducible intro _
    | with_reducible apply kept_onQueue
    | with_reducible apply kept_dropDoorbell
    | with_reducible apply kept_doorbellError
    | (extract_lets +onlyGivenNames x; refine Kept.cut (b := σ) x ?_ (fun hx => ?_); (on_goal 1 => unfold x; clear x); (on_goal 2 => revert hx; generalize x = y; clear x; intro hx))
    | (extract_lets +onlyGivenNames x; subst x)
    | dsimp -zeta -letToHave only
    | split)

theorem kept_execSqDoorbell {σ : State} (width : Nat) (value : W64) (host : List (Nat × List Byte)) {s : State} (hκ : Kept σ s) :
    OutKept σ (execSqDoorbell width value host s) := by
  unfold execSqDoorbell
  repeat' (first
    | with_reducible assumption
    | with_reducible intro _
    | with_reducible apply OutKept.done
    | with_reducible apply kept_hostStores
    | with_reducible apply kept_ringSq)

theorem kept_ringCq {σ : State} (width v : Nat) {s : State} (hκ : Kept σ s) :
    Kept σ (ringCq width v s) := by
  unfold ringCq
  repeat' (first
    | with_reducible assumption
    | with_reducible intro _
    | with_reducible apply kept_onQueue
    | with_reducible apply kept_dropDoorbell
    | with_reducible apply kept_doorbellError
    | (extract_lets +onlyGivenNames x; refine Kept.cut (b := σ) x ?_ (fun hx => ?_); (on_goal 1 => unfold x; clear x); (on_goal 2 => revert hx; generalize x = y; clear x; intro hx))
    | (extract_lets +onlyGivenNames x; subst x)
    | dsimp -zeta -letToHave only
    | split)

theorem kept_execCqDoorbell {σ : State} (width : Nat) (value : W64) {s : State} (hκ : Kept σ s) :
    OutKept σ (execCqDoorbell width value s) := by
  unfold execCqDoorbell
  repeat' (first
    | with_reducible assumption
    | with_reducible intro _
    | with_reducible apply OutKept.done
    | with_reducible apply kept_ringCq)

theorem kept_abortQueue {σ : State} {s : State} (n : Nat) (hκ : Kept σ s) :
    Kept σ (State.abortQueue s n) := by
  unfold State.abortQueue
  repeat' (first
    | with_reducible assumption
    | with_reducible intro _
    | with_reducible apply kept_closeSessions
    | with_reducible apply kept_abortCmd
    | with_reducible apply Kept.foldl)

theorem kept_deleteAdmin {σ : State} {s : State} (hκ : Kept σ s) :
    Kept σ (State.deleteAdmin s) := by
  unfold State.deleteAdmin
  repeat' (first
    | with_reducible assumption
    | with_reducible intro _
    | with_reducible apply kept_onQueue
    | with_reducible apply kept_reapAdmin
    | with_reducible apply kept_abortQueue)

theorem kept_aqCfg {σ : State} (v : W64) {s : State} (hκ : Kept σ s) :
    Kept σ (aqCfg v s) := by
  unfold aqCfg
  repeat' (first
    | with_reducible assumption
    | with_reducible intro _
    | with_reducible apply kept_onQb
    | with_reducible apply kept_deleteAdmin
    | (extract_lets +onlyGivenNames x; refine Kept.cut (b := σ) x ?_ (fun hx => ?_); (on_goal 1 => unfold x; clear x); (on_goal 2 => revert hx; generalize x = y; clear x; intro hx))
    | (extract_lets +onlyGivenNames x; subst x)
    | dsimp -zeta -letToHave only
    | split)

theorem kept_execAqCfgWrite {σ : State} (v : W64) {s : State} (hκ : Kept σ s) :
    OutKept σ (execAqCfgWrite v s) := by
  unfold execAqCfgWrite
  repeat' (first
    | with_reducible assumption
    | with_reducible intro _
    | with_reducible apply OutKept.done
    | with_reducible apply kept_aqCfg)

theorem kept_execNop {σ : State} (cid : Nat) {s : State} (hκ : Kept σ s) :
    OutKept σ (execNop cid s) := by
  unfold execNop
  repeat' (first
    | with_reducible assumption
    | with_reducible intro _
    | with_reducible apply OutKept.done
    | with_reducible apply kept_finish
    | with_reducible apply kept_accepted)

theorem kept_execIdentify {σ : State} (cid : Nat) (bad : Bool) {s : State} (hκ : Kept σ s) :
    OutKept σ (execIdentify cid bad s) := by
  unfold execIdentify
  repeat' (first
    | with_reducible assumption
    | with_reducible intro _
    | with_reducible apply OutKept.done
    | with_reducible apply kept_hostWrite
    | with_reducible apply kept_finish
    | with_reducible apply kept_failCmd
    | with_reducible apply kept_accepted
    | dsimp -zeta -letToHave only
    | split)

theorem kept_execQueueCreate {σ : State} (cid : Nat) {s : State} (hκ : Kept σ s) :
    OutKept σ (execQueueCreate cid s) := by
  unfold execQueueCreate
  repeat' (first
    | with_reducible assumption
    | with_reducible intro _
    | with_reducible apply OutKept.done
    | with_reducible apply kept_onQb
    | with_reducible apply kept_finish
    | with_reducible apply kept_failCmd
    | with_reducible apply kept_accepted
    | (extract_lets +onlyGivenNames x; refine Kept.cut (b := σ) x ?_ (fun hx => ?_); (on_goal 1 => unfold x; clear x); (on_goal 2 => revert hx; generalize x = y; clear x; intro hx))
    | (extract_lets +onlyGivenNames x; subst x)
    | dsimp -zeta -letToHave only
    | split)

theorem kept_tryDelete {σ : State} {s : State} (cid n : Nat) (hκ : Kept σ s) :
    Kept σ (State.tryDelete s cid n) := by
  unfold State.tryDelete
  repeat' (first
    | with_reducible assumption
    | with_reducible intro _
    | with_reducible apply kept_onQb
    | with_reducible apply kept_finish
    | with_reducible apply kept_closeSessions
    | (extract_lets +onlyGivenNames x; refine Kept.cut (b := σ) x ?_ (fun hx => ?_); (on_goal 1 => unfold x; clear x); (on_goal 2 => revert hx; generalize x = y; clear x; intro hx))
    | (extract_lets +onlyGivenNames x; subst x)
    | dsimp -zeta -letToHave only
    | split)

theorem kept_execQueueDelete {σ : State} (cid : Nat) {s : State} (hκ : Kept σ s) :
    OutKept σ (execQueueDelete cid s) := by
  unfold execQueueDelete
  repeat' (first
    | with_reducible assumption
    | with_reducible intro _
    | with_reducible apply OutKept.done
    | with_reducible apply kept_onCmd
    | with_reducible apply kept_failCmd
    | with_reducible apply kept_closeSessions
    | with_reducible apply kept_onQueue
    | with_reducible apply kept_abortQueue
    | with_reducible apply kept_tryDelete
    | (extract_lets +onlyGivenNames x; refine Kept.cut (b := σ) x ?_ (fun hx => ?_); (on_goal 1 => unfold x; clear x); (on_goal 2 => revert hx; generalize x = y; clear x; intro hx))
    | (extract_lets +onlyGivenNames x; subst x)
    | dsimp -zeta -letToHave only
    | split)

theorem kept_execFence {σ : State} (cid : Nat) {s : State} (hκ : Kept σ s) :
    OutKept σ (execFence cid s) := by
  unfold execFence
  repeat' (first
    | with_reducible assumption
    | with_reducible intro _
    | with_reducible apply OutKept.done
    | with_reducible apply kept_onCmd
    | with_reducible apply kept_finish
    | with_reducible apply kept_failCmd
    | dsimp -zeta -letToHave only
    | split)

theorem kept_execCopy {σ : State} (cid : Nat) {s : State} (hκ : Kept σ s) :
    OutKept σ (execCopy cid s) := by
  unfold execCopy
  repeat' (first
    | with_reducible assumption
    | with_reducible intro _
    | with_reducible apply OutKept.done
    | with_reducible apply kept_onCmd
    | with_reducible apply kept_failCmd
    | with_reducible apply kept_accepted
    | dsimp -zeta -letToHave only
    | split)

theorem kept_execResourceClaim {σ : State} (cid : Nat) {s : State} (hκ : Kept σ s) :
    OutKept σ (execResourceClaim cid s) := by
  unfold execResourceClaim
  repeat' (first
    | with_reducible assumption
    | with_reducible intro _
    | with_reducible apply OutKept.done
    | with_reducible apply kept_onClaims
    | with_reducible apply kept_finish
    | with_reducible apply kept_failCmd
    | with_reducible apply kept_accepted
    | with_reducible apply kept_clearTrace
    | (extract_lets +onlyGivenNames x; refine Kept.cut (b := σ) x ?_ (fun hx => ?_); (on_goal 1 => unfold x; clear x); (on_goal 2 => revert hx; generalize x = y; clear x; intro hx))
    | (extract_lets +onlyGivenNames x; subst x)
    | dsimp -zeta -letToHave only
    | split)

theorem kept_release {σ : State} {s : State} (k : Nat) (hκ : Kept σ s) :
    Kept σ (State.release s k) := by
  unfold State.release
  repeat' (first
    | with_reducible assumption
    | with_reducible intro _
    | with_reducible apply kept_onClaims
    | with_reducible apply kept_onI3c2
    | with_reducible apply kept_clearTrace
    | (extract_lets +onlyGivenNames x; refine Kept.cut (b := σ) x ?_ (fun hx => ?_); (on_goal 1 => unfold x; clear x); (on_goal 2 => revert hx; generalize x = y; clear x; intro hx))
    | (extract_lets +onlyGivenNames x; subst x)
    | dsimp -zeta -letToHave only
    | split)

theorem kept_execResourceRelease {σ : State} (cid : Nat) {s : State} (hκ : Kept σ s) :
    OutKept σ (execResourceRelease cid s) := by
  unfold execResourceRelease
  repeat' (first
    | with_reducible assumption
    | with_reducible intro _
    | with_reducible apply OutKept.done
    | with_reducible apply kept_finish
    | with_reducible apply kept_failCmd
    | with_reducible apply kept_accepted
    | with_reducible apply kept_release
    | (extract_lets +onlyGivenNames x; refine Kept.cut (b := σ) x ?_ (fun hx => ?_); (on_goal 1 => unfold x; clear x); (on_goal 2 => revert hx; generalize x = y; clear x; intro hx))
    | (extract_lets +onlyGivenNames x; subst x)
    | dsimp -zeta -letToHave only
    | split)

theorem kept_execCommandTimeout {σ : State} (cid : Nat) {s : State} (hκ : Kept σ s) :
    OutKept σ (execCommandTimeout cid s) := by
  unfold execCommandTimeout
  repeat' (first
    | with_reducible assumption
    | with_reducible intro _
    | with_reducible apply OutKept.done
    | with_reducible apply kept_until
    | with_reducible apply kept_abortCmd
    | dsimp -zeta -letToHave only
    | split)

end Sys2Proof.Machine
end

