-- ==== Sys2Proof/Laws/KeptBlackBox.lean ====
section
/-!
SUPPORT. What the operations of Machine/BlackBox.lean keep.
-/

namespace Sys2Proof.Machine

theorem kept_regionFull {σ : State} {s : State} (region lost : Nat) (again : Bool) (hκ : Kept σ s) :
    Kept σ (State.regionFull s region lost again) := by
  unfold State.regionFull
  repeat' (first
    | with_reducible assumption
    | with_reducible intro _
    | with_reducible apply kept_devEvent
    | dsimp -zeta -letToHave only
    | split)

theorem kept_loseRecord {σ : State} {s : State} (defect : Bool) (hκ : Kept σ s) :
    Kept σ (State.loseRecord s defect) := by
  unfold State.loseRecord
  repeat' (first
    | with_reducible assumption
    | with_reducible intro _
    | with_reducible apply kept_regionFull
    | with_reducible apply kept_updCtl)

theorem BlackBox.putEvent_defects (x : BlackBox) (r : BbRec) : (x.putEvent r).defects = x.defects := by
  have w : ∀ (y : BlackBox) (o : Nat), (y.write o r).defects = y.defects := fun _ _ => rfl
  unfold BlackBox.putEvent
  dsimp only
  split <;> (try split) <;> (try dsimp only) <;>
    simp only [apply_ite BlackBox.defects, BlackBox.updCtl_defects, w, ite_self]

theorem BlackBox.putEvent_canon (x : BlackBox) (r : BbRec) (hc : Tab.canon hostDefault x.mram) :
    Tab.canon hostDefault (x.putEvent r).mram := by
  unfold BlackBox.putEvent
  dsimp only
  repeat' (first
    | exact hc
    | split
    | with_reducible apply BlackBox.updCtl_canon
    | (refine writeTab_canon _ _ (x := ?_) ?_)
    | exact writeTab_canon _ _ (BlackBox.updCtl_canon _ _ hc)
    | exact writeTab_canon _ _ hc)

theorem kept_commitNext {σ : State} {s : State} (hκ : Kept σ s) : Kept σ (State.commitNext s) := by
  unfold State.commitNext
  split
  · exact hκ
  next r t _ =>
    have h1 : Kept σ (s.onBox (fun b => { b with queue := t })) := kept_onBox _ hκ rfl id
    dsimp only
    split
    · split
      · exact kept_loseRecord _ h1
      next hlt =>
        refine h1.trans ⟨rfl, id, id, fun k => writeTab_canon _ _ k, .refl _, List.prefix_append _ _, fun _ => ?_, rfl, rfl⟩
        have : ((s.onBox (fun b => { b with queue := t })).box.defects).length < 32768 := Nat.lt_of_not_le hlt
        show (_ ++ [_]).length ≤ 32768
        rw [List.length_append]
        exact this
    · split
      · split
        · exact kept_loseRecord _ h1
        · exact kept_event _ (kept_onBox _ h1 rfl (fun k => writeTab_canon _ _ k))
      · exact kept_onBox _ h1 (BlackBox.putEvent_defects _ _) (BlackBox.putEvent_canon _ _)

theorem BlackBox.breakOff_defects (b : BlackBox) (r : BbRec) (off n : Nat) : (b.breakOff r off n).defects = b.defects := by
  unfold BlackBox.breakOff
  dsimp only
  split
  · exact BlackBox.updCtl_defects _ _
  · rfl

theorem BlackBox.breakOff_canon (b : BlackBox) (r : BbRec) (off n : Nat) (h : Tab.canon hostDefault b.mram) :
    Tab.canon hostDefault (b.breakOff r off n).mram := by
  unfold BlackBox.breakOff
  dsimp only
  refine writeTab_canon _ _ ?_
  split
  · exact BlackBox.updCtl_canon _ _ h
  · exact h

theorem kept_breakCommit {σ : State} {s : State} (hκ : Kept σ s) : Kept σ (State.breakCommit s) := by
  unfold State.breakCommit
  split
  · exact hκ
  · dsimp only
    split
    · split
      · exact kept_draw hκ
      · exact kept_onBox _ (kept_draw hκ) (BlackBox.breakOff_defects _ _ _ _) (BlackBox.breakOff_canon _ _ _ _)
    · exact kept_draw hκ

theorem kept_execBlackboxCommit {σ : State} {s : State} (hκ : Kept σ s) :
    OutKept σ (execBlackboxCommit s) := by
  unfold execBlackboxCommit
  repeat' (first
    | with_reducible assumption
    | with_reducible intro _
    | with_reducible apply OutKept.done
    | with_reducible apply kept_commitNext
    | dsimp -zeta -letToHave only
    | split)

theorem kept_commitAll {σ : State} {s : State} (n : Nat) (hκ : Kept σ s) : Kept σ (commitAll n s) := by
  induction n generalizing s with
  | zero => exact hκ
  | succ n ih =>
    unfold commitAll
    split
    · exact hκ
    · exact ih (kept_commitNext hκ)

theorem kept_commitQueue {σ : State} {s : State} (hκ : Kept σ s) : Kept σ (State.commitQueue s) := kept_commitAll _ hκ

theorem kept_execBlackboxRead {σ : State} (cid : Nat) (bad : Bool) {s : State} (hκ : Kept σ s) :
    OutKept σ (execBlackboxRead cid bad s) := by
  unfold execBlackboxRead
  repeat' (first
    | with_reducible assumption
    | with_reducible intro _
    | with_reducible apply OutKept.done
    | with_reducible apply kept_hostWrite
    | with_reducible apply kept_finish
    | with_reducible apply kept_failCmd
    | with_reducible apply kept_accepted
    | (extract_lets +onlyGivenNames x; refine Kept.cut (b := σ) x ?_ (fun hx => ?_); (on_goal 1 => unfold x; clear x); (on_goal 2 => revert hx; generalize x = y; clear x; intro hx))
    | (extract_lets +onlyGivenNames x; subst x)
    | dsimp -zeta -letToHave only
    | split)

theorem kept_execDefectListRead {σ : State} (cid : Nat) (bad : Bool) {s : State} (hκ : Kept σ s) :
    OutKept σ (execDefectListRead cid bad s) := by
  unfold execDefectListRead
  repeat' (first
    | with_reducible assumption
    | with_reducible intro _
    | with_reducible apply OutKept.done
    | with_reducible apply kept_hostWrite
    | with_reducible apply kept_finish
    | with_reducible apply kept_failCmd
    | with_reducible apply kept_accepted
    | (extract_lets +onlyGivenNames x; refine Kept.cut (b := σ) x ?_ (fun hx => ?_); (on_goal 1 => unfold x; clear x); (on_goal 2 => revert hx; generalize x = y; clear x; intro hx))
    | (extract_lets +onlyGivenNames x; subst x)
    | dsimp -zeta -letToHave only
    | split)

end Sys2Proof.Machine
end

