-- ==== Sys2Proof/Laws/KeptMemory.lean ====
section
/-!
SUPPORT. What the operations of Machine/Memory.lean keep.
-/

namespace Sys2Proof.Machine

theorem kept_correctable {σ : State} {s : State} (k : Nat) (hκ : Kept σ s) :
    Kept σ (State.correctable s k) := by
  unfold State.correctable
  repeat' (first
    | with_reducible assumption
    | with_reducible intro _
    | with_reducible apply kept_onCtl
    | with_reducible apply kept_devEvent
    | with_reducible apply kept_armed
    | (extract_lets +onlyGivenNames x; refine Kept.cut (b := σ) x ?_ (fun hx => ?_); (on_goal 1 => unfold x; clear x); (on_goal 2 => revert hx; generalize x = y; clear x; intro hx))
    | (extract_lets +onlyGivenNames x; subst x)
    | dsimp -zeta -letToHave only
    | split)

theorem kept_remapLine {σ : State} {s : State} (k o : Nat) (hκ : Kept σ s) :
    Kept σ (State.remapLine s k o) := by
  unfold State.remapLine
  repeat' (first
    | with_reducible assumption
    | with_reducible intro _
    | with_reducible apply kept_onCtl
    | with_reducible apply kept_addDefect
    | with_reducible apply kept_devEvent
    | (extract_lets +onlyGivenNames x; refine Kept.cut (b := σ) x ?_ (fun hx => ?_); (on_goal 1 => unfold x; clear x); (on_goal 2 => revert hx; generalize x = y; clear x; intro hx))
    | (extract_lets +onlyGivenNames x; subst x)
    | dsimp -zeta -letToHave only
    | split)

theorem kept_uncorrectable {σ : State} {s : State} (k o : Nat) (hκ : Kept σ s) :
    Kept σ (State.uncorrectable s k o) := by
  unfold State.uncorrectable
  repeat' (first
    | with_reducible assumption
    | with_reducible intro _
    | with_reducible apply kept_choose
    | with_reducible apply kept_onCtl
    | with_reducible apply kept_devEvent
    | with_reducible apply kept_flaskFault
    | refine kept_choose_eq (e := by with_reducible assumption) (hκ := ?_)
    | (extract_lets +onlyGivenNames x; refine Kept.cut (b := σ) x ?_ (fun hx => ?_); (on_goal 1 => unfold x; clear x); (on_goal 2 => revert hx; generalize x = y; clear x; intro hx))
    | (extract_lets +onlyGivenNames x; subst x)
    | dsimp -zeta -letToHave only
    | split)

theorem kept_checkLine {σ : State} {s : State} (k o : Nat) (err : LineErr) (hκ : Kept σ s) :
    Kept σ (State.checkLine s k o err) := by
  unfold State.checkLine
  repeat' (first
    | with_reducible assumption
    | with_reducible intro _
    | with_reducible apply kept_stow
    | with_reducible apply kept_correctable
    | with_reducible apply kept_remapLine
    | with_reducible apply kept_uncorrectable
    | (extract_lets +onlyGivenNames x; refine Kept.cut (b := σ) x ?_ (fun hx => ?_); (on_goal 1 => unfold x; clear x); (on_goal 2 => revert hx; generalize x = y; clear x; intro hx))
    | (extract_lets +onlyGivenNames x; subst x)
    | dsimp -zeta -letToHave only
    | split)

theorem kept_readLine {σ : State} {s : State} (k o : Nat) (err : LineErr) (hκ : Kept σ s) :
    Kept σ (State.readLine s k o err) := by
  unfold State.readLine
  repeat' (first
    | with_reducible assumption
    | with_reducible intro _
    | with_reducible apply kept_countPoison
    | with_reducible apply kept_checkLine
    | (extract_lets +onlyGivenNames x; refine Kept.cut (b := σ) x ?_ (fun hx => ?_); (on_goal 1 => unfold x; clear x); (on_goal 2 => revert hx; generalize x = y; clear x; intro hx))
    | (extract_lets +onlyGivenNames x; subst x)
    | dsimp -zeta -letToHave only
    | split)

theorem kept_ddrAccess {σ : State} {s : State} (k o : Nat) (hit : Bool) (hκ : Kept σ s) :
    Kept σ (State.ddrAccess s k o hit) := by
  unfold State.ddrAccess
  repeat' (first
    | with_reducible assumption
    | with_reducible intro _
    | with_reducible apply kept_onCtl
    | (extract_lets +onlyGivenNames x; refine Kept.cut (b := σ) x ?_ (fun hx => ?_); (on_goal 1 => unfold x; clear x); (on_goal 2 => revert hx; generalize x = y; clear x; intro hx))
    | (extract_lets +onlyGivenNames x; subst x)
    | dsimp -zeta -letToHave only
    | split)

theorem kept_snoopRange {σ : State} {s : State} (a n : Nat) (hκ : Kept σ s) : Kept σ (State.snoopRange s a n) := kept_onCxl _ hκ

theorem kept_reach {σ : State} {s : State} (a n : Nat) (hκ : Kept σ s) :
    Kept σ (State.reach s a n) := by
  unfold State.reach
  repeat' (first
    | with_reducible assumption
    | with_reducible intro _
    | with_reducible apply kept_snoopRange
    | with_reducible apply kept_ddrAccess
    | with_reducible apply Kept.foldl
    | (extract_lets +onlyGivenNames x; refine Kept.cut (b := σ) x ?_ (fun hx => ?_); (on_goal 1 => unfold x; clear x); (on_goal 2 => revert hx; generalize x = y; clear x; intro hx))
    | (extract_lets +onlyGivenNames x; subst x)
    | dsimp -zeta -letToHave only
    | split)

theorem kept_reachFlask {σ : State} {s : State} (flask va n : Nat) (hκ : Kept σ s) :
    Kept σ (State.reachFlask s flask va n) := by
  unfold State.reachFlask
  repeat' (first
    | with_reducible assumption
    | with_reducible intro _
    | with_reducible apply kept_reach
    | with_reducible apply Kept.foldl
    | with_reducible apply Kept.foldl_fst
    | dsimp -zeta -letToHave only
    | split)

theorem kept_holdLine {σ : State} {s : State} (l : Nat) (data : Option (List Byte)) (hκ : Kept σ s) :
    Kept σ (State.holdLine s l data) := by
  unfold State.holdLine
  repeat' (first
    | with_reducible assumption
    | with_reducible intro _
    | with_reducible apply kept_onCxl)

theorem kept_execMemoryRead {σ : State} (ctrl offset : Nat) (err : LineErr) (q : MemQueue) {s : State} (hκ : Kept σ s) :
    OutKept σ (execMemoryRead ctrl offset err q s) := by
  unfold execMemoryRead
  repeat' (first
    | with_reducible assumption
    | with_reducible intro _
    | with_reducible apply OutKept.done
    | with_reducible apply kept_readLine
    | with_reducible apply kept_ddrAccess
    | with_reducible apply kept_holdLine
    | (extract_lets +onlyGivenNames x; refine Kept.cut (b := σ) x ?_ (fun hx => ?_); (on_goal 1 => unfold x; clear x); (on_goal 2 => revert hx; generalize x = y; clear x; intro hx))
    | (extract_lets +onlyGivenNames x; subst x)
    | dsimp -zeta -letToHave only
    | split)

theorem kept_execMemoryWrite {σ : State} (ctrl offset : Nat) (data : List Byte) (q : MemQueue) {s : State} (hκ : Kept σ s) :
    OutKept σ (execMemoryWrite ctrl offset data q s) := by
  unfold execMemoryWrite
  repeat' (first
    | with_reducible assumption
    | with_reducible intro _
    | with_reducible apply OutKept.done
    | with_reducible apply kept_devWrite
    | with_reducible apply kept_ddrAccess
    | with_reducible apply kept_holdLine
    | dsimp -zeta -letToHave only
    | split)

theorem kept_execScrubRead {σ : State} (ctrl : Nat) (err : LineErr) {s : State} (hκ : Kept σ s) :
    OutKept σ (execScrubRead ctrl err s) := by
  unfold execScrubRead
  repeat' (first
    | with_reducible assumption
    | with_reducible intro _
    | with_reducible apply OutKept.done
    | with_reducible apply kept_onCtl
    | with_reducible apply kept_checkLine
    | with_reducible apply kept_ddrAccess
    | (extract_lets +onlyGivenNames x; refine Kept.cut (b := σ) x ?_ (fun hx => ?_); (on_goal 1 => unfold x; clear x); (on_goal 2 => revert hx; generalize x = y; clear x; intro hx))
    | (extract_lets +onlyGivenNames x; subst x)
    | dsimp -zeta -letToHave only
    | split)

theorem kept_execCeBucketLeak {σ : State} (ctrl : Nat) {s : State} (hκ : Kept σ s) :
    OutKept σ (execCeBucketLeak ctrl s) := by
  unfold execCeBucketLeak
  repeat' (first
    | with_reducible assumption
    | with_reducible intro _
    | with_reducible apply OutKept.done
    | with_reducible apply kept_onCtl
    | with_reducible apply kept_armed
    | (extract_lets +onlyGivenNames x; refine Kept.cut (b := σ) x ?_ (fun hx => ?_); (on_goal 1 => unfold x; clear x); (on_goal 2 => revert hx; generalize x = y; clear x; intro hx))
    | (extract_lets +onlyGivenNames x; subst x)
    | dsimp -zeta -letToHave only
    | split)

theorem kept_execDdr5Refresh {σ : State} (chan rank bank : Nat) {s : State} (hκ : Kept σ s) :
    OutKept σ (execDdr5Refresh chan rank bank s) := by
  unfold execDdr5Refresh
  repeat' (first
    | with_reducible assumption
    | with_reducible intro _
    | with_reducible apply OutKept.done
    | with_reducible apply kept_onCtl
    | dsimp -zeta -letToHave only
    | split)

theorem kept_execDdr5RowIdleClose {σ : State} (chan bank : Nat) {s : State} (hκ : Kept σ s) :
    OutKept σ (execDdr5RowIdleClose chan bank s) := by
  unfold execDdr5RowIdleClose
  repeat' (first
    | with_reducible assumption
    | with_reducible intro _
    | with_reducible apply OutKept.done
    | with_reducible apply kept_onCtl
    | dsimp -zeta -letToHave only
    | split)

theorem kept_execDdr5PowerDown {σ : State} (chan rank : Nat) {s : State} (hκ : Kept σ s) :
    OutKept σ (execDdr5PowerDown chan rank s) := by
  unfold execDdr5PowerDown
  repeat' (first
    | with_reducible assumption
    | with_reducible intro _
    | with_reducible apply OutKept.done
    | with_reducible apply kept_onCtl
    | dsimp -zeta -letToHave only
    | split)

theorem kept_execDdr5SelfRefresh {σ : State} (chan rank : Nat) {s : State} (hκ : Kept σ s) :
    OutKept σ (execDdr5SelfRefresh chan rank s) := by
  unfold execDdr5SelfRefresh
  repeat' (first
    | with_reducible assumption
    | with_reducible intro _
    | with_reducible apply OutKept.done
    | with_reducible apply kept_onCtl
    | dsimp -zeta -letToHave only
    | split)

theorem kept_execDimmTemperatureRead {σ : State} (chan : Nat) (temp : Int) {s : State} (hκ : Kept σ s) :
    OutKept σ (execDimmTemperatureRead chan temp s) := by
  unfold execDimmTemperatureRead
  repeat' (first
    | with_reducible assumption
    | with_reducible intro _
    | with_reducible apply OutKept.done
    | with_reducible apply kept_onCtl
    | dsimp -zeta -letToHave only
    | split)

theorem kept_writeSide {σ : State} {s : State} (flask a : Nat) (host : Bool) (bs : List Byte) (hκ : Kept σ s) :
    Kept σ (State.writeSide s flask a host bs).2 := by
  unfold State.writeSide
  repeat' (first
    | with_reducible assumption
    | with_reducible intro _
    | with_reducible apply kept_hostWrite
    | with_reducible apply kept_tryWrite
    | refine kept_tryWrite_eq (e := by with_reducible assumption) (hκ := ?_)
    | dsimp -zeta -letToHave only
    | split)

theorem kept_writeSide_eq {σ : State} {s : State} (flask a : Nat) (host : Bool) (bs : List Byte) {ρ τ} (hκ : Kept σ s) (e : State.writeSide s flask a host bs = (ρ, τ)) : Kept σ τ := by
  have := kept_writeSide (flask := flask) (a := a) (host := host) (bs := bs) (hκ := hκ) 
  rw [e] at this; exact this

theorem kept_reachSide {σ : State} {s : State} (flask a n : Nat) (host : Bool) (hκ : Kept σ s) :
    Kept σ (State.reachSide s flask a n host) := by
  unfold State.reachSide
  repeat' (first
    | with_reducible assumption
    | with_reducible intro _
    | with_reducible apply kept_reachFlask
    | dsimp -zeta -letToHave only
    | split)

theorem kept_copyWaits {σ : State} {s : State} (c : Cmd) (page : Nat) (hκ : Kept σ s) :
    Kept σ (State.copyWaits s c page) := by
  unfold State.copyWaits
  repeat' (first
    | with_reducible assumption
    | with_reducible intro _
    | with_reducible apply kept_pageFault
    | dsimp -zeta -letToHave only
    | split)

theorem kept_allocPage {σ : State} {s : State} (tier : Tier) (place n : Nat) (hκ : Kept σ s) :
    Kept σ (State.allocPage s tier place n).2 := by
  unfold State.allocPage
  repeat' (first
    | with_reducible assumption
    | with_reducible intro _
    | with_reducible apply kept_draw)

theorem kept_allocPage_eq {σ : State} {s : State} (tier : Tier) (place n : Nat) {ρ τ} (hκ : Kept σ s) (e : State.allocPage s tier place n = (ρ, τ)) : Kept σ τ := by
  have := kept_allocPage (tier := tier) (place := place) (n := n) (hκ := hκ) 
  rw [e] at this; exact this

theorem kept_placeFor {σ : State} {s : State} (c : Cmd) (off n : Nat) (hκ : Kept σ s) :
    Kept σ (State.placeFor s c off n).2 := by
  unfold State.placeFor
  repeat' (first
    | with_reducible assumption
    | with_reducible intro _
    | with_reducible apply kept_allocPage
    | refine kept_allocPage_eq (e := by with_reducible assumption) (hκ := ?_)
    | (extract_lets +onlyGivenNames x; refine Kept.cut (b := σ) x ?_ (fun hx => ?_); (on_goal 1 => unfold x; clear x); (on_goal 2 => revert hx; generalize x = y; clear x; intro hx))
    | (extract_lets +onlyGivenNames x; subst x)
    | dsimp -zeta -letToHave only
    | split)

theorem kept_placeFor_eq {σ : State} {s : State} (c : Cmd) (off n : Nat) {ρ τ} (hκ : Kept σ s) (e : State.placeFor s c off n = (ρ, τ)) : Kept σ τ := by
  have := kept_placeFor (c := c) (off := off) (n := n) (hκ := hκ) 
  rw [e] at this; exact this

theorem kept_mapPages {σ : State} {s : State} (c : Cmd) (n : Nat) (l : List Nat) (hκ : Kept σ s) :
    ∀ t, State.mapPages s c n l = some t → Kept σ t := by
  induction l generalizing s with
  | nil => intro t e; cases e; exact hκ
  | cons off l ih =>
    intro t e
    unfold State.mapPages at e
    split at e
    · cases e
    next s1 e1 =>
      have h1 : Kept σ s1 := kept_placeFor_eq (e := e1) (hκ := hκ)
      dsimp only at e
      refine ih ?_ t e
      split
      · exact kept_devWrite _ _ (kept_drawBytes _ (kept_onFlask _ _ h1))
      · exact kept_onFlask _ _ h1

theorem kept_execMemMap {σ : State} (cid : Nat) {s : State} (hκ : Kept σ s) :
    OutKept σ (execMemMap cid s) := by
  unfold execMemMap
  refine OutKept.done (kept_accepted _ _ _ hκ (fun c t ht => ?_))
  dsimp only
  split
  · exact kept_failCmd _ _ ht
  · split
    · split
      next e => exact kept_finish _ _ _ (kept_mapPages _ _ _ ht _ e)
      · exact kept_failCmd _ _ ht
    · exact kept_failCmd _ _ ht

theorem kept_planMoves {σ : State} {s : State} (c : Cmd) (l : List Nat) (hκ : Kept σ s) {ρ τ}
    (e : State.planMoves s c l = some (ρ, τ)) : Kept σ τ := by
  induction l generalizing s ρ τ with
  | nil => cases e; exact hκ
  | cons va l ih =>
    unfold State.planMoves at e
    split at e
    · exact ih hκ e
    · split at e
      · exact ih hκ e
      · split at e
        · cases e
        next e1 =>
          have h1 := kept_placeFor_eq (e := e1) (hκ := hκ)
          dsimp only at e
          split at e
          next e2 =>
            cases e
            refine ih ?_ e2
            split
            · exact kept_onFlask _ _ h1
            · exact h1
          · cases e

theorem kept_execMemMapMigrate {σ : State} (cid : Nat) {s : State} (hκ : Kept σ s) :
    OutKept σ (execMemMapMigrate cid s) := by
  unfold execMemMapMigrate
  apply OutKept.done
  split
  · exact hκ
  · split
    · split
      · exact hκ
      · split
        · dsimp only
          split
          · exact kept_failCmd _ _ hκ
          next e => exact kept_finish _ _ _ (kept_planMoves _ _ hκ e)
          next _ e => exact kept_onCmd _ _ (kept_planMoves _ _ hκ e)
        · exact kept_failCmd _ _ hκ
    · dsimp only
      split
      · exact kept_finish _ _ _ hκ
      · split
        next e => exact kept_planMoves _ _ (kept_onCmd _ _ hκ) e
        · exact kept_onCmd _ _ hκ
    · exact hκ

theorem kept_carryPage {σ : State} {s : State} (p : Page) (m : PageMove) (bad : List Nat) (hκ : Kept σ s) :
    Kept σ (State.carryPage s p m bad) := by
  unfold State.carryPage
  repeat' (first
    | with_reducible assumption
    | with_reducible intro _
    | with_reducible apply kept_devWrite
    | with_reducible apply kept_poisonLine
    | with_reducible apply kept_hostWrite
    | with_reducible apply kept_reach
    | with_reducible apply Kept.foldl
    | (extract_lets +onlyGivenNames x; refine Kept.cut (b := σ) x ?_ (fun hx => ?_); (on_goal 1 => unfold x; clear x); (on_goal 2 => revert hx; generalize x = y; clear x; intro hx))
    | (extract_lets +onlyGivenNames x; subst x)
    | dsimp -zeta -letToHave only
    | split)

theorem kept_execPageMoveDone {σ : State} (flask va : Nat) (bad : List Nat) {s : State} (hκ : Kept σ s) :
    OutKept σ (execPageMoveDone flask va bad s) := by
  unfold execPageMoveDone
  repeat' (first
    | with_reducible assumption
    | with_reducible intro _
    | with_reducible apply OutKept.done
    | with_reducible apply kept_onCmd
    | with_reducible apply kept_finish
    | with_reducible apply kept_onFlask
    | with_reducible apply kept_carryPage
    | (extract_lets +onlyGivenNames x; refine Kept.cut (b := σ) x ?_ (fun hx => ?_); (on_goal 1 => unfold x; clear x); (on_goal 2 => revert hx; generalize x = y; clear x; intro hx))
    | (extract_lets +onlyGivenNames x; subst x)
    | dsimp -zeta -letToHave only
    | split)

theorem kept_execPageFaultService {σ : State} (fault : Nat) {s : State} (hκ : Kept σ s) :
    OutKept σ (execPageFaultService fault s) := by
  unfold execPageFaultService
  repeat' (first
    | with_reducible assumption
    | with_reducible intro _
    | with_reducible apply OutKept.done
    | with_reducible apply kept_onFaults
    | with_reducible apply kept_onFlask
    | with_reducible apply kept_allocPage
    | refine kept_allocPage_eq (e := by with_reducible assumption) (hκ := ?_)
    | (extract_lets +onlyGivenNames x; refine Kept.cut (b := σ) x ?_ (fun hx => ?_); (on_goal 1 => unfold x; clear x); (on_goal 2 => revert hx; generalize x = y; clear x; intro hx))
    | (extract_lets +onlyGivenNames x; subst x)
    | dsimp -zeta -letToHave only
    | split)

theorem kept_execMemMapRegion {σ : State} (cid : Nat) {s : State} (hκ : Kept σ s) :
    OutKept σ (execMemMapRegion cid s) := by
  unfold execMemMapRegion
  repeat' (first
    | with_reducible assumption
    | with_reducible intro _
    | with_reducible apply OutKept.done
    | with_reducible apply kept_onCtl
    | with_reducible apply kept_onCmd
    | with_reducible apply kept_failCmd
    | with_reducible apply kept_accepted
    | (extract_lets +onlyGivenNames x; refine Kept.cut (b := σ) x ?_ (fun hx => ?_); (on_goal 1 => unfold x; clear x); (on_goal 2 => revert hx; generalize x = y; clear x; intro hx))
    | (extract_lets +onlyGivenNames x; subst x)
    | dsimp -zeta -letToHave only
    | split)

theorem kept_execMemUnmapRegion {σ : State} (cid : Nat) {s : State} (hκ : Kept σ s) :
    OutKept σ (execMemUnmapRegion cid s) := by
  unfold execMemUnmapRegion
  repeat' (first
    | with_reducible assumption
    | with_reducible intro _
    | with_reducible apply OutKept.done
    | with_reducible apply kept_onCmd
    | with_reducible apply kept_failCmd
    | with_reducible apply kept_accepted
    | dsimp -zeta -letToHave only
    | split)

theorem kept_zeroDev {σ : State} {s : State} (a n : Nat) (hκ : Kept σ s) :
    Kept σ (State.zeroDev s a n) := by
  unfold State.zeroDev
  repeat' (first
    | with_reducible assumption
    | with_reducible intro _
    | with_reducible apply kept_devFill
    | with_reducible apply kept_reach
    | with_reducible apply Kept.foldl)

theorem kept_execRegionFillDone {σ : State} (cid : Nat) {s : State} (hκ : Kept σ s) :
    OutKept σ (execRegionFillDone cid s) := by
  unfold execRegionFillDone
  repeat' (first
    | with_reducible assumption
    | with_reducible intro _
    | with_reducible apply OutKept.done
    | with_reducible apply kept_onCtl
    | with_reducible apply kept_finish
    | with_reducible apply kept_zeroDev
    | (extract_lets +onlyGivenNames x; refine Kept.cut (b := σ) x ?_ (fun hx => ?_); (on_goal 1 => unfold x; clear x); (on_goal 2 => revert hx; generalize x = y; clear x; intro hx))
    | (extract_lets +onlyGivenNames x; subst x)
    | dsimp -zeta -letToHave only
    | split)

theorem kept_execMemFill {σ : State} (cid : Nat) {s : State} (hκ : Kept σ s) :
    OutKept σ (execMemFill cid s) := by
  unfold execMemFill
  repeat' (first
    | with_reducible assumption
    | with_reducible intro _
    | with_reducible apply OutKept.done
    | with_reducible apply kept_onCmd
    | with_reducible apply kept_failCmd
    | with_reducible apply kept_accepted
    | dsimp -zeta -letToHave only
    | split)

theorem kept_fillPiece {σ : State} {s : State} (flask va n : Nat) (pat : List Byte) (hκ : Kept σ s) :
    Kept σ (State.fillPiece s flask va n pat) := by
  unfold State.fillPiece
  repeat' (first
    | with_reducible assumption
    | with_reducible intro _
    | with_reducible apply kept_devFill
    | with_reducible apply kept_hostWrite
    | with_reducible apply kept_onCtl
    | with_reducible apply kept_reach
    | (extract_lets +onlyGivenNames x; refine Kept.cut (b := σ) x ?_ (fun hx => ?_); (on_goal 1 => unfold x; clear x); (on_goal 2 => revert hx; generalize x = y; clear x; intro hx))
    | (extract_lets +onlyGivenNames x; subst x)
    | dsimp -zeta -letToHave only
    | split)

theorem kept_execMemFillDone {σ : State} (cid : Nat) {s : State} (hκ : Kept σ s) :
    OutKept σ (execMemFillDone cid s) := by
  unfold execMemFillDone
  repeat' (first
    | with_reducible assumption
    | with_reducible intro _
    | with_reducible apply OutKept.done
    | with_reducible apply kept_finish
    | with_reducible apply kept_fillPiece
    | with_reducible apply Kept.foldl
    | dsimp -zeta -letToHave only
    | split)

end Sys2Proof.Machine
end

