-- ==== Sys2Proof/Laws/KeptRoutes.lean ====
section
/-!
SUPPORT. What the operations of Machine/Routes.lean keep.
-/

namespace Sys2Proof.Machine

theorem kept_regStall {σ : State} {s : State} (i port cls : Nat) (hκ : Kept σ s) :
    Kept σ (State.regStall s i port cls) := by
  unfold State.regStall
  repeat' (first
    | with_reducible assumption
    | with_reducible intro _
    | with_reducible apply kept_onUnit)

theorem kept_probe {σ : State} {s : State} (u inp out event : Nat) (f : Flit) (hκ : Kept σ s) :
    Kept σ (State.probe s u inp out event f) := by
  unfold State.probe
  repeat' (first
    | with_reducible assumption
    | with_reducible intro _
    | with_reducible apply kept_event
    | with_reducible apply kept_onUnit
    | with_reducible apply kept_traceEntry
    | (extract_lets +onlyGivenNames x; refine Kept.cut (b := σ) x ?_ (fun hx => ?_); (on_goal 1 => unfold x; clear x); (on_goal 2 => revert hx; generalize x = y; clear x; intro hx))
    | (extract_lets +onlyGivenNames x; subst x)
    | dsimp -zeta -letToHave only
    | split)

theorem kept_carry {σ : State} {s : State} (up : Bool) (n u inp : Nat) (f : Flit) (hκ : Kept σ s) :
    Kept σ (State.carry up n u inp f s).1 := by
  induction n generalizing s u inp f with
  | zero => exact hκ
  | succ n ih =>
    unfold State.carry
    dsimp only
    split
    · split
      · exact kept_probe _ _ _ _ _ (kept_onUnit _ _ hκ)
      · exact kept_probe _ _ _ _ _ (kept_onUnit _ _ (kept_onUnit _ _ hκ))
    · exact ih _ _ _ (kept_probe _ _ _ _ _ (kept_onUnit _ _ hκ))

theorem kept_carry_eq {σ : State} {s : State} (up : Bool) (n u inp : Nat) (f : Flit) {ρ τ} (hκ : Kept σ s)
    (e : State.carry up n u inp f s = (τ, ρ)) : Kept σ τ := by
  have := kept_carry up n u inp f hκ
  rw [e] at this; exact this

theorem kept_sends {σ : State} {s : State} (src : Nat) (f : Flit) (up : Bool) (hκ : Kept σ s) :
    Kept σ (State.sends s src f up).1 := by
  unfold State.sends
  dsimp only
  refine kept_carry _ _ _ _ _ ?_
  split
  · exact kept_onUnit _ _ hκ
  · exact hκ

theorem kept_sends_eq {σ : State} {s : State} (src : Nat) (f : Flit) (up : Bool) {ρ τ} (hκ : Kept σ s)
    (e : State.sends s src f up = (τ, ρ)) : Kept σ τ := by
  have := kept_sends src f up hκ
  rw [e] at this; exact this

theorem kept_ctrl {σ : State} {s : State} (dest flask : Nat) (up : Bool) (hκ : Kept σ s) :
    Kept σ (State.ctrl s dest flask up).1 := by
  unfold State.ctrl
  repeat' (first
    | with_reducible assumption
    | with_reducible intro _
    | with_reducible apply kept_drawBytes
    | with_reducible apply kept_sends)

theorem kept_ctrl_eq {σ : State} {s : State} (dest flask : Nat) (up : Bool) {ρ τ} (hκ : Kept σ s) (e : State.ctrl s dest flask up = (τ, ρ)) : Kept σ τ := by
  have := kept_ctrl (dest := dest) (flask := flask) (up := up) (hκ := hκ)
  rw [e] at this; exact this

theorem kept_tripTry {σ : State} {s : State} (src flask tag : Nat) (t : Trip) (n : Nat) (hκ : Kept σ s) :
    Kept σ (State.tripTry src flask tag t n s).1 := by
  induction n generalizing s with
  | zero => exact hκ
  | succ n ih =>
    unfold State.tripTry
    split
    next e => exact kept_sends_eq (e := e) (hκ := hκ)
    next e =>
      have h1 := kept_sends_eq (e := e) (hκ := hκ)
      split
      next e => exact kept_sends_eq (e := e) (hκ := h1)
      next e => exact ih (kept_sends_eq (e := e) (hκ := h1))

theorem kept_lineTrip {σ : State} {s : State} (src flask : Nat) (t : Trip) (hκ : Kept σ s) :
    Kept σ (State.lineTrip s src flask t).1 := kept_tripTry _ _ _ _ _ (kept_draw hκ)

theorem kept_lineTrip_eq {σ : State} {s : State} (src flask : Nat) (t : Trip) {ρ τ} (hκ : Kept σ s)
    (e : State.lineTrip s src flask t = (τ, ρ)) : Kept σ τ := by
  have := kept_lineTrip src flask t hκ
  rw [e] at this; exact this

theorem kept_lineTrips {σ : State} {s : State} (src flask : Nat) (l : List Trip) (hκ : Kept σ s) :
    Kept σ (State.lineTrips s src flask l).1 := by
  unfold State.lineTrips
  refine Kept.foldl_fst _ _ hκ (fun y t hy => ?_)
  split
  · exact hy
  · exact kept_lineTrip _ _ _ hy

theorem kept_lineTrips_eq {σ : State} {s : State} (src flask : Nat) (l : List Trip) {ρ τ} (hκ : Kept σ s)
    (e : State.lineTrips s src flask l = (τ, ρ)) : Kept σ τ := by
  have := kept_lineTrips src flask l hκ
  rw [e] at this; exact this

theorem kept_execCopyPieceDone {σ : State} (cid : Nat) (bad : Bool) {s : State} (hκ : Kept σ s) :
    OutKept σ (execCopyPieceDone cid bad s) := by
  unfold execCopyPieceDone
  apply OutKept.done
  split
  · exact hκ
  · split
    · split
      · exact hκ
      dsimp only
      split
      · exact kept_finish _ _ _ (kept_undefineCopy _ _ hκ)
      · split
        · exact kept_copyWaits _ _ (kept_reachSide _ _ _ _ hκ)
        · exact kept_finish _ _ _ (kept_undefineCopy _ _ (kept_blame _ _ _ _ (kept_reachSide _ _ _ _ hκ)))
        · split
          next e => exact kept_copyWaits _ _ (kept_reachSide _ _ _ _ hκ)
          next e => exact kept_finish _ _ _ (kept_undefineCopy _ _ (kept_reachSide _ _ _ _ hκ))
          next e =>
            have h1 := kept_writeSide_eq _ _ _ _ (by exact kept_reachSide _ _ _ _ hκ) e
            split
            · exact kept_finish _ _ _ (kept_undefineCopy _ _ (kept_lineTrips _ _ _ (kept_reachSide _ _ _ _ h1)))
            · split
              · exact kept_finish _ _ _ (kept_lineTrips _ _ _ (kept_reachSide _ _ _ _ h1))
              · exact kept_onCmd _ _ (kept_lineTrips _ _ _ (kept_reachSide _ _ _ _ h1))
    · exact hκ

end Sys2Proof.Machine
end

