-- ==== Sys2Proof/Laws/KeptLadle.lean ====
section
/-!
SUPPORT. What the operations of Machine/Ladle.lean keep.
-/

namespace Sys2Proof.Machine

theorem kept_ringWrite {σ : State} {s : State} (x : Nat) (d : List Byte) (scale : Bool) (pos : Nat) (bs : List Byte) (hκ : Kept σ s) :
    Kept σ (State.ringWrite s x d scale pos bs) := by
  unfold State.ringWrite
  repeat' (first
    | with_reducible assumption
    | with_reducible intro _
    | with_reducible apply kept_devWrite
    | with_reducible apply Kept.foldl
    | (extract_lets +onlyGivenNames x; refine Kept.cut (b := σ) x ?_ (fun hx => ?_); (on_goal 1 => unfold x; clear x); (on_goal 2 => revert hx; generalize x = y; clear x; intro hx))
    | (extract_lets +onlyGivenNames x; subst x)
    | with_reducible apply Kept.foldl_fst)

theorem kept_onStream {σ : State} {s : State} (x : Nat) (f : Stream → Stream) (hκ : Kept σ s) :
    Kept σ (State.onStream s x f) := by
  unfold State.onStream
  repeat' (first
    | with_reducible assumption
    | with_reducible intro _
    | with_reducible apply kept_onCtx)

theorem kept_onLdCnt {σ : State} {s : State} (x : Nat) (f : LdCounters → LdCounters) (hκ : Kept σ s) :
    Kept σ (State.onLdCnt s x f) := by
  unfold State.onLdCnt
  repeat' (first
    | with_reducible assumption
    | with_reducible intro _
    | with_reducible apply kept_onCtx)

theorem kept_ctxNext {σ : State} {s : State} (x : Nat) (hκ : Kept σ s) :
    Kept σ (State.ctxNext s x) := by
  unfold State.ctxNext
  repeat' (first
    | with_reducible assumption
    | with_reducible intro _
    | with_reducible apply kept_onCtx
    | with_reducible apply kept_armed)

theorem kept_endStream {σ : State} {s : State} (x : Nat) (st : Stat) (hκ : Kept σ s) :
    Kept σ (State.endStream s x st) := by
  unfold State.endStream
  repeat' (first
    | with_reducible assumption
    | with_reducible intro _
    | with_reducible apply kept_dropFaults
    | with_reducible apply kept_unpause
    | with_reducible apply kept_endNode
    | with_reducible apply kept_ctxNext
    | dsimp -zeta -letToHave only
    | split)

theorem kept_landWrites {σ : State} {s : State} (c : Stream) (written : Bool) (hκ : Kept σ s) :
    Kept σ (State.landWrites s c written) := by
  unfold State.landWrites
  split
  · exact hκ
  · refine Kept.foldl _ _ hκ (fun t r ht => ?_)
    have key : ∀ p : List Byte × State, Kept σ p.2 → Kept σ (match p with
        | (bs, s) => if r.host then s.hostWrite r.line bs
          else if physOutcome s r.line 64 true = .ok then s.devWrite r.line bs else s) := by
      rintro ⟨bs, u⟩ hu
      dsimp only
      split
      · exact kept_hostWrite _ _ hu
      · split
        · exact kept_devWrite _ _ hu
        · exact hu
    refine key _ ?_
    cases written
    · exact kept_drawBytes _ ht
    · exact ht

theorem kept_failStream {σ : State} {s : State} (x : Nat) (st : Stat) (hκ : Kept σ s) :
    Kept σ (State.failStream s x st) := by
  unfold State.failStream
  repeat' (first
    | with_reducible assumption
    | with_reducible intro _
    | with_reducible apply kept_onCtx
    | with_reducible apply kept_failNode
    | with_reducible apply kept_endStream
    | with_reducible apply kept_landWrites
    | (extract_lets +onlyGivenNames x; refine Kept.cut (b := σ) x ?_ (fun hx => ?_); (on_goal 1 => unfold x; clear x); (on_goal 2 => revert hx; generalize x = y; clear x; intro hx))
    | (extract_lets +onlyGivenNames x; subst x)
    | dsimp -zeta -letToHave only
    | split)

theorem kept_beyond {σ : State} {s : State} (x k n : Nat) (out : Bool) (hκ : Kept σ s) :
    Kept σ (State.beyond s x k n out) := by
  unfold State.beyond
  repeat' (first
    | with_reducible assumption
    | with_reducible intro _
    | with_reducible apply kept_failNode
    | with_reducible apply kept_onStream
    | dsimp -zeta -letToHave only
    | split)

theorem kept_flushOutputs {σ : State} {s : State} (k n : Nat) (hκ : Kept σ s) :
    Kept σ (State.flushOutputs s k n) := by
  unfold State.flushOutputs
  repeat' (first
    | with_reducible assumption
    | with_reducible intro _
    | with_reducible apply kept_onStream
    | with_reducible apply Kept.foldl)

theorem kept_closeStreams {σ : State} {s : State} (k n : Nat) (hκ : Kept σ s) :
    Kept σ (State.closeStreams s k n) := by
  unfold State.closeStreams
  repeat' (first
    | with_reducible assumption
    | with_reducible intro _
    | with_reducible apply kept_onStream
    | with_reducible apply kept_endStream
    | with_reducible apply Kept.foldl)

theorem kept_completeStream {σ : State} {s : State} (x : Nat) (hκ : Kept σ s) :
    Kept σ (State.completeStream s x) := by
  unfold State.completeStream
  repeat' (first
    | with_reducible assumption
    | with_reducible intro _
    | with_reducible apply kept_failNode
    | with_reducible apply kept_endStream
    | with_reducible apply Kept.foldl
    | (extract_lets +onlyGivenNames x; refine Kept.cut (b := σ) x ?_ (fun hx => ?_); (on_goal 1 => unfold x; clear x); (on_goal 2 => revert hx; generalize x = y; clear x; intro hx))
    | (extract_lets +onlyGivenNames x; subst x)
    | dsimp -zeta -letToHave only
    | split)

theorem kept_rearm {σ : State} {s : State} (k n : Nat) (hκ : Kept σ s) :
    Kept σ (State.rearm s k n) := by
  unfold State.rearm
  repeat' (first
    | with_reducible assumption
    | with_reducible intro _
    | with_reducible apply kept_onLd)

theorem kept_unqueue {σ : State} {s : State} (cluster k n : Nat) (hκ : Kept σ s) :
    Kept σ (State.unqueue s cluster k n) := by
  unfold State.unqueue
  repeat' (first
    | with_reducible assumption
    | with_reducible intro _
    | with_reducible apply kept_onGraph)

theorem kept_armStream {σ : State} {s : State} (cluster : Nat) (e : KEntry) (hκ : Kept σ s) :
    Kept σ (State.armStream s cluster e) := by
  unfold State.armStream
  repeat' (first
    | with_reducible assumption
    | with_reducible intro _
    | with_reducible apply kept_blame
    | with_reducible apply kept_pageFault
    | with_reducible apply kept_onCtx
    | with_reducible apply kept_endNode
    | with_reducible apply kept_armed
    | with_reducible apply kept_progress
    | with_reducible apply kept_refuse
    | with_reducible apply kept_unqueue
    | (extract_lets +onlyGivenNames x; refine Kept.cut (b := σ) x ?_ (fun hx => ?_); (on_goal 1 => unfold x; clear x); (on_goal 2 => revert hx; generalize x = y; clear x; intro hx))
    | (extract_lets +onlyGivenNames x; subst x)
    | dsimp -zeta -letToHave only
    | split)

theorem kept_execStreamArm {σ : State} (cluster : Nat) {s : State} (hκ : Kept σ s) :
    OutKept σ (execStreamArm cluster s) := by
  unfold execStreamArm
  repeat' (first
    | with_reducible assumption
    | with_reducible intro _
    | with_reducible apply OutKept.done
    | with_reducible apply kept_armStream
    | dsimp -zeta -letToHave only
    | split)

theorem kept_collect1 {σ : State} {s : State} (x : Nat) (scale : Bool) (hκ : Kept σ s) :
    Kept σ (State.collect1 s x scale) := by
  unfold State.collect1
  repeat' (first
    | with_reducible assumption
    | with_reducible intro _
    | with_reducible apply kept_onStream
    | with_reducible apply kept_onLdCnt
    | (extract_lets +onlyGivenNames x; refine Kept.cut (b := σ) x ?_ (fun hx => ?_); (on_goal 1 => unfold x; clear x); (on_goal 2 => revert hx; generalize x = y; clear x; intro hx))
    | (extract_lets +onlyGivenNames x; subst x)
    | dsimp -zeta -letToHave only
    | split)

theorem kept_collect {σ : State} {s : State} (x : Nat) (hκ : Kept σ s) :
    Kept σ (State.collect s x) := by
  unfold State.collect
  repeat' (first
    | with_reducible assumption
    | with_reducible intro _
    | with_reducible apply kept_collect1)

theorem kept_pauseStream {σ : State} {s : State} (x page : Nat) (c : Stream) (hκ : Kept σ s) :
    Kept σ (State.pauseStream s x page c) := by
  unfold State.pauseStream
  repeat' (first
    | with_reducible assumption
    | with_reducible intro _
    | with_reducible apply kept_pageFault
    | with_reducible apply kept_onCtx)

theorem kept_request {σ : State} {s : State} (x : Nat) (r : LReq) (hκ : Kept σ s) :
    Kept σ (State.request s x r) := by
  unfold State.request
  repeat' (first
    | with_reducible assumption
    | with_reducible intro _
    | with_reducible apply kept_onCtx)

theorem kept_maybeEnding {σ : State} {s : State} (x : Nat) (hκ : Kept σ s) :
    Kept σ (State.maybeEnding s x) := by
  unfold State.maybeEnding
  repeat' (first
    | with_reducible assumption
    | with_reducible intro _
    | with_reducible apply kept_onCtx)

theorem kept_watch {σ : State} {s : State} (cluster : Nat) (hκ : Kept σ s) :
    Kept σ (State.watch s cluster) := by
  unfold State.watch
  repeat' (first
    | with_reducible assumption
    | with_reducible intro _
    | with_reducible apply kept_onStream
    | with_reducible apply Kept.foldl
    | dsimp -zeta -letToHave only
    | split)

theorem kept_depart {σ : State} {s : State} (x : Nat) (c : Stream) (r : LReq) (hκ : Kept σ s) :
    Kept σ (State.depart s x c r) := by
  unfold State.depart
  repeat' (first
    | with_reducible assumption
    | with_reducible intro _
    | with_reducible apply kept_sends
    | with_reducible apply kept_failStream
    | refine kept_sends_eq (e := by with_reducible assumption) (hκ := ?_)
    | dsimp -zeta -letToHave only
    | split)

theorem kept_returns {σ : State} {s : State} (x : Nat) (c : Stream) (r : LReq) (st : Stat) (hκ : Kept σ s) :
    Kept σ (State.returns s x c r st).1 := by
  unfold State.returns
  repeat' (first
    | with_reducible assumption
    | with_reducible intro _
    | with_reducible apply kept_onUnit
    | with_reducible apply kept_sends
    | refine kept_sends_eq (e := by with_reducible assumption) (hκ := ?_)
    | (extract_lets +onlyGivenNames x; refine Kept.cut (b := σ) x ?_ (fun hx => ?_); (on_goal 1 => unfold x; clear x); (on_goal 2 => revert hx; generalize x = y; clear x; intro hx))
    | (extract_lets +onlyGivenNames x; subst x)
    | dsimp -zeta -letToHave only
    | split)

theorem kept_returns_eq {σ : State} {s : State} (x : Nat) (c : Stream) (r : LReq) (st : Stat) {ρ τ} (hκ : Kept σ s) (e : State.returns s x c r st = (τ, ρ)) : Kept σ τ := by
  have := kept_returns (x := x) (c := c) (r := r) (st := st) (hκ := hκ)
  rw [e] at this; exact this

theorem kept_withheld {σ : State} {s : State} (x : Nat) (c : Stream) (hκ : Kept σ s) :
    ∀ t, State.withheld s x c = some t → Kept σ t := by
  intro t e
  unfold State.withheld at e
  generalize (if sdOut c.desc then 2 else 0) = cls at e
  dsimp only at e
  split at e
  · cases e
  · cases e
    exact kept_regStall _ _ _ hκ

theorem kept_issue {σ : State} {s : State} (x : Nat) (scale : Bool) (tag : Nat) (hκ : Kept σ s) :
    Kept σ (State.issue s x scale tag) := by
  unfold State.issue
  repeat' (first
    | with_reducible assumption
    | exact kept_withheld _ _ hκ _ (by assumption)
    | with_reducible intro _
    | with_reducible apply kept_ringWrite
    | with_reducible apply kept_onStream
    | with_reducible apply kept_onLdCnt
    | with_reducible apply kept_failStream
    | with_reducible apply kept_collect
    | with_reducible apply kept_pauseStream
    | with_reducible apply kept_request
    | with_reducible apply kept_maybeEnding
    | with_reducible apply kept_depart
    | (extract_lets +onlyGivenNames x; refine Kept.cut (b := σ) x ?_ (fun hx => ?_); (on_goal 1 => unfold x; clear x); (on_goal 2 => revert hx; generalize x = y; clear x; intro hx))
    | (extract_lets +onlyGivenNames x; subst x)
    | dsimp -zeta -letToHave only
    | split)

theorem kept_passSlot {σ : State} {s : State} (cluster : Nat) (write : Bool) (hκ : Kept σ s) :
    Kept σ (State.passSlot s cluster write) := by
  unfold State.passSlot
  repeat' (first
    | with_reducible assumption
    | with_reducible intro _
    | with_reducible apply kept_onSlots)

theorem kept_execLadleRequestIssue {σ : State} (cluster : Nat) (rates : List (Nat × Nat)) {s : State} (hκ : Kept σ s) :
    OutKept σ (execLadleRequestIssue cluster rates s) := by
  unfold execLadleRequestIssue
  repeat' (first
    | with_reducible assumption
    | with_reducible intro _
    | with_reducible apply OutKept.done
    | with_reducible apply kept_settle
    | with_reducible apply kept_watch
    | with_reducible apply kept_issue
    | with_reducible apply kept_passSlot
    | (extract_lets +onlyGivenNames x; refine Kept.cut (b := σ) x ?_ (fun hx => ?_); (on_goal 1 => unfold x; clear x); (on_goal 2 => revert hx; generalize x = y; clear x; intro hx))
    | (extract_lets +onlyGivenNames x; subst x)
    | dsimp -zeta -letToHave only
    | split)

theorem kept_lineError {σ : State} {s : State} (a : Nat) (err : LineErr) (hκ : Kept σ s) :
    Kept σ (State.lineError s a err) := by
  unfold State.lineError
  repeat' (first
    | with_reducible assumption
    | with_reducible intro _
    | with_reducible apply kept_readLine
    | dsimp -zeta -letToHave only
    | split)

theorem kept_deliverLink {σ : State} {s : State} (x : Nat) (c : Stream) (scale : Bool) (bs : List Byte) (hκ : Kept σ s) :
    Kept σ (State.deliverLink s x c scale bs) := by
  unfold State.deliverLink
  repeat' (first
    | with_reducible assumption
    | with_reducible intro _
    | with_reducible apply kept_ringWrite
    | with_reducible apply kept_onStream
    | with_reducible apply kept_onLdCnt
    | with_reducible apply kept_maybeEnding
    | with_reducible apply kept_watch
    | (extract_lets +onlyGivenNames x; refine Kept.cut (b := σ) x ?_ (fun hx => ?_); (on_goal 1 => unfold x; clear x); (on_goal 2 => revert hx; generalize x = y; clear x; intro hx))
    | (extract_lets +onlyGivenNames x; subst x)
    | dsimp -zeta -letToHave only
    | split)

theorem kept_arrive {σ : State} {s : State} (x : Nat) (r : LReq) (bs : Option (List Byte)) (hκ : Kept σ s) :
    Kept σ (State.arrive s x r bs) := by
  unfold State.arrive
  repeat' (first
    | with_reducible assumption
    | with_reducible intro _
    | with_reducible apply kept_ringWrite
    | with_reducible apply kept_onStream
    | with_reducible apply kept_onLdCnt
    | (extract_lets +onlyGivenNames x; refine Kept.cut (b := σ) x ?_ (fun hx => ?_); (on_goal 1 => unfold x; clear x); (on_goal 2 => revert hx; generalize x = y; clear x; intro hx))
    | (extract_lets +onlyGivenNames x; subst x)
    | dsimp -zeta -letToHave only
    | split)

theorem kept_reissue {σ : State} {s : State} (x : Nat) (c : Stream) (r : LReq) (hκ : Kept σ s) :
    Kept σ (State.reissue s x c r) := by
  unfold State.reissue
  repeat' (first
    | with_reducible assumption
    | with_reducible intro _
    | with_reducible apply kept_settle
    | with_reducible apply kept_uncorrectable
    | with_reducible apply kept_onStream
    | with_reducible apply kept_onLdCnt
    | with_reducible apply kept_failStream
    | with_reducible apply kept_depart
    | (extract_lets +onlyGivenNames x; refine Kept.cut (b := σ) x ?_ (fun hx => ?_); (on_goal 1 => unfold x; clear x); (on_goal 2 => revert hx; generalize x = y; clear x; intro hx))
    | (extract_lets +onlyGivenNames x; subst x)
    | dsimp -zeta -letToHave only
    | split)

theorem kept_serveReq {σ : State} {s : State} (x : Nat) (c : Stream) (r : LReq) (err : LineErr) (hκ : Kept σ s) :
    Kept σ (State.serveReq s x c r err) := by
  have ends : ∀ (st : Stat) (f : State → State) {t : State}, Kept σ t → (∀ u, Kept σ u → Kept σ (f u)) →
      Kept σ (match t.returns x c r st with
        | (s, true) => f s
        | (s, false) => s) := by
    intro st f t ht hf
    split
    next e => exact hf _ (kept_returns_eq (e := e) (hκ := ht))
    next e => exact kept_returns_eq (e := e) (hκ := ht)
  have fails : ∀ (st : Stat) {t : State}, Kept σ t → Kept σ (match t.returns x c r st with
        | (s, true) => (s.failStream x st).settle
        | (s, false) => s) :=
    fun st _ ht => ends st _ ht (fun _ hu => kept_settle (kept_failStream _ _ hu))
  have lands : ∀ (bs : Option (List Byte)) {t : State}, Kept σ t → Kept σ (match t.returns x c r .ok with
        | (s, true) => s.arrive x r bs
        | (s, false) => s) :=
    fun bs _ ht => ends .ok _ ht (fun _ hu => kept_arrive _ _ _ hu)
  unfold State.serveReq
  dsimp only
  split
  · exact lands _ (kept_deliverLink _ _ _ _ hκ)
  · split
    · split
      · exact fails _ hκ
      · split
        · exact lands _ (kept_hostWrite _ _ hκ)
        · exact lands _ hκ
    · split
      · split
        · exact lands _ (kept_devWrite _ _ (kept_reach _ _ hκ))
        · split
          · exact fails _ (kept_lineError _ _ (kept_reach _ _ hκ))
          · exact lands _ (kept_lineError _ _ (kept_reach _ _ hκ))
      · exact fails _ hκ

theorem kept_execLadleResponse {σ : State} (cluster ctx req : Nat) (err : LineErr) (lost : Bool) {s : State} (hκ : Kept σ s) :
    OutKept σ (execLadleResponse cluster ctx req err lost s) := by
  unfold execLadleResponse
  repeat' (first
    | with_reducible assumption
    | with_reducible intro _
    | with_reducible apply OutKept.done
    | with_reducible apply kept_holdLine
    | with_reducible apply kept_watch
    | with_reducible apply kept_reissue
    | with_reducible apply kept_serveReq
    | (extract_lets +onlyGivenNames x; refine Kept.cut (b := σ) x ?_ (fun hx => ?_); (on_goal 1 => unfold x; clear x); (on_goal 2 => revert hx; generalize x = y; clear x; intro hx))
    | (extract_lets +onlyGivenNames x; subst x)
    | dsimp -zeta -letToHave only
    | split)

theorem kept_stalled {σ : State} {s : State} (x : Nat) (y : StallBy) (hκ : Kept σ s) :
    Kept σ (State.stalled s x y) := by
  unfold State.stalled
  repeat' (first
    | with_reducible assumption
    | with_reducible intro _
    | with_reducible apply kept_traceEntry
    | with_reducible apply kept_onStream
    | with_reducible apply kept_onLdCnt
    | with_reducible apply Kept.foldl
    | (extract_lets +onlyGivenNames x; refine Kept.cut (b := σ) x ?_ (fun hx => ?_); (on_goal 1 => unfold x; clear x); (on_goal 2 => revert hx; generalize x = y; clear x; intro hx))
    | (extract_lets +onlyGivenNames x; subst x)
    | dsimp -zeta -letToHave only
    | split)

theorem kept_touch {σ : State} {s : State} (x : Nat) (hκ : Kept σ s) :
    Kept σ (State.touch s x) := by
  unfold State.touch
  repeat' (first
    | with_reducible assumption
    | with_reducible intro _
    | with_reducible apply kept_onCtx
    | with_reducible apply kept_maybeEnding)

theorem kept_consume {σ : State} {s : State} (x n m : Nat) (hκ : Kept σ s) :
    Kept σ (State.consume s x n m) := by
  unfold State.consume
  repeat' (first
    | with_reducible assumption
    | with_reducible intro _
    | with_reducible apply kept_onStream
    | with_reducible apply kept_touch)

theorem kept_produce {σ : State} {s : State} (x : Nat) (bs scl : List Byte) (hκ : Kept σ s) :
    Kept σ (State.produce s x bs scl) := by
  unfold State.produce
  repeat' (first
    | with_reducible assumption
    | with_reducible intro _
    | with_reducible apply kept_ringWrite
    | with_reducible apply kept_onStream
    | with_reducible apply kept_collect
    | with_reducible apply kept_maybeEnding
    | with_reducible apply kept_touch
    | (extract_lets +onlyGivenNames x; refine Kept.cut (b := σ) x ?_ (fun hx => ?_); (on_goal 1 => unfold x; clear x); (on_goal 2 => revert hx; generalize x = y; clear x; intro hx))
    | (extract_lets +onlyGivenNames x; subst x)
    | dsimp -zeta -letToHave only
    | split)

theorem kept_starve {σ : State} {s : State} (x : Nat) (hκ : Kept σ s) :
    Kept σ (State.starve s x) := by
  unfold State.starve
  repeat' (first
    | with_reducible assumption
    | with_reducible intro _
    | with_reducible apply kept_onStream
    | with_reducible apply Kept.foldl
    | dsimp -zeta -letToHave only
    | split)

theorem kept_execPartnerRelease {σ : State} (cluster ctx bytes : Nat) (stall : StallBy) {s : State} (hκ : Kept σ s) :
    OutKept σ (execPartnerRelease cluster ctx bytes stall s) := by
  unfold execPartnerRelease
  repeat' (first
    | with_reducible assumption
    | with_reducible intro _
    | with_reducible apply OutKept.done
    | with_reducible apply kept_onFp
    | with_reducible apply kept_onStream
    | with_reducible apply kept_beyond
    | with_reducible apply kept_collect
    | with_reducible apply kept_stalled
    | with_reducible apply kept_touch
    | with_reducible apply kept_consume
    | with_reducible apply kept_starve
    | (extract_lets +onlyGivenNames x; refine Kept.cut (b := σ) x ?_ (fun hx => ?_); (on_goal 1 => unfold x; clear x); (on_goal 2 => revert hx; generalize x = y; clear x; intro hx))
    | (extract_lets +onlyGivenNames x; subst x)
    | dsimp -zeta -letToHave only
    | split)

theorem kept_execStreamComplete {σ : State} (cluster ctx : Nat) {s : State} (hκ : Kept σ s) :
    OutKept σ (execStreamComplete cluster ctx s) := by
  unfold execStreamComplete
  repeat' (first
    | with_reducible assumption
    | with_reducible intro _
    | with_reducible apply OutKept.done
    | with_reducible apply kept_settle
    | with_reducible apply kept_completeStream
    | (extract_lets +onlyGivenNames x; refine Kept.cut (b := σ) x ?_ (fun hx => ?_); (on_goal 1 => unfold x; clear x); (on_goal 2 => revert hx; generalize x = y; clear x; intro hx))
    | (extract_lets +onlyGivenNames x; subst x)
    | dsimp -zeta -letToHave only
    | split)

theorem kept_unstall {σ : State} {s : State} (k j cycles : Nat) (waits : List (Nat × StallBy)) (hκ : Kept σ s) :
    Kept σ (State.unstall s k j cycles waits) := by
  unfold State.unstall
  repeat' (first
    | with_reducible assumption
    | with_reducible intro _
    | with_reducible apply kept_stalled
    | with_reducible apply Kept.foldl)

end Sys2Proof.Machine
end

