-- ==== Sys2Proof/Laws/KeptHeats.lean ====
section
/-!
SUPPORT. What the operations of Machine/Heats.lean keep.
-/

namespace Sys2Proof.Machine

theorem kept_addHeat {σ : State} {s : State} (k : Nat) (h : Heat) (hκ : Kept σ s) :
    Kept σ (State.addHeat s k h) := by
  unfold State.addHeat
  repeat' (first
    | with_reducible assumption
    | with_reducible intro _
    | with_reducible apply kept_onGraph)

theorem kept_blameStore {σ : State} {s : State} (h : Heat) (hκ : Kept σ s) :
    Kept σ (State.blameStore s h) := by
  unfold State.blameStore
  repeat' (first
    | with_reducible assumption
    | with_reducible intro _
    | with_reducible apply kept_blame
    | with_reducible apply kept_uncorrectable
    | dsimp -zeta -letToHave only
    | split)

theorem kept_takeHeat {σ : State} {s : State} (k : Nat) (hκ : Kept σ s) :
    Kept σ (State.takeHeat s k) := by
  unfold State.takeHeat
  repeat' (first
    | with_reducible assumption
    | with_reducible intro _
    | with_reducible apply kept_loadHeat
    | with_reducible apply kept_flaskFault
    | with_reducible apply kept_blameStore
    | dsimp -zeta -letToHave only
    | split)

theorem kept_execHeatSubmit {σ : State} (cid : Nat) {s : State} (hκ : Kept σ s) :
    OutKept σ (execHeatSubmit cid s) := by
  unfold execHeatSubmit
  repeat' (first
    | with_reducible assumption
    | with_reducible intro _
    | with_reducible apply OutKept.done
    | with_reducible apply kept_onCmd
    | with_reducible apply kept_failCmd
    | with_reducible apply kept_accepted
    | with_reducible apply kept_addHeat
    | with_reducible apply kept_takeHeat
    | (extract_lets +onlyGivenNames x; refine Kept.cut (b := σ) x ?_ (fun hx => ?_); (on_goal 1 => unfold x; clear x); (on_goal 2 => revert hx; generalize x = y; clear x; intro hx))
    | (extract_lets +onlyGivenNames x; subst x)
    | dsimp -zeta -letToHave only
    | split)

theorem kept_execHeatLoadBegin {σ : State} (flask : Nat) {s : State} (hκ : Kept σ s) :
    OutKept σ (execHeatLoadBegin flask s) := by
  unfold execHeatLoadBegin
  repeat' (first
    | with_reducible assumption
    | with_reducible intro _
    | with_reducible apply OutKept.done
    | with_reducible apply kept_onCmd
    | with_reducible apply kept_onHeat
    | with_reducible apply kept_takeHeat
    | (extract_lets +onlyGivenNames x; refine Kept.cut (b := σ) x ?_ (fun hx => ?_); (on_goal 1 => unfold x; clear x); (on_goal 2 => revert hx; generalize x = y; clear x; intro hx))
    | (extract_lets +onlyGivenNames x; subst x)
    | dsimp -zeta -letToHave only
    | split)

theorem kept_execHeatAbort {σ : State} (cid : Nat) {s : State} (hκ : Kept σ s) :
    OutKept σ (execHeatAbort cid s) := by
  unfold execHeatAbort
  repeat' (first
    | with_reducible assumption
    | with_reducible intro _
    | with_reducible apply OutKept.done
    | with_reducible apply kept_onCmd
    | with_reducible apply kept_finish
    | with_reducible apply kept_failCmd
    | with_reducible apply kept_accepted
    | with_reducible apply kept_settle
    | with_reducible apply kept_dropHeld
    | with_reducible apply kept_cutHeat
    | (extract_lets +onlyGivenNames x; refine Kept.cut (b := σ) x ?_ (fun hx => ?_); (on_goal 1 => unfold x; clear x); (on_goal 2 => revert hx; generalize x = y; clear x; intro hx))
    | (extract_lets +onlyGivenNames x; subst x)
    | dsimp -zeta -letToHave only
    | split)

theorem kept_execHeatQuery {σ : State} (cid : Nat) {s : State} (hκ : Kept σ s) :
    OutKept σ (execHeatQuery cid s) := by
  unfold execHeatQuery
  repeat' (first
    | with_reducible assumption
    | with_reducible intro _
    | with_reducible apply OutKept.done
    | with_reducible apply kept_finish
    | with_reducible apply kept_failCmd
    | with_reducible apply kept_accepted
    | dsimp -zeta -letToHave only
    | split)

theorem kept_execHostSignal {σ : State} (flask heat node : Nat) (bad : Bool) {s : State} (hκ : Kept σ s) :
    OutKept σ (execHostSignal flask heat node bad s) := by
  unfold execHostSignal
  repeat' (first
    | with_reducible assumption
    | with_reducible intro _
    | with_reducible apply OutKept.done
    | with_reducible apply kept_hostWrite
    | with_reducible apply kept_endNode
    | with_reducible apply kept_raise
    | with_reducible apply kept_uncorrectable
    | (extract_lets +onlyGivenNames x; refine Kept.cut (b := σ) x ?_ (fun hx => ?_); (on_goal 1 => unfold x; clear x); (on_goal 2 => revert hx; generalize x = y; clear x; intro hx))
    | (extract_lets +onlyGivenNames x; subst x)
    | dsimp -zeta -letToHave only
    | split)

theorem kept_execNodeComplete {σ : State} (flask heat node : Nat) (bad : Bool) {s : State} (hκ : Kept σ s) :
    OutKept σ (execNodeComplete flask heat node bad s) := by
  unfold execNodeComplete
  repeat' (first
    | with_reducible assumption
    | with_reducible intro _
    | with_reducible apply OutKept.done
    | with_reducible apply kept_onHeat
    | with_reducible apply kept_onNode
    | with_reducible apply kept_endHeat
    | with_reducible apply kept_progress
    | with_reducible apply kept_settle
    | with_reducible apply kept_uncorrectable
    | with_reducible apply kept_closeStreams
    | (extract_lets +onlyGivenNames x; refine Kept.cut (b := σ) x ?_ (fun hx => ?_); (on_goal 1 => unfold x; clear x); (on_goal 2 => revert hx; generalize x = y; clear x; intro hx))
    | (extract_lets +onlyGivenNames x; subst x)
    | dsimp -zeta -letToHave only
    | split)

theorem kept_execNodeRecordWrite {σ : State} (flask heat node : Nat) (bad : Bool) {s : State} (hκ : Kept σ s) :
    OutKept σ (execNodeRecordWrite flask heat node bad s) := by
  unfold execNodeRecordWrite
  apply OutKept.done
  dsimp only
  split
  · split
    · exact hκ
    · have key : ∀ (g : Got) (u : State), Kept σ u → Kept σ
          (match g with
            | .wait p => u.pageFault flask p (.record (heatKey flask heat) node) (patienceOf u flask)
            | .ok _ => u.onNode (heatKey flask heat) node (fun x => { x with written := true })
            | .fail st => ((u.onNode (heatKey flask heat) node (fun x => { x with written := true })).endHeat (heatKey flask heat) st node none).settle) := by
        intro g u hu
        split
        · exact kept_pageFault _ _ _ _ hu
        · exact kept_onNode _ _ _ hu
        · exact kept_settle (kept_endHeat _ _ _ _ (kept_onNode _ _ _ hu))
      refine key _ _ ?_
      split
      · exact hκ
      · split
        · exact hκ
        · exact kept_tryWrite _ _ _ hκ
  · exact hκ

theorem kept_execHeatComplete {σ : State} (flask heat : Nat) {s : State} (hκ : Kept σ s) :
    OutKept σ (execHeatComplete flask heat s) := by
  unfold execHeatComplete
  repeat' (first
    | with_reducible assumption
    | with_reducible intro _
    | with_reducible apply OutKept.done
    | with_reducible apply kept_closeHeat
    | (extract_lets +onlyGivenNames x; refine Kept.cut (b := σ) x ?_ (fun hx => ?_); (on_goal 1 => unfold x; clear x); (on_goal 2 => revert hx; generalize x = y; clear x; intro hx))
    | (extract_lets +onlyGivenNames x; subst x)
    | dsimp -zeta -letToHave only
    | split)

theorem kept_execNodeTimeout {σ : State} (flask heat node : Nat) (arrival : Bool) {s : State} (hκ : Kept σ s) :
    OutKept σ (execNodeTimeout flask heat node arrival s) := by
  unfold execNodeTimeout
  repeat' (first
    | with_reducible assumption
    | with_reducible intro _
    | with_reducible apply OutKept.done
    | with_reducible apply kept_until
    | with_reducible apply kept_failNode
    | with_reducible apply kept_settle
    | (extract_lets +onlyGivenNames x; refine Kept.cut (b := σ) x ?_ (fun hx => ?_); (on_goal 1 => unfold x; clear x); (on_goal 2 => revert hx; generalize x = y; clear x; intro hx))
    | (extract_lets +onlyGivenNames x; subst x)
    | dsimp -zeta -letToHave only
    | split)

theorem kept_execHeatTimeout {σ : State} (flask heat : Nat) {s : State} (hκ : Kept σ s) :
    OutKept σ (execHeatTimeout flask heat s) := by
  unfold execHeatTimeout
  repeat' (first
    | with_reducible assumption
    | with_reducible intro _
    | with_reducible apply OutKept.done
    | with_reducible apply kept_until
    | with_reducible apply kept_endHeat
    | with_reducible apply kept_settle
    | with_reducible apply kept_dropHeld
    | (extract_lets +onlyGivenNames x; refine Kept.cut (b := σ) x ?_ (fun hx => ?_); (on_goal 1 => unfold x; clear x); (on_goal 2 => revert hx; generalize x = y; clear x; intro hx))
    | (extract_lets +onlyGivenNames x; subst x)
    | dsimp -zeta -letToHave only
    | split)

theorem kept_execReadyAgeing {σ : State} (flask heat node : Nat) {s : State} (hκ : Kept σ s) :
    OutKept σ (execReadyAgeing flask heat node s) := by
  unfold execReadyAgeing
  repeat' (first
    | with_reducible assumption
    | with_reducible intro _
    | with_reducible apply OutKept.done
    | with_reducible apply kept_until
    | with_reducible apply kept_onNode
    | (extract_lets +onlyGivenNames x; refine Kept.cut (b := σ) x ?_ (fun hx => ?_); (on_goal 1 => unfold x; clear x); (on_goal 2 => revert hx; generalize x = y; clear x; intro hx))
    | (extract_lets +onlyGivenNames x; subst x)
    | dsimp -zeta -letToHave only
    | split)

theorem kept_cmdWaits {σ : State} {s : State} (c : Cmd) (page : Nat) (hκ : Kept σ s) :
    Kept σ (State.cmdWaits s c page) := by
  unfold State.cmdWaits
  repeat' (first
    | with_reducible assumption
    | with_reducible intro _
    | with_reducible apply kept_pageFault
    | dsimp -zeta -letToHave only
    | split)

theorem kept_execPatternRegister {σ : State} (cid : Nat) {s : State} (hκ : Kept σ s) :
    OutKept σ (execPatternRegister cid s) := by
  unfold execPatternRegister
  repeat' (first
    | with_reducible assumption
    | with_reducible intro _
    | with_reducible apply OutKept.done
    | with_reducible apply kept_onGraph
    | with_reducible apply kept_blameFirst
    | with_reducible apply kept_tryWrite
    | with_reducible apply kept_finish
    | with_reducible apply kept_failCmd
    | with_reducible apply kept_accepted
    | with_reducible apply kept_cmdWaits
    | refine kept_tryWrite_eq (e := by with_reducible assumption) (hκ := ?_)
    | (extract_lets +onlyGivenNames x; refine Kept.cut (b := σ) x ?_ (fun hx => ?_); (on_goal 1 => unfold x; clear x); (on_goal 2 => revert hx; generalize x = y; clear x; intro hx))
    | (extract_lets +onlyGivenNames x; subst x)
    | dsimp -zeta -letToHave only
    | split)

theorem kept_execPatternRemove {σ : State} (cid : Nat) {s : State} (hκ : Kept σ s) :
    OutKept σ (execPatternRemove cid s) := by
  unfold execPatternRemove
  repeat' (first
    | with_reducible assumption
    | with_reducible intro _
    | with_reducible apply OutKept.done
    | with_reducible apply kept_onGraph
    | with_reducible apply kept_finish
    | with_reducible apply kept_failCmd
    | with_reducible apply kept_accepted
    | dsimp -zeta -letToHave only
    | split)

end Sys2Proof.Machine
end

