-- ==== Sys2Proof/Laws/KeptMatrix.lean ====
section
/-!
SUPPORT. What the operations of Machine/Matrix.lean keep.
-/

namespace Sys2Proof.Machine

theorem kept_onTile {σ : State} {s : State} (x : Nat) (f : MatrixTile → MatrixTile) (hκ : Kept σ s) :
    Kept σ (State.onTile s x f) := by
  unfold State.onTile
  repeat' (first
    | with_reducible assumption
    | with_reducible intro _
    | with_reducible apply kept_onMt)

theorem kept_startMatrix {σ : State} {s : State} (cluster : Nat) (e : KEntry) (hκ : Kept σ s) :
    Kept σ (State.startMatrix s cluster e) := by
  unfold State.startMatrix
  repeat' (first
    | with_reducible assumption
    | with_reducible intro _
    | with_reducible apply kept_blameFirst
    | with_reducible apply kept_pageFault
    | with_reducible apply kept_endNode
    | with_reducible apply kept_refuse
    | with_reducible apply kept_unqueue
    | with_reducible apply kept_onTile
    | (extract_lets +onlyGivenNames x; refine Kept.cut (b := σ) x ?_ (fun hx => ?_); (on_goal 1 => unfold x; clear x); (on_goal 2 => revert hx; generalize x = y; clear x; intro hx))
    | (extract_lets +onlyGivenNames x; subst x)
    | dsimp -zeta -letToHave only
    | split)

theorem kept_execMatrixNodeStart {σ : State} (cluster : Nat) {s : State} (hκ : Kept σ s) :
    OutKept σ (execMatrixNodeStart cluster s) := by
  unfold execMatrixNodeStart
  repeat' (first
    | with_reducible assumption
    | with_reducible intro _
    | with_reducible apply OutKept.done
    | with_reducible apply kept_startMatrix
    | dsimp -zeta -letToHave only
    | split)

theorem kept_failMatrix {σ : State} {s : State} (r : MxRun) (st : Stat) (hκ : Kept σ s) :
    Kept σ (State.failMatrix s r st) := by
  unfold State.failMatrix
  repeat' (first
    | with_reducible assumption
    | with_reducible intro _
    | with_reducible apply kept_failNode
    | with_reducible apply kept_settle)

theorem kept_onMxRun {σ : State} {s : State} (x : Nat) (f : MxRun → MxRun) (hκ : Kept σ s) :
    Kept σ (State.onMxRun s x f) := by
  unfold State.onMxRun
  repeat' (first
    | with_reducible assumption
    | with_reducible intro _
    | with_reducible apply kept_onTile)

theorem kept_loadRows {σ : State} {s : State} (x : Nat) (r : MxRun) (n w z rows cols : Nat) (hκ : Kept σ s) :
    Kept σ (State.loadRows s x r n w z rows cols) := by
  unfold State.loadRows
  repeat' (first
    | with_reducible assumption
    | with_reducible intro _
    | with_reducible apply kept_consume
    | with_reducible apply kept_onTile
    | with_reducible apply kept_onMxRun)

theorem kept_loadEnd {σ : State} {s : State} (x : Nat) (r : MxRun) (outl : List Byte) (hκ : Kept σ s) :
    Kept σ (State.loadEnd s x r outl) := by
  unfold State.loadEnd
  repeat' (first
    | with_reducible assumption
    | with_reducible intro _
    | with_reducible apply kept_onTile
    | with_reducible apply kept_onMxRun)

theorem kept_loadOutliers {σ : State} {s : State} (x : Nat) (r : MxRun) (p : MxPass) (hκ : Kept σ s) :
    Kept σ (State.loadOutliers s x r p) := by
  unfold State.loadOutliers
  repeat' (first
    | with_reducible assumption
    | with_reducible intro _
    | with_reducible apply kept_settle
    | with_reducible apply kept_beyond
    | with_reducible apply kept_consume
    | with_reducible apply kept_starve
    | with_reducible apply kept_loadEnd
    | (extract_lets +onlyGivenNames x; refine Kept.cut (b := σ) x ?_ (fun hx => ?_); (on_goal 1 => unfold x; clear x); (on_goal 2 => revert hx; generalize x = y; clear x; intro hx))
    | (extract_lets +onlyGivenNames x; subst x)
    | dsimp -zeta -letToHave only
    | split)

theorem kept_loadBlock {σ : State} {s : State} (x : Nat) (r : MxRun) (hκ : Kept σ s) :
    Kept σ (State.loadBlock s x r) := by
  unfold State.loadBlock
  repeat' (first
    | with_reducible assumption
    | with_reducible intro _
    | with_reducible apply kept_settle
    | with_reducible apply kept_beyond
    | with_reducible apply kept_starve
    | with_reducible apply kept_loadRows
    | with_reducible apply kept_loadOutliers
    | (extract_lets +onlyGivenNames x; refine Kept.cut (b := σ) x ?_ (fun hx => ?_); (on_goal 1 => unfold x; clear x); (on_goal 2 => revert hx; generalize x = y; clear x; intro hx))
    | (extract_lets +onlyGivenNames x; subst x)
    | dsimp -zeta -letToHave only
    | split)

theorem kept_execWeightLoadDone {σ : State} (tile : Nat) {s : State} (hκ : Kept σ s) :
    OutKept σ (execWeightLoadDone tile s) := by
  unfold execWeightLoadDone
  repeat' (first
    | with_reducible assumption
    | with_reducible intro _
    | with_reducible apply OutKept.done
    | with_reducible apply kept_loadBlock
    | (extract_lets +onlyGivenNames x; refine Kept.cut (b := σ) x ?_ (fun hx => ?_); (on_goal 1 => unfold x; clear x); (on_goal 2 => revert hx; generalize x = y; clear x; intro hx))
    | (extract_lets +onlyGivenNames x; subst x)
    | dsimp -zeta -letToHave only
    | split)

theorem kept_rowIssue {σ : State} {s : State} (x : Nat) (r : MxRun) (hκ : Kept σ s) :
    Kept σ (State.rowIssue s x r) := by
  unfold State.rowIssue
  repeat' (first
    | with_reducible assumption
    | with_reducible intro _
    | with_reducible apply kept_consume
    | with_reducible apply kept_produce
    | with_reducible apply kept_onTile
    | with_reducible apply Kept.foldl
    | (extract_lets +onlyGivenNames x; refine Kept.cut (b := σ) x ?_ (fun hx => ?_); (on_goal 1 => unfold x; clear x); (on_goal 2 => revert hx; generalize x = y; clear x; intro hx))
    | (extract_lets +onlyGivenNames x; subst x)
    | with_reducible apply Kept.foldl_fst
    | dsimp -zeta -letToHave only
    | split)

theorem kept_tileEcc {σ : State} {s : State} (x : Nat) (ecc : Ecc) (hκ : Kept σ s) :
    ∀ t, State.tileEcc s x ecc = some t → Kept σ t := by
  unfold State.tileEcc
  repeat' (first
    | with_reducible assumption
    | with_reducible intro _
    | (cases ‹(some _ : Option State) = some _›)
    | (cases ‹(none : Option State) = some _›)
    | with_reducible apply kept_uncorrectable
    | with_reducible apply kept_onTile
    | dsimp -zeta -letToHave only
    | split
    | (revert ‹(_ : Option State) = some _›; split))

theorem kept_loopWait {σ : State} {s : State} (x : Nat) (r : MxRun) (loop : Nat) (hκ : Kept σ s) :
    Kept σ (State.loopWait s x r loop) := by
  unfold State.loopWait
  repeat' (first
    | with_reducible assumption
    | with_reducible intro _
    | with_reducible apply kept_onTile
    | (extract_lets +onlyGivenNames x; refine Kept.cut (b := σ) x ?_ (fun hx => ?_); (on_goal 1 => unfold x; clear x); (on_goal 2 => revert hx; generalize x = y; clear x; intro hx))
    | (extract_lets +onlyGivenNames x; subst x)
    | dsimp -zeta -letToHave only
    | split)

theorem kept_execRowCycle {σ : State} (tile : Nat) (ecc : Ecc) (loop : Nat) {s : State} (hκ : Kept σ s) :
    OutKept σ (execRowCycle tile ecc loop s) := by
  unfold execRowCycle
  apply OutKept.done
  split
  · exact hκ
  · split
    · exact hκ
    · split
      · exact kept_settle (kept_beyond _ _ _ _ hκ)
      · exact kept_settle (kept_beyond _ _ _ _ (kept_rowIssue _ _ hκ))
      · exact kept_onTile _ _ (Kept.foldl _ _ hκ (fun _ _ ht => kept_starve _ ht))
      · split
        next e => exact kept_rowIssue _ _ (kept_loopWait _ _ _ (kept_tileEcc _ _ hκ _ e))
        · exact kept_failMatrix _ _ hκ

theorem kept_execTileHoldResume {σ : State} (tile cycles planned : Nat) (waits : List (Nat × StallBy)) {s : State} (hκ : Kept σ s) :
    OutKept σ (execTileHoldResume tile cycles planned waits s) := by
  unfold execTileHoldResume
  repeat' (first
    | with_reducible assumption
    | with_reducible intro _
    | with_reducible apply OutKept.done
    | with_reducible apply kept_unstall
    | with_reducible apply kept_onTile
    | (extract_lets +onlyGivenNames x; refine Kept.cut (b := σ) x ?_ (fun hx => ?_); (on_goal 1 => unfold x; clear x); (on_goal 2 => revert hx; generalize x = y; clear x; intro hx))
    | (extract_lets +onlyGivenNames x; subst x)
    | dsimp -zeta -letToHave only
    | split)

theorem kept_execActivityLevelStep {σ : State} (tile gap : Nat) {s : State} (hκ : Kept σ s) :
    OutKept σ (execActivityLevelStep tile gap s) := by
  unfold execActivityLevelStep
  repeat' (first
    | with_reducible assumption
    | with_reducible intro _
    | with_reducible apply OutKept.done
    | with_reducible apply kept_onTile
    | (extract_lets +onlyGivenNames x; refine Kept.cut (b := σ) x ?_ (fun hx => ?_); (on_goal 1 => unfold x; clear x); (on_goal 2 => revert hx; generalize x = y; clear x; intro hx))
    | (extract_lets +onlyGivenNames x; subst x)
    | dsimp -zeta -letToHave only
    | split)

theorem kept_writeHist {σ : State} {s : State} (flask addr : Nat) (on : Bool) (cs : List Conv) (hκ : Kept σ s) :
    Kept σ (State.writeHist s flask addr on cs).2 := by
  unfold State.writeHist
  repeat' (first
    | with_reducible assumption
    | with_reducible intro _
    | with_reducible apply kept_tryWrite
    | refine kept_tryWrite_eq (e := by with_reducible assumption) (hκ := ?_)
    | dsimp -zeta -letToHave only
    | split)

theorem kept_writeHist_eq {σ : State} {s : State} (flask addr : Nat) (on : Bool) (cs : List Conv) {ρ τ} (hκ : Kept σ s) (e : State.writeHist s flask addr on cs = (ρ, τ)) : Kept σ τ := by
  have := kept_writeHist (flask := flask) (addr := addr) (on := on) (cs := cs) (hκ := hκ) 
  rw [e] at this; exact this

theorem kept_writeScales {σ : State} {s : State} (flask : Nat) (l : List (Nat × W32)) (hκ : Kept σ s) :
    Kept σ (State.writeScales s flask l).2 := by
  induction l generalizing s with
  | nil => exact hκ
  | cons x l ih =>
    unfold State.writeScales
    split
    next e => exact ih (kept_tryPatch_eq (e := e) (hκ := hκ))
    · exact kept_tryPatch _ _ _ hκ

theorem kept_writeScales_eq {σ : State} {s : State} (flask : Nat) (l : List (Nat × W32)) {ρ τ} (hκ : Kept σ s)
    (e : State.writeScales s flask l = (ρ, τ)) : Kept σ τ := by
  have := kept_writeScales flask l hκ
  rw [e] at this; exact this

theorem kept_spoilRerun {σ : State} {s : State} (flask : Nat) (streams : List Stream) (rerun : Bool) (hκ : Kept σ s) :
    Kept σ (State.spoilRerun s flask streams rerun) := by
  unfold State.spoilRerun
  repeat' (first
    | with_reducible assumption
    | with_reducible intro _
    | with_reducible apply kept_undefineRange
    | with_reducible apply Kept.foldl
    | dsimp -zeta -letToHave only
    | split)

theorem kept_nodeWaits {σ : State} {s : State} (k n page : Nat) (hκ : Kept σ s) :
    Kept σ (State.nodeWaits s k n page) := by
  unfold State.nodeWaits
  repeat' (first
    | with_reducible assumption
    | with_reducible intro _
    | with_reducible apply kept_pageFault
    | dsimp -zeta -letToHave only
    | split)

theorem kept_closeMatrix {σ : State} {s : State} (x : Nat) (r : MxRun) (st : Stat) (summary : BitVec 8) (hκ : Kept σ s) :
    Kept σ (State.closeMatrix s x r st summary) := by
  unfold State.closeMatrix
  repeat' (first
    | with_reducible assumption
    | with_reducible intro _
    | with_reducible apply kept_endNode
    | with_reducible apply kept_settle
    | with_reducible apply kept_closeStreams
    | with_reducible apply kept_onTile
    | with_reducible apply kept_spoilRerun)

theorem kept_execMatrixNodeEnd {σ : State} (tile : Nat) {s : State} (hκ : Kept σ s) :
    OutKept σ (execMatrixNodeEnd tile s) := by
  unfold execMatrixNodeEnd
  repeat' (first
    | with_reducible assumption
    | with_reducible intro _
    | with_reducible apply OutKept.done
    | with_reducible apply kept_blameFirst
    | with_reducible apply kept_flushOutputs
    | with_reducible apply kept_rearm
    | with_reducible apply kept_onTile
    | with_reducible apply kept_failMatrix
    | with_reducible apply kept_writeHist
    | with_reducible apply kept_writeScales
    | with_reducible apply kept_nodeWaits
    | with_reducible apply kept_closeMatrix
    | refine kept_writeHist_eq (e := by with_reducible assumption) (hκ := ?_)
    | refine kept_writeScales_eq (e := by with_reducible assumption) (hκ := ?_)
    | (extract_lets +onlyGivenNames x; refine Kept.cut (b := σ) x ?_ (fun hx => ?_); (on_goal 1 => unfold x; clear x); (on_goal 2 => revert hx; generalize x = y; clear x; intro hx))
    | (extract_lets +onlyGivenNames x; subst x)
    | dsimp -zeta -letToHave only
    | split)

end Sys2Proof.Machine
end

