-- ==== Sys2Proof/Laws/KeptHearth.lean ====
section
/-!
SUPPORT. What the operations of Machine/Hearth.lean keep.
-/

namespace Sys2Proof.Machine

theorem kept_onGang {σ : State} {s : State} (h : HNode) (f : Nat → Engine → Engine) (hκ : Kept σ s) :
    Kept σ (State.onGang s h f) := by
  unfold State.onGang
  repeat' (first
    | with_reducible assumption
    | with_reducible intro _
    | with_reducible apply kept_onEngine
    | with_reducible apply Kept.foldl)

theorem kept_failHearth {σ : State} {s : State} (h : HNode) (st : Stat) (e : Option Nat) (hκ : Kept σ s) :
    Kept σ (State.failHearth s h st e) := by
  unfold State.failHearth
  repeat' (first
    | with_reducible assumption
    | with_reducible intro _
    | with_reducible apply kept_failNodeWith
    | with_reducible apply kept_settle)

theorem kept_execHearthGangStart {σ : State} (stack : Nat) {s : State} (hκ : Kept σ s) :
    OutKept σ (execHearthGangStart stack s) := by
  unfold execHearthGangStart
  repeat' (first
    | with_reducible assumption
    | with_reducible intro _
    | with_reducible apply OutKept.done
    | with_reducible apply kept_blame
    | with_reducible apply kept_onDie
    | with_reducible apply kept_onGang
    | with_reducible apply kept_failHearth
    | (extract_lets +onlyGivenNames x; refine Kept.cut (b := σ) x ?_ (fun hx => ?_); (on_goal 1 => unfold x; clear x); (on_goal 2 => revert hx; generalize x = y; clear x; intro hx))
    | (extract_lets +onlyGivenNames x; subst x)
    | dsimp -zeta -letToHave only
    | split)

theorem kept_resultTrips {σ : State} {s : State} (h : HNode) (eng a : Nat) (y : List Byte) (hκ : Kept σ s) :
    Kept σ (State.resultTrips s h eng a y).1 := by
  unfold State.resultTrips
  split
  · exact hκ
  · refine Kept.foldl_fst _ _ hκ (fun acc t hy => ?_)
    split
    · exact hy
    · dsimp only
      split
      next e => exact kept_sends _ _ _ (kept_sends_eq (e := e) (hκ := kept_draw hy))
      next e => exact kept_sends_eq (e := e) (hκ := kept_draw hy)

theorem kept_engineRun {σ : State} {s : State} (h : HNode) (j : Nat) (c : Conv) (hκ : Kept σ s) {ρ τ}
    (e : State.engineRun s h j c = .ok (ρ, τ)) : Kept σ τ := by
  unfold State.engineRun at e
  dsimp only at e
  split at e
  · cases e
  · split at e
    next e1 =>
      have h1 := kept_tryWrite_eq (e := e1) (hκ := hκ)
      split at e
      · split at e
        · cases e
        · cases e
          exact kept_onEngine _ _ (kept_resultTrips _ _ _ _ h1)
      · split at e
        · cases e
        · cases e
          exact kept_onEngine _ _ (kept_resultTrips _ _ _ _ h1)
    · cases e
    · cases e

theorem kept_gangRun {σ : State} {s : State} (h : HNode) (hκ : Kept σ s) {ρ τ}
    (e : State.gangRun s h = .ok (ρ, τ)) : Kept σ τ := by
  unfold State.gangRun at e
  have key : ∀ (l : List Nat) (acc : Except (Stat × Nat) (Conv × State)), (∀ c t, acc = .ok (c, t) → Kept σ t) →
      ∀ c t, l.foldl (fun acc j => match acc with
        | .error e => .error e
        | .ok (c, s) => match State.engineRun s h j c with
          | .ok r => .ok r
          | .error st => .error (st, heFirst h.desc + j)) acc = .ok (c, t) → Kept σ t := by
    intro l
    induction l with
    | nil => exact fun acc h => h
    | cons j l ih =>
      intro acc ha
      refine ih _ (fun c t e => ?_)
      dsimp only at e
      split at e
      · cases e
      · split at e
        next c1 s1 _ r1 e1 =>
          cases e
          exact kept_engineRun h j _ (ha _ _ rfl) e1
        · cases e
  exact key _ _ (fun c t e => by cases e; exact hκ) _ _ e

theorem kept_gangFindings {σ : State} {s : State} (h : HNode) (how : HearthEnd) (hκ : Kept σ s) :
    Kept σ (State.gangFindings s h how) := by
  unfold State.gangFindings
  repeat' (first
    | with_reducible assumption
    | with_reducible intro _
    | with_reducible apply kept_onEngine
    | with_reducible apply kept_checkLine
    | with_reducible apply Kept.foldl
    | (extract_lets +onlyGivenNames x; refine Kept.cut (b := σ) x ?_ (fun hx => ?_); (on_goal 1 => unfold x; clear x); (on_goal 2 => revert hx; generalize x = y; clear x; intro hx))
    | (extract_lets +onlyGivenNames x; subst x)
    | dsimp -zeta -letToHave only
    | split)

theorem kept_blameEngine {σ : State} {s : State} (h : HNode) (e : Nat) (fresh : List Nat) (st : Stat) (hκ : Kept σ s) :
    Kept σ (State.blameEngine s h e fresh st) := by
  unfold State.blameEngine
  repeat' (first
    | with_reducible assumption
    | with_reducible intro _
    | with_reducible apply kept_countPoison
    | with_reducible apply kept_uncorrectable
    | with_reducible apply Kept.foldl
    | dsimp -zeta -letToHave only
    | split)

theorem kept_execHearthNodeEnd {σ : State} (stack run : Nat) (how : HearthEnd) {s : State} (hκ : Kept σ s) :
    OutKept σ (execHearthNodeEnd stack run how s) := by
  unfold execHearthNodeEnd
  repeat' (first
    | with_reducible assumption
    | with_reducible intro _
    | with_reducible apply OutKept.done
    | with_reducible apply kept_onDie
    | with_reducible apply kept_unpin
    | with_reducible apply kept_endNode
    | with_reducible apply kept_uncorrectable
    | with_reducible apply kept_writeHist
    | with_reducible apply kept_failHearth
    | with_reducible apply kept_gangFindings
    | with_reducible apply kept_blameEngine
    | refine kept_writeHist_eq (e := by with_reducible assumption) (hκ := ?_)
    | refine kept_gangRun (e := by with_reducible assumption) (hκ := ?_)
    | (extract_lets +onlyGivenNames x; refine Kept.cut (b := σ) x ?_ (fun hx => ?_); (on_goal 1 => unfold x; clear x); (on_goal 2 => revert hx; generalize x = y; clear x; intro hx))
    | (extract_lets +onlyGivenNames x; subst x)
    | dsimp -zeta -letToHave only
    | split)

theorem kept_unitFailed {σ : State} {s : State} (kind place : Nat) (hκ : Kept σ s) :
    Kept σ (State.unitFailed s kind place) := by
  unfold State.unitFailed
  repeat' (first
    | with_reducible assumption
    | with_reducible intro _
    | with_reducible apply kept_addDefect
    | with_reducible apply kept_devEvent)

theorem kept_execHearthEngineFail {σ : State} (stack engine : Nat) {s : State} (hκ : Kept σ s) :
    OutKept σ (execHearthEngineFail stack engine s) := by
  unfold execHearthEngineFail
  repeat' (first
    | with_reducible assumption
    | with_reducible intro _
    | with_reducible apply OutKept.done
    | with_reducible apply kept_onEngine
    | with_reducible apply kept_failHearth
    | with_reducible apply kept_unitFailed
    | with_reducible apply Kept.foldl
    | (extract_lets +onlyGivenNames x; refine Kept.cut (b := σ) x ?_ (fun hx => ?_); (on_goal 1 => unfold x; clear x); (on_goal 2 => revert hx; generalize x = y; clear x; intro hx))
    | (extract_lets +onlyGivenNames x; subst x)
    | dsimp -zeta -letToHave only
    | split)

theorem kept_execHbmSlotGrant {σ : State} (stack pc : Nat) (claims : SlotClaims) {s : State} (hκ : Kept σ s) :
    OutKept σ (execHbmSlotGrant stack pc claims s) := by
  unfold execHbmSlotGrant
  repeat' (first
    | with_reducible assumption
    | with_reducible intro _
    | with_reducible apply OutKept.done
    | with_reducible apply kept_onDie
    | with_reducible apply kept_onEngine
    | (extract_lets +onlyGivenNames x; refine Kept.cut (b := σ) x ?_ (fun hx => ?_); (on_goal 1 => unfold x; clear x); (on_goal 2 => revert hx; generalize x = y; clear x; intro hx))
    | (extract_lets +onlyGivenNames x; subst x)
    | dsimp -zeta -letToHave only
    | split)

theorem kept_execHbmRefresh {σ : State} (stack pc : Nat) {s : State} (hκ : Kept σ s) :
    OutKept σ (execHbmRefresh stack pc s) := by
  unfold execHbmRefresh
  repeat' (first
    | with_reducible assumption
    | with_reducible intro _
    | with_reducible apply OutKept.done
    | with_reducible apply kept_onCtl
    | with_reducible apply kept_onDie
    | dsimp -zeta -letToHave only
    | split)

end Sys2Proof.Machine
end

