-- ==== Sys2Proof/Laws/KeptVector.lean ====
section
/-!
SUPPORT. What the operations of Machine/Vector.lean keep.
-/

namespace Sys2Proof.Machine

theorem kept_onVtile {σ : State} {s : State} (x : Nat) (f : VectorTile → VectorTile) (hκ : Kept σ s) :
    Kept σ (State.onVtile s x f) := by
  unfold State.onVtile
  repeat' (first
    | with_reducible assumption
    | with_reducible intro _
    | with_reducible apply kept_onVt)

theorem kept_onRun {σ : State} {s : State} (x : Nat) (f : VxRun → VxRun) (hκ : Kept σ s) :
    Kept σ (State.onRun s x f) := by
  unfold State.onRun
  repeat' (first
    | with_reducible assumption
    | with_reducible intro _
    | with_reducible apply kept_onVtile)

theorem kept_failVector {σ : State} {s : State} (x : Nat) (r : VxRun) (st : Stat) (hκ : Kept σ s) :
    Kept σ (State.failVector s x r st) := by
  unfold State.failVector
  repeat' (first
    | with_reducible assumption
    | with_reducible intro _
    | with_reducible apply kept_endNode
    | with_reducible apply kept_stopUnits
    | with_reducible apply kept_settle)

/-- What an instruction comes to keeps. -/
def VResKept (σ : State) : VRes → Prop
  | .go t => Kept σ t
  | .jump t => Kept σ t
  | .stop t => Kept σ t
  | .starve _ => True
  | .page _ => True
  | .fail _ => True

theorem VResKept.go {σ t : State} (h : Kept σ t) : VResKept σ (.go t) := h

theorem VResKept.jump {σ t : State} (h : Kept σ t) : VResKept σ (.jump t) := h

theorem VResKept.stop {σ t : State} (h : Kept σ t) : VResKept σ (.stop t) := h

theorem VResKept.starve {σ : State} (y : Nat) : VResKept σ (.starve y) := trivial

theorem VResKept.page {σ : State} (va : Nat) : VResKept σ (.page va) := trivial

theorem VResKept.fail {σ : State} (st : Stat) : VResKept σ (.fail st) := trivial

theorem kept_issueV {σ : State} {s : State} (i : VIssue) (cls : Nat → Bool) (num : Nat) (regs : VectorTile → W64 → List VReg)
    (body : VectorTile → VxRun → W64 → State → VRes) (hκ : Kept σ s)
    (hb : ∀ v r w t, Kept σ t → VResKept σ (body v r w t)) : Kept σ (State.issueV s i cls num regs body) := by
  unfold State.issueV
  dsimp only
  split
  · exact hκ
  next r _ =>
    split
    · exact hκ
    · split
      · exact kept_failVector _ _ _ hκ
      · split
        · exact hκ
        · have h0 := kept_onVops (b := σ) (fun v => Tab.put v (opKey ((s.vtile i.tile).imem.getD (s.vtile i.tile).pc 0)) num) hκ
          have hu := fun f => kept_unstall (σ := σ) r.heat r.node i.stream i.waits (kept_onVtile i.tile f h0)
          split
          · exact kept_failVector _ _ _ (hu _)
          · exact kept_onVtile _ _ (hu _)
          · have hr := fun f => hb (s.vtile i.tile) r ((s.vtile i.tile).imem.getD (s.vtile i.tile).pc 0) _ (hu f)
            split
            · exact kept_starve _ h0
            · exact kept_nodeWaits _ _ _ h0
            · split
              · exact kept_failVector _ _ _ (hu _)
              · split
                next e => exact kept_onVtile _ _ (kept_onVtile _ _ (e ▸ hr _ : VResKept σ (.go _)))
                next e => exact kept_onVtile _ _ (e ▸ hr _ : VResKept σ (.jump _))
                next e => exact (e ▸ hr _ : VResKept σ (.stop _))
                · exact kept_failVector _ _ _ (hu _)
                · exact hu _

theorem kept_issueT {σ : State} {s : State} (i : VIssue) (cls num : Nat) (regs : VectorTile → W64 → List VReg) (f : VectorTile → VxRun → W64 → Option VectorTile) (hκ : Kept σ s) :
    Kept σ (State.issueT s i cls num regs f) := by
  unfold State.issueT
  repeat' (first
    | with_reducible assumption
    | with_reducible intro _
    | with_reducible apply kept_onVtile
    | with_reducible apply kept_issueV
    | with_reducible apply VResKept.go
    | with_reducible apply VResKept.jump
    | with_reducible apply VResKept.starve
    | with_reducible apply VResKept.page
    | with_reducible apply VResKept.stop
    | with_reducible apply VResKept.fail
    | dsimp -zeta -letToHave only
    | split)

theorem kept_execVectorArithmetic {σ : State} (i : VIssue) (op : VaOp) {s : State} (hκ : Kept σ s) :
    OutKept σ (execVectorArithmetic i op s) := by
  unfold execVectorArithmetic
  repeat' (first
    | with_reducible assumption
    | with_reducible intro _
    | with_reducible apply OutKept.done
    | with_reducible apply kept_issueT)

theorem kept_execVectorInteger {σ : State} (i : VIssue) (op : ViOp) {s : State} (hκ : Kept σ s) :
    OutKept σ (execVectorInteger i op s) := by
  unfold execVectorInteger
  repeat' (first
    | with_reducible assumption
    | with_reducible intro _
    | with_reducible apply OutKept.done
    | with_reducible apply kept_onFree
    | with_reducible apply kept_issueT)

theorem kept_execSpecialFunction {σ : State} (i : VIssue) (fn : SFn) {s : State} (hκ : Kept σ s) :
    OutKept σ (execSpecialFunction i fn s) := by
  unfold execSpecialFunction
  repeat' (first
    | with_reducible assumption
    | with_reducible intro _
    | with_reducible apply OutKept.done
    | with_reducible apply kept_issueT)

theorem kept_execVrsum {σ : State} (i : VIssue) (op : VrOp) {s : State} (hκ : Kept σ s) :
    OutKept σ (execVrsum i op s) := by
  unfold execVrsum
  repeat' (first
    | with_reducible assumption
    | with_reducible intro _
    | with_reducible apply OutKept.done
    | with_reducible apply kept_issueT)

theorem kept_execVrmaxi {σ : State} (i : VIssue) {s : State} (hκ : Kept σ s) :
    OutKept σ (execVrmaxi i s) := by
  unfold execVrmaxi
  repeat' (first
    | with_reducible assumption
    | with_reducible intro _
    | with_reducible apply OutKept.done
    | with_reducible apply kept_draw
    | with_reducible apply kept_issueT)

theorem kept_execVperm {σ : State} (i : VIssue) {s : State} (hκ : Kept σ s) :
    OutKept σ (execVperm i s) := by
  unfold execVperm
  repeat' (first
    | with_reducible assumption
    | with_reducible intro _
    | with_reducible apply OutKept.done
    | with_reducible apply kept_issueT)

theorem kept_execVbcast {σ : State} (i : VIssue) {s : State} (hκ : Kept σ s) :
    OutKept σ (execVbcast i s) := by
  unfold execVbcast
  repeat' (first
    | with_reducible assumption
    | with_reducible intro _
    | with_reducible apply OutKept.done
    | with_reducible apply kept_issueT)

theorem kept_execVrand {σ : State} (i : VIssue) {s : State} (hκ : Kept σ s) :
    OutKept σ (execVrand i s) := by
  unfold execVrand
  repeat' (first
    | with_reducible assumption
    | with_reducible intro _
    | with_reducible apply OutKept.done
    | with_reducible apply kept_onVtile
    | with_reducible apply kept_issueV
    | with_reducible apply VResKept.go
    | with_reducible apply VResKept.jump
    | with_reducible apply VResKept.starve
    | with_reducible apply VResKept.page
    | with_reducible apply VResKept.stop
    | with_reducible apply VResKept.fail
    | with_reducible apply Kept.foldl
    | (extract_lets +onlyGivenNames x; refine Kept.cut (b := σ) x ?_ (fun hx => ?_); (on_goal 1 => unfold x; clear x); (on_goal 2 => revert hx; generalize x = y; clear x; intro hx))
    | (extract_lets +onlyGivenNames x; subst x)
    | dsimp -zeta -letToHave only
    | split)

theorem kept_execVcvt {σ : State} (i : VIssue) {s : State} (hκ : Kept σ s) :
    OutKept σ (execVcvt i s) := by
  unfold execVcvt
  repeat' (first
    | with_reducible assumption
    | with_reducible intro _
    | with_reducible apply OutKept.done
    | with_reducible apply kept_onFree
    | with_reducible apply kept_onVtile
    | with_reducible apply kept_onRun
    | with_reducible apply kept_issueV
    | with_reducible apply VResKept.go
    | with_reducible apply VResKept.jump
    | with_reducible apply VResKept.starve
    | with_reducible apply VResKept.page
    | with_reducible apply VResKept.stop
    | with_reducible apply VResKept.fail
    | with_reducible apply Kept.foldl
    | (extract_lets +onlyGivenNames x; refine Kept.cut (b := σ) x ?_ (fun hx => ?_); (on_goal 1 => unfold x; clear x); (on_goal 2 => revert hx; generalize x = y; clear x; intro hx))
    | (extract_lets +onlyGivenNames x; subst x)
    | dsimp -zeta -letToHave only
    | split)

theorem kept_vtileTrips {σ : State} {s : State} (x : Nat) (l : List Trip) (hκ : Kept σ s) :
    Kept σ (State.vtileTrips s x l) := by
  unfold State.vtileTrips
  repeat' (first
    | with_reducible assumption
    | with_reducible intro _
    | with_reducible apply kept_lineTrips
    | refine kept_lineTrips_eq (e := by with_reducible assumption) (hκ := ?_)
    | dsimp -zeta -letToHave only
    | split)

theorem kept_loadTake {σ : State} {s : State} (x i n : Nat) (inc : Int) (hκ : Kept σ s) :
    Kept σ (State.loadTake s x i n inc).2 := by
  unfold State.loadTake
  repeat' (first
    | with_reducible assumption
    | with_reducible intro _
    | with_reducible apply kept_consume
    | with_reducible apply kept_onVtile
    | with_reducible apply kept_vtileTrips
    | (extract_lets +onlyGivenNames x; refine Kept.cut (b := σ) x ?_ (fun hx => ?_); (on_goal 1 => unfold x; clear x); (on_goal 2 => revert hx; generalize x = y; clear x; intro hx))
    | (extract_lets +onlyGivenNames x; subst x)
    | dsimp -zeta -letToHave only
    | split)

theorem kept_loadTake_eq {σ : State} {s : State} (x i n : Nat) (inc : Int) {ρ τ} (hκ : Kept σ s) (e : State.loadTake s x i n inc = (ρ, τ)) : Kept σ τ := by
  have := kept_loadTake (x := x) (i := i) (n := n) (inc := inc) (hκ := hκ) 
  rw [e] at this; exact this

theorem kept_flushedAll {σ : State} {s : State} (x : Nat) (b : Bool) (hκ : Kept σ s) :
    Kept σ (State.flushedAll s x b) := by
  unfold State.flushedAll
  repeat' (first
    | with_reducible assumption
    | with_reducible intro _
    | with_reducible apply kept_onRun
    | dsimp -zeta -letToHave only
    | split)

theorem kept_execVld {σ : State} (i : VIssue) {s : State} (hκ : Kept σ s) :
    OutKept σ (execVld i s) := by
  unfold execVld
  repeat' (first
    | with_reducible assumption
    | with_reducible intro _
    | with_reducible apply OutKept.done
    | with_reducible apply kept_beyond
    | with_reducible apply kept_starve
    | with_reducible apply kept_onVtile
    | with_reducible apply kept_onRun
    | with_reducible apply kept_issueV
    | with_reducible apply kept_loadTake
    | with_reducible apply kept_flushedAll
    | with_reducible apply VResKept.go
    | with_reducible apply VResKept.jump
    | with_reducible apply VResKept.starve
    | with_reducible apply VResKept.page
    | with_reducible apply VResKept.stop
    | with_reducible apply VResKept.fail
    | refine kept_loadTake_eq (e := by with_reducible assumption) (hκ := ?_)
    | with_reducible apply Kept.foldl
    | (extract_lets +onlyGivenNames x; refine Kept.cut (b := σ) x ?_ (fun hx => ?_); (on_goal 1 => unfold x; clear x); (on_goal 2 => revert hx; generalize x = y; clear x; intro hx))
    | (extract_lets +onlyGivenNames x; subst x)
    | dsimp -zeta -letToHave only
    | split)

theorem kept_handLines {σ : State} {s : State} (x ci : Nat) (lines : List (Nat × List Byte)) (hκ : Kept σ s) :
    Kept σ (State.handLines s x ci lines) := by
  unfold State.handLines
  repeat' (first
    | with_reducible assumption
    | with_reducible intro _
    | with_reducible apply kept_devWrite
    | with_reducible apply kept_produce
    | with_reducible apply kept_onRun
    | with_reducible apply kept_vtileTrips
    | with_reducible apply Kept.foldl
    | (extract_lets +onlyGivenNames x; refine Kept.cut (b := σ) x ?_ (fun hx => ?_); (on_goal 1 => unfold x; clear x); (on_goal 2 => revert hx; generalize x = y; clear x; intro hx))
    | (extract_lets +onlyGivenNames x; subst x)
    | dsimp -zeta -letToHave only
    | split)

theorem kept_storePut {σ : State} {s : State} (x i : Nat) (bs : List (Nat × Byte)) (inc : Int) (hκ : Kept σ s) :
    Kept σ (State.storePut s x i bs inc) := by
  unfold State.storePut
  repeat' (first
    | with_reducible assumption
    | with_reducible intro _
    | with_reducible apply kept_onVtile
    | with_reducible apply kept_onRun
    | with_reducible apply kept_handLines
    | with_reducible apply Kept.foldl
    | (extract_lets +onlyGivenNames x; refine Kept.cut (b := σ) x ?_ (fun hx => ?_); (on_goal 1 => unfold x; clear x); (on_goal 2 => revert hx; generalize x = y; clear x; intro hx))
    | (extract_lets +onlyGivenNames x; subst x)
    | dsimp -zeta -letToHave only
    | split)

theorem kept_execVst {σ : State} (i : VIssue) {s : State} (hκ : Kept σ s) :
    OutKept σ (execVst i s) := by
  unfold execVst
  repeat' (first
    | with_reducible assumption
    | with_reducible intro _
    | with_reducible apply OutKept.done
    | with_reducible apply kept_beyond
    | with_reducible apply kept_starve
    | with_reducible apply kept_onRun
    | with_reducible apply kept_issueV
    | with_reducible apply kept_storePut
    | with_reducible apply VResKept.go
    | with_reducible apply VResKept.jump
    | with_reducible apply VResKept.starve
    | with_reducible apply VResKept.page
    | with_reducible apply VResKept.stop
    | with_reducible apply VResKept.fail
    | (extract_lets +onlyGivenNames x; refine Kept.cut (b := σ) x ?_ (fun hx => ?_); (on_goal 1 => unfold x; clear x); (on_goal 2 => revert hx; generalize x = y; clear x; intro hx))
    | (extract_lets +onlyGivenNames x; subst x)
    | dsimp -zeta -letToHave only
    | split)

theorem kept_execScalarOp {σ : State} (i : VIssue) (op : ScOp) {s : State} (hκ : Kept σ s) :
    OutKept σ (execScalarOp i op s) := by
  unfold execScalarOp
  refine OutKept.done (kept_issueV _ _ _ _ _ (kept_draw hκ) (fun v r w t ht => ?_))
  have word : ∀ (o : ElemOut) (f : W32 → VectorTile → VectorTile), VResKept σ
      (match o with | .word x => .go (t.onVtile i.tile (f x)) | _ => .fail .invalid) := by
    intro o f
    split
    · exact .go (kept_onVtile _ _ ht)
    · exact .fail _
  dsimp only
  split
  case h_17 => split
               · exact .go (kept_onRun _ _ (kept_onVtile _ _ ht))
               · exact .fail _
  case h_18 => split
               · exact .go (kept_onRun _ _ (kept_onVtile _ _ ht))
               · exact .fail _
  all_goals first
    | exact .go (kept_onVtile _ _ ht)
    | exact .fail _

theorem kept_execCset {σ : State} (i : VIssue) (c base len space strm cluster : Nat) {s : State} (hκ : Kept σ s) :
    OutKept σ (execCset i c base len space strm cluster s) := by
  unfold execCset
  repeat' (first
    | with_reducible assumption
    | with_reducible intro _
    | with_reducible apply OutKept.done
    | with_reducible apply kept_issueT)

theorem kept_execAbind {σ : State} (i : VIssue) (a c : Nat) {s : State} (hκ : Kept σ s) :
    OutKept σ (execAbind i a c s) := by
  unfold execAbind
  repeat' (first
    | with_reducible assumption
    | with_reducible intro _
    | with_reducible apply OutKept.done
    | with_reducible apply kept_issueT)

theorem kept_execAmov {σ : State} (i : VIssue) (a : Nat) (v : AVal) {s : State} (hκ : Kept σ s) :
    OutKept σ (execAmov i a v s) := by
  unfold execAmov
  repeat' (first
    | with_reducible assumption
    | with_reducible intro _
    | with_reducible apply OutKept.done
    | with_reducible apply kept_issueT)

theorem kept_execPredicateOp {σ : State} (i : VIssue) (op : PrOp) {s : State} (hκ : Kept σ s) :
    OutKept σ (execPredicateOp i op s) := by
  unfold execPredicateOp
  repeat' (first
    | with_reducible assumption
    | with_reducible intro _
    | with_reducible apply OutKept.done
    | with_reducible apply kept_issueT)

theorem kept_execLoop {σ : State} (i : VIssue) (count body stages : Nat) (rot : Bool) {s : State} (hκ : Kept σ s) :
    OutKept σ (execLoop i count body stages rot s) := by
  unfold execLoop
  repeat' (first
    | with_reducible assumption
    | with_reducible intro _
    | with_reducible apply OutKept.done
    | with_reducible apply kept_onVtile
    | with_reducible apply kept_issueV
    | with_reducible apply VResKept.go
    | with_reducible apply VResKept.jump
    | with_reducible apply VResKept.starve
    | with_reducible apply VResKept.page
    | with_reducible apply VResKept.stop
    | with_reducible apply VResKept.fail
    | (extract_lets +onlyGivenNames x; refine Kept.cut (b := σ) x ?_ (fun hx => ?_); (on_goal 1 => unfold x; clear x); (on_goal 2 => revert hx; generalize x = y; clear x; intro hx))
    | (extract_lets +onlyGivenNames x; subst x)
    | dsimp -zeta -letToHave only
    | split)

theorem kept_execBr {σ : State} (i : VIssue) (target : Nat) (cond : BrCond) {s : State} (hκ : Kept σ s) :
    OutKept σ (execBr i target cond s) := by
  unfold execBr
  repeat' (first
    | with_reducible assumption
    | with_reducible intro _
    | with_reducible apply OutKept.done
    | with_reducible apply kept_onVtile
    | with_reducible apply kept_issueV
    | with_reducible apply VResKept.go
    | with_reducible apply VResKept.jump
    | with_reducible apply VResKept.starve
    | with_reducible apply VResKept.page
    | with_reducible apply VResKept.stop
    | with_reducible apply VResKept.fail
    | dsimp -zeta -letToHave only
    | split)

theorem kept_execCsr {σ : State} (i : VIssue) (write : Bool) (k : Nat) {s : State} (hκ : Kept σ s) :
    OutKept σ (execCsr i write k s) := by
  unfold execCsr
  repeat' (first
    | with_reducible assumption
    | with_reducible intro _
    | with_reducible apply OutKept.done
    | with_reducible apply kept_issueT)

theorem kept_execUnassignedClass {σ : State} (i : VIssue) {s : State} (hκ : Kept σ s) :
    OutKept σ (execUnassignedClass i s) := by
  unfold execUnassignedClass
  repeat' (first
    | with_reducible assumption
    | with_reducible intro _
    | with_reducible apply OutKept.done
    | with_reducible apply kept_issueV
    | with_reducible apply VResKept.go
    | with_reducible apply VResKept.jump
    | with_reducible apply VResKept.starve
    | with_reducible apply VResKept.page
    | with_reducible apply VResKept.stop
    | with_reducible apply VResKept.fail)

theorem kept_startVector {σ : State} {s : State} (cluster : Nat) (e : KEntry) (hκ : Kept σ s) :
    Kept σ (State.startVector s cluster e) := by
  unfold State.startVector
  repeat' (first
    | with_reducible assumption
    | with_reducible intro _
    | with_reducible apply kept_blameFirst
    | with_reducible apply kept_endNode
    | with_reducible apply kept_refuse
    | with_reducible apply kept_unqueue
    | with_reducible apply kept_nodeWaits
    | with_reducible apply kept_onVtile
    | (extract_lets +onlyGivenNames x; refine Kept.cut (b := σ) x ?_ (fun hx => ?_); (on_goal 1 => unfold x; clear x); (on_goal 2 => revert hx; generalize x = y; clear x; intro hx))
    | (extract_lets +onlyGivenNames x; subst x)
    | dsimp -zeta -letToHave only
    | split)

theorem kept_execVectorNodeStart {σ : State} (cluster : Nat) {s : State} (hκ : Kept σ s) :
    OutKept σ (execVectorNodeStart cluster s) := by
  unfold execVectorNodeStart
  repeat' (first
    | with_reducible assumption
    | with_reducible intro _
    | with_reducible apply OutKept.done
    | with_reducible apply kept_startVector
    | dsimp -zeta -letToHave only
    | split)

theorem kept_execProgramFetchDone {σ : State} (tile : Nat) {s : State} (hκ : Kept σ s) :
    OutKept σ (execProgramFetchDone tile s) := by
  unfold execProgramFetchDone
  repeat' (first
    | with_reducible assumption
    | with_reducible intro _
    | with_reducible apply OutKept.done
    | with_reducible apply kept_onFree
    | with_reducible apply kept_blameFirst
    | with_reducible apply kept_pageFault
    | with_reducible apply kept_onVtile
    | with_reducible apply kept_failVector
    | (extract_lets +onlyGivenNames x; refine Kept.cut (b := σ) x ?_ (fun hx => ?_); (on_goal 1 => unfold x; clear x); (on_goal 2 => revert hx; generalize x = y; clear x; intro hx))
    | (extract_lets +onlyGivenNames x; subst x)
    | dsimp -zeta -letToHave only
    | split)

theorem kept_flushAsm {σ : State} {s : State} (x : Nat) (r : VxRun) (hκ : Kept σ s) :
    Kept σ (State.flushAsm s x r).2 := by
  unfold State.flushAsm
  refine Kept.foldl_snd _ _ hκ (fun y ci hy => ?_)
  dsimp only
  split
  · split
    · exact kept_onVtile _ _ (kept_handLines _ _ _ hy)
    · exact hy
  · exact hy

theorem kept_flushAsm_eq {σ : State} {s : State} (x : Nat) (r : VxRun) {ρ τ} (hκ : Kept σ s)
    (e : State.flushAsm s x r = (ρ, τ)) : Kept σ τ := by
  have := kept_flushAsm x r hκ
  rw [e] at this; exact this

theorem kept_spoilVector {σ : State} {s : State} (x : Nat) (r : VxRun) (hκ : Kept σ s) :
    Kept σ (State.spoilVector s x r) := by
  unfold State.spoilVector
  repeat' (first
    | with_reducible assumption
    | with_reducible intro _
    | with_reducible apply kept_undefineRange
    | with_reducible apply kept_undefineLdm
    | with_reducible apply kept_spoilRerun
    | with_reducible apply Kept.foldl
    | (extract_lets +onlyGivenNames x; refine Kept.cut (b := σ) x ?_ (fun hx => ?_); (on_goal 1 => unfold x; clear x); (on_goal 2 => revert hx; generalize x = y; clear x; intro hx))
    | (extract_lets +onlyGivenNames x; subst x)
    | dsimp -zeta -letToHave only
    | split)

theorem kept_closeVector {σ : State} {s : State} (x : Nat) (r : VxRun) (st : Stat) (summary : BitVec 8) (hκ : Kept σ s) :
    Kept σ (State.closeVector s x r st summary) := by
  unfold State.closeVector
  repeat' (first
    | with_reducible assumption
    | with_reducible intro _
    | with_reducible apply kept_endNode
    | with_reducible apply kept_settle
    | with_reducible apply kept_closeStreams
    | with_reducible apply kept_onVtile
    | with_reducible apply kept_spoilVector)

theorem kept_finishVector {σ : State} {s : State} (x : Nat) (r : VxRun) (hκ : Kept σ s) :
    Kept σ (State.finishVector s x r) := by
  unfold State.finishVector
  repeat' (first
    | with_reducible assumption
    | with_reducible intro _
    | with_reducible apply kept_blameFirst
    | with_reducible apply kept_flushOutputs
    | with_reducible apply kept_rearm
    | with_reducible apply kept_writeHist
    | with_reducible apply kept_writeScales
    | with_reducible apply kept_nodeWaits
    | with_reducible apply kept_onVtile
    | with_reducible apply kept_failVector
    | with_reducible apply kept_closeVector
    | refine kept_writeHist_eq (e := by with_reducible assumption) (hκ := ?_)
    | refine kept_writeScales_eq (e := by with_reducible assumption) (hκ := ?_)
    | (extract_lets +onlyGivenNames x; refine Kept.cut (b := σ) x ?_ (fun hx => ?_); (on_goal 1 => unfold x; clear x); (on_goal 2 => revert hx; generalize x = y; clear x; intro hx))
    | (extract_lets +onlyGivenNames x; subst x)
    | dsimp -zeta -letToHave only
    | split)

theorem kept_execEndProgram {σ : State} (i : VIssue) {s : State} (hκ : Kept σ s) :
    OutKept σ (execEndProgram i s) := by
  unfold execEndProgram
  repeat' (first
    | with_reducible assumption
    | with_reducible intro _
    | with_reducible apply OutKept.done
    | with_reducible apply kept_beyond
    | with_reducible apply kept_starve
    | with_reducible apply kept_onRun
    | with_reducible apply kept_issueV
    | with_reducible apply kept_flushAsm
    | with_reducible apply kept_finishVector
    | with_reducible apply VResKept.go
    | with_reducible apply VResKept.jump
    | with_reducible apply VResKept.starve
    | with_reducible apply VResKept.page
    | with_reducible apply VResKept.stop
    | with_reducible apply VResKept.fail
    | refine kept_flushAsm_eq (e := by with_reducible assumption) (hκ := ?_)
    | (extract_lets +onlyGivenNames x; refine Kept.cut (b := σ) x ?_ (fun hx => ?_); (on_goal 1 => unfold x; clear x); (on_goal 2 => revert hx; generalize x = y; clear x; intro hx))
    | (extract_lets +onlyGivenNames x; subst x)
    | dsimp -zeta -letToHave only
    | split)

theorem kept_suspend {σ : State} {s : State} (x : Nat) (r : VxRun) (byYield : Bool) (hκ : Kept σ s) :
    Kept σ (State.suspend s x r byYield).2 := by
  unfold State.suspend
  repeat' (first
    | with_reducible assumption
    | with_reducible intro _
    | with_reducible apply kept_tryWrite
    | with_reducible apply kept_onNode
    | with_reducible apply kept_onVtile
    | refine kept_tryWrite_eq (e := by with_reducible assumption) (hκ := ?_)
    | (extract_lets +onlyGivenNames x; refine Kept.cut (b := σ) x ?_ (fun hx => ?_); (on_goal 1 => unfold x; clear x); (on_goal 2 => revert hx; generalize x = y; clear x; intro hx))
    | (extract_lets +onlyGivenNames x; subst x)
    | dsimp -zeta -letToHave only
    | split)

theorem kept_suspend_eq {σ : State} {s : State} (x : Nat) (r : VxRun) (byYield : Bool) {ρ τ} (hκ : Kept σ s) (e : State.suspend s x r byYield = (ρ, τ)) : Kept σ τ := by
  have := kept_suspend (x := x) (r := r) (byYield := byYield) (hκ := hκ) 
  rw [e] at this; exact this

theorem kept_execYield {σ : State} (i : VIssue) {s : State} (hκ : Kept σ s) :
    OutKept σ (execYield i s) := by
  unfold execYield
  refine OutKept.done (kept_issueV _ _ _ _ _ hκ (fun v r w t ht => ?_))
  dsimp only
  split
  · exact .fail _
  · split
    next e => exact VResKept.jump (kept_suspend_eq (e := e) (hκ := kept_onVtile _ _ ht))
    · exact .page _
    · exact .fail _

theorem kept_execVectorPreempt {σ : State} (tile : Nat) (ecc : Ecc) {s : State} (hκ : Kept σ s) :
    OutKept σ (execVectorPreempt tile ecc s) := by
  unfold execVectorPreempt
  repeat' (first
    | with_reducible assumption
    | with_reducible intro _
    | with_reducible apply OutKept.done
    | with_reducible apply kept_until
    | with_reducible apply kept_uncorrectable
    | with_reducible apply kept_nodeWaits
    | with_reducible apply kept_onVtile
    | with_reducible apply kept_failVector
    | with_reducible apply kept_suspend
    | refine kept_suspend_eq (e := by with_reducible assumption) (hκ := ?_)
    | (extract_lets +onlyGivenNames x; refine Kept.cut (b := σ) x ?_ (fun hx => ?_); (on_goal 1 => unfold x; clear x); (on_goal 2 => revert hx; generalize x = y; clear x; intro hx))
    | (extract_lets +onlyGivenNames x; subst x)
    | dsimp -zeta -letToHave only
    | split)

theorem kept_execVectorResume {σ : State} (tile : Nat) {s : State} (hκ : Kept σ s) :
    OutKept σ (execVectorResume tile s) := by
  unfold execVectorResume
  repeat' (first
    | with_reducible assumption
    | with_reducible intro _
    | with_reducible apply OutKept.done
    | with_reducible apply kept_onNode
    | with_reducible apply kept_onVtile
    | (extract_lets +onlyGivenNames x; refine Kept.cut (b := σ) x ?_ (fun hx => ?_); (on_goal 1 => unfold x; clear x); (on_goal 2 => revert hx; generalize x = y; clear x; intro hx))
    | (extract_lets +onlyGivenNames x; subst x)
    | dsimp -zeta -letToHave only
    | split)

end Sys2Proof.Machine
end

