-- ==== Sys2Proof/Laws/KeptServing.lean ====
section
/-!
SUPPORT. What the operations of Machine/Serving.lean keep.
-/

namespace Sys2Proof.Machine

theorem kept_openSession {σ : State} {s : State} (c : Cmd) (key : Nat) (l : Loop) (hκ : Kept σ s) :
    Kept σ (State.openSession s c key l) := by
  unfold State.openSession
  repeat' (first
    | with_reducible assumption
    | with_reducible intro _
    | with_reducible apply kept_onServing
    | with_reducible apply kept_finish
    | with_reducible apply kept_failCmd
    | (extract_lets +onlyGivenNames x; refine Kept.cut (b := σ) x ?_ (fun hx => ?_); (on_goal 1 => unfold x; clear x); (on_goal 2 => revert hx; generalize x = y; clear x; intro hx))
    | (extract_lets +onlyGivenNames x; subst x)
    | dsimp -zeta -letToHave only
    | split)

theorem kept_execServeOpen {σ : State} (cid : Nat) {s : State} (hκ : Kept σ s) :
    OutKept σ (execServeOpen cid s) := by
  unfold execServeOpen
  repeat' (first
    | with_reducible assumption
    | with_reducible intro _
    | with_reducible apply OutKept.done
    | with_reducible apply kept_blame
    | with_reducible apply kept_failCmd
    | with_reducible apply kept_accepted
    | with_reducible apply kept_cmdWaits
    | with_reducible apply kept_openSession
    | (extract_lets +onlyGivenNames x; refine Kept.cut (b := σ) x ?_ (fun hx => ?_); (on_goal 1 => unfold x; clear x); (on_goal 2 => revert hx; generalize x = y; clear x; intro hx))
    | (extract_lets +onlyGivenNames x; subst x)
    | dsimp -zeta -letToHave only
    | split)

theorem kept_forget {σ : State} {s : State} (n : Nat) (hκ : Kept σ s) :
    Kept σ (State.forget s n) := by
  unfold State.forget
  repeat' (first
    | with_reducible assumption
    | with_reducible intro _
    | with_reducible apply kept_onSession)

theorem kept_spillPages {σ : State} {s : State} (n loop : Nat) (d : List Byte) (late : Bool) (l : List (Nat × Nat)) (hκ : Kept σ s) :
    Kept σ (State.spillPages s n loop d late l).2 := by
  have out : ∀ (a : Nat) {t : State}, Kept σ t → Kept σ (if late then ((none : Option Nat), t.forget n) else (some a, t)).2 := by
    intro a t ht
    split
    · exact kept_forget _ ht
    · exact ht
  induction l generalizing s with
  | nil => exact kept_onSession _ _ hκ
  | cons x l ih =>
    unfold State.spillPages
    dsimp only
    split
    · split
      next e => exact ih (kept_onSession _ _ (kept_tryWrite_eq (e := e) (hκ := hκ)))
      next e => exact out _ (kept_tryWrite_eq (e := e) (hκ := hκ))
      next e => exact kept_forget _ (kept_tryWrite_eq (e := e) (hκ := hκ))
    · exact out _ hκ
    · exact kept_forget _ (kept_blame _ _ _ _ hκ)
    · exact kept_forget _ hκ

theorem kept_spillPages_eq {σ : State} {s : State} (n loop : Nat) (d : List Byte) (late : Bool) (l : List (Nat × Nat)) {ρ τ}
    (hκ : Kept σ s) (e : State.spillPages s n loop d late l = (ρ, τ)) : Kept σ τ := by
  have := kept_spillPages n loop d late l hκ
  rw [e] at this; exact this

theorem kept_poolPage {σ : State} {s : State} (loop : Nat) (d : List Byte) (es : State → Option Nat) (late : Bool) (fuel : Nat)
    (hκ : Kept σ s) : Kept σ (State.poolPage s loop d es late fuel).2 := by
  induction fuel generalizing s with
  | zero => exact hκ
  | succ k ih =>
    unfold State.poolPage
    split
    · exact hκ
    · split
      · exact hκ
      · split
        next e => exact ih (kept_spillPages_eq (e := e) (hκ := hκ))
        next e => exact kept_onSession _ _ (kept_spillPages_eq (e := e) (hκ := hκ))

theorem kept_poolPage_eq {σ : State} {s : State} (loop : Nat) (d : List Byte) (es : State → Option Nat) (late : Bool) (fuel : Nat)
    {ρ τ} (hκ : Kept σ s) (e : State.poolPage s loop d es late fuel = (ρ, τ)) : Kept σ τ := by
  have := kept_poolPage loop d es late fuel hκ
  rw [e] at this; exact this

theorem kept_takePages {σ : State} {s : State} (n loop : Nat) (d : List Byte) (x : Session) (late : Bool) (l : List Nat)
    (hκ : Kept σ s) : Kept σ (State.takePages s n loop d x late l).2 := by
  induction l generalizing s with
  | nil => exact hκ
  | cons k l ih =>
    unfold State.takePages
    dsimp only
    split
    next e => exact kept_onSession _ _ (kept_poolPage_eq (e := e) (hκ := hκ))
    next e => exact kept_onSession _ _ (kept_poolPage_eq (e := e) (hκ := hκ))
    next e => exact ih (kept_onSession _ _ (kept_poolPage_eq (e := e) (hκ := hκ)))

theorem kept_takePages_eq {σ : State} {s : State} (n loop : Nat) (d : List Byte) (x : Session) (late : Bool) (l : List Nat)
    {ρ τ} (hκ : Kept σ s) (e : State.takePages s n loop d x late l = (ρ, τ)) : Kept σ τ := by
  have := kept_takePages n loop d x late l hκ
  rw [e] at this; exact this

theorem kept_execServeRequest {σ : State} (cid : Nat) (bad : Bool) {s : State} (hκ : Kept σ s) :
    OutKept σ (execServeRequest cid bad s) := by
  unfold execServeRequest
  repeat' (first
    | with_reducible assumption
    | with_reducible intro _
    | with_reducible apply OutKept.done
    | with_reducible apply kept_onServing
    | with_reducible apply kept_blame
    | with_reducible apply kept_onCmd
    | with_reducible apply kept_failCmd
    | with_reducible apply kept_accepted
    | with_reducible apply kept_onSession
    | with_reducible apply kept_cmdWaits
    | (extract_lets +onlyGivenNames x; refine Kept.cut (b := σ) x ?_ (fun hx => ?_); (on_goal 1 => unfold x; clear x); (on_goal 2 => revert hx; generalize x = y; clear x; intro hx))
    | (extract_lets +onlyGivenNames x; subst x)
    | dsimp -zeta -letToHave only
    | split)

theorem kept_execServeCancel {σ : State} (cid : Nat) {s : State} (hκ : Kept σ s) :
    OutKept σ (execServeCancel cid s) := by
  unfold execServeCancel
  repeat' (first
    | with_reducible assumption
    | with_reducible intro _
    | with_reducible apply OutKept.done
    | with_reducible apply kept_onCmd
    | with_reducible apply kept_failCmd
    | with_reducible apply kept_accepted
    | with_reducible apply kept_endAtBoundary
    | dsimp -zeta -letToHave only
    | split)

theorem kept_execServeClose {σ : State} (cid : Nat) {s : State} (hκ : Kept σ s) :
    OutKept σ (execServeClose cid s) := by
  unfold execServeClose
  repeat' (first
    | with_reducible assumption
    | with_reducible intro _
    | with_reducible apply OutKept.done
    | with_reducible apply kept_onCmd
    | with_reducible apply kept_finish
    | with_reducible apply kept_failCmd
    | with_reducible apply kept_accepted
    | with_reducible apply kept_dropSession
    | with_reducible apply kept_endAtBoundary
    | dsimp -zeta -letToHave only
    | split)

theorem kept_returnPages {σ : State} {s : State} (n loop : Nat) (d : List Byte) (x : Session) (l : List (Nat × Nat))
    (b : Bool) (hκ : Kept σ s) : Kept σ (State.returnPages s n loop d x l b).2 := by
  induction l generalizing s b with
  | nil => exact hκ
  | cons k l ih =>
    unfold State.returnPages
    dsimp only
    split
    next e => exact kept_onSession _ _ (kept_poolPage_eq (e := e) (hκ := hκ))
    next e => exact kept_onSession _ _ (kept_poolPage_eq (e := e) (hκ := hκ))
    next e =>
      have h1 := kept_poolPage_eq (e := e) (hκ := hκ)
      split
      · split
        next e => exact ih _ (kept_onSession _ _ (kept_tryWrite_eq (e := e) (hκ := h1)))
        next e => exact kept_onSession _ _ (kept_tryWrite_eq (e := e) (hκ := h1))
        next e => exact kept_tryWrite_eq (e := e) (hκ := h1)
      · exact kept_onSession _ _ h1
      · exact kept_blame _ _ _ _ h1

theorem kept_returnPages_eq {σ : State} {s : State} (n loop : Nat) (d : List Byte) (x : Session) (l : List (Nat × Nat))
    (b : Bool) {ρ τ} (hκ : Kept σ s) (e : State.returnPages s n loop d x l b = (ρ, τ)) : Kept σ τ := by
  have := kept_returnPages n loop d x l b hκ
  rw [e] at this; exact this

theorem kept_execUnpark {σ : State} (session : Nat) (bad : Bool) {s : State} (hκ : Kept σ s) :
    OutKept σ (execUnpark session bad s) := by
  unfold execUnpark
  apply OutKept.done
  split
  · exact hκ
  · split
    · exact hκ
    · split
      · exact hκ
      · split
        · exact kept_onSession _ _ (kept_forget _ hκ)
        · split
          · exact hκ
          · split
            next e => exact kept_onSession _ _ (kept_endRequest _ _ _ (kept_returnPages_eq (e := e) (hκ := hκ)))
            next e => exact kept_onSession _ _ (kept_returnPages_eq (e := e) (hκ := hκ))
            next e => exact kept_pageFault _ _ _ _ (kept_returnPages_eq (e := e) (hκ := hκ))
            next e => exact kept_onSession _ _ (kept_forget _ (kept_returnPages_eq (e := e) (hκ := hκ)))

theorem kept_writeAll {σ : State} {s : State} (flask : Nat) (l : List (Nat × List Byte)) (hκ : Kept σ s) :
    Kept σ (State.writeAll s flask l).2 := by
  induction l generalizing s with
  | nil => exact hκ
  | cons x l ih =>
    unfold State.writeAll
    split
    next e => exact ih (kept_tryPatch_eq (e := e) (hκ := hκ))
    · exact kept_tryPatch _ _ _ hκ

theorem kept_writeAll_eq {σ : State} {s : State} (flask : Nat) (l : List (Nat × List Byte)) {ρ τ} (hκ : Kept σ s)
    (e : State.writeAll s flask l = (ρ, τ)) : Kept σ τ := by
  have := kept_writeAll flask l hκ
  rw [e] at this; exact this

theorem kept_loopWaits {σ : State} {s : State} (key what : Nat) (page : Nat) (hκ : Kept σ s) :
    Kept σ (State.loopWaits s key what page) := by
  unfold State.loopWaits
  repeat' (first
    | with_reducible assumption
    | with_reducible intro _
    | with_reducible apply kept_pageFault
    | (extract_lets +onlyGivenNames x; refine Kept.cut (b := σ) x ?_ (fun hx => ?_); (on_goal 1 => unfold x; clear x); (on_goal 2 => revert hx; generalize x = y; clear x; intro hx))
    | (extract_lets +onlyGivenNames x; subst x)
    | dsimp -zeta -letToHave only
    | split)

theorem kept_endNoPages {σ : State} {s : State} (l : List Nat) (hκ : Kept σ s) :
    Kept σ (State.endNoPages s l) := by
  unfold State.endNoPages
  repeat' (first
    | with_reducible assumption
    | with_reducible intro _
    | with_reducible apply kept_endRequest
    | with_reducible apply Kept.foldl)

theorem kept_submitStep {σ : State} {s : State} (key : Nat) (l : Loop) (p : StepPlan) (late : Bool) (hκ : Kept σ s) :
    Kept σ (State.submitStep s key l p late) := by
  unfold State.submitStep
  repeat' (first
    | with_reducible assumption
    | with_reducible intro _
    | with_reducible apply kept_onServing
    | with_reducible apply kept_blame
    | with_reducible apply kept_progress
    | with_reducible apply kept_onSession
    | with_reducible apply kept_flaskFault
    | with_reducible apply kept_uncorrectable
    | with_reducible apply kept_addHeat
    | with_reducible apply kept_writeAll
    | with_reducible apply kept_loopWaits
    | refine kept_writeAll_eq (e := by with_reducible assumption) (hκ := ?_)
    | with_reducible apply Kept.foldl
    | (extract_lets +onlyGivenNames x; refine Kept.cut (b := σ) x ?_ (fun hx => ?_); (on_goal 1 => unfold x; clear x); (on_goal 2 => revert hx; generalize x = y; clear x; intro hx))
    | (extract_lets +onlyGivenNames x; subst x)
    | dsimp -zeta -letToHave only
    | split)

theorem kept_holdReady {σ : State} {s : State} (key : Nat) (hκ : Kept σ s) :
    Kept σ (State.holdReady s key) := by
  unfold State.holdReady
  repeat' (first
    | with_reducible assumption
    | with_reducible intro _
    | with_reducible apply kept_onServing)

theorem kept_formBatch {σ : State} {s : State} (key : Nat) (d : List Byte) (late : Bool) (l : List (Nat × Session)) (k : Nat)
    (acc : List Nat) (hκ : Kept σ s) : Kept σ (State.formBatch s key d late l k acc).2.2 := by
  induction l generalizing s k acc with
  | nil => exact hκ
  | cons x l ih =>
    cases k with
    | zero => exact hκ
    | succ k =>
      unfold State.formBatch
      split
      next e => exact ih _ _ (kept_takePages_eq (e := e) (hκ := hκ))
      next e => exact ih _ _ (kept_endNoPages _ (kept_takePages_eq (e := e) (hκ := hκ)))
      next e => exact kept_takePages_eq (e := e) (hκ := hκ)

theorem kept_formBatch_eq {σ : State} {s : State} (key : Nat) (d : List Byte) (late : Bool) (l : List (Nat × Session)) (k : Nat)
    (acc : List Nat) {ρ γ τ} (hκ : Kept σ s) (e : State.formBatch s key d late l k acc = (ρ, γ, τ)) : Kept σ τ := by
  have := kept_formBatch key d late l k acc hκ
  rw [e] at this; exact this

theorem kept_decodeStep {σ : State} {s : State} (loop : Nat) (late : Bool) (hκ : Kept σ s) :
    Kept σ (State.decodeStep s loop late) := by
  unfold State.decodeStep
  split
  · exact hκ
  · dsimp only
    split
    · exact hκ
    · split
      next e => exact kept_loopWaits _ _ _ (kept_formBatch_eq (e := e) (hκ := kept_holdReady _ hκ))
      next e =>
        have h1 := kept_formBatch_eq (e := e) (hκ := kept_holdReady _ hκ)
        split
        · exact h1
        · exact kept_submitStep _ _ _ _ h1

theorem kept_execDecodeStep {σ : State} (loop : Nat) {s : State} (hκ : Kept σ s) :
    OutKept σ (execDecodeStep loop s) := by
  unfold execDecodeStep
  repeat' (first
    | with_reducible assumption
    | with_reducible intro _
    | with_reducible apply OutKept.done
    | with_reducible apply kept_decodeStep)

theorem kept_prefillStep {σ : State} {s : State} (loop : Nat) (late : Bool) (hκ : Kept σ s) :
    Kept σ (State.prefillStep s loop late) := by
  unfold State.prefillStep
  split
  · exact hκ
  · split
    · exact hκ
    · dsimp only
      split
      · exact hκ
      · split
        next e => exact kept_endNoPages _ (kept_takePages_eq (e := e) (hκ := hκ))
        next e => exact kept_loopWaits _ _ _ (kept_takePages_eq (e := e) (hκ := hκ))
        next e => exact kept_submitStep _ _ _ _ (kept_takePages_eq (e := e) (hκ := hκ))

theorem kept_execPrefillStep {σ : State} (loop : Nat) {s : State} (hκ : Kept σ s) :
    OutKept σ (execPrefillStep loop s) := by
  unfold execPrefillStep
  repeat' (first
    | with_reducible assumption
    | with_reducible intro _
    | with_reducible apply OutKept.done
    | with_reducible apply kept_prefillStep)

theorem kept_postToken {σ : State} {s : State} (n : Nat) (x : Session) (r : Req) (tok pos : Nat) (lp : W32) (flags : Nat) (hκ : Kept σ s) :
    Kept σ (State.postToken s n x r tok pos lp flags) := by
  unfold State.postToken
  repeat' (first
    | with_reducible assumption
    | with_reducible intro _
    | with_reducible apply kept_enter)

theorem kept_rowDone {σ : State} {s : State} (key : Nat) (l : Loop) (st : Step) (i : Nat) (row : Nat × Nat × Nat) (hκ : Kept σ s) :
    Kept σ (State.rowDone s key l st i row) := by
  unfold State.rowDone
  repeat' (first
    | with_reducible assumption
    | with_reducible intro _
    | with_reducible apply kept_blame
    | with_reducible apply kept_tryPatch
    | with_reducible apply kept_onSession
    | with_reducible apply kept_endRequest
    | with_reducible apply kept_stepFailed
    | with_reducible apply kept_postToken
    | refine kept_tryPatch_eq (e := by with_reducible assumption) (hκ := ?_)
    | (extract_lets +onlyGivenNames x; refine Kept.cut (b := σ) x ?_ (fun hx => ?_); (on_goal 1 => unfold x; clear x); (on_goal 2 => revert hx; generalize x = y; clear x; intro hx))
    | (extract_lets +onlyGivenNames x; subst x)
    | dsimp -zeta -letToHave only
    | split)

theorem kept_prefillDone {σ : State} {s : State} (st : Step) (row : Nat × Nat × Nat) (hκ : Kept σ s) :
    Kept σ (State.prefillDone s st row) := by
  unfold State.prefillDone
  repeat' (first
    | with_reducible assumption
    | with_reducible intro _
    | with_reducible apply kept_onSession
    | with_reducible apply kept_endRequest
    | (extract_lets +onlyGivenNames x; refine Kept.cut (b := σ) x ?_ (fun hx => ?_); (on_goal 1 => unfold x; clear x); (on_goal 2 => revert hx; generalize x = y; clear x; intro hx))
    | (extract_lets +onlyGivenNames x; subst x)
    | dsimp -zeta -letToHave only
    | split)

theorem kept_failRows {σ : State} {s : State} (d : List Byte) (st : Step) (e : Stat) (hκ : Kept σ s) :
    Kept σ (State.failRows s d st e) := by
  unfold State.failRows
  repeat' (first
    | with_reducible assumption
    | with_reducible intro _
    | with_reducible apply kept_onSession
    | with_reducible apply kept_stepFailed
    | with_reducible apply Kept.foldl)

theorem kept_leaveStep {σ : State} {s : State} (loop : Nat) (prefill : Bool) (k : Nat) (hκ : Kept σ s) :
    Kept σ (State.leaveStep s loop prefill k) := by
  unfold State.leaveStep
  repeat' (first
    | with_reducible assumption
    | with_reducible intro _
    | with_reducible apply kept_onServing
    | with_reducible apply kept_dropHeat)

theorem kept_endStep {σ : State} {s : State} (loop : Nat) (l : Loop) (prefill : Bool) (k : Nat) (h : Heat) (st : Step) (late : Bool) (hκ : Kept σ s) :
    Kept σ (State.endStep s loop l prefill k h st late) := by
  unfold State.endStep
  repeat' (first
    | with_reducible assumption
    | with_reducible intro _
    | with_reducible apply kept_after
    | with_reducible apply kept_loopWaits
    | with_reducible apply kept_rowDone
    | with_reducible apply kept_prefillDone
    | with_reducible apply kept_failRows
    | with_reducible apply kept_leaveStep
    | with_reducible apply Kept.foldl
    | (extract_lets +onlyGivenNames x; refine Kept.cut (b := σ) x ?_ (fun hx => ?_); (on_goal 1 => unfold x; clear x); (on_goal 2 => revert hx; generalize x = y; clear x; intro hx))
    | (extract_lets +onlyGivenNames x; subst x)
    | dsimp -zeta -letToHave only
    | split)

theorem kept_stepEnd {σ : State} {s : State} (loop : Nat) (prefill late : Bool) (hκ : Kept σ s) :
    Kept σ (State.stepEnd s loop prefill late) := by
  unfold State.stepEnd
  repeat' (first
    | with_reducible assumption
    | with_reducible intro _
    | with_reducible apply kept_dropHeat
    | with_reducible apply kept_endStep
    | dsimp -zeta -letToHave only
    | split)

theorem kept_execStepComplete {σ : State} (loop : Nat) (prefill : Bool) {s : State} (hκ : Kept σ s) :
    OutKept σ (execStepComplete loop prefill s) := by
  unfold execStepComplete
  repeat' (first
    | with_reducible assumption
    | with_reducible intro _
    | with_reducible apply OutKept.done
    | with_reducible apply kept_stepEnd)

theorem kept_dropRows {σ : State} {s : State} (n : Nat) (hκ : Kept σ s) :
    Kept σ (State.dropRows s n) := by
  unfold State.dropRows
  repeat' (first
    | with_reducible assumption
    | with_reducible intro _
    | with_reducible apply kept_onServing)

theorem kept_stackLost {σ : State} {s : State} (k : Nat) (hκ : Kept σ s) :
    Kept σ (State.stackLost s k) := by
  unfold State.stackLost
  repeat' (first
    | with_reducible assumption
    | with_reducible intro _
    | with_reducible apply kept_onSession
    | with_reducible apply kept_endRequest
    | with_reducible apply kept_dropRows
    | with_reducible apply Kept.foldl)

end Sys2Proof.Machine
end

