-- ==== Sys2Proof/Laws/KeptNetwork.lean ====
section
/-!
SUPPORT. What the operations of Machine/Network.lean keep.
-/

namespace Sys2Proof.Machine

theorem kept_enqueue {σ : State} {s : State} (u inp link : Nat) (f : Flit) (hκ : Kept σ s) :
    Kept σ (State.enqueue s u inp link f) := by
  unfold State.enqueue
  repeat' (first
    | with_reducible assumption
    | with_reducible intro _
    | with_reducible apply kept_onUnit)

theorem kept_inject {σ : State} {s : State} (u : Nat) (f : Flit) (hκ : Kept σ s) :
    Kept σ (State.inject s u f) := by
  unfold State.inject
  repeat' (first
    | with_reducible assumption
    | with_reducible intro _
    | with_reducible apply kept_enqueue)

theorem kept_injectPort {σ : State} {s : State} (i port : Nat) (f : Flit) (hκ : Kept σ s) :
    Kept σ (State.injectPort s i port f) := by
  unfold State.injectPort
  repeat' (first
    | with_reducible assumption
    | with_reducible intro _
    | with_reducible apply kept_onUnit
    | with_reducible apply kept_inject)

theorem kept_onPort {σ : State} {s : State} (x : Nat) (f : FPort → FPort) (hκ : Kept σ s) :
    Kept σ (State.onPort s x f) := by
  unfold State.onPort
  repeat' (first
    | with_reducible assumption
    | with_reducible intro _
    | with_reducible apply kept_onFp)

theorem kept_answer {σ : State} {s : State} (x tag op : Nat) (st : Stat) (data : List Byte) (hκ : Kept σ s) :
    Kept σ (State.answer s x tag op st data) := by
  unfold State.answer
  repeat' (first
    | with_reducible assumption
    | with_reducible intro _
    | with_reducible apply kept_inject
    | with_reducible apply kept_onPort
    | (extract_lets +onlyGivenNames x; refine Kept.cut (b := σ) x ?_ (fun hx => ?_); (on_goal 1 => unfold x; clear x); (on_goal 2 => revert hx; generalize x = y; clear x; intro hx))
    | (extract_lets +onlyGivenNames x; subst x)
    | dsimp -zeta -letToHave only
    | split)

theorem kept_portSend {σ : State} {s : State} (x : Nat) (r : PReq) (hκ : Kept σ s) :
    ∀ t, State.portSend s x r = some t → Kept σ t := by
  have go : ∀ (dest addr : Nat) (t : State), (if canInject s (x / 4) (9 + x % 4) (lineFlit x dest (s.fport x) r addr).cls then
      some ((s.onPort x (fun p => { p with outs := p.outs.map (fun q => if q.tag = r.tag then { r with flit := lineFlit x dest (s.fport x) r addr } else q) })).injectPort
        (x / 4) (9 + x % 4) (lineFlit x dest (s.fport x) r addr)) else none) = some t → Kept σ t := by
    intro dest addr t e
    split at e
    · cases e
      exact kept_injectPort _ _ _ (kept_onPort _ _ hκ)
    · cases e
  intro t e
  unfold State.portSend at e
  dsimp only at e
  split at e
  · exact go _ _ _ e
  · split at e
    · cases e
      exact kept_answer _ _ _ _ _ hκ
    · split at e
      · cases e
        exact kept_answer _ _ _ _ _ hκ
      · split at e
        · exact go _ _ _ e
        · exact go _ _ _ e
        · cases e
          exact kept_pageFault _ _ _ _ hκ
        · cases e
          exact hκ

theorem kept_sendTx {σ : State} {s : State} (x cls n : Nat) (hκ : Kept σ s) : Kept σ (State.sendTx x cls n s) := by
  induction n generalizing s with
  | zero => exact hκ
  | succ n ih =>
    unfold State.sendTx
    split
    next e =>
      obtain ⟨r, -, hr⟩ := Option.bind_eq_some_iff.mp e
      exact ih (kept_portSend _ _ hκ _ hr)
    · exact hκ

theorem kept_pumpTx {σ : State} {s : State} (x : Nat) (hκ : Kept σ s) :
    Kept σ (State.pumpTx s x) := by
  unfold State.pumpTx
  repeat' (first
    | with_reducible assumption
    | with_reducible intro _
    | with_reducible apply kept_onPort
    | with_reducible apply kept_sendTx)

theorem kept_respond {σ : State} {s : State} (u : Nat) (f : Flit) (op : Nat) (st : Stat) (data : List Byte) (hκ : Kept σ s) :
    Kept σ (State.respond s u f op st data) := by
  unfold State.respond
  repeat' (first
    | with_reducible assumption
    | with_reducible intro _
    | with_reducible apply kept_inject)

theorem kept_undispatched {σ : State} {s : State} (f : Flit) (hκ : Kept σ s) :
    Kept σ (State.undispatched s f) := by
  unfold State.undispatched
  repeat' (first
    | with_reducible assumption
    | with_reducible intro _
    | with_reducible apply kept_failNode
    | with_reducible apply kept_settle
    | (extract_lets +onlyGivenNames x; refine Kept.cut (b := σ) x ?_ (fun hx => ?_); (on_goal 1 => unfold x; clear x); (on_goal 2 => revert hx; generalize x = y; clear x; intro hx))
    | (extract_lets +onlyGivenNames x; subst x)
    | dsimp -zeta -letToHave only
    | split)

theorem kept_absorb {σ : State} {s : State} (u : Nat) (f : Flit) (hκ : Kept σ s) :
    Kept σ (State.absorb s u f) := by
  unfold State.absorb
  repeat' (first
    | with_reducible assumption
    | with_reducible intro _
    | with_reducible apply kept_onUnit
    | with_reducible apply kept_onPort
    | with_reducible apply kept_respond
    | with_reducible apply kept_undispatched
    | (extract_lets +onlyGivenNames x; refine Kept.cut (b := σ) x ?_ (fun hx => ?_); (on_goal 1 => unfold x; clear x); (on_goal 2 => revert hx; generalize x = y; clear x; intro hx))
    | (extract_lets +onlyGivenNames x; subst x)
    | dsimp -zeta -letToHave only
    | split)

theorem kept_serveLine {σ : State} {s : State} (u : Nat) (f : Flit) (host : Bool) (hκ : Kept σ s) :
    Kept σ (State.serveLine s u f host) := by
  unfold State.serveLine
  repeat' (first
    | with_reducible assumption
    | with_reducible intro _
    | with_reducible apply kept_devWrite
    | with_reducible apply kept_hostWrite
    | with_reducible apply kept_countPoison
    | with_reducible apply kept_uncorrectable
    | with_reducible apply kept_respond
    | dsimp -zeta -letToHave only
    | split)

theorem kept_toPort {σ : State} {s : State} (u x : Nat) (f : Flit) (hκ : Kept σ s) :
    Kept σ (State.toPort s u x f) := by
  unfold State.toPort
  repeat' (first
    | with_reducible assumption
    | with_reducible intro _
    | with_reducible apply kept_onPort
    | with_reducible apply kept_respond
    | with_reducible apply kept_absorb
    | (extract_lets +onlyGivenNames x; refine Kept.cut (b := σ) x ?_ (fun hx => ?_); (on_goal 1 => unfold x; clear x); (on_goal 2 => revert hx; generalize x = y; clear x; intro hx))
    | (extract_lets +onlyGivenNames x; subst x)
    | dsimp -zeta -letToHave only
    | split)

theorem kept_deliver {σ : State} {s : State} (u : Nat) (f : Flit) (hκ : Kept σ s) :
    Kept σ (State.deliver s u f) := by
  unfold State.deliver
  repeat' (first
    | with_reducible assumption
    | with_reducible intro _
    | with_reducible apply kept_absorb
    | with_reducible apply kept_serveLine
    | with_reducible apply kept_toPort
    | (extract_lets +onlyGivenNames x; refine Kept.cut (b := σ) x ?_ (fun hx => ?_); (on_goal 1 => unfold x; clear x); (on_goal 2 => revert hx; generalize x = y; clear x; intro hx))
    | (extract_lets +onlyGivenNames x; subst x)
    | dsimp -zeta -letToHave only
    | split)

theorem kept_granted {σ : State} {s : State} (u out link : Nat) (q : QFlit) (hκ : Kept σ s) :
    Kept σ (State.granted s u out link q) := by
  unfold State.granted
  repeat' (first
    | with_reducible assumption
    | with_reducible intro _
    | with_reducible apply kept_onUnit)

theorem kept_dropped {σ : State} {s : State} (f : Flit) (hκ : Kept σ s) : Kept σ (State.dropped s f) := by
  unfold State.dropped
  repeat' (first
    | with_reducible assumption
    | with_reducible apply kept_onPort
    | split)

theorem kept_moveFlit {σ : State} {s : State} (u out link : Nat) (q : QFlit) (err : FlitErr) (hκ : Kept σ s) :
    Kept σ (State.moveFlit s u out link q err) := by
  unfold State.moveFlit
  repeat' (first
    | with_reducible assumption
    | with_reducible intro _
    | with_reducible apply kept_onUnit
    | with_reducible apply kept_probe
    | with_reducible apply kept_enqueue
    | with_reducible apply kept_deliver
    | with_reducible apply kept_dropped
    | (extract_lets +onlyGivenNames x; refine Kept.cut (b := σ) x ?_ (fun hx => ?_); (on_goal 1 => unfold x; clear x); (on_goal 2 => revert hx; generalize x = y; clear x; intro hx))
    | (extract_lets +onlyGivenNames x; subst x)
    | dsimp -zeta -letToHave only
    | split)

theorem kept_pumpUnit {σ : State} {s : State} (u out : Nat) (hκ : Kept σ s) :
    Kept σ (State.pumpUnit s u out) := by
  unfold State.pumpUnit
  repeat' (first
    | with_reducible assumption
    | with_reducible intro _
    | with_reducible apply kept_regStall
    | with_reducible apply kept_pumpTx
    | with_reducible apply Kept.foldl
    | (extract_lets +onlyGivenNames x; refine Kept.cut (b := σ) x ?_ (fun hx => ?_); (on_goal 1 => unfold x; clear x); (on_goal 2 => revert hx; generalize x = y; clear x; intro hx))
    | (extract_lets +onlyGivenNames x; subst x)
    | dsimp -zeta -letToHave only
    | split)

theorem kept_execFlitForward {σ : State} (unit out link : Nat) (err : FlitErr) {s : State} (hκ : Kept σ s) :
    OutKept σ (execFlitForward unit out link err s) := by
  unfold execFlitForward
  repeat' (first
    | with_reducible assumption
    | with_reducible intro _
    | with_reducible apply OutKept.done
    | with_reducible apply kept_onUnit
    | with_reducible apply kept_granted
    | with_reducible apply kept_moveFlit
    | with_reducible apply kept_pumpUnit
    | (extract_lets +onlyGivenNames x; refine Kept.cut (b := σ) x ?_ (fun hx => ?_); (on_goal 1 => unfold x; clear x); (on_goal 2 => revert hx; generalize x = y; clear x; intro hx))
    | (extract_lets +onlyGivenNames x; subst x)
    | dsimp -zeta -letToHave only
    | split)

theorem kept_portTimeout {σ : State} {s : State} (x : Nat) (r : PReq) (hκ : Kept σ s) :
    Kept σ (State.portTimeout s x r) := by
  unfold State.portTimeout
  repeat' (first
    | with_reducible assumption
    | with_reducible intro _
    | with_reducible apply kept_uncorrectable
    | with_reducible apply kept_onPort
    | with_reducible apply kept_answer
    | with_reducible apply kept_pumpTx
    | (extract_lets +onlyGivenNames x; refine Kept.cut (b := σ) x ?_ (fun hx => ?_); (on_goal 1 => unfold x; clear x); (on_goal 2 => revert hx; generalize x = y; clear x; intro hx))
    | (extract_lets +onlyGivenNames x; subst x)
    | dsimp -zeta -letToHave only
    | split)

theorem kept_execNetworkResponseTimeout {σ : State} (cluster port tag : Nat) {s : State} (hκ : Kept σ s) :
    OutKept σ (execNetworkResponseTimeout cluster port tag s) := by
  unfold execNetworkResponseTimeout
  repeat' (first
    | with_reducible assumption
    | with_reducible intro _
    | with_reducible apply OutKept.done
    | with_reducible apply kept_reissue
    | with_reducible apply kept_portTimeout
    | with_reducible apply kept_settle
    | with_reducible apply kept_failNode
    | (extract_lets +onlyGivenNames x; refine Kept.cut (b := σ) x ?_ (fun hx => ?_); (on_goal 1 => unfold x; clear x); (on_goal 2 => revert hx; generalize x = y; clear x; intro hx))
    | (extract_lets +onlyGivenNames x; subst x)
    | dsimp -zeta -letToHave only
    | split)

end Sys2Proof.Machine
end

