-- ==== Sys2Proof/Laws/KeptFabric.lean ====
section
/-!
SUPPORT. What the operations of Machine/Fabric.lean keep.
-/

namespace Sys2Proof.Machine

theorem kept_txCount {σ : State} {s : State} (x : Nat) (hκ : Kept σ s) :
    Kept σ (State.txCount s x) := by
  unfold State.txCount
  repeat' (first
    | with_reducible assumption
    | with_reducible intro _
    | with_reducible apply kept_onPort)

theorem kept_refuseTx {σ : State} {s : State} (x op : Nat) (tags : List Nat) (hκ : Kept σ s) :
    Kept σ (State.refuseTx s x op tags) := by
  unfold State.refuseTx
  repeat' (first
    | with_reducible assumption
    | with_reducible intro _
    | with_reducible apply kept_onPort
    | with_reducible apply kept_answer
    | with_reducible apply Kept.foldl)

theorem kept_acceptTx {σ : State} {s : State} (x : Nat) (f : Flit) (reqs : List PReq) (hκ : Kept σ s) :
    Kept σ (State.acceptTx s x f reqs) := by
  unfold State.acceptTx
  repeat' (first
    | with_reducible assumption
    | with_reducible intro _
    | with_reducible apply kept_onPort
    | with_reducible apply kept_pumpTx
    | with_reducible apply kept_txCount)

theorem kept_execReadRequest {σ : State} (port : Nat) (lines : List (Nat × Nat)) {s : State} (hκ : Kept σ s) :
    OutKept σ (execReadRequest port lines s) := by
  unfold execReadRequest
  repeat' (first
    | with_reducible assumption
    | with_reducible intro _
    | with_reducible apply OutKept.done
    | with_reducible apply kept_onPort
    | with_reducible apply kept_acceptTx
    | (extract_lets +onlyGivenNames x; refine Kept.cut (b := σ) x ?_ (fun hx => ?_); (on_goal 1 => unfold x; clear x); (on_goal 2 => revert hx; generalize x = y; clear x; intro hx))
    | (extract_lets +onlyGivenNames x; subst x)
    | dsimp -zeta -letToHave only
    | split)

theorem kept_execLineWrite {σ : State} (port va tag : Nat) (data : List Byte) {s : State} (hκ : Kept σ s) :
    OutKept σ (execLineWrite port va tag data s) := by
  unfold execLineWrite
  repeat' (first
    | with_reducible assumption
    | with_reducible intro _
    | with_reducible apply OutKept.done
    | with_reducible apply kept_acceptTx
    | (extract_lets +onlyGivenNames x; refine Kept.cut (b := σ) x ?_ (fun hx => ?_); (on_goal 1 => unfold x; clear x); (on_goal 2 => revert hx; generalize x = y; clear x; intro hx))
    | (extract_lets +onlyGivenNames x; subst x)
    | dsimp -zeta -letToHave only
    | split)

theorem kept_execEndpointMessage {σ : State} (port endpoint tag : Nat) (data : List Byte) {s : State} (hκ : Kept σ s) :
    OutKept σ (execEndpointMessage port endpoint tag data s) := by
  unfold execEndpointMessage
  repeat' (first
    | with_reducible assumption
    | with_reducible intro _
    | with_reducible apply OutKept.done
    | with_reducible apply kept_txCount
    | with_reducible apply kept_refuseTx
    | with_reducible apply kept_acceptTx
    | (extract_lets +onlyGivenNames x; refine Kept.cut (b := σ) x ?_ (fun hx => ?_); (on_goal 1 => unfold x; clear x); (on_goal 2 => revert hx; generalize x = y; clear x; intro hx))
    | (extract_lets +onlyGivenNames x; subst x)
    | dsimp -zeta -letToHave only
    | split)

theorem kept_execStreamOutput {σ : State} (port ctx : Nat) (last : Bool) (data : List Byte) {s : State} (hκ : Kept σ s) :
    OutKept σ (execStreamOutput port ctx last data s) := by
  unfold execStreamOutput
  repeat' (first
    | with_reducible assumption
    | with_reducible intro _
    | with_reducible apply OutKept.done
    | with_reducible apply kept_settle
    | with_reducible apply kept_onStream
    | with_reducible apply kept_beyond
    | with_reducible apply kept_produce
    | with_reducible apply kept_txCount
    | with_reducible apply kept_refuseTx
    | (extract_lets +onlyGivenNames x; refine Kept.cut (b := σ) x ?_ (fun hx => ?_); (on_goal 1 => unfold x; clear x); (on_goal 2 => revert hx; generalize x = y; clear x; intro hx))
    | (extract_lets +onlyGivenNames x; subst x)
    | dsimp -zeta -letToHave only
    | split)

theorem kept_fabricDispatch {σ : State} {s : State} (k n port phase : Nat) (x : Node) (d : List Byte) (hκ : Kept σ s) :
    Kept σ (State.fabricDispatch s k n port phase x d) := by
  unfold State.fabricDispatch
  repeat' (first
    | with_reducible assumption
    | with_reducible intro _
    | with_reducible apply kept_onGraph
    | with_reducible apply kept_inject
    | with_reducible apply kept_onPort
    | with_reducible apply Kept.foldl)

theorem kept_execFabricCompletion {σ : State} (port dtag word : Nat) (result : List Byte) {s : State} (hκ : Kept σ s) :
    OutKept σ (execFabricCompletion port dtag word result s) := by
  unfold execFabricCompletion
  repeat' (first
    | with_reducible assumption
    | with_reducible intro _
    | with_reducible apply OutKept.done
    | with_reducible apply kept_endNode
    | with_reducible apply kept_flushOutputs
    | with_reducible apply kept_settle
    | with_reducible apply kept_failNode
    | refine kept_sends_eq (e := by with_reducible assumption) (hκ := ?_)
    | with_reducible apply kept_onPort
    | with_reducible apply kept_txCount
    | (extract_lets +onlyGivenNames x; refine Kept.cut (b := σ) x ?_ (fun hx => ?_); (on_goal 1 => unfold x; clear x); (on_goal 2 => revert hx; generalize x = y; clear x; intro hx))
    | (extract_lets +onlyGivenNames x; subst x)
    | dsimp -zeta -letToHave only
    | split)

theorem kept_execFabricRxDeliver {σ : State} (port cls waited : Nat) {s : State} (hκ : Kept σ s) :
    OutKept σ (execFabricRxDeliver port cls waited s) := by
  unfold execFabricRxDeliver
  repeat' (first
    | with_reducible assumption
    | with_reducible intro _
    | with_reducible apply OutKept.done
    | with_reducible apply kept_onPort
    | (extract_lets +onlyGivenNames x; refine Kept.cut (b := σ) x ?_ (fun hx => ?_); (on_goal 1 => unfold x; clear x); (on_goal 2 => revert hx; generalize x = y; clear x; intro hx))
    | (extract_lets +onlyGivenNames x; subst x)
    | dsimp -zeta -letToHave only
    | split)

theorem kept_execSinkBoundExpiry {σ : State} (port cls : Nat) {s : State} (hκ : Kept σ s) :
    OutKept σ (execSinkBoundExpiry port cls s) := by
  unfold execSinkBoundExpiry
  repeat' (first
    | with_reducible assumption
    | with_reducible intro _
    | with_reducible apply OutKept.done
    | with_reducible apply kept_flaskFault
    | with_reducible apply kept_onPort
    | (extract_lets +onlyGivenNames x; refine Kept.cut (b := σ) x ?_ (fun hx => ?_); (on_goal 1 => unfold x; clear x); (on_goal 2 => revert hx; generalize x = y; clear x; intro hx))
    | (extract_lets +onlyGivenNames x; subst x)
    | dsimp -zeta -letToHave only
    | split)

theorem kept_execFclkLoss {σ : State} (port : Nat) {s : State} (hκ : Kept σ s) :
    OutKept σ (execFclkLoss port s) := by
  unfold execFclkLoss
  repeat' (first
    | with_reducible assumption
    | with_reducible intro _
    | with_reducible apply OutKept.done
    | with_reducible apply kept_dropFaults
    | with_reducible apply kept_endDtags
    | with_reducible apply kept_onPort
    | (extract_lets +onlyGivenNames x; refine Kept.cut (b := σ) x ?_ (fun hx => ?_); (on_goal 1 => unfold x; clear x); (on_goal 2 => revert hx; generalize x = y; clear x; intro hx))
    | (extract_lets +onlyGivenNames x; subst x)
    | dsimp -zeta -letToHave only
    | split)

theorem kept_execFabricPortEnable {σ : State} (port : Nat) {s : State} (hκ : Kept σ s) :
    OutKept σ (execFabricPortEnable port s) := by
  unfold execFabricPortEnable
  repeat' (first
    | with_reducible assumption
    | with_reducible intro _
    | with_reducible apply OutKept.done
    | with_reducible apply kept_onPort
    | (extract_lets +onlyGivenNames x; refine Kept.cut (b := σ) x ?_ (fun hx => ?_); (on_goal 1 => unfold x; clear x); (on_goal 2 => revert hx; generalize x = y; clear x; intro hx))
    | (extract_lets +onlyGivenNames x; subst x)
    | dsimp -zeta -letToHave only
    | split)

theorem kept_execCaptureSample {σ : State} (cluster : Nat) (data : W64) {s : State} (hκ : Kept σ s) :
    OutKept σ (execCaptureSample cluster data s) := by
  unfold execCaptureSample
  repeat' (first
    | with_reducible assumption
    | with_reducible intro _
    | with_reducible apply OutKept.done
    | with_reducible apply kept_traceEntry
    | with_reducible apply kept_onPort
    | dsimp -zeta -letToHave only
    | split)

theorem kept_meetPortA {σ : State} (addr : Nat) (write : Bool) {s : State} (x : Nat × Bool × W64) (hκ : Kept σ s) :
    Kept σ (State.meetPortA addr write s x) := by
  unfold State.meetPortA
  repeat' (first
    | with_reducible assumption
    | with_reducible intro _
    | with_reducible apply kept_onSprue
    | with_reducible apply kept_drawBytes
    | with_reducible apply kept_devWrite
    | refine kept_drawBytes_eq (e := by with_reducible assumption) (hκ := ?_)
    | (extract_lets +onlyGivenNames x; refine Kept.cut (b := σ) x ?_ (fun hx => ?_); (on_goal 1 => unfold x; clear x); (on_goal 2 => revert hx; generalize x = y; clear x; intro hx))
    | (extract_lets +onlyGivenNames x; subst x)
    | dsimp -zeta -letToHave only
    | split)

theorem kept_execBlockRamWindowAccess {σ : State} (addr : Nat) (write : Bool) (data : List Byte) (portA : List (Nat × Bool × W64)) {s : State} (hκ : Kept σ s) :
    OutKept σ (execBlockRamWindowAccess addr write data portA s) := by
  unfold execBlockRamWindowAccess
  repeat' (first
    | with_reducible assumption
    | with_reducible intro _
    | with_reducible apply OutKept.done
    | with_reducible apply kept_devWrite
    | with_reducible apply kept_meetPortA
    | with_reducible apply Kept.foldl
    | (extract_lets +onlyGivenNames x; refine Kept.cut (b := σ) x ?_ (fun hx => ?_); (on_goal 1 => unfold x; clear x); (on_goal 2 => revert hx; generalize x = y; clear x; intro hx))
    | (extract_lets +onlyGivenNames x; subst x)
    | dsimp -zeta -letToHave only
    | split)

end Sys2Proof.Machine
end

