-- ==== Sys2Proof/Laws/KeptSprue.lean ====
section
/-!
SUPPORT. What the operations of Machine/Sprue.lean keep.
-/

namespace Sys2Proof.Machine

theorem kept_queueLoad {σ : State} {s : State} (c : Cmd) (hκ : Kept σ s) :
    Kept σ (State.queueLoad s c) := by
  unfold State.queueLoad
  repeat' (first
    | with_reducible assumption
    | with_reducible intro _
    | with_reducible apply kept_onSprue
    | with_reducible apply kept_onCmd)

theorem kept_execMouldLoad {σ : State} (cid : Nat) {s : State} (hκ : Kept σ s) :
    OutKept σ (execMouldLoad cid s) := by
  unfold execMouldLoad
  repeat' (first
    | with_reducible assumption
    | with_reducible intro _
    | with_reducible apply OutKept.done
    | with_reducible apply kept_accepted
    | with_reducible apply kept_refuseLoad
    | with_reducible apply kept_queueLoad
    | dsimp -zeta -letToHave only
    | split)

theorem kept_execMouldLoadShell {σ : State} (cid : Nat) {s : State} (hκ : Kept σ s) :
    OutKept σ (execMouldLoadShell cid s) := by
  unfold execMouldLoadShell
  repeat' (first
    | with_reducible assumption
    | with_reducible intro _
    | with_reducible apply OutKept.done
    | with_reducible apply kept_accepted
    | with_reducible apply kept_refuseLoad
    | with_reducible apply kept_queueLoad
    | dsimp -zeta -letToHave only
    | split)

theorem kept_execMouldLoadKey {σ : State} (cid : Nat) {s : State} (hκ : Kept σ s) :
    OutKept σ (execMouldLoadKey cid s) := by
  unfold execMouldLoadKey
  repeat' (first
    | with_reducible assumption
    | with_reducible intro _
    | with_reducible apply OutKept.done
    | with_reducible apply kept_accepted
    | with_reducible apply kept_refuseLoad
    | with_reducible apply kept_queueLoad
    | dsimp -zeta -letToHave only
    | split)

theorem kept_endLoadOf {σ : State} {s : State} (m : Mould) (hκ : Kept σ s) :
    Kept σ (State.endLoadOf s m) := by
  unfold State.endLoadOf
  repeat' (first
    | with_reducible assumption
    | with_reducible intro _
    | with_reducible apply kept_earlyEnd
    | dsimp -zeta -letToHave only
    | split)

theorem kept_execMouldUnload {σ : State} (cid : Nat) {s : State} (hκ : Kept σ s) :
    OutKept σ (execMouldUnload cid s) := by
  unfold execMouldUnload
  repeat' (first
    | with_reducible assumption
    | with_reducible intro _
    | with_reducible apply OutKept.done
    | with_reducible apply kept_finish
    | with_reducible apply kept_failCmd
    | with_reducible apply kept_accepted
    | with_reducible apply kept_tearDown
    | with_reducible apply kept_endLoadOf
    | dsimp -zeta -letToHave only
    | split)

theorem kept_readHeader {σ : State} {s : State} (l : Load) (flask : Nat) (hκ : Kept σ s) :
    Kept σ (State.readHeader s l flask) := by
  unfold State.readHeader
  repeat' (first
    | with_reducible assumption
    | with_reducible intro _
    | with_reducible apply kept_onSprue
    | with_reducible apply kept_after
    | with_reducible apply kept_blame
    | with_reducible apply kept_earlyEnd
    | with_reducible apply kept_cmdWaits
    | (extract_lets +onlyGivenNames x; refine Kept.cut (b := σ) x ?_ (fun hx => ?_); (on_goal 1 => unfold x; clear x); (on_goal 2 => revert hx; generalize x = y; clear x; intro hx))
    | (extract_lets +onlyGivenNames x; subst x)
    | dsimp -zeta -letToHave only
    | split)

theorem kept_execMouldLoadBegin {σ : State} {s : State} (hκ : Kept σ s) :
    OutKept σ (execMouldLoadBegin s) := by
  unfold execMouldLoadBegin
  repeat' (first
    | with_reducible assumption
    | with_reducible intro _
    | with_reducible apply OutKept.done
    | with_reducible apply kept_onSprue
    | with_reducible apply kept_readHeader
    | (extract_lets +onlyGivenNames x; refine Kept.cut (b := σ) x ?_ (fun hx => ?_); (on_goal 1 => unfold x; clear x); (on_goal 2 => revert hx; generalize x = y; clear x; intro hx))
    | (extract_lets +onlyGivenNames x; subst x)
    | dsimp -zeta -letToHave only
    | split)

theorem kept_reserve {σ : State} {s : State} (l : Load) (flask : Nat) (replace : Bool) (hκ : Kept σ s) :
    Kept σ (State.reserve s l flask replace) := by
  unfold State.reserve
  repeat' (first
    | with_reducible assumption
    | with_reducible intro _
    | with_reducible apply kept_onSprue
    | with_reducible apply kept_blankQuarter
    | with_reducible apply kept_holdPin
    | with_reducible apply kept_closePorts
    | with_reducible apply kept_takePlls
    | with_reducible apply kept_raiseVdd
    | with_reducible apply kept_tearDown
    | with_reducible apply Kept.foldl
    | (extract_lets +onlyGivenNames x; refine Kept.cut (b := σ) x ?_ (fun hx => ?_); (on_goal 1 => unfold x; clear x); (on_goal 2 => revert hx; generalize x = y; clear x; intro hx))
    | (extract_lets +onlyGivenNames x; subst x)
    | dsimp -zeta -letToHave only
    | split)

theorem kept_execSignatureVerified {σ : State} {s : State} (hκ : Kept σ s) :
    OutKept σ (execSignatureVerified s) := by
  unfold execSignatureVerified
  repeat' (first
    | with_reducible assumption
    | with_reducible intro _
    | with_reducible apply OutKept.done
    | with_reducible apply kept_onSprue
    | with_reducible apply kept_after
    | with_reducible apply kept_authRecord
    | with_reducible apply kept_earlyEnd
    | with_reducible apply kept_reserve
    | (extract_lets +onlyGivenNames x; refine Kept.cut (b := σ) x ?_ (fun hx => ?_); (on_goal 1 => unfold x; clear x); (on_goal 2 => revert hx; generalize x = y; clear x; intro hx))
    | (extract_lets +onlyGivenNames x; subst x)
    | dsimp -zeta -letToHave only
    | split)

theorem kept_loadDone {σ : State} {s : State} (l : Load) (hκ : Kept σ s) :
    Kept σ (State.loadDone s l) := by
  unfold State.loadDone
  repeat' (first
    | with_reducible assumption
    | with_reducible intro _
    | with_reducible apply kept_onSprue
    | with_reducible apply kept_finish
    | with_reducible apply kept_countLoad)

theorem kept_setKey {σ : State} {s : State} (l : Load) (pl : List Byte) (hκ : Kept σ s) :
    Kept σ (State.setKey s l pl) := by
  unfold State.setKey
  repeat' (first
    | with_reducible assumption
    | with_reducible intro _
    | with_reducible apply kept_onSprue
    | with_reducible apply kept_security
    | with_reducible apply kept_earlyEnd
    | with_reducible apply kept_loadDone
    | (extract_lets +onlyGivenNames x; refine Kept.cut (b := σ) x ?_ (fun hx => ?_); (on_goal 1 => unfold x; clear x); (on_goal 2 => revert hx; generalize x = y; clear x; intro hx))
    | (extract_lets +onlyGivenNames x; subst x)
    | dsimp -zeta -letToHave only
    | split)

theorem kept_recordsDone {σ : State} {s : State} (l : Load) (pl : List Byte) (hκ : Kept σ s) :
    Kept σ (State.recordsDone s l pl) := by
  unfold State.recordsDone
  repeat' (first
    | with_reducible assumption
    | with_reducible intro _
    | with_reducible apply kept_onSprue
    | with_reducible apply kept_onMould
    | with_reducible apply kept_earlyEnd
    | with_reducible apply kept_loadDone
    | with_reducible apply kept_setKey
    | dsimp -zeta -letToHave only
    | split)

theorem kept_execImageRecord {σ : State} {s : State} (hκ : Kept σ s) :
    OutKept σ (execImageRecord s) := by
  unfold execImageRecord
  repeat' (first
    | with_reducible assumption
    | with_reducible intro _
    | with_reducible apply OutKept.done
    | with_reducible apply kept_onSprue
    | with_reducible apply kept_after
    | with_reducible apply kept_blame
    | with_reducible apply kept_putFrame
    | with_reducible apply kept_authRecord
    | with_reducible apply kept_earlyEnd
    | with_reducible apply kept_cmdWaits
    | with_reducible apply kept_recordsDone
    | (extract_lets +onlyGivenNames x; refine Kept.cut (b := σ) x ?_ (fun hx => ?_); (on_goal 1 => unfold x; clear x); (on_goal 2 => revert hx; generalize x = y; clear x; intro hx))
    | (extract_lets +onlyGivenNames x; subst x)
    | dsimp -zeta -letToHave only
    | split)

theorem kept_execPllLock {σ : State} (part pll : Nat) {s : State} (hκ : Kept σ s) :
    OutKept σ (execPllLock part pll s) := by
  unfold execPllLock
  repeat' (first
    | with_reducible assumption
    | with_reducible intro _
    | with_reducible apply OutKept.done
    | with_reducible apply kept_onSprue
    | dsimp -zeta -letToHave only
    | split)

theorem kept_startStep {σ : State} {s : State} (ev : Nat) (f : Nat → Mould → State → State) (hκ : Kept σ s)
    (hf : ∀ n m t, Kept σ t → Kept σ (f n m t)) : Kept σ (State.startStep s ev f) := by
  unfold State.startStep
  split
  · exact hκ
  · dsimp only
    split
    · exact kept_onMould _ _ (hf _ _ _ (kept_after _ hκ))
    · split
      · split
        · exact kept_loadDone _ (kept_onMould _ _ (kept_onMould _ _ (hf _ _ _ (kept_after _ hκ))))
        · exact kept_onMould _ _ (kept_onMould _ _ (hf _ _ _ (kept_after _ hκ)))
      · exact kept_onMould _ _ (kept_onMould _ _ (hf _ _ _ (kept_after _ hκ)))

theorem kept_execLockWait {σ : State} {s : State} (hκ : Kept σ s) :
    OutKept σ (execLockWait s) := by
  unfold execLockWait
  repeat' (first
    | with_reducible assumption
    | with_reducible intro _
    | with_reducible apply OutKept.done
    | with_reducible apply kept_startStep
    | dsimp -zeta -letToHave only
    | split)

theorem kept_execInitEnd {σ : State} {s : State} (hκ : Kept σ s) :
    OutKept σ (execInitEnd s) := by
  unfold execInitEnd
  repeat' (first
    | with_reducible assumption
    | with_reducible intro _
    | with_reducible apply OutKept.done
    | with_reducible apply kept_onMould
    | with_reducible apply kept_startStep)

theorem kept_execWritesOn {σ : State} {s : State} (hκ : Kept σ s) :
    OutKept σ (execWritesOn s) := by
  unfold execWritesOn
  repeat' (first
    | with_reducible assumption
    | with_reducible intro _
    | with_reducible apply OutKept.done
    | with_reducible apply kept_onMould
    | with_reducible apply kept_startStep)

theorem kept_execBorderOpen {σ : State} {s : State} (hκ : Kept σ s) :
    OutKept σ (execBorderOpen s) := by
  unfold execBorderOpen
  repeat' (first
    | with_reducible assumption
    | with_reducible intro _
    | with_reducible apply OutKept.done
    | with_reducible apply kept_onFp
    | with_reducible apply kept_freePin
    | with_reducible apply kept_onMould
    | with_reducible apply kept_startStep
    | with_reducible apply Kept.foldl
    | (extract_lets +onlyGivenNames x; refine Kept.cut (b := σ) x ?_ (fun hx => ?_); (on_goal 1 => unfold x; clear x); (on_goal 2 => revert hx; generalize x = y; clear x; intro hx))
    | (extract_lets +onlyGivenNames x; subst x)
    | dsimp -zeta -letToHave only
    | split)

theorem kept_execVbattLost {σ : State} {s : State} (hκ : Kept σ s) :
    OutKept σ (execVbattLost s) := by
  unfold execVbattLost
  repeat' (first
    | with_reducible assumption
    | with_reducible intro _
    | with_reducible apply OutKept.done
    | with_reducible apply kept_onBoard
    | with_reducible apply kept_onSprue
    | with_reducible apply kept_security)

end Sys2Proof.Machine
end

