-- ==== Sys2Proof/Laws/KeptFirmware.lean ====
section
/-!
SUPPORT. What the operations of Machine/Firmware.lean keep.
-/

namespace Sys2Proof.Machine

theorem kept_fwFail {σ : State} {s : State} (cid : Nat) (source : Nat) (img : List Byte) (st : Stat) (check : Option Nat) (hκ : Kept σ s) :
    Kept σ (State.fwFail s cid source img st check) := by
  unfold State.fwFail
  repeat' (first
    | with_reducible assumption
    | with_reducible intro _
    | with_reducible apply kept_failCmd
    | with_reducible apply kept_authRecord
    | (extract_lets +onlyGivenNames x; refine Kept.cut (b := σ) x ?_ (fun hx => ?_); (on_goal 1 => unfold x; clear x); (on_goal 2 => revert hx; generalize x = y; clear x; intro hx))
    | (extract_lets +onlyGivenNames x; subst x)
    | dsimp -zeta -letToHave only
    | split)

theorem Flash.erase_goldenFw (f : Flash) (n : Nat) : (f.erase n).goldenFw = f.goldenFw := by
  unfold Flash.erase; split
  · rfl
  · split <;> rfl

theorem Flash.erase_goldenShell (f : Flash) (n : Nat) : (f.erase n).goldenShell = f.goldenShell := by
  unfold Flash.erase; split
  · rfl
  · split <;> rfl

theorem kept_fwLoad {σ : State} {s : State} (c : Cmd) (hκ : Kept σ s) : Kept σ (State.fwLoad s c) := by
  unfold State.fwLoad
  split
  · exact kept_failCmd _ _ hκ
  · split
    · exact hκ
    · dsimp only
      split
      · exact kept_fwFail _ _ _ _ _ (kept_blame _ _ _ _ hκ)
      · exact kept_onCmd _ _ (kept_onFlash _ hκ (Flash.erase_goldenFw _ _) (Flash.erase_goldenShell _ _))

theorem kept_execFwLoad {σ : State} (cid : Nat) {s : State} (hκ : Kept σ s) :
    OutKept σ (execFwLoad cid s) := by
  unfold execFwLoad
  repeat' (first
    | with_reducible assumption
    | with_reducible intro _
    | with_reducible apply OutKept.done
    | with_reducible apply kept_accepted
    | with_reducible apply kept_fwLoad)

theorem kept_execFwLoadShell {σ : State} (cid : Nat) {s : State} (hκ : Kept σ s) :
    OutKept σ (execFwLoadShell cid s) := by
  unfold execFwLoadShell
  repeat' (first
    | with_reducible assumption
    | with_reducible intro _
    | with_reducible apply OutKept.done
    | with_reducible apply kept_accepted
    | with_reducible apply kept_fwLoad)

theorem kept_execFwLoadProvisioning {σ : State} (cid : Nat) {s : State} (hκ : Kept σ s) :
    OutKept σ (execFwLoadProvisioning cid s) := by
  unfold execFwLoadProvisioning
  repeat' (first
    | with_reducible assumption
    | with_reducible intro _
    | with_reducible apply OutKept.done
    | with_reducible apply kept_accepted
    | with_reducible apply kept_fwLoad)

theorem kept_burnRecord {σ : State} {s : State} (field : Nat) (hκ : Kept σ s) :
    Kept σ (State.burnRecord s field) := by
  unfold State.burnRecord
  repeat' (first
    | with_reducible assumption
    | with_reducible intro _
    | with_reducible apply kept_security)

theorem kept_onFuseArray {σ s : State} (f : Fuses → Fuses) (hκ : Kept σ s) (hf : Fuses.Le s.fuseArray (f s.fuseArray)) :
    Kept σ (s.onFuseArray f) :=
  hκ.trans ⟨rfl, id, id, id, hf, List.prefix_refl _, id, rfl, rfl⟩

theorem BitVec.and_or_self_left' {n : Nat} (x y : BitVec n) : x &&& (x ||| y) = x := by
  ext i hi; simp; exact fun h => .inl h

theorem Fuses.le_provBurn (f : Fuses) (e : Nat × Nat) : Fuses.Le f (provBurn f e) := by
  unfold provBurn
  dsimp only
  split
  iterate 7 constructor <;> simp +contextual [BitVec.and_or_self_left']
  split
  · constructor <;> try simp
    intro k
    rw [List.getElem?_set]
    split
    next h =>
      subst h
      split
      · simp [BitVec.and_or_self_left']
      next h => simp [List.getElem?_eq_none (Nat.not_lt.mp h)]
    · simp
  · exact .refl _

theorem kept_commitSvn {σ : State} {s : State} (svn : Nat) (hκ : Kept σ s) : Kept σ (State.commitSvn s svn) := by
  unfold State.commitSvn
  split
  · exact hκ
  · refine kept_burnRecord _ (kept_onFuseArray _ hκ ?_)
    constructor <;> simp [BitVec.and_or_self_left']

theorem kept_burnAll {σ : State} {s : State} (body : List Byte) (hκ : Kept σ s) : Kept σ (State.burnAll s body) := by
  unfold State.burnAll
  exact Kept.foldl _ _ hκ (fun t e ht => kept_burnRecord _ (kept_onFuseArray _ ht (Fuses.le_provBurn _ _)))

theorem kept_execFlashProgramDone {σ : State} (cid : Nat) (ok : Bool) {s : State} (hκ : Kept σ s) :
    OutKept σ (execFlashProgramDone cid ok s) := by
  unfold execFlashProgramDone
  repeat' (first
    | with_reducible assumption
    | with_reducible intro _
    | with_reducible apply OutKept.done
    | with_reducible apply kept_finish
    | with_reducible apply kept_fwFail
    | with_reducible apply kept_commitSvn
    | with_reducible apply kept_burnAll
    | with_reducible refine kept_onFlash _ ?_ rfl rfl
    | (extract_lets +onlyGivenNames x; refine Kept.cut (b := σ) x ?_ (fun hx => ?_); (on_goal 1 => unfold x; clear x); (on_goal 2 => revert hx; generalize x = y; clear x; intro hx))
    | (extract_lets +onlyGivenNames x; subst x)
    | dsimp -zeta -letToHave only
    | split)

theorem kept_bootFail {σ : State} {s : State} (r : FwRegion) (hκ : Kept σ s) :
    Kept σ (State.bootFail s r) := by
  unfold State.bootFail
  repeat' (first
    | with_reducible assumption
    | with_reducible intro _
    | with_reducible apply kept_drawBytes
    | with_reducible apply kept_authRecord)

theorem kept_chooseFirmware {σ : State} {s : State} (hκ : Kept σ s) :
    Kept σ (State.chooseFirmware s).2 := by
  unfold State.chooseFirmware
  repeat' (first
    | with_reducible assumption
    | with_reducible intro _
    | with_reducible apply kept_security
    | with_reducible apply kept_bootFail
    | (extract_lets +onlyGivenNames x; refine Kept.cut (b := σ) x ?_ (fun hx => ?_); (on_goal 1 => unfold x; clear x); (on_goal 2 => revert hx; generalize x = y; clear x; intro hx))
    | (extract_lets +onlyGivenNames x; subst x)
    | dsimp -zeta -letToHave only
    | split)

theorem kept_chooseFirmware_eq {σ : State} {s : State} {ρ τ} (hκ : Kept σ s) (e : State.chooseFirmware s = (ρ, τ)) : Kept σ τ := by
  have := kept_chooseFirmware  (hκ := hκ) 
  rw [e] at this; exact this

end Sys2Proof.Machine
end

