-- ==== Sys2Proof/Laws/KeptNimra.lean ====
section
/-!
SUPPORT. What the operations of Machine/Nimra.lean keep.
-/

namespace Sys2Proof.Machine

theorem kept_onColl {σ : State} {s : State} (g : Nat) (f : Coll → Coll) (hκ : Kept σ s) :
    Kept σ (State.onColl s g f) := by
  unfold State.onColl
  repeat' (first
    | with_reducible assumption
    | with_reducible intro _
    | with_reducible apply kept_onNimra)

theorem kept_sendReady {σ : State} {s : State} (g : Nat) (x : Group) (d : List Byte) (r credit : Nat) (hκ : Kept σ s) :
    Kept σ (State.sendReady s g x d r credit) := by
  unfold State.sendReady
  repeat' (first
    | with_reducible assumption
    | with_reducible intro _
    | with_reducible apply kept_post)

theorem kept_endColl {σ : State} {s : State} (c : Coll) (st : Stat) (detail : Nat) (abort : Bool) (hκ : Kept σ s) :
    Kept σ (State.endColl s c st detail abort) := by
  unfold State.endColl
  repeat' (first
    | with_reducible assumption
    | with_reducible intro _
    | with_reducible apply kept_onNimra
    | with_reducible apply kept_dropFaults
    | with_reducible apply kept_sendAborts
    | with_reducible apply kept_undefineRange
    | with_reducible apply kept_endNode
    | with_reducible apply Kept.foldl
    | (extract_lets +onlyGivenNames x; refine Kept.cut (b := σ) x ?_ (fun hx => ?_); (on_goal 1 => unfold x; clear x); (on_goal 2 => revert hx; generalize x = y; clear x; intro hx))
    | (extract_lets +onlyGivenNames x; subst x)
    | dsimp -zeta -letToHave only
    | split)

theorem kept_losePeer {σ : State} {s : State} (node : Nat) (hκ : Kept σ s) :
    Kept σ (State.losePeer s node) := by
  unfold State.losePeer
  repeat' (first
    | with_reducible assumption
    | with_reducible intro _
    | with_reducible apply kept_onNimra
    | with_reducible apply kept_endColl
    | with_reducible apply Kept.foldl
    | (extract_lets +onlyGivenNames x; refine Kept.cut (b := σ) x ?_ (fun hx => ?_); (on_goal 1 => unfold x; clear x); (on_goal 2 => revert hx; generalize x = y; clear x; intro hx))
    | (extract_lets +onlyGivenNames x; subst x)
    | with_reducible apply Kept.foldl_fst
    | dsimp -zeta -letToHave only
    | split)

theorem kept_railDown {σ : State} {s : State} (n node : Nat) (hκ : Kept σ s) :
    Kept σ (State.railDown s n node) := by
  unfold State.railDown
  repeat' (first
    | with_reducible assumption
    | with_reducible intro _
    | with_reducible apply kept_onPeer
    | with_reducible apply kept_post
    | with_reducible apply kept_losePeer
    | with_reducible apply Kept.foldl
    | (extract_lets +onlyGivenNames x; refine Kept.cut (b := σ) x ?_ (fun hx => ?_); (on_goal 1 => unfold x; clear x); (on_goal 2 => revert hx; generalize x = y; clear x; intro hx))
    | (extract_lets +onlyGivenNames x; subst x)
    | dsimp -zeta -letToHave only
    | split)

theorem kept_portDown {σ : State} {s : State} (n : Nat) (hκ : Kept σ s) :
    Kept σ (State.portDown s n) := by
  unfold State.portDown
  repeat' (first
    | with_reducible assumption
    | with_reducible intro _
    | with_reducible apply kept_onNimra
    | with_reducible apply kept_post
    | with_reducible apply kept_losePeer
    | with_reducible apply Kept.foldl
    | (extract_lets +onlyGivenNames x; refine Kept.cut (b := σ) x ?_ (fun hx => ?_); (on_goal 1 => unfold x; clear x); (on_goal 2 => revert hx; generalize x = y; clear x; intro hx))
    | (extract_lets +onlyGivenNames x; subst x)
    | dsimp -zeta -letToHave only
    | split)

theorem kept_resend {σ : State} {s : State} (n node : Nat) (x : Sent) (paused : Bool) (hκ : Kept σ s) :
    Kept σ (State.resend s n node x paused) := by
  unfold State.resend
  repeat' (first
    | with_reducible assumption
    | with_reducible intro _
    | with_reducible apply kept_onEport
    | with_reducible apply kept_onPeer
    | with_reducible apply kept_sendSeq
    | with_reducible apply kept_sends
    | with_reducible apply kept_railDown
    | refine kept_sends_eq (e := by with_reducible assumption) (hκ := ?_)
    | dsimp -zeta -letToHave only
    | split)

theorem kept_acked {σ : State} {s : State} (n : Nat) (p : NPacket) (rtt : Nat) (hκ : Kept σ s) :
    Kept σ (State.acked s n p rtt) := by
  unfold State.acked
  repeat' (first
    | with_reducible assumption
    | with_reducible intro _
    | with_reducible apply kept_onPeer
    | with_reducible apply kept_onColl
    | with_reducible apply kept_resend
    | with_reducible apply Kept.foldl)

theorem kept_emptyPeer {σ : State} {s : State} (node : Nat) (ep : Nat) (hκ : Kept σ s) :
    Kept σ (State.emptyPeer s node ep) := by
  unfold State.emptyPeer
  repeat' (first
    | with_reducible assumption
    | with_reducible intro _
    | with_reducible apply kept_onNimra)

theorem kept_owe {σ : State} {s : State} (n : Nat) (p : NPacket) (hκ : Kept σ s) :
    Kept σ (State.owe s n p) := by
  unfold State.owe
  repeat' (first
    | with_reducible assumption
    | with_reducible intro _
    | with_reducible apply kept_onPeer
    | with_reducible apply kept_sendPlain
    | (extract_lets +onlyGivenNames x; refine Kept.cut (b := σ) x ?_ (fun hx => ?_); (on_goal 1 => unfold x; clear x); (on_goal 2 => revert hx; generalize x = y; clear x; intro hx))
    | (extract_lets +onlyGivenNames x; subst x)
    | dsimp -zeta -letToHave only
    | split)

theorem kept_receive {σ : State} {s : State} (n : Nat) (p : NPacket) (sequenced : Bool) (rtt : Nat) (hκ : Kept σ s) :
    Kept σ (State.receive s n p sequenced rtt).2 := by
  unfold State.receive
  repeat' (first
    | with_reducible assumption
    | with_reducible intro _
    | with_reducible apply kept_onEport
    | with_reducible apply kept_onPeer
    | with_reducible apply kept_sendPlain
    | with_reducible apply kept_losePeer
    | with_reducible apply kept_acked
    | with_reducible apply kept_owe
    | with_reducible apply kept_emptyPeer
    | (extract_lets +onlyGivenNames x; refine Kept.cut (b := σ) x ?_ (fun hx => ?_); (on_goal 1 => unfold x; clear x); (on_goal 2 => revert hx; generalize x = y; clear x; intro hx))
    | (extract_lets +onlyGivenNames x; subst x)
    | dsimp -zeta -letToHave only
    | split)

theorem kept_receive_eq {σ : State} {s : State} (n : Nat) (p : NPacket) (sequenced : Bool) (rtt : Nat) {ρ τ} (hκ : Kept σ s) (e : State.receive s n p sequenced rtt = (ρ, τ)) : Kept σ τ := by
  have := kept_receive (n := n) (p := p) (sequenced := sequenced) (rtt := rtt) (hκ := hκ) 
  rw [e] at this; exact this

theorem kept_gotPsn {σ : State} {s : State} (n : Nat) (p : NPacket) (hκ : Kept σ s) :
    Kept σ (State.gotPsn s n p) := by
  unfold State.gotPsn
  repeat' (first
    | with_reducible assumption
    | with_reducible intro _
    | with_reducible apply kept_onPeer
    | with_reducible apply kept_owe
    | (extract_lets +onlyGivenNames x; refine Kept.cut (b := σ) x ?_ (fun hx => ?_); (on_goal 1 => unfold x; clear x); (on_goal 2 => revert hx; generalize x = y; clear x; intro hx))
    | (extract_lets +onlyGivenNames x; subst x)
    | dsimp -zeta -letToHave only
    | split)

theorem kept_placeWaits {σ : State} {s : State} (flask page g r : Nat) (hκ : Kept σ s) :
    Kept σ (State.placeWaits s flask page g r) := by
  unfold State.placeWaits
  repeat' (first
    | with_reducible assumption
    | with_reducible intro _
    | with_reducible apply kept_pageFault
    | dsimp -zeta -letToHave only
    | split)

theorem kept_sendOne {σ : State} {s : State} (g r : Nat) (hκ : Kept σ s) :
    ∀ t, State.sendOne s g r = some t → Kept σ t := by
  intro t e
  unfold State.sendOne at e
  split at e
  · dsimp only at e
    split at e
    · cases e
    · split at e
      · cases e
      · split at e
        · cases e; exact kept_placeWaits _ _ _ _ hκ
        · cases e; exact kept_endColl _ _ _ _ (kept_blame _ _ _ _ hκ)
        · obtain ⟨u, hu, rfl⟩ := Option.map_eq_some_iff.mp e
          exact kept_onGroup _ _ (kept_onColl _ _ (kept_trySend _ _ _ hκ _ hu))
  · cases e

theorem kept_sendTo {σ : State} {s : State} (g r fuel : Nat) (hκ : Kept σ s) : Kept σ (sendTo g r fuel s) := by
  induction fuel generalizing s with
  | zero => exact hκ
  | succ n ih =>
    unfold sendTo
    split
    next e => exact ih (kept_sendOne g r hκ _ e)
    · exact hκ

theorem kept_answerPkt {σ : State} {s : State} (n type : Nat) (p : NPacket) (status : Nat) (hκ : Kept σ s) :
    Kept σ (State.answerPkt s n type p status) := by
  unfold State.answerPkt
  repeat' (first
    | with_reducible assumption
    | with_reducible intro _
    | with_reducible apply kept_sendPlain)

theorem kept_serveOne {σ : State} {s : State} (v : Serve) (hκ : Kept σ s) :
    ∀ t, State.serveOne s v = some t → Kept σ t := by
  intro t e
  unfold State.serveOne at e
  split at e
  · cases e
  next x _ =>
    have key : ∀ (type st : Nat) (u : State), Kept σ u → Kept σ
        (match (upto 32).find? (railUp u (x.members.getD v.rank (0, 0)).1) with
          | some k => u.sendPlain k (x.members.getD v.rank (0, 0)).1 type { groupPkt v.group x v.rank 0 3 with status := st % 256 }
          | none => u) := by
      intro type st u hu
      split
      · exact kept_sendPlain _ _ _ _ hu
      · exact hu
    dsimp only at e
    split at e
    · cases e
    · split at e
      · cases e
        exact key _ _ _ (kept_placeWaits _ _ _ _ (kept_draw hκ))
      · cases e
        exact kept_onNimra _ (key _ _ _ (kept_blame _ _ _ _ hκ))
      · obtain ⟨u, hu, rfl⟩ := Option.map_eq_some_iff.mp e
        exact kept_onGroup _ _ (kept_onNimra _ (kept_trySend _ _ _ hκ _ hu))

theorem kept_serveAll {σ : State} {s : State} (fuel : Nat) (hκ : Kept σ s) : Kept σ (serveAll fuel s) := by
  induction fuel generalizing s with
  | zero => exact hκ
  | succ n ih =>
    unfold serveAll
    split
    next e =>
      obtain ⟨v, -, hv⟩ := List.exists_of_findSome?_eq_some e
      exact ih (kept_serveOne v hκ _ hv)
    · exact hκ

theorem kept_pump {σ : State} {s : State} (hκ : Kept σ s) : Kept σ (State.pump s) := by
  unfold State.pump
  refine kept_serveAll _ (Kept.foldl _ _ (kept_flushBacklog hκ) (fun t c ht => ?_))
  split
  · exact ht
  · exact Kept.foldl _ _ ht (fun u r hu => kept_sendTo _ _ _ hu)

theorem kept_absorbOwn {σ : State} {s : State} (g : Nat) (hκ : Kept σ s) :
    Kept σ (State.absorbOwn s g) := by
  unfold State.absorbOwn
  repeat' (first
    | with_reducible assumption
    | with_reducible intro _
    | with_reducible apply kept_blame
    | with_reducible apply kept_onColl
    | with_reducible apply kept_endColl
    | with_reducible apply kept_placeWaits
    | (extract_lets +onlyGivenNames x; refine Kept.cut (b := σ) x ?_ (fun hx => ?_); (on_goal 1 => unfold x; clear x); (on_goal 2 => revert hx; generalize x = y; clear x; intro hx))
    | (extract_lets +onlyGivenNames x; subst x)
    | dsimp -zeta -letToHave only
    | split)

theorem kept_addSegment {σ : State} {s : State} (g r : Nat) (hκ : Kept σ s) :
    Kept σ (State.addSegment s g r) := by
  unfold State.addSegment
  repeat' (first
    | with_reducible assumption
    | with_reducible intro _
    | with_reducible apply kept_onColl
    | with_reducible apply kept_sendReady
    | with_reducible apply kept_absorbOwn
    | (extract_lets +onlyGivenNames x; refine Kept.cut (b := σ) x ?_ (fun hx => ?_); (on_goal 1 => unfold x; clear x); (on_goal 2 => revert hx; generalize x = y; clear x; intro hx))
    | (extract_lets +onlyGivenNames x; subst x)
    | dsimp -zeta -letToHave only
    | split)

theorem kept_writeReduced {σ : State} {s : State} (g a : Nat) (hκ : Kept σ s) :
    Kept σ (State.writeReduced s g a) := by
  unfold State.writeReduced
  repeat' (first
    | with_reducible assumption
    | with_reducible intro _
    | with_reducible apply kept_tryPatch
    | with_reducible apply kept_onColl
    | with_reducible apply kept_endColl
    | with_reducible apply kept_placeWaits
    | refine kept_tryPatch_eq (e := by with_reducible assumption) (hκ := ?_)
    | (extract_lets +onlyGivenNames x; refine Kept.cut (b := σ) x ?_ (fun hx => ?_); (on_goal 1 => unfold x; clear x); (on_goal 2 => revert hx; generalize x = y; clear x; intro hx))
    | (extract_lets +onlyGivenNames x; subst x)
    | dsimp -zeta -letToHave only
    | split)

theorem kept_execReduceSegmentDone {σ : State} (group rank : Nat) {s : State} (hκ : Kept σ s) :
    OutKept σ (execReduceSegmentDone group rank s) := by
  unfold execReduceSegmentDone
  repeat' (first
    | with_reducible assumption
    | with_reducible intro _
    | with_reducible apply OutKept.done
    | with_reducible apply kept_settle
    | with_reducible apply kept_endColl
    | with_reducible apply kept_placeWaits
    | with_reducible apply kept_pump
    | with_reducible apply kept_addSegment
    | with_reducible apply kept_writeReduced
    | dsimp -zeta -letToHave only
    | split)

theorem kept_takeReady {σ : State} {s : State} (g : Nat) (x : Group) (m : ReadyMsg) (credit : Nat) (hκ : Kept σ s) :
    Kept σ (State.takeReady s g x m credit) := by
  unfold State.takeReady
  repeat' (first
    | with_reducible assumption
    | with_reducible intro _
    | with_reducible apply kept_arrive
    | with_reducible apply kept_onColl
    | with_reducible apply kept_endColl
    | (extract_lets +onlyGivenNames x; refine Kept.cut (b := σ) x ?_ (fun hx => ?_); (on_goal 1 => unfold x; clear x); (on_goal 2 => revert hx; generalize x = y; clear x; intro hx))
    | (extract_lets +onlyGivenNames x; subst x)
    | dsimp -zeta -letToHave only
    | split)

theorem kept_startColl {σ : State} {s : State} (c : Coll) (hκ : Kept σ s) :
    Kept σ (State.startColl s c) := by
  unfold State.startColl
  repeat' (first
    | with_reducible assumption
    | with_reducible intro _
    | with_reducible apply kept_onNimra
    | with_reducible apply kept_onGroup
    | with_reducible apply kept_undefineRange
    | with_reducible apply kept_sendReady
    | with_reducible apply kept_endColl
    | with_reducible apply kept_absorbOwn
    | with_reducible apply kept_writeReduced
    | with_reducible apply kept_takeReady
    | with_reducible apply Kept.foldl
    | (extract_lets +onlyGivenNames x; refine Kept.cut (b := σ) x ?_ (fun hx => ?_); (on_goal 1 => unfold x; clear x); (on_goal 2 => revert hx; generalize x = y; clear x; intro hx))
    | (extract_lets +onlyGivenNames x; subst x)
    | dsimp -zeta -letToHave only
    | split)

theorem kept_startColls {σ : State} {s : State} (fuel : Nat) (hκ : Kept σ s) : Kept σ (startColls fuel s) := by
  induction fuel generalizing s with
  | zero => exact hκ
  | succ n ih =>
    unfold startColls
    split
    · exact hκ
    · split
      · exact ih (kept_startColl _ hκ)
      · exact hκ

theorem kept_nimraGo {σ : State} {s : State} (hκ : Kept σ s) : Kept σ (State.nimraGo s) :=
  kept_settle (kept_pump (kept_startColls _ hκ))

/-- A placement keeps. -/
def PlaceKept (σ : State) (p : Place) : Prop := ∀ t, p = .done t → Kept σ t

theorem PlaceKept.done {σ t : State} (h : Kept σ t) : PlaceKept σ (.done t) 
    := fun _ e => by cases e; exact h

theorem PlaceKept.wait {σ : State} (a b c : Nat) : PlaceKept σ (.wait a b c) 
    := fun _ e => by cases e

theorem PlaceKept.nack {σ : State} (a b : Nat) (st : Stat) : PlaceKept σ (.nack a b st) 
    := fun _ e => by cases e

theorem PlaceKept.fail {σ : State} (c : Coll) (a b : Nat) (st : Stat) : PlaceKept σ (.fail c a b st) 
    := fun _ e => by cases e

theorem kept_placeColl {σ : State} {s : State} (p : NPacket) (x : Group) (r : Nat) (hκ : Kept σ s) :
    PlaceKept σ (placeColl s p x r) := by
  unfold placeColl
  split
  · exact .done hκ
  next c _ =>
    dsimp only
    have hw : ∀ a : Nat, PlaceKept σ
        (match s.tryPatch (flaskOfKey c.heat) a p.payload with
          | (.ok _, s) => .done ((s.onColl p.group (fun c' => c'.arrived x.members.length x.rank r (arriveNs s c') p.payload.length true (r, p.msg, p.idx))).onGroup p.group (fun x => { x with bytesRx := x.bytesRx + p.payload.length }))
          | (.wait pg, _) => .wait (flaskOfKey c.heat) pg r
          | (.fail st, _) => .fail c (flaskOfKey c.heat) a st) := by
      intro a
      split
      next e => exact .done (kept_onGroup _ _ (kept_onColl _ _ (kept_tryPatch_eq (e := e) (hκ := hκ))))
      · exact .wait _ _ _
      · exact .fail _ _ _ _
    split
    · exact .done hκ
    · split
      · split
        · exact .done (kept_onGroup _ _ (kept_onColl _ _ (kept_onColl _ _ hκ)))
        · exact .done hκ
      · split
        · exact hw _
        · exact .done hκ
      · split
        · exact hw _
        · exact .done hκ

theorem kept_placeData {σ : State} {s : State} (p : NPacket) (hκ : Kept σ s) : PlaceKept σ (placeData s p) := by
  unfold placeData
  split
  · split
    · exact .nack _ _ _
    · exact .done hκ
  · split
    · split
      · exact .nack _ _ _
      · exact .done hκ
    · split
      · split
        · exact .done hκ
        · split
          next e => exact .done (kept_onGroup _ _ (kept_onNimra _ (kept_tryPatch_eq (e := e) (hκ := hκ))))
          · exact .wait _ _ _
          · exact .nack _ _ _
      · dsimp only
        split
        · exact .nack _ _ _
        · exact .done (kept_onNimra _ hκ)
      · exact kept_placeColl _ _ _ hκ

theorem kept_placePkt {σ : State} {s : State} (n : Nat) (p : NPacket) (hκ : Kept σ s) : Kept σ (State.placePkt s n p) := by
  unfold State.placePkt
  split
  next e => exact kept_gotPsn _ _ (kept_placeData p hκ _ e)
  · exact kept_answerPkt _ _ _ _ (kept_blame _ _ _ _ (kept_gotPsn _ _ hκ))
  · exact kept_endColl _ _ _ _ (kept_blame _ _ _ _ (kept_gotPsn _ _ hκ))
  · exact kept_answerPkt _ _ _ _ (kept_onNimra _ (kept_placeWaits _ _ _ _ (kept_draw hκ)))

theorem kept_execData {σ : State} (port : Nat) (p : NPacket) {s : State} (hκ : Kept σ s) :
    OutKept σ (execData port p s) := by
  unfold execData
  repeat' (first
    | with_reducible assumption
    | with_reducible intro _
    | with_reducible apply OutKept.done
    | with_reducible apply kept_receive
    | with_reducible apply kept_nimraGo
    | with_reducible apply kept_placePkt
    | refine kept_receive_eq (e := by with_reducible assumption) (hκ := ?_)
    | dsimp -zeta -letToHave only
    | split)

theorem kept_placeResume {σ : State} {s : State} (g w : Nat) (hκ : Kept σ s) :
    Kept σ (State.placeResume s g w) := by
  unfold State.placeResume
  repeat' (first
    | with_reducible assumption
    | with_reducible intro _
    | with_reducible apply kept_onNimra
    | with_reducible apply kept_nimraGo
    | with_reducible apply kept_placePkt
    | with_reducible apply Kept.foldl
    | (extract_lets +onlyGivenNames x; refine Kept.cut (b := σ) x ?_ (fun hx => ?_); (on_goal 1 => unfold x; clear x); (on_goal 2 => revert hx; generalize x = y; clear x; intro hx))
    | (extract_lets +onlyGivenNames x; subst x)
    | dsimp -zeta -letToHave only
    | split)

theorem kept_placeExpire {σ : State} {s : State} (g w : Nat) (hκ : Kept σ s) :
    Kept σ (State.placeExpire s g w) := by
  unfold State.placeExpire
  repeat' (first
    | with_reducible assumption
    | with_reducible intro _
    | with_reducible apply kept_onNimra
    | with_reducible apply kept_sendPlain
    | with_reducible apply kept_endColl
    | with_reducible apply kept_gotPsn
    | with_reducible apply kept_answerPkt
    | with_reducible apply kept_nimraGo
    | with_reducible apply Kept.foldl
    | (extract_lets +onlyGivenNames x; refine Kept.cut (b := σ) x ?_ (fun hx => ?_); (on_goal 1 => unfold x; clear x); (on_goal 2 => revert hx; generalize x = y; clear x; intro hx))
    | (extract_lets +onlyGivenNames x; subst x)
    | with_reducible apply Kept.foldl_fst
    | dsimp -zeta -letToHave only
    | split)

theorem kept_execAck {σ : State} (port : Nat) (p : NPacket) (rtt : Nat) {s : State} (hκ : Kept σ s) :
    OutKept σ (execAck port p rtt s) := by
  unfold execAck
  repeat' (first
    | with_reducible assumption
    | with_reducible intro _
    | with_reducible apply OutKept.done
    | with_reducible apply kept_onPeer
    | with_reducible apply kept_receive
    | with_reducible apply kept_nimraGo
    | refine kept_receive_eq (e := by with_reducible assumption) (hκ := ?_)
    | dsimp -zeta -letToHave only
    | split)

theorem kept_execReady {σ : State} (port : Nat) (p : NPacket) {s : State} (hκ : Kept σ s) :
    OutKept σ (execReady port p s) := by
  unfold execReady
  repeat' (first
    | with_reducible assumption
    | with_reducible intro _
    | with_reducible apply OutKept.done
    | with_reducible apply kept_onPeer
    | with_reducible apply kept_onGroup
    | with_reducible apply kept_receive
    | with_reducible apply kept_gotPsn
    | with_reducible apply kept_takeReady
    | with_reducible apply kept_nimraGo
    | refine kept_receive_eq (e := by with_reducible assumption) (hκ := ?_)
    | (extract_lets +onlyGivenNames x; refine Kept.cut (b := σ) x ?_ (fun hx => ?_); (on_goal 1 => unfold x; clear x); (on_goal 2 => revert hx; generalize x = y; clear x; intro hx))
    | (extract_lets +onlyGivenNames x; subst x)
    | dsimp -zeta -letToHave only
    | split)

theorem kept_execRnr {σ : State} (port : Nat) (p : NPacket) {s : State} (hκ : Kept σ s) :
    OutKept σ (execRnr port p s) := by
  unfold execRnr
  repeat' (first
    | with_reducible assumption
    | with_reducible intro _
    | with_reducible apply OutKept.done
    | with_reducible apply kept_onColl
    | with_reducible apply kept_receive
    | with_reducible apply kept_nimraGo
    | refine kept_receive_eq (e := by with_reducible assumption) (hκ := ?_)
    | dsimp -zeta -letToHave only
    | split)

theorem kept_execNack {σ : State} (port : Nat) (p : NPacket) {s : State} (hκ : Kept σ s) :
    OutKept σ (execNack port p s) := by
  unfold execNack
  repeat' (first
    | with_reducible assumption
    | with_reducible intro _
    | with_reducible apply OutKept.done
    | with_reducible apply kept_endColl
    | with_reducible apply kept_receive
    | with_reducible apply kept_nimraGo
    | refine kept_receive_eq (e := by with_reducible assumption) (hκ := ?_)
    | dsimp -zeta -letToHave only
    | split)

theorem kept_execAbort {σ : State} (port : Nat) (p : NPacket) {s : State} (hκ : Kept σ s) :
    OutKept σ (execAbort port p s) := by
  unfold execAbort
  repeat' (first
    | with_reducible assumption
    | with_reducible intro _
    | with_reducible apply OutKept.done
    | with_reducible apply kept_onGroup
    | with_reducible apply kept_endColl
    | with_reducible apply kept_receive
    | with_reducible apply kept_gotPsn
    | with_reducible apply kept_nimraGo
    | refine kept_receive_eq (e := by with_reducible assumption) (hκ := ?_)
    | (extract_lets +onlyGivenNames x; refine Kept.cut (b := σ) x ?_ (fun hx => ?_); (on_goal 1 => unfold x; clear x); (on_goal 2 => revert hx; generalize x = y; clear x; intro hx))
    | (extract_lets +onlyGivenNames x; subst x)
    | dsimp -zeta -letToHave only
    | split)

theorem kept_execProbe {σ : State} (port : Nat) (p : NPacket) {s : State} (hκ : Kept σ s) :
    OutKept σ (execProbe port p s) := by
  unfold execProbe
  repeat' (first
    | with_reducible assumption
    | with_reducible intro _
    | with_reducible apply OutKept.done
    | with_reducible apply kept_sendPlain
    | with_reducible apply kept_receive
    | with_reducible apply kept_nimraGo
    | refine kept_receive_eq (e := by with_reducible assumption) (hκ := ?_)
    | dsimp -zeta -letToHave only
    | split)

theorem kept_execAckTimer {σ : State} (port peer : Nat) {s : State} (hκ : Kept σ s) :
    OutKept σ (execAckTimer port peer s) := by
  unfold execAckTimer
  repeat' (first
    | with_reducible assumption
    | with_reducible intro _
    | with_reducible apply OutKept.done
    | with_reducible apply kept_sendPlain
    | dsimp -zeta -letToHave only
    | split)

theorem kept_execResendTimeout {σ : State} (port peer psn : Nat) {s : State} (hκ : Kept σ s) :
    OutKept σ (execResendTimeout port peer psn s) := by
  unfold execResendTimeout
  repeat' (first
    | with_reducible assumption
    | with_reducible intro _
    | with_reducible apply OutKept.done
    | with_reducible apply kept_onPeer
    | with_reducible apply kept_resend
    | with_reducible apply kept_nimraGo
    | (extract_lets +onlyGivenNames x; refine Kept.cut (b := σ) x ?_ (fun hx => ?_); (on_goal 1 => unfold x; clear x); (on_goal 2 => revert hx; generalize x = y; clear x; intro hx))
    | (extract_lets +onlyGivenNames x; subst x)
    | dsimp -zeta -letToHave only
    | split)

theorem kept_execProbeTimer {σ : State} (port : Nat) {s : State} (hκ : Kept σ s) :
    OutKept σ (execProbeTimer port s) := by
  unfold execProbeTimer
  repeat' (first
    | with_reducible assumption
    | with_reducible intro _
    | with_reducible apply OutKept.done
    | with_reducible apply kept_onPeer
    | with_reducible apply kept_sendPlain
    | with_reducible apply Kept.foldl
    | (extract_lets +onlyGivenNames x; refine Kept.cut (b := σ) x ?_ (fun hx => ?_); (on_goal 1 => unfold x; clear x); (on_goal 2 => revert hx; generalize x = y; clear x; intro hx))
    | (extract_lets +onlyGivenNames x; subst x)
    | dsimp -zeta -letToHave only
    | split)

theorem kept_execReceivedFrameDrop {σ : State} (port : Nat) (why : FrameDrop) (symbols words : Nat) {s : State} (hκ : Kept σ s) :
    OutKept σ (execReceivedFrameDrop port why symbols words s) := by
  unfold execReceivedFrameDrop
  repeat' (first
    | with_reducible assumption
    | with_reducible intro _
    | with_reducible apply OutKept.done
    | with_reducible apply kept_onEport
    | dsimp -zeta -letToHave only
    | split)

theorem kept_collDispatch {σ : State} {s : State} (k n group : Nat) (d : List Byte) (hκ : Kept σ s) :
    Kept σ (State.collDispatch s k n group d) := by
  unfold State.collDispatch
  repeat' (first
    | with_reducible assumption
    | with_reducible intro _
    | with_reducible apply kept_onNimra
    | with_reducible apply kept_arrive
    | with_reducible apply kept_nimraGo)

theorem kept_arrivals {σ : State} {s : State} (c : Coll) (p me : Nat) (hκ : Kept σ s) :
    Kept σ (State.arrivals s c p me).2 := by
  unfold State.arrivals
  repeat' (first
    | with_reducible assumption
    | with_reducible intro _
    | with_reducible apply kept_draw
    | with_reducible apply kept_arrive
    | refine kept_draw_eq (e := by with_reducible assumption) (hκ := ?_)
    | with_reducible apply Kept.foldl
    | (extract_lets +onlyGivenNames x; refine Kept.cut (b := σ) x ?_ (fun hx => ?_); (on_goal 1 => unfold x; clear x); (on_goal 2 => revert hx; generalize x = y; clear x; intro hx))
    | (extract_lets +onlyGivenNames x; subst x)
    | with_reducible apply Kept.foldl_snd
    | dsimp -zeta -letToHave only
    | split)

theorem kept_arrivals_eq {σ : State} {s : State} (c : Coll) (p me : Nat) {ρ τ} (hκ : Kept σ s) (e : State.arrivals s c p me = (ρ, τ)) : Kept σ τ := by
  have := kept_arrivals (c := c) (p := p) (me := me) (hκ := hκ) 
  rw [e] at this; exact this

theorem kept_execCollectiveComplete {σ : State} (flask heat node : Nat) {s : State} (hκ : Kept σ s) :
    OutKept σ (execCollectiveComplete flask heat node s) := by
  unfold execCollectiveComplete
  repeat' (first
    | with_reducible assumption
    | with_reducible intro _
    | with_reducible apply OutKept.done
    | with_reducible apply kept_onNimra
    | with_reducible apply kept_blame
    | with_reducible apply kept_tryPatch
    | with_reducible apply kept_onGroup
    | with_reducible apply kept_endNode
    | with_reducible apply kept_endColl
    | with_reducible apply kept_placeWaits
    | with_reducible apply kept_nimraGo
    | with_reducible apply kept_arrivals
    | refine kept_tryPatch_eq (e := by with_reducible assumption) (hκ := ?_)
    | refine kept_arrivals_eq (e := by with_reducible assumption) (hκ := ?_)
    | (extract_lets +onlyGivenNames x; refine Kept.cut (b := σ) x ?_ (fun hx => ?_); (on_goal 1 => unfold x; clear x); (on_goal 2 => revert hx; generalize x = y; clear x; intro hx))
    | (extract_lets +onlyGivenNames x; subst x)
    | dsimp -zeta -letToHave only
    | split
    | (obtain ⟨-, rfl⟩ := Prod.mk.inj ‹((_, _) : _ × State) = (_, _)›))

end Sys2Proof.Machine
end

