-- ==== Sys2Proof/Laws/KeptPorts.lean ====
section
/-!
SUPPORT. What the operations of Machine/Ports.lean keep.
-/

namespace Sys2Proof.Machine

theorem kept_portEvent {σ : State} {s : State} (n state : Nat) (st : Stat) (hκ : Kept σ s) :
    Kept σ (State.portEvent s n state st) := by
  unfold State.portEvent
  repeat' (first
    | with_reducible assumption
    | with_reducible intro _
    | with_reducible apply kept_devEvent)

theorem kept_finishLinks {σ : State} {s : State} (hκ : Kept σ s) :
    Kept σ (State.finishLinks s) := by
  unfold State.finishLinks
  repeat' (first
    | with_reducible assumption
    | with_reducible intro _
    | with_reducible apply kept_finish
    | with_reducible apply Kept.foldl)

theorem kept_leaveActive {σ : State} {s : State} (n : Nat) (hκ : Kept σ s) :
    Kept σ (State.leaveActive s n) := by
  unfold State.leaveActive
  repeat' (first
    | with_reducible assumption
    | with_reducible intro _
    | with_reducible apply kept_onEport
    | with_reducible apply kept_portDown
    | dsimp -zeta -letToHave only
    | split)

theorem kept_firstAttempt {σ : State} {s : State} (n : Nat) (hκ : Kept σ s) :
    Kept σ (State.firstAttempt s n) := by
  unfold State.firstAttempt
  repeat' (first
    | with_reducible assumption
    | with_reducible intro _
    | with_reducible apply kept_onEport
    | with_reducible apply kept_portEvent
    | dsimp -zeta -letToHave only
    | split)

theorem kept_fallback {σ : State} {s : State} (n : Nat) (hκ : Kept σ s) :
    Kept σ (State.fallback s n) := by
  unfold State.fallback
  repeat' (first
    | with_reducible assumption
    | with_reducible intro _
    | with_reducible apply kept_onEport
    | with_reducible apply kept_portEvent
    | with_reducible apply kept_finishLinks
    | dsimp -zeta -letToHave only
    | split)

theorem kept_enablePort {σ : State} {s : State} (n medium modes ctle : Nat) (hκ : Kept σ s) :
    Kept σ (State.enablePort s n medium modes ctle) := by
  unfold State.enablePort
  repeat' (first
    | with_reducible assumption
    | with_reducible intro _
    | with_reducible apply kept_onEport
    | with_reducible apply kept_firstAttempt
    | (extract_lets +onlyGivenNames x; refine Kept.cut (b := σ) x ?_ (fun hx => ?_); (on_goal 1 => unfold x; clear x); (on_goal 2 => revert hx; generalize x = y; clear x; intro hx))
    | (extract_lets +onlyGivenNames x; subst x)
    | dsimp -zeta -letToHave only
    | split)

theorem kept_disablePort {σ : State} {s : State} (n : Nat) (hκ : Kept σ s) :
    Kept σ (State.disablePort s n) := by
  unfold State.disablePort
  repeat' (first
    | with_reducible assumption
    | with_reducible intro _
    | with_reducible apply kept_onEport
    | with_reducible apply kept_leaveActive)

theorem kept_enablePorts {σ : State} {s : State} (hκ : Kept σ s) :
    Kept σ (State.enablePorts s) := by
  unfold State.enablePorts
  repeat' (first
    | with_reducible assumption
    | with_reducible intro _
    | with_reducible apply kept_enablePort
    | with_reducible apply Kept.foldl)

theorem kept_portCommand {σ : State} {s : State} (c : Cmd) (f : Nat → State → State) (hκ : Kept σ s)
    (hf : ∀ c t, Kept σ t → Kept σ (f c t)) : Kept σ (State.portCommand s c f) := by
  unfold State.portCommand
  split
  · exact kept_failCmd _ _ hκ
  · exact kept_nimraGo (kept_finishLinks (kept_onCmd _ _ (Kept.foldl _ _ hκ (fun t n ht => hf n t ht))))

theorem kept_execPortDisable {σ : State} (cid : Nat) {s : State} (hκ : Kept σ s) :
    OutKept σ (execPortDisable cid s) := by
  unfold execPortDisable
  repeat' (first
    | with_reducible assumption
    | with_reducible intro _
    | with_reducible apply OutKept.done
    | with_reducible apply kept_accepted
    | with_reducible apply kept_disablePort
    | with_reducible apply kept_portCommand)

theorem kept_execPortEnable {σ : State} (cid : Nat) {s : State} (hκ : Kept σ s) :
    OutKept σ (execPortEnable cid s) := by
  unfold execPortEnable
  repeat' (first
    | with_reducible assumption
    | with_reducible intro _
    | with_reducible apply OutKept.done
    | with_reducible apply kept_accepted
    | with_reducible apply kept_enablePort
    | with_reducible apply kept_portCommand)

theorem kept_execRetrain {σ : State} (cid : Nat) {s : State} (hκ : Kept σ s) :
    OutKept σ (execRetrain cid s) := by
  unfold execRetrain
  repeat' (first
    | with_reducible assumption
    | with_reducible intro _
    | with_reducible apply OutKept.done
    | with_reducible apply kept_accepted
    | with_reducible apply kept_onEport
    | with_reducible apply kept_leaveActive
    | with_reducible apply kept_firstAttempt
    | with_reducible apply kept_portCommand
    | dsimp -zeta -letToHave only
    | split)

theorem kept_execAnAgreement {σ : State} (port : Nat) (mode : PhyMode) {s : State} (hκ : Kept σ s) :
    OutKept σ (execAnAgreement port mode s) := by
  unfold execAnAgreement
  repeat' (first
    | with_reducible assumption
    | with_reducible intro _
    | with_reducible apply OutKept.done
    | with_reducible apply kept_onEport
    | dsimp -zeta -letToHave only
    | split)

theorem kept_execAnRestart {σ : State} (port : Nat) {s : State} (hκ : Kept σ s) :
    OutKept σ (execAnRestart port s) := by
  unfold execAnRestart
  repeat' (first
    | with_reducible assumption
    | with_reducible intro _
    | with_reducible apply OutKept.done
    | with_reducible apply kept_onEport
    | dsimp -zeta -letToHave only
    | split)

theorem kept_execTrainingDone {σ : State} (port : Nat) (lanes : List LaneEq) {s : State} (hκ : Kept σ s) :
    OutKept σ (execTrainingDone port lanes s) := by
  unfold execTrainingDone
  repeat' (first
    | with_reducible assumption
    | with_reducible intro _
    | with_reducible apply OutKept.done
    | with_reducible apply kept_onEport
    | (extract_lets +onlyGivenNames x; refine Kept.cut (b := σ) x ?_ (fun hx => ?_); (on_goal 1 => unfold x; clear x); (on_goal 2 => revert hx; generalize x = y; clear x; intro hx))
    | (extract_lets +onlyGivenNames x; subst x)
    | dsimp -zeta -letToHave only
    | split)

theorem kept_execTrainingTimeout {σ : State} (port : Nat) {s : State} (hκ : Kept σ s) :
    OutKept σ (execTrainingTimeout port s) := by
  unfold execTrainingTimeout
  repeat' (first
    | with_reducible assumption
    | with_reducible intro _
    | with_reducible apply OutKept.done
    | with_reducible apply kept_nimraGo
    | with_reducible apply kept_fallback
    | dsimp -zeta -letToHave only
    | split)

theorem kept_execAlignDone {σ : State} (port : Nat) {s : State} (hκ : Kept σ s) :
    OutKept σ (execAlignDone port s) := by
  unfold execAlignDone
  repeat' (first
    | with_reducible assumption
    | with_reducible intro _
    | with_reducible apply OutKept.done
    | with_reducible apply kept_onEport
    | with_reducible apply kept_nimraGo
    | with_reducible apply kept_portEvent
    | with_reducible apply kept_finishLinks
    | (extract_lets +onlyGivenNames x; refine Kept.cut (b := σ) x ?_ (fun hx => ?_); (on_goal 1 => unfold x; clear x); (on_goal 2 => revert hx; generalize x = y; clear x; intro hx))
    | (extract_lets +onlyGivenNames x; subst x)
    | dsimp -zeta -letToHave only
    | split)

theorem kept_execAlignTimeout {σ : State} (port : Nat) {s : State} (hκ : Kept σ s) :
    OutKept σ (execAlignTimeout port s) := by
  unfold execAlignTimeout
  repeat' (first
    | with_reducible assumption
    | with_reducible intro _
    | with_reducible apply OutKept.done
    | with_reducible apply kept_nimraGo
    | with_reducible apply kept_fallback
    | dsimp -zeta -letToHave only
    | split)

theorem kept_execLinkLoss {σ : State} (port words : Nat) {s : State} (hκ : Kept σ s) :
    OutKept σ (execLinkLoss port words s) := by
  unfold execLinkLoss
  repeat' (first
    | with_reducible assumption
    | with_reducible intro _
    | with_reducible apply OutKept.done
    | with_reducible apply kept_nimraGo
    | with_reducible apply kept_leaveActive
    | with_reducible apply kept_onEport
    | with_reducible apply kept_firstAttempt
    | dsimp -zeta -letToHave only
    | split)

theorem kept_configure {σ : State} {s : State} (id : Option Nat) (b : List Byte) (hκ : Kept σ s) :
    Kept σ (State.configure s id b) := by
  unfold State.configure
  repeat' (first
    | with_reducible assumption
    | with_reducible intro _
    | with_reducible apply kept_onNimra)

theorem kept_execNodeConfig {σ : State} (cid : Nat) {s : State} (hκ : Kept σ s) :
    OutKept σ (execNodeConfig cid s) := by
  unfold execNodeConfig
  repeat' (first
    | with_reducible assumption
    | with_reducible intro _
    | with_reducible apply OutKept.done
    | with_reducible apply kept_blame
    | with_reducible apply kept_finish
    | with_reducible apply kept_failCmd
    | with_reducible apply kept_accepted
    | with_reducible apply kept_configure
    | dsimp -zeta -letToHave only
    | split)

theorem kept_execGroupCreate {σ : State} (cid : Nat) {s : State} (hκ : Kept σ s) :
    OutKept σ (execGroupCreate cid s) := by
  unfold execGroupCreate
  repeat' (first
    | with_reducible assumption
    | with_reducible intro _
    | with_reducible apply OutKept.done
    | with_reducible apply kept_onNimra
    | with_reducible apply kept_blame
    | with_reducible apply kept_pageFault
    | with_reducible apply kept_finish
    | with_reducible apply kept_failCmd
    | with_reducible apply kept_accepted
    | dsimp -zeta -letToHave only
    | split)

theorem kept_dropGroup {σ : State} {s : State} (g : Nat) (hκ : Kept σ s) :
    Kept σ (State.dropGroup s g) := by
  unfold State.dropGroup
  repeat' (first
    | with_reducible assumption
    | with_reducible intro _
    | with_reducible apply kept_onNimra
    | with_reducible apply kept_dropFaults)

theorem kept_execGroupDestroy {σ : State} (cid : Nat) {s : State} (hκ : Kept σ s) :
    OutKept σ (execGroupDestroy cid s) := by
  unfold execGroupDestroy
  repeat' (first
    | with_reducible assumption
    | with_reducible intro _
    | with_reducible apply OutKept.done
    | with_reducible apply kept_finish
    | with_reducible apply kept_failCmd
    | with_reducible apply kept_accepted
    | with_reducible apply kept_dropGroup
    | dsimp -zeta -letToHave only
    | split)

end Sys2Proof.Machine
end

