-- ==== Sys2Proof/Laws/KeptPower.lean ====
section
/-!
SUPPORT. What the operations of Machine/Power.lean keep.
-/

namespace Sys2Proof.Machine

theorem kept_ibi {σ : State} {s : State} (payload : Nat) (hκ : Kept σ s) :
    Kept σ (State.ibi s payload) := by
  unfold State.ibi
  repeat' (first
    | with_reducible assumption
    | with_reducible intro _
    | with_reducible apply kept_onI3c
    | with_reducible apply kept_onI3c2)

theorem kept_setLevel {σ : State} {s : State} (l : Nat) (hκ : Kept σ s) :
    Kept σ (State.setLevel s l) := by
  unfold State.setLevel
  repeat' (first
    | with_reducible assumption
    | with_reducible intro _
    | with_reducible apply kept_onBoot
    | with_reducible apply kept_choose
    | with_reducible apply kept_devEvent
    | with_reducible apply kept_ibi
    | refine kept_choose_eq (e := by with_reducible assumption) (hκ := ?_)
    | (extract_lets +onlyGivenNames x; refine Kept.cut (b := σ) x ?_ (fun hx => ?_); (on_goal 1 => unfold x; clear x); (on_goal 2 => revert hx; generalize x = y; clear x; intro hx))
    | (extract_lets +onlyGivenNames x; subst x)
    | dsimp -zeta -letToHave only
    | split)

theorem kept_fall {σ : State} {s : State} (hκ : Kept σ s) :
    Kept σ (State.fall s) := by
  unfold State.fall
  repeat' (first
    | with_reducible assumption
    | with_reducible intro _
    | with_reducible apply kept_setLevel
    | dsimp -zeta -letToHave only
    | split)

theorem kept_onPart {σ : State} {s : State} (p : Nat) (f : PartPw → PartPw) (hκ : Kept σ s) :
    Kept σ (State.onPart s p f) := by
  unfold State.onPart
  repeat' (first
    | with_reducible assumption
    | with_reducible intro _
    | with_reducible apply kept_onPower)

theorem kept_learnPart {σ : State} {s : State} (p : Nat) (m : PartMeasure) (hκ : Kept σ s) :
    Kept σ (State.learnPart s p m) := by
  unfold State.learnPart
  repeat' (first
    | with_reducible assumption
    | with_reducible intro _
    | with_reducible apply kept_onPower
    | (extract_lets +onlyGivenNames x; refine Kept.cut (b := σ) x ?_ (fun hx => ?_); (on_goal 1 => unfold x; clear x); (on_goal 2 => revert hx; generalize x = y; clear x; intro hx))
    | (extract_lets +onlyGivenNames x; subst x)
    | dsimp -zeta -letToHave only
    | split)

theorem kept_takeCap {σ : State} {s : State} (hκ : Kept σ s) :
    Kept σ (State.takeCap s) := by
  unfold State.takeCap
  repeat' (first
    | with_reducible assumption
    | with_reducible intro _
    | with_reducible apply kept_onPower
    | with_reducible apply kept_logRec
    | with_reducible apply kept_updCtl
    | with_reducible refine kept_onBox _ ?_ rfl id
    | (extract_lets +onlyGivenNames x; refine Kept.cut (b := σ) x ?_ (fun hx => ?_); (on_goal 1 => unfold x; clear x); (on_goal 2 => revert hx; generalize x = y; clear x; intro hx))
    | (extract_lets +onlyGivenNames x; subst x)
    | dsimp -zeta -letToHave only
    | split)

theorem kept_setFloor {σ : State} {s : State} (b : Bool) (hκ : Kept σ s) :
    Kept σ (State.setFloor s b) := by
  unfold State.setFloor
  repeat' (first
    | with_reducible assumption
    | with_reducible intro _
    | with_reducible apply kept_onPower
    | with_reducible apply kept_ibi
    | dsimp -zeta -letToHave only
    | split)

theorem kept_finishCaps {σ : State} {s : State} (hκ : Kept σ s) :
    Kept σ (State.finishCaps s) := by
  unfold State.finishCaps
  repeat' (first
    | with_reducible assumption
    | with_reducible intro _
    | with_reducible apply kept_finish
    | with_reducible apply Kept.foldl)

theorem kept_takeSample {σ : State} {s : State} (watts : Nat) (hκ : Kept σ s) :
    Kept σ (State.takeSample s watts) := by
  unfold State.takeSample
  repeat' (first
    | with_reducible assumption
    | with_reducible intro _
    | with_reducible apply kept_onPower
    | with_reducible apply kept_onPart
    | with_reducible apply Kept.foldl
    | (extract_lets +onlyGivenNames x; refine Kept.cut (b := σ) x ?_ (fun hx => ?_); (on_goal 1 => unfold x; clear x); (on_goal 2 => revert hx; generalize x = y; clear x; intro hx))
    | (extract_lets +onlyGivenNames x; subst x)
    | dsimp -zeta -letToHave only
    | split)

theorem kept_controlPeriod {σ : State} {s : State} (ms : List PartMeasure) (fixed : Nat) (cut : Bool) (hκ : Kept σ s) :
    Kept σ (State.controlPeriod s ms fixed cut) := by
  unfold State.controlPeriod
  repeat' (first
    | with_reducible assumption
    | with_reducible intro _
    | with_reducible apply kept_onPower
    | with_reducible apply kept_onPart
    | with_reducible apply kept_learnPart
    | with_reducible apply kept_takeCap
    | with_reducible apply kept_setFloor
    | with_reducible apply kept_finishCaps
    | with_reducible apply Kept.foldl
    | (extract_lets +onlyGivenNames x; refine Kept.cut (b := σ) x ?_ (fun hx => ?_); (on_goal 1 => unfold x; clear x); (on_goal 2 => revert hx; generalize x = y; clear x; intro hx))
    | (extract_lets +onlyGivenNames x; subst x)
    | dsimp -zeta -letToHave only
    | split)

theorem kept_execControlPeriod {σ : State} (parts : List PartMeasure) (fixed : Nat) (sample : Option Nat) {s : State} (hκ : Kept σ s) :
    OutKept σ (execControlPeriod parts fixed sample s) := by
  unfold execControlPeriod
  repeat' (first
    | with_reducible assumption
    | with_reducible intro _
    | with_reducible apply OutKept.done
    | with_reducible apply kept_issue
    | with_reducible apply kept_takeSample
    | with_reducible apply kept_controlPeriod
    | (extract_lets +onlyGivenNames x; refine Kept.cut (b := σ) x ?_ (fun hx => ?_); (on_goal 1 => unfold x; clear x); (on_goal 2 => revert hx; generalize x = y; clear x; intro hx))
    | (extract_lets +onlyGivenNames x; subst x)
    | dsimp -zeta -letToHave only
    | split)

theorem kept_execPowerSample {σ : State} (watts : Nat) {s : State} (hκ : Kept σ s) :
    OutKept σ (execPowerSample watts s) := by
  unfold execPowerSample
  repeat' (first
    | with_reducible assumption
    | with_reducible intro _
    | with_reducible apply OutKept.done
    | with_reducible apply kept_takeSample
    | dsimp -zeta -letToHave only
    | split)

theorem kept_execPowerCapSet {σ : State} (cid : Nat) {s : State} (hκ : Kept σ s) :
    OutKept σ (execPowerCapSet cid s) := by
  unfold execPowerCapSet
  repeat' (first
    | with_reducible assumption
    | with_reducible intro _
    | with_reducible apply OutKept.done
    | with_reducible apply kept_onPower
    | with_reducible apply kept_onCmd
    | with_reducible apply kept_failCmd
    | with_reducible apply kept_accepted
    | (extract_lets +onlyGivenNames x; refine Kept.cut (b := σ) x ?_ (fun hx => ?_); (on_goal 1 => unfold x; clear x); (on_goal 2 => revert hx; generalize x = y; clear x; intro hx))
    | (extract_lets +onlyGivenNames x; subst x)
    | dsimp -zeta -letToHave only
    | split)

theorem kept_execRegulatorSettled {σ : State} (part : Nat) {s : State} (hκ : Kept σ s) :
    OutKept σ (execRegulatorSettled part s) := by
  unfold execRegulatorSettled
  repeat' (first
    | with_reducible assumption
    | with_reducible intro _
    | with_reducible apply OutKept.done
    | with_reducible apply kept_onPart
    | dsimp -zeta -letToHave only
    | split)

theorem kept_execAvsReadback {σ : State} (part : Nat) (ok : Bool) (mv : Nat) {s : State} (hκ : Kept σ s) :
    OutKept σ (execAvsReadback part ok mv s) := by
  unfold execAvsReadback
  repeat' (first
    | with_reducible assumption
    | with_reducible intro _
    | with_reducible apply OutKept.done
    | with_reducible apply kept_devEvent
    | with_reducible apply kept_uncorrectable
    | with_reducible apply kept_onPart
    | (extract_lets +onlyGivenNames x; refine Kept.cut (b := σ) x ?_ (fun hx => ?_); (on_goal 1 => unfold x; clear x); (on_goal 2 => revert hx; generalize x = y; clear x; intro hx))
    | (extract_lets +onlyGivenNames x; subst x)
    | dsimp -zeta -letToHave only
    | split)

theorem kept_execDroopTrip {σ : State} (cluster : Nat) {s : State} (hκ : Kept σ s) :
    OutKept σ (execDroopTrip cluster s) := by
  unfold execDroopTrip
  repeat' (first
    | with_reducible assumption
    | with_reducible intro _
    | with_reducible apply OutKept.done
    | with_reducible apply kept_onPower
    | with_reducible apply kept_onPart
    | dsimp -zeta -letToHave only
    | split)

theorem kept_execDroopRecover {σ : State} (cluster cycles : Nat) {s : State} (hκ : Kept σ s) :
    OutKept σ (execDroopRecover cluster cycles s) := by
  unfold execDroopRecover
  repeat' (first
    | with_reducible assumption
    | with_reducible intro _
    | with_reducible apply OutKept.done
    | with_reducible apply kept_onPower
    | with_reducible apply kept_onPart
    | (extract_lets +onlyGivenNames x; refine Kept.cut (b := σ) x ?_ (fun hx => ?_); (on_goal 1 => unfold x; clear x); (on_goal 2 => revert hx; generalize x = y; clear x; intro hx))
    | (extract_lets +onlyGivenNames x; subst x)
    | dsimp -zeta -letToHave only
    | split)

end Sys2Proof.Machine
end

