-- ==== Sys2Proof/Laws/KeptResets.lean ====
section
/-!
SUPPORT. What the operations of Machine/Resets.lean keep.
-/

namespace Sys2Proof.Machine

theorem kept_takeDown {σ : State} {s : State} (u : Scope) (hκ : Kept σ s) :
    Kept σ (State.takeDown s u) := by
  unfold State.takeDown
  repeat' (first
    | with_reducible assumption
    | with_reducible intro _
    | with_reducible apply kept_onMt
    | with_reducible apply kept_onVt
    | with_reducible apply kept_onLk
    | with_reducible apply kept_onHe
    | with_reducible apply kept_onLd
    | with_reducible apply kept_failNode
    | with_reducible apply kept_settle
    | with_reducible apply Kept.foldl)

theorem kept_bringUp {σ : State} {s : State} (u : Scope) (hκ : Kept σ s) :
    Kept σ (State.bringUp s u) := by
  unfold State.bringUp
  repeat' (first
    | with_reducible assumption
    | with_reducible intro _
    | with_reducible apply kept_onMt
    | with_reducible apply kept_onVt
    | with_reducible apply kept_onLk
    | with_reducible apply kept_onHe)

theorem kept_restartMould {σ : State} {s : State} (id : Nat) (cid : Option Nat) (hκ : Kept σ s) :
    Kept σ (State.restartMould s id cid) := by
  unfold State.restartMould
  repeat' (first
    | with_reducible assumption
    | with_reducible intro _
    | with_reducible apply kept_holdInit
    | with_reducible apply kept_holdPin
    | with_reducible apply kept_onMould
    | with_reducible apply kept_withdraw
    | with_reducible apply Kept.foldl
    | (extract_lets +onlyGivenNames x; refine Kept.cut (b := σ) x ?_ (fun hx => ?_); (on_goal 1 => unfold x; clear x); (on_goal 2 => revert hx; generalize x = y; clear x; intro hx))
    | (extract_lets +onlyGivenNames x; subst x)
    | dsimp -zeta -letToHave only
    | split)

theorem kept_loadMeetsReset {σ : State} {s : State} (clusters : List Nat) (hκ : Kept σ s) :
    Kept σ (State.loadMeetsReset s clusters) := by
  unfold State.loadMeetsReset
  repeat' (first
    | with_reducible assumption
    | with_reducible intro _
    | with_reducible apply kept_earlyEnd
    | dsimp -zeta -letToHave only
    | split)

theorem kept_restartRings {σ : State} {s : State} (clusters : List Nat) (cid : Option Nat) (hκ : Kept σ s) :
    Kept σ (State.restartRings s clusters cid) := by
  unfold State.restartRings
  repeat' (first
    | with_reducible assumption
    | with_reducible intro _
    | with_reducible apply kept_restartMould
    | with_reducible apply Kept.foldl)

theorem kept_resetRecord {σ : State} {s : State} (c : Cmd) (hκ : Kept σ s) :
    Kept σ (State.resetRecord s c) := by
  unfold State.resetRecord
  repeat' (first
    | with_reducible assumption
    | with_reducible intro _
    | with_reducible apply kept_logRec)

theorem kept_beginReset {σ : State} {s : State} (c : Cmd) (hκ : Kept σ s) :
    Kept σ (State.beginReset s c) := by
  unfold State.beginReset
  repeat' (first
    | with_reducible assumption
    | with_reducible intro _
    | with_reducible apply kept_onGrid
    | with_reducible apply kept_takeDown
    | with_reducible apply kept_loadMeetsReset)

theorem kept_startReset {σ : State} {s : State} (c : Cmd) (hκ : Kept σ s) :
    Kept σ (State.startReset s c) := by
  unfold State.startReset
  repeat' (first
    | with_reducible assumption
    | with_reducible intro _
    | with_reducible apply kept_onCmd
    | with_reducible apply kept_resetRecord
    | with_reducible apply kept_beginReset)

theorem kept_execResetTile {σ : State} (cid : Nat) {s : State} (hκ : Kept σ s) :
    OutKept σ (execResetTile cid s) := by
  unfold execResetTile
  repeat' (first
    | with_reducible assumption
    | with_reducible intro _
    | with_reducible apply OutKept.done
    | with_reducible apply kept_failCmd
    | with_reducible apply kept_accepted
    | with_reducible apply kept_startReset
    | dsimp -zeta -letToHave only
    | split)

theorem kept_execResetCluster {σ : State} (cid : Nat) {s : State} (hκ : Kept σ s) :
    OutKept σ (execResetCluster cid s) := by
  unfold execResetCluster
  repeat' (first
    | with_reducible assumption
    | with_reducible intro _
    | with_reducible apply OutKept.done
    | with_reducible apply kept_failCmd
    | with_reducible apply kept_accepted
    | with_reducible apply kept_restartRings
    | with_reducible apply kept_startReset
    | (extract_lets +onlyGivenNames x; refine Kept.cut (b := σ) x ?_ (fun hx => ?_); (on_goal 1 => unfold x; clear x); (on_goal 2 => revert hx; generalize x = y; clear x; intro hx))
    | (extract_lets +onlyGivenNames x; subst x)
    | dsimp -zeta -letToHave only
    | split)

theorem kept_execResetHearthEngine {σ : State} (cid : Nat) {s : State} (hκ : Kept σ s) :
    OutKept σ (execResetHearthEngine cid s) := by
  unfold execResetHearthEngine
  repeat' (first
    | with_reducible assumption
    | with_reducible intro _
    | with_reducible apply OutKept.done
    | with_reducible apply kept_failCmd
    | with_reducible apply kept_accepted
    | with_reducible apply kept_startReset
    | (extract_lets +onlyGivenNames x; refine Kept.cut (b := σ) x ?_ (fun hx => ?_); (on_goal 1 => unfold x; clear x); (on_goal 2 => revert hx; generalize x = y; clear x; intro hx))
    | (extract_lets +onlyGivenNames x; subst x)
    | dsimp -zeta -letToHave only
    | split)

theorem kept_execResetPartition {σ : State} (cid : Nat) {s : State} (hκ : Kept σ s) :
    OutKept σ (execResetPartition cid s) := by
  unfold execResetPartition
  repeat' (first
    | with_reducible assumption
    | with_reducible intro _
    | with_reducible apply OutKept.done
    | with_reducible apply kept_onSprue
    | with_reducible apply kept_failCmd
    | with_reducible apply kept_accepted
    | with_reducible apply kept_restartRings
    | with_reducible apply kept_startReset
    | (extract_lets +onlyGivenNames x; refine Kept.cut (b := σ) x ?_ (fun hx => ?_); (on_goal 1 => unfold x; clear x); (on_goal 2 => revert hx; generalize x = y; clear x; intro hx))
    | (extract_lets +onlyGivenNames x; subst x)
    | dsimp -zeta -letToHave only
    | split)

theorem kept_endReset {σ : State} {s : State} (c : Cmd) (hκ : Kept σ s) :
    Kept σ (State.endReset s c) := by
  unfold State.endReset
  repeat' (first
    | with_reducible assumption
    | with_reducible intro _
    | with_reducible apply kept_onGrid
    | with_reducible apply kept_bringUp)

theorem kept_endCovered {σ : State} {s : State} (c : Cmd) (hκ : Kept σ s) :
    Kept σ (State.endCovered s c) := by
  unfold State.endCovered
  repeat' (first
    | with_reducible assumption
    | with_reducible intro _
    | with_reducible apply kept_finish
    | with_reducible apply kept_endReset
    | with_reducible apply Kept.foldl)

theorem kept_execResetComplete {σ : State} (cid : Nat) {s : State} (hκ : Kept σ s) :
    OutKept σ (execResetComplete cid s) := by
  unfold execResetComplete
  repeat' (first
    | with_reducible assumption
    | with_reducible intro _
    | with_reducible apply OutKept.done
    | with_reducible apply kept_finish
    | with_reducible apply kept_endReset
    | with_reducible apply kept_endCovered
    | dsimp -zeta -letToHave only
    | split)

theorem kept_execStartMode {σ : State} (cid : Nat) {s : State} (hκ : Kept σ s) :
    OutKept σ (execStartMode cid s) := by
  unfold execStartMode
  repeat' (first
    | with_reducible assumption
    | with_reducible intro _
    | with_reducible apply OutKept.done
    | with_reducible apply kept_finish
    | with_reducible apply kept_failCmd
    | with_reducible apply kept_accepted
    | with_reducible apply kept_updCtl
    | with_reducible refine kept_onBox _ ?_ rfl id
    | dsimp -zeta -letToHave only
    | split)

theorem kept_execProbeFilter {σ : State} (cid : Nat) {s : State} (hκ : Kept σ s) :
    OutKept σ (execProbeFilter cid s) := by
  unfold execProbeFilter
  repeat' (first
    | with_reducible assumption
    | with_reducible intro _
    | with_reducible apply OutKept.done
    | with_reducible apply kept_finish
    | with_reducible apply kept_failCmd
    | with_reducible apply kept_accepted
    | with_reducible apply kept_onUnit
    | (extract_lets +onlyGivenNames x; refine Kept.cut (b := σ) x ?_ (fun hx => ?_); (on_goal 1 => unfold x; clear x); (on_goal 2 => revert hx; generalize x = y; clear x; intro hx))
    | (extract_lets +onlyGivenNames x; subst x)
    | dsimp -zeta -letToHave only
    | split)

theorem kept_execClusterTest {σ : State} (cid : Nat) {s : State} (hκ : Kept σ s) :
    OutKept σ (execClusterTest cid s) := by
  unfold execClusterTest
  repeat' (first
    | with_reducible assumption
    | with_reducible intro _
    | with_reducible apply OutKept.done
    | with_reducible apply kept_onCmd
    | with_reducible apply kept_failCmd
    | with_reducible apply kept_accepted
    | with_reducible apply kept_beginReset
    | dsimp -zeta -letToHave only
    | split)

theorem kept_loseCluster {σ : State} {s : State} (i : Nat) (hκ : Kept σ s) :
    Kept σ (State.loseCluster s i) := by
  unfold State.loseCluster
  repeat' (first
    | with_reducible assumption
    | with_reducible intro _
    | with_reducible apply kept_onGrid
    | with_reducible apply kept_failNode
    | with_reducible apply kept_settle
    | with_reducible apply kept_freeze
    | with_reducible apply kept_loadMeetsReset
    | with_reducible apply Kept.foldl)

theorem kept_zeroSram {σ : State} {s : State} (i : Nat) (hκ : Kept σ s) : Kept σ (State.zeroSram s i) :=
  kept_onPoison _ (kept_onMem _ hκ (fun _ ht => Tab.canon_filter _ ht))

theorem kept_execClusterTestDone {σ : State} (cid : Nat) (cause : Option Nat) {s : State} (hκ : Kept σ s) :
    OutKept σ (execClusterTestDone cid cause s) := by
  unfold execClusterTestDone
  repeat' (first
    | with_reducible assumption
    | with_reducible intro _
    | with_reducible apply OutKept.done
    | with_reducible apply kept_addDefect
    | with_reducible apply kept_devEvent
    | with_reducible apply kept_finish
    | with_reducible apply kept_fall
    | with_reducible apply kept_endReset
    | with_reducible apply kept_endCovered
    | with_reducible apply kept_loseCluster
    | with_reducible apply kept_zeroSram
    | (extract_lets +onlyGivenNames x; refine Kept.cut (b := σ) x ?_ (fun hx => ?_); (on_goal 1 => unfold x; clear x); (on_goal 2 => revert hx; generalize x = y; clear x; intro hx))
    | (extract_lets +onlyGivenNames x; subst x)
    | dsimp -zeta -letToHave only
    | split)

theorem kept_execClusterFail {σ : State} (cluster cause : Nat) {s : State} (hκ : Kept σ s) :
    OutKept σ (execClusterFail cluster cause s) := by
  unfold execClusterFail
  repeat' (first
    | with_reducible assumption
    | with_reducible intro _
    | with_reducible apply OutKept.done
    | with_reducible apply kept_unitFailed
    | with_reducible apply kept_fall
    | with_reducible apply kept_loseCluster
    | dsimp -zeta -letToHave only
    | split)

theorem kept_wipe {σ : State} {s : State} (hκ : Kept σ s) : Kept σ (State.wipe s) :=
  hκ.trans ⟨rfl, fun _ => Tab.canon_nil _, id, id, .refl _, List.prefix_refl _, id, rfl, rfl⟩

theorem kept_deviceReset {σ : State} {s : State} (cause : Nat) (quick : Bool) (hκ : Kept σ s) :
    Kept σ (State.deviceReset s cause quick) := by
  unfold State.deviceReset
  repeat' (first
    | with_reducible assumption
    | with_reducible intro _
    | with_reducible apply kept_onBoot
    | with_reducible apply kept_commitQueue
    | with_reducible apply kept_wipe)

theorem kept_postMany {σ : State} {s : State} (cq n : Nat) (hκ : Kept σ s) : Kept σ (postMany cq n s) := by
  induction n generalizing s with
  | zero => exact hκ
  | succ n ih => exact ih (kept_postCompletion _ _ hκ)

theorem kept_execResetDevice {σ : State} (cid : Nat) {s : State} (hκ : Kept σ s) :
    OutKept σ (execResetDevice cid s) := by
  unfold execResetDevice
  refine OutKept.done (kept_accepted _ _ _ hκ (fun c t ht => ?_))
  dsimp only
  split
  · exact kept_failCmd _ _ ht
  · split
    · exact ht
    · exact kept_deviceReset _ _ (kept_postMany _ _ (kept_finish _ _ _ (kept_resetRecord _ ht)))

theorem kept_powerLost {σ : State} {s : State} (hκ : Kept σ s) :
    Kept σ (State.powerLost s) := by
  unfold State.powerLost
  repeat' (first
    | with_reducible assumption
    | with_reducible intro _
    | with_reducible apply kept_breakCommit
    | with_reducible apply kept_wipe
    | with_reducible apply kept_updCtl
    | with_reducible refine kept_onBox _ ?_ rfl id)

theorem kept_execPowerOnResetAssert {σ : State} {s : State} (hκ : Kept σ s) :
    OutKept σ (execPowerOnResetAssert s) := by
  unfold execPowerOnResetAssert
  repeat' (first
    | with_reducible assumption
    | with_reducible intro _
    | with_reducible apply OutKept.done
    | with_reducible apply kept_powerLost)

end Sys2Proof.Machine
end

