-- ==== Sys2Proof/Laws/KeptBringup.lean ====
section
/-!
SUPPORT. What the operations of Machine/Bringup.lean keep.
-/

namespace Sys2Proof.Machine

theorem kept_takeFindings {σ : State} {s : State} (m : MemFindings) (hκ : Kept σ s) :
    Kept σ (State.takeFindings s m) := by
  unfold State.takeFindings
  repeat' (first
    | with_reducible assumption
    | with_reducible intro _
    | with_reducible apply kept_onBoot)

theorem kept_testedCtl {σ : State} {s : State} (k : Nat) (hκ : Kept σ s) :
    Kept σ (State.testedCtl s k) := by
  unfold State.testedCtl
  repeat' (first
    | with_reducible assumption
    | with_reducible intro _
    | with_reducible apply kept_onCtl
    | with_reducible apply kept_addDefect
    | with_reducible apply kept_devEvent
    | with_reducible apply Kept.foldl
    | (extract_lets +onlyGivenNames x; refine Kept.cut (b := σ) x ?_ (fun hx => ?_); (on_goal 1 => unfold x; clear x); (on_goal 2 => revert hx; generalize x = y; clear x; intro hx))
    | (extract_lets +onlyGivenNames x; subst x)
    | dsimp -zeta -letToHave only
    | split)

theorem kept_loadRemaps {σ : State} {s : State} (k : Nat) (hκ : Kept σ s) :
    Kept σ (State.loadRemaps s k) := by
  unfold State.loadRemaps
  repeat' (first
    | with_reducible assumption
    | with_reducible intro _
    | with_reducible apply kept_onCtl)

theorem kept_fixMapping {σ : State} {s : State} (hκ : Kept σ s) :
    Kept σ (State.fixMapping s) := by
  unfold State.fixMapping
  repeat' (first
    | with_reducible assumption
    | with_reducible intro _
    | with_reducible apply kept_onGrid)

theorem kept_fixLanes {σ : State} {s : State} (hκ : Kept σ s) :
    Kept σ (State.fixLanes s) := by
  unfold State.fixLanes
  repeat' (first
    | with_reducible assumption
    | with_reducible intro _
    | with_reducible apply kept_onVt)

theorem kept_failEngines {σ : State} {s : State} (hκ : Kept σ s) :
    Kept σ (State.failEngines s) := by
  unfold State.failEngines
  repeat' (first
    | with_reducible assumption
    | with_reducible intro _
    | with_reducible apply kept_onHe
    | with_reducible apply Kept.foldl)

theorem kept_bootCores {σ : State} {s : State} (l : List Nat) (hκ : Kept σ s) :
    Kept σ (State.bootCores s l) := by
  unfold State.bootCores
  repeat' (first
    | with_reducible assumption
    | with_reducible intro _
    | with_reducible apply kept_onBoot
    | with_reducible apply kept_onCores)

theorem kept_beginRecord {σ : State} {s : State} (hκ : Kept σ s) : Kept σ (State.beginRecord s) := by
  unfold State.beginRecord
  have h1 : Kept σ (if s.box.ctl.isNone then s.onBox (fun b => (b.putCtl .fresh).updCtl id) else s) := by
    split
    · exact kept_onBox _ hκ (BlackBox.updCtl_defects _ _) (fun k => BlackBox.updCtl_canon _ _ (BlackBox.putCtl_canon _ _ k))
    · exact hκ
  exact kept_updCtl _ (kept_commitQueue (kept_logRec _ _ _ (kept_onBoot _ (kept_onFuses _ h1))))

theorem kept_trainStack {σ : State} {s : State} (f : StartFindings) (k : Nat) (hκ : Kept σ s) :
    Kept σ (State.trainStack s f k) := by
  unfold State.trainStack
  repeat' (first
    | with_reducible assumption
    | with_reducible intro _
    | with_reducible apply kept_onCtl
    | (extract_lets +onlyGivenNames x; refine Kept.cut (b := σ) x ?_ (fun hx => ?_); (on_goal 1 => unfold x; clear x); (on_goal 2 => revert hx; generalize x = y; clear x; intro hx))
    | (extract_lets +onlyGivenNames x; subst x)
    | dsimp -zeta -letToHave only
    | split)

theorem kept_trainChan {σ : State} {s : State} (f : StartFindings) (d : Nat) (hκ : Kept σ s) :
    Kept σ (State.trainChan s f d) := by
  unfold State.trainChan
  repeat' (first
    | with_reducible assumption
    | with_reducible intro _
    | with_reducible apply kept_onCtl
    | (extract_lets +onlyGivenNames x; refine Kept.cut (b := σ) x ?_ (fun hx => ?_); (on_goal 1 => unfold x; clear x); (on_goal 2 => revert hx; generalize x = y; clear x; intro hx))
    | (extract_lets +onlyGivenNames x; subst x)
    | dsimp -zeta -letToHave only
    | split)

theorem kept_trainAll {σ : State} {s : State} (f : StartFindings) (m : MemFindings) (hκ : Kept σ s) :
    Kept σ (State.trainAll s f m) := by
  unfold State.trainAll
  repeat' (first
    | with_reducible assumption
    | with_reducible intro _
    | with_reducible apply kept_onBoot
    | with_reducible apply kept_onPower
    | with_reducible apply kept_after
    | with_reducible apply kept_until
    | with_reducible apply kept_takeFindings
    | with_reducible apply kept_trainStack
    | with_reducible apply kept_trainChan
    | with_reducible apply Kept.foldl)

theorem kept_runStart {σ : State} {s : State} (f : StartFindings) (m : MemFindings) (hκ : Kept σ s) :
    Kept σ (State.runStart s f m) := by
  unfold State.runStart
  repeat' (first
    | with_reducible assumption
    | with_reducible intro _
    | with_reducible apply kept_onBoot
    | with_reducible apply kept_until
    | with_reducible apply kept_chooseFirmware
    | with_reducible apply kept_beginRecord
    | with_reducible apply kept_trainAll
    | refine kept_chooseFirmware_eq (e := by with_reducible assumption) (hκ := ?_)
    | (extract_lets +onlyGivenNames x; refine Kept.cut (b := σ) x ?_ (fun hx => ?_); (on_goal 1 => unfold x; clear x); (on_goal 2 => revert hx; generalize x = y; clear x; intro hx))
    | (extract_lets +onlyGivenNames x; subst x)
    | dsimp -zeta -letToHave only
    | split)

theorem kept_execPowerOnResetRelease {σ : State} (found : StartFindings) (mem : MemFindings) {s : State} (hκ : Kept σ s) :
    OutKept σ (execPowerOnResetRelease found mem s) := by
  unfold execPowerOnResetRelease
  repeat' (first
    | with_reducible assumption
    | with_reducible intro _
    | with_reducible apply OutKept.done
    | with_reducible apply kept_onTime
    | with_reducible apply kept_onBoard
    | with_reducible apply kept_onBoot
    | with_reducible apply kept_after
    | with_reducible apply kept_bootCores
    | with_reducible apply kept_runStart
    | (extract_lets +onlyGivenNames x; refine Kept.cut (b := σ) x ?_ (fun hx => ?_); (on_goal 1 => unfold x; clear x); (on_goal 2 => revert hx; generalize x = y; clear x; intro hx))
    | (extract_lets +onlyGivenNames x; subst x)
    | dsimp -zeta -letToHave only
    | split)

theorem kept_mergeDefects {σ : State} {s : State} (u : UnitFindings) (hκ : Kept σ s) :
    Kept σ (State.mergeDefects s u) := by
  unfold State.mergeDefects
  repeat' (first
    | with_reducible assumption
    | with_reducible intro _
    | with_reducible apply kept_addDefect
    | with_reducible apply kept_testedCtl
    | with_reducible apply Kept.foldl)

theorem kept_microFail {σ : State} {s : State} (x : Nat × Nat) (hκ : Kept σ s) :
    Kept σ (State.microFail s x) := by
  unfold State.microFail
  repeat' (first
    | with_reducible assumption
    | with_reducible intro _
    | with_reducible apply kept_onMt
    | with_reducible apply kept_onVt
    | with_reducible apply kept_onLk
    | with_reducible apply kept_addDefect
    | (extract_lets +onlyGivenNames x; refine Kept.cut (b := σ) x ?_ (fun hx => ?_); (on_goal 1 => unfold x; clear x); (on_goal 2 => revert hx; generalize x = y; clear x; intro hx))
    | (extract_lets +onlyGivenNames x; subst x)
    | dsimp -zeta -letToHave only
    | split)

theorem kept_microEngine {σ : State} {s : State} (x : Nat) (hκ : Kept σ s) :
    Kept σ (State.microEngine s x) := by
  unfold State.microEngine
  repeat' (first
    | with_reducible assumption
    | with_reducible intro _
    | with_reducible apply kept_onHe
    | with_reducible apply kept_addDefect
    | dsimp -zeta -letToHave only
    | split)

theorem kept_fixUnits {σ : State} {s : State} (u : UnitFindings) (hκ : Kept σ s) :
    Kept σ (State.fixUnits s u) := by
  unfold State.fixUnits
  repeat' (first
    | with_reducible assumption
    | with_reducible intro _
    | with_reducible apply kept_onSprue
    | with_reducible apply kept_onCtl
    | with_reducible apply kept_bootShell
    | with_reducible apply kept_loadRemaps
    | with_reducible apply kept_fixMapping
    | with_reducible apply kept_fixLanes
    | with_reducible apply kept_failEngines
    | with_reducible apply kept_microFail
    | with_reducible apply kept_microEngine
    | with_reducible apply Kept.foldl
    | (extract_lets +onlyGivenNames x; refine Kept.cut (b := σ) x ?_ (fun hx => ?_); (on_goal 1 => unfold x; clear x); (on_goal 2 => revert hx; generalize x = y; clear x; intro hx))
    | (extract_lets +onlyGivenNames x; subst x)
    | dsimp -zeta -letToHave only
    | split)

theorem kept_becomeReady {σ : State} {s : State} (u : UnitFindings) (hκ : Kept σ s) :
    Kept σ (State.becomeReady s u) := by
  unfold State.becomeReady
  repeat' (first
    | with_reducible assumption
    | with_reducible intro _
    | with_reducible apply kept_onBoot
    | with_reducible apply kept_logRec
    | with_reducible apply kept_devEvent
    | with_reducible apply kept_enablePorts
    | with_reducible apply kept_ibi
    | (extract_lets +onlyGivenNames x; refine Kept.cut (b := σ) x ?_ (fun hx => ?_); (on_goal 1 => unfold x; clear x); (on_goal 2 => revert hx; generalize x = y; clear x; intro hx))
    | (extract_lets +onlyGivenNames x; subst x)
    | dsimp -zeta -letToHave only
    | split)

theorem kept_execRetentionPauseEnd {σ : State} (mem : MemFindings) (units : UnitFindings) {s : State} (hκ : Kept σ s) :
    OutKept σ (execRetentionPauseEnd mem units s) := by
  unfold execRetentionPauseEnd
  repeat' (first
    | with_reducible assumption
    | with_reducible intro _
    | with_reducible apply OutKept.done
    | with_reducible apply kept_onBoot
    | with_reducible apply kept_after
    | with_reducible apply kept_commitQueue
    | with_reducible apply kept_takeFindings
    | with_reducible apply kept_mergeDefects
    | with_reducible apply kept_fixUnits
    | with_reducible apply kept_becomeReady
    | (extract_lets +onlyGivenNames x; refine Kept.cut (b := σ) x ?_ (fun hx => ?_); (on_goal 1 => unfold x; clear x); (on_goal 2 => revert hx; generalize x = y; clear x; intro hx))
    | (extract_lets +onlyGivenNames x; subst x)
    | dsimp -zeta -letToHave only
    | split)

theorem kept_losePartition {σ : State} {s : State} (p : Nat) (hκ : Kept σ s) :
    Kept σ (State.losePartition s p) := by
  unfold State.losePartition
  repeat' (first
    | with_reducible assumption
    | with_reducible intro _
    | with_reducible apply kept_onGrid
    | with_reducible apply kept_devEvent
    | with_reducible apply kept_stackLost
    | with_reducible apply kept_takeDown
    | with_reducible apply kept_loseCluster
    | with_reducible apply Kept.foldl
    | (extract_lets +onlyGivenNames x; refine Kept.cut (b := σ) x ?_ (fun hx => ?_); (on_goal 1 => unfold x; clear x); (on_goal 2 => revert hx; generalize x = y; clear x; intro hx))
    | (extract_lets +onlyGivenNames x; subst x)
    | dsimp -zeta -letToHave only
    | split)

theorem kept_loseCtls {σ : State} {s : State} (l : List Nat) (hκ : Kept σ s) :
    Kept σ (State.loseCtls s l) := by
  unfold State.loseCtls
  repeat' (first
    | with_reducible assumption
    | with_reducible intro _
    | with_reducible apply kept_onCtl
    | with_reducible apply kept_devEvent
    | with_reducible apply kept_stackLost
    | with_reducible apply kept_takeDown
    | with_reducible apply Kept.foldl
    | (extract_lets +onlyGivenNames x; refine Kept.cut (b := σ) x ?_ (fun hx => ?_); (on_goal 1 => unfold x; clear x); (on_goal 2 => revert hx; generalize x = y; clear x; intro hx))
    | (extract_lets +onlyGivenNames x; subst x)
    | dsimp -zeta -letToHave only
    | split)

theorem kept_losePorts {σ : State} {s : State} (l : List Nat) (hκ : Kept σ s) :
    Kept σ (State.losePorts s l) := by
  unfold State.losePorts
  repeat' (first
    | with_reducible assumption
    | with_reducible intro _
    | with_reducible apply kept_finishLinks
    | with_reducible apply kept_disablePort
    | with_reducible apply Kept.foldl)

theorem kept_loseCxl {σ : State} {s : State} (hκ : Kept σ s) :
    Kept σ (State.loseCxl s) := by
  unfold State.loseCxl
  repeat' (first
    | with_reducible assumption
    | with_reducible intro _
    | with_reducible apply kept_onCxl)

theorem kept_loseRail {σ : State} {s : State} (r : Rail) (hκ : Kept σ s) :
    Kept σ (State.loseRail s r) := by
  unfold State.loseRail
  repeat' (first
    | with_reducible assumption
    | with_reducible intro _
    | with_reducible apply kept_powerLost
    | with_reducible apply kept_losePartition
    | with_reducible apply kept_loseCtls
    | with_reducible apply kept_losePorts
    | with_reducible apply kept_loseCxl
    | dsimp -zeta -letToHave only
    | split)

theorem kept_execRailOutOfRange {σ : State} (rail : Rail) {s : State} (hκ : Kept σ s) :
    OutKept σ (execRailOutOfRange rail s) := by
  unfold execRailOutOfRange
  repeat' (first
    | with_reducible assumption
    | with_reducible intro _
    | with_reducible apply OutKept.done
    | with_reducible apply kept_onBoard
    | with_reducible apply kept_fall
    | with_reducible apply kept_powerLost
    | with_reducible apply kept_loseRail
    | (extract_lets +onlyGivenNames x; refine Kept.cut (b := σ) x ?_ (fun hx => ?_); (on_goal 1 => unfold x; clear x); (on_goal 2 => revert hx; generalize x = y; clear x; intro hx))
    | (extract_lets +onlyGivenNames x; subst x)
    | dsimp -zeta -letToHave only
    | split)

theorem kept_loseRef {σ : State} {s : State} (r : RefClk) (hκ : Kept σ s) :
    Kept σ (State.loseRef s r) := by
  unfold State.loseRef
  repeat' (first
    | with_reducible assumption
    | with_reducible intro _
    | with_reducible apply kept_losePartition
    | with_reducible apply kept_loseCtls
    | with_reducible apply kept_losePorts
    | with_reducible apply kept_loseCxl
    | with_reducible apply Kept.foldl
    | dsimp -zeta -letToHave only
    | split)

theorem kept_execRefclkMissing {σ : State} (ref : RefClk) {s : State} (hκ : Kept σ s) :
    OutKept σ (execRefclkMissing ref s) := by
  unfold execRefclkMissing
  repeat' (first
    | with_reducible assumption
    | with_reducible intro _
    | with_reducible apply OutKept.done
    | with_reducible apply kept_onBoard
    | with_reducible apply kept_fall
    | with_reducible apply kept_loseRef
    | (extract_lets +onlyGivenNames x; refine Kept.cut (b := σ) x ?_ (fun hx => ?_); (on_goal 1 => unfold x; clear x); (on_goal 2 => revert hx; generalize x = y; clear x; intro hx))
    | (extract_lets +onlyGivenNames x; subst x)
    | dsimp -zeta -letToHave only
    | split)

theorem kept_execRefclkDetected {σ : State} (ref : RefClk) {s : State} (hκ : Kept σ s) :
    OutKept σ (execRefclkDetected ref s) := by
  unfold execRefclkDetected
  repeat' (first
    | with_reducible assumption
    | with_reducible intro _
    | with_reducible apply OutKept.done
    | with_reducible apply kept_onBoard
    | with_reducible apply kept_trainAll
    | (extract_lets +onlyGivenNames x; refine Kept.cut (b := σ) x ?_ (fun hx => ?_); (on_goal 1 => unfold x; clear x); (on_goal 2 => revert hx; generalize x = y; clear x; intro hx))
    | (extract_lets +onlyGivenNames x; subst x)
    | dsimp -zeta -letToHave only
    | split)

theorem kept_execPerstNRelease {σ : State} {s : State} (hκ : Kept σ s) :
    OutKept σ (execPerstNRelease s) := by
  unfold execPerstNRelease
  repeat' (first
    | with_reducible assumption
    | with_reducible intro _
    | with_reducible apply OutKept.done
    | with_reducible apply kept_onBoard)

theorem kept_execCoreHeartbeat {σ : State} (core : Nat) {s : State} (hκ : Kept σ s) :
    OutKept σ (execCoreHeartbeat core s) := by
  unfold execCoreHeartbeat
  repeat' (first
    | with_reducible assumption
    | with_reducible intro _
    | with_reducible apply OutKept.done
    | with_reducible apply kept_onCores
    | with_reducible apply kept_after
    | (extract_lets +onlyGivenNames x; refine Kept.cut (b := σ) x ?_ (fun hx => ?_); (on_goal 1 => unfold x; clear x); (on_goal 2 => revert hx; generalize x = y; clear x; intro hx))
    | (extract_lets +onlyGivenNames x; subst x)
    | dsimp -zeta -letToHave only
    | split)

theorem kept_execHeartbeatMiss {σ : State} (core : Nat) {s : State} (hκ : Kept σ s) :
    OutKept σ (execHeartbeatMiss core s) := by
  unfold execHeartbeatMiss
  repeat' (first
    | with_reducible assumption
    | with_reducible intro _
    | with_reducible apply OutKept.done
    | with_reducible apply kept_onBoot
    | with_reducible apply kept_onCores
    | with_reducible apply kept_onCxl
    | with_reducible apply kept_until
    | with_reducible apply kept_abortCmd
    | with_reducible apply kept_unitFailed
    | with_reducible apply kept_breakCommit
    | with_reducible apply kept_loseCxl
    | with_reducible apply Kept.foldl
    | (extract_lets +onlyGivenNames x; refine Kept.cut (b := σ) x ?_ (fun hx => ?_); (on_goal 1 => unfold x; clear x); (on_goal 2 => revert hx; generalize x = y; clear x; intro hx))
    | (extract_lets +onlyGivenNames x; subst x)
    | dsimp -zeta -letToHave only
    | split)

end Sys2Proof.Machine
end

