-- ==== Sys2Proof/Laws/KeptCells.lean ====
section
/-!
SUPPORT. What the operations of Machine/Cells.lean keep.
-/

namespace Sys2Proof.Machine

theorem kept_ramPut {σ : State} {s : State} (i b : Nat) (l : List ((Nat × Nat) × Bool)) (hκ : Kept σ s) :
    Kept σ (State.ramPut s i b l) := by
  unfold State.ramPut
  repeat' (first
    | with_reducible assumption
    | with_reducible intro _
    | with_reducible apply kept_devWrite
    | with_reducible apply Kept.foldl)

theorem kept_ramEdge {σ : State} (s0 : State) (i : Nat) (m : Mould) (x : Nat → Bool) (ck : List Nat) (ev : Net → Bool) (q : Nat)
    {s : State} (b : Nat) (hκ : Kept σ s) : Kept σ (State.ramEdge s0 i m x ck ev q s b) := by
  unfold State.ramEdge
  exact kept_ramPut _ _ _ (kept_onSprue _ hκ)

theorem kept_mouldEdge {σ : State} {s : State} (m : Mould) (ck : List Nat) (hκ : Kept σ s) :
    Kept σ (State.mouldEdge s m ck) := by
  unfold State.mouldEdge
  repeat' (first
    | with_reducible assumption
    | with_reducible intro _
    | with_reducible apply kept_onFree
    | with_reducible apply kept_onSprue
    | with_reducible apply kept_ramEdge
    | with_reducible apply Kept.foldl)

theorem kept_userEdge {σ : State} {s : State} (hκ : Kept σ s) :
    Kept σ (State.userEdge s) := by
  unfold State.userEdge
  repeat' (first
    | with_reducible assumption
    | with_reducible intro _
    | with_reducible apply kept_draw
    | with_reducible apply kept_choose
    | with_reducible apply kept_mouldEdge
    | refine kept_draw_eq (e := by with_reducible assumption) (hκ := ?_)
    | refine kept_choose_eq (e := by with_reducible assumption) (hκ := ?_)
    | (extract_lets +onlyGivenNames x; refine Kept.cut (b := σ) x ?_ (fun hx => ?_); (on_goal 1 => unfold x; clear x); (on_goal 2 => revert hx; generalize x = y; clear x; intro hx))
    | (extract_lets +onlyGivenNames x; subst x)
    | dsimp -zeta -letToHave only
    | split)

end Sys2Proof.Machine
end

