-- ==== Sys2Proof/Laws/KeptCxl.lean ====
section
/-!
SUPPORT. What the operations of Machine/Cxl.lean keep.
-/

namespace Sys2Proof.Machine

theorem kept_hostAnswer {σ : State} {s : State} (data : List Byte) (poison : Bool) (hκ : Kept σ s) :
    Kept σ (State.hostAnswer s data poison) := by
  unfold State.hostAnswer
  repeat' (first
    | with_reducible assumption
    | with_reducible intro _
    | with_reducible apply kept_onCxl)

theorem kept_hostTrip {σ : State} {s : State} (l : Nat) (write : Bool) (data : List Byte) (hκ : Kept σ s) :
    Kept σ (State.hostTrip s l write data).1 := by
  unfold State.hostTrip
  repeat' (first
    | with_reducible assumption
    | with_reducible intro _
    | with_reducible apply kept_lineTrip)

theorem kept_hostTrip_eq {σ : State} {s : State} (l : Nat) (write : Bool) (data : List Byte) {ρ τ} (hκ : Kept σ s) (e : State.hostTrip s l write data = (τ, ρ)) : Kept σ τ := by
  have := kept_hostTrip (l := l) (write := write) (data := data) (hκ := hκ)
  rw [e] at this; exact this

theorem kept_hostLine {σ : State} {s : State} (l : Nat) (err : LineErr) (hκ : Kept σ s) : Kept σ (State.hostLine s l err) := by
  unfold State.hostLine
  split
  · exact hκ
  next k o _ =>
    have h1 := kept_readLine (σ := σ) k o err (kept_ddrAccess k o false hκ)
    dsimp only
    split
    next e => exact kept_hostAnswer _ _ (kept_hostTrip_eq (e := e) (hκ := h1))
    next e => exact kept_hostTrip_eq (e := e) (hκ := h1)

theorem kept_execCxlMemRead {σ : State} (hpa : Nat) (cacheable exclusive : Bool) (err : LineErr) {s : State} (hκ : Kept σ s) :
    OutKept σ (execCxlMemRead hpa cacheable exclusive err s) := by
  unfold execCxlMemRead
  repeat' (first
    | with_reducible assumption
    | with_reducible intro _
    | with_reducible apply OutKept.done
    | with_reducible apply kept_onCxl
    | with_reducible apply kept_enter
    | with_reducible apply kept_hostAnswer
    | with_reducible apply kept_hostLine
    | (extract_lets +onlyGivenNames x; refine Kept.cut (b := σ) x ?_ (fun hx => ?_); (on_goal 1 => unfold x; clear x); (on_goal 2 => revert hx; generalize x = y; clear x; intro hx))
    | (extract_lets +onlyGivenNames x; subst x)
    | dsimp -zeta -letToHave only
    | split)

theorem kept_execCxlMemWrite {σ : State} (hpa : Nat) (data : List Byte) (poison : Bool) {s : State} (hκ : Kept σ s) :
    OutKept σ (execCxlMemWrite hpa data poison s) := by
  unfold execCxlMemWrite
  apply OutKept.done
  split
  · exact hκ
  · split
    · exact kept_devEvent _ _ _ _ hκ
    · have key : ∀ t, Kept σ t → ∀ a b c d, Kept σ (match State.hostTrip t a true b with
          | (s, .notPresent) => s
          | (s, _) => if poison then ((s.devWrite c d).poisonLine c).onCxl (fun c => { c with hostPoison := c.hostPoison + 1 })
              else s.devWrite c d) := by
        intro t ht a b c d
        split
        next e => exact kept_hostTrip_eq (e := e) (hκ := ht)
        next e =>
          have h1 := kept_hostTrip_eq (e := e) (hκ := ht)
          split
          · exact kept_onCxl _ (kept_poisonLine _ (kept_devWrite _ _ h1))
          · exact kept_devWrite _ _ h1
      refine key _ ?_ _ _ _ _
      split
      · exact kept_ddrAccess _ _ _ hκ
      · exact hκ

theorem kept_execMemWrPtl {σ : State} (hpa : Nat) {s : State} (hκ : Kept σ s) :
    OutKept σ (execMemWrPtl hpa s) := by
  unfold execMemWrPtl
  repeat' (first
    | with_reducible assumption
    | with_reducible intro _
    | with_reducible apply OutKept.done
    | with_reducible apply kept_onCxl
    | with_reducible apply kept_devEvent
    | dsimp -zeta -letToHave only
    | split)

theorem kept_releaseLine {σ : State} {s : State} (l : Nat) (hκ : Kept σ s) :
    Kept σ (State.releaseLine s l) := by
  unfold State.releaseLine
  repeat' (first
    | with_reducible assumption
    | with_reducible intro _
    | with_reducible apply kept_onCxl
    | with_reducible apply kept_devWrite
    | with_reducible apply Kept.foldl)

theorem kept_execBiRsp {σ : State} (line : Nat) {s : State} (hκ : Kept σ s) :
    OutKept σ (execBiRsp line s) := by
  unfold execBiRsp
  repeat' (first
    | with_reducible assumption
    | with_reducible intro _
    | with_reducible apply OutKept.done
    | with_reducible apply kept_releaseLine
    | dsimp -zeta -letToHave only
    | split)

theorem kept_execBiTimeout {σ : State} (line : Nat) {s : State} (hκ : Kept σ s) :
    OutKept σ (execBiTimeout line s) := by
  unfold execBiTimeout
  repeat' (first
    | with_reducible assumption
    | with_reducible intro _
    | with_reducible apply OutKept.done
    | with_reducible apply kept_onCxl
    | with_reducible apply kept_poisonLine
    | with_reducible apply kept_devEvent
    | with_reducible apply kept_settle
    | with_reducible apply kept_uncorrectable
    | with_reducible apply kept_failStream
    | with_reducible apply Kept.foldl
    | (extract_lets +onlyGivenNames x; refine Kept.cut (b := σ) x ?_ (fun hx => ?_); (on_goal 1 => unfold x; clear x); (on_goal 2 => revert hx; generalize x = y; clear x; intro hx))
    | (extract_lets +onlyGivenNames x; subst x)
    | dsimp -zeta -letToHave only
    | split)

theorem kept_execHostSnoop {σ : State} (_line : Nat) {s : State} (hκ : Kept σ s) :
    OutKept σ (execHostSnoop _line s) := by
  unfold execHostSnoop
  repeat' (first
    | with_reducible assumption
    | with_reducible intro _
    | with_reducible apply OutKept.done
    | with_reducible apply kept_onCxl)

theorem kept_execHdmDecoderCommit {σ : State} (index base size dpa : Nat) {s : State} (hκ : Kept σ s) :
    OutKept σ (execHdmDecoderCommit index base size dpa s) := by
  unfold execHdmDecoderCommit
  repeat' (first
    | with_reducible assumption
    | with_reducible intro _
    | with_reducible apply OutKept.done
    | with_reducible apply kept_onCxl
    | (extract_lets +onlyGivenNames x; refine Kept.cut (b := σ) x ?_ (fun hx => ?_); (on_goal 1 => unfold x; clear x); (on_goal 2 => revert hx; generalize x = y; clear x; intro hx))
    | (extract_lets +onlyGivenNames x; subst x)
    | dsimp -zeta -letToHave only
    | split)

theorem kept_dropQueues {σ : State} {s : State} (hκ : Kept σ s) :
    Kept σ (State.dropQueues s) := by
  unfold State.dropQueues
  repeat' (first
    | with_reducible assumption
    | with_reducible intro _
    | with_reducible apply kept_onQb
    | with_reducible apply kept_closeSessions
    | with_reducible apply kept_abortCmd
    | with_reducible apply kept_aqCfg
    | with_reducible apply Kept.foldl)

theorem kept_execCxlPortReset {σ : State} (perst : Bool) {s : State} (hκ : Kept σ s) :
    OutKept σ (execCxlPortReset perst s) := by
  unfold execCxlPortReset
  repeat' (first
    | with_reducible assumption
    | with_reducible intro _
    | with_reducible apply OutKept.done
    | with_reducible apply kept_onBoard
    | with_reducible apply kept_onCxl
    | with_reducible apply kept_releaseLine
    | with_reducible apply kept_dropQueues
    | with_reducible apply Kept.foldl
    | (extract_lets +onlyGivenNames x; refine Kept.cut (b := σ) x ?_ (fun hx => ?_); (on_goal 1 => unfold x; clear x); (on_goal 2 => revert hx; generalize x = y; clear x; intro hx))
    | (extract_lets +onlyGivenNames x; subst x)
    | dsimp -zeta -letToHave only
    | split)

theorem kept_execCxlLinkUp {σ : State} (width rate : Nat) {s : State} (hκ : Kept σ s) :
    OutKept σ (execCxlLinkUp width rate s) := by
  unfold execCxlLinkUp
  repeat' (first
    | with_reducible assumption
    | with_reducible intro _
    | with_reducible apply OutKept.done
    | with_reducible apply kept_onCxl
    | dsimp -zeta -letToHave only
    | split)

theorem kept_execDoeRequest {σ : State} (bytes : Nat) (read : Bool) {s : State} (hκ : Kept σ s) :
    OutKept σ (execDoeRequest bytes read s) := by
  unfold execDoeRequest
  repeat' (first
    | with_reducible assumption
    | with_reducible intro _
    | with_reducible apply OutKept.done
    | with_reducible apply kept_onCxl
    | (extract_lets +onlyGivenNames x; refine Kept.cut (b := σ) x ?_ (fun hx => ?_); (on_goal 1 => unfold x; clear x); (on_goal 2 => revert hx; generalize x = y; clear x; intro hx))
    | (extract_lets +onlyGivenNames x; subst x)
    | dsimp -zeta -letToHave only
    | split)

theorem kept_execDoeAbort {σ : State} {s : State} (hκ : Kept σ s) :
    OutKept σ (execDoeAbort s) := by
  unfold execDoeAbort
  repeat' (first
    | with_reducible assumption
    | with_reducible intro _
    | with_reducible apply OutKept.done
    | with_reducible apply kept_onCxl
    | dsimp -zeta -letToHave only
    | split)

theorem kept_doeAnswer {σ : State} {s : State} (f : State → List Byte × State) (hκ : Kept σ s)
    (hf : ∀ t, Kept σ t → Kept σ (f t).2) : Kept σ (State.doeAnswer s f) := by
  unfold State.doeAnswer
  split
  · exact kept_onCxl _ (hf _ hκ)
  · exact hκ

theorem kept_execDoeDiscovery {σ : State} (index : Nat) {s : State} (hκ : Kept σ s) :
    OutKept σ (execDoeDiscovery index s) := by
  unfold execDoeDiscovery
  repeat' (first
    | with_reducible assumption
    | with_reducible intro _
    | with_reducible apply OutKept.done
    | with_reducible apply kept_doeAnswer)

theorem kept_execCdatRead {σ : State} (entry : Nat) {s : State} (hκ : Kept σ s) :
    OutKept σ (execCdatRead entry s) := by
  unfold execCdatRead
  repeat' (first
    | with_reducible assumption
    | with_reducible intro _
    | with_reducible apply OutKept.done
    | with_reducible apply kept_doeAnswer)

theorem kept_spdmAnswer {σ : State} {s : State} (f : State → List Byte × State) (hκ : Kept σ s) (hf : ∀ t, Kept σ t → Kept σ (f t).2) :
    Kept σ (State.spdmAnswer s f) := by
  unfold State.spdmAnswer
  repeat' (first
    | with_reducible assumption
    | with_reducible intro _
    | with_reducible apply kept_doeAnswer)

theorem kept_spdmAfter {σ : State} {s : State} (f : State → List Byte × State) (hκ : Kept σ s) (hf : ∀ t, Kept σ t → Kept σ (f t).2) :
    Kept σ (State.spdmAfter s f) := by
  unfold State.spdmAfter
  repeat' (first
    | with_reducible assumption
    | with_reducible intro _
    | with_reducible apply kept_spdmAnswer
    | with_reducible apply hf
    | dsimp -zeta -letToHave only
    | split)

theorem kept_execGetVersion {σ : State} {s : State} (hκ : Kept σ s) :
    OutKept σ (execGetVersion s) := by
  unfold execGetVersion
  repeat' (first
    | with_reducible assumption
    | with_reducible intro _
    | with_reducible apply OutKept.done
    | with_reducible apply kept_onCxl
    | with_reducible apply kept_spdmAnswer)

theorem kept_execGetCapabilities {σ : State} {s : State} (hκ : Kept σ s) :
    OutKept σ (execGetCapabilities s) := by
  unfold execGetCapabilities
  repeat' (first
    | with_reducible assumption
    | with_reducible intro _
    | with_reducible apply OutKept.done
    | with_reducible apply kept_drawBytes
    | with_reducible apply kept_spdmAnswer)

theorem kept_execNegotiateAlgorithms {σ : State} (rsaPss3072 sha256 : Bool) {s : State} (hκ : Kept σ s) :
    OutKept σ (execNegotiateAlgorithms rsaPss3072 sha256 s) := by
  unfold execNegotiateAlgorithms
  repeat' (first
    | with_reducible assumption
    | with_reducible intro _
    | with_reducible apply OutKept.done
    | with_reducible apply kept_onCxl
    | with_reducible apply kept_spdmAnswer)

theorem kept_execGetDigests {σ : State} {s : State} (hκ : Kept σ s) :
    OutKept σ (execGetDigests s) := by
  unfold execGetDigests
  repeat' (first
    | with_reducible assumption
    | with_reducible intro _
    | with_reducible apply OutKept.done
    | with_reducible apply kept_spdmAfter)

theorem kept_execGetCertificate {σ : State} (slot offset length : Nat) {s : State} (hκ : Kept σ s) :
    OutKept σ (execGetCertificate slot offset length s) := by
  unfold execGetCertificate
  repeat' (first
    | with_reducible assumption
    | with_reducible intro _
    | with_reducible apply OutKept.done
    | with_reducible apply kept_spdmAfter
    | (extract_lets +onlyGivenNames x; refine Kept.cut (b := σ) x ?_ (fun hx => ?_); (on_goal 1 => unfold x; clear x); (on_goal 2 => revert hx; generalize x = y; clear x; intro hx))
    | (extract_lets +onlyGivenNames x; subst x)
    | dsimp -zeta -letToHave only
    | split)

theorem kept_execChallenge {σ : State} (slot : Nat) (nonce : List Byte) {s : State} (hκ : Kept σ s) :
    OutKept σ (execChallenge slot nonce s) := by
  unfold execChallenge
  repeat' (first
    | with_reducible assumption
    | with_reducible intro _
    | with_reducible apply OutKept.done
    | with_reducible apply kept_drawBytes
    | with_reducible apply kept_spdmAfter
    | refine kept_drawBytes_eq (e := by with_reducible assumption) (hκ := ?_)
    | (extract_lets +onlyGivenNames x; refine Kept.cut (b := σ) x ?_ (fun hx => ?_); (on_goal 1 => unfold x; clear x); (on_goal 2 => revert hx; generalize x = y; clear x; intro hx))
    | (extract_lets +onlyGivenNames x; subst x)
    | dsimp -zeta -letToHave only
    | split)

theorem kept_execGetMeasurements {σ : State} (index : Nat) (sign : Bool) (nonce : List Byte) {s : State} (hκ : Kept σ s) :
    OutKept σ (execGetMeasurements index sign nonce s) := by
  unfold execGetMeasurements
  repeat' (first
    | with_reducible assumption
    | with_reducible intro _
    | with_reducible apply OutKept.done
    | with_reducible apply kept_drawBytes
    | with_reducible apply kept_spdmAfter
    | refine kept_drawBytes_eq (e := by with_reducible assumption) (hκ := ?_)
    | (extract_lets +onlyGivenNames x; refine Kept.cut (b := σ) x ?_ (fun hx => ?_); (on_goal 1 => unfold x; clear x); (on_goal 2 => revert hx; generalize x = y; clear x; intro hx))
    | (extract_lets +onlyGivenNames x; subst x)
    | dsimp -zeta -letToHave only
    | split)

theorem kept_execSpdmUnsupported {σ : State} (code : Nat) {s : State} (hκ : Kept σ s) :
    OutKept σ (execSpdmUnsupported code s) := by
  unfold execSpdmUnsupported
  repeat' (first
    | with_reducible assumption
    | with_reducible intro _
    | with_reducible apply OutKept.done
    | with_reducible apply kept_spdmAnswer)

end Sys2Proof.Machine
end

