-- ==== Sys2Proof/Laws/KeptDispatching.lean ====
section
/-!
SUPPORT. What the operations of Machine/Dispatching.lean keep.
-/

namespace Sys2Proof.Machine

theorem kept_pin {σ : State} {s : State} (flask : Nat) (pages : List Nat) (hκ : Kept σ s) :
    Kept σ (State.pin s flask pages) := by
  unfold State.pin
  repeat' (first
    | with_reducible assumption
    | with_reducible intro _
    | with_reducible apply kept_onFlask)

theorem kept_sendHearth {σ : State} {s : State} (k n : Nat) (d : List Byte) (hκ : Kept σ s) :
    Kept σ (State.sendHearth s k n d) := by
  unfold State.sendHearth
  repeat' (first
    | with_reducible assumption
    | with_reducible intro _
    | with_reducible apply kept_blameFirst
    | with_reducible apply kept_pageFault
    | with_reducible apply kept_onDie
    | with_reducible apply kept_onNode
    | with_reducible apply kept_endNode
    | with_reducible apply kept_ctrl
    | with_reducible apply kept_pin
    | refine kept_ctrl_eq (e := by with_reducible assumption) (hκ := ?_)
    | (extract_lets +onlyGivenNames x; refine Kept.cut (b := σ) x ?_ (fun hx => ?_); (on_goal 1 => unfold x; clear x); (on_goal 2 => revert hx; generalize x = y; clear x; intro hx))
    | (extract_lets +onlyGivenNames x; subst x)
    | dsimp -zeta -letToHave only
    | split)

theorem kept_sendNode {σ : State} {s : State} (k n : Nat) (x : Node) (hκ : Kept σ s) :
    Kept σ (State.sendNode s k n x) := by
  unfold State.sendNode
  repeat' (first
    | with_reducible assumption
    | with_reducible intro _
    | with_reducible apply kept_onGraph
    | with_reducible apply kept_blame
    | with_reducible apply kept_pageFault
    | with_reducible apply kept_endNode
    | with_reducible apply kept_ctrl
    | with_reducible apply kept_collDispatch
    | with_reducible apply kept_fabricDispatch
    | with_reducible apply kept_sendHearth
    | refine kept_ctrl_eq (e := by with_reducible assumption) (hκ := ?_)
    | dsimp -zeta -letToHave only
    | split)

theorem kept_execNodeDispatch {σ : State} {s : State} (hκ : Kept σ s) :
    OutKept σ (execNodeDispatch s) := by
  unfold execNodeDispatch
  repeat' (first
    | with_reducible assumption
    | with_reducible intro _
    | with_reducible apply OutKept.done
    | with_reducible apply kept_onNode
    | with_reducible apply kept_sendNode
    | dsimp -zeta -letToHave only
    | split)

theorem kept_sendAgain {σ : State} {s : State} (k n : Nat) (hκ : Kept σ s) :
    Kept σ (State.sendAgain s k n) := by
  unfold State.sendAgain
  repeat' (first
    | with_reducible assumption
    | with_reducible intro _
    | with_reducible apply kept_sendNode
    | dsimp -zeta -letToHave only
    | split)

theorem kept_execHearthDispatchResume {σ : State} (fault : Nat) {s : State} (hκ : Kept σ s) :
    OutKept σ (execHearthDispatchResume fault s) := by
  unfold execHearthDispatchResume
  repeat' (first
    | with_reducible assumption
    | with_reducible intro _
    | with_reducible apply OutKept.done
    | with_reducible apply kept_dropFaults
    | with_reducible apply kept_sendAgain
    | dsimp -zeta -letToHave only
    | split)

end Sys2Proof.Machine
end

