-- ==== Sys2Proof/Laws/KeptFaults.lean ====
section
/-!
SUPPORT. What the operations of Machine/Faults.lean keep.
-/

namespace Sys2Proof.Machine

theorem kept_resumeStream {σ : State} {s : State} (x : Nat) (hκ : Kept σ s) :
    Kept σ (State.resumeStream s x) := by
  unfold State.resumeStream
  repeat' (first
    | with_reducible assumption
    | with_reducible intro _
    | with_reducible apply kept_onCtx
    | with_reducible apply kept_unpause)

theorem kept_wake {σ : State} {s : State} (f : PFault) (hκ : Kept σ s) :
    Kept σ (State.wake s f) := by
  unfold State.wake
  repeat' (first
    | with_reducible assumption
    | with_reducible intro _
    | with_reducible apply kept_dropFaults
    | with_reducible apply kept_takeHeat
    | with_reducible apply kept_placeResume
    | with_reducible apply kept_pumpTx
    | with_reducible apply kept_sendAgain
    | with_reducible apply kept_resumeStream
    | (extract_lets +onlyGivenNames x; refine Kept.cut (b := σ) x ?_ (fun hx => ?_); (on_goal 1 => unfold x; clear x); (on_goal 2 => revert hx; generalize x = y; clear x; intro hx))
    | (extract_lets +onlyGivenNames x; subst x)
    | dsimp -zeta -letToHave only
    | split)

theorem kept_execFlaskMemoryReadDone {σ : State} (fault : Nat) {s : State} (hκ : Kept σ s) :
    OutKept σ (execFlaskMemoryReadDone fault s) := by
  unfold execFlaskMemoryReadDone
  repeat' (first
    | with_reducible assumption
    | with_reducible intro _
    | with_reducible apply OutKept.done
    | with_reducible apply kept_wake
    | dsimp -zeta -letToHave only
    | split)

theorem kept_execPageResident {σ : State} (flask va : Nat) {s : State} (hκ : Kept σ s) :
    OutKept σ (execPageResident flask va s) := by
  unfold execPageResident
  repeat' (first
    | with_reducible assumption
    | with_reducible intro _
    | with_reducible apply OutKept.done
    | with_reducible apply kept_wake
    | with_reducible apply Kept.foldl)

theorem kept_expire {σ : State} {s : State} (f : PFault) (st : Stat) (hκ : Kept σ s) :
    Kept σ (State.expire s f st) := by
  unfold State.expire
  have h := kept_dropFaults (σ := σ) (fun g => g.id == f.id) hκ
  dsimp only
  split
  · exact kept_settle (kept_failStream _ _ h)
  · exact kept_settle (kept_endNode _ _ _ _ (kept_unqueue _ _ _ h))
  · exact kept_expireLoad _ _ h
  · exact kept_settle (kept_failNode _ _ _ h)
  · exact kept_settle (kept_failNode _ _ _ h)
  · exact kept_settle (kept_endHeat _ _ _ _ (kept_onNode _ _ _ h))
  · split
    · exact kept_failVector _ _ _ h
    · exact h
  · split
    · exact kept_abortCmd _ _ h
    · exact h
  · split
    · exact kept_abortCmd _ _ h
    · exact h
  · split
    · exact kept_answer _ _ _ _ _ h
    · exact h
  · exact kept_placeExpire _ _ h
  · split
    · exact kept_decodeStep _ _ h
    · exact kept_prefillStep _ _ h
    · exact h
    · exact kept_stepEnd _ _ _ h

theorem kept_execFaultPatienceExpiry {σ : State} (fault : Nat) {s : State} (hκ : Kept σ s) :
    OutKept σ (execFaultPatienceExpiry fault s) := by
  unfold execFaultPatienceExpiry
  repeat' (first
    | with_reducible assumption
    | with_reducible intro _
    | with_reducible apply OutKept.done
    | with_reducible apply kept_until
    | with_reducible apply kept_wake
    | with_reducible apply kept_expire
    | (extract_lets +onlyGivenNames x; refine Kept.cut (b := σ) x ?_ (fun hx => ?_); (on_goal 1 => unfold x; clear x); (on_goal 2 => revert hx; generalize x = y; clear x; intro hx))
    | (extract_lets +onlyGivenNames x; subst x)
    | dsimp -zeta -letToHave only
    | split)

theorem kept_tryUnmap {σ : State} {s : State} (c : Cmd) (hκ : Kept σ s) :
    Kept σ (State.tryUnmap s c) := by
  unfold State.tryUnmap
  repeat' (first
    | with_reducible assumption
    | with_reducible intro _
    | with_reducible apply kept_onCmd
    | with_reducible apply kept_finish
    | with_reducible apply kept_failCmd
    | with_reducible apply kept_onFlask
    | with_reducible apply kept_wake
    | with_reducible apply Kept.foldl
    | (extract_lets +onlyGivenNames x; refine Kept.cut (b := σ) x ?_ (fun hx => ?_); (on_goal 1 => unfold x; clear x); (on_goal 2 => revert hx; generalize x = y; clear x; intro hx))
    | (extract_lets +onlyGivenNames x; subst x)
    | dsimp -zeta -letToHave only
    | split)

theorem kept_execMemUnmap {σ : State} (cid : Nat) {s : State} (hκ : Kept σ s) :
    OutKept σ (execMemUnmap cid s) := by
  unfold execMemUnmap
  repeat' (first
    | with_reducible assumption
    | with_reducible intro _
    | with_reducible apply OutKept.done
    | with_reducible apply kept_failCmd
    | with_reducible apply kept_tryUnmap
    | dsimp -zeta -letToHave only
    | split)

end Sys2Proof.Machine
end

