-- ==== Sys2Proof/Laws/KeptFlasks.lean ====
section
/-!
SUPPORT. What the operations of Machine/Flasks.lean keep.
-/

namespace Sys2Proof.Machine

theorem kept_execFlaskCreate {σ : State} (cid : Nat) {s : State} (hκ : Kept σ s) :
    OutKept σ (execFlaskCreate cid s) := by
  unfold execFlaskCreate
  repeat' (first
    | with_reducible assumption
    | with_reducible intro _
    | with_reducible apply OutKept.done
    | with_reducible apply kept_onFlasks
    | with_reducible apply kept_onPower
    | with_reducible apply kept_blame
    | with_reducible apply kept_finish
    | with_reducible apply kept_failCmd
    | with_reducible apply kept_accepted
    | with_reducible apply kept_cmdWaits
    | (extract_lets +onlyGivenNames x; refine Kept.cut (b := σ) x ?_ (fun hx => ?_); (on_goal 1 => unfold x; clear x); (on_goal 2 => revert hx; generalize x = y; clear x; intro hx))
    | (extract_lets +onlyGivenNames x; subst x)
    | dsimp -zeta -letToHave only
    | split)

theorem kept_discardHeat {σ : State} {s : State} (k : Nat) (hκ : Kept σ s) :
    Kept σ (State.discardHeat s k) := by
  unfold State.discardHeat
  repeat' (first
    | with_reducible assumption
    | with_reducible intro _
    | with_reducible apply kept_tryWrite
    | with_reducible apply kept_dropFaults
    | with_reducible apply kept_endHeat
    | with_reducible apply kept_dropHeat
    | with_reducible apply kept_closeHeat
    | with_reducible apply kept_discardEntry
    | with_reducible apply kept_dropHeld
    | refine kept_tryWrite_eq (e := by with_reducible assumption) (hκ := ?_)
    | with_reducible apply Kept.foldl
    | (extract_lets +onlyGivenNames x; refine Kept.cut (b := σ) x ?_ (fun hx => ?_); (on_goal 1 => unfold x; clear x); (on_goal 2 => revert hx; generalize x = y; clear x; intro hx))
    | (extract_lets +onlyGivenNames x; subst x)
    | with_reducible apply Kept.foldl_snd
    | dsimp -zeta -letToHave only
    | split)

theorem kept_zeroOnDie {σ : State} {s : State} (f : Flask) (hκ : Kept σ s) : Kept σ (State.zeroOnDie s f) := by
  unfold State.zeroOnDie
  exact kept_onMt _ (kept_onHe _ (kept_onVt _ (Kept.foldl _ _ (kept_onPoison _ (kept_onMem _ hκ (fun _ ht => Tab.canon_filter _ ht)))
    (fun _ _ ht => Kept.foldl _ _ ht (fun _ _ hu => kept_zeroBram _ _ hu)))))

theorem kept_scrub {σ : State} {s : State} (f : Flask) (hκ : Kept σ s) :
    Kept σ (State.scrub s f) := by
  unfold State.scrub
  repeat' (first
    | with_reducible assumption
    | with_reducible intro _
    | with_reducible apply kept_zeroDev
    | with_reducible apply Kept.foldl)

theorem kept_abortFlask {σ : State} {s : State} (n cid : Nat) (hκ : Kept σ s) :
    Kept σ (State.abortFlask s n cid) := by
  unfold State.abortFlask
  repeat' (first
    | with_reducible assumption
    | with_reducible intro _
    | with_reducible apply kept_abortCmd
    | with_reducible apply Kept.foldl)

theorem kept_destroyWork {σ : State} {s : State} (n cid : Nat) (scrub : Bool) (hκ : Kept σ s) :
    Kept σ (State.destroyWork s n cid scrub) := by
  unfold State.destroyWork
  repeat' (first
    | with_reducible assumption
    | with_reducible intro _
    | with_reducible apply kept_onGraph
    | with_reducible apply kept_dropFaults
    | with_reducible apply kept_onFlask
    | with_reducible apply kept_settle
    | with_reducible apply kept_tearDown
    | with_reducible apply kept_failLoadsOf
    | with_reducible apply kept_closeSessions
    | with_reducible apply kept_release
    | with_reducible apply kept_dropGroup
    | with_reducible apply kept_discardHeat
    | with_reducible apply kept_zeroOnDie
    | with_reducible apply kept_scrub
    | with_reducible apply kept_abortFlask
    | with_reducible apply Kept.foldl
    | (extract_lets +onlyGivenNames x; refine Kept.cut (b := σ) x ?_ (fun hx => ?_); (on_goal 1 => unfold x; clear x); (on_goal 2 => revert hx; generalize x = y; clear x; intro hx))
    | (extract_lets +onlyGivenNames x; subst x)
    | dsimp -zeta -letToHave only
    | split)

theorem kept_destroyEnd {σ : State} {s : State} (n cid : Nat) (hκ : Kept σ s) :
    Kept σ (State.destroyEnd s n cid) := by
  unfold State.destroyEnd
  repeat' (first
    | with_reducible assumption
    | with_reducible intro _
    | with_reducible apply kept_onQb
    | with_reducible apply kept_onFlasks
    | with_reducible apply kept_onCmd
    | with_reducible apply kept_finish
    | with_reducible apply kept_onFlask
    | with_reducible apply kept_onQueue
    | with_reducible apply kept_abortQueue
    | with_reducible apply Kept.foldl
    | (extract_lets +onlyGivenNames x; refine Kept.cut (b := σ) x ?_ (fun hx => ?_); (on_goal 1 => unfold x; clear x); (on_goal 2 => revert hx; generalize x = y; clear x; intro hx))
    | (extract_lets +onlyGivenNames x; subst x)
    | dsimp -zeta -letToHave only
    | split)

theorem kept_execFlaskDestroy {σ : State} (cid : Nat) {s : State} (hκ : Kept σ s) :
    OutKept σ (execFlaskDestroy cid s) := by
  unfold execFlaskDestroy
  repeat' (first
    | with_reducible assumption
    | with_reducible intro _
    | with_reducible apply OutKept.done
    | with_reducible apply kept_failCmd
    | with_reducible apply kept_destroyWork
    | with_reducible apply kept_destroyEnd
    | (extract_lets +onlyGivenNames x; refine Kept.cut (b := σ) x ?_ (fun hx => ?_); (on_goal 1 => unfold x; clear x); (on_goal 2 => revert hx; generalize x = y; clear x; intro hx))
    | (extract_lets +onlyGivenNames x; subst x)
    | dsimp -zeta -letToHave only
    | split)

theorem kept_execFlaskFault {σ : State} (flask : Nat) (cmd : Option Nat) {s : State} (hκ : Kept σ s) :
    OutKept σ (execFlaskFault flask cmd s) := by
  unfold execFlaskFault
  repeat' (first
    | with_reducible assumption
    | with_reducible intro _
    | with_reducible apply OutKept.done
    | with_reducible apply kept_flaskFault)

end Sys2Proof.Machine
end

