-- ==== Sys2Proof/Laws/KeptI3c.lean ====
section
/-!
SUPPORT. What the operations of Machine/I3c.lean keep.
-/

namespace Sys2Proof.Machine

theorem kept_onTgt {σ : State} {s : State} (t : I3cTarget) (f : I3cTgt → I3cTgt) (hκ : Kept σ s) :
    Kept σ (State.onTgt s t f) := by
  unfold State.onTgt
  repeat' (first
    | with_reducible assumption
    | with_reducible intro _
    | with_reducible apply kept_onI3c
    | with_reducible apply kept_onI3c2
    | dsimp -zeta -letToHave only
    | split)

theorem kept_ccc {σ : State} {s : State} (t : I3cTarget) (f : I3cTgt → I3cTgt) (hκ : Kept σ s) :
    Kept σ (State.ccc s t f) := by
  unfold State.ccc
  repeat' (first
    | with_reducible assumption
    | with_reducible intro _
    | with_reducible apply kept_onTgt
    | dsimp -zeta -letToHave only
    | split)

theorem kept_cccGet {σ : State} {s : State} (t : I3cTarget) (v : List Byte) (hκ : Kept σ s) :
    Kept σ (State.cccGet s t v) := by
  unfold State.cccGet
  repeat' (first
    | with_reducible assumption
    | with_reducible intro _
    | with_reducible apply kept_ccc)

theorem kept_execEntdaa {σ : State} (target : I3cTarget) (addr : Nat) {s : State} (hκ : Kept σ s) :
    OutKept σ (execEntdaa target addr s) := by
  unfold execEntdaa
  repeat' (first
    | with_reducible assumption
    | with_reducible intro _
    | with_reducible apply OutKept.done
    | with_reducible apply kept_ccc)

theorem kept_execRstdaa {σ : State} (target : I3cTarget) {s : State} (hκ : Kept σ s) :
    OutKept σ (execRstdaa target s) := by
  unfold execRstdaa
  repeat' (first
    | with_reducible assumption
    | with_reducible intro _
    | with_reducible apply OutKept.done
    | with_reducible apply kept_ccc)

theorem kept_execSetnewda {σ : State} (target : I3cTarget) (addr : Nat) {s : State} (hκ : Kept σ s) :
    OutKept σ (execSetnewda target addr s) := by
  unfold execSetnewda
  repeat' (first
    | with_reducible assumption
    | with_reducible intro _
    | with_reducible apply OutKept.done
    | with_reducible apply kept_ccc)

theorem kept_execGetpid {σ : State} (target : I3cTarget) {s : State} (hκ : Kept σ s) :
    OutKept σ (execGetpid target s) := by
  unfold execGetpid
  repeat' (first
    | with_reducible assumption
    | with_reducible intro _
    | with_reducible apply OutKept.done
    | with_reducible apply kept_cccGet)

theorem kept_execGetbcr {σ : State} (target : I3cTarget) {s : State} (hκ : Kept σ s) :
    OutKept σ (execGetbcr target s) := by
  unfold execGetbcr
  repeat' (first
    | with_reducible assumption
    | with_reducible intro _
    | with_reducible apply OutKept.done
    | with_reducible apply kept_cccGet)

theorem kept_execGetdcr {σ : State} (target : I3cTarget) {s : State} (hκ : Kept σ s) :
    OutKept σ (execGetdcr target s) := by
  unfold execGetdcr
  repeat' (first
    | with_reducible assumption
    | with_reducible intro _
    | with_reducible apply OutKept.done
    | with_reducible apply kept_cccGet)

theorem kept_execGetstatus {σ : State} (target : I3cTarget) {s : State} (hκ : Kept σ s) :
    OutKept σ (execGetstatus target s) := by
  unfold execGetstatus
  repeat' (first
    | with_reducible assumption
    | with_reducible intro _
    | with_reducible apply OutKept.done
    | with_reducible apply kept_drawBytes
    | with_reducible apply kept_cccGet)

theorem kept_execGetmwl {σ : State} (target : I3cTarget) {s : State} (hκ : Kept σ s) :
    OutKept σ (execGetmwl target s) := by
  unfold execGetmwl
  repeat' (first
    | with_reducible assumption
    | with_reducible intro _
    | with_reducible apply OutKept.done
    | with_reducible apply kept_cccGet)

theorem kept_execSetmwl {σ : State} (target : I3cTarget) (len : Nat) {s : State} (hκ : Kept σ s) :
    OutKept σ (execSetmwl target len s) := by
  unfold execSetmwl
  repeat' (first
    | with_reducible assumption
    | with_reducible intro _
    | with_reducible apply OutKept.done
    | with_reducible apply kept_ccc)

theorem kept_execGetmrl {σ : State} (target : I3cTarget) {s : State} (hκ : Kept σ s) :
    OutKept σ (execGetmrl target s) := by
  unfold execGetmrl
  repeat' (first
    | with_reducible assumption
    | with_reducible intro _
    | with_reducible apply OutKept.done
    | with_reducible apply kept_cccGet)

theorem kept_execSetmrl {σ : State} (target : I3cTarget) (len : Nat) {s : State} (hκ : Kept σ s) :
    OutKept σ (execSetmrl target len s) := by
  unfold execSetmrl
  repeat' (first
    | with_reducible assumption
    | with_reducible intro _
    | with_reducible apply OutKept.done
    | with_reducible apply kept_ccc)

theorem kept_execEnec {σ : State} (target : I3cTarget) {s : State} (hκ : Kept σ s) :
    OutKept σ (execEnec target s) := by
  unfold execEnec
  repeat' (first
    | with_reducible assumption
    | with_reducible intro _
    | with_reducible apply OutKept.done
    | with_reducible apply kept_ccc)

theorem kept_execDisec {σ : State} (target : I3cTarget) {s : State} (hκ : Kept σ s) :
    OutKept σ (execDisec target s) := by
  unfold execDisec
  repeat' (first
    | with_reducible assumption
    | with_reducible intro _
    | with_reducible apply OutKept.done
    | with_reducible apply kept_ccc)

theorem kept_mgmtRespond {σ : State} {s : State} (t : I3cTarget) (r : List Byte) (hκ : Kept σ s) :
    Kept σ (State.mgmtRespond s t r) := by
  unfold State.mgmtRespond
  repeat' (first
    | with_reducible assumption
    | with_reducible intro _
    | with_reducible apply kept_onTgt)

theorem Kept.ite {σ a b : State} {c : Prop} [Decidable c] (h1 : Kept σ a) (h2 : Kept σ b) : Kept σ (if c then a else b) := by
  split
  · exact h1
  · exact h2

theorem kept_mgmtRequest {σ : State} {s : State} (t : I3cTarget) (f : List Byte) (ops : Nat → Bool) (len : Option Nat)
    (g : List Byte → State → Stat × List Byte × State) (hκ : Kept σ s)
    (hg : ∀ b t, Kept σ t → Kept σ (g b t).2.2) : Kept σ (State.mgmtRequest s t f ops len g) := by
  unfold State.mgmtRequest
  split
  · exact hκ
  · exact Kept.ite (kept_mgmtRespond _ _ hκ) (kept_mgmtRespond _ _ (hg _ _ hκ))

theorem kept_execIdent {σ : State} (target : I3cTarget) (frame : List Byte) {s : State} (hκ : Kept σ s) :
    OutKept σ (execIdent target frame s) := by
  unfold execIdent
  repeat' (first
    | with_reducible assumption
    | with_reducible intro _
    | with_reducible apply OutKept.done
    | with_reducible apply kept_mgmtRequest)

theorem kept_execHealth {σ : State} (target : I3cTarget) (frame : List Byte) {s : State} (hκ : Kept σ s) :
    OutKept σ (execHealth target frame s) := by
  unfold execHealth
  repeat' (first
    | with_reducible assumption
    | with_reducible intro _
    | with_reducible apply OutKept.done
    | with_reducible apply kept_mgmtRequest)

theorem kept_capOverI3c {σ : State} {s : State} (w : Nat) (hκ : Kept σ s) :
    Kept σ (State.capOverI3c s w) := by
  unfold State.capOverI3c
  repeat' (first
    | with_reducible assumption
    | with_reducible intro _
    | with_reducible apply kept_onPower
    | with_reducible apply kept_takeCap
    | (extract_lets +onlyGivenNames x; refine Kept.cut (b := σ) x ?_ (fun hx => ?_); (on_goal 1 => unfold x; clear x); (on_goal 2 => revert hx; generalize x = y; clear x; intro hx))
    | (extract_lets +onlyGivenNames x; subst x)
    | dsimp -zeta -letToHave only
    | split)

theorem kept_execCapSet {σ : State} (target : I3cTarget) (frame : List Byte) {s : State} (hκ : Kept σ s) :
    OutKept σ (execCapSet target frame s) := by
  unfold execCapSet
  repeat' (first
    | with_reducible assumption
    | with_reducible intro _
    | with_reducible apply OutKept.done
    | with_reducible apply kept_mgmtRequest
    | with_reducible apply kept_capOverI3c
    | (extract_lets +onlyGivenNames x; refine Kept.cut (b := σ) x ?_ (fun hx => ?_); (on_goal 1 => unfold x; clear x); (on_goal 2 => revert hx; generalize x = y; clear x; intro hx))
    | (extract_lets +onlyGivenNames x; subst x)
    | dsimp -zeta -letToHave only
    | split)

theorem kept_execBbRead {σ : State} (target : I3cTarget) (frame : List Byte) {s : State} (hκ : Kept σ s) :
    OutKept σ (execBbRead target frame s) := by
  unfold execBbRead
  repeat' (first
    | with_reducible assumption
    | with_reducible intro _
    | with_reducible apply OutKept.done
    | with_reducible apply kept_mgmtRequest
    | (extract_lets +onlyGivenNames x; refine Kept.cut (b := σ) x ?_ (fun hx => ?_); (on_goal 1 => unfold x; clear x); (on_goal 2 => revert hx; generalize x = y; clear x; intro hx))
    | (extract_lets +onlyGivenNames x; subst x)
    | dsimp -zeta -letToHave only
    | split)

theorem kept_execI3cReset {σ : State} (target : I3cTarget) (frame : List Byte) {s : State} (hκ : Kept σ s) :
    OutKept σ (execI3cReset target frame s) := by
  unfold execI3cReset
  repeat' (first
    | with_reducible assumption
    | with_reducible intro _
    | with_reducible apply OutKept.done
    | with_reducible apply kept_onI3c
    | with_reducible apply kept_deviceReset
    | with_reducible apply kept_mgmtRequest
    | (extract_lets +onlyGivenNames x; refine Kept.cut (b := σ) x ?_ (fun hx => ?_); (on_goal 1 => unfold x; clear x); (on_goal 2 => revert hx; generalize x = y; clear x; intro hx))
    | (extract_lets +onlyGivenNames x; subst x)
    | dsimp -zeta -letToHave only
    | split)

theorem kept_execI3cUnsupportedOp {σ : State} (target : I3cTarget) (frame : List Byte) {s : State} (hκ : Kept σ s) :
    OutKept σ (execI3cUnsupportedOp target frame s) := by
  unfold execI3cUnsupportedOp
  repeat' (first
    | with_reducible assumption
    | with_reducible intro _
    | with_reducible apply OutKept.done
    | with_reducible apply kept_mgmtRequest)

theorem kept_execI3cResponseRead {σ : State} (target : I3cTarget) {s : State} (hκ : Kept σ s) :
    OutKept σ (execI3cResponseRead target s) := by
  unfold execI3cResponseRead
  repeat' (first
    | with_reducible assumption
    | with_reducible intro _
    | with_reducible apply OutKept.done
    | with_reducible apply kept_ccc)

end Sys2Proof.Machine
end

