-- ==== Sys2Proof/Laws/KeptRegisters.lean ====
section
/-!
SUPPORT. What the operations of Machine/Registers.lean keep.
-/

namespace Sys2Proof.Machine

theorem kept_unmasked {σ : State} {s : State} (v : Nat) (hκ : Kept σ s) :
    Kept σ (State.unmasked s v) := by
  unfold State.unmasked
  repeat' (first
    | with_reducible assumption
    | with_reducible intro _
    | with_reducible apply kept_onQb
    | dsimp -zeta -letToHave only
    | split)

theorem kept_barWrite {σ : State} (off width v : Nat) {s : State} (hκ : Kept σ s) :
    Kept σ (barWrite off width v s) := by
  unfold barWrite
  repeat' (first
    | with_reducible assumption
    | with_reducible intro _
    | with_reducible apply kept_onQb
    | with_reducible apply kept_unmasked
    | (extract_lets +onlyGivenNames x; refine Kept.cut (b := σ) x ?_ (fun hx => ?_); (on_goal 1 => unfold x; clear x); (on_goal 2 => revert hx; generalize x = y; clear x; intro hx))
    | (extract_lets +onlyGivenNames x; subst x)
    | dsimp -zeta -letToHave only
    | split)

theorem kept_writeReg {σ : State} (r : Reg) (value : W64) {s : State} (hκ : Kept σ s) :
    Kept σ (writeReg r value s) := by
  unfold writeReg
  repeat' (first
    | with_reducible assumption
    | with_reducible intro _
    | with_reducible apply kept_onHb
    | with_reducible apply kept_onNet
    | with_reducible apply kept_onNimra
    | with_reducible apply kept_onCtl
    | with_reducible apply kept_onUnit
    | with_reducible apply kept_barWrite
    | (extract_lets +onlyGivenNames x; refine Kept.cut (b := σ) x ?_ (fun hx => ?_); (on_goal 1 => unfold x; clear x); (on_goal 2 => revert hx; generalize x = y; clear x; intro hx))
    | (extract_lets +onlyGivenNames x; subst x)
    | dsimp -zeta -letToHave only
    | split)

theorem kept_execRegisterWrite {σ : State} (reg : Reg) (value : W64) {s : State} (hκ : Kept σ s) :
    OutKept σ (execRegisterWrite reg value s) := by
  unfold execRegisterWrite
  repeat' (first
    | with_reducible assumption
    | with_reducible intro _
    | with_reducible apply OutKept.done
    | with_reducible apply kept_writeReg)

end Sys2Proof.Machine
end

