-- ==== Sys2Proof/Laws/KeptTelemetry.lean ====
section
/-!
SUPPORT. What the operations of Machine/Telemetry.lean keep.
-/

namespace Sys2Proof.Machine

theorem kept_execTelemetryRead {σ : State} (cid : Nat) (bad : Bool) {s : State} (hκ : Kept σ s) :
    OutKept σ (execTelemetryRead cid bad s) := by
  unfold execTelemetryRead
  repeat' (first
    | with_reducible assumption
    | with_reducible intro _
    | with_reducible apply OutKept.done
    | with_reducible apply kept_hostWrite
    | with_reducible apply kept_finish
    | with_reducible apply kept_failCmd
    | with_reducible apply kept_accepted
    | (extract_lets +onlyGivenNames x; refine Kept.cut (b := σ) x ?_ (fun hx => ?_); (on_goal 1 => unfold x; clear x); (on_goal 2 => revert hx; generalize x = y; clear x; intro hx))
    | (extract_lets +onlyGivenNames x; subst x)
    | dsimp -zeta -letToHave only
    | split)

end Sys2Proof.Machine
end

