-- ==== Sys2Proof/Laws/KeptThermal.lean ====
section
/-!
SUPPORT. What the operations of Machine/Thermal.lean keep.
-/

namespace Sys2Proof.Machine

theorem kept_heatPart {σ : State} {s : State} (t : Temps) (p : Nat) (hκ : Kept σ s) :
    Kept σ (State.heatPart s t p) := by
  unfold State.heatPart
  repeat' (first
    | with_reducible assumption
    | with_reducible intro _
    | with_reducible apply kept_onPart)

theorem kept_heatStack {σ : State} {s : State} (t : Temps) (k : Nat) (hκ : Kept σ s) :
    Kept σ (State.heatStack s t k) := by
  unfold State.heatStack
  repeat' (first
    | with_reducible assumption
    | with_reducible intro _
    | with_reducible apply kept_onPower
    | with_reducible apply kept_onCtl)

theorem kept_shutDown {σ : State} {s : State} (x : Nat × Nat × Int) (hκ : Kept σ s) : Kept σ (State.shutDown s x) := by
  unfold State.shutDown
  have h1 : Kept σ (if s.boot.level = 0 then s else s.setLevel 0) := by
    split
    · exact hκ
    · exact kept_setLevel _ hκ
  exact Kept.of_eq (kept_wipe (kept_commitQueue (kept_logRec _ _ _ h1))) ⟨rfl, rfl, rfl, rfl, rfl, rfl⟩

theorem kept_execThermalSample {σ : State} (temps : Temps) {s : State} (hκ : Kept σ s) :
    OutKept σ (execThermalSample temps s) := by
  unfold execThermalSample
  repeat' (first
    | with_reducible assumption
    | with_reducible intro _
    | with_reducible apply OutKept.done
    | with_reducible apply kept_onPower
    | with_reducible apply kept_ibi
    | with_reducible apply kept_heatPart
    | with_reducible apply kept_heatStack
    | with_reducible apply kept_shutDown
    | with_reducible apply Kept.foldl
    | (extract_lets +onlyGivenNames x; refine Kept.cut (b := σ) x ?_ (fun hx => ?_); (on_goal 1 => unfold x; clear x); (on_goal 2 => revert hx; generalize x = y; clear x; intro hx))
    | (extract_lets +onlyGivenNames x; subst x)
    | dsimp -zeta -letToHave only
    | split)

end Sys2Proof.Machine
end

