-- ==== Sys2Proof/Laws/KeptExec.lean ====
section
/-!
SUPPORT. What every command keeps, and every step.
-/

namespace Sys2Proof.Machine

/-- No command breaks what `Kept` lists. -/
theorem kept_exec (i : Instr) (s : State) : OutKept s (exec i s) := by
  cases i with
  | identify cid bad => exact kept_execIdentify cid bad (.refl s)
  | queueCreate cid => exact kept_execQueueCreate cid (.refl s)
  | queueDelete cid => exact kept_execQueueDelete cid (.refl s)
  | flaskCreate cid => exact kept_execFlaskCreate cid (.refl s)
  | flaskDestroy cid => exact kept_execFlaskDestroy cid (.refl s)
  | memMap cid => exact kept_execMemMap cid (.refl s)
  | memMapRegion cid => exact kept_execMemMapRegion cid (.refl s)
  | memMapMigrate cid => exact kept_execMemMapMigrate cid (.refl s)
  | memUnmap cid => exact kept_execMemUnmap cid (.refl s)
  | memUnmapRegion cid => exact kept_execMemUnmapRegion cid (.refl s)
  | memFill cid => exact kept_execMemFill cid (.refl s)
  | fwLoad cid => exact kept_execFwLoad cid (.refl s)
  | fwLoadShell cid => exact kept_execFwLoadShell cid (.refl s)
  | fwLoadProvisioning cid => exact kept_execFwLoadProvisioning cid (.refl s)
  | mouldLoad cid => exact kept_execMouldLoad cid (.refl s)
  | mouldLoadShell cid => exact kept_execMouldLoadShell cid (.refl s)
  | mouldLoadKey cid => exact kept_execMouldLoadKey cid (.refl s)
  | mouldUnload cid => exact kept_execMouldUnload cid (.refl s)
  | patternRegister cid => exact kept_execPatternRegister cid (.refl s)
  | patternRemove cid => exact kept_execPatternRemove cid (.refl s)
  | resetTile cid => exact kept_execResetTile cid (.refl s)
  | resetCluster cid => exact kept_execResetCluster cid (.refl s)
  | resetHearthEngine cid => exact kept_execResetHearthEngine cid (.refl s)
  | resetPartition cid => exact kept_execResetPartition cid (.refl s)
  | resetDevice cid => exact kept_execResetDevice cid (.refl s)
  | resetComplete cid => exact kept_execResetComplete cid (.refl s)
  | powerCapSet cid => exact kept_execPowerCapSet cid (.refl s)
  | telemetryRead cid bad => exact kept_execTelemetryRead cid bad (.refl s)
  | blackboxRead cid bad => exact kept_execBlackboxRead cid bad (.refl s)
  | defectListRead cid bad => exact kept_execDefectListRead cid bad (.refl s)
  | resourceClaim cid => exact kept_execResourceClaim cid (.refl s)
  | resourceRelease cid => exact kept_execResourceRelease cid (.refl s)
  | nodeConfig cid => exact kept_execNodeConfig cid (.refl s)
  | portDisable cid => exact kept_execPortDisable cid (.refl s)
  | portEnable cid => exact kept_execPortEnable cid (.refl s)
  | retrain cid => exact kept_execRetrain cid (.refl s)
  | groupCreate cid => exact kept_execGroupCreate cid (.refl s)
  | groupDestroy cid => exact kept_execGroupDestroy cid (.refl s)
  | startMode cid => exact kept_execStartMode cid (.refl s)
  | probeFilter cid => exact kept_execProbeFilter cid (.refl s)
  | clusterTest cid => exact kept_execClusterTest cid (.refl s)
  | nop cid => exact kept_execNop cid (.refl s)
  | heatSubmit cid => exact kept_execHeatSubmit cid (.refl s)
  | heatAbort cid => exact kept_execHeatAbort cid (.refl s)
  | heatQuery cid => exact kept_execHeatQuery cid (.refl s)
  | copy cid => exact kept_execCopy cid (.refl s)
  | copyPieceDone cid bad => exact kept_execCopyPieceDone cid bad (.refl s)
  | fence cid => exact kept_execFence cid (.refl s)
  | serveOpen cid => exact kept_execServeOpen cid (.refl s)
  | serveRequest cid bad => exact kept_execServeRequest cid bad (.refl s)
  | serveCancel cid => exact kept_execServeCancel cid (.refl s)
  | serveClose cid => exact kept_execServeClose cid (.refl s)
  | aqCfgWrite value => exact kept_execAqCfgWrite value (.refl s)
  | sqDoorbell width value host => exact kept_execSqDoorbell width value host (.refl s)
  | cqDoorbell width value => exact kept_execCqDoorbell width value (.refl s)
  | registerWrite reg value => exact kept_execRegisterWrite reg value (.refl s)
  | intakeFetch bad => exact kept_execIntakeFetch bad (.refl s)
  | packetAccept qnum => exact kept_execPacketAccept qnum (.refl s)
  | completionPost cq bad => exact kept_execCompletionPost cq bad (.refl s)
  | deviceEventPost bad => exact kept_execDeviceEventPost bad (.refl s)
  | commandTimeout cid => exact kept_execCommandTimeout cid (.refl s)
  | heatLoadBegin flask => exact kept_execHeatLoadBegin flask (.refl s)
  | flaskMemoryReadDone fault => exact kept_execFlaskMemoryReadDone fault (.refl s)
  | nodeDispatch => exact kept_execNodeDispatch (.refl s)
  | hearthDispatchResume fault => exact kept_execHearthDispatchResume fault (.refl s)
  | hostSignal flask heat node bad => exact kept_execHostSignal flask heat node bad (.refl s)
  | nodeComplete flask heat node bad => exact kept_execNodeComplete flask heat node bad (.refl s)
  | nodeRecordWrite flask heat node bad => exact kept_execNodeRecordWrite flask heat node bad (.refl s)
  | heatComplete flask heat => exact kept_execHeatComplete flask heat (.refl s)
  | nodeTimeout flask heat node arrival => exact kept_execNodeTimeout flask heat node arrival (.refl s)
  | heatTimeout flask heat => exact kept_execHeatTimeout flask heat (.refl s)
  | readyAgeing flask heat node => exact kept_execReadyAgeing flask heat node (.refl s)
  | vectorPreempt tile ecc => exact kept_execVectorPreempt tile ecc (.refl s)
  | vectorResume tile => exact kept_execVectorResume tile (.refl s)
  | matrixNodeStart cluster => exact kept_execMatrixNodeStart cluster (.refl s)
  | weightLoadDone tile => exact kept_execWeightLoadDone tile (.refl s)
  | rowCycle tile ecc loop => exact kept_execRowCycle tile ecc loop (.refl s)
  | activityLevelStep tile gap => exact kept_execActivityLevelStep tile gap (.refl s)
  | tileHoldResume tile cycles planned waits => exact kept_execTileHoldResume tile cycles planned waits (.refl s)
  | matrixNodeEnd tile => exact kept_execMatrixNodeEnd tile (.refl s)
  | vectorNodeStart cluster => exact kept_execVectorNodeStart cluster (.refl s)
  | programFetchDone tile => exact kept_execProgramFetchDone tile (.refl s)
  | vectorArithmetic n op => exact kept_execVectorArithmetic n op (.refl s)
  | vectorInteger n op => exact kept_execVectorInteger n op (.refl s)
  | specialFunction n fn => exact kept_execSpecialFunction n fn (.refl s)
  | vcvt n => exact kept_execVcvt n (.refl s)
  | vrsum n op => exact kept_execVrsum n op (.refl s)
  | vrmaxi n => exact kept_execVrmaxi n (.refl s)
  | vperm n => exact kept_execVperm n (.refl s)
  | vbcast n => exact kept_execVbcast n (.refl s)
  | vrand n => exact kept_execVrand n (.refl s)
  | vld i => exact kept_execVld i (.refl s)
  | vst n => exact kept_execVst n (.refl s)
  | scalarOp n op => exact kept_execScalarOp n op (.refl s)
  | cset n c base len space strm cluster => exact kept_execCset n c base len space strm cluster (.refl s)
  | abind n a c => exact kept_execAbind n a c (.refl s)
  | amov n a v => exact kept_execAmov n a v (.refl s)
  | predicateOp n op => exact kept_execPredicateOp n op (.refl s)
  | loop n count body stages rot => exact kept_execLoop n count body stages rot (.refl s)
  | br n target cond => exact kept_execBr n target cond (.refl s)
  | csr n write r => exact kept_execCsr n write r (.refl s)
  | yield n => exact kept_execYield n (.refl s)
  | endProgram n => exact kept_execEndProgram n (.refl s)
  | hearthGangStart stack => exact kept_execHearthGangStart stack (.refl s)
  | hearthNodeEnd stack run bad => exact kept_execHearthNodeEnd stack run bad (.refl s)
  | hearthEngineFail stack engine => exact kept_execHearthEngineFail stack engine (.refl s)
  | hbmSlotGrant stack pc claims => exact kept_execHbmSlotGrant stack pc claims (.refl s)
  | hbmRefresh stack pc => exact kept_execHbmRefresh stack pc (.refl s)
  | streamArm cluster => exact kept_execStreamArm cluster (.refl s)
  | ladleRequestIssue cluster rates => exact kept_execLadleRequestIssue cluster rates (.refl s)
  | ladleResponse cluster ctx req err lost => exact kept_execLadleResponse cluster ctx req err lost (.refl s)
  | partnerRelease cluster ctx bytes stall => exact kept_execPartnerRelease cluster ctx bytes stall (.refl s)
  | streamComplete cluster ctx => exact kept_execStreamComplete cluster ctx (.refl s)
  | pageResident flask va => exact kept_execPageResident flask va (.refl s)
  | pageFaultService fault => exact kept_execPageFaultService fault (.refl s)
  | faultPatienceExpiry fault => exact kept_execFaultPatienceExpiry fault (.refl s)
  | pageMoveDone flask va bad => exact kept_execPageMoveDone flask va bad (.refl s)
  | memoryRead ctrl offset err q => exact kept_execMemoryRead ctrl offset err q (.refl s)
  | memoryWrite ctrl offset data q => exact kept_execMemoryWrite ctrl offset data q (.refl s)
  | regionFillDone cid => exact kept_execRegionFillDone cid (.refl s)
  | memFillDone cid => exact kept_execMemFillDone cid (.refl s)
  | scrubRead ctrl err => exact kept_execScrubRead ctrl err (.refl s)
  | ceBucketLeak ctrl => exact kept_execCeBucketLeak ctrl (.refl s)
  | ddr5Refresh chan rank bank => exact kept_execDdr5Refresh chan rank bank (.refl s)
  | ddr5RowIdleClose chan bank => exact kept_execDdr5RowIdleClose chan bank (.refl s)
  | ddr5PowerDown chan rank => exact kept_execDdr5PowerDown chan rank (.refl s)
  | ddr5SelfRefresh chan rank => exact kept_execDdr5SelfRefresh chan rank (.refl s)
  | dimmTemperatureRead chan temp => exact kept_execDimmTemperatureRead chan temp (.refl s)
  | flitForward unit out link err => exact kept_execFlitForward unit out link err (.refl s)
  | networkResponseTimeout cluster port tag => exact kept_execNetworkResponseTimeout cluster port tag (.refl s)
  | sinkBoundExpiry port cls => exact kept_execSinkBoundExpiry port cls (.refl s)
  | fclkLoss port => exact kept_execFclkLoss port (.refl s)
  | fabricPortEnable port => exact kept_execFabricPortEnable port (.refl s)
  | readRequest port lines => exact kept_execReadRequest port lines (.refl s)
  | lineWrite port va tag data => exact kept_execLineWrite port va tag data (.refl s)
  | endpointMessage port endpoint tag data => exact kept_execEndpointMessage port endpoint tag data (.refl s)
  | streamOutput port ctx last data => exact kept_execStreamOutput port ctx last data (.refl s)
  | fabricCompletion port dtag word result => exact kept_execFabricCompletion port dtag word result (.refl s)
  | fabricRxDeliver port cls waited => exact kept_execFabricRxDeliver port cls waited (.refl s)
  | captureSample cluster data => exact kept_execCaptureSample cluster data (.refl s)
  | mouldLoadBegin => exact kept_execMouldLoadBegin (.refl s)
  | signatureVerified => exact kept_execSignatureVerified (.refl s)
  | imageRecord => exact kept_execImageRecord (.refl s)
  | pllLock part pll => exact kept_execPllLock part pll (.refl s)
  | lockWait => exact kept_execLockWait (.refl s)
  | initEnd => exact kept_execInitEnd (.refl s)
  | writesOn => exact kept_execWritesOn (.refl s)
  | borderOpen => exact kept_execBorderOpen (.refl s)
  | blockRamWindowAccess addr write data portA => exact kept_execBlockRamWindowAccess addr write data portA (.refl s)
  | vbattLost => exact kept_execVbattLost (.refl s)
  | anAgreement port mode => exact kept_execAnAgreement port mode (.refl s)
  | anRestart port => exact kept_execAnRestart port (.refl s)
  | trainingDone port lanes => exact kept_execTrainingDone port lanes (.refl s)
  | trainingTimeout port => exact kept_execTrainingTimeout port (.refl s)
  | alignDone port => exact kept_execAlignDone port (.refl s)
  | alignTimeout port => exact kept_execAlignTimeout port (.refl s)
  | linkLoss port words => exact kept_execLinkLoss port words (.refl s)
  | data port p => exact kept_execData port p (.refl s)
  | ack port p rtt => exact kept_execAck port p rtt (.refl s)
  | ready port p => exact kept_execReady port p (.refl s)
  | rnr port p => exact kept_execRnr port p (.refl s)
  | nack port p => exact kept_execNack port p (.refl s)
  | abort port p => exact kept_execAbort port p (.refl s)
  | probe port p => exact kept_execProbe port p (.refl s)
  | ackTimer port peer => exact kept_execAckTimer port peer (.refl s)
  | resendTimeout port peer psn => exact kept_execResendTimeout port peer psn (.refl s)
  | probeTimer port => exact kept_execProbeTimer port (.refl s)
  | reduceSegmentDone group rank => exact kept_execReduceSegmentDone group rank (.refl s)
  | collectiveComplete flask heat node => exact kept_execCollectiveComplete flask heat node (.refl s)
  | decodeStep loop => exact kept_execDecodeStep loop (.refl s)
  | prefillStep loop => exact kept_execPrefillStep loop (.refl s)
  | stepComplete loop prefill => exact kept_execStepComplete loop prefill (.refl s)
  | unpark session bad => exact kept_execUnpark session bad (.refl s)
  | cxlMemRead hpa cacheable exclusive err => exact kept_execCxlMemRead hpa cacheable exclusive err (.refl s)
  | cxlMemWrite hpa data poison => exact kept_execCxlMemWrite hpa data poison (.refl s)
  | memWrPtl hpa => exact kept_execMemWrPtl hpa (.refl s)
  | biRsp line => exact kept_execBiRsp line (.refl s)
  | biTimeout line => exact kept_execBiTimeout line (.refl s)
  | hostSnoop line => exact kept_execHostSnoop line (.refl s)
  | hdmDecoderCommit index base size dpa => exact kept_execHdmDecoderCommit index base size dpa (.refl s)
  | cxlPortReset perst => exact kept_execCxlPortReset perst (.refl s)
  | cxlLinkUp width rate => exact kept_execCxlLinkUp width rate (.refl s)
  | doeRequest bytes read => exact kept_execDoeRequest bytes read (.refl s)
  | doeAbort => exact kept_execDoeAbort (.refl s)
  | doeDiscovery index => exact kept_execDoeDiscovery index (.refl s)
  | cdatRead entry => exact kept_execCdatRead entry (.refl s)
  | getVersion => exact kept_execGetVersion (.refl s)
  | getCapabilities => exact kept_execGetCapabilities (.refl s)
  | negotiateAlgorithms rsaPss3072 sha256 => exact kept_execNegotiateAlgorithms rsaPss3072 sha256 (.refl s)
  | getDigests => exact kept_execGetDigests (.refl s)
  | getCertificate slot offset length => exact kept_execGetCertificate slot offset length (.refl s)
  | challenge slot nonce => exact kept_execChallenge slot nonce (.refl s)
  | getMeasurements index sign nonce => exact kept_execGetMeasurements index sign nonce (.refl s)
  | spdmUnsupported code => exact kept_execSpdmUnsupported code (.refl s)
  | entdaa target addr => exact kept_execEntdaa target addr (.refl s)
  | rstdaa target => exact kept_execRstdaa target (.refl s)
  | setnewda target addr => exact kept_execSetnewda target addr (.refl s)
  | getpid target => exact kept_execGetpid target (.refl s)
  | getbcr target => exact kept_execGetbcr target (.refl s)
  | getdcr target => exact kept_execGetdcr target (.refl s)
  | getstatus target => exact kept_execGetstatus target (.refl s)
  | getmwl target => exact kept_execGetmwl target (.refl s)
  | setmwl target len => exact kept_execSetmwl target len (.refl s)
  | getmrl target => exact kept_execGetmrl target (.refl s)
  | setmrl target len => exact kept_execSetmrl target len (.refl s)
  | enec target => exact kept_execEnec target (.refl s)
  | disec target => exact kept_execDisec target (.refl s)
  | ident target frame => exact kept_execIdent target frame (.refl s)
  | health target frame => exact kept_execHealth target frame (.refl s)
  | capSet target frame => exact kept_execCapSet target frame (.refl s)
  | bbRead target frame => exact kept_execBbRead target frame (.refl s)
  | i3cReset target frame => exact kept_execI3cReset target frame (.refl s)
  | i3cUnsupportedOp target frame => exact kept_execI3cUnsupportedOp target frame (.refl s)
  | i3cResponseRead target => exact kept_execI3cResponseRead target (.refl s)
  | coreHeartbeat core => exact kept_execCoreHeartbeat core (.refl s)
  | heartbeatMiss core => exact kept_execHeartbeatMiss core (.refl s)
  | powerOnResetRelease found mem => exact kept_execPowerOnResetRelease found mem (.refl s)
  | retentionPauseEnd mem units => exact kept_execRetentionPauseEnd mem units (.refl s)
  | powerOnResetAssert => exact kept_execPowerOnResetAssert (.refl s)
  | railOutOfRange rail => exact kept_execRailOutOfRange rail (.refl s)
  | refclkDetected ref => exact kept_execRefclkDetected ref (.refl s)
  | refclkMissing ref => exact kept_execRefclkMissing ref (.refl s)
  | clusterFail cluster cause => exact kept_execClusterFail cluster cause (.refl s)
  | flaskFault flask cmd => exact kept_execFlaskFault flask cmd (.refl s)
  | powerSample watts => exact kept_execPowerSample watts (.refl s)
  | controlPeriod parts fixed sample => exact kept_execControlPeriod parts fixed sample (.refl s)
  | regulatorSettled part => exact kept_execRegulatorSettled part (.refl s)
  | avsReadback part ok mv => exact kept_execAvsReadback part ok mv (.refl s)
  | droopTrip cluster => exact kept_execDroopTrip cluster (.refl s)
  | droopRecover cluster cycles => exact kept_execDroopRecover cluster cycles (.refl s)
  | thermalSample temps => exact kept_execThermalSample temps (.refl s)
  | blackboxCommit => exact kept_execBlackboxCommit (.refl s)
  | flashProgramDone cid ok => exact kept_execFlashProgramDone cid ok (.refl s)
  | clusterTestDone cid cause => exact kept_execClusterTestDone cid cause (.refl s)
  | perstNRelease => exact kept_execPerstNRelease (.refl s)
  | receivedFrameDrop port why symbols words => exact kept_execReceivedFrameDrop port why symbols words (.refl s)
  | unassignedClass n => exact kept_execUnassignedClass n (.refl s)

/-- What a step does to the queue, and what it keeps of everything else. -/
theorem kept_step {s t : State} (h : step s = .next t) :
    (s.pending = [] ∧ t = (s.after 1).userEdge ∧ Kept s t) ∨ ∃ c rest, s.pending = c :: rest ∧ Kept { s with pending := rest } t := by
  unfold step at h
  split at h
  next e => cases h; exact .inl ⟨e, rfl, kept_userEdge (kept_after _ (.refl s))⟩
  next c rest e => exact .inr ⟨c, rest, e, kept_exec c _ t h⟩

end Sys2Proof.Machine
end

