-- ==== Sys2Proof/WellFormed.lean ====
section
/-!
DEFINITION. Well-formed commands: every operand lies in the range that the spec gives the thing it names. The machine runs
every command; a command that is not well-formed names nothing, and the meanings leave the state as it is.
-/

namespace Sys2Proof

/-- A logical cluster, by its window index (01 R11, R26). -/
def clusterOk (c : Nat) : Bool := c < 96

/-- A matrix tile 4i + t (01 R11). -/
def matrixOk (t : Nat) : Bool := t < 384

/-- A vector tile 2i + v (01 R11). -/
def vectorOk (t : Nat) : Bool := t < 192

/-- A fabric port 4i + q (13 R311). -/
def fportOk (p : Nat) : Bool := p < 384

/-- A Nimra port (16 R370). -/
def eportOk (p : Nat) : Bool := p < 32

/-- A memory controller: a stack or a DDR5 channel (12 R274). -/
def ctrlOk (c : Nat) : Bool := c < 20

/-- A flask (09 R222). -/
def flaskOk (f : Nat) : Bool := f < 16

/-- A line or a slot of 64 bytes. -/
def lineOk (bs : List Byte) : Bool := bs.length == 64

/-- Ranges of the fields of a Nimra packet (16 R378). -/
def NPacket.wf (p : NPacket) : Bool :=
  p.srcNode < 65536 && p.dstNode < 65536 && p.srcFlask < 256 && p.dstFlask < 256 && p.group < 256 && p.rail < 256 &&
  p.psn < 2 ^ 32 && p.ackPsn < 2 ^ 32 && p.seq < 2 ^ 32 && p.op < 256 && p.status < 65536 && p.offset < 2 ^ 64 &&
  p.msg < 2 ^ 32 && p.idx < 65536 && p.count < 65536 && p.epoch < 2 ^ 32 && p.payload.length ≤ 4096

/-- A vector instruction issues on a vector tile (05 R117). -/
def VIssue.wf (i : VIssue) : Bool := vectorOk i.tile && i.waits.all (fun x => x.1 < 32)

/-- Address registers a0 to a15 and LDM offsets (05 R107, R110). -/
def ScOp.wf : ScOp → Bool
  | .load o | .store o => o < 2 ^ 18
  | .sFromA a | .aFromS a => a < 16
  | _ => true

/-- A branch condition's register: s0 to s31, p0 to p7 (05 R107). -/
def BrCond.wf : BrCond → Bool
  | .always => true
  | .zero s | .nonzero s => s < 32
  | .anyTrue p | .allFalse p => p < 8

/-- A register that can be written exists (17 R400 and the telemetry pages of its block). -/
def Reg.wf : Reg → Bool
  | .bar0 o w => o < 0x200000 && (w == 32 || w == 64) && 8 * o % w == 0
  | .hbArb s => s < 8
  | .mcRegion c e h => ctrlOk c && e < 32 && h < 2
  | .mcHash c k => ctrlOk c && k < 16
  | .mcBucket c | .mcScrub c => ctrlOk c
  | .mcDdrCtl c | .mcDdrPd c => c < 12
  | .ntRoute p => p < 4
  | .ntReg c p k => clusterOk c && p < 14 && k < 4
  | .ntCrc => true
  | .ntProbe c => clusterOk c
  | .epCfg p => eportOk p

/-- Findings of a start name existing things (18 R423). -/
def StartFindings.wf (f : StartFindings) : Bool :=
  f.cores.length == 4 && f.stackOk.length == 8 && f.dimms.length == 12 && f.dimmRate.length == 12 && f.dimmSerial.length == 12 &&
  f.dimmRate.all (fun r => r == 0 || r == 4800 || r == 5600 || r == 6400)

/-- Failing lines of a memory test lie in controllers that exist, on line boundaries (18 R425). -/
def MemFindings.wf (f : MemFindings) : Bool := f.lines.all (fun x => ctrlOk x.1 && x.2 % 64 == 0)

/-- Microcode findings name existing tiles and engines (18 R437). -/
def UnitFindings.wf (f : UnitFindings) : Bool :=
  f.microTiles.all (fun x => clusterOk x.1 && x.2 < 8) && f.microEngines.all (· < 512)

/-- One reading of every sensor (19 R456). -/
def Temps.wf (t : Temps) : Bool := t.clusters.length == 96 && t.parts.length == 8 && t.px.length == 4 && t.hbm.length == 8

/-- Bytes of a code word (12 R274). -/
def LineErr.wf (e : LineErr) : Bool := e.flips.all (fun x => x.1 < 80)

/-- Requests that wait are for lines (12 R281). -/
def MemQueue.wf (q : MemQueue) : Bool := q.tag < 65536 && q.others.all (fun r => r.offset % 64 == 0 && r.tag < 65536)

/-- Claims name banks of a pseudo-channel (12 R278). -/
def SlotClaims.wf (c : SlotClaims) : Bool :=
  c.ext.all (fun r => r.bank < 16) && (match c.hearth with | some r => r.bank < 16 | none => true)

/-- Findings name engines of the stack and lines of it (06 R157). -/
def HearthEnd.wf (h : HearthEnd) : Bool :=
  h.corrected.all (fun x => x.1 < 64) && h.outWait.all (fun x => x.1 < 64) && h.lines.all (fun x => x.1 % 64 == 0 && x.2.wf) &&
  (match h.bad with | some e => e < 64 | none => true)

/-- Stalls name stream contexts (07 R177). -/
def waitsOk (l : List (Nat × StallBy)) : Bool := l.all (fun x => x.1 < 32)

/-- The operands of a command lie in their ranges. -/
def Instr.wf : Instr → Bool
  | .identify _ _ | .queueCreate _ | .queueDelete _ | .flaskCreate _ | .flaskDestroy _ | .memMap _ | .memMapRegion _
  | .memMapMigrate _ | .memUnmap _ | .memUnmapRegion _ | .memFill _ | .fwLoad _ | .fwLoadShell _ | .fwLoadProvisioning _
  | .mouldLoad _ | .mouldLoadShell _ | .mouldLoadKey _ | .mouldUnload _ | .patternRegister _ | .patternRemove _
  | .resetTile _ | .resetCluster _ | .resetHearthEngine _ | .resetPartition _ | .resetDevice _ | .resetComplete _
  | .powerCapSet _ | .telemetryRead _ _ | .blackboxRead _ _ | .defectListRead _ _ | .resourceClaim _ | .resourceRelease _
  | .nodeConfig _ | .portDisable _ | .portEnable _ | .retrain _ | .groupCreate _ | .groupDestroy _ | .startMode _
  | .probeFilter _ | .clusterTest _ | .nop _ | .heatSubmit _ | .heatAbort _ | .heatQuery _ | .copy _ | .copyPieceDone _ _
  | .fence _ | .serveOpen _ | .serveRequest _ _ | .serveCancel _ | .serveClose _ | .commandTimeout _ | .regionFillDone _
  | .memFillDone _ | .flashProgramDone _ _ => true
  | .clusterTestDone _ cause => match cause with | some k => 1 ≤ k && k < 8 | none => true
  | .aqCfgWrite _ => true
  | .sqDoorbell w _ _ | .cqDoorbell w _ => w == 64 || w == 32
  | .registerWrite r _ => r.wf
  | .intakeFetch _ | .deviceEventPost _ | .nodeDispatch => true
  | .packetAccept q | .completionPost q _ => q < 2 ^ 20
  | .heatLoadBegin f | .flaskFault f _ => flaskOk f
  | .flaskMemoryReadDone _ | .hearthDispatchResume _ | .pageFaultService _ | .faultPatienceExpiry _ => true
  | .hostSignal f k n _ | .nodeComplete f k n _ | .nodeRecordWrite f k n _ | .nodeTimeout f k n _ => flaskOk f && k < 2 ^ 32 && n < 2 ^ 17
  | .readyAgeing f k n | .collectiveComplete f k n =>
    flaskOk f && k < 2 ^ 32 && n < 2 ^ 17
  | .heatComplete f k | .heatTimeout f k => flaskOk f && k < 2 ^ 32
  | .vectorPreempt t _ | .vectorResume t | .programFetchDone t => vectorOk t
  | .matrixNodeStart c | .vectorNodeStart c | .streamArm c | .ladleRequestIssue c _ | .droopTrip c | .droopRecover c _ => clusterOk c
  | .weightLoadDone t | .rowCycle t _ _ | .activityLevelStep t _ | .matrixNodeEnd t => matrixOk t
  | .tileHoldResume t c p ws => matrixOk t && p ≤ c && waitsOk ws
  | .vectorArithmetic i _ | .vectorInteger i _ | .specialFunction i _ | .vcvt i | .vrsum i _ | .vrmaxi i | .vperm i | .vbcast i
  | .vrand i | .vld i | .vst i | .predicateOp i _ | .yield i | .endProgram i | .unassignedClass i => i.wf
  | .scalarOp i op => i.wf && op.wf
  | .cset i c base len space strm cluster =>
    i.wf && c < 8 && base < 2 ^ 23 && len < 2 ^ 23 && space < 3 && (strm < 32 || strm == 0xFF) && clusterOk cluster
  | .abind i a c => i.wf && a < 16 && c < 8
  | .amov i a v => i.wf && a < 16 && (match v with | .imm o => o < 2 ^ 28 | .scalar s => s < 32)
  | .loop i _ body stages _ => i.wf && 1 ≤ body && 1 ≤ stages && stages ≤ 8
  | .br i target cond => i.wf && target < 4096 && cond.wf
  | .csr i _ s => i.wf && s < 32
  | .hearthGangStart s => s < 8
  | .hearthNodeEnd s _ how => s < 8 && how.wf
  | .hearthEngineFail s e => s < 8 && e < 64
  | .hbmSlotGrant s pc c => s < 8 && pc < 64 && c.wf
  | .hbmRefresh s pc => s < 8 && pc < 64
  | .ladleResponse c x _ e _ => clusterOk c && x < 32 && e.wf
  | .partnerRelease c x _ _ | .streamComplete c x => clusterOk c && x < 32
  | .pageResident f va => flaskOk f && va < 2 ^ 48
  | .pageMoveDone f va bad => flaskOk f && va < 2 ^ 48 && bad.all (fun o => o % 64 == 0)
  | .memoryRead c o e q => ctrlOk c && o % 64 == 0 && e.wf && q.wf
  | .memoryWrite c o d q => ctrlOk c && o % 64 == 0 && lineOk d && q.wf
  | .scrubRead c e => ctrlOk c && e.wf
  | .ceBucketLeak c => ctrlOk c
  | .ddr5Refresh c r b => c < 12 && r < 8 && b < 32
  | .ddr5RowIdleClose c b => c < 12 && b < 256
  | .ddr5PowerDown c r | .ddr5SelfRefresh c r => c < 12 && r < 8
  | .dimmTemperatureRead c _ => c < 12
  | .flitForward u o l _ => u < 137 && o < 14 && l < 16
  | .networkResponseTimeout c p _ => clusterOk c && (p == 1 || p == 6 || (9 ≤ p && p ≤ 12))
  | .sinkBoundExpiry p k => fportOk p && k < 4
  | .fclkLoss p | .fabricPortEnable p => fportOk p
  | .readRequest p ls => fportOk p && 1 ≤ ls.length && ls.length ≤ 8
  | .lineWrite p _ _ d | .endpointMessage p _ _ d => fportOk p && lineOk d
  | .streamOutput p x _ d => fportOk p && x < 32 && lineOk d
  | .fabricCompletion p _ _ r => fportOk p && r.length == 16
  | .fabricRxDeliver p k _ => fportOk p && k < 4
  | .captureSample c _ => clusterOk c
  | .mouldLoadBegin | .signatureVerified | .imageRecord | .lockWait | .initEnd | .writesOn | .borderOpen | .vbattLost => true
  | .pllLock p k => p < 4 && k < 32
  | .blockRamWindowAccess a _ _ pa => a < 2 ^ 48 && pa.all (fun x => x.1 < 8)
  | .anAgreement p _ | .anRestart p | .trainingTimeout p | .alignDone p | .alignTimeout p | .linkLoss p _ | .probeTimer p
  | .ackTimer p _ | .resendTimeout p _ _ | .receivedFrameDrop p _ _ _ => eportOk p
  | .trainingDone p ls => eportOk p && ls.length ≤ 4
  | .data p k | .ready p k | .rnr p k | .nack p k | .abort p k | .probe p k => eportOk p && k.wf
  | .ack p k _ => eportOk p && k.wf
  | .reduceSegmentDone g _ => g < 256
  | .decodeStep l | .prefillStep l | .stepComplete l _ => l < 2 ^ 52
  | .unpark _ _ => true
  | .cxlMemRead a _ _ e => a % 64 == 0 && e.wf
  | .cxlMemWrite a d _ => a % 64 == 0 && lineOk d
  | .memWrPtl a => a % 64 == 0
  | .biRsp l | .biTimeout l | .hostSnoop l => l % 64 == 0
  | .hdmDecoderCommit i _ _ _ => i < 4
  | .cxlPortReset _ => true
  | .cxlLinkUp w r => [1, 2, 4, 8].contains w && [25, 50, 80, 160, 320, 640].contains r
  | .doeRequest _ _ | .doeAbort | .doeDiscovery _ | .cdatRead _ | .getVersion | .getCapabilities | .negotiateAlgorithms _ _
  | .getDigests => true
  | .getCertificate s _ _ => s < 8
  | .challenge s n => s < 8 && n.length == 32
  | .getMeasurements _ _ n => n.length == 32
  | .spdmUnsupported c => c < 256
  | .entdaa _ a | .setnewda _ a => a < 128
  | .setmwl _ n | .setmrl _ n => n < 65536
  | .rstdaa _ | .getpid _ | .getbcr _ | .getdcr _ | .getstatus _ | .getmwl _ | .getmrl _ | .enec _ | .disec _
  | .i3cResponseRead _ => true
  | .ident _ f | .health _ f | .capSet _ f | .bbRead _ f | .i3cReset _ f | .i3cUnsupportedOp _ f => f.length ≤ 256
  | .coreHeartbeat k | .heartbeatMiss k => k < 4
  | .powerOnResetRelease f m => f.wf && m.wf
  | .retentionPauseEnd m u => m.wf && u.wf
  | .powerOnResetAssert | .railOutOfRange _ | .refclkDetected _ | .refclkMissing _ => true
  | .clusterFail c k => clusterOk c && 1 ≤ k && k < 8
  | .powerSample _ => true
  | .controlPeriod ps _ _ => ps.length ≤ 4
  | .regulatorSettled p | .avsReadback p _ _ => p < 4
  | .thermalSample t => t.wf
  | .blackboxCommit | .perstNRelease => true

end Sys2Proof
end

