-- ==== Sys2Proof/Tests/Slice0.lean ====
section
/-!
SUPPORT. Tests: an ill-formed command for each check of WellFormed.lean; a few single commands whose result the spec gives in
numbers; and, for every set of hypotheses that an obligation has, a concrete state and operands that meet all of them
together (`wit_<obligation>_<clause>`).
-/

set_option Elab.async false

namespace Sys2Proof.Machine

open Sys2Proof

/-! ## Small states for the witnesses -/

/-- A running device: level 2, every tile row of the four partitions, all stacks and channels up. -/
def wUp : State :=
  { State.reset with
    boot := { Boot.init with phase := .ready, level := 2, ready := true }
    grid := { Grid.init with rows := [6, 6, 6, 6] }
    board := { State.reset.board with refs := [.sys] }
    mc := (upto 20).map (fun k => (k, { MemCtl.init with train := 1, bytes := 0x1000000000 })) }

/-- Parameters of a command: fields (offset, length, value) over zeros. -/
def wPar (l : List (Nat × Nat × Nat)) : List Byte := l.foldl (fun b x => overlay b x.1 (leBytes x.2.1 x.2.2)) (leBytes 48 0)

/-- A record of n bytes with the fields (offset, length, value). -/
def wRec (n : Nat) (l : List (Nat × Nat × Nat)) : List Byte :=
  l.foldl (fun b x => overlay b x.1 (leBytes x.2.1 x.2.2)) (leBytes n 0)

/-- Command 7, accepted on queue 5. -/
def wCmd (op flask : Nat) (l : List (Nat × Nat × Nat)) (w : Work := .pending) : Cmd :=
  { cid := 7, qnum := 5, opcode := op, suppress := false, intr := false, tag := 3, flask, prio := 2, timeout := 0,
    params := wPar l, accTime := 0, work := w }

/-- The state with one accepted command. -/
def State.wWith (s : State) (c : Cmd) : State := { s with qb := { s.qb with cmds := [c] } }

/-- An active queue with rings of sixteen entries and its own CQ, numbered n. -/
def wQueue (n flask : Nat) : Queue :=
  { sqBase := 0x1000, cqBase := 0x2000, sqLog := 4, cqLog := 4, qclass := 2, st := .active, flask, msix := some 1, cqOf := n,
    phase := true, sqHead := 0, sqTail := 0, cqTail := 0, cqHead := 0, held := none, waiting := [] }

/-- The state with one more queue. -/
def State.wQ (s : State) (n : Nat) (q : Queue) : State := { s with qb := { s.qb with queues := Tab.put s.qb.queues n q } }

/-- A flask with clusters 0 and 1, engines 0 to 3, and a page of HBM at 0x200000 and one of DDR5 at 0x400000. -/
def wFlask : Flask :=
  { clusters := [0, 1], hearth := [0, 1, 2, 3], hbmQuota := 0x40000000, ddrQuota := 0x40000000, nodeQuota := 1000,
    queueQuota := 10, phaseBase := 0, phaseCount := 4, patience := 1000, nomix := false, faulted := false, destroying := false,
    pages := [(0x200000, { size := 0x200000, st := .hbm, write := true, pa := 0x200000, home := .hbm, pins := 0, move := none }),
      (0x400000, { size := 0x200000, st := .ddr, write := true, pa := 0x010000000000, home := .ddr, pins := 0, move := none })] }

/-- A running device with flask 1 and queue 5 of it. -/
def wRun : State := State.wQ { wUp with flasks := [(1, wFlask)] } 5 (wQueue 5 1)

/-- Host bytes from an address. -/
def State.wHost (s : State) (a : Nat) (bs : List Byte) : State := s.hostWrite a bs

/-- Device bytes from an address. -/
def State.wDev (s : State) (a : Nat) (bs : List Byte) : State := s.devWrite a bs

theorem fresh_of {s : State} {cid op : Nat} {c : Cmd} (h : findCmd s cid = some c ∧ c.work = .pending ∧ c.opcode = op) :
    Fresh s cid op c := ⟨h.1, h.2.1, h.2.2⟩

theorem works_of {s : State} {cid : Nat} {w : Work} {c : Cmd} (h : findCmd s cid = some c ∧ c.work = w) : Works s cid w c :=
  ⟨h.1, h.2⟩

/-- The state an outcome goes on to. -/
def nextOf (o : Host.Outcome State Fault Refusal) (s : State) : State := match o with | .next t => t | _ => s

/-- A READY node of a class whose descriptor lies at 0x200000 of its flask. -/
def wNode (cls : Nat) (st : NodePhase) : Node :=
  { cls, preds := [], phaseKey := 0, target := 0, endpoint := 0xFFFF, timeout := 0, descAddr := 0x200000, aux := 0, sdesc := [], st, held := none,
    armed := false, ended := none, status := none, written := false, stale := 0, cvt := [], detail := 0, suspends := 0, result := [],
    readyAt := 0, aged := false, start := 0, finish := 0 }

/-- Heat 4 of flask 1 with its nodes. -/
def wHeat (phase : HeatPhase) (nodes : List Node) : Heat :=
  { id := 4, flask := 1, cid := some 7, loop := none, prio := 2, seq := 0, accTime := 0, timeout := 0, count := nodes.length,
    nodeAddr := 0x200000, recAddr := 0x210000, pattern := none, bindAddr := 0, phase, nodes, verdict := none, firstStale := none }

/-- The key of heat 4 of flask 1. -/
def wKey : Nat := heatKey 1 4

/-- A state with that heat. -/
def State.wHeat (s : State) (h : Heat) : State := s.onGraph (fun g => { g with heats := [(wKey, h)] })

/-- A page fault on a page at 0x200000, which waits as `who`. -/
def wFault (who : Waiter) : PFault := { id := 0, flask := 1, va := 0x200000, who, due := 100, served := false }

theorem pair_of {α β : Type} {x : α × β} {a : α} (h : x.1 = a) : x = (a, x.2) := by subst h; rfl

theorem pairR_of {α β : Type} {x : α × β} {b : β} (h : x.2 = b) : x = (x.1, b) := by subst h; rfl

theorem some_of {α : Type} {x : Option α} (h : x.isSome = true) : x = some (x.get h) := by simp

/-- A VECTOR node (node 0 of heat 4) that issues a program of eight words at 0x200000; its context goes to 0x210000. -/
def wVx : VxRun :=
  { heat := wKey, node := 0, desc := wRec 128 [(0, 8, 0x200000), (8, 8, 0x210000), (88, 2, 8), (96, 8, 0xFFFFFFFFFFFFFFFF)], seed := 0, keys := [0, 0, 0, 0],
    scales := [f32One, f32One, f32One, f32One], fmts := [0, 0, 0, 0], outN := 1, ovfLimit := 0, unfLimit := 0, stalePol := 0,
    progAddr := 0x200000, progLen := 8, slots := [.init], issuing := true, restored := false, rerun := false, stale := 0, streams := [],
    newScales := [], outs := [], ldmOut := [], ldmOld := false, since := 0, ended := false }

/-- Vector tile 3 (cluster 1) runs that node at an instruction word. -/
def wTile (w : W64) : VectorTile := { VectorTile.init with imem := [w], run := some wVx }

/-- Issue with no stall. -/
def wI : VIssue := { tile := 3, paired := false, dep := 0, stream := 0, sram := 0, sfu := 0, cap := 0, waits := [], ecc := .clean }

/-- Flask 1, heat 4 with its VECTOR node dispatched, and that tile. -/
def wOn (w : W64) : State := { wRun.wHeat (wHeat .running [{ wNode 2 .dispatched with target := 1 }]) with vt := [(3, wTile w)] }

/-- An instruction word: class, D, A, B, C and immediate. -/
def wIns (cls d a b c imm : Nat) : W64 :=
  BitVec.ofNat 64 (cls * 2 ^ 60 + d * 2 ^ 41 + a * 2 ^ 35 + b * 2 ^ 29 + c * 2 ^ 23 + imm)

theorem issues_of {s : State} {i : VIssue} {k : Nat} {t : VectorTile} {r : VxRun} {w : W64}
    (h : s.vtile i.tile = t ∧ t.run = some r ∧ vtileUp s i.tile = true ∧ r.issuing = true ∧ r.ended = false ∧
      overran s r.heat r.node = false ∧ readWaits s r.heat r.node = false ∧ t.pc < r.progLen ∧ t.imem.getD t.pc 0 = w ∧ wCls w = k ∧
      s.vops = [] ∧ stageRuns t w = some true ∧ i.ecc ≠ .uncorrectable) (n : Nat) :
    Issues s i k n t r w := by
  obtain ⟨a, b, c, d, e, f, g, h, i, j, k, l, m⟩ := h
  exact ⟨a, b, c, d, e, f, g, h, i, j, by rw [k]; rfl, l, m⟩

/-- The bytes that were read. -/
def gotOf (g : Got) : List Byte := match g with | .ok b => b | _ => []

def gotGood (g : Got) : Bool := match g with | .ok _ => true | _ => false

theorem gotOf_ok {g : Got} (h : gotGood g = true) : g = .ok (gotOf g) := by cases g <;> simp_all [gotGood, gotOf]

/-! ## Hypotheses that can be met: queues, commands, doorbells -/

def wCreate : Cmd := wCmd 0x02 1 [(0, 4, 9), (4, 1, 3), (5, 1, 4), (6, 1, 16), (8, 8, 0x1000), (16, 8, 0x2000), (24, 4, 0xFFFFFFFF), (28, 2, 0xFFFF)]

theorem wit_QueueAndClaimCommands_1 : ∃ s cid c, Fresh s cid 0x02 c ∧ queueCreateCheck s c = .ok :=
  ⟨wRun.wWith wCreate, 7, wCreate, fresh_of (by decide +kernel), by decide +kernel⟩

theorem wit_QueueAndClaimCommands_2 : ∃ s cid c q, Fresh s cid 0x03 c ∧ c.p 0 4 ≠ 0 ∧ c.p 0 4 < 2 ^ 20 ∧ c.p 4 1 = 1 ∧
    c.reserved 5 47 = true ∧ s.queue? (c.p 0 4) = some q ∧ q.flask = c.flask ∧ q.st ≠ .deleting ∧
    s.qb.queues.any (fun x => x.1 != c.p 0 4 && x.2.cqOf == c.p 0 4) = false :=
  ⟨(wRun.wQ 0xFFFFF (wQueue 0xFFFFF 1)).wWith (wCmd 0x03 1 [(0, 4, 0xFFFFF), (4, 1, 1)]), 7, wCmd 0x03 1 [(0, 4, 0xFFFFF), (4, 1, 1)], wQueue 0xFFFFF 1,
    fresh_of (by decide +kernel), by decide +kernel⟩

theorem wit_QueueAndClaimCommands_3 : ∃ s cid c n, Works s cid (.qdel n) c ∧ queueQuiet s n = true ∧
    s.serving.sessions.filter (fun x => x.2.qnum == n) = [] :=
  ⟨(wRun.wQ 9 (wQueue 9 1)).wWith (wCmd 0x03 1 [(0, 4, 9)] (.qdel 9)), 7, wCmd 0x03 1 [(0, 4, 9)] (.qdel 9), 9,
    works_of (by decide +kernel), by decide +kernel⟩

theorem wit_QueueAndClaimCommands_4 : ∃ s cid c, Fresh s cid 0x12 c ∧ claimForm c = true ∧ claimOutside s c = false ∧
    Tab.find? s.claims (claimKey (c.p 0 1) (c.p 4 4)) = none :=
  ⟨wRun.wWith (wCmd 0x12 1 [(0, 1, 1), (1, 1, 3), (4, 4, 1)]), 7, wCmd 0x12 1 [(0, 1, 1), (1, 1, 3), (4, 4, 1)],
    fresh_of (by decide +kernel), by decide +kernel⟩

theorem wit_QueueAndClaimCommands_5 : ∃ s cid c o, Fresh s cid 0x13 c ∧ claimForm c = true ∧
    Tab.find? s.claims (claimKey (c.p 0 1) (c.p 4 4)) = some o ∧ o.owner = c.flask :=
  ⟨{ wRun.wWith (wCmd 0x13 0xFF [(0, 1, 3), (4, 4, 31)]) with claims := [(3103, { owner := 0xFF, use := 0, since := 0 })] }, 7,
    wCmd 0x13 0xFF [(0, 1, 3), (4, 4, 31)], { owner := 0xFF, use := 0, since := 0 }, fresh_of (by decide +kernel), by decide +kernel⟩

theorem wit_NopDoesNothing_1 : ∃ s cid c, Fresh s cid 0x80 c ∧ c.reserved 0 47 = true :=
  ⟨wRun.wWith (wCmd 0x80 1 []), 7, wCmd 0x80 1 [], fresh_of (by decide +kernel), by decide +kernel⟩

theorem wit_NopDoesNothing_2 : ∃ s cid c, Fresh s cid 0x80 c ∧ c.reserved 0 47 = false :=
  ⟨wRun.wWith (wCmd 0x80 1 [(47, 1, 128)]), 7, wCmd 0x80 1 [(47, 1, 128)], fresh_of (by decide +kernel), by decide +kernel⟩

theorem wit_EndOfCommand_1 : ∃ (s : State) (cid : Nat) (c : Cmd) (q : Queue) (st : Stat),
    findCmd s cid = some c ∧ s.queue? c.qnum = some q ∧ (c.suppress = true ∧ st = .ok) :=
  ⟨wRun.wWith { wCmd 0x80 1 [] with suppress := true }, 7, { wCmd 0x80 1 [] with suppress := true }, wQueue 5 1, .ok, by decide +kernel⟩

theorem wit_EndOfCommand_2 : ∃ (s : State) (cid : Nat) (c : Cmd) (q : Queue) (st : Stat),
    findCmd s cid = some c ∧ s.queue? c.qnum = some q ∧ ¬ (c.suppress = true ∧ st = .ok) :=
  ⟨wRun.wWith (wCmd 0x80 1 []), 7, wCmd 0x80 1 [], wQueue 5 1, .ok, by decide +kernel⟩

theorem wit_IdentifyFenceCopy_1 : ∃ s cid c, Fresh s cid 0x01 c ∧ c.flask = 0xFF ∧ c.p 0 8 % 4096 = 0 ∧ c.reserved 8 47 = true :=
  ⟨wRun.wWith (wCmd 0x01 0xFF [(0, 8, 0x3000)]), 7, wCmd 0x01 0xFF [(0, 8, 0x3000)], fresh_of (by decide +kernel), by decide +kernel⟩

theorem wit_IdentifyFenceCopy_2 : ∃ s cid c, Fresh s cid 0x85 c ∧ c.p 0 1 ≤ 1 ∧ c.reserved 1 47 = true ∧ fenceMet s c = true :=
  ⟨wRun.wWith (wCmd 0x85 1 [(0, 1, 1)]), 7, wCmd 0x85 1 [(0, 1, 1)], fresh_of (by decide +kernel), by decide +kernel⟩

theorem wit_IdentifyFenceCopy_2_again : ∃ s cid c, (Works s cid .fence c ∧ c.opcode = 0x85) ∧ c.p 0 1 ≤ 1 ∧ c.reserved 1 47 = true ∧
    fenceMet s c = true :=
  ⟨wRun.wWith (wCmd 0x85 1 [] .fence), 7, wCmd 0x85 1 [] .fence, ⟨works_of (by decide +kernel), rfl⟩, by decide +kernel⟩

theorem wit_IdentifyFenceCopy_2_waits : ∃ s cid c, Fresh s cid 0x85 c ∧ c.p 0 1 ≤ 1 ∧ c.reserved 1 47 = true ∧ fenceMet s c = false :=
  ⟨{ wRun with qb := { wRun.qb with cmds := [{ wCmd 0x80 1 [] with cid := 6 }, wCmd 0x85 1 []] } }, 7, wCmd 0x85 1 [],
    fresh_of (by decide +kernel), by decide +kernel⟩

def wCopy : Cmd := wCmd 0x84 1 [(0, 8, 0x5000), (8, 8, 0x200000), (16, 8, 64), (24, 1, 1)]

theorem wit_IdentifyFenceCopy_3 : ∃ s cid c, Fresh s cid 0x84 c ∧ copyCheck s c = .ok :=
  ⟨wRun.wWith wCopy, 7, wCopy, fresh_of (by decide +kernel), by decide +kernel⟩

theorem wit_IdentifyFenceCopy_4 : ∃ s cid c k bs t w, Works s cid (.copy k) c ∧ s.faults.any (fun f => f.who == .copy cid) = false ∧ k < c.p 16 8 ∧
    (let n := min 0x10000 (c.p 16 8 - k)
     let hostSrc : Bool := bits (c.p 24 1) 0 0 = 1
     let hostDst : Bool := bits (c.p 24 1) 1 1 = 1
     let u := s.reachSide c.flask (c.p 0 8 + k) n hostSrc
     let v := t.reachSide c.flask (c.p 8 8 + k) n hostDst
     readSide u c.flask (c.p 0 8 + k) n hostSrc = .ok bs ∧ u.writeSide c.flask (c.p 8 8 + k) hostDst bs = (.ok [], t) ∧
     v.lineTrips (pxUnit 9) (flitFlask c.flask) (tripsOf v c.flask (c.p 0 8 + k) n hostSrc false [] ++
       tripsOf v c.flask (c.p 8 8 + k) n hostDst true bs) = (w, .ok)) :=
  let c := { wCopy with work := .copy 0 }
  let s := wRun.wWith c
  let t := (s.writeSide 1 0x200000 false (s.hostRead 0x5000 64)).2
  ⟨s, 7, c, 0, s.hostRead 0x5000 64, t, _, works_of (by decide +kernel), by decide +kernel, by decide +kernel, by decide +kernel,
    by decide +kernel, pairR_of (by decide +kernel)⟩

/-- A copy of a host range whose host answers with an error. -/
theorem wit_IdentifyFenceCopy_5 : ∃ s cid c k, Works s cid (.copy k) c ∧ s.faults.any (fun f => f.who == .copy cid) = false ∧
    bits (c.p 24 1) 1 0 ≠ 0 :=
  let c : Cmd := { wCmd 0x84 1 [(16, 8, 64), (24, 1, 1)] with work := .copy 0 }
  ⟨wRun.wWith c, 7, c, 0, works_of (by decide +kernel), by decide +kernel⟩

def wDoor (n idx : Nat) (cq : Nat) : W64 := BitVec.ofNat 64 (n + cq * 2 ^ 20 + idx * 2 ^ 32)

theorem wit_DoorbellsAndQueueZero_1 : ∃ (s : State) (v : W64) (q : Queue) (host : List (Nat × List Byte)),
    doorbellForm (s.hostStores host) 64 v.toNat = true ∧ bits v.toNat 20 20 = 0 ∧
    (s.hostStores host).queue? (bits v.toNat 19 0) = some q ∧ q.st = .active ∧ bits v.toNat 47 32 < q.sqSize ∧
    ringDiff (bits v.toNat 47 32) q.sqTail q.sqSize ≤ q.sqSize - 1 - ringDiff q.sqTail q.sqHead q.sqSize :=
  ⟨wRun, wDoor 5 15 0, wQueue 5 1, [(0x1000, leBytes 64 0x80)], by decide +kernel⟩

theorem wit_DoorbellsAndQueueZero_1_beyond : ∃ (s : State) (v : W64) (q : Queue) (host : List (Nat × List Byte)),
    doorbellForm (s.hostStores host) 64 v.toNat = true ∧ bits v.toNat 20 20 = 0 ∧
    (s.hostStores host).queue? (bits v.toNat 19 0) = some q ∧ q.st = .active ∧ q.sqSize ≤ bits v.toNat 47 32 :=
  ⟨wRun, wDoor 5 16 0, wQueue 5 1, [], by decide +kernel⟩

theorem wit_DoorbellsAndQueueZero_3 : ∃ (s : State) (v : W64) (q o : Queue),
    doorbellForm s 64 v.toNat = true ∧ bits v.toNat 20 20 = 1 ∧ s.queue? (bits v.toNat 19 0) = some q ∧ s.queue? q.cqOf = some o ∧
    bits v.toNat 47 32 < o.cqSize ∧ ringDiff (bits v.toNat 47 32) o.cqHead o.cqSize ≤ ringDiff o.cqTail o.cqHead o.cqSize :=
  ⟨wRun.wQ 5 { wQueue 5 1 with cqTail := 3 }, wDoor 5 3 1, { wQueue 5 1 with cqTail := 3 }, { wQueue 5 1 with cqTail := 3 }, by decide +kernel⟩

/-- A running device whose CXL link is up. -/
def wLinked : State := wUp.onCxl (fun c => { c with link := some (8, 640) })

theorem wit_DoorbellsAndQueueZero_down : cxlUp wUp = false := by decide +kernel

theorem wit_DoorbellsAndQueueZero_4 : ∃ (s : State) (v : W32), cxlUp s = true ∧ s.queue? 0 = none ∧ bits v.toNat 31 31 = 1 ∧
    4 ≤ bits v.toNat 4 0 ∧ bits v.toNat 4 0 ≤ 16 ∧ 4 ≤ bits v.toNat 9 5 ∧ bits v.toNat 9 5 ≤ 16 ∧ s.qb.aqSqBase.toNat % 4096 = 0 ∧
    s.qb.aqCqBase.toNat % 4096 = 0 :=
  ⟨wLinked, BitVec.ofNat 32 (2 ^ 31 + 4 + 16 * 32), by decide +kernel⟩

theorem wit_DoorbellsAndQueueZero_5 : ∃ (s : State) (v : W32) (q : Queue), cxlUp s = true ∧ s.queue? 0 = some q ∧
    bits v.toNat 31 31 = 0 ∧ q.st ≠ .deleting :=
  ⟨wLinked.wQ 0 (wQueue 0 0xFF), 0, wQueue 0 0xFF, by decide +kernel⟩

/-- The fetched packet of a NOP: opcode 0x80, FLASK 1 and CLASS 2. -/
def wNop : List Byte := wRec 64 [(0, 1, 0x80), (4, 1, 1), (5, 1, 2)]

theorem wit_IntakeAndPosting_1 : ∃ (s : State) (n cl u : Nat) (q : Queue), grant s = some (n, cl, u) ∧ s.queue? n = some q ∧
    (let b := s.hostRead (q.sqBase + 64 * q.sqHead) 64
     let t := (s.onQb (fun x => { x with cls := cl, used := u + 1, last := Tab.put x.last cl n })).onQueue n
       (fun q => { q with sqHead := (q.sqHead + 1) % q.sqSize })
     headerCheck t n q b = none ∧ mayAccept t n b = true) :=
  ⟨(wRun.wQ 5 { wQueue 5 1 with sqTail := 1 }).wHost 0x1000 wNop, 5, 2, 0, { wQueue 5 1 with sqTail := 1 }, by decide +kernel⟩

theorem wit_IntakeAndPosting_1_refused : ∃ (s : State) (n cl u : Nat) (q : Queue) (st : Stat), grant s = some (n, cl, u) ∧
    s.queue? n = some q ∧
    (let b := s.hostRead (q.sqBase + 64 * q.sqHead) 64
     let t := (s.onQb (fun x => { x with cls := cl, used := u + 1, last := Tab.put x.last cl n })).onQueue n
       (fun q => { q with sqHead := (q.sqHead + 1) % q.sqSize })
     headerCheck t n q b = some st) :=
  ⟨wRun.wQ 5 { wQueue 5 1 with sqTail := 1 }, 5, 2, 0, { wQueue 5 1 with sqTail := 1 }, .invalid, by decide +kernel⟩

theorem wit_IntakeAndPosting_1_held : ∃ (s : State) (n cl u : Nat) (q : Queue), grant s = some (n, cl, u) ∧ s.queue? n = some q ∧
    (let b := s.hostRead (q.sqBase + 64 * q.sqHead) 64
     let t := (s.onQb (fun x => { x with cls := cl, used := u + 1, last := Tab.put x.last cl n })).onQueue n
       (fun q => { q with sqHead := (q.sqHead + 1) % q.sqSize })
     headerCheck t n q b = none ∧ mayAccept t n b = false) :=
  ⟨((wRun.wQ 5 { wQueue 5 1 with sqTail := 1 }).wHost 0x1000 wNop).wWith (wCmd 0x85 1 [] .fence), 5, 2, 0,
    { wQueue 5 1 with sqTail := 1 }, by decide +kernel⟩

theorem wit_IntakeAndPosting_2 : ∃ (s : State) (n : Nat) (q : Queue) (b : List Byte), s.queue? n = some q ∧ q.held = some b ∧
    mayAccept s n b = true ∧ headerCheck (s.onQueue n (fun q => { q with held := none })) n q b = none :=
  ⟨wRun.wQ 5 { wQueue 5 1 with held := some wNop }, 5, { wQueue 5 1 with held := some wNop }, wNop, by decide +kernel⟩

def wEntry : Entry := { cid := some 7, qnum := 5, tag := 3, stat := .ok, opcode := 0x80, flask := 1, result := zeros16, intr := true }

theorem wit_IntakeAndPosting_3 : ∃ (s : State) (n : Nat) (q : Queue) (e : Entry) (rest : List Entry), s.queue? n = some q ∧
    q.waiting = e :: rest ∧ q.cqRoom = true :=
  ⟨wRun.wQ 5 { wQueue 5 1 with waiting := [wEntry] }, 5, { wQueue 5 1 with waiting := [wEntry] }, wEntry, [], by decide +kernel⟩

theorem wit_IntakeAndPosting_4 : ∃ (s : State) (q : Queue) (e : DevEvent) (rest : List DevEvent), s.queue? 0 = some q ∧
    s.qb.events = e :: rest ∧ q.st ≠ .deleting ∧ q.cqRoom = true :=
  let e : DevEvent := { code := 4, stat := .ok, byte1 := 0, data := 0, flask := 0xFF, qnum := 0 }
  let s := wUp.wQ 0 (wQueue 0 0xFF)
  ⟨{ s with qb := { s.qb with events := [e] } }, wQueue 0 0xFF, e, [], by decide +kernel⟩

theorem wit_IntakeAndPosting_5 : ∃ (s : State) (cid : Nat) (c : Cmd), findCmd s cid = some c ∧ c.timeout ≠ 0 ∧ c.qnum < 2 ^ 20 ∧
    c.work = .pending :=
  ⟨wRun.wWith { wCmd 0x80 1 [] with timeout := 1 }, 7, { wCmd 0x80 1 [] with timeout := 1 }, by decide +kernel⟩

/-! ## Pages, regions, fills, lines -/

def wMap : Cmd := wCmd 0x06 1 [(0, 8, 0x600000), (8, 8, 0x20000), (17, 1, 2), (18, 1, 1), (19, 1, 1), (20, 1, 0xFF), (24, 8, 0x10000)]

theorem wit_PageCommands_1 : ∃ s cid c t, Fresh s cid 0x06 c ∧ c.p 16 1 = 0 ∧ mapCheck s c = .ok ∧
    s.mapPages c (psizeBytes (c.p 18 1)) ((upto (c.p 8 8 / psizeBytes (c.p 18 1))).map (· * psizeBytes (c.p 18 1))) = some t :=
  let s := wRun.wWith wMap
  ⟨s, 7, wMap, (s.mapPages wMap 0x10000 [0, 0x10000]).getD s, fresh_of (by decide +kernel), by decide +kernel⟩

def wMigrate : Cmd := wCmd 0x06 1 [(0, 8, 0x200000), (8, 8, 0x200000), (16, 1, 2), (17, 1, 2), (19, 1, 3), (20, 1, 0xFF), (32, 8, 0x40000)]

theorem wit_PageCommands_2 : ∃ s cid c f l t, Fresh s cid 0x06 c ∧ c.p 16 1 = 2 ∧ mapCheck s c = .ok ∧ s.flask? c.flask = some f ∧
    s.planMoves c ((pagesIn f (c.p 0 8) (c.p 8 8)).map (·.1)) = some (l, t) :=
  let s := wRun.wWith wMigrate
  ⟨s, 7, wMigrate, wFlask, [0x200000], ((s.planMoves wMigrate [0x200000]).map (·.2)).getD s, fresh_of (by decide +kernel), by decide +kernel⟩

theorem wit_PageCommands_3 : ∃ s cid c f, (Fresh s cid 0x07 c ∧ c.reserved 17 47 = true ∧ c.flask < 16 ∧
    whollyMapped f (c.p 0 8) (c.p 8 8) = true) ∧ c.p 16 1 = 0 ∧ s.flask? c.flask = some f ∧
    (∀ p ∈ pagesIn f (c.p 0 8) (c.p 8 8), p.2.idle s = true) :=
  let c := wCmd 0x07 1 [(0, 8, 0x200000), (8, 8, 0x400000)]
  ⟨wRun.wWith c, 7, c, wFlask, ⟨fresh_of (by decide +kernel), by decide +kernel⟩, by decide +kernel⟩

theorem wit_PageCommands_3_later : ∃ s cid c f, (Works s cid .unmap c ∧ c.opcode = 0x07) ∧ c.p 16 1 = 0 ∧ s.flask? c.flask = some f ∧
    (∀ p ∈ pagesIn f (c.p 0 8) (c.p 8 8), p.2.idle s = true) :=
  let c := wCmd 0x07 1 [(0, 8, 0x200000), (8, 8, 0x400000)] .unmap
  ⟨wRun.wWith c, 7, c, wFlask, ⟨works_of (by decide +kernel), by decide +kernel⟩, by decide +kernel⟩

/-- A page of host memory on its way to HBM. -/
def wMoving : Page :=
  { size := 0x10000, st := .outHost, write := true, pa := 0x40000, home := .hbm, pins := 0, move := some { dst := .hbm, pa := 0, cid := none } }

theorem wit_PageCommands_2_done : ∃ s cid c l, Works s cid (.migrate l) c ∧ stillToMove s c l = [] :=
  ⟨wRun.wWith { wMigrate with work := .migrate [] }, 7, { wMigrate with work := .migrate [] }, [], works_of (by decide +kernel), by decide +kernel⟩

theorem wit_PageCommands_4 : ∃ (s : State) (flask va : Nat) (f : Flask) (p : Page) (m : PageMove), s.flask? flask = some f ∧
    Tab.find? f.pages va = some p ∧ p.move = some m ∧ m.cid = none ∧ translated s (p.st == .host) p.pa p.size = false ∧
    (m.dst = .hbm ∨ m.dst = .ddr) ∧ (p.st = .outHost ∨ p.st = .host) :=
  let f := { wFlask with pages := [(0x200000, wMoving)] }
  ⟨{ wUp with flasks := [(1, f)] }, 1, 0x200000, f, wMoving, { dst := .hbm, pa := 0, cid := none }, by decide +kernel⟩

theorem wit_PageCommands_4_out : ∃ (s : State) (flask va : Nat) (f : Flask) (p : Page) (m : PageMove), s.flask? flask = some f ∧
    Tab.find? f.pages va = some p ∧ p.move = some m ∧ m.cid = none ∧ translated s (p.st == .host) p.pa p.size = false ∧
    (m.dst = .host ∨ m.dst = .outHost) ∧ (p.st = .hbm ∨ p.st = .ddr) :=
  let p : Page := { wMoving with st := .hbm, pa := 0, move := some { dst := .outHost, pa := 0x40000, cid := none } }
  let f := { wFlask with pages := [(0x200000, p)] }
  ⟨{ wUp with flasks := [(1, f)] }, 1, 0x200000, f, p, { dst := .outHost, pa := 0x40000, cid := none }, by decide +kernel⟩

/-- Flask 1 with one page of 2 MiB that is out of its home tier DDR5. -/
def wOut : Flask :=
  { wFlask with pages := [(0x200000, { size := 0x200000, st := .outHost, write := true, pa := 0x40000, home := .ddr, pins := 0, move := none })] }

/-- One DDR5 channel of one frame. -/
def wTight : State := { wUp with flasks := [(1, wOut)], faults := [wFault (.stream 0)], mc := [(8, { MemCtl.init with train := 1, bytes := 0x200000 })] }

/-- The same after two draws. -/
def wDrawn : State := (wTight.onFree (· + 1)).onFree (· + 1)

theorem wTight_frame (n i : Nat) : seekCtl wDrawn 0x200000 i ((allowedCtls wDrawn .ddr 0xFF).rotateLeft (n % max 1 (allowedCtls wDrawn .ddr 0xFF).length)) =
    some 0x010000000000 := by
  have h : allowedCtls wDrawn .ddr 0xFF = [8] := by decide +kernel
  have g : freeFrame wDrawn 8 0x200000 0 = true := by decide +kernel
  have b : ctlBytes wDrawn 8 / 0x200000 = 1 := by decide +kernel
  rw [h]
  simp [seekCtl, b, seekFrame, Nat.mod_one, g, List.rotateLeft, ctlBase, ddrBase]

theorem wTight_alloc : wTight.allocPage .ddr 0xFF 0x200000 = (some 0x010000000000, wDrawn) := by
  unfold State.allocPage
  exact congrArg (·, wDrawn) (wTight_frame _ _)

theorem wit_PageFaults_1 : ∃ (s : State) (id : Nat) (x : PFault) (f : Flask) (p : Page) (a : Nat) (t : State),
    s.faults.find? (fun g => g.id == id) = some x ∧ s.flask? x.flask = some f ∧ Tab.find? f.pages x.va = some p ∧
    p.move = none ∧ (p.st = .outDdr ∨ p.st = .outHost) ∧
    tierUse f p.home + p.size - (if p.st.tier? = some p.home then p.size else 0) ≤ quotaOf f p.home ∧
    s.allocPage p.home 0xFF p.size = (some a, t) :=
  ⟨wTight, 0, wFault (.stream 0), wOut, { size := 0x200000, st := .outHost, write := true, pa := 0x40000, home := .ddr, pins := 0, move := none },
    0x010000000000, wDrawn, by decide +kernel, by decide +kernel, by decide +kernel, rfl, by decide, by decide +kernel, wTight_alloc⟩

theorem wit_PageFaults_2 : ∃ (s : State) (id : Nat) (x : PFault), s.faults.find? (fun g => g.id == id) = some x ∧ x.who.engineRead = true ∧
    stillOut s x = false :=
  ⟨{ wRun with faults := [wFault (.load 0)] }, 0, wFault (.load 0), by decide +kernel⟩

theorem wit_PageFaults_3 : ∃ (s : State) (flask va : Nat) (f : Flask) (p : Nat × Page), s.flask? flask = some f ∧ pageOf f va = some p :=
  ⟨wRun, 1, 0x200000, wFlask, (0x200000, { size := 0x200000, st := .hbm, write := true, pa := 0x200000, home := .hbm, pins := 0, move := none }),
    by decide +kernel⟩

theorem wit_PageFaults_4 : ∃ (s : State) (id : Nat) (x : PFault), s.faults.find? (fun g => g.id == id) = some x ∧
    stillOut (s.until x.due) x = true :=
  ⟨wTight, 0, wFault (.stream 0), by decide +kernel⟩

theorem wit_PageFaults_4_came : ∃ (s : State) (id : Nat) (x : PFault), s.faults.find? (fun g => g.id == id) = some x ∧
    stillOut (s.until x.due) x = false :=
  ⟨{ wRun with faults := [wFault (.stream 0)] }, 0, wFault (.stream 0), by decide +kernel⟩

def wDefine : Cmd := wCmd 0x06 0xFF [(0, 8, 0x8000000), (8, 8, 0x8000000), (16, 1, 1), (19, 1, 8), (20, 1, 0xFF), (22, 1, 1)]

theorem wit_RegionsAndFills_1 : ∃ s cid c k o j, Fresh s cid 0x06 c ∧ c.p 16 1 = 1 ∧ regionCheck s c = .ok ∧
    ctlOf (c.p 0 8) = some (k, o) ∧ (upto 32).find? (fun j => !(Tab.get .init (s.ctl k).regions j).valid) = some j :=
  ⟨wRun.wWith wDefine, 7, wDefine, 0, 0x8000000, 0, fresh_of (by decide +kernel), by decide +kernel⟩

def wRegion : Region := { valid := true, light := false, hearth := false, owner := some 1, ownerReg := 1, base := 4, len := 1 }

/-- Stack 0 with a region of 2 MiB at 8 MiB. -/
def wZone : State := wRun.onCtl 0 (fun m => { m with regions := [(3, wRegion)] })

def wUndefine : Cmd := wCmd 0x07 0xFF [(0, 8, 0x800000), (8, 8, 0x200000), (16, 1, 1)]

theorem wit_RegionsAndFills_2 : ∃ s cid c k o j r, Fresh s cid 0x07 c ∧ c.p 16 1 = 1 ∧ ctlOf (c.p 0 8) = some (k, o) ∧
    (s.ctl k).regions.find? (fun x => x.2.valid && x.2.base * 0x200000 == o && x.2.len * 0x200000 == c.p 8 8) = some (j, r) ∧
    c.flask = 0xFF ∧ c.reserved 17 47 = true ∧ heldByPage s (c.p 0 8) (c.p 8 8) = false :=
  ⟨wZone.wWith wUndefine, 7, wUndefine, 0, 0x800000, 3, wRegion, fresh_of (by decide +kernel), by decide +kernel⟩

theorem wit_RegionsAndFills_2_busy : ∃ s cid c k o j r, Fresh s cid 0x07 c ∧ c.p 16 1 = 1 ∧ ctlOf (c.p 0 8) = some (k, o) ∧
    (s.ctl k).regions.find? (fun x => x.2.valid && x.2.base * 0x200000 == o && x.2.len * 0x200000 == c.p 8 8) = some (j, r) ∧
    c.flask = 0xFF ∧ c.reserved 17 47 = true ∧ heldByPage s (c.p 0 8) (c.p 8 8) = true :=
  let s := { wZone with flasks := [(1, { wFlask with pages := [(0x200000, { size := 0x10000, st := .hbm, write := true, pa := 0x9F0000, home := .hbm, pins := 0, move := none })] })] }
  ⟨s.wWith wUndefine, 7, wUndefine, 0, 0x800000, 3, wRegion, fresh_of (by decide +kernel), by decide +kernel⟩

theorem wit_RegionsAndFills_3 : ∃ s cid c k j del, Works s cid (.region k j del) c :=
  ⟨wZone.wWith { wUndefine with work := .region 0 3 true }, 7, { wUndefine with work := .region 0 3 true }, 0, 3, true, works_of (by decide +kernel)⟩

def wFill : Cmd := wCmd 0x08 1 [(0, 8, 0x200000), (8, 8, 64), (16, 8, 0x0123456789ABCDEF)]

theorem wit_RegionsAndFills_4 : ∃ s cid c, Fresh s cid 0x08 c ∧ fillCheck s c = .ok :=
  ⟨wRun.wWith wFill, 7, wFill, fresh_of (by decide +kernel), by decide +kernel⟩

theorem wit_RegionsAndFills_5 : ∃ s cid c, Works s cid .fill c :=
  ⟨wRun.wWith { wFill with work := .fill }, 7, { wFill with work := .fill }, works_of (by decide +kernel)⟩

/-- A memory queue that holds nothing else. -/
def wQuiet : MemQueue := { refresh := false, tag := 0, waited := 0, others := [] }

/-- A line at the top of a stack: offset and length at their bounds. -/
theorem wit_LinesAndErrors_1 : ∃ (s : State) (k o : Nat) (data : List Byte) (q : MemQueue), memTurn s k o q = true ∧ ctlUp s k = true ∧
    o + 64 ≤ ctlBytes s k ∧ o % 64 = 0 ∧ data.length = 64 ∧ biOut s (ctlBase k + o) = false ∧ snooped s (ctlBase k + o) true = false :=
  ⟨wUp, 7, 0xC00000000 - 64, leBytes 64 1, wQuiet, by decide +kernel⟩

/-- A channel whose queue holds a younger request of the same class. -/
theorem wit_LinesAndErrors_2 : ∃ (s : State) (k o : Nat) (q : MemQueue), memTurn s k (o / 64 * 64) q = true ∧ ctlUp s k = true ∧
    o < ctlBytes s k ∧ biOut s (ctlBase k + o / 64 * 64) = false ∧ snooped s (ctlBase k + o / 64 * 64) false = false :=
  ⟨wUp, 19, 0xFFFFFFFFF, { wQuiet with waited := 5, others := [{ offset := 0, tag := 0, waited := 5 }] }, by decide +kernel⟩

/-- STRONG: four wrong symbols are detected, and one or two corrected (12 R275). -/
theorem wit_LinesAndErrors_7_bad : ∃ (s : State) (k o : Nat) (err : LineErr), err.flips ≠ [] ∧ (8 ≤ k ∨ o < 0xBF8000000) ∧
    (lineRead s k o err).bad = true :=
  ⟨wUp, 0, 0xBF8000000 - 1, { flips := [(0, 1), (9, 2), (18, 3), (27, 4)], stays := false }, by decide, by decide, by decide +kernel⟩

theorem wit_LinesAndErrors_7_fixed : ∃ (s : State) (k o : Nat) (err : LineErr), err.flips ≠ [] ∧ (8 ≤ k ∨ o < 0xBF8000000) ∧
    (lineRead s k o err).bad = false ∧ (lineRead s k o err).fixed = true ∧ err.stays = false :=
  ⟨wUp, 8, 0, { flips := [(3, 0x10)], stays := false }, by decide, by decide, by decide +kernel⟩

theorem wit_LinesAndErrors_7_stays : ∃ (s : State) (k o : Nat) (err : LineErr), err.flips ≠ [] ∧ (8 ≤ k ∨ o < 0xBF8000000) ∧
    (lineRead s k o err).bad = false ∧ (lineRead s k o err).fixed = true ∧ err.stays = true :=
  ⟨wUp, 0, 0, { flips := [(0, 1), (71, 0xFF)], stays := true }, by decide, by decide, by decide +kernel⟩

theorem wit_LinesAndErrors_3 : ∃ (s : State) (k : Nat), ctlUp s k = true ∧ (s.ctl k).interval ≠ 0 :=
  ⟨wUp.onCtl 0 (fun m => { m with interval := 1 }), 0, by decide +kernel⟩

theorem wit_LineReadsBack : ∃ (s t : State) (k o : Nat) (data : List Byte) (q : MemQueue), Tab.canon memDefault s.mem ∧
    memTurn s k o q = true ∧ ctlUp s k = true ∧ o + 64 ≤ ctlBytes s k ∧ o + 64 ≤ ddrSlot ∧ o % 64 = 0 ∧ data.length = 64 ∧
    biOut s (ctlBase k + o) = false ∧ snooped s (ctlBase k + o) true = false ∧ exec (.memoryWrite k o data q) s = .next t :=
  ⟨wUp, nextOf (exec (.memoryWrite 8 0 (leBytes 64 1) wQuiet) wUp) wUp, 8, 0, leBytes 64 1, wQuiet, by decide +kernel, by decide +kernel,
    by decide +kernel, by decide +kernel, by decide +kernel, rfl, by decide +kernel, by decide +kernel, by decide +kernel, rfl⟩

theorem wit_Ddr5Channels_1 : ∃ (s : State) (ch r : Nat), ddrThere s ch = true ∧ r < 8 ∧
    Tab.get .awake (s.ctl (8 + ch)).ranks r ≠ .selfRefresh := ⟨wUp, 11, 7, by decide +kernel⟩

theorem wit_Ddr5Channels_3 : ∃ (s : State) (ch r : Nat), ddrThere s ch = true ∧ r < 8 ∧ bits (s.ctl (8 + ch)).ddrPd.toNat 15 0 ≠ 0 ∧
    Tab.get .awake (s.ctl (8 + ch)).ranks r = .awake := ⟨wUp, 0, 7, by decide +kernel⟩

theorem wit_Ddr5Channels_4 : ∃ (s : State) (ch r : Nat), ddrThere s ch = true ∧ r < 8 ∧ bits (s.ctl (8 + ch)).ddrPd.toNat 31 16 ≠ 0 :=
  ⟨wUp, 0, 0, by decide +kernel⟩

theorem wit_Ddr5Channels_7 : ∃ (b : DBank) (r : Nat), b.last = some r := ⟨{ DBank.init with last := some 3 }, 3, rfl⟩

/-! ## Flasks, heats, nodes, patterns -/

/-- A resource descriptor of a flask with no cluster and no engine. -/
def wDescriptor : List Byte := wRec 128 [(80, 8, 0x200000), (88, 8, 0x200000), (96, 4, 1), (100, 4, 1), (104, 1, 4), (106, 2, 252), (108, 4, 100)]

theorem wit_FlaskCommands_1 : ∃ s cid c d, Fresh s cid 0x04 c ∧ c.p 0 1 ≤ 15 ∧ c.reserved 1 7 = true ∧ c.reserved 16 47 = true ∧
    readFlask s c.flask (c.p 8 8) 128 = .ok d ∧ flaskForm d = true ∧ flaskFit s (c.p 0 1) (flaskOf d) = .ok :=
  let c := wCmd 0x04 0xFF [(0, 1, 15), (8, 8, 0x5000000)]
  ⟨(wRun.wDev 0x5000000 wDescriptor).wWith c, 7, c, wDescriptor, fresh_of (by decide +kernel), by decide +kernel⟩

theorem wit_FlaskCommands_2 : ∃ s cid c f, Fresh s cid 0x05 c ∧ c.p 1 1 ≤ 1 ∧ c.reserved 2 47 = true ∧ s.flask? (c.p 0 1) = some f ∧
    f.destroying = false :=
  let c := wCmd 0x05 0xFF [(0, 1, 1), (1, 1, 1)]
  ⟨wRun.wWith c, 7, c, wFlask, fresh_of (by decide +kernel), by decide +kernel⟩

theorem wit_FlaskCommands_3 : ∃ s cid c, Works s cid .destroy c ∧ c.opcode = 0x05 ∧ queuesOf s (c.p 0 1) = [] :=
  let c := wCmd 0x05 0xFF [(0, 1, 1)] .destroy
  ⟨State.wWith { wUp with flasks := [(1, wFlask)] } c, 7, c, works_of (by decide +kernel), by decide +kernel⟩

theorem wit_FlaskCommands_4 : ∃ (s : State) (n : Nat) (f : Flask), s.flask? n = some f ∧ f.faulted = false :=
  ⟨wRun, 1, wFlask, by decide +kernel⟩

theorem wit_FlaskCommands_4_with : ∃ (s : State) (n : Nat) (f : Flask) (cid : Nat) (c : Cmd), s.flask? n = some f ∧ f.faulted = false ∧
    findCmd s cid = some c ∧ c.flask = n ∧ c.work = .pending ∧ c.accTime = s.time :=
  ⟨wRun.wWith (wCmd 0x80 1 []), 1, wFlask, 7, wCmd 0x80 1 [], by decide +kernel⟩

theorem wit_FlaskCommands_5 : ∃ (s : State) (n : Nat) (f : Flask), s.flask? n = some f ∧ f.faulted = true :=
  ⟨{ wRun with flasks := [(1, { wFlask with faulted := true })] }, 1, { wFlask with faulted := true }, by decide +kernel⟩

/-- `HEAT_SUBMIT` of one node at 0x200000 with records at 0x210000. -/
def wSubmit : Cmd := wCmd 0x81 1 [(0, 4, 4), (4, 4, 1), (8, 8, 0x200000), (16, 8, 0x210000), (24, 4, 0xFFFFFFFF)]

theorem wit_HeatCommands_1 : ∃ s cid c, Fresh s cid 0x81 c ∧ submitCheck s c = .ok ∧ heldHeats s c.flask = [] ∧
    entriesFit s c.flask (c.p 4 4) = true :=
  ⟨wRun.wWith wSubmit, 7, wSubmit, fresh_of (by decide +kernel), by decide +kernel, by
    unfold heldHeats
    rw [show (wRun.wWith wSubmit).graph.heats.filter (fun x => x.2.flask == wSubmit.flask && x.2.phase == .held) = [] by decide +kernel]
    simp, by decide +kernel⟩

theorem wit_HeatCommands_1_held : ∃ s cid c, Fresh s cid 0x81 c ∧ submitCheck s c = .ok ∧
    (heldHeats s c.flask ≠ [] ∨ entriesFit s c.flask (c.p 4 4) = false) :=
  let h := { wHeat .running [] with id := 5, count := 1000, loop := none }
  let s := (wRun.onGraph (fun g => { g with heats := [(heatKey 1 5, h)] })).wWith wSubmit
  ⟨s, 7, wSubmit, fresh_of (by decide +kernel), by decide +kernel, .inr (by decide +kernel)⟩

theorem wit_HeatCommands_2 : ∃ (s : State) (flask k : Nat) (h : Heat) (rest : List (Nat × Heat)) (c : Nat),
    heldHeats s flask = (k, h) :: rest ∧ entriesFit s flask h.count = true ∧ h.cid = some c :=
  ⟨(wRun.wHeat (wHeat .held [])), 1, wKey, wHeat .held [], [], 7, by
    unfold heldHeats
    rw [show (wRun.wHeat (wHeat .held [])).graph.heats.filter (fun x => x.2.flask == 1 && x.2.phase == .held) = [(wKey, wHeat .held [])] by decide +kernel]
    simp, by decide +kernel⟩

theorem wit_HeatCommands_3 : ∃ s cid c h, Fresh s cid 0x82 c ∧ c.reserved 4 47 = true ∧ s.heat? (heatKey c.flask (c.p 0 4)) = some h ∧
    h.phase ≠ .held :=
  let c := wCmd 0x82 1 [(0, 4, 4)]
  ⟨(wRun.wHeat (wHeat .running [])).wWith c, 7, c, wHeat .running [], fresh_of (by decide +kernel), by decide +kernel⟩

theorem wit_HeatCommands_3_held : ∃ s cid c h, Fresh s cid 0x82 c ∧ c.reserved 4 47 = true ∧ s.heat? (heatKey c.flask (c.p 0 4)) = some h ∧
    h.phase = .held :=
  let c := wCmd 0x82 1 [(0, 4, 4)]
  ⟨(wRun.wHeat (wHeat .held [])).wWith c, 7, c, wHeat .held [], fresh_of (by decide +kernel), by decide +kernel⟩

theorem wit_HeatCommands_4 : ∃ s cid c, Fresh s cid 0x82 c ∧ c.reserved 4 47 = true ∧ s.heat? (heatKey c.flask (c.p 0 4)) = none :=
  let c := wCmd 0x82 1 [(0, 4, 4)]
  ⟨wRun.wWith c, 7, c, fresh_of (by decide +kernel), by decide +kernel⟩

theorem wit_HeatCommands_5 : ∃ s cid c h, Fresh s cid 0x83 c ∧ c.reserved 4 47 = true ∧ s.heat? (heatKey c.flask (c.p 0 4)) = some h ∧
    h.phase = .running :=
  let c := wCmd 0x83 1 [(0, 4, 4)]
  ⟨(wRun.wHeat (wHeat .running [wNode 1 .ready])).wWith c, 7, c, wHeat .running [wNode 1 .ready], fresh_of (by decide +kernel), by decide +kernel⟩

/-- A heat of one node that is complete. -/
def wEnded : Heat := wHeat .running [{ wNode 1 .done with written := true, status := some .ok }]

theorem wit_HeatCommands_6 : ∃ (s : State) (flask id : Nat) (h : Heat) (c : Nat), s.heat? (heatKey flask id) = some h ∧ h.complete = true ∧
    h.cid = some c ∧ entryWaits (s.finish c h.outcome.1 (h.result s.time)) c = true :=
  ⟨(wRun.wHeat wEnded).wWith { wSubmit with work := .heat }, 1, 4, wEnded, 7, by decide +kernel⟩

/-- Without its command, nothing waits to be posted. -/
theorem wit_HeatCommands_6_none : ∃ (s : State) (flask id : Nat) (h : Heat) (c : Nat), s.heat? (heatKey flask id) = some h ∧
    h.complete = true ∧ h.cid = some c ∧ entryWaits (s.finish c h.outcome.1 (h.result s.time)) c = false ∧ (∀ x ∈ s.qb.cmds, x.work ≠ .abort) :=
  ⟨(wRun.wHeat wEnded).wWith { wSubmit with work := .heat, suppress := true }, 1, 4, wEnded, 7, by decide +kernel⟩

theorem wit_NodeLife_1 : ∃ (s : State) (k n : Nat) (x : Node), nextNode s = some (k, n) ∧ s.node? k n = some x :=
  ⟨wRun.wHeat (wHeat .running [wNode 1 .ready]), wKey, 0, wNode 1 .ready, by decide +kernel⟩

theorem wit_NodeLife_2 : ∃ (s : State) (id : Nat) (f : PFault) (k n : Nat), s.faults.find? (fun g => g.id == id) = some f ∧
    f.who = .hearth k n ∧ hasRoom s k n = true ∧ stillOut s f = false :=
  ⟨{ wRun.wHeat (wHeat .running [wNode 4 .dispatched]) with faults := [wFault (.hearth wKey 0)] }, 0, wFault (.hearth wKey 0), wKey, 0,
    by decide +kernel⟩

theorem wit_NodeLife_3 : ∃ (s : State) (flask heat n : Nat) (x : Node), s.node? (heatKey flask heat) n = some x ∧ x.cls = 7 ∧
    x.st = .dispatched ∧ x.ended = none :=
  ⟨wRun.wHeat (wHeat .running [wNode 7 .dispatched]), 1, 4, 0, wNode 7 .dispatched, by decide +kernel⟩

theorem wit_NodeLife_4 : ∃ (s : State) (flask heat n : Nat) (x : Node), s.node? (heatKey flask heat) n = some x ∧ x.ended = some .ok ∧
    x.st ≠ .done ∧ x.cls ≠ 5 :=
  let x := { wNode 1 .dispatched with ended := some .ok }
  ⟨wRun.wHeat (wHeat .running [x]), 1, 4, 0, x, by decide +kernel⟩

theorem wit_NodeLife_6 : ∃ (s : State) (flask heat n : Nat) (h : Heat) (x : Node) (t : State), s.heat? (heatKey flask heat) = some h ∧
    s.node? (heatKey flask heat) n = some x ∧ x.st = .done ∧ x.written = false ∧
    s.faults.any (fun f => f.who == .record (heatKey flask heat) n) = false ∧ h.loop = none ∧
    s.tryWrite flask (h.recAddr + 64 * n) (nodeRecord x) = (.ok [], t) :=
  let x := { wNode 1 .done with status := some .ok }
  let h := wHeat .running [x]
  let s := wRun.wHeat h
  ⟨s, 1, 4, 0, h, x, (s.tryWrite 1 0x210000 (nodeRecord x)).2, by decide +kernel⟩

theorem wit_NodeLife_7 : ∃ (s : State) (flask heat n : Nat) (x : Node), s.node? (heatKey flask heat) n = some x ∧ x.timeout ≠ 0 ∧
    (x.st = .dispatched ∨ x.st = .suspended) ∧ x.ended = none :=
  let x := { wNode 1 .dispatched with timeout := 1 }
  ⟨wRun.wHeat (wHeat .running [x]), 1, 4, 0, x, by decide +kernel⟩

theorem wit_NodeLife_9 : ∃ (s : State) (flask heat : Nat) (h : Heat), s.heat? (heatKey flask heat) = some h ∧ h.timeout ≠ 0 ∧
    h.verdict = none ∧ h.phase ≠ .held :=
  let h := { wHeat .running [wNode 1 .ready] with timeout := 1 }
  ⟨wRun.wHeat h, 1, 4, h, by decide +kernel⟩

theorem wit_NodeLife_10 : ∃ (s : State) (flask heat n : Nat) (x : Node), s.node? (heatKey flask heat) n = some x ∧ x.st = .ready ∧ x.aged = false :=
  ⟨wRun.wHeat (wHeat .running [wNode 1 .ready]), 1, 4, 0, wNode 1 .ready, by decide +kernel⟩

/-- A registration of one HOST_SIGNAL node at 0x200000, stored at 0x210000, with no patch. -/
def wRegister : Cmd := wCmd 0x0C 1 [(0, 4, 1023), (4, 4, 1), (8, 8, 0x200000), (16, 8, 0x210000), (24, 8, 0x220000)]

/-- The node entry: class 7, signal address 0x9000. -/
def wEntry7 : List Byte := wRec 64 [(0, 1, 7), (6, 2, 0xFFFF), (16, 8, 0x9000)]

def wPatterns : State := (wRun.wDev 0x200000 wEntry7).wWith wRegister

def storeOf (x : Store) : List (Nat × Nat × Nat) × List Byte := match x with | .ok ps b => (ps, b) | _ => ([], [])

def storeGood (x : Store) : Bool := match x with | .ok _ _ => true | _ => false

theorem storeOf_ok {x : Store} (h : storeGood x = true) : x = .ok (storeOf x).1 (storeOf x).2 := by cases x <;> simp_all [storeGood, storeOf]

theorem wit_PatternCommands_1 : ∃ s cid c f ps b t, Fresh s cid 0x0C c ∧ c.p 4 4 ≠ 0 ∧ s.flask? c.flask = some f ∧ registerForm c = true ∧
    Tab.has s.graph.patterns (c.p 0 4) = false ∧ c.p 4 4 ≤ f.nodeQuota ∧ readStore s c f = .ok ps b ∧
    s.tryWrite c.flask (c.p 16 8) b = (.ok [], t) :=
  let x := storeOf (readStore wPatterns wRegister wFlask)
  ⟨wPatterns, 7, wRegister, wFlask, x.1, x.2, (wPatterns.tryWrite 1 0x210000 x.2).2, fresh_of (by decide +kernel), by decide +kernel,
    by decide +kernel, by decide +kernel, by decide +kernel, by decide +kernel, storeOf_ok (by decide +kernel), pair_of (by decide +kernel)⟩

theorem wit_PatternCommands_2 : ∃ s cid c p, Fresh s cid 0x0C c ∧ c.p 4 4 = 0 ∧ registerForm c = true ∧
    Tab.find? s.graph.patterns (c.p 0 4) = some p ∧ p.flask = c.flask ∧ (∀ h ∈ s.graph.heats, h.2.pattern ≠ some (c.p 0 4)) ∧
    s.serving.loops = [] :=
  let c := wCmd 0x0C 1 [(0, 4, 3)]
  let p : Pattern := { flask := 1, count := 1, store := 0x210000, nslot := 0, patches := [] }
  ⟨(wRun.onGraph (fun g => { g with patterns := [(3, p)] })).wWith c, 7, c, p, fresh_of (by decide +kernel), by decide +kernel⟩

/-! ## Moulds -/

/-- A 3072-bit modulus made for these tests, a signature under it, and the modulus's SHA-256. -/
def wModulus : Nat := 0xbd91bcc29df037b28329924a9ebb1b832e2648e8770709a7ff00cba8bc8c869e3b9c1795bd53b3e2594eae90050c141c0b6ee69d3062435ff7737367c6b680411a6bfe94eff7f9c3bf62a71d354c38481b21eb683fce3d02fce811d39ddb940444a1b627727d8c41248cd9005da1080619c73e344c1127451118ed98cd27d4d9acf654bdb5246f89da61c48ed25c5821db0f2b3217c9f83e6d8c9813bd89d42c3c0e861ae84e5167e4cddd2136cd502a2d65f032277e151dc46a4bd28bb8b70f0eff54e7dd612d68ed96c05a4a20496f9a35f2939c90cb6f04e8ec442564661c3294f513796595578ab8957b241fb5f473096150d59311ee3bfd62880395da0e5c75df0e4bf26d41b86b5f7bf47f0de347e2b2cd8456617a1ce1240838686b5bfd8e41549a82de17ff4de8fbafcdde80b558a102e8a5a290ce0f07f842eaa6e70585d132c1a25650f23d37d5b2675c9bb6d769df64cf7aa45d99b1df7a037f58e876a10787428331e7953d649ae5d7f2ae5c4e05f0a843e7f5c19199e11d1137

def wSig : Nat := 0x747bb3b4f3525bfba1ead052f14353e1a0d0716c0f34da734f07436a8893e06784838a2d0e4079b750075a8295ad7db36644573250a1a9c1694ca4ed74279c686a2eff4981e57899178f36c42415b99bb6c446534e5b2d2deda3281835631af2cd8bd292e4af89bec4c332f532ecb87560771780487a53bd213d05530b9c2ef58fbab9aa38173345f3b20e9ded03a7ad03f50af41aea1dae885f18af1a40b57a25cba0e90e5beda171b0f3715a3d811398e94ab64a7997b589b48fb3b63bb45d3333564c2fe911918982317fce715629d04885c007997c946582e64a31b2cfb41035e1bf70854323ee43b37928c288cb0c071379c6b9683913b3f7b86f32c4908ed2689b1432e7df265a1671fa4a0b4abb890908ad87e26729aa499ceedeebbc69cd8a83cd980998c37faf9ea883601e299122ec71dd1fbd163c04304c7813075c6838fb4c4d1ba5a24cd28080d3565bbb251a63feffd5f0fdc0fd04ca54f9294bbb847b91d842d53401eab2cfc6867691bc5fb3ea0c93699a1f3710d47a018e

def wModulusHash : BitVec 256 := BitVec.ofNat 256 0xe89bf9f05869e1865e1ad7d8ca82faafdeb45c35cc4eddd718e2c5186a9bda7d

/-- Fields of a mould's header: 256 records, quarter 0 of ring 0, start-up events 1 to 4 in order. -/
def wImFields : List (Nat × Nat × Nat) :=
  [(0, 4, 0x4D584B49), (4, 2, 1), (12, 4, 256), (16, 8, 1024 + 1088 * 256), (90, 1, 1), (168, 1, 1), (172, 1, 2), (176, 1, 3), (180, 1, 4)]

/-- The signed header. -/
def wHeader : List Byte := wRec 256 wImFields ++ leBytes 384 wModulus ++ leBytes 384 wSig

/-- Flask 1 with a page of host memory at 0x200000. -/
def wHosted : Flask :=
  { wFlask with pages := [(0x200000, { size := 0x200000, st := .host, write := true, pa := 0x40000, home := .hbm, pins := 0, move := none })] }

/-- A device whose shell is loaded and whose PK_HASH slot 0 holds the modulus's hash. -/
def wSprue : State :=
  { wUp with
    flasks := [(1, wHosted)]
    sprue := { Sprue.init with shell := 1 }
    fuses := { Fuses.blank with pkHash := [wModulusHash, 0, 0, 0] } }

/-- `MOULD_LOAD` of a TYPE from 0x200000. -/
def wLoad (type flask : Nat) (w : Work := .pending) : Cmd := wCmd 0x0A flask [(0, 8, 0x200000), (8, 1, type)] w

theorem wit_MouldLoads_1 : ∃ s cid c, Fresh s cid 0x0A c ∧ mouldForm c = true ∧ c.p 8 1 = 0 :=
  ⟨wSprue.wWith (wLoad 0 1), 7, wLoad 0 1, fresh_of (by decide +kernel), by decide +kernel⟩

theorem wit_MouldLoads_1_shell : ∃ s cid c, Fresh s cid 0x0A c ∧ mouldForm c = true ∧ c.p 8 1 = 1 :=
  ⟨wSprue.wWith (wLoad 1 0xFF), 7, wLoad 1 0xFF, fresh_of (by decide +kernel), by decide +kernel⟩

theorem wit_MouldLoads_1_key : ∃ s cid c, Fresh s cid 0x0A c ∧ mouldForm c = true ∧ c.p 8 1 = 2 ∧ s.fuses.batkeyDisable = false :=
  ⟨wSprue.wWith (wLoad 2 0xFF), 7, wLoad 2 0xFF, fresh_of (by decide +kernel), by decide +kernel⟩

theorem wit_MouldLoads_1_no_key : ∃ s cid c, Fresh s cid 0x0A c ∧ mouldForm c = true ∧ c.p 8 1 = 2 ∧ s.fuses.batkeyDisable = true :=
  ⟨State.wWith { wSprue with fuses := { Fuses.blank with batkeyDisable := true } } (wLoad 2 0xFF), 7, wLoad 2 0xFF,
    fresh_of (by decide +kernel), by decide +kernel⟩

/-- Mould 0 of flask 1, at a place in its start-up order. -/
def wMould (st : MouldSt) (pos : Nat) : Mould :=
  { flask := 1, cluster := 0, quarters := [1], st, endpoints := [], registered := false, hostvis := 0, holdOut := 0, holdOe := 0,
    startup := [(1, 5), (2, 0), (3, 0), (4, 0)], pos, initHold := true, writesOn := false, header := [], cid := none, resetCid := none }

/-- The sprue with mould 1 (quarter 1 of ring 0). -/
def wWithMould (m : Mould) : State := wSprue.onSprue (fun p => { p with moulds := [(1, m)] })

theorem wit_MouldLoads_2 : ∃ s cid c m, Fresh s cid 0x0B c ∧ c.reserved 2 47 = true ∧ Tab.find? s.sprue.moulds (c.p 0 2) = some m ∧
    m.flask = c.flask ∧ (m.st = .running ∨ m.st = .isolated) :=
  let c := wCmd 0x0B 1 [(0, 2, 1)]
  ⟨(wWithMould (wMould .running 4)).wWith c, 7, c, wMould .running 4, fresh_of (by decide +kernel), by decide +kernel⟩

/-- Byte k of the device's own JTAG code without its stepping. -/
def wId (k : Nat) : Byte := (leBytes 4 (Config.idcode.toNat % 2 ^ 28)).getD k 0

/-- Nonzero bytes of host memory at 0x40000: the same fields, and that code. -/
def wImage : Tab Byte :=
  [(0x40000, 0x49), (0x40001, 0x4B), (0x40002, 0x58), (0x40003, 0x4D), (0x40004, 1), (0x40008, wId 0), (0x40009, wId 1),
   (0x4000A, wId 2), (0x4000B, wId 3), (0x4000D, 1), (0x40011, 0x44), (0x40012, 4), (0x4005A, 1), (0x400A8, 1), (0x400AC, 2),
   (0x400B0, 3), (0x400B4, 4)]

/-- The load waits, and its header lies in host memory. -/
def wWaiting : State :=
  State.wWith { wSprue with host := wImage, sprue := { wSprue.sprue with queue := [7] } } (wLoad 0 1 .mould)

def wRead : List Byte := gotOf (readFlask wWaiting 1 0x200000 1024)

theorem wRead_host : wRead = wWaiting.hostRead 0x40000 1024 := by
  have hc : cuts 0x200000 1024 = [(0x200000, 1024)] := by decide +kernel
  have hl : (locate wWaiting 1 0x200000).1 = .host 0x40000 := by decide +kernel
  have ho : flaskOutcome wWaiting 1 0x200000 1024 false = .ok := by decide +kernel
  simp [wRead, readFlask, readPiece, ho, hc, hl, gotOf]

/-- The IDCODE that is read back. -/
theorem wRead_idcode : imIdcode wRead = Config.idcode.toNat % 2 ^ 28 := by
  have h : (wRead.drop 8).take 4 = leBytes 4 (Config.idcode.toNat % 2 ^ 28) := by
    have hr : ((List.range 1024).drop 8).take 4 = [8, 9, 10, 11] := by decide +kernel
    rw [wRead_host, State.hostRead, readTab_eq (by decide +kernel), ← List.map_drop, ← List.map_take, hr]
    simp [wWaiting, State.wWith, byteAt, Tab.get, Tab.find?, wImage, wId, leBytes]
  simp only [imIdcode, fld, h]
  simp [leBytes, ofLe]
  omega

theorem wit_MouldLoads_3 : ∃ s cid rest c h, s.sprue.cur = none ∧ s.sprue.queue = cid :: rest ∧ findCmd s cid = some c ∧
    readFlask s c.flask (c.p 0 8) 1024 = .ok h ∧ hdrForm (c.p 8 1) h = true ∧ hdrDevice h = true :=
  ⟨wWaiting, 7, [], wLoad 0 1 .mould, wRead, by decide +kernel, by decide +kernel, by decide +kernel, gotOf_ok (by decide +kernel),
    by decide +kernel, by
      have h := wRead_idcode
      unfold hdrDevice
      rw [h, if_pos (by omega)]
      simp⟩

/-- A load in progress. -/
def wCur (step : LoadStep) (expect : BitVec 256) : Load :=
  { cid := 7, kind := 0, addr := 0x200000, header := wHeader, step, seq := 1, expect, seen := [], key := 0, since := 0 }

def wLoading (l : Load) : State := (wSprue.onSprue (fun p => { p with cur := some l })).wWith (wLoad 0 1 .mould)

theorem wit_MouldLoads_4 : ∃ s l c, s.sprue.cur = some l ∧ l.step = .verify ∧ l.header ≠ [] ∧ findCmd s l.cid = some c ∧
    hdrAuth (s.after 151000) l.kind l.header = none ∧ imageCheck (s.after 151000) l c.flask (c.p 9 1 = 1) = .ok :=
  ⟨wLoading (wCur .verify 0), wCur .verify 0, wLoad 0 1 .mould, by decide +kernel, rfl, by decide +kernel, by decide +kernel,
    by decide +kernel, by decide +kernel⟩

/-- A load of the unsigned part of the header, at its first record, and the nonzero bytes of that record in host memory: quarter 0
of ring 0, FTYPE 1, FRAME 71. -/
def wRecords : Load :=
  { wCur .records (BitVec.ofNat 256 0xa80f02a71bb920859e67b7415a2cd6a34e52f04a661577645cfbe306fe10771f) with header := wRec 256 wImFields }

def wFrames : State :=
  { wLoading wRecords with host := [(0x40403, 1), (0x40404, 71), (0x40408, 1), (0x40410, 0x55), (0x40820, 1)] }

def wFrame : List Byte := gotOf (readFlask wFrames 1 0x200400 1088)

def wPayload : List Byte := slice wFrame 16 1024

theorem wOpen : openRecord 0 wRecords.header wFrame 1 wRecords.expect = some wPayload := by
  have h : digest256 wFrame = wRecords.expect := by decide +kernel
  have e : imEnc wRecords.header = 0 := by decide +kernel
  unfold openRecord
  rw [if_neg (by simp [h]), if_pos e]
  rfl

theorem wit_MouldLoads_5 : ∃ s l c r pl, s.sprue.cur = some l ∧ l.step = .records ∧ l.seq < imCount l.header ∧
    findCmd s l.cid = some c ∧ l.kind = 0 ∧ readFlask s c.flask (l.addr + 1024 + 1088 * (l.seq - 1)) 1088 = .ok r ∧
    openRecord l.key l.header r l.seq l.expect = some pl ∧ recordForm 0 l.header r pl l.seq l.seen = true :=
  ⟨wFrames, wRecords, wLoad 0 1 .mould, wFrame, wPayload, by decide +kernel, rfl, by decide +kernel, by decide +kernel, rfl,
    gotOf_ok (by decide +kernel), wOpen, by decide +kernel⟩

theorem wit_MouldStartUp_2 : ∃ (s : State) (id : Nat) (m : Mould), nextStart s 1 = some (id, m) ∧ pllsLocked s id = true ∧ m.pos < 3 :=
  ⟨wWithMould (wMould .starting 0), 1, wMould .starting 0, by decide +kernel⟩

theorem wit_MouldStartUp_3 : ∃ (s : State) (id : Nat) (m : Mould), nextStart s 1 = some (id, m) ∧ pllsLocked s id = false :=
  ⟨(wWithMould (wMould .starting 0)).onSprue (fun p => { p with plls := [(0, { f := 1, d := 1, flask := 1, locked := false, users := [1] })] }),
    1, wMould .starting 0, by decide +kernel⟩

theorem wit_MouldStartUp_4 : ∃ (s : State) (id : Nat) (m : Mould), nextStart s 2 = some (id, m) ∧ m.pos < 3 :=
  ⟨wWithMould (wMould .starting 1), 1, wMould .starting 1, by decide +kernel⟩

theorem wit_MouldStartUp_5 : ∃ (s : State) (id : Nat) (m : Mould), nextStart s 3 = some (id, m) ∧ m.pos < 3 :=
  ⟨wWithMould (wMould .starting 2), 1, wMould .starting 2, by decide +kernel⟩

theorem wit_MouldStartUp_6 : ∃ (s : State) (id : Nat) (m : Mould), nextStart s 4 = some (id, m) ∧ m.pos < 3 ∧ 0 ∉ m.quarters :=
  let m := { wMould .starting 1 with startup := [(1, 0), (4, 0), (2, 0), (3, 0)] }
  ⟨wWithMould m, 1, m, by decide +kernel⟩

theorem wit_MouldStartUp_8 : ∃ s : State, movingMoulds s = [] := ⟨wWithMould (wMould .loading 0), by decide +kernel⟩

theorem wit_MouldStartUp_9 : ∃ (s : State) (i q e : Nat), Tab.find? s.sprue.ffs (ffKey i q e) = none := ⟨wUp, 95, 3, 12287, by decide +kernel⟩

theorem wit_MouldStartUp_10 : ∃ (s : State) (i q e : Nat) (ck : List Nat), sliceClock s i q (e / 16) ∉ ck := ⟨wUp, 0, 0, 0, [], by simp⟩

theorem wit_MouldStartUp_10_ticks : ∃ (s : State) (i q e : Nat) (ck : List Nat), sliceClock s i q (e / 16) ∈ ck :=
  ⟨wUp, 0, 0, 0, [sliceClock wUp 0 0 0], by simp⟩

theorem wit_MouldStartUp_12 : ∃ c, c % 1536 ≠ 0 ∧ c % 8 = 0 := ⟨1528, by decide⟩

theorem wit_MouldStartUp_13 : ∃ c, c % 1536 = 0 ∧ c ≠ 0 := ⟨1536, by decide⟩

/-! ## Vector instructions -/

/-- VA: D is v31. -/
theorem wit_VectorElementInstructions_1 : ∃ s i op t r w t', Issues s i 0 (vaNum op) t r w ∧
    t.setOut w (map3 (vaElem op) (t.vec (wA w)) (t.vec (wB w)) (t.vec (wC w))) = some t' :=
  let w := wIns 0 31 1 2 3 0
  let x := (wTile w).setOut w (map3 (vaElem .add) ((wTile w).vec 1) ((wTile w).vec 2) ((wTile w).vec 3))
  ⟨wOn w, wI, .add, wTile w, wVx, w, x.get (by decide +kernel), issues_of (by decide +kernel) _, some_of (by decide +kernel)⟩

theorem wit_VectorElementInstructions_2 : ∃ s i op t r w t', Issues s i 1 (viNum op) t r w ∧
    t.setOut w (((t.vec (wA w)).zip (t.vec (wB w))).zipIdx.map (fun x =>
      viElem op (BitVec.ofNat 32 (Config.freeNat (s.free + x.2))) x.1.1 x.1.2)) = some t' :=
  have ⟨t', h⟩ := Option.isSome_iff_exists.mp (show ((wTile (wIns 1 0 1 2 0 0)).setOut (wIns 1 0 1 2 0 0)
      ((((wTile (wIns 1 0 1 2 0 0)).vec (wA (wIns 1 0 1 2 0 0))).zip ((wTile (wIns 1 0 1 2 0 0)).vec (wB (wIns 1 0 1 2 0 0)))).zipIdx.map (fun x =>
        viElem .add (BitVec.ofNat 32 (Config.freeNat ((wOn (wIns 1 0 1 2 0 0)).free + x.2))) x.1.1 x.1.2))).isSome = true by decide +kernel)
  ⟨wOn (wIns 1 0 1 2 0 0), wI, .add, wTile (wIns 1 0 1 2 0 0), wVx, wIns 1 0 1 2 0 0, t', issues_of (by decide +kernel) _, h⟩

theorem wit_VectorElementInstructions_3 : ∃ (s : State) (i : VIssue) (fn : SFn) (t : VectorTile) (r : VxRun) (w : W64),
    Issues s i 2 (vfNum fn) t r w ∧ fn ≠ .undef :=
  ⟨wOn (wIns 2 0 1 0 0 0), wI, .rcp, wTile (wIns 2 0 1 0 0 0), wVx, wIns 2 0 1 0 0 0, issues_of (by decide +kernel) _, by decide⟩

/-- Sums, VPERM and VBCAST: of any operation of class VR. -/
theorem wit_VectorElementInstructions_4 (n : Nat) : ∃ s i t r w, Issues s i 4 n t r w :=
  ⟨wOn (wIns 4 31 1 0 0 0), wI, wTile (wIns 4 31 1 0 0 0), wVx, wIns 4 31 1 0 0 0, issues_of (by decide +kernel) _⟩

theorem wit_VectorElementInstructions_5 : ∃ s i t r w k, Issues s i 4 3 t r w ∧ wD w < 31 ∧
    (t.entering w (f32Inf true)).findIdx? (fun v => totalKey v == totalKey (treeReduce vMax (t.entering w (f32Inf true))) && !f32IsNan v) = some k :=
  ⟨wOn (wIns 4 30 1 0 0 0), wI, wTile (wIns 4 30 1 0 0 0), wVx, wIns 4 30 1 0 0 0, 0, issues_of (by decide +kernel) _, by decide +kernel⟩

theorem wit_VectorConvertLoadStore_1 : ∃ s i t r w dst cvt, Issues s i 3 0 t r w ∧ vcvtFmt (bits (wImm w) 7 0) = .ok dst ∧
    cvtUnder t.cvtctl (bits (wImm w) 12 11) = some cvt ∧ (wImm w).testBit 13 = false ∧ (wImm w).testBit 14 = false ∧
    cvt.getLsbD 0 = false ∧ bits (wImm w) 10 8 < r.outN ∧ r.outN ≤ 4 :=
  ⟨wOn (wIns 3 0 1 0 0 0x02), wI, wTile (wIns 3 0 1 0 0 0x02), wVx, wIns 3 0 1 0 0 0x02, (Fmt.ofNat? 2).getD .fp32, ((cvtUnder 0 0).getD 0),
    issues_of (by decide +kernel) _, rfl, by decide +kernel⟩

theorem wit_VectorConvertLoadStore_2 : ∃ s i t r w, Issues s i 10 0 t r w ∧ bits (wImm w) 22 5 = 0 ∧ (wImm w).testBit 0 = true ∧
    (wImm w).testBit 4 = false :=
  ⟨wOn (wIns 10 0 0 0 0 1), wI, wTile (wIns 10 0 0 0 0 1), wVx, wIns 10 0 0 0 0 1, issues_of (by decide +kernel) _, by decide +kernel⟩

theorem wit_VectorConvertLoadStore_3 : ∃ s i t r w, Issues s i 10 0 t r w ∧ bits (wImm w) 22 5 = 0 ∧ (wImm w).testBit 0 = false ∧
    (wImm w).testBit 4 = false ∧ bits (wImm w) 3 1 < 4 :=
  ⟨wOn (wIns 10 0 0 0 0 6), wI, wTile (wIns 10 0 0 0 0 6), wVx, wIns 10 0 0 0 0 6, issues_of (by decide +kernel) _, by decide +kernel⟩

theorem wit_VectorConvertLoadStore_4 : ∃ s i t r w f, Issues s i 5 0 t r w ∧ fmtByte (bits (wImm w) 7 0) = .ok f ∧ f.block = false ∧
    f.tensor = false ∧
    (let span := (upto 64).foldl (fun n e => if t.active w e then elemOff f.fmt e + elemSize f.fmt else n) 0
     let rg := [t.rv (wD w), rp (wPred w)] ++ (if (fmtOr (bits (wImm w) 7 0)).tensor then [rs (wB w)] else [])
     loadCheck (s.issued i r 0 rg) i.tile r (wA w) span (elemSize f.fmt) (incOf w) = .ok) :=
  ⟨wOn (wIns 5 0 15 0 0 0), wI, wTile (wIns 5 0 15 0 0 0), wVx, wIns 5 0 15 0 0 0, fmtOr 0, issues_of (by decide +kernel) _, by decide +kernel⟩

/-- A store through a0, which is bound to a buffer in the cluster's SRAM. -/
def wStoreTile : VectorTile :=
  { wTile (wIns 5 0 1 0 0 0) with c := [(0, { base := 0, len := 64, space := 1, strm := none, cluster := 1 })] }

theorem wit_VectorConvertLoadStore_5 : ∃ s i t r w cvt, Issues s i 5 1 t r w ∧ cvtUnder t.cvtctl (bits (wImm w) 4 3) = some cvt ∧
    bits (wImm w) 2 0 < r.outN ∧ (t.cdesc (t.areg (wD w)).bind).space ≠ 0 ∧ wPred w = 0 ∧ wPneg w = false ∧
    (let slot := bits (wImm w) 2 0
     let f := fmtOr (r.fmts.getD slot 0)
     f.block = false ∧
     (let u := s.issued i r 1 ([t.rv (wA w), rp (wPred w)] ++ (if cvt.getLsbD 0 then [rs (wB w)] else []))
      let cv : OutCvt := { fmt := f, cvt, scale := r.scales.getD slot f32One, gen := slotStream u r slot }
      let x := storeCodes cv (elemIndex t w) (t.active w) (t.vec (wA w)) (r.slots.getD slot .init)
      storeCheck u i.tile r (wD w) (packCodes f.fmt x.2.1) (elemSize f.fmt) (incOf w) = .ok)) :=
  ⟨{ wOn 0 with vt := [(3, wStoreTile)] }, wI, wStoreTile, wVx, wIns 5 0 1 0 0 0, (cvtUnder 0 0).getD 0, issues_of (by decide +kernel) _, by decide +kernel⟩

/-- Any operation of class SC; the shift's count is the largest below the width. -/
theorem wit_VectorScalarAndControl_1 (n : Nat) : ∃ s i t r w, Issues s i 6 n t r w ∧ (t.sreg (wB w)).toNat < 32 :=
  let t := { wTile (wIns 6 0 1 2 0 0) with s := [(2, 31)] }
  ⟨{ wOn 0 with vt := [(3, t)] }, wI, t, wVx, wIns 6 0 1 2 0 0, issues_of (by decide +kernel) _, by decide +kernel⟩

theorem wit_VectorScalarAndControl_2 : ∃ s i c base len t r w, Issues s i 7 0 t r w ∧ (t.cdesc c).strm = none ∧ base % 64 = 0 ∧ len % 64 = 0 ∧
    64 ≤ len ∧ base + len ≤ 262144 :=
  ⟨wOn (wIns 7 0 0 0 0 0), wI, 7, 262080, 64, wTile (wIns 7 0 0 0 0 0), wVx, wIns 7 0 0 0 0 0, issues_of (by decide +kernel) _, by decide +kernel⟩

/-- ABIND, AMOV and the predicate operations. -/
theorem wit_VectorScalarAndControl_3 (n : Nat) : ∃ s i t r w, Issues s i 7 n t r w :=
  ⟨wOn (wIns 7 0 0 0 0 0), wI, wTile (wIns 7 0 0 0 0 0), wVx, wIns 7 0 0 0 0 0, issues_of (by decide +kernel) _⟩

theorem wit_VectorScalarAndControl_5 (n : Nat) : ∃ s i t r w, Issues s i 8 n t r w :=
  ⟨wOn (wIns 8 0 1 2 0 0), wI, wTile (wIns 8 0 1 2 0 0), wVx, wIns 8 0 1 2 0 0, issues_of (by decide +kernel) _⟩

/-- A loop whose body ends with the program, of the most stages. -/
theorem wit_VectorScalarAndControl_6 : ∃ s i k body stages t r w, Issues s i 9 0 t r w ∧ t.loops = [] ∧ 1 ≤ body ∧ body ≤ 256 ∧ 1 ≤ stages ∧
    stages ≤ 8 ∧ t.pc + 1 + body ≤ r.progLen ∧ t.sreg k ≠ 0 :=
  let t := { wTile (wIns 9 0 0 0 0 0) with s := [(5, 1)] }
  ⟨{ wOn 0 with vt := [(3, t)] }, wI, 5, 7, 8, t, wVx, wIns 9 0 0 0 0 0, issues_of (by decide +kernel) _, by decide +kernel⟩

theorem wit_VectorScalarAndControl_6_none : ∃ s i k body stages t r w, Issues s i 9 0 t r w ∧ t.loops = [] ∧ 1 ≤ body ∧ body ≤ 256 ∧
    1 ≤ stages ∧ stages ≤ 8 ∧ t.pc + 1 + body ≤ r.progLen ∧ t.sreg k = 0 :=
  ⟨wOn (wIns 9 0 0 0 0 0), wI, 5, 1, 1, wTile (wIns 9 0 0 0 0 0), wVx, wIns 9 0 0 0 0 0, issues_of (by decide +kernel) _, by decide +kernel⟩

theorem wit_VectorScalarAndControl_7 : ∃ s i cond t r w, Issues s i 9 1 t r w ∧ brTaken t cond = true :=
  ⟨wOn (wIns 9 0 0 0 0 0), wI, .zero 31, wTile (wIns 9 0 0 0 0 0), wVx, wIns 9 0 0 0 0 0, issues_of (by decide +kernel) _, by decide +kernel⟩

theorem wit_VectorScalarAndControl_7_not : ∃ s i cond t r w, Issues s i 9 1 t r w ∧ brTaken t cond = false :=
  ⟨wOn (wIns 9 0 0 0 0 0), wI, .nonzero 31, wTile (wIns 9 0 0 0 0 0), wVx, wIns 9 0 0 0 0 0, issues_of (by decide +kernel) _, by decide +kernel⟩

theorem wit_VectorScalarAndControl_8 : ∃ s i t r w, Issues s i 9 2 t r w :=
  ⟨wOn (wIns 9 0 0 0 0 0), wI, wTile (wIns 9 0 0 0 0 0), wVx, wIns 9 0 0 0 0 0, issues_of (by decide +kernel) _⟩
/-! ## Vector nodes and contexts -/

/-- Flask 1 whose page at 0x200000 lies in host memory. -/
def wOnHost (w : W64) : State := { wOn w with flasks := [(1, { wFlask with pages :=
  [(0x200000, { size := 0x200000, st := .host, write := true, pa := 0x40000, home := .hbm, pins := 0, move := none })] })] }

theorem wPad_length (n : Nat) (bs : List Byte) : (padTo n bs).length = n := by simp [padTo]; omega

theorem wLe_length (n : Nat) : ∀ v, (leBytes n v).length = n := by
  induction n with
  | zero => intro v; rfl
  | succ n h => intro v; simp [leBytes, h]

/-- A context is 282,624 bytes long (05 R134). -/
theorem wContext_length (t : VectorTile) (r : VxRun) (b : Bool) (h : t.ldm = []) (h' : t.asm = []) : (ctxImage t r b).length = 282624 := by
  have hl : (readTab (fun _ => 0) t.ldm 0 262144).length = 262144 := by rw [h, readTab_eq List.Pairwise.nil]; simp
  have hd : ∀ c : CDesc, c.bytes.length = 16 := fun c => by simp [CDesc.bytes, wLe_length]
  simp only [ctxImage, List.length_append, hl, ctxHeader, List.length_flatMap, hd, h', Tab.find?, asmBytes, wLe_length, wPad_length]
  simp only [List.map_const', upto, List.length_range, List.sum_replicate, smul_eq_mul]

theorem tryWrite_ok {s : State} {flask va : Nat} {bs b : List Byte} (h : writeCheck s flask va bs.length = .ok b) :
    s.tryWrite flask va bs = (.ok [], s.flaskWrite flask va bs) := by simp [State.tryWrite, h]

theorem suspend_ok {s : State} {x : Nat} {r : VxRun} {y : Bool} {b : List Byte}
    (h : writeCheck s (flaskOfKey r.heat) (fld r.desc 8 8) (ctxImage (s.vtile x) r y).length = .ok b) : (s.suspend x r y).1 = .ok [] := by
  simp [State.suspend, State.tryWrite, h]

def exOf {ε α : Type} (d : α) (x : Except ε α) : α := match x with | .ok a => a | .error _ => d

def exGood {ε α : Type} (x : Except ε α) : Bool := match x with | .ok _ => true | .error _ => false

theorem exOf_ok {ε α : Type} {d : α} {x : Except ε α} (h : exGood x = true) : x = .ok (exOf d x) := by cases x <;> simp_all [exGood, exOf]

/-- A VECTOR entry that waits at cluster 1. -/
def wVxEntry : KEntry := { heat := wKey, node := 0, cls := 2, desc := overlay wVx.desc 92 [1], phase := 0 }

def wVxWaits : State := { (wOnHost 0).onGraph (fun g => { g with kq := [(1, [wVxEntry])] }) with vt := [] }

theorem wit_VectorNodes_1 : ∃ s cluster e x sc, firstOfKind s cluster 2 = some e ∧ vxHead e.desc = true ∧
    vxTile s cluster (fld e.desc 92 1) = some (some x) ∧ vxFmts e.desc = .ok ∧ vxTail e.desc = true ∧
    (fld e.desc 93 1 % 2 = 1 ∧ sc = List.replicate 4 f32One ∨ fld e.desc 93 1 % 2 = 0 ∧ vxScales s (flaskOfKey e.heat) e.desc = .ok sc) ∧
    vxArmed s cluster e.heat e.node e.desc = true :=
  ⟨wVxWaits, 1, wVxEntry, 3, exOf [] (vxScales wVxWaits (flaskOfKey wVxEntry.heat) wVxEntry.desc), by decide +kernel, by decide +kernel, by decide +kernel, by decide +kernel,
    by decide +kernel, .inr ⟨by decide +kernel, exOf_ok (by decide +kernel)⟩, by decide +kernel⟩

/-- A node that restores a context reads no scales (05 R136). -/
def wVxBack : KEntry := { wVxEntry with desc := overlay wVxEntry.desc 93 [1] }

theorem wit_VectorNodes_1_restored : ∃ s cluster e x sc, firstOfKind s cluster 2 = some e ∧ vxHead e.desc = true ∧
    vxTile s cluster (fld e.desc 92 1) = some (some x) ∧ vxFmts e.desc = .ok ∧ vxTail e.desc = true ∧
    (fld e.desc 93 1 % 2 = 1 ∧ sc = List.replicate 4 f32One) ∧ vxArmed s cluster e.heat e.node e.desc = true :=
  ⟨wVxWaits.onGraph (fun g => { g with kq := [(1, [wVxBack])] }), 1, wVxBack, 3, _, by decide +kernel, by decide +kernel, by decide +kernel,
    by decide +kernel, by decide +kernel, ⟨by decide +kernel, rfl⟩, by decide +kernel⟩

theorem wit_VectorNodes_2 : ∃ s tile r b, (s.vtile tile).run = some r ∧ vtileUp s tile = true ∧ r.issuing = false ∧
    s.faults.any (fun f => f.who == .fetch tile) = false ∧ r.restored = false ∧ fld r.desc 93 1 = 0 ∧
    (s.vtile tile).prev ≠ some (flaskOfKey r.heat, r.progAddr, r.progLen) ∧ readFlask s (flaskOfKey r.heat) r.progAddr (8 * r.progLen) = .ok b :=
  ⟨{ wOnHost 0 with vt := [(3, { VectorTile.init with run := some { wVx with issuing := false } })] }, 3, { wVx with issuing := false },
    leBytes 64 0, by decide +kernel⟩

theorem wit_VectorNodes_3 : ∃ s i t r w u, Issues s i 9 4 t r w ∧ (s.issued i r 4 []).flushAsm i.tile r = (.ok, u) ∧ (u.vtile i.tile).run = some r :=
  let w := wIns 9 0 0 0 0 0
  ⟨wOn w, wI, wTile w, wVx, w, (((wOn w).issued wI wVx 4 []).flushAsm 3 wVx).2, issues_of (by decide +kernel) _, pair_of (by decide +kernel),
    by decide +kernel⟩

theorem wit_VectorNodes_4 : ∃ s i t r w b u, Issues s i 9 3 t r w ∧ fld r.desc 8 8 ≠ 0 ∧
    ((s.issued i r 3 []).onVtile i.tile (fun t => t.goto (t.pc + 1))).suspend i.tile r true = (.ok b, u) :=
  let w := wIns 9 0 0 0 0 0
  ⟨wOnHost w, wI, wTile w, wVx, w, [], _, issues_of (by decide +kernel) _, by decide +kernel, pair_of (suspend_ok (b := []) (by
    rw [wContext_length _ _ _ (by decide +kernel) (by decide +kernel)]
    decide +kernel))⟩

/-- A more urgent heat has a READY node for tile 3. -/
def wUrgent : State :=
  let x : Node := { wNode 2 .ready with target := 1, sdesc := wRec 128 [(92, 1, 1)] }
  let h : Heat := { wHeat .running [x] with id := 5, prio := 0 }
  (wOnHost 0).onGraph (fun g => { g with heats := Tab.put g.heats (heatKey 1 5) h })

theorem wit_VectorNodes_5 : ∃ s tile r at0 l b u ecc, (s.vtile tile).run = some r ∧ moreUrgent s tile r.heat = at0 :: l ∧ vtileUp s tile = true ∧
    r.ended = false ∧ r.issuing = true ∧ fld r.desc 8 8 ≠ 0 ∧ overran s r.heat r.node = false ∧ readWaits s r.heat r.node = false ∧
    ecc ≠ Ecc.uncorrectable ∧ (s.until (max (least at0 l + 20000) (r.since + 100000))).suspend tile r false = (.ok b, u) :=
  ⟨wUrgent, 3, wVx, 0, [], [], _, .corrected, by decide +kernel, by decide +kernel, by decide +kernel, by decide +kernel, by decide +kernel,
    by decide +kernel, by decide +kernel, by decide +kernel, by decide, pair_of (suspend_ok (b := []) (by
      rw [wContext_length _ _ _ (by decide +kernel) (by decide +kernel)]
      decide +kernel))⟩

theorem wit_VectorNodes_6 : ∃ s tile r, nextSuspended s (s.vtile tile).susp = some r ∧ (s.vtile tile).run = none ∧ vtileUp s tile = true ∧
    moreUrgent s tile r.heat = [] :=
  ⟨{ wOnHost 0 with vt := [(3, { VectorTile.init with susp := [wVx] })] }, 3, wVx, by decide +kernel⟩

/-- An unassigned class, and an OP that a class does not assign. -/
theorem wit_VectorNodes_7 : ∃ s i k t r w, 11 ≤ k ∧ Issues s i k undefOp t r w :=
  ⟨wOn (wIns 11 0 0 0 0 0), wI, 11, wTile (wIns 11 0 0 0 0 0), wVx, wIns 11 0 0 0 0 0, by decide, issues_of (by decide +kernel) _⟩

theorem wit_VectorNodes_7_op : ∃ s i t r w, Issues s i 10 undefOp t r w :=
  ⟨wOn (wIns 10 0 0 0 0 0), wI, wTile (wIns 10 0 0 0 0 0), wVx, wIns 10 0 0 0 0 0, issues_of (by decide +kernel) _⟩

theorem wit_VectorContextSaved : ∃ (s : State) (tile : Nat) (r : VxRun) (byYield : Bool) (b : List Byte) (t : State),
    s.tryWrite (flaskOfKey r.heat) (fld r.desc 8 8) (ctxImage (s.vtile tile) r byYield) = (.ok b, t) :=
  ⟨wOnHost 0, 3, wVx, true, [], _, tryWrite_ok (b := []) (by
    rw [wContext_length _ _ _ (by decide +kernel) (by decide +kernel)]
    decide +kernel)⟩

/-! ## Matrix tiles, hearth engines, streams -/

/-- A stream of node 0's partner 0 in a direction, of 64 bytes, a ring of 4,096. -/
def wStreamDesc (ctx dir : Nat) : List Byte := wRec 128 [(0, 1, ctx), (1, 1, dir), (4, 2, 8), (6, 1, 1), (8, 4, 4096 * ctx), (12, 4, 4096), (32, 8, 0x200000), (64, 8, 0x210000)]

def wStream (ctx dir : Nat) : Stream :=
  { freshStream wKey 1 (wStreamDesc ctx dir) { counts := [], strides := [], coefs := [], bounds := [], run := 64 } with issued := if dir = 0 then 64 else 0 }

def wCtx (ctx dir : Nat) : Ctx := { Ctx.init with st := .active, cur := some (wStream ctx dir) }

/-- Cluster 1's contexts 0 and 1 are inputs that hold 64 bytes, context 2 is an output, context 3 is linked to nothing. -/
def wLadle : Tab Ctx := [(32, wCtx 0 0), (33, wCtx 1 0), (34, wCtx 2 1)]

/-- A MATRIX descriptor: M = K = N = 1, BF16 operands, FP32 result, any tile but the fourth's number named is 1. -/
def wMxDesc : List Byte :=
  wRec 128 [(0, 4, 1), (4, 4, 1), (8, 2, 1), (12, 1, 1), (13, 1, 1), (14, 1, 0), (15, 1, 1), (20, 1, 0), (21, 1, 1), (22, 1, 2), (23, 1, 0xFF), (24, 2, 0xFFFF)]

def wMxEntry : KEntry := { heat := wKey, node := 0, cls := 1, desc := wMxDesc, phase := 0 }

/-- The entry waits at cluster 1, whose streams are armed. -/
def wMx : State := { (wOnHost 0).onGraph (fun g => { g with kq := [(1, [wMxEntry])] }) with vt := [], ld := wLadle }

theorem wit_MatrixNodes_1 : ∃ s cluster e sc sy x, firstOfKind s cluster 1 = some e ∧ mxCheck e.desc = .ok ∧ fld e.desc 15 1 < 4 ∧
    mxScales s (flaskOfKey e.heat) e.desc = .ok (sc, sy) ∧ mxTile s cluster (fld e.desc 15 1) = some (some x) ∧ mxTail e.desc = .ok ∧
    mxResident e.desc = false ∧ mxArmed s cluster e.heat e.node e.desc = true :=
  ⟨wMx, 1, wMxEntry, f32One, f32One, 5, by decide +kernel, by decide +kernel, by decide +kernel, by rfl, by decide +kernel, by decide +kernel,
    by decide +kernel, by decide +kernel⟩

/-- Matrix tile 5 runs the node, with `loads` blocks loaded. -/
def wMxRun (loads : Nat) (ended : Bool) : MxRun :=
  { MxRun.fresh wKey 0 wMxDesc f32One f32One [] false 0 [] with loads, ended }

def wMxOn (r : MxRun) (hold : Option Hold) : State :=
  { wMx with mt := [(5, { MatrixTile.init with level := 16, run := some r, hold })] }

theorem wit_MatrixNodes_2 : ∃ s tile r, (s.tile tile).run = some r ∧ tileUp s tile = true ∧ overran s r.heat r.node = false ∧
    r.loads < (mxDesc r.desc).total ∧ r.loads = r.pass :=
  ⟨wMxOn (wMxRun 0 false) none, 5, wMxRun 0 false, by decide +kernel⟩

theorem wit_MatrixNodes_3 : ∃ s tile r, (s.tile tile).run = some r ∧ tileUp s tile = true ∧ r.ended = false ∧ (s.tile tile).hold = none ∧
    overran s r.heat r.node = false ∧ rowState s tile r = .go :=
  ⟨wMxOn (wMxRun 1 false) none, 5, wMxRun 1 false, by decide +kernel⟩

theorem wit_MatrixNodes_4 : ∃ s tile, clusterThere s (tile / 4) = true ∧ (s.tile tile).run = none ∧ (s.tile tile).hold = none := ⟨wUp, 383, by decide +kernel⟩

theorem wit_MatrixNodes_5 : ∃ s tile r, (s.tile tile).run = some r ∧ (s.tile tile).hold = some .opnd ∧ rowState s tile r = .go :=
  ⟨wMxOn (wMxRun 1 false) (some .opnd), 5, wMxRun 1 false, by decide +kernel⟩

/-- The node has ended, and its output stream has left. -/
def wMxEnded : State := { wMxOn (wMxRun 1 true) none with ld := [(34, { wCtx 2 1 with cur := some { wStream 2 1 with made := 64, freed := 64 } })] }

theorem wit_MatrixNodes_6 : ∃ s tile r u b, (s.tile tile).run = some r ∧ r.ended = true ∧ overran s r.heat r.node = false ∧
    readWaits s r.heat r.node = false ∧ outputsDone (s.flushOutputs r.heat r.node) r.heat r.node = true ∧
    (s.flushOutputs r.heat r.node).writeHist (flaskOfKey r.heat) (fld r.desc 72 8) ((fld r.desc 18 2).testBit 7) [r.conv] = (.ok b, u) ∧
    (let ck := staleCheck (fld r.desc 26 1) (fld r.desc 32 4) (fld r.desc 36 4) (replayable r.streams) r.rerun
       [{ fmt := fmtOr (fld r.desc 14 1), scaleAddr := fld r.desc 64 8, conv := r.conv }]
     ck.rerun = []) :=
  ⟨wMxEnded, 5, wMxRun 1 true, _, [], by decide +kernel, by decide +kernel, by decide +kernel, by decide +kernel, by decide +kernel,
    pair_of (by decide +kernel), by decide +kernel⟩

/-- A GEMV of K = 1 and one row on engine 0 of stack 0: W at 0x200000, X at 0x208000, Y at 0x210000. -/
def wHe : HNode :=
  { heat := wKey, node := 0, desc := wRec 128 [(0, 1, 1), (1, 1, 3), (2, 1, 1), (6, 1, 1), (7, 1, 1), (8, 4, 1), (12, 2, 1), (32, 8, 0x200000),
      (48, 8, 0x208000), (56, 8, 0x210000)], scale := f32One, pages := [], pinned := [], xs := [], phase := 0, since := 0, begun := 0 }

theorem wit_HearthEngines_1 : ∃ s stack h xs, firstGang ((s.die stack).runs.map (·.2)) [] (s.die stack).queue = some h ∧ ctlUp s stack = true ∧
    (∀ j < heCount h.desc, (Tab.get .init s.he (64 * stack + heFirst h.desc + j)).st = .ok) ∧
    readFlask s (flaskOfKey h.heat) (fld h.desc 48 8) (heXBytes h.desc) = .ok xs :=
  ⟨{ wOnHost 0 with hb := [(0, { BaseDie.init with queue := [wHe] })] }, 0, wHe, leBytes 256 0, by decide +kernel⟩

/-- The node runs, its X read. -/
def wHeOn : State := { wOnHost 0 with hb := [(0, { BaseDie.init with runs := [(4, { wHe with xs := leBytes 256 0 })] })] }

def wHeDone : Conv × State := exOf (.init, wHeOn) ((wHeOn.gangFindings { wHe with xs := leBytes 256 0 } { corrected := [], outWait := [], lines := [], bad := none }).gangRun { wHe with xs := leBytes 256 0 })

/-- The node ends without an error. -/
def wHeEnd : HearthEnd := { corrected := [], outWait := [], lines := [], bad := none }

theorem wit_HearthEngines_2 : ∃ (s : State) (stack run : Nat) (how : HearthEnd) (h : HNode) (c : Conv) (u v : State) (b : List Byte),
    Tab.find? (s.die stack).runs run = some h ∧ how.bad = none ∧ (s.gangFindings h how).gangRun h = .ok (c, u) ∧
    u.writeHist (flaskOfKey h.heat) (fld h.desc 72 8) ((heCvt h.desc).getLsbD 7) [c] = (.ok b, v) :=
  ⟨wHeOn, 0, 4, wHeEnd, { wHe with xs := leBytes 256 0 }, wHeDone.1, wHeDone.2, _, [], by decide +kernel, rfl,
    exOf_ok (d := (.init, wHeOn)) (by decide +kernel),
    pair_of (by decide +kernel)⟩

theorem wit_HearthEngines_3 : ∃ (s : State) (stack engine : Nat), stack < 8 ∧ engine < 64 ∧ (Tab.get .init s.he (64 * stack + engine)).st ≠ .failed ∧
    nodesOnEngine s stack engine false = [] := ⟨wHeOn, 0, 1, by decide +kernel⟩

theorem wit_HearthEngines_4 : ∃ (s : State) (stack pc : Nat), pc < 64 ∧ stack < 8 ∧ ctlUp s stack = true := ⟨wUp, 7, 63, by decide +kernel⟩

/-- A refresh is due; the external path asks for nothing; the engine has failed. -/
theorem wit_HearthEngines_4_claims : ∃ (s : State) (c : SlotClaims), c.refresh = true ∧ (Tab.get .init s.he 63).st = .failed :=
  ⟨{ wUp with he := [(63, { Engine.init with st := .failed })] }, { refresh := true, refreshing := false, ext := [], hearth := none }, by decide +kernel⟩

theorem wit_HearthEngines_4_none : ∃ c : SlotClaims, c.refresh = false ∧ c.ext = [] :=
  ⟨{ refresh := false, refreshing := false, ext := [], hearth := none }, by decide⟩

/-- A STREAM entry that waits at cluster 1; its one instruction is RUN 64. -/
def wStEntry : KEntry := { heat := wKey, node := 1, cls := 3, desc := overlay (wStreamDesc 5 0) 3 [1], phase := 0 }

def wSt : State :=
  { wOnHost 0 with
    graph := { (wOnHost 0).graph with kq := [(1, [wStEntry])] }
    host := [(0x50000, 4), (0x50004, 64)]
    ld := wLadle }

theorem wit_StreamLife_1 : ∃ s cluster e b p, firstOfKind s cluster 3 = some e ∧ streamHead e.desc = true ∧
    ladleDown s cluster = false ∧ readFlask s (flaskOfKey e.heat) (fld e.desc 64 8) (16 * fld e.desc 3 1) = .ok b ∧
    programCheck e.desc b = .ok p ∧
    (let x := ctxKey cluster (sdCtx e.desc)
     tundishOk s x e.desc = true ∧ linkOk s x (freshStream e.heat e.node e.desc p) = true ∧ (s.ctx x).st = .idle) :=
  ⟨wSt, 1, wStEntry, overlay (leBytes 16 4) 4 [64], _, by decide +kernel, by decide +kernel, by decide +kernel, by decide +kernel,
    exOf_ok (d := { counts := [], strides := [], coefs := [], bounds := [], run := 64 }) (by decide +kernel), by decide +kernel⟩

theorem wit_StreamLife_2 : ∃ s cluster rates x sc c, ladleDown s cluster = false ∧ slotWinner s cluster rates = some (x, sc) ∧
    (s.ctx x).cur = some c :=
  ⟨{ wSt with ld := [(32, { wCtx 0 0 with cur := some { wStream 0 0 with issued := 0 } })] }, 1, [(0, 256)], 32, false,
    { wStream 0 0 with issued := 0 }, by decide +kernel⟩

/-- A line that context 0 of cluster 1 waits for. -/
def wReq : LReq := { id := 9, scale := false, pos := 0, len := 64, line := 0x200000, host := false, off := 0, data := [], retry := 2, dtag := 0 }

def wReading : State := { wSt with ld := [(32, { wCtx 0 0 with cur := some { wStream 0 0 with reqs := [wReq] } })] }

def wBack : State × Bool :=
  ((wReading.reach 0x200000 64).lineError 0x200000 .clean).returns (ctxKey 1 0) { wStream 0 0 with reqs := [wReq] } wReq .ok

theorem wit_StreamLife_3 : ∃ (s u : State) (cluster ctx req : Nat) (c : Stream) (r : LReq), (s.ctx (ctxKey cluster ctx)).cur = some c ∧ c.reqs.find? (fun r => r.id == req) = some r ∧
    sdLink c.desc = false ∧ sdOut c.desc = false ∧ r.host = false ∧ biOut s r.line = false ∧ snooped s r.line false = false ∧
    physOutcome s r.line 64 false = .ok ∧
    (let t := (s.reach r.line 64).lineError r.line .clean
     t.poisonIn r.line 64 = [] ∧ t.returns (ctxKey cluster ctx) c r .ok = (u, true) ∧ (u.ctx (ctxKey cluster ctx)).cur = some c) :=
  ⟨wReading, wBack.1, 1, 0, 9, { wStream 0 0 with reqs := [wReq] }, wReq, by decide +kernel, by decide +kernel, by decide +kernel,
    by decide +kernel, by decide +kernel, by decide +kernel, by decide +kernel, by decide +kernel, by decide +kernel,
    pairR_of (by decide +kernel), by decide +kernel⟩

theorem wit_StreamLife_4 : ∃ (s : State) (cluster ctx req : Nat) (c : Stream) (r : LReq), (s.ctx (ctxKey cluster ctx)).cur = some c ∧ c.reqs.find? (fun r => r.id == req) = some r ∧
    r.retry < 3 ∧ sdLink c.desc = false :=
  ⟨wReading, 1, 0, 9, { wStream 0 0 with reqs := [wReq] }, wReq, by decide +kernel⟩

/-- The last bytes of an output stream. -/
theorem wit_StreamLife_5 : ∃ (s : State) (cluster ctx bytes : Nat) (c : Stream), (s.ctx (ctxKey cluster ctx)).cur = some c ∧ sdOut c.desc = true ∧
    c.made + bytes ≤ c.prog.size ∧ bytes ≤ c.room := ⟨wSt, 1, 2, 64, wStream 2 1, by decide +kernel⟩

theorem wit_StreamLife_6 : ∃ (s : State) (cluster ctx : Nat) (c : Stream), (s.ctx (ctxKey cluster ctx)).cur = some c ∧ c.finished = true ∧ c.fate = none ∧
    heldForRerun s c = false :=
  ⟨{ wSt with ld := [(32, { wCtx 0 0 with cur := some { wStream 0 0 with freed := 64 } })] }, 1, 0, { wStream 0 0 with freed := 64 }, by decide +kernel⟩

/-! ## The network and fabric ports -/

/-- A flit for fabric port 0 of cluster 1, in cluster 0's router from its local side. -/
def wFlit : Flit :=
  { cls := 0, vc := 0, first := true, last := true, retry := 0, bad := false, dest := routerPort 1 9, src := routerPort 0 9, tag := 3, flask := 1,
    op := 0, addr := 0, payload := [] }

def wNet : State := wRun.onUnit 0 (fun u => { u with inq := [{ inp := 4, link := 0, flit := wFlit }] })
theorem wit_NetworkAndPortLife_1 : ∃ (s : State) (unit out link : Nat) (q : QFlit) (b : Bool), winner s unit out link = (some q, b) :=
  ⟨wNet, 0, 1, 0, { inp := 4, link := 0, flit := wFlit }, false, by decide +kernel⟩

theorem wit_NetworkAndPortLife_2 : ∃ (s : State) (cluster tag : Nat) (c : Stream) (r : LReq) (rest : List LReq),
    (s.ctx (ctxKey cluster tag)).cur = some c ∧ c.reqs = r :: rest ∧ r.retry < 3 ∧ sdLink c.desc = false :=
  ⟨wReading, 1, 0, { wStream 0 0 with reqs := [wReq] }, wReq, [], by decide +kernel⟩

/-- Port 4 (cluster 1, quarter 0) of flask 1, up. -/
def wPort : FPort := { FPort.init with en := true, fclk := true, flask := some 1 }

def wPortOn (p : FPort) : State := { wRun with fp := [(4, p)] }

def wPReq : PReq := { tag := 3, va := 0x200000, write := false, retry := 0, flit := { wFlit with src := 1 } }

theorem wit_NetworkAndPortLife_3 : ∃ (s : State) (cluster n tag : Nat) (r : PReq), n < 4 ∧
    (s.fport (4 * cluster + n)).outs.find? (fun r => r.tag == tag && r.flit.src != 0) = some r ∧ r.flit.op = 0 ∧ r.retry < 3 :=
  ⟨wPortOn { wPort with outs := [wPReq] }, 1, 0, 3, wPReq, by decide +kernel⟩

theorem wit_NetworkAndPortLife_4 : ∃ (s : State) (port cls : Nat), (s.fport port).up = true ∧ (s.fport port).waiting cls ≠ 0 :=
  ⟨wPortOn { wPort with rx := [wFlit] }, 4, 0, by decide +kernel⟩

theorem wit_NetworkAndPortLife_5 : ∃ (s : State) (port f : Nat), (s.fport port).flask = some f ∧ (s.fport port).fclk = true :=
  ⟨wPortOn wPort, 4, 1, by decide +kernel⟩

/-- The dispatch of tag 9 was dropped on its way. -/
theorem wit_NetworkAndPortLife_7 : ∃ (s : State) (cluster tag : Nat) (d : Nat × Nat), lostDispatch s cluster tag = some d :=
  ⟨wPortOn { wPort with dtags := [(9, wKey, 0)], lost := [9] }, 1, 9, (wKey, 0), by decide +kernel⟩

/-- A mould that runs in quarter 0 of ring 1. -/
def wRuns : Mould :=
  { flask := 1, cluster := 1, quarters := [0], st := .running, endpoints := [(7, 0)], registered := true, hostvis := 1, holdOut := 0, holdOe := 0,
    startup := [], pos := 4, initHold := false, writesOn := true, header := [], cid := none, resetCid := none }

def wPortRuns : State := (wPortOn wPort).onSprue (fun p => { p with shell := 1, moulds := [(4, wRuns)] })

theorem wit_NetworkAndPortLife_6 : ∃ (s : State) (port f : Nat), (s.fport port).flask = some f ∧ (s.fport port).breach = false ∧
    (s.fport port).reconf = false ∧ portRuns s port = true := ⟨wPortRuns, 4, 1, by decide +kernel⟩

/-- Eight lines, and the most that may be outstanding after them. -/
theorem wit_PortTraffic_1 : ∃ (s : State) (port : Nat) (lines : List (Nat × Nat)), 1 ≤ lines.length ∧ lines.length ≤ 8 ∧
    (s.fport port).readsOut + lines.length ≤ 256 ∧ txReady s port 0 = true :=
  ⟨wPortOn { wPort with outs := List.replicate 248 wPReq }, 4, List.replicate 8 (0x200000, 3), by decide +kernel⟩

theorem wit_PortTraffic_2 : ∃ (s : State) (port : Nat), txReady s port 2 = true := ⟨wPortRuns, 4, by decide +kernel⟩

theorem wit_PortTraffic_3 : ∃ (s : State) (port endpoint y : Nat), txReady s port 2 = true ∧
    messagePort s (s.fport port).owner endpoint = some y := ⟨wPortRuns, 4, 7, 4, by decide +kernel⟩

theorem wit_PortTraffic_4 : ∃ (s : State) (port ctx : Nat) (c : Stream), txReady s port 2 = true ∧ ctx < 32 ∧
    (s.ctx (ctxKey (port / 4) ctx)).cur = some c ∧ sdOut c.desc = true ∧ flaskOfKey c.heat = (s.fport port).owner ∧
    c.made < c.prog.size ∧ min 64 (c.prog.size - c.made) ≤ c.room :=
  ⟨{ wPortRuns with ld := [(63, wCtx 31 1)] }, 4, 31, wStream 31 1, by decide +kernel⟩

def wPortNode : State := wPortOn { wPort with dtags := [(9, wKey, 0)] }

/-- The completion of tag 9, and the state it leaves as its flit is sent. -/
def wDone (s : State) : State := (s.txCount 4).onPort 4 (fun p => { p with dtags := p.dtags.filter (fun e => e.1 != 9) })

theorem wit_PortTraffic_5 : ∃ (s : State) (port dtag word : Nat) (result : List Byte) (d : Nat × Nat × Nat) (u : State), (s.fport port).up = true ∧
    (s.fport port).dtags.find? (fun d => d.1 == dtag) = some d ∧
    (let t := (s.txCount port).onPort port (fun p => { p with dtags := p.dtags.filter (fun e => e.1 != dtag) })
     t.sends (routerPort (port / 4) (9 + port % 4)) (completionFlit t port dtag word result) true = (u, true)) ∧ fabricStat word ≠ .ok :=
  ⟨wPortNode, 4, 9, 0xFFFF, [], (9, wKey, 0), ((wDone wPortNode).sends (routerPort 1 9) (completionFlit (wDone wPortNode) 4 9 0xFFFF []) true).1,
    by decide +kernel, by decide +kernel, Prod.ext rfl (by decide +kernel), by decide +kernel⟩

theorem wit_PortTraffic_6 : ∃ (s : State) (port dtag word : Nat) (result : List Byte) (d : Nat × Nat × Nat) (u : State), (s.fport port).up = true ∧
    (s.fport port).dtags.find? (fun d => d.1 == dtag) = some d ∧
    (let t := (s.txCount port).onPort port (fun p => { p with dtags := p.dtags.filter (fun e => e.1 != dtag) })
     t.sends (routerPort (port / 4) (9 + port % 4)) (completionFlit t port dtag word result) true = (u, true)) ∧ fabricStat word = .ok :=
  ⟨wPortNode, 4, 9, 0, [], (9, wKey, 0), ((wDone wPortNode).sends (routerPort 1 9) (completionFlit (wDone wPortNode) 4 9 0 []) true).1,
    by decide +kernel, by decide +kernel, Prod.ext rfl (by decide +kernel), by decide +kernel⟩

/-- The route of partition 0 to PX is NONE, and the completion is lost. -/
def wPortLost : State := { wPortNode with net := { wPortNode.net with routes := [0x3FF, 0x3FF, 0x3FF, 0x3FF] } }

theorem wit_PortTraffic_11 : ∃ (s : State) (port dtag word : Nat) (result : List Byte) (d : Nat × Nat × Nat) (u : State), (s.fport port).up = true ∧
    (s.fport port).dtags.find? (fun d => d.1 == dtag) = some d ∧
    (let t := (s.txCount port).onPort port (fun p => { p with dtags := p.dtags.filter (fun e => e.1 != dtag) })
     t.sends (routerPort (port / 4) (9 + port % 4)) (completionFlit t port dtag word result) true = (u, false)) :=
  ⟨wPortLost, 4, 9, 0, [], (9, wKey, 0), ((wDone wPortLost).sends (routerPort 1 9) (completionFlit (wDone wPortLost) 4 9 0 []) true).1,
    by decide +kernel, by decide +kernel, Prod.ext rfl (by decide +kernel)⟩

theorem wit_PortTraffic_7 : ∃ (s : State) (port cls : Nat) (f : Flit) (rest : List Flit), (s.fport port).up = true ∧
    takeFirst cls (s.fport port).rx = some (f, rest) := ⟨wPortOn { wPort with rx := [wFlit] }, 4, 0, wFlit, [], by decide +kernel⟩

theorem wit_PortTraffic_8 : ∃ (s : State) (cluster : Nat), portRuns s (4 * cluster) = true ∧ traceUse s cluster 3 = true :=
  ⟨{ wPortRuns with claims := [(1025, { owner := 1, use := 3, since := 0 })] }, 1, by decide +kernel⟩

/-- The first line of the block-RAM window of cluster 1's visible block RAM. -/
theorem wit_PortTraffic_9 : ∃ (s : State) (addr : Nat), bramBase ≤ addr ∧ physOutcome s addr 64 true = .ok :=
  ⟨wPortRuns, bramBase + bramWindow, by decide +kernel⟩

theorem wit_PortTraffic_10 : ∃ (s : State) (addr : Nat), bramBase ≤ addr ∧ physOutcome s addr 64 false = .ok :=
  ⟨wPortRuns, bramBase + bramWindow, by decide +kernel⟩

/-! ## Resets, logs -/

def wReset (flask : Nat) (l : List (Nat × Nat × Nat)) : Cmd := wCmd 0x0D flask l

theorem wit_ResetCommands_1 : ∃ s cid c i, Fresh s cid 0x0D c ∧ resetCluster c = some i ∧ c.p 0 1 = 0 ∧ resetForm c = true ∧
    callerOwns s c i = true ∧ tileThere s i (c.p 3 1) = true :=
  let c := wReset 1 [(3, 1, 7), (4, 2, 0x40)]
  ⟨wRun.wWith c, 7, c, 1, fresh_of (by decide +kernel), by decide +kernel⟩

theorem wit_ResetCommands_2 : ∃ s cid c i, Fresh s cid 0x0D c ∧ resetCluster c = some i ∧ c.p 0 1 = 1 ∧ resetForm c = true ∧
    callerOwns s c i = true ∧ clusterThere s i = true :=
  let c := wReset 0xFF [(0, 1, 1), (2, 1, 1), (4, 2, 0x3E8)]
  ⟨wRun.wWith c, 7, c, 95, fresh_of (by decide +kernel), by decide +kernel⟩

theorem wit_ResetCommands_3 : ∃ s cid c e, Fresh s cid 0x0D c ∧ resetEngine c = some e ∧ c.p 0 1 = 2 ∧ resetForm c = true ∧
    c.flask = 0xFF ∧ ctlUp s (e / 64) = true ∧ (Tab.get .init s.he e).st ≠ .failed :=
  let c := wReset 0xFF [(0, 1, 2), (4, 2, 511)]
  ⟨wRun.wWith c, 7, c, 511, fresh_of (by decide +kernel), by decide +kernel⟩

theorem wit_ResetCommands_4 : ∃ s cid c, Fresh s cid 0x0D c ∧ c.p 0 1 = 3 ∧ resetForm c = true ∧ c.p 4 2 ≤ 3 ∧ c.flask = 0xFF ∧
    healthyPart s (c.p 4 2) = true :=
  let c := wReset 0xFF [(0, 1, 3), (4, 2, 3)]
  ⟨wRun.wWith c, 7, c, fresh_of (by decide +kernel), by decide +kernel⟩

theorem wit_ResetCommands_5 : ∃ s cid c q, Fresh s cid 0x0D c ∧ c.p 0 1 = 4 ∧ resetForm c = true ∧ c.p 4 2 = 0 ∧ c.flask = 0xFF ∧
    cqTakes s c.qnum = true ∧ c.p 1 1 ≤ 1 ∧ (s.resetRecord c |>.finish cid .ok zeros16).queue? c.qnum = some q ∧
    (∀ o, (s.resetRecord c |>.finish cid .ok zeros16).queue? q.cqOf = some o → o.waiting = []) :=
  let c := { wReset 0xFF [(0, 1, 4), (1, 1, 1)] with qnum := 0, suppress := true }
  let s := (wUp.wQ 0 (wQueue 0 0xFF)).wWith c
  ⟨s, 7, c, wQueue 0 0xFF, fresh_of (by decide +kernel), by decide +kernel, by decide +kernel, by decide +kernel, by decide +kernel,
    by decide +kernel, by decide +kernel, by decide +kernel, by
      have h : (s.resetRecord c |>.finish 7 .ok zeros16).queue? (wQueue 0 0xFF).cqOf = some (wQueue 0 0xFF) := by decide +kernel
      intro o ho
      rw [h] at ho
      cases ho
      rfl⟩

/-- Command 7 resets ring 1; in the second state command 9, a reset of partition 0, covers it. -/
def wRing : Cmd := { wReset 1 [(0, 1, 1), (4, 2, 0x40)] with work := .reset }

theorem wit_ResetCommands_6 : ∃ s cid c, Works s cid .reset c ∧ (∀ m ∈ s.sprue.moulds, m.2.resetCid ≠ some cid) ∧
    ∀ x ∈ otherResets s cid, covers s x c = false :=
  ⟨wRun.wWith wRing, 7, wRing, works_of (by decide +kernel), by decide +kernel⟩

theorem wit_ResetCommands_6_covered : ∃ s cid c, Works s cid .reset c ∧ (∀ m ∈ s.sprue.moulds, m.2.resetCid ≠ some cid) ∧
    ∃ x ∈ otherResets s cid, covers s x c = true :=
  ⟨{ wRun with qb := { wRun.qb with cmds := [wRing, { wReset 0xFF [(0, 1, 3)] with cid := 9, work := .reset }] } }, 7, wRing,
    works_of (by decide +kernel), by decide +kernel⟩

/-- The least and the greatest cap. -/
theorem wit_PowerCapAndLogs_1 : ∃ s cid c, Fresh s cid 0x0E c ∧ c.flask = 0xFF ∧ (c.p 0 4 = 0 ∨ 700 ≤ c.p 0 4 ∧ c.p 0 4 ≤ 2800) ∧
    c.reserved 4 47 = true :=
  let c := wCmd 0x0E 0xFF [(0, 4, 2800)]
  ⟨wRun.wWith c, 7, c, fresh_of (by decide +kernel), by decide +kernel⟩

theorem wit_PowerCapAndLogs_1_least : ∃ s cid c, Fresh s cid 0x0E c ∧ c.flask = 0xFF ∧ (c.p 0 4 = 0 ∨ 700 ≤ c.p 0 4 ∧ c.p 0 4 ≤ 2800) ∧
    c.reserved 4 47 = true :=
  let c := wCmd 0x0E 0xFF [(0, 4, 700)]
  ⟨wRun.wWith c, 7, c, fresh_of (by decide +kernel), by decide +kernel⟩

def wTelemetry : Cmd := wCmd 0x0F 1 [(0, 1, 1), (4, 4, 7), (8, 8, 0x9000), (16, 2, 4032), (18, 2, 64)]

theorem wit_PowerCapAndLogs_2 : ∃ s cid c b, Fresh s cid 0x0F c ∧ c.reserved 1 3 = true ∧ c.reserved 20 47 = true ∧ c.p 8 8 % 64 = 0 ∧
    c.p 16 2 % 64 = 0 ∧ 64 ≤ c.p 18 2 ∧ c.p 18 2 % 64 = 0 ∧ c.p 16 2 + c.p 18 2 ≤ 4096 ∧ telemetryPage s c.flask (c.p 0 1) (c.p 4 4) = .ok b :=
  let s := wRun.wWith wTelemetry
  ⟨s, 7, wTelemetry, exOf [] (telemetryPage s 1 1 7), fresh_of (by decide +kernel), by decide +kernel, by decide +kernel, by decide +kernel,
    by decide +kernel, by decide +kernel, by decide +kernel, by decide +kernel, exOf_ok (by decide +kernel)⟩

theorem wit_PowerCapAndLogs_3 : ∃ s cid c, Fresh s cid 0x10 c ∧ boxReadForm c = true ∧ c.p 20 1 = 0 :=
  let c := wCmd 0x10 0xFF [(0, 8, 0x9000), (16, 4, 0x1000000)]
  ⟨wRun.wWith c, 7, c, fresh_of (by decide +kernel), by decide +kernel⟩

theorem wit_PowerCapAndLogs_3_records : ∃ s cid c, Fresh s cid 0x10 c ∧ boxReadForm c = true ∧ c.p 20 1 ≠ 0 ∧
    ((recordsOf s (c.p 21 1)).filter (fun b => c.p 8 8 ≤ fld b 0 8 && (c.flask == 0xFF || fld b 10 1 == c.flask))) = [] :=
  let c := wCmd 0x10 1 [(0, 8, 0x9000), (16, 4, 64), (20, 1, 1), (21, 1, 1)]
  ⟨wRun.wWith c, 7, c, fresh_of (by decide +kernel), by decide +kernel⟩

theorem wit_PowerCapAndLogs_4 : ∃ s cid c, Fresh s cid 0x11 c ∧ 1 ≤ c.p 12 4 ∧ c.p 12 4 ≤ 32768 ∧ c.reserved 16 47 = true :=
  let c := wCmd 0x11 0xFF [(0, 8, 0x9000), (12, 4, 32768)]
  ⟨wRun.wWith c, 7, c, fresh_of (by decide +kernel), by decide +kernel⟩

theorem wit_PowerCapAndLogs_5 : ∃ (s : State) (r : BbRec) (rest : List BbRec), coresRun s = true ∧ s.box.queue = r :: rest ∧ r.type ≠ 1 ∧
    isSecurity r.type = false :=
  ⟨{ wRun with box := { BlackBox.init with queue := [{ type := 0x12, flask := 1, body := [] }] } }, { type := 0x12, flask := 1, body := [] }, [],
    by decide +kernel⟩

/-! ## Links, self-test, firmware, serving -/

def wNode0 : State := { wRun with nimra := { Nimra.init with nodeId := some 17 } }

theorem wit_LinkControl_1 : ∃ s cid c b, Fresh s cid 0x14 c ∧ c.p 0 1 = 1 ∧ nodeForm c = true ∧ readFlask s 0xFF (c.p 16 8) 1024 = .ok b ∧
    blockForm b = true ∧ s.nimra.groups = [] :=
  let c := wCmd 0x14 0xFF [(0, 1, 1), (4, 4, 4095), (16, 8, sramBase)]
  ⟨wRun.wWith c, 7, c, leBytes 1024 0, fresh_of (by decide +kernel), by decide +kernel⟩

theorem wit_LinkControl_2 : ∃ s cid c, Fresh s cid 0x14 c ∧ c.p 0 1 = 2 ∧ portForm c = true ∧ c.p 8 1 = 0 :=
  let c := wCmd 0x14 0xFF [(0, 1, 2), (4, 4, 0x80000001)]
  ⟨wRun.wWith c, 7, c, fresh_of (by decide +kernel), by decide +kernel⟩

theorem wit_LinkControl_2_enable : ∃ s cid c, Fresh s cid 0x14 c ∧ c.p 0 1 = 2 ∧ portForm c = true ∧ c.p 8 1 = 1 :=
  let c := wCmd 0x14 0xFF [(0, 1, 2), (4, 4, 1), (8, 1, 1), (10, 1, 3)]
  ⟨wRun.wWith c, 7, c, fresh_of (by decide +kernel), by decide +kernel⟩

theorem wit_LinkControl_2_retrain : ∃ s cid c, Fresh s cid 0x14 c ∧ c.p 0 1 = 2 ∧ portForm c = true ∧ c.p 8 1 = 2 :=
  let c := wCmd 0x14 0xFF [(0, 1, 2), (4, 4, 1), (8, 1, 2), (10, 1, 1)]
  ⟨wRun.wWith c, 7, c, fresh_of (by decide +kernel), by decide +kernel⟩

/-- A group of one member, this node's flask 1; its list is in SRAM that a flask's page cannot reach, so it lies in host memory. -/
def wGroupList : State := { wNode0 with flasks := [(1, { wFlask with pages :=
  [(0x200000, { size := 0x200000, st := .host, write := true, pa := 0x40000, home := .hbm, pins := 0, move := none })] })], host := [(0x40000, 17), (0x40002, 1)] }

theorem wit_LinkControl_3 : ∃ s cid c b node, Fresh s cid 0x14 c ∧ c.p 0 1 = 3 ∧ groupForm c = true ∧ s.nimra.nodeId = some node ∧
    readFlask s c.flask (c.p 16 8) (4 * c.p 8 4) = .ok b ∧ membersOk s c b = true ∧ Tab.has s.nimra.groups (c.p 4 1) = false :=
  let c := wCmd 0x14 1 [(0, 1, 3), (4, 1, 255), (8, 4, 1), (16, 8, 0x200000)]
  ⟨wGroupList.wWith c, 7, c, [17, 0, 1, 0], 17, fresh_of (by decide +kernel), by decide +kernel⟩

def wGroup : Group := Group.fresh 1 0 [(17, 1), (18, 1)]

theorem wit_LinkControl_4 : ∃ s cid c x, Fresh s cid 0x14 c ∧ c.p 0 1 = 4 ∧ c.flask < 16 ∧ c.reserved 1 3 = true ∧ c.reserved 5 47 = true ∧
    s.group? (c.p 4 1) = some x ∧ x.flask = c.flask ∧ (∀ y ∈ s.nimra.colls, y.group ≠ c.p 4 1) :=
  let c := wCmd 0x14 1 [(0, 1, 4), (4, 1, 9)]
  ⟨State.wWith { wRun with nimra := { Nimra.init with groups := [(9, wGroup)] } } c, 7, c, wGroup, fresh_of (by decide +kernel), by decide +kernel⟩

theorem wit_SelfTestAndRegisters_1 : ∃ s cid c, Fresh s cid 0x15 c ∧ c.p 0 1 = 1 ∧ c.flask = 0xFF ∧ c.p 4 1 ≤ 1 ∧ c.reserved 1 3 = true ∧
    c.reserved 5 47 = true :=
  let c := wCmd 0x15 0xFF [(0, 1, 1), (4, 1, 1)]
  ⟨wRun.wWith c, 7, c, fresh_of (by decide +kernel), by decide +kernel⟩

theorem wit_SelfTestAndRegisters_2 : ∃ s cid c, Fresh s cid 0x15 c ∧ c.p 0 1 = 2 ∧ c.p 4 4 < 96 ∧ c.flask = 0xFF ∧ c.reserved 1 3 = true ∧
    c.reserved 16 47 = true ∧ exposed s (c.p 4 4) = true :=
  let c := wCmd 0x15 0xFF [(0, 1, 2), (4, 4, 95), (8, 8, 0xFFFFFFFFFFFFFFFF)]
  ⟨wRun.wWith c, 7, c, fresh_of (by decide +kernel), by decide +kernel⟩

def wTest (w : Work) : Cmd := wCmd 0x15 1 [(0, 1, 3), (4, 2, 0x40)] w

theorem wit_SelfTestAndRegisters_3 : ∃ s cid c i, Fresh s cid 0x15 c ∧ c.p 0 1 = 3 ∧ unpackCluster (c.p 4 2) = some i ∧ c.reserved 1 3 = true ∧
    c.reserved 6 47 = true ∧ callerOwns s c i = true ∧ clusterThere s i = true ∧ clusterBusy s i = false :=
  ⟨wRun.wWith (wTest .pending), 7, wTest .pending, 1, fresh_of (by decide +kernel), by decide +kernel⟩

theorem wit_SelfTestAndRegisters_4 : ∃ s cid c i, Works s cid .test c ∧ unpackCluster (c.p 4 2) = some i :=
  ⟨wRun.wWith (wTest .test), 7, wTest .test, 1, works_of (by decide +kernel), by decide +kernel⟩

/-- `FW_LOAD` of a target from the SRAM of cluster 0. -/
def wFw (target : Nat) (w : Work := .pending) : Cmd := wCmd 0x09 0xFF [(0, 8, sramBase), (8, 1, target)] w

theorem wit_FirmwareLoads_1 : ∃ s cid c, Fresh s cid 0x09 c ∧ fwLoadForm c = true ∧ s.flash.writing = none ∧ c.p 8 1 = 0 :=
  ⟨wRun.wWith (wFw 0), 7, wFw 0, fresh_of (by decide +kernel), by decide +kernel⟩

theorem wit_FirmwareLoads_1_shell : ∃ s cid c, Fresh s cid 0x09 c ∧ fwLoadForm c = true ∧ s.flash.writing = none ∧ c.p 8 1 = 1 :=
  ⟨wRun.wWith (wFw 1), 7, wFw 1, fresh_of (by decide +kernel), by decide +kernel⟩

theorem wit_FirmwareLoads_1_provisioning : ∃ s cid c, Fresh s cid 0x09 c ∧ fwLoadForm c = true ∧ s.flash.writing = none ∧ c.p 8 1 = 2 :=
  ⟨wRun.wWith (wFw 2), 7, wFw 2, fresh_of (by decide +kernel), by decide +kernel⟩

def wWriting (target : Nat) : State := (wRun.onFlash (fun f => { f with writing := some (target, [1]) })).wWith (wFw target .flash)

theorem wit_FirmwareLoads_2 : ∃ s cid c img, Works s cid .flash c ∧ s.flash.writing = some (2, img) :=
  ⟨wWriting 2, 7, wFw 2 .flash, [1], works_of (by decide +kernel), by decide +kernel⟩

theorem wit_FirmwareLoads_3 : ∃ s cid c img, Works s cid .flash c ∧ s.flash.writing = some (1, img) :=
  ⟨wWriting 1, 7, wFw 1 .flash, [1], works_of (by decide +kernel), by decide +kernel⟩

theorem wit_FirmwareLoads_4 : ∃ s cid c img, Works s cid .flash c ∧ s.flash.writing = some (0, img) :=
  ⟨wWriting 0, 7, wFw 0 .flash, [1], works_of (by decide +kernel), by decide +kernel⟩

/-- The descriptor of a serving loop: vocabulary 1, one layer, one head, width 64, one session at a time; patterns 0 and 1. -/
def wSvDesc : List Byte :=
  wRec 256 [(0, 4, 1), (4, 2, 1), (6, 1, 1), (7, 1, 64), (8, 4, 128), (12, 2, 1), (14, 2, 64), (16, 4, 0), (20, 4, 1), (24, 4, 0xFFFFFFFF), (28, 8, 0xFFFFFFFFFFFFFFFF),
    (36, 8, 0xFFFFFFFFFFFFFFFF), (44, 8, 0xFFFFFFFFFFFFFFFF), (56, 64, 2 ^ 512 - 1), (160, 8, 0x10000)]

def wSvPattern : Pattern := { flask := 1, count := 1, store := 0x210000, nslot := 0, patches := [] }

/-- No stack is up; the descriptor lies in host memory, and its patterns are registered. -/
def wSv : State :=
  { wOnHost 0 with
    vt := [], mc := [], host := writeTab hostDefault [] 0x40000 wSvDesc
    graph := { Graph.init with patterns := [(0, wSvPattern), (1, wSvPattern)] } }

def wOpenCmd : Cmd := wCmd 0x86 1 [(0, 8, 0x200000), (8, 4, 128)]

theorem wit_ServingLoops_1 : ∃ s cid c f d roles, Fresh s cid 0x86 c ∧ c.p 0 8 % 64 = 0 ∧ c.p 0 8 < 2 ^ 48 ∧ c.p 8 4 % 64 = 0 ∧ 128 ≤ c.p 8 4 ∧
    c.reserved 32 47 = true ∧ s.flask? c.flask = some f ∧ Tab.find? s.serving.loops (loopKey c.flask (c.p 0 8)) = none ∧
    readFlask s c.flask (c.p 0 8) 256 = .ok d ∧ svForm d = true ∧ readFlask s c.flask (fld d 136 8) (32 * svNRole d) = .ok roles ∧
    svCheck s c.flask f d roles = .ok :=
  ⟨wSv.wWith wOpenCmd, 7, wOpenCmd, { wFlask with pages :=
    [(0x200000, { size := 0x200000, st := .host, write := true, pa := 0x40000, home := .hbm, pins := 0, move := none })] }, wSvDesc, [], fresh_of (by decide +kernel),
    by and_intros <;> decide +kernel⟩

/-- The loop, and session 3 of it. -/
def wLoopKey : Nat := loopKey 1 0x200000

def wLoop : Loop := { desc := wSvDesc, roles := [], steps := 0, decode := none, prefill := none }

def wReqOf (input : List Nat) : Req :=
  { cid := 7, tag := 3, flask := 1, prio := 2, input, maxNew := 1, temp := 0, topP := f32One, topK := 0, noStop := false, tokenIrq := false,
    seed := 0, out := 0, flags := 0, ending := none }

def wSession (st : SessSt) (req : Option Req) : Session :=
  { loop := wLoopKey, qnum := 5, maxCtx := 128, key := 0, stop := [], st, ctxLen := 1, homes := [0], pages := [(pageKey 0 0 0, 0)], spill := [],
    listSlot := 0, lastTok := none, order := 0, token := 0, placed := true, req }

def wServe (x : Session) : State := { wSv with serving := { Serving.init with loops := [(wLoopKey, wLoop)], sessions := [(3, x)], nextSess := 4 } }

/-- The least context of a session is the loop's greatest. -/
theorem wit_ServingLoops_2 : ∃ (s : State) (c : Cmd) (key : Nat) (l : Loop) (i : Nat), c.p 8 4 ≤ svMaxCtx l.desc ∧ s.serving.sessions.length < 65536 ∧
    (s.serving.sessions.filter (fun x => x.2.loop == key)).length < 16384 ∧ freeListSlot s key l.desc = some i :=
  ⟨wServe (wSession .idle none), wOpenCmd, wLoopKey, wLoop, 1, by decide +kernel⟩

def wAsk : Cmd := wCmd 0x87 1 [(0, 4, 3), (4, 4, 1), (8, 8, 0x210000), (16, 4, 65536), (24, 4, 0x3F800000), (28, 2, 1024)]

theorem wit_ServingLoops_3 : ∃ s cid c x l b, Fresh s cid 0x87 c ∧ requestForm c = true ∧ sessionOf s c = some x ∧
    Tab.find? s.serving.loops x.loop = some l ∧ (c.p 30 1).testBit 0 = false ∧ readFlask s c.flask (c.p 8 8) (4 * c.p 4 4) = .ok b ∧
    (let input := (upto (c.p 4 4)).map (fun i => fld b (4 * i) 4)
     ∀ t ∈ input, t < svVocab l.desc) ∧
    x.ctxLen + c.p 4 4 ≤ x.maxCtx - 1 ∧ closing s (c.p 0 4) x = false ∧ x.req = none ∧ x.homes ≠ [] :=
  ⟨(wServe { wSession .idle none with ctxLen := 126 }).wWith wAsk, 7, wAsk, { wSession .idle none with ctxLen := 126 }, wLoop, [0, 0, 0, 0],
    fresh_of (by decide +kernel), by decide +kernel⟩

theorem wit_ServingLoops_4 : ∃ s cid c x r, Fresh s cid 0x88 c ∧ c.reserved 4 47 = true ∧ sessionOf s c = some x ∧ x.req = some r :=
  let c := wCmd 0x88 1 [(0, 4, 3)]
  ⟨(wServe (wSession .ready (some (wReqOf [])))).wWith c, 7, c, wSession .ready (some (wReqOf [])), wReqOf [], fresh_of (by decide +kernel), by decide +kernel⟩

theorem wit_ServingLoops_5 : ∃ s cid c x, Fresh s cid 0x89 c ∧ c.reserved 4 47 = true ∧ sessionOf s c = some x ∧ x.req = none :=
  let c := wCmd 0x89 1 [(0, 4, 3)]
  ⟨(wServe (wSession .idle none)).wWith c, 7, c, wSession .idle none, fresh_of (by decide +kernel), by decide +kernel⟩

theorem wit_ServingLoops_5_request : ∃ s cid c x r, Fresh s cid 0x89 c ∧ c.reserved 4 47 = true ∧ sessionOf s c = some x ∧ x.req = some r :=
  let c := wCmd 0x89 1 [(0, 4, 3)]
  ⟨(wServe (wSession .ready (some (wReqOf [])))).wWith c, 7, c, wSession .ready (some (wReqOf [])), wReqOf [], fresh_of (by decide +kernel), by decide +kernel⟩

/-- A decode step of one row. -/
def wReady : State := wServe (wSession .ready (some (wReqOf [])))

theorem wReady_order : readyOrder (wReady.holdReady wLoopKey) wLoopKey = [(3, wSession .ready (some (wReqOf [])))] := by
  unfold readyOrder
  rw [show (wReady.holdReady wLoopKey).serving.sessions.filter (fun x => x.2.loop == wLoopKey && x.2.st == .ready) =
    [(3, wSession .ready (some (wReqOf [])))] by decide +kernel]
  simp

theorem wit_ServingLoops_6 : ∃ (s : State) (loop : Nat) (l : Loop) (ns : List Nat) (u : State), Tab.find? s.serving.loops loop = some l ∧ l.decode = none ∧
    s.faults.any (fun f => f.who == .loop (4 * loop)) = false ∧
    (s.holdReady loop).formBatch loop l.desc false (readyOrder (s.holdReady loop) loop) (svMaxBatch l.desc) [] = (ns, none, u) ∧ ns ≠ [] ∧
    (let rows := (u.serving.sessions.filter (fun x => ns.contains x.1)).map (fun x => ({ n := x.1, x := x.2, pos := x.2.ctxLen, token := x.2.token } : Row))
     rows.length ≤ 8) :=
  ⟨wReady, wLoopKey, wLoop, [3], ((wReady.holdReady wLoopKey).formBatch wLoopKey wSvDesc false [(3, wSession .ready (some (wReqOf [])))] 1 []).2.2,
    by decide +kernel, rfl, by decide +kernel, by
      rw [wReady_order]
      exact (pair_of (by decide +kernel)).trans (congrArg _ (pair_of (by decide +kernel))),
    by decide, by decide +kernel⟩

/-- A prefill of the first of two tokens. -/
def wFill2 : Session := wSession .prefill (some (wReqOf [0, 0]))

theorem wit_ServingLoops_7 : ∃ (s : State) (loop : Nat) (l : Loop) (n : Nat) (x : Session) (rest : List (Nat × Session)) (r : Req) (u : State), Tab.find? s.serving.loops loop = some l ∧ l.prefill = none ∧
    s.faults.any (fun f => f.who == .loop (4 * loop + 1)) = false ∧
    (s.serving.sessions.filter (fun x => x.2.loop == loop && x.2.st == .prefill)).mergeSort (fun a b => a.2.order ≤ b.2.order) = (n, x) :: rest ∧
    x.req = some r ∧
    (let k := min (svChunk l.desc) (r.input.length - 1)
     s.takePages n loop l.desc x false (needKeys l.desc x x.ctxLen (x.ctxLen + k)) = (.ok, u)) :=
  ⟨wServe wFill2, wLoopKey, wLoop, 3, wFill2, [], wReqOf [0, 0], wServe wFill2, by decide +kernel, rfl, by decide +kernel, by
      rw [show (wServe wFill2).serving.sessions.filter (fun x => x.2.loop == wLoopKey && x.2.st == .prefill) = [(3, wFill2)] by decide +kernel]
      simp, by decide +kernel, by
      show (wServe wFill2).takePages 3 wLoopKey wSvDesc wFill2 false (needKeys wSvDesc wFill2 1 (1 + min (svChunk wSvDesc) 1)) = (.ok, wServe wFill2)
      rw [show needKeys wSvDesc wFill2 1 (1 + min (svChunk wSvDesc) 1) = [] by decide +kernel]
      rfl⟩

/-- A step heat that is complete. -/
def wStepHeat : Heat := { wHeat .running [{ wNode 8 .done with written := true, status := some .ok }] with cid := none, loop := some (wLoopKey, false) }

def wStepping : Loop := { wLoop with decode := some { heat := wKey, rows := [(3, 0, 0)], array := false, count := 1 } }

def wStepOn : State :=
  State.wHeat { wServe (wSession .step none) with serving := { Serving.init with loops := [(wLoopKey, wStepping)], sessions := [(3, wSession .step none)] } } wStepHeat

theorem wit_ServingLoops_8 : ∃ (s : State) (loop k : Nat) (h : Heat) (l : Loop) (st : Step), s.graph.heats.find? (fun h => h.2.loop == some (loop, false) && h.2.complete) = some (k, h) ∧
    Tab.find? s.serving.loops loop = some l ∧ l.decode = some st ∧ st.heat = k ∧ h.outcome.1.failure = false ∧
    (∀ x ∈ sampleTiles l.desc st.rows.length, vtileUp s x = true ∧ (s.vtile x).run = none) ∧ sampleWait s loop l.desc st.rows.length = none :=
  ⟨wStepOn, wLoopKey, wKey, wStepHeat, wStepping, { heat := wKey, rows := [(3, 0, 0)], array := false, count := 1 }, by decide +kernel⟩

/-- The rows in use end before the cluster. -/
theorem wit_ServingLoops_8_out : ∃ (s : State) (loop k : Nat) (h : Heat) (l : Loop) (st : Step), s.graph.heats.find? (fun h => h.2.loop == some (loop, false) && h.2.complete) = some (k, h) ∧
    Tab.find? s.serving.loops loop = some l ∧ l.decode = some st ∧ st.heat = k ∧ h.outcome.1.failure = false ∧
    ∃ x ∈ sampleTiles l.desc st.rows.length, vtileUp s x = false :=
  ⟨{ wStepOn with grid := Grid.init }, wLoopKey, wKey, wStepHeat, wStepping, { heat := wKey, rows := [(3, 0, 0)], array := false, count := 1 },
    by decide +kernel⟩

theorem wit_ServingLoops_9 : ∃ (s : State) (n : Nat) (x : Session) (l : Loop) (u : State) (same : Bool), s.session? n = some x ∧
    Tab.find? s.serving.loops x.loop = some l ∧ x.st = .parked ∧ x.req ≠ none ∧ s.faults.any (fun f => f.who == .loop (4 * x.loop + 2)) = false ∧
    s.returnPages n x.loop l.desc x x.spill true = (.ok same, u) :=
  let x := wSession .parked (some (wReqOf [0]))
  ⟨wServe x, 3, x, wLoop, wServe x, true, by decide +kernel, by decide +kernel, rfl, by decide, by decide +kernel, rfl⟩

/-! ## Nimra -/

/-- A group of nodes 1 and 2, flask 1 of each. -/
def wGroup2 : Group :=
  { flask := 1, rank := 0, members := [(1, 1), (2, 1)], lastSeq := 0, nodes := 0, bytesTx := 0, bytesRx := 0, aborts := 0, lateRank := 0, lateMargin := 0,
    waitTotal := 0, kept := [], keptAborts := [] }

/-- Port 3 in a state, on a device of node 1. -/
def wEth (st : PortSt) : State :=
  wUp.onNimra (fun m => { m with nodeId := some 1, ports := [(3, { EPort.init with st })], groups := [(4, wGroup2)] })

theorem wit_NimraPort_1 : ∃ s n m, portIn s n .an = true ∧ advertises (s.eport n) m = true :=
  ⟨(wEth .an).onEport 3 (fun e => { e with cfg := 0xFF030001 }), 3, .g400, by decide +kernel⟩

theorem wit_NimraPort_1_200b : ∃ s n m, portIn s n .an = true ∧ advertises (s.eport n) m = true :=
  ⟨(wEth .an).onEport 3 (fun e => { e with cfg := 0xFF030001, attempt := 5 }), 3, .g200b, by decide +kernel⟩

theorem wit_NimraPort_2 : ∃ s n, portIn s n .an = true := ⟨wEth .an, 3, by decide +kernel⟩

theorem wit_NimraPort_3 : ∃ s n lanes, portIn s n .training = true ∧ List.length (α := LaneEq) lanes = (if (s.eport n).g400 then 4 else 2) :=
  ⟨wEth .training, 3, [⟨1, 0, 0, 0, 0⟩, ⟨2, 0, 0, 0, 0⟩], by decide +kernel⟩

theorem wit_NimraPort_4 : ∃ s n, portIn s n .training = true := ⟨wEth .training, 3, by decide +kernel⟩

theorem wit_NimraPort_5 : ∃ s n, portIn s n .align = true := ⟨wEth .align, 3, by decide +kernel⟩

theorem wit_NimraPort_7 : ∃ s n, portIn s n .active = true := ⟨wEth .active, 3, by decide +kernel⟩

/-- A packet of node 2, flask 1, to node 1. -/
def wPkt (seq op psn : Nat) (payload : List Byte) : NPacket :=
  { ackValid := false, ece := false, last := true, retx := false, srcNode := 2, srcFlask := 1, dstNode := 1, dstFlask := 1, group := 4, rail := 3,
    psn, ackPsn := 0, sack := 0, seq, op, status := 0, offset := 0, msg := 0, idx := 0, count := 1, epoch := 5, ce := false, fec := 0, payload }

/-- A collective of group 4: OP, SEQ, bytes. -/
def wColl (op seq bytes : Nat) : Coll :=
  { heat := wKey, node := 0, group := 4,
    desc := wRec 128 [(0, 1, op), (4, 4, seq), (8, 8, bytes), (16, 8, 0x200000), (24, 8, 0x200000), (32, 8, 0x210000), (56, 2, 1)], running := true, since := 0,
    readyFrom := [], credits := [], sentC := [], sentG := [], gotC := [], gotG := [], added := [], acc := [], scratch := [], placed := [],
    arrive := [], ovf := 0, rnr := false, tx := 0, fate := none, phase := 0 }

/-- Port 3 is ACTIVE and a collective runs. -/
def wBusy (c : Coll) : State := ({ wEth .active with flasks := [(1, wFlask)] }).onNimra (fun m => { m with colls := [c] })

theorem wit_NimraPackets_1 : ∃ (s : State) (n : Nat) (p : NPacket) (u : State), s.receive n p true 0 = (.take, u) ∧
    (∀ h ∈ u.nimra.held, ¬ (h.1 = n ∧ h.2.srcNode = p.srcNode ∧ h.2.psn = p.psn)) :=
  ⟨wBusy (wColl 1 1 128), 3, wPkt 1 0 0 [], _, pair_of (by decide +kernel), by decide +kernel⟩

theorem wit_NimraPackets_2 : ∃ (s : State) (n : Nat) (p : NPacket) (rtt : Nat) (u : State), s.receive n p false rtt = (.take, u) :=
  ⟨wBusy (wColl 1 1 128), 3, wPkt 1 0 0 [], 50, _, pair_of (by decide +kernel)⟩

theorem wit_NimraPackets_3_none : ∃ (s : State) (n : Nat) (p : NPacket) (u : State) (x : Group) (r : Nat), s.receive n p true 0 = (.take, u) ∧
    (let v := (u.gotPsn n p).onPeer 0 p.srcNode (fun e => { e with ports := some (BitVec.ofNat 32 (fld p.payload 16 4)) })
     v.group? p.group = some x ∧ rankOf x p.srcNode p.srcFlask = some r ∧ runningColl v p.group = none ∧ x.lastSeq < (readyMsg r p).seq) :=
  ⟨wEth .active, 3, wPkt 1 0 0 (wRec 64 [(0, 4, 1)]), ((wEth .active).receive 3 (wPkt 1 0 0 (wRec 64 [(0, 4, 1)])) true 0).2, _, 1,
    pair_of (by decide +kernel), by
      refine ⟨some_of (by decide +kernel), by decide +kernel, by decide +kernel, by decide +kernel⟩⟩

theorem wit_NimraPackets_3_running : ∃ (s : State) (n : Nat) (p : NPacket) (u : State) (x : Group) (r : Nat) (c : Coll),
    s.receive n p true 0 = (.take, u) ∧
    (let v := (u.gotPsn n p).onPeer 0 p.srcNode (fun e => { e with ports := some (BitVec.ofNat 32 (fld p.payload 16 4)) })
     v.group? p.group = some x ∧ rankOf x p.srcNode p.srcFlask = some r ∧ runningColl v p.group = some c ∧ (readyMsg r p).seq = coSeq c.desc) :=
  ⟨wBusy (wColl 1 1 128), 3, wPkt 1 0 0 (wRec 64 [(0, 4, 1)]), ((wBusy (wColl 1 1 128)).receive 3 (wPkt 1 0 0 (wRec 64 [(0, 4, 1)])) true 0).2, _, 1,
    wColl 1 1 128, pair_of (by decide +kernel), by
      refine ⟨some_of (by decide +kernel), by decide +kernel, by decide +kernel, by decide +kernel⟩⟩

theorem wit_NimraPackets_4 : ∃ (s : State) (n : Nat) (p : NPacket) (u : State) (c : Coll) (r : Nat), s.receive n p false 0 = (.take, u) ∧
    collOfPkt u p = some (c, r) :=
  ⟨wBusy (wColl 1 1 128), 3, wPkt 1 0 0 [], ((wBusy (wColl 1 1 128)).receive 3 (wPkt 1 0 0 []) false 0).2, wColl 1 1 128, 1,
    pair_of (by decide +kernel), by decide +kernel⟩

theorem wit_NimraPackets_5_none : ∃ (s : State) (n : Nat) (p : NPacket) (u : State) (x : Group) (r : Nat), s.receive n p true 0 = (.take, u) ∧
    (u.gotPsn n p).group? p.group = some x ∧ rankOf x p.srcNode p.srcFlask = some r ∧
    (let v := (u.gotPsn n p).onGroup p.group (fun x => { x with aborts := x.aborts + 1 })
     runningColl v p.group = none ∧ x.lastSeq < p.seq) :=
  ⟨wEth .active, 3, wPkt 1 0 0 [], ((wEth .active).receive 3 (wPkt 1 0 0 []) true 0).2, _, 1,
    pair_of (by decide +kernel), some_of (by decide +kernel), by decide +kernel, by decide +kernel⟩

theorem wit_NimraPackets_5_running : ∃ (s : State) (n : Nat) (p : NPacket) (u : State) (x : Group) (r : Nat) (c : Coll),
    s.receive n p true 0 = (.take, u) ∧ (u.gotPsn n p).group? p.group = some x ∧ rankOf x p.srcNode p.srcFlask = some r ∧
    (let v := (u.gotPsn n p).onGroup p.group (fun x => { x with aborts := x.aborts + 1 })
     runningColl v p.group = some c ∧ coOneSided c.desc = false ∧ coSeq c.desc = p.seq) :=
  ⟨wBusy (wColl 1 1 128), 3, wPkt 1 0 0 [], ((wBusy (wColl 1 1 128)).receive 3 (wPkt 1 0 0 []) true 0).2, _, 1, wColl 1 1 128,
    pair_of (by decide +kernel), some_of (by decide +kernel), by decide +kernel, by decide +kernel⟩

theorem wit_NimraTimersAndCollectives_1 : ∃ (s : State) (n k : Nat), k < 4096 ∧ (s.peer n k).owed ≠ 0 :=
  ⟨(wEth .active).onPeer 3 4095 (fun e => { e with owed := 1 }), 3, 4095, by decide +kernel⟩

theorem wit_NimraTimersAndCollectives_2 : ∃ (s : State) (n k psn : Nat) (x : Sent), (s.peer n k).sent.find? (fun x => x.psn == psn) = some x ∧
    runningColl s x.pkt.group = none :=
  let x : Sent := { psn := 9, type := 0, pkt := wPkt 1 0 9 [], sends := 1, rto := 100, later := 0 }
  ⟨(wEth .active).onPeer 3 2 (fun e => { e with sent := [x] }), 3, 2, 9, x, by decide +kernel⟩

theorem wit_NimraTimersAndCollectives_3 : ∃ (s : State) (n node : Nat), portActive s n = true ∧ s.nimra.nodeId = some node :=
  ⟨wEth .active, 3, 1, by decide +kernel⟩

theorem wit_NimraTimersAndCollectives_4 : ∃ (s : State) (g r : Nat) (c : Coll) (x : Group) (b : List Byte), runningColl s g = some c ∧ s.group? g = some x ∧
    r < x.members.length ∧ ownDst s g = .ok b :=
  ⟨wBusy (wColl 1 1 128), 4, 1, wColl 1 1 128, _, gotOf (ownDst (wBusy (wColl 1 1 128)) 4), by decide +kernel, some_of (by decide +kernel),
    by decide +kernel, gotOf_ok (by decide +kernel)⟩

/-- A PUT that is complete. -/
def wPut : Coll := { wColl 4 1 64 with gotG := [(1, 64)] }

theorem wit_NimraTimersAndCollectives_5 : ∃ (s : State) (flask heat node : Nat) (c : Coll) (x : Group),
    s.nimra.colls.find? (fun c => c.heat == heatKey flask heat && c.node == node && c.running) = some c ∧
    s.group? c.group = some x ∧ collFinished c x.members.length x.rank = true ∧ ownCopy c x.members.length x.rank = none ∧
    coWait c.desc = 0 ∧ coOneSided c.desc = true :=
  ⟨wBusy wPut, 1, 4, 0, wPut, _, by decide +kernel, some_of (by decide +kernel), by decide +kernel, by decide +kernel, by decide +kernel,
    by decide +kernel⟩

/-- A barrier that is complete. -/
def wBar : Coll := { wColl 1 1 0 with readyFrom := [1], arrive := [(1, 40)] }

theorem wit_NimraTimersAndCollectives_6 : ∃ (s : State) (flask heat node : Nat) (c : Coll) (x : Group),
    s.nimra.colls.find? (fun c => c.heat == heatKey flask heat && c.node == node && c.running) = some c ∧
    s.group? c.group = some x ∧ collFinished c x.members.length x.rank = true ∧ ownCopy c x.members.length x.rank = none ∧
    coWait c.desc = 0 ∧ coOneSided c.desc = false :=
  ⟨wBusy wBar, 1, 4, 0, wBar, _, by decide +kernel, some_of (by decide +kernel), by decide +kernel, by decide +kernel, by decide +kernel,
    by decide +kernel⟩

theorem wit_NimraIdentity_1 : ∃ (s : State) (n : Nat), portActive s n = true ∧ s.nimra.nodeId = none :=
  ⟨(wEth .active).onNimra (fun m => { m with nodeId := none }), 3, by decide +kernel⟩

theorem wit_NimraIdentity_2 : ∃ (s : State) (n : Nat) (p : NPacket), portActive s n = true ∧ s.nimra.nodeId = some p.srcNode ∧ p.dstNode = p.srcNode :=
  ⟨wEth .active, 3, { wPkt 1 0 0 [] with srcNode := 1 }, by decide +kernel⟩

/-- `leBytes n` has n bytes. -/
theorem leBytes_len (n v : Nat) : (leBytes n v).length = n := by
  induction n generalizing v with
  | zero => rfl
  | succ n h => simp [leBytes, h]

/-- 16 R378: with a payload of 4,096 bytes the IPv6 packet is 4,196 bytes and the frame 4,214 bytes from destination MAC to FCS. -/
theorem test_frame_of_4096 (s : State) (n type : Nat) (p : NPacket) (h : p.payload.length = 4096) :
    (ipv6Bytes s n type p).length = 4196 ∧ (frameBytes s n type p).length = 4214 := by
  simp [frameBytes, ipv6Bytes, udpBytes, packetBytes, packetHeader, netBytes, leBytes_len, h]

/-! ## CXL, the mailbox and I3C -/

/-- The host is there, and decoder 0 maps 0x40000000 to the first region of DDR5. -/
def wLink : State :=
  wRun.onCxl (fun c => { c with link := some (8, 640), hdm := [(0, { base := 0x40000000, size := 0x10000000, dpa := 0x10000000000, committed := true, err := false })] })

/-- The read of a line of it, and of the last line of the decoder's range. -/
def wHostRead (hpa k o : Nat) : State × Stat := ((wLink.ddrAccess k o false).readLine k o .clean).hostTrip hpa false []

theorem wit_CxlMemory_1 : ∃ (s : State) (hpa : Nat) (err : LineErr) (l k o : Nat) (v : State), cxlUp s = true ∧ dpaOf s hpa = some l ∧
    hostTarget s l = true ∧ ctlOf l = some (k, o) ∧ ((s.ddrAccess k o false).readLine k o err).hostTrip l false [] = (v, .ok) :=
  ⟨wLink, 0x40000080, .clean, 0x10000000080, 8, 0x80, (wHostRead 0x10000000080 8 0x80).1, by decide +kernel, by decide +kernel, by decide +kernel,
    by decide +kernel, pairR_of (x := wHostRead 0x10000000080 8 0x80) (by decide +kernel)⟩

theorem wit_CxlMemory_1_edge : ∃ (s : State) (hpa : Nat) (err : LineErr) (l k o : Nat) (v : State), cxlUp s = true ∧ dpaOf s hpa = some l ∧
    hostTarget s l = true ∧ ctlOf l = some (k, o) ∧ ((s.ddrAccess k o false).readLine k o err).hostTrip l false [] = (v, .ok) :=
  ⟨wLink, 0x4FFFFFFF, .clean, 0x1000FFFFFC0, 8, 0xFFFFFC0, (wHostRead 0x1000FFFFFC0 8 0xFFFFFC0).1, by decide +kernel, by decide +kernel,
    by decide +kernel, by decide +kernel, pairR_of (x := wHostRead 0x1000FFFFFC0 8 0xFFFFFC0) (by decide +kernel)⟩

/-- A write of a line of ones. -/
def wHostWrite : State × Stat := (wLink.ddrAccess 8 0x80 false).hostTrip 0x10000000080 true (padTo 64 (List.replicate 64 0xFF))

theorem wit_CxlMemory_3 : ∃ (s : State) (hpa : Nat) (data : List Byte) (l k o : Nat) (v : State) (st : Stat), cxlUp s = true ∧
    dpaOf s hpa = some l ∧ hostTarget s l = true ∧ ctlOf l = some (k, o) ∧
    (s.ddrAccess k o false).hostTrip l true (padTo 64 data) = (v, st) ∧ st ≠ .notPresent :=
  ⟨wLink, 0x40000080, List.replicate 64 0xFF, 0x10000000080, 8, 0x80, wHostWrite.1, wHostWrite.2, by decide +kernel, by decide +kernel,
    by decide +kernel, by decide +kernel, rfl, by decide +kernel⟩

/-- A decoder that reaches past the memory. -/
theorem wit_CxlMemory_2 : ∃ (s : State) (hpa l : Nat), cxlUp s = true ∧ dpaOf s hpa = some l ∧ hostTarget s l = false :=
  ⟨{ wLink with mc := [] }, 0x40000000, 0x10000000000, by decide +kernel⟩

theorem wit_CxlMemory_6 : ∃ (s : State) (line : Nat), biOut s line = true :=
  ⟨wLink.onCxl (fun c => { c with biHeld := [(0x10000000080, none)] }), 0x10000000080, by decide +kernel⟩

theorem wit_BackInvalidateTimeout : ∃ (s : State) (line : Nat), biOut s line = true :=
  ⟨wLink.onCxl (fun c => { c with biHeld := [(0x10000000080, some (leBytes 64 1))] }), 0x10000000080, by decide +kernel⟩

theorem wit_CxlMemory_8 : ∃ (s : State) (index base size : Nat), index < 4 ∧ cxlUp s = true ∧ base % 0x10000000 = 0 ∧ size % 0x10000000 = 0 ∧
    (∀ k < 4, k ≠ index → (s.hdm? k).committed = false) :=
  ⟨wLink, 0, 0x50000000, 0x10000000, by decide +kernel⟩

theorem wit_CxlMemory_9 : ∃ (s : State), s.dropQueues.cxl.biHeld = [] := ⟨wLink, by decide +kernel⟩

theorem wit_CxlMemory_10 : ∃ (s : State) (width rate : Nat), cxlTrains s = true ∧ width ∈ [1, 2, 4, 8] ∧ rate ∈ [25, 50, 80, 160, 320, 640] :=
  ⟨{ wUp with board := { State.reset.board with refs := [.sys, .cxl], perst := false } }, 8, 640, by decide +kernel⟩

theorem wit_DoeAndSpdm_1 : ∃ (s : State) (bytes : Nat), cxlUp s = true ∧ s.cxl.doeErr = false ∧ bytes ≤ 4096 := ⟨wLink, 4096, by decide +kernel⟩

theorem wit_DoeAndSpdm_1_waiting : ∃ (s : State) (bytes : Nat), cxlUp s = true ∧ s.cxl.doeErr = false ∧ bytes ≤ 4096 ∧ s.cxl.doeReq = true :=
  ⟨wLink.onCxl (fun c => { c with doeReq := true }), 64, by decide +kernel⟩

theorem wit_DoeAndSpdm_2 : ∃ s : State, cxlUp s = true := ⟨wLink, by decide +kernel⟩

theorem wit_DoeAndSpdm_3 : ∃ s : State, s.cxl.doeReq = true ∧ s.cxl.doeErr = false ∧ s.cxl.spdmAlgs = true :=
  ⟨wLink.onCxl (fun c => { c with doeReq := true, spdmAlgs := true }), by decide +kernel⟩

/-- A management core runs, and both targets have addresses. -/
def wBusI3c : State :=
  { wUp with
    claims := [(claimKey 2 0, { owner := 0xFF, use := 0, since := 0 })]
    i3c := { I3cTgt.init with addr := some 9 }
    i3c2 := { I3cTgt.init with addr := some 10 } }

theorem wit_I3cCccs : ∃ s x, tgtThere s x = true := ⟨wBusI3c, .second, by decide +kernel⟩

/-- A request frame: OP, tag 1, payload. -/
def wReqFrame (op : Nat) (pl : List Byte) : List Byte :=
  let b := leBytes 1 op ++ leBytes 1 1 ++ leBytes 2 pl.length ++ pl
  b ++ leBytes 1 (pec b)

theorem wit_I3cRequests_ident : ∃ s x frame, tgtThere s x = true ∧ (s.tgt x).addr.isSome = true ∧ frameOk frame = true ∧ fld frame 0 1 = 1 ∧ fld frame 2 2 = 0 :=
  ⟨wBusI3c, .main, wReqFrame 1 [], by decide +kernel⟩

theorem wit_I3cRequests_health : ∃ s x frame, tgtThere s x = true ∧ (s.tgt x).addr.isSome = true ∧ frameOk frame = true ∧ fld frame 0 1 = 2 ∧ fld frame 2 2 = 0 :=
  ⟨wBusI3c, .second, wReqFrame 2 [], by decide +kernel⟩

/-- The lowest cap. -/
theorem wit_I3cRequests_capSet : ∃ s x frame, tgtThere s x = true ∧ (s.tgt x).addr.isSome = true ∧ frameOk frame = true ∧ fld frame 0 1 = 3 ∧ fld frame 2 2 = 4 ∧
    x = .main ∧ 700 ≤ fld (framePayload frame) 0 4 ∧ fld (framePayload frame) 0 4 ≤ 2800 :=
  ⟨wBusI3c, .main, wReqFrame 3 (leBytes 4 700), by decide +kernel⟩

/-- The last 256 bytes. -/
theorem wit_I3cRequests_bbRead : ∃ s x frame, tgtThere s x = true ∧ (s.tgt x).addr.isSome = true ∧ frameOk frame = true ∧ fld frame 0 1 = 4 ∧ fld frame 2 2 = 4 ∧
    fld (framePayload frame) 0 4 < 0x1000000 ∧ fld (framePayload frame) 0 4 % 256 = 0 :=
  ⟨wBusI3c, .second, wReqFrame 4 (leBytes 4 0xFFFF00), by decide +kernel⟩

theorem wit_I3cRequests_unsupported : ∃ s x frame, tgtThere s x = true ∧ (s.tgt x).addr.isSome = true ∧ frameOk frame = true ∧
    (fld frame 0 1 = 0 ∨ 6 ≤ fld frame 0 1) :=
  ⟨wBusI3c, .main, wReqFrame 6 [], by decide +kernel⟩

theorem wit_I3cRequests_reset : ∃ s frame, tgtThere s .main = true ∧ (s.tgt .main).addr.isSome = true ∧ frameOk frame = true ∧ fld frame 0 1 = 5 ∧
    fld frame 2 2 = 4 ∧ fld (framePayload frame) 0 4 = 0x52535444 ∧ coresRun s = true :=
  ⟨wBusI3c, wReqFrame 5 (leBytes 4 0x52535444), by decide +kernel⟩

/-! ## Starts, rails, power and heat -/

/-- Core 0 passes, nothing else is found. -/
def wFound : StartFindings :=
  { cores := [true, true, true, true], rom := true, box := true, i3c := true, sprue := true, stackOk := [], dimms := [], dimmRate := [], dimmSerial := [], badRails := [], cool := true }

theorem wit_StartsAndRails_1 : ∃ (s : State) (found : StartFindings), s.boot.phase = .off ∧ Rail.px ∉ found.badRails ∧ Rail.io18 ∉ found.badRails ∧
    (s.boot.shutdown = true → found.cool = true) ∧
    (let u := ((s.onTime (fun _ => 0)).onBoard (fun b => { b with badRails := found.badRails, lostRefs := [] })).onBoot
       (fun b => { b with shutdown := b.shutdown && b.cause != 0 })
     coresOf u found ≠ [] ∧ found.rom = true ∧ found.box = true ∧ found.i3c = true ∧ found.sprue = true) :=
  ⟨State.reset, wFound, by decide +kernel⟩

/-- The boot ROM does not work. -/
theorem wit_StartsAndRails_1_dead : ∃ (s : State) (found : StartFindings), s.boot.phase = .off ∧ Rail.px ∉ found.badRails ∧ Rail.io18 ∉ found.badRails ∧
    (s.boot.shutdown = true → found.cool = true) ∧
    (let u := ((s.onTime (fun _ => 0)).onBoard (fun b => { b with badRails := found.badRails, lostRefs := [] })).onBoot
       (fun b => { b with shutdown := b.shutdown && b.cause != 0 })
     coresOf u found = [] ∨ found.rom = false ∨ found.box = false ∨ found.i3c = false ∨ found.sprue = false) :=
  ⟨State.reset, { wFound with rom := false }, by decide +kernel⟩

theorem wit_StartsAndRails_2 : ∃ s : State, s.boot.phase = .pause1 := ⟨wUp.onBoot (fun b => { b with phase := .pause1 }), rfl⟩

theorem wit_StartsAndRails_3 : ∃ s : State, s.boot.phase = .pause2 := ⟨wUp.onBoot (fun b => { b with phase := .pause2 }), rfl⟩

theorem wit_StartsAndRails_6 : ∃ (s : State) (r : Rail), r ≠ .px ∧ r ≠ .io18 ∧ railBad s r = false ∧ s.boot.phase ≠ .off ∧ s.boot.phase ≠ .dead :=
  ⟨wUp, .hbm, by decide +kernel⟩

theorem wit_StartsAndRails_7 : ∃ (s : State) (f : StartFindings) (m : MemFindings), s.boot.phase = .noRef ∧ s.boot.held = some (f, m) ∧ RefClk.sys ∉ s.board.refs :=
  ⟨(wUp.onBoot (fun b => { b with phase := .noRef, held := some (wFound, { lines := [] }) })).onBoard (fun b => { b with refs := [] }), wFound, { lines := [] },
    by decide +kernel⟩

theorem wit_StartsAndRails_8 : ∃ (s : State) (r : RefClk), r ∈ s.board.refs ∧ s.boot.phase ≠ .off ∧ s.boot.phase ≠ .dead := ⟨wUp, .sys, by decide +kernel⟩

/-- Cores 0 and 3 are healthy. -/
def wCores : State := { wUp with cores := [(0, { healthy := true, beat := 0 }), (3, { healthy := true, beat := 0 })] }

theorem wit_StartsAndRails_9 : ∃ (s : State) (k : Nat), k < 4 ∧ coresRun s = true ∧ (Tab.get .init s.cores k).healthy = true := ⟨wCores, 3, by decide +kernel⟩

theorem wit_StartsAndRails_10 : ∃ (s : State) (k : Nat), k < 4 ∧ coresRun s = true ∧ (Tab.get .init s.cores k).healthy = true ∧
    (let u := s.until ((Tab.get .init s.cores k).beat + 1000000)
     let held := (upto 4).filter (fun r => coreOf u r = some k)
     let v := u.onCores (fun t => Tab.upd .init t k (fun c => { c with healthy := false }))
     let w := (u.qb.cmds.filter (fun c => c.opcode < 0x80 && held.contains (roleOf c.opcode))).foldl
       (fun (s : State) c => s.abortCmd c .discarded) (if held.contains 3 then v.breakCommit else v)
     w.cxl.doeReq = false ∧ (∃ j < 4, (Tab.get .init (w.unitFailed 7 k).cores j).healthy = true)) :=
  ⟨wCores, 3, by decide +kernel⟩

theorem wit_StartsAndRails_11 : ∃ (s : State) (cluster : Nat), clusterThere s cluster = true ∧ s.boot.phase = .ready := ⟨wUp, 95, by decide +kernel⟩

/-- A sample at 105 % of the cap of 2,400 W, and one above it. -/
theorem wit_PowerAndHeat_1 : ∃ (s : State) (w : Nat), powerRuns s = true ∧ 100 * w ≤ 105 * s.power.cap := ⟨wUp, 2520, by decide +kernel⟩

theorem wit_PowerAndHeat_2 : ∃ (s : State) (w : Nat), powerRuns s = true ∧ 105 * s.power.cap < 100 * w := ⟨wUp, 2521, by decide +kernel⟩

theorem wit_PowerAndHeat_3 : ∃ s : State, powerRuns s = true := ⟨wUp, by decide +kernel⟩

theorem wit_PowerAndHeat_4 : ∃ (s : State) (p : Nat), p < 4 ∧ powerRuns s = true := ⟨wUp, 3, by decide +kernel⟩

theorem wit_PowerAndHeat_5 : ∃ (x : PartPw) (k : Nat), x.point ≠ k := ⟨PartPw.init, 15, by decide +kernel⟩

/-- Clauses 4 and 6. -/
theorem wit_PowerAndHeat_6 : ∃ (s : State) (p : Nat), p < 4 ∧ powerRuns s = true := ⟨wUp, 0, by decide +kernel⟩

theorem wit_PowerAndHeat_7 : ∃ (s : State) (p : Nat), p < 4 ∧ powerRuns s = true ∧ ((s.partPw p).lost = true ∨ (s.partPw p).fails < 2) := ⟨wUp, 3, by decide +kernel⟩

theorem wit_PowerAndHeat_7_lost : ∃ (s : State) (p : Nat), p < 4 ∧ powerRuns s = true ∧ (s.partPw p).lost = false ∧ 2 ≤ (s.partPw p).fails :=
  ⟨wUp.onPart 3 (fun x => { x with fails := 2 }), 3, by decide +kernel⟩

theorem wit_PowerAndHeat_8 : ∃ (s : State) (c : Nat), exposed s c = true ∧ powerRuns s = true := ⟨wUp, 95, by decide +kernel⟩

theorem wit_PowerAndHeat_9 : ∃ (s : State) (c : Nat), c ∈ s.power.stretched := ⟨wUp.onPower (fun w => { w with stretched := [95] }), 95, by decide +kernel⟩

/-- A cluster at 114 °C trips nothing. -/
def wWarm : Temps := { clusters := List.replicate 96 114, parts := [], px := [], hbm := [] }

theorem wit_PowerAndHeat_10 : ∃ (s : State) (temps : Temps), coresRun s = true ∧ s.boot.phase ≠ .halted ∧
    trippedBy (s.onPower (fun w => { w with temps := some temps })) temps = none :=
  ⟨wUp, wWarm, by decide +kernel⟩

/-! ## Steps, runs and encodings -/

theorem wit_StepRunsTheFrontCommand_2 : ∃ (s : State) (c : Instr) (rest : List Instr), s.pending = c :: rest :=
  ⟨{ wUp with pending := [.perstNRelease] }, .perstNRelease, [], rfl⟩

theorem wit_StepRunsTheFrontCommand_3 : ∃ s : State, s.pending = [] := ⟨State.reset, rfl⟩

/-- A NOP at the front of the queue. -/
def wNopped : State := { wRun.wWith (wCmd 0x80 1 []) with pending := [.nop 7] }

theorem wNopped_next : ∃ t, step wNopped = .next t := ⟨_, rfl⟩

theorem wit_QueueIsFirstInFirstOut : ∃ s t c rest, s.pending = c :: rest ∧ step s = .next t := by
  obtain ⟨t, h⟩ := wNopped_next
  exact ⟨wNopped, t, .nop 7, [], rfl, h⟩

theorem wit_MemoriesStayCanonical : ∃ s t, MemoriesCanonical s ∧ step s = .next t :=
  ⟨State.reset, State.reset.after 1, ⟨by decide, by decide, by decide⟩, rfl⟩

theorem wit_FusesOnlyBurn : ∃ s t, step s = .next t := ⟨State.reset, State.reset.after 1, rfl⟩

theorem wit_DefectListOnlyGrows : ∃ s t, step s = .next t ∧ s.box.defects.length ≤ 32768 :=
  ⟨State.reset, State.reset.after 1, rfl, by decide +kernel⟩

theorem wit_GoldenRegionsKept : ∃ s t, step s = .next t := ⟨State.reset, State.reset.after 1, rfl⟩

theorem wit_RunsKeepWhatIsPermanent : ∃ s t, Reaches s t ∧ MemoriesCanonical s ∧ s ≠ t :=
  ⟨State.reset, State.reset.after 1, .step (.refl _) rfl, ⟨by decide, by decide, by decide⟩, by decide +kernel⟩

theorem wit_OutputFunction : ∃ k, k < 32 := ⟨31, by decide⟩

theorem wit_RowsOfOtherCommands_1 : ∃ (s : State) (cid : Nat), findCmd s cid = none := ⟨wRun, 7, by decide +kernel⟩

theorem wit_RowsOfOtherCommands_2 : ∃ s cid c, Fresh s cid 0x80 c :=
  ⟨wRun.wWith (wCmd 0x80 1 []), 7, wCmd 0x80 1 [], fresh_of (by decide +kernel)⟩

/-- The last parameter byte is 1. -/
theorem wit_ReservedBytesAreRefused (op : Nat) (h : op ∈ [0x82, 0x83, 0x88, 0x89, 0x0E, 0x0F, 0x11]) :
    ∃ s cid c, findCmd s cid = some c ∧ c.work = .pending ∧ c.reserved 4 47 = false ∧ c.opcode = op ∧ c.reserved 20 47 = false ∧ c.reserved 16 47 = false :=
  ⟨wRun.wWith (wCmd op 1 [(47, 1, 1)]), 7, wCmd op 1 [(47, 1, 1)], by revert h; revert op; decide +kernel⟩

/-- FP32's smallest subnormal converts to FP16 as zero. -/
theorem wit_Underflow : ∃ (m : Nat) (ex : Int), m ≠ 0 ∧ (flushSet 0 .fp32 && subnormalVal .fp32 m ex) = false ∧
    (convert (.fin false m ex) .fp32 .fp16 0 (1, 0) 0 0).unf = true :=
  ⟨1, -149, by decide +kernel⟩

/-- It is flushed where FP32's flush bit is set. -/
theorem wit_Underflow_flush : ∃ (cvt : BitVec 16) (m : Nat) (ex : Int), m ≠ 0 ∧ (flushSet cvt .fp32 && subnormalVal .fp32 m ex) = true :=
  ⟨0xFFFF, 1, -149, by decide +kernel⟩

/-! ## Ill-formed commands: one for each check, at the first value outside its range -/

theorem smoke_clusterOk : clusterOk 96 = false ∧ clusterOk 95 = true := by decide
theorem smoke_matrixOk : matrixOk 384 = false ∧ matrixOk 383 = true := by decide
theorem smoke_vectorOk : vectorOk 192 = false ∧ vectorOk 191 = true := by decide
theorem smoke_fportOk : fportOk 384 = false ∧ fportOk 383 = true := by decide
theorem smoke_eportOk : eportOk 32 = false ∧ eportOk 31 = true := by decide
theorem smoke_ctrlOk : ctrlOk 20 = false ∧ ctrlOk 19 = true := by decide
theorem smoke_flaskOk : flaskOk 16 = false ∧ flaskOk 15 = true := by decide
theorem smoke_lineOk : lineOk (leBytes 63 0) = false ∧ lineOk (leBytes 64 0) = true := by decide

/-- Each field of a packet beyond its range. -/
theorem smoke_packet : (wPkt 1 0 0 []).wf = true ∧
    ∀ p ∈ [{ wPkt 1 0 0 [] with srcNode := 65536 }, { wPkt 1 0 0 [] with dstNode := 65536 }, { wPkt 1 0 0 [] with srcFlask := 256 },
      { wPkt 1 0 0 [] with dstFlask := 256 }, { wPkt 1 0 0 [] with group := 256 }, { wPkt 1 0 0 [] with rail := 256 },
      { wPkt 1 0 0 [] with psn := 2 ^ 32 }, { wPkt 1 0 0 [] with ackPsn := 2 ^ 32 }, { wPkt 1 0 0 [] with seq := 2 ^ 32 },
      { wPkt 1 0 0 [] with op := 256 }, { wPkt 1 0 0 [] with status := 65536 }, { wPkt 1 0 0 [] with offset := 2 ^ 64 },
      { wPkt 1 0 0 [] with msg := 2 ^ 32 }, { wPkt 1 0 0 [] with idx := 65536 }, { wPkt 1 0 0 [] with count := 65536 },
      { wPkt 1 0 0 [] with epoch := 2 ^ 32 }, { wPkt 1 0 0 [] with payload := leBytes 4097 0 }], p.wf = false := by decide +kernel

theorem smoke_issue : VIssue.wf { wI with tile := 192 } = false ∧ VIssue.wf { wI with waits := [(32, ⟨0, 1, 0, 0, 0⟩)] } = false ∧ wI.wf = true := by decide

/-- A byte beyond a DDR5 code word; a request off a line, and a tag of more than 16 bits. -/
theorem smoke_lines : LineErr.wf { flips := [(80, 1)], stays := false } = false ∧ LineErr.clean.wf = true ∧
    MemQueue.wf { MemQueue.alone with tag := 65536 } = false ∧ MemQueue.wf { MemQueue.alone with others := [⟨32, 0, 0⟩] } = false ∧
    MemQueue.wf { MemQueue.alone with others := [⟨0, 65536, 0⟩] } = false ∧ MemQueue.alone.wf = true := by decide

/-- Banks of a pseudo-channel; engines and lines of a stack. -/
theorem smoke_claims : SlotClaims.wf { refresh := false, refreshing := false, ext := [⟨0, 0, 0, 16⟩], hearth := none } = false ∧
    SlotClaims.wf { refresh := false, refreshing := false, ext := [], hearth := some ⟨16, false, false⟩ } = false ∧ wHeEnd.wf = true ∧
    ∀ h ∈ [{ wHeEnd with corrected := [(64, 1)] }, { wHeEnd with outWait := [(64, 1)] }, { wHeEnd with lines := [(32, .clean)] },
      { wHeEnd with lines := [(0, ⟨[(80, 1)], false⟩)] }, { wHeEnd with bad := some 64 }], h.wf = false := by decide

theorem smoke_scalarOp : ∀ o ∈ [ScOp.load (2 ^ 18), .store (2 ^ 18), .sFromA 16, .aFromS 16], o.wf = false := by decide

theorem smoke_condition : ∀ c ∈ [BrCond.zero 32, .nonzero 32, .anyTrue 8, .allFalse 8], c.wf = false := by decide

/-- Beyond BAR0, another width, not aligned; and a unit that does not exist. -/
theorem smoke_register : ∀ r ∈ [Reg.bar0 0x200000 32, .bar0 0 16, .bar0 4 64, .hbArb 8, .mcRegion 20 0 0, .mcRegion 0 32 0, .mcRegion 0 0 2,
    .mcHash 20 0, .mcHash 0 16, .mcBucket 20, .mcScrub 20, .mcDdrCtl 12, .mcDdrPd 12, .ntRoute 4, .ntReg 96 0 0, .ntReg 0 14 0, .ntReg 0 0 4,
    .ntProbe 96, .epCfg 32], r.wf = false := by decide

/-- Findings of a start with every list at its length. -/
def wFoundFull : StartFindings :=
  { cores := List.replicate 4 true, rom := true, box := true, i3c := true, sprue := true, stackOk := List.replicate 8 true,
    dimms := List.replicate 12 none, dimmRate := List.replicate 12 5600,
    dimmSerial := List.replicate 12 0, badRails := [], cool := true }

theorem smoke_start : wFoundFull.wf = true ∧ ∀ f ∈ [{ wFoundFull with cores := [] }, { wFoundFull with stackOk := [] }, { wFoundFull with dimms := [] },
    { wFoundFull with dimmRate := [] }, { wFoundFull with dimmSerial := [] }, { wFoundFull with dimmRate := List.replicate 12 5200 }],
    f.wf = false := by decide

theorem smoke_memoryTest : MemFindings.wf { lines := [(20, 0)] } = false ∧ MemFindings.wf { lines := [(0, 32)] } = false := by decide

/-- Nothing is found. -/
def wUnits : UnitFindings :=
  { sites := [], intake := true, graph := true, copyEng := true, coll := true, power := true, microTiles := [], microEngines := [] }

theorem smoke_units : wUnits.wf = true ∧ ∀ u ∈ [{ wUnits with microTiles := [(96, 0)] }, { wUnits with microTiles := [(0, 8)] },
    { wUnits with microEngines := [512] }], u.wf = false := by decide

/-- A reading of every sensor. -/
def wTemps : Temps := { clusters := List.replicate 96 40, parts := List.replicate 8 40, px := List.replicate 4 40, hbm := List.replicate 8 40 }

theorem smoke_temps : wTemps.wf = true ∧ ∀ t ∈ [{ wTemps with clusters := [] }, { wTemps with parts := [] }, { wTemps with px := [] },
    { wTemps with hbm := [] }], t.wf = false := by decide

/-- Queues, heats, nodes and tests. -/
theorem smoke_graph : ∀ c ∈ [Instr.clusterTestDone 7 (some 0), .clusterTestDone 7 (some 8), .sqDoorbell 16 0 [], .cqDoorbell 16 0, .registerWrite (.epCfg 32) 0,
    .packetAccept (2 ^ 20), .completionPost (2 ^ 20) false, .heatLoadBegin 16, .flaskFault 16 none, .hostSignal 16 0 0 false, .hostSignal 0 (2 ^ 32) 0 false,
    .hostSignal 0 0 (2 ^ 17) false, .nodeRecordWrite 16 0 0 false, .nodeComplete 16 0 0 false, .nodeTimeout 0 (2 ^ 32) 0 false, .readyAgeing 0 0 (2 ^ 17),
    .collectiveComplete 16 0 0, .heatComplete 16 0, .heatTimeout 0 (2 ^ 32)], c.wf = false := by decide

/-- Tiles, hearths and ladles. -/
theorem smoke_tiles : ∀ c ∈ [Instr.vectorPreempt 192 .clean, .vectorResume 192, .programFetchDone 192, .matrixNodeStart 96, .vectorNodeStart 96, .streamArm 96,
    .ladleRequestIssue 96 [], .droopTrip 96, .droopRecover 96 0, .weightLoadDone 384, .rowCycle 384 .clean 0, .activityLevelStep 384 0, .tileHoldResume 384 0 0 [], .tileHoldResume 0 1 2 [], .tileHoldResume 0 0 0 [(32, ⟨0, 1, 0, 0, 0⟩)],
    .matrixNodeEnd 384, .hearthGangStart 8, .hearthNodeEnd 8 0 wHeEnd, .hearthNodeEnd 0 0 { wHeEnd with bad := some 64 }, .hearthEngineFail 8 0, .hearthEngineFail 0 64,
    .hbmSlotGrant 8 0 ⟨false, false, [], none⟩, .hbmRefresh 0 64, .ladleResponse 96 0 0 .clean false, .partnerRelease 0 32 0 ⟨0, 0, 0, 0, 0⟩,
    .streamComplete 0 32], c.wf = false := by decide

/-- An instruction with each operand outside its range. -/
theorem smoke_vector : ∀ c ∈ [Instr.vcvt { wI with tile := 192 }, .scalarOp wI (.sFromA 16), .cset wI 8 0 0 0 0 0, .cset wI 0 (2 ^ 23) 0 0 0 0,
    .cset wI 0 0 (2 ^ 23) 0 0 0, .cset wI 0 0 0 3 0 0, .cset wI 0 0 0 0 32 0, .cset wI 0 0 0 0 0 96, .abind wI 16 0, .abind wI 0 8, .amov wI 16 (.imm 0),
    .amov wI 0 (.imm (2 ^ 28)), .amov wI 0 (.scalar 32), .loop wI 1 0 1 false, .loop wI 1 1 0 false, .loop wI 1 1 9 false, .br wI 4096 .always,
    .br wI 0 (.zero 32), .csr wI true 32, .unassignedClass { wI with tile := 192 }], c.wf = false := by decide

/-- Memory, the network and the mould fabric. -/
theorem smoke_memory : ∀ c ∈ [Instr.pageResident 16 0, .pageMoveDone 0 (2 ^ 48) [], .pageMoveDone 0 0 [32], .memoryRead 20 0 .clean .alone, .memoryRead 0 32 .clean .alone,
    .memoryWrite 0 0 [] .alone, .memoryWrite 0 32 (leBytes 64 0) .alone, .scrubRead 20 .clean, .ceBucketLeak 20, .ddr5Refresh 12 0 0, .ddr5Refresh 0 8 0,
    .ddr5Refresh 0 0 32, .ddr5RowIdleClose 12 0, .ddr5RowIdleClose 0 256, .ddr5PowerDown 12 0, .ddr5SelfRefresh 0 8, .dimmTemperatureRead 12 0,
    .flitForward 137 0 0 .clean, .flitForward 0 14 0 .clean, .flitForward 0 0 16 .clean, .networkResponseTimeout 96 6 0,
    .networkResponseTimeout 0 5 0], c.wf = false := by decide

theorem smoke_fabric : ∀ c ∈ [Instr.sinkBoundExpiry 384 0, .sinkBoundExpiry 0 4, .fclkLoss 384, .fabricPortEnable 384, .readRequest 0 [],
    .readRequest 0 (List.replicate 9 (0, 0)), .readRequest 384 [(0, 0)], .lineWrite 0 0 0 [], .endpointMessage 384 0 0 (leBytes 64 0),
    .streamOutput 0 32 false (leBytes 64 0), .fabricCompletion 0 0 0 [], .fabricRxDeliver 0 4 0, .captureSample 96 0, .pllLock 4 0, .pllLock 0 32,
    .blockRamWindowAccess (2 ^ 48) false [] [], .blockRamWindowAccess 0 true (leBytes 64 0) [(8, true, 0)]], c.wf = false := by decide

/-- Nimra, serving, CXL, SPDM and I3C. -/
theorem smoke_links : ∀ c ∈ [Instr.anRestart 32, .trainingDone 32 [], .trainingDone 0 (List.replicate 5 ⟨0, 0, 0, 0, 0⟩), .data 32 (wPkt 1 0 0 []),
    .data 0 { wPkt 1 0 0 [] with op := 256 }, .ack 32 (wPkt 1 0 0 []) 0, .reduceSegmentDone 256 0, .decodeStep (2 ^ 52), .stepComplete (2 ^ 52) true,
    .cxlMemRead 32 false false .clean, .cxlMemWrite 0 [] false, .cxlMemWrite 32 (leBytes 64 0) false, .memWrPtl 32, .biRsp 32, .hdmDecoderCommit 4 0 0 0,
    .cxlLinkUp 3 640, .cxlLinkUp 8 100, .getCertificate 8 0 0, .challenge 8 (leBytes 32 0), .challenge 0 [], .getMeasurements 0 false [],
    .spdmUnsupported 256, .entdaa .main 128, .setnewda .main 128, .setmwl .main 65536, .setmrl .main 65536, .ident .main (leBytes 257 0)],
    c.wf = false := by decide +kernel

/-- Management and power. -/
theorem smoke_management : ∀ c ∈ [Instr.coreHeartbeat 4, .heartbeatMiss 4, .powerOnResetRelease wFound { lines := [] },
    .powerOnResetRelease wFoundFull { lines := [(20, 0)] }, .retentionPauseEnd { lines := [(20, 0)] } wUnits,
    .retentionPauseEnd { lines := [] } { wUnits with microEngines := [512] }, .clusterFail 96 1, .clusterFail 0 0, .clusterFail 0 8,
    .regulatorSettled 4, .avsReadback 4 true 0, .thermalSample { wTemps with hbm := [] }], c.wf = false := by decide

/-! ## Checks against the manual's own numbers -/

/-- No row of the table has bits. -/
theorem test_no_word : decodeTableWord 64 0x80 = none := rfl

/-- FIPS 180-4, the digest of "abc", its first byte in bits 7 to 0. -/
theorem test_sha256 : digest256 [0x61, 0x62, 0x63] = BitVec.ofNat 256 0xad1500f261ff10b49c7a1796a36103b02322ae5dde404141eacf018fbf1678ba := by
  decide +kernel

/-- 05 R105, R106: the tile truncates 1.0 + 1.5 × 2^−24 to 1.0, and ∞ − ∞ gives +NaN. -/
theorem test_add_truncates : vAdd 0x3F800000 0x33C00000 = 0x3F800000 ∧ vAdd 0x7F800000 0xFF800000 = 0x7FC00000 := by decide +kernel

/-- Queue 70,271 of sixty-four entries. -/
def wBig : State := wRun.wQ 70271 { wQueue 70271 1 with sqLog := 6 }

/-- 10 R231: the doorbell value 0x0000_0025_0001_127F sets the SQ tail of queue 70,271 to 37. -/
theorem test_doorbell : (nextOf (exec (.sqDoorbell 64 0x000000250001127F []) wBig) wBig).queue? 70271 =
    some { wQueue 70271 1 with sqLog := 6, sqTail := 37 } := by decide +kernel

/-- 20 R477: slot 211,967 of the event log lies at 0x0FF_FFC0, the last of the MRAM. -/
theorem test_last_event_slot : eventBase + 64 * (eventSlots - 1) = 0xFFFFC0 := by decide

end Sys2Proof.Machine
end

section
/-!
Conversion of one element (02 R39, R47, R49 to R51): the laws of `convert` and of what a converting node counts, and the obligations
they settle.
-/

namespace Sys2Proof.Machine

/-! ## NaN (02 R39, R49) -/

@[simp] theorem convert_nan (neg : Bool) (src dst : Fmt) (cvt : BitVec 16) (r : Nat × Int) (e : Int) (u : Nat) :
    convert (.nan neg) src dst cvt r e u = ⟨codeOf dst neg dst.nanIdx, false, false, false⟩ := rfl

/-- An element that neither overflowed nor underflowed leaves both counts. -/
theorem note_counts_of_no_event (c : Conv) (dst : Fmt) (cvt : BitVec 16) (v : W32) {o : CvtOut}
    (hovf : o.ovf = false) (hunf : o.unf = false) :
    (c.note dst cvt v o).ovf = c.ovf ∧ (c.note dst cvt v o).unf = c.unf := by
  simp [Conv.note, hovf, hunf]

/-- 02 R40: the sign is the code's own, in every format. -/
theorem scaledElem_nanScale (f : Fmt) (code : Nat) : ∃ neg, scaledElem f code (some 0xFF) = .nan neg := by
  cases f <;> exact ⟨_, rfl⟩

/-- Settles O56: a NaN takes the first branch of `convert`, which gives the canonical code and no event. -/
theorem nanConverts : Obligations.NanConverts := by
  refine ⟨fun neg src dst cvt r e u => ?nan, rfl, scaledElem_nanScale, rfl⟩
  rw [convert_nan]
  refine ⟨?_, fun c v => note_counts_of_no_event c dst cvt v rfl rfl⟩
  cases dst <;> cases neg <;> rfl

/-! ## Flags (02 R57) -/

theorem getLsbD_flagIf (b : Bool) (i : Nat) (f : BitVec 16) {k : Nat} (hk : k < 16) :
    (flagIf b i f).getLsbD k = (f.getLsbD k || (b && decide (k = i))) := by
  cases b with
  | false => simp [flagIf]
  | true =>
    have hbit : (BitVec.ofNat 16 (1 <<< i)).getLsbD k = decide (k = i) := by
      rw [BitVec.getLsbD_ofNat, Nat.shiftLeft_eq, Nat.one_mul, Nat.testBit_two_pow]
      simp [hk, eq_comm]
    simp [flagIf, hbit]

/-- FLUSHED is bit 0. -/
theorem note_flushed (c : Conv) (dst : Fmt) (cvt : BitVec 16) (v : W32) (o : CvtOut) :
    (c.note dst cvt v o).flags.getLsbD 0 = (c.flags.getLsbD 0 || o.flushed) := by
  simp only [Conv.note, getLsbD_flagIf _ _ _ (show 0 < 16 by decide)]
  simp

/-! ## Where a value lies on a format's grid -/

theorem log2_add_le_of_dyLt {a b : Nat} {d e : Int} (ha : a ≠ 0) (h : dyLt a d b e = true) :
    (a.log2 : Int) + d ≤ b.log2 + e := by
  simp only [dyLt, Nat.shiftLeft_eq, decide_eq_true_eq] at h
  have hpow : 2 ^ (a.log2 + (d - min d e).toNat) < 2 ^ (b.log2 + 1 + (e - min d e).toNat) :=
    calc 2 ^ (a.log2 + (d - min d e).toNat)
        = 2 ^ a.log2 * 2 ^ (d - min d e).toNat := Nat.pow_add ..
      _ ≤ a * 2 ^ (d - min d e).toNat := Nat.mul_le_mul_right _ (Nat.log2_self_le ha)
      _ < b * 2 ^ (e - min d e).toNat := h
      _ ≤ 2 ^ (b.log2 + 1) * 2 ^ (e - min d e).toNat := Nat.mul_le_mul_right _ Nat.lt_log2_self.le
      _ = 2 ^ (b.log2 + 1 + (e - min d e).toNat) := (Nat.pow_add ..).symm
  have hexp := (Nat.pow_lt_pow_iff_right (by decide)).mp hpow
  omega

/-- The index of a value whose biased exponent is at most E: no binade above the E-th is reached. -/
theorem gridPos_idx_lt (f : Fmt) (m : Nat) (e : Int) {E : Nat} (hpos : 1 ≤ E) (hE : (m.log2 : Int) + e + f.bias ≤ E) :
    (gridPos f m e).1 < (E + 1) * 2 ^ f.mant := by
  have hm : m < 2 ^ (m.log2 + 1) := Nat.lt_log2_self
  have hsum {n x : Nat} (hn : n + 1 ≤ E) (hx : x < 2 ^ (f.mant + 1)) : n <<< f.mant + x < (E + 1) * 2 ^ f.mant :=
    calc n <<< f.mant + x < n * 2 ^ f.mant + 2 ^ (f.mant + 1) := by rw [Nat.shiftLeft_eq]; omega
      _ = (n + 2) * 2 ^ f.mant := by ring
      _ ≤ (E + 1) * 2 ^ f.mant := Nat.mul_le_mul_right _ (by omega)
  unfold gridPos
  dsimp only
  split
  · refine hsum (by omega) ?_
    rw [Nat.shiftLeft_eq]
    calc m * 2 ^ _ < 2 ^ (m.log2 + 1) * 2 ^ _ := Nat.mul_lt_mul_of_pos_right hm (Nat.two_pow_pos _)
      _ = 2 ^ (m.log2 + 1 + _) := (Nat.pow_add ..).symm
      _ ≤ 2 ^ (f.mant + 1) := Nat.pow_le_pow_right (by decide) (by omega)
  · refine hsum (by omega) ?_
    rw [Nat.shiftRight_eq_div_pow, Nat.div_lt_iff_lt_mul (Nat.two_pow_pos _), ← Nat.pow_add]
    exact hm.trans_le (Nat.pow_le_pow_right (by decide) (by omega))

theorem nearestIdx_le (f : Fmt) (m : Nat) (e : Int) : nearestIdx f m e ≤ (gridPos f m e).1 + 1 := by
  unfold nearestIdx
  dsimp only
  split_ifs <;> omega

theorem stochasticIdx_le_maxIdx (f : Fmt) (m : Nat) (e : Int) (u : Nat) : stochasticIdx f m e u ≤ f.maxIdx := by
  unfold stochasticIdx
  dsimp only
  split_ifs <;> omega

/-! ## The branches of a finite conversion (02 R53) -/

/-- The index a scaled magnitude rounds to, under RND (02 R46, R54). -/
def roundIdx (dst : Fmt) (cvt : BitVec 16) (m : Nat) (e : Int) (u : Nat) : Nat :=
  if cvt.getLsbD 0 then stochasticIdx dst m e u else nearestIdx dst m e

/-- The index after target flush (02 R50). -/
def flushIdx (dst : Fmt) (cvt : BitVec 16) (k : Nat) : Nat :=
  if flushSet cvt dst && subnormalIdx dst k then 0 else k

/-- The scaled magnitude is below the overflow threshold (02 R36, R42). -/
def belowThreshold (dst : Fmt) (m : Nat) (ex : Int) (r : Nat × Int) (e : Int) : Bool :=
  dyLt (m * r.1) (ex + r.2 - e) dst.threshold.1 dst.threshold.2

section
variable {m : Nat} {ex : Int} {src dst : Fmt} {cvt : BitVec 16} (neg : Bool) (r : Nat × Int) (e : Int) (u : Nat)

theorem convert_sourceFlush (h : (flushSet cvt src && subnormalVal src m ex) = true) :
    convert (.fin neg m ex) src dst cvt r e u = ⟨codeOf dst neg 0, true, false, false⟩ := by
  simp only [convert, h, Bool.or_true, if_true]

theorem convert_overflow (hm : m ≠ 0) (h : (flushSet cvt src && subnormalVal src m ex) = false)
    (ht : belowThreshold dst m ex r e = false) :
    convert (.fin neg m ex) src dst cvt r e u =
      ⟨if dst = .e5m2 then topCode cvt dst neg else codeOf dst neg dst.maxIdx, false, true, false⟩ := by
  unfold belowThreshold at ht
  simp [convert, h, hm, ht]

theorem convert_round (hm : m ≠ 0) (h : (flushSet cvt src && subnormalVal src m ex) = false)
    (ht : belowThreshold dst m ex r e = true) :
    let k := roundIdx dst cvt (m * r.1) (ex + r.2 - e) u
    convert (.fin neg m ex) src dst cvt r e u =
      ⟨codeOf dst neg (flushIdx dst cvt k), flushSet cvt dst && subnormalIdx dst k, false, decide (flushIdx dst cvt k = 0)⟩ := by
  unfold belowThreshold at ht
  simp [convert, h, hm, ht, roundIdx, flushIdx]
end

/-! ## Zero codes (02 R34, R50, R51) -/

/-- Only index 0 has the zero code; IG4's codes have room for the indices up to 8. -/
theorem codeOf_eq_zero_iff {f : Fmt} (neg : Bool) {k : Nat} (hk : f = .ig4 → k ≤ 8) :
    codeOf f neg k = codeOf f neg 0 ↔ k = 0 := by
  cases f with
  | ig4 =>
    have hk8 := hk rfl
    interval_cases k <;> cases neg <;> decide
  | _ => cases neg <;> simp [codeOf]

theorem overflowCode_ne_zero (dst : Fmt) (cvt : BitVec 16) (neg : Bool) :
    (if dst = .e5m2 then topCode cvt dst neg else codeOf dst neg dst.maxIdx) ≠ codeOf dst neg 0 := by
  have hmax : codeOf dst neg dst.maxIdx ≠ codeOf dst neg 0 := by
    rw [Ne, codeOf_eq_zero_iff neg (fun h => h ▸ by decide)]
    cases dst <;> decide
  split_ifs with hdst
  · subst hdst
    rw [topCode, Ne, codeOf_eq_zero_iff neg (by simp)]
    split_ifs <;> decide
  · exact hmax

theorem flushIdx_le (dst : Fmt) (cvt : BitVec 16) (k : Nat) : flushIdx dst cvt k ≤ k := by
  unfold flushIdx
  split_ifs <;> omega

/-- Below IG4's threshold 7/4 the grid index is under 8, so a rounded index is at most 8. -/
theorem roundIdx_ig4_le {cvt : BitVec 16} {m : Nat} {ex : Int} {r : Nat × Int} {e : Int} (u : Nat)
    (ht : belowThreshold .ig4 m ex r e = true) : roundIdx .ig4 cvt (m * r.1) (ex + r.2 - e) u ≤ 8 := by
  unfold roundIdx
  split
  · exact (stochasticIdx_le_maxIdx ..).trans (by decide)
  · by_cases hq : m * r.1 = 0
    · simp [nearestIdx, hq]
    · have hlog : ((m * r.1).log2 : Int) + (ex + r.2 - e) ≤ 0 := log2_add_le_of_dyLt hq ht
      have hidx : (gridPos .ig4 (m * r.1) (ex + r.2 - e)).1 < 8 :=
        gridPos_idx_lt .ig4 _ _ (E := 3) (by decide) (by simp only [Fmt.bias]; omega)
      exact (nearestIdx_le ..).trans hidx

/-- A finite, non-zero source that its own flush bit does not zero underflows exactly where its code is a zero. -/
theorem convert_unf_iff {m : Nat} {ex : Int} {src : Fmt} {cvt : BitVec 16} (neg : Bool) (dst : Fmt) (r : Nat × Int) (e : Int) (u : Nat)
    (hm : m ≠ 0) (h : (flushSet cvt src && subnormalVal src m ex) = false) :
    (convert (.fin neg m ex) src dst cvt r e u).unf = true ↔
      (convert (.fin neg m ex) src dst cvt r e u).code = codeOf dst neg 0 := by
  cases ht : belowThreshold dst m ex r e with
  | false =>
    rw [convert_overflow neg r e u hm h ht]
    simp [overflowCode_ne_zero]
  | true =>
    rw [convert_round neg r e u hm h ht]
    have hk : dst = .ig4 → flushIdx dst cvt (roundIdx dst cvt (m * r.1) (ex + r.2 - e) u) ≤ 8 := by
      rintro rfl
      exact (flushIdx_le ..).trans (roundIdx_ig4_le u ht)
    simp [codeOf_eq_zero_iff neg hk]

/-- Settles O60: source flush is the second branch of `convert`; after it, a zero code comes from index 0 alone, which is what
`convert` reports as an underflow. -/
theorem underflow : Obligations.Underflow := by
  intro neg m ex src dst cvt r e u c v hm
  dsimp only
  refine ⟨fun h => ?flushed, fun h => ⟨convert_unf_iff neg dst r e u hm h, rfl⟩⟩
  case flushed =>
    rw [convert_sourceFlush neg r e u h]
    exact ⟨rfl, rfl, rfl, by simp [note_flushed]⟩

end Sys2Proof.Machine
end

section
/-!
The output function of the random generators (08 R186): a bit of a rotation, and the obligation it settles.
-/

namespace Sys2Proof.Machine

/-- A rotation right of any count brings to bit k the bit that lies n places above it, counted around the word. -/
theorem getLsbD_rotateRight_eq_mod {w : Nat} (t : BitVec w) (n : Nat) {k : Nat} (hk : k < w) :
    (t.rotateRight n).getLsbD k = t.getLsbD ((k + n) % w) := by
  have hn : n % w < w := Nat.mod_lt _ (by omega)
  rw [BitVec.getLsbD_rotateRight, ← Nat.add_mod_mod k n w]
  by_cases hbelow : k < w - n % w
  · have hmod : (k + n % w) % w = n % w + k := by rw [Nat.add_comm, Nat.mod_eq_of_lt (by omega)]
    rw [decide_eq_true hbelow, cond_true, hmod]
  · have hmod : (k + n % w) % w = k - (w - n % w) := by
      rw [Nat.mod_eq_sub_mod (by omega), Nat.mod_eq_of_lt (by omega)]
      omega
    rw [decide_eq_false hbelow, cond_false, decide_eq_true hk, Bool.true_and, hmod]

/-- The word t of 08 R186, before its rotation. -/
def rngFold (x : W64) : W32 := ((x ^^^ (x >>> 21)) >>> 27).setWidth 32

theorem rngOut_eq_rotateRight (x : W64) : rngOut x = (rngFold x).rotateRight (x.toNat / 2 ^ 59) := by
  rw [← Nat.shiftRight_eq_div_pow, ← BitVec.toNat_ushiftRight]
  rfl

theorem getLsbD_rngFold (x : W64) {j : Nat} (hj : j < 32) :
    (rngFold x).getLsbD j = (x.getLsbD (j + 27)).xor (x.getLsbD (j + 27 + 21)) := by
  rw [rngFold, BitVec.getLsbD_setWidth, decide_eq_true hj, Bool.true_and, BitVec.getLsbD_ushiftRight, BitVec.getLsbD_xor,
    BitVec.getLsbD_ushiftRight, Nat.add_comm 27 j, Nat.add_comm 21]

/-- Settles O55: bit k of the rotation is a bit of the folded word, and that is the exclusive or of two bits of the state. -/
theorem outputFunction : Obligations.OutputFunction := by
  intro x k hk
  rw [rngOut_eq_rotateRight, getLsbD_rotateRight_eq_mod _ _ hk, getLsbD_rngFold _ (Nat.mod_lt _ (by decide))]

end Sys2Proof.Machine
end

section
/-!
An accepted command whose row has not run yet (10 R236): what `State.accepted` does with it, and the obligation on `NOP` (10 R245).
-/

namespace Sys2Proof.Machine

theorem leBytes_zero (n : Nat) : leBytes n 0 = List.replicate n 0 := by
  induction n with
  | zero => rfl
  | succ n ih => rw [leBytes, Nat.zero_div, ih, List.replicate_succ]; rfl

theorem zeros16_eq_replicate : zeros16 = List.replicate 16 0 := leBytes_zero 16

/-- The row of a fresh command runs its meaning on that command and the state as it is. -/
theorem accepted_of_fresh {s : State} {cid op : Nat} {c : Cmd} (h : Fresh s cid op c) {ofRow : Cmd → Bool} (hrow : ofRow c = true)
    (f : Cmd → State → State) : s.accepted cid ofRow f = f c s := by
  obtain ⟨hfind, hwork, -⟩ := h
  simp [State.accepted, hfind, hwork, hrow]

/-- 10 R245: all that the row of a fresh `NOP` does is to end it, with a zero result and the status its parameter bytes earn. -/
theorem exec_nop_of_fresh {s : State} {cid : Nat} {c : Cmd} (h : Fresh s cid 0x80 c) :
    exec (.nop cid) s = .next (s.finish cid (if c.reserved 0 47 then .ok else .invalid) (List.replicate 16 0)) := by
  have hrow : (c.opcode == 0x80) = true := beq_iff_eq.mpr h.opcode
  calc exec (.nop cid) s = execNop cid s := rfl
    _ = .next (s.finish cid (if c.reserved 0 47 then .ok else .invalid) zeros16) := by rw [execNop, done, accepted_of_fresh h hrow]
    _ = _ := by rw [zeros16_eq_replicate]

/-- Settles O2: the two cases are the two statuses that `exec_nop_of_fresh` chooses between. -/
theorem nopDoesNothing : Obligations.NopDoesNothing := by
  intro s cid c hfresh
  rw [exec_nop_of_fresh hfresh]
  refine ⟨fun hzero => ?zeroParams, fun hset => ?reservedByteSet⟩
  case zeroParams => rw [if_pos hzero]
  case reservedByteSet => rw [hset, if_neg Bool.false_ne_true]

end Sys2Proof.Machine
end

section
/-!
A back-invalidate that the host does not answer in time (17 R405): the command's meaning where the line's BISnp is out, and the obligation
it settles.
-/

namespace Sys2Proof.Machine

/-- Settles O39: the row of `BI_TIMEOUT` asks only whether the line's BISnp is out; it is, so the row takes the branch of R405 and not the
idle one. -/
theorem backInvalidateTimeout : Obligations.BackInvalidateTimeout := by
  intro s line hout u
  have hnotIdle : ¬ (!biOut s line) = true := by simp [hout]
  calc exec (.biTimeout line) s = execBiTimeout line s := rfl
    _ = .next ((waitersAt u line).foldl (fun (s : State) x => s.failStream x .uncorrectable) u).settle := by
      rw [execBiTimeout, done, if_neg hnotIdle]

end Sys2Proof.Machine
end

section
/-!
What no step breaks (12 R274, 14 R339, 18 R430 to R434, 20 R466): `kept_step` says it of a step, an induction says it of a run.
-/

namespace Sys2Proof.Machine

/-- A step keeps everything of `Kept` but the queue, whose front it takes. -/
theorem step_kept {s t : State} (h : step s = .next t) : ∃ p, Kept { s with pending := p } t := by
  obtain ⟨hp, -, hk⟩ | ⟨c, rest, -, hk⟩ := kept_step h
  · exact ⟨[], hp ▸ hk⟩
  · exact ⟨rest, hk⟩

theorem memoriesCanonical_of_kept {s t : State} (h : Kept s t) (hs : MemoriesCanonical s) : MemoriesCanonical t :=
  ⟨h.mem hs.device, h.host hs.host, h.mram hs.mram⟩

/-- Settles O49: the state that a step's command runs in has the memories of the state before it. -/
theorem memoriesStayCanonical : Obligations.MemoriesStayCanonical := by
  intro s t hs h
  obtain ⟨p, hk⟩ := step_kept h
  exact memoriesCanonical_of_kept hk ⟨hs.device, hs.host, hs.mram⟩

/-- Settles O50: `Kept` carries the fuses. -/
theorem fusesOnlyBurn : Obligations.FusesOnlyBurn := by
  intro s t h
  obtain ⟨p, hk⟩ := step_kept h
  exact hk.fuses

/-- Settles O51: `Kept` carries the defect list and its bound. -/
theorem defectListOnlyGrows : Obligations.DefectListOnlyGrows := by
  intro s t h
  obtain ⟨p, hk⟩ := step_kept h
  exact ⟨hk.defects, hk.bound⟩

/-- Settles O52: `Kept` carries the golden regions. -/
theorem goldenRegionsKept : Obligations.GoldenRegionsKept := by
  intro s t h
  obtain ⟨p, hk⟩ := step_kept h
  exact ⟨hk.goldenFw, hk.goldenShell⟩

/-- Settles O53, by induction on the run: each of the five relations is transitive, and a step has them all. -/
theorem runsKeepWhatIsPermanent : Obligations.RunsKeepWhatIsPermanent := by
  intro s t h
  induction h with
  | refl => exact ⟨.refl _, List.prefix_refl _, rfl, rfl, id⟩
  | step _ hstep ih =>
    obtain ⟨hfuses, hdefects, hfw, hshell, hmem⟩ := ih
    obtain ⟨hfw', hshell'⟩ := goldenRegionsKept _ _ hstep
    exact ⟨hfuses.trans (fusesOnlyBurn _ _ hstep), hdefects.trans (defectListOnlyGrows _ _ hstep).1, hfw'.trans hfw,
      hshell'.trans hshell, fun hs => memoriesStayCanonical _ _ (hmem hs) hstep⟩

/-- Settles O54: no command writes the queue, and a step hands its command the queue without the front one. -/
theorem queueIsFirstInFirstOut : Obligations.QueueIsFirstInFirstOut := by
  refine ⟨fun c s t h => (kept_exec c s t h).pending, fun s t c rest hp h => ?_⟩
  rw [step, hp] at h
  exact (kept_exec c _ t h).pending

/-- Settles O45: the equations of `step`. -/
theorem stepRunsTheFrontCommand : Obligations.StepRunsTheFrontCommand := by
  refine ⟨fun s c => rfl, fun s c rest hp => ?_, fun s hp => ?_⟩
  · rw [step, hp]
  · rw [step, hp]

/-- Settles O46: the table has no row. -/
theorem noWordSpellsACommand : Obligations.NoWordSpellsACommand := by
  intro s n w
  exact ⟨rfl, rfl⟩

/-- Settles O47: every field is read off the reset state. -/
theorem resetState : Obligations.ResetState := by
  unfold Obligations.ResetState
  and_intros <;> rfl

/-- Settles O48: nothing is stored, and no defect is listed. -/
theorem resetKeepsForm : Obligations.ResetKeepsForm :=
  ⟨⟨by decide, by decide, by decide⟩, Nat.zero_le _⟩

end Sys2Proof.Machine
end

section
/-!
The issue of a vector instruction (05 R114 to R117): what `State.issueV` comes to when an instruction issues, by what its body answers, and
the obligations on the instructions.
-/

namespace Sys2Proof.Machine

/-! ## Issue -/

/-- The state after an instruction that issued in `s` as operation `num`, by what its body answered. -/
def VRes.after (s : State) (i : VIssue) (r : VxRun) (num : Nat) (rg : List VReg) : VRes → State
  | .go u => u.retired i s rg
  | .jump u => u.counted i
  | .stop u => u
  | .fail st => (s.issued i r num rg).failVector i.tile r st
  | .starve y => (s.onVops (fun v => Tab.put v (opKey (s.atPc i)) num)).starve y
  | .page p => (s.onVops (fun v => Tab.put v (opKey (s.atPc i)) num)).nodeWaits r.heat r.node p

section
variable {s : State} {i : VIssue} {k num : Nat} {t : VectorTile} {r : VxRun} {w : W64}

/-- An instruction that issues runs its body on the tile, the node and the word, in the state in which it is counted. -/
theorem issueV_of_issues (h : Issues s i k num t r w) {cls : Nat → Bool} (hcls : cls k = true)
    (regs : VectorTile → W64 → List VReg) (body : VectorTile → VxRun → W64 → State → VRes) :
    s.issueV i cls num regs body = (body t r w (s.issued i r num (regs t w))).after s i r num (regs t w) := by
  obtain ⟨htile, hrun, hup, hissuing, hgoing, hwithin, hresident, hpc, hword, hk, hnamed, hruns, hsound⟩ := h
  subst htile hword hk
  unfold State.issueV
  simp only [hrun, hup, hissuing, hgoing, hwithin, hresident, hruns, hnamed, hcls, hsound, Nat.not_le.mpr hpc, Bool.not_true,
    Bool.or_self, Bool.false_eq_true, ne_eq, not_true_eq_false, decide_false, if_true, if_false]
  generalize hbody : body _ r _ (State.unstall ..) = res
  rw [show body _ r _ (s.issued i r num _) = res from hbody]
  cases res <;> rfl

/-- An instruction that only changes its tile, and leaves it as `t'`. -/
theorem issueT_of_issues (h : Issues s i k num t r w) (regs : VectorTile → W64 → List VReg)
    {f : VectorTile → VxRun → W64 → Option VectorTile} {t' : VectorTile} (hf : f t r w = some t') :
    s.issueT i k num regs f = s.executed i r num (regs t w) t' := by
  rw [State.issueT, issueV_of_issues h (cls := (· == k)) (beq_self_eq_true k), hf]
  rfl

/-- An instruction issues as well once free values have been drawn. -/
theorem Issues.onFree (h : Issues s i k num t r w) (f : Nat → Nat) : Issues (s.onFree f) i k num t r w :=
  ⟨h.tile, h.run, h.up, h.issuing, h.going, h.within, h.resident, h.inProgram, h.word, h.cls, h.named, h.runs, h.sound⟩

end

/-! ## Element instructions (05 R105, R116, R123 to R125) -/

/-- Settles O19: each clause is the issue of an instruction that only changes its tile. -/
theorem vectorElementInstructions : Obligations.VectorElementInstructions := by
  refine ⟨fun s i op t r w t' h ht => ?arithmetic, fun s i op t r w t' h ht => ?integer, fun s i fn t r w h hfn => ?special,
    fun s i t r w => ⟨fun h => ?sum, fun h => ?max, fun h => ?min⟩, fun s i t r w k h hd hk => ?maxIndex,
    fun s i t r w => ⟨fun h => ?permute, fun h => ?broadcast⟩⟩
  case arithmetic => exact congrArg _ (issueT_of_issues h _ ht)
  case integer => exact congrArg _ (issueT_of_issues (h.onFree _) _ ht)
  case special => exact congrArg _ (issueT_of_issues h _ (if_neg hfn))
  case sum => exact congrArg _ (issueT_of_issues h _ rfl)
  case max => exact congrArg _ (issueT_of_issues h _ rfl)
  case min => exact congrArg _ (issueT_of_issues h _ rfl)
  case maxIndex =>
    refine congrArg _ (issueT_of_issues (h.onFree _) _ ?_)
    simp only [if_neg (Nat.not_le.mpr hd), hk]
  case permute => exact congrArg _ (issueT_of_issues h _ rfl)
  case broadcast => exact congrArg _ (issueT_of_issues h _ rfl)

/-! ## Conversions, random words, loads and stores (05 R110 to R112, R120 to R124) -/

/-- A conversion without TOINT and FROMINT. -/
theorem vcvtElem_convert (dst : Fmt) (cvt : BitVec 16) (u free x : W32) :
    vcvtElem false false dst cvt u free x =
      (f32OfCode dst (convert (f32 x) .fp32 dst cvt (1, 0) 0 u.toNat).code, convert (f32 x) .fp32 dst cvt (1, 0) 0 u.toNat, dst, cvt) := rfl

theorem exec_vcvt {s : State} {i : VIssue} {t : VectorTile} {r : VxRun} {w : W64} {dst : Fmt} {cvt : BitVec 16}
    (h : Issues s i 3 0 t r w) (hdst : vcvtFmt (bits (wImm w) 7 0) = .ok dst) (hcvt : cvtUnder t.cvtctl (bits (wImm w) 12 11) = some cvt)
    (hto : (wImm w).testBit 13 = false) (hfrom : (wImm w).testBit 14 = false) (hnear : cvt.getLsbD 0 = false)
    (hslot : bits (wImm w) 10 8 < r.outN) (hn : r.outN ≤ 4) :
    let a := t.vec (wA w)
    let outs := a.zipIdx.map (fun x => convert (f32 x.1) .fp32 dst cvt (1, 0) 0 (0 : W32).toNat)
    exec (.vcvt i) s = .next ((((((s.onFree (· + 64)).issued i r 0 [t.rv (wD w)]).onVtile i.tile (fun m =>
      { t.setV w (wD w) (outs.map (fun o => f32OfCode dst o.code)) with cnt := m.cnt }))).onRun i.tile (fun r => { r with
        slots := r.slots.modify (bits (wImm w) 10 8) (fun c => (a.zip outs).zipIdx.foldl (fun c x =>
          if t.active w x.2 then c.countOnly dst cvt x.1.1 x.1.2 else c) c) })).retired i (s.onFree (· + 64)) [t.rv (wD w)]) := by
  have hslot7 : bits (wImm w) 10 8 ≠ 7 := by omega
  refine congrArg _ ((issueV_of_issues (h.onFree _) (cls := (· == 3)) rfl _ _).trans ?_)
  simp only [hdst, hcvt, hto, hfrom, hnear, hslot7, Nat.not_le.mpr hslot, vcvtElem_convert, Bool.false_and, Bool.false_eq_true, ne_eq,
    not_false_eq_true, decide_true, decide_false, Bool.and_false, Bool.or_self, if_false]
  simp only [VRes.after, List.map_map, List.zip_map_right, List.zipIdx_map, List.foldl_map]
  rfl

/-- Settles O20: an instruction that issues runs its body; under the hypotheses of each clause one branch of the body is left. -/
theorem vectorConvertLoadStore : Obligations.VectorConvertLoadStore := by
  refine ⟨fun s i t r w dst cvt h hdst hcvt hto hfrom hnear hslot hn => exec_vcvt h hdst hcvt hto hfrom hnear hslot hn,
    fun s i t r w h hzero hlane hraw => ?lanes, fun s i t r w h hzero hlane hraw hslot => ?indexed,
    fun s i t r w f h hf hblock htensor hcheck => ?load, fun s i t r w cvt h hcvt hslot hspace hp hpneg hblock hcheck => ?store⟩
  case lanes =>
    refine congrArg _ ((issueV_of_issues h (cls := (· == 10)) rfl _ _).trans ?_)
    simp only [hzero, hlane, hraw, Bool.not_true, Bool.false_and, Bool.false_eq_true, ne_eq, not_true_eq_false, decide_false, Bool.or_self,
      if_true, if_false]
    rfl
  case indexed =>
    refine congrArg _ ((issueV_of_issues h (cls := (· == 10)) rfl _ _).trans ?_)
    simp only [hzero, hlane, hraw, Nat.not_le.mpr hslot, Bool.and_false, Bool.false_eq_true, ne_eq, not_true_eq_false, decide_false,
      Bool.or_self, if_false]
    rfl
  case load =>
    refine congrArg _ ((issueV_of_issues h (cls := (· == 5)) rfl _ _).trans ?_)
    simp only [hf, hblock, htensor, hcheck, loadElem, Access.and, Bool.false_and, Bool.false_eq_true, if_false, List.append_nil]
    rfl
  case store =>
    have hall : (decide (wPred w = 0) && !wPneg w) = true := by simp [hp, hpneg]
    refine congrArg _ ((issueV_of_issues h (cls := (· == 5)) rfl _ _).trans ?_)
    simp only [hcvt, Nat.not_le.mpr hslot, hall, hblock, hcheck, hspace, Access.and, Bool.not_true, Bool.false_and, Bool.false_eq_true,
      if_false]
    rfl

/-- Settles O21: an instruction that issues runs its body. -/
theorem vectorScalarAndControl : Obligations.VectorScalarAndControl := by
  refine ⟨fun s i t r w => ?scalar, fun s i c base len cluster t r w h hstrm hbase hlen hmin hmax => ?cset,
    fun s i a c t r w h => ?abind, fun s i a v t r w h => ?amov, fun s i t r w => ?predicate,
    fun s i k body stages rot t r w h hloops hb hb' hst hst' hfin => ?loop, fun s i target cond t r w h => ?branch,
    fun s i k t r w h => ?csr⟩
  case scalar =>
    refine ⟨fun h => ?_, fun h => ?_, fun h => ?_, fun h => ?_, fun h => ?_, fun h => ?_,
      fun hb => ⟨fun h => ?shl, fun h => ?shr, fun h => ?sar⟩,
      fun h => ?_, fun h => ?_, fun h => ?_, fun h => ?_, fun h => ?_, fun v h => ?_, fun k h => ?_, fun k h => ?_,
      fun o hal hin h => ?load, fun o hal hin h => ?store⟩
    all_goals refine congrArg _ ((issueV_of_issues (h.onFree _) (cls := (· == 6)) rfl _ _).trans ?_)
    case shl | shr | sar =>
      simp only [viElem, hb, if_true]
      rfl
    case load | store =>
      simp only [hal, hin, decide_true, Bool.and_self, if_true]
      rfl
    all_goals rfl
  case cset =>
    refine congrArg _ (issueT_of_issues h _ ?_)
    have hfits : ¬ spaceBytes 0 < base + len := Nat.not_lt.mpr hmax
    simp [hstrm, hbase, hlen, Nat.not_lt.mpr hmin, hfits]
  case abind => exact congrArg _ (issueT_of_issues h _ rfl)
  case amov => exact congrArg _ (issueT_of_issues h _ rfl)
  case predicate =>
    refine ⟨fun h => ?_, fun h => ?_, fun h => ?_, fun h => ?_, fun h => ?_, fun h => ?_⟩
    all_goals exact congrArg _ (issueT_of_issues h _ rfl)
  case loop =>
    have hin : (decide (4 ≤ ([] : List LoopEnt).length) || decide (body = 0) || decide (256 < body) || decide (stages = 0) || decide (8 < stages) ||
        decide (r.progLen < t.pc + 1 + body)) = false := by
      simp
      omega
    refine ⟨fun hk => ?enter, fun hk => ?skip⟩
    all_goals refine congrArg _ ((issueV_of_issues h (cls := (· == 9)) rfl _ _).trans ?_)
    case enter =>
      have hn : (t.sreg k).toNat ≠ 0 := fun h0 => hk (BitVec.eq_of_toNat_eq h0)
      simp only [hin, hloops, hn, Bool.or_self, Bool.false_eq_true, if_false]
      rfl
    case skip =>
      have hn : (t.sreg k).toNat = 0 := by rw [hk]; rfl
      simp only [hin, hloops, hn, Bool.or_self, Bool.false_eq_true, if_true, if_false]
      rfl
  case branch =>
    refine ⟨fun htaken => ?taken, fun htaken => ?notTaken⟩
    all_goals
      refine congrArg _ ((issueV_of_issues h (cls := (· == 9)) rfl _ _).trans ?_)
      simp only [htaken, Bool.false_eq_true, if_true, if_false]
      rfl
  case csr => exact ⟨congrArg _ (issueT_of_issues h _ rfl), congrArg _ (issueT_of_issues h _ rfl)⟩

end Sys2Proof.Machine
end

section
/-!
Memory controllers (12 R274 to R292): line reads and writes, what a code word's errors come to, DDR5 rows and ranks, and the obligations
they settle.
-/

namespace Sys2Proof.Machine

/-! ## Line accesses -/

/-- MEMORY_WRITE of a whole line that nothing holds back, in its turn. -/
theorem exec_memoryWrite {s : State} {k o : Nat} {data : List Byte} {q : MemQueue} (hturn : memTurn s k o q = true)
    (hup : ctlUp s k = true) (hin : o + 64 ≤ ctlBytes s k) (hal : o % 64 = 0) (hlen : data.length = 64)
    (hbi : biOut s (ctlBase k + o) = false) (hsnoop : snooped s (ctlBase k + o) true = false) :
    exec (.memoryWrite k o data q) s = .next ((s.ddrAccess k o (queuedHit s k o q)).devWrite (ctlBase k + o) data) := by
  have hin' : ¬ ctlBytes s k ≤ o := by omega
  show execMemoryWrite k o data q s = _
  simp [execMemoryWrite, done, hturn, hup, hin', hal, hlen, hbi, hsnoop]

@[simp] theorem ddrAccess_mem (s : State) (k o : Nat) (hit : Bool) : (s.ddrAccess k o hit).mem = s.mem := by
  unfold State.ddrAccess
  split <;> rfl

/-- Below the block RAMs a byte is stored as it is (13 R308). -/
theorem storedByte_of_lt {a : Nat} (h : a < bramBase) (b : Byte) : storedByte a b = b := if_pos h

theorem mapIdx_storedByte {a : Nat} {bs : List Byte} (h : a + bs.length ≤ bramBase) :
    bs.mapIdx (fun k b => storedByte (a + k) b) = bs := by
  apply List.ext_getElem (by simp)
  intro k hk _
  rw [List.length_mapIdx] at hk
  rw [List.getElem_mapIdx, storedByte_of_lt (by omega)]

/-- Bytes of a write below the block RAMs are in device memory as they are. -/
theorem devWrite_mem {s : State} {a : Nat} {bs : List Byte} (hne : bs ≠ []) (h : a + bs.length ≤ bramBase) :
    (s.devWrite a bs).mem = writeTab memDefault s.mem a bs := by
  rw [State.devWrite, if_neg (by simpa using hne)]
  show writeTab memDefault s.mem a _ = _
  rw [mapIdx_storedByte h]

/-- A line within its controller's slot lies below the block RAMs (01 R26). -/
theorem ctlBase_add_lt_bramBase {k o : Nat} (hk : k < 20) (ho : o + 64 ≤ ddrSlot) : ctlBase k + o + 64 ≤ bramBase := by
  simp only [ctlBase, hbmSlot, ddrBase, ddrSlot, bramBase] at *
  split <;> omega

/-- What was written is read back. -/
theorem readTab_writeTab_same {d : Nat → Byte} {t : Tab Byte} (h : Tab.canon d t) (a : Nat) (bs : List Byte) :
    readTab d (writeTab d t a bs) a bs.length = bs := by
  rw [readTab_eq (writeTab_canon a bs h).1]
  apply List.ext_getElem (by simp)
  intro k _ hk
  rw [List.getElem_map, List.getElem_range, byteAt_writeTab_in h hk]

/-- A byte outside the written range reads as before. -/
theorem readTab_writeTab_out {d : Nat → Byte} {t : Tab Byte} (h : Tab.canon d t) {a x : Nat} {bs : List Byte}
    (hx : x < a ∨ a + bs.length ≤ x) : readTab d (writeTab d t a bs) x 1 = readTab d t x 1 := by
  rw [readTab_eq (writeTab_canon a bs h).1, readTab_eq h.1]
  simp [byteAt_writeTab_out h hx]

/-- Settles O11: the write is the only change of device memory, and it lays the line below the block RAMs, where bytes are stored as they
are. -/
theorem lineReadsBack : Obligations.LineReadsBack := by
  intro s t k o data q hcanon hturn hup hin hslot hal hlen hbi hsnoop h
  rw [exec_memoryWrite hturn hup hin hal hlen hbi hsnoop] at h
  injection h with h
  have hk : k < 20 := by
    simp only [ctlUp, Bool.and_eq_true, decide_eq_true_eq] at hup
    exact hup.1.1
  have hmem : t.mem = writeTab memDefault s.mem (ctlBase k + o) data := by
    rw [← h, devWrite_mem (List.ne_nil_of_length_eq_add_one hlen) (by rw [hlen]; exact ctlBase_add_lt_bramBase hk hslot), ddrAccess_mem]
  refine ⟨?_, fun a ha => ?_⟩
  · rw [State.devRead, hmem, ← hlen, readTab_writeTab_same hcanon]
  · rw [State.devRead, hmem, readTab_writeTab_out hcanon (by omega), State.devRead]

/-! ## What the errors of a code word come to (12 R289 to R291) -/

theorem correctable_eq (s : State) (k : Nat) :
    s.correctable k = (if (s.ctl k).armed && (s.ctl k).level == max 1 (s.ctl k).threshold && (s.ctl k).level < 0xFFFF then
      (s.onCtl k (fun m => { m with ceCount := m.ceCount + 1, level := min (m.level + 1) 0xFFFF, armed := false })).devEvent 5 .ok 0 k
    else s.onCtl k (fun m => { m with ceCount := m.ceCount + 1, level := min (m.level + 1) 0xFFFF })) := by
  simp only [State.correctable, MemCtl.limit]
  split
  next hstorm => simp only [hstorm, Bool.not_true, Bool.and_false, if_true]
  next hcalm => simp only [eq_false_of_ne_true hcalm, Bool.not_false, Bool.and_true, Bool.false_eq_true, if_false]

theorem checkLine_clean (s : State) (k o : Nat) : s.checkLine k o .clean = s := rfl

/-- A code word with flipped bits is stored again as it reads, and what its code says of it follows. -/
theorem checkLine_of_flips {s : State} {k o : Nat} {err : LineErr} (h : err.flips ≠ []) :
    s.checkLine k o err =
      let r := lineRead s k o err
      let u := s.stow (ctlBase k + o / 64 * 64) r.data (r.poison || r.bad)
      if r.bad then u.uncorrectable k o
      else if !r.fixed then u
      else if err.stays then (u.correctable k).remapLine k o
      else u.correctable k := by
  rw [State.checkLine, if_neg (by simpa using h)]

/-- Outside a stack's reserved chunk an uncorrectable line counts and posts event 0x06, and no flask faults. -/
theorem uncorrectable_of_not_reserved {s : State} {k o : Nat} (h : 8 ≤ k ∨ o < 0xBF8000000) :
    s.uncorrectable k o = (s.onCtl k (fun m => { m with ueCount := m.ueCount + 1 })).devEvent 6 .uncorrectable 0 (k + 256 * (o / 64 * 64)) := by
  have hres : inReserved k o = false := by
    simp only [inReserved, Bool.and_eq_false_iff, decide_eq_false_iff_not]
    omega
  simp [State.uncorrectable, hres]

/-- Settles O10: each command's guards hold, so one branch of its meaning is left; the findings of a code word are the branches of
`checkLine`. -/
theorem linesAndErrors : Obligations.LinesAndErrors := by
  refine ⟨fun s k o data q hturn hup hin hal hlen hbi hsnoop => exec_memoryWrite hturn hup hin hal hlen hbi hsnoop,
    fun s k o err q hturn hup hin hbi hsnoop => ?read, fun s k err hup hrun => ?scrub, fun s k hk => ?leak, correctable_eq, checkLine_clean,
    fun s k o err hflips hres => ?findings⟩
  case read =>
    have hin' : ¬ ctlBytes s k ≤ o / 64 * 64 := by omega
    show execMemoryRead k o err q s = _
    simp [execMemoryRead, done, hturn, hup, hin', hbi, hsnoop]
  case scrub =>
    show execScrubRead k err s = _
    simp [execScrubRead, done, hup, hrun]
  case leak =>
    show execCeBucketLeak k s = _
    simp [execCeBucketLeak, done, MemCtl.limit, Nat.not_le.mpr hk]
  case findings =>
    rw [checkLine_of_flips hflips]
    refine ⟨fun hbad => ?_, fun hbad hfixed hstays => ?_, fun hbad hfixed hstays => ?_⟩
    · simp [hbad, uncorrectable_of_not_reserved hres]
    · simp [hbad, hfixed, hstays]
    · simp [hbad, hfixed, hstays]

/-! ## DDR5 channels (12 R281, R282) -/

/-- A change of a controller matters only at what its record holds. -/
theorem onCtl_congr {s : State} {k : Nat} {f g : MemCtl → MemCtl} (h : f (s.ctl k) = g (s.ctl k)) : s.onCtl k f = s.onCtl k g :=
  congrArg (fun m => s.onMc (fun t => Tab.put t k m)) h

theorem ctl_onCtl_self (s : State) (k : Nat) (f : MemCtl → MemCtl) : (s.onCtl k f).ctl k = f (s.ctl k) :=
  Tab.get_upd_self ..

/-- Settles O12: a channel's event changes the record that is there, as its guards leave it. -/
theorem ddr5Channels : Obligations.Ddr5Channels := by
  refine ⟨fun s ch r b hch hr hself => ?refresh, fun s ch b hch => ?rowClose, fun s ch r hch hr hidle hawake => ?powerDown,
    fun s ch r hch hr hidle => ?selfRefresh, fun s ch temp hch => ?temperature, fun s k o hit hk => ?wakes, fun b row hit => ?predictor⟩
  case refresh =>
    show execDdr5Refresh ch r b s = _
    simp only [execDdr5Refresh, done, hch, Nat.not_le.mpr hr, Bool.not_true, decide_false, Bool.or_self, Bool.false_eq_true, if_false]
    exact congrArg _ (onCtl_congr (if_neg hself))
  case rowClose =>
    show execDdr5RowIdleClose ch b s = _
    simp [execDdr5RowIdleClose, done, hch]
  case powerDown =>
    show execDdr5PowerDown ch r s = _
    simp only [execDdr5PowerDown, done, hch, Nat.not_le.mpr hr, Bool.not_true, decide_false, Bool.or_self, Bool.false_eq_true, if_false]
    exact congrArg _ (onCtl_congr (if_neg (by simp [hidle, hawake])))
  case selfRefresh =>
    show execDdr5SelfRefresh ch r s = _
    simp only [execDdr5SelfRefresh, done, hch, Nat.not_le.mpr hr, Bool.not_true, decide_false, Bool.or_self, Bool.false_eq_true, if_false]
    exact congrArg _ (onCtl_congr (if_neg hidle))
  case temperature =>
    show execDimmTemperatureRead ch temp s = _
    simp [execDimmTemperatureRead, done, hch]
  case wakes =>
    rw [State.ddrAccess, if_neg (Nat.not_lt.mpr hk), ctl_onCtl_self]
    exact Tab.get_put_self ..
  case predictor =>
    refine ⟨rfl, rfl, rfl, fun r hlast => ?_⟩
    simp [DBank.access, hlast]

end Sys2Proof.Machine
end

section
/-!
Accepted commands and the queues' own commands (10): a row whose command is another's or not there, the end of a command, and the
obligations on them.
-/

namespace Sys2Proof.Machine

/-! ## Rows (10 R236) -/

/-- The row of a command that is not accepted does nothing. -/
theorem accepted_of_none {s : State} {cid : Nat} (h : findCmd s cid = none) (ofRow : Cmd → Bool) (f : Cmd → State → State) :
    s.accepted cid ofRow f = s := by
  rw [State.accepted, h]

/-- A row that is not the command's own does nothing. -/
theorem accepted_of_other {s : State} {cid op : Nat} {c : Cmd} (h : Fresh s cid op c) {ofRow : Cmd → Bool} (hrow : ofRow c = false)
    (f : Cmd → State → State) : s.accepted cid ofRow f = s := by
  rw [State.accepted, h.found]
  simp [hrow]

/-- What the row of a fresh command answers, given what its meaning makes of the command and the state. -/
theorem next_of_row {s t : State} {cid op : Nat} {c : Cmd} (h : Fresh s cid op c) {ofRow : Cmd → Bool} (hrow : ofRow c = true)
    {f : Cmd → State → State} (hf : f c s = t) : (.next (s.accepted cid ofRow f) : Out) = .next t := by
  rw [accepted_of_fresh h hrow, hf]

/-- The accepted command with a number carries the number. -/
theorem cid_of_findCmd {s : State} {cid : Nat} {c : Cmd} (h : findCmd s cid = some c) : c.cid = cid := by
  simpa using List.find?_some h

/-- Settles O57: the command of no row is found, or it is `NOP`'s. -/
theorem rowsOfOtherCommands : Obligations.RowsOfOtherCommands := by
  refine ⟨fun s cid h => ?absent, fun s cid c h => ?other⟩
  case absent => and_intros <;> exact congrArg _ (accepted_of_none h _ _)
  case other =>
    have hop (n : Nat) (hn : 0x80 ≠ n) : (c.opcode == n) = false := by simp [h.opcode, hn]
    and_intros <;> exact congrArg _ (accepted_of_other h (by simp [hop]) _)

/-! ## The end of a command (10 R240, R252) -/

/-- Settles O3: `finish` takes the command away and, unless it succeeded with SUPPRESS, enters its completion. -/
theorem endOfCommand : Obligations.EndOfCommand := by
  intro s cid c q st res hc hq gone
  have hfin : s.finish cid st res = if c.suppress && st = .ok then gone else gone.enter {
      cid := some cid, qnum := c.qnum, tag := c.tag, stat := postedStat gone st, opcode := c.opcode, flask := c.flask
      result := padTo 16 res, intr := c.intr } := by
    rw [State.finish, hc]
    rfl
  have hqueue : Tab.find? gone.qb.queues c.qnum = some q := hq
  refine ⟨fun ⟨hsup, hst⟩ => ?suppressed, fun hposts => ?posted⟩
  case suppressed => rw [hfin, if_pos (by simp [hsup, hst])]
  case posted =>
    rw [hfin, if_neg (by simpa using hposts), State.enter, hqueue]
    simp [postedStat, gone]

/-- Settles O58: each of these rows checks its reserved bytes first. -/
theorem reservedBytesAreRefused : Obligations.ReservedBytesAreRefused := by
  intro s cid c hc hp hres
  have hfresh {op : Nat} (hop : c.opcode = op) : Fresh s cid op c := ⟨hc, hp, hop⟩
  refine ⟨fun hop => ?_, fun hop => ?_, fun hop => ?_, fun hop => ?_, fun hop => ?_, fun hop hres' bad => ?_, fun hop hres' bad => ?_⟩
  all_goals refine next_of_row (hfresh hop) (by simp [hop]) ?_
  all_goals refine if_pos ?_
  all_goals simp [hres]
  · simp [hres']
  · simp [hres']

/-! ## Queues and claims (10 R247, R248, R251) -/

/-- Where none of a queue's sessions is open, closing them changes nothing. -/
theorem closeSessions_of_none {s : State} {p : Nat → Session → Bool} (h : s.serving.sessions.filter (fun x => p x.1 x.2) = []) :
    s.closeSessions p = s := by
  simp [State.closeSessions, h]

/-- A deletion whose queue is quiet, with no session open on it, removes the queue. -/
theorem tryDelete_of_quiet {s : State} {cid n : Nat} (hquiet : queueQuiet s n = true)
    (hsess : s.serving.sessions.filter (fun x => x.2.qnum == n) = []) :
    s.tryDelete cid n = (s.onQb (fun b => { b with queues := Tab.del b.queues n })).finish cid .ok zeros16 := by
  rw [State.tryDelete, if_pos hquiet, closeSessions_of_none hsess]

/-- Settles O1: each command passes its checks, so one branch of its meaning is left. -/
theorem queueAndClaimCommands : Obligations.QueueAndClaimCommands := by
  refine ⟨fun s cid c h hcheck => ?create, fun s cid c q h hn hmax habort hzero hq hflask hst hcq => ?delete,
    fun s cid c n h hquiet hsess => ?deleted, fun s cid c h hform hin hfree => ?claim, fun s cid c o h hform hown ho => ?release⟩
  case create =>
    refine next_of_row h (by simp [h.opcode]) ?_
    rw [hcheck]
    rfl
  case delete =>
    have hmax' : ¬ 1048575 < c.p 0 4 := by omega
    show execQueueDelete cid s = _
    simp [execQueueDelete, done, h.found, h.pending, h.opcode, hn, hmax', habort, hzero, hq, hflask, hst, hcq]
  case deleted =>
    show execQueueDelete cid s = _
    simp [execQueueDelete, done, h.found, h.work, tryDelete_of_quiet hquiet hsess]
  case claim =>
    refine next_of_row h (by simp [h.opcode]) ?_
    simp only [hform, hin, hfree, Bool.not_true, Bool.or_self, Bool.false_eq_true, if_false]
  case release =>
    refine next_of_row h (by simp [h.opcode]) ?_
    simp only [hform, hown, ho, Bool.not_true, Bool.false_eq_true, if_true, if_false]

/-! ## IDENTIFY, FENCE, COPY (10 R238, R246, R249) -/

/-- Settles O4: each command passes its checks, and a copy's last piece is told apart by its length. -/
theorem identifyFenceCopy : Obligations.IdentifyFenceCopy := by
  refine ⟨fun s cid c h hflask hal hzero => ⟨?identify, ?hostError⟩, fun s cid c h hscope hzero => ?fence, fun s cid c h hcheck => ?copy,
    fun s cid c k bs t w h hidle hk hread hwrite htrips => ?piece, fun s cid c k h hidle hhost => ?pieceError⟩
  case identify =>
    exact next_of_row h (by simp [h.opcode]) (by simp [hflask, hal, hzero])
  case hostError =>
    exact next_of_row h (by simp [h.opcode]) (by simp [hflask, hal, hzero])
  case fence =>
    have hfound : findCmd s cid = some c := h.elim (·.found) (·.1.found)
    have hop : c.opcode = 0x85 := h.elim (·.opcode) (·.2)
    have hwork : c.work = .pending ∨ c.work = .fence := h.imp (·.pending) (·.1.work)
    have hrow : (decide (c.opcode ≠ 0x85) || !(decide (c.work = .pending) || decide (c.work = .fence))) = false := by
      rcases hwork with hwork | hwork <;> simp [hop, hwork]
    have hfields : (decide (1 < c.p 0 1) || !c.reserved 1 47) = false := by simp [hscope, hzero]
    show (_ → execFence cid s = _) ∧ (_ → execFence cid s = _)
    simp only [execFence, done, hfound, hrow, hfields, Bool.false_eq_true, if_false]
    exact ⟨fun hmet => congrArg _ (if_pos hmet), fun hmet => congrArg _ (if_neg (by simp [hmet]))⟩
  case copy =>
    refine next_of_row h (by simp [h.opcode]) ?_
    rw [hcheck]
  case piece =>
    have hlast : k + min 0x10000 (c.p 16 8 - k) = c.p 16 8 ↔ ¬ k + 0x10000 < c.p 16 8 := by omega
    show execCopyPieceDone cid false s = _
    simp only [execCopyPieceDone, done, h.found, h.work, hidle, Bool.false_and, Bool.false_eq_true, if_false, hread, hwrite, htrips, ne_eq,
      not_true_eq_false]
    by_cases hmore : k + 0x10000 < c.p 16 8
    · have hn : min 0x10000 (c.p 16 8 - k) = 0x10000 := by omega
      rw [if_neg (fun h => hlast.mp h hmore), if_pos hmore, hn]
    · rw [if_pos (hlast.mpr hmore), if_neg hmore, hlast.mpr hmore]
  case pieceError =>
    show execCopyPieceDone cid true s = _
    simp [execCopyPieceDone, done, h.found, h.work, hidle, hhost]

/-! ## Intake and posting (10 R235 to R243) -/

/-- Settles O6: each event finds the packet, the entry or the command that it acts on. -/
theorem intakeAndPosting : Obligations.IntakeAndPosting := by
  refine ⟨fun s n cl u q hgrant hq => ?fetch, fun s n q b hq hheld hmay hcheck => ?accept, fun s n q e rest hq hwaits hroom => ?post,
    fun s q e rest hq hevents hst hroom => ?event, fun s cid c hc htimer hnum hp => ?timer⟩
  case fetch =>
    intro b t
    have hfetch : exec (.intakeFetch false) s = .next (match headerCheck t n q b with
        | some st => t.refuse n b st
        | none => if mayAccept t n b then t.accept n b else t.onQueue n (fun q => { q with held := some b })) := by
      show execIntakeFetch false s = _
      simp only [execIntakeFetch, intake, done, hgrant, hq]
      rfl
    refine ⟨fun st hst => ?_, fun hok hmay => ?_, fun hok hmay => ?_⟩
    · rw [hfetch, hst]
    · rw [hfetch, hok, hmay]; rfl
    · rw [hfetch, hok, hmay]; rfl
  case accept =>
    show execPacketAccept n s = _
    simp [execPacketAccept, acceptHeld, done, hq, hheld, hmay, hcheck]
  case post =>
    refine ⟨?_, ?_⟩
    · show execCompletionPost n false s = _
      simp only [execCompletionPost, postCompletion, done, hq, hwaits, hroom, Bool.not_true, Bool.false_eq_true, if_false] <;> rfl
    · show execCompletionPost n true s = _
      simp [execCompletionPost, postCompletion, done, hq, hwaits, hroom]
  case event =>
    show execDeviceEventPost false s = _
    simp [execDeviceEventPost, postEvent, done, hq, hevents, hst, hroom]
  case timer =>
    show execCommandTimeout cid s = _
    simp only [execCommandTimeout, done, hc, htimer, Nat.not_le.mpr hnum, decide_false, Bool.or_self, Bool.false_eq_true, if_false,
      State.abortCmd, hp, State.failCmd, cid_of_findCmd hc]

end Sys2Proof.Machine
end

section
/-!
Pages, page faults, regions and fills (12 R276 to R288, 07 R180, R181): the obligations on their commands and events.
-/

namespace Sys2Proof.Machine

/-! ## Pages (12 R283 to R287) -/

/-- Pages of a range that are all idle are unmapped, and what waited for them goes on. -/
theorem tryUnmap_of_idle {s : State} {c : Cmd} {f : Flask} (hf : s.flask? c.flask = some f)
    (hidle : ∀ p ∈ pagesIn f (c.p 0 8) (c.p 8 8), p.2.idle s = true) :
    s.tryUnmap c = ((s.faults.filter (fun g => g.flask == c.flask &&
      (pagesIn f (c.p 0 8) (c.p 8 8)).any (fun q => q.1 == g.va))).foldl State.wake
        (s.onFlask c.flask (fun f' => { f' with pages := f'.pages.filter (fun p =>
          !(pagesIn f (c.p 0 8) (c.p 8 8)).any (fun q => q.1 == p.1)) }))).finish c.cid .ok zeros16 := by
  have hall : (pagesIn f (c.p 0 8) (c.p 8 8)).all (fun p => p.2.idle s) = true := List.all_eq_true.mpr hidle
  simp only [State.tryUnmap, hf, hall, Bool.not_true, Bool.false_eq_true, if_false]
  rfl

/-- A page of the host arrives at a place in the device with the poison that the host gives it. -/
theorem carryPage_toDevice {s : State} {p : Page} {m : PageMove} {bad : List Nat} (hdst : m.dst = .hbm ∨ m.dst = .ddr)
    (hst : p.st = .outHost ∨ p.st = .host) :
    s.carryPage p m bad = (pagePoison s p bad).foldl (fun s o => s.poisonLine (m.pa + o))
      ((s.reach m.pa p.size).devWrite m.pa (s.hostRead p.pa p.size)) := by
  rcases hdst with hdst | hdst <;> rcases hst with hst | hst <;> simp [State.carryPage, readPlace, hdst, hst]

/-- A page of the device goes to the host without its poison. -/
theorem carryPage_toHost {s : State} {p : Page} {m : PageMove} {bad : List Nat} (hdst : m.dst = .host ∨ m.dst = .outHost)
    (hst : p.st = .hbm ∨ p.st = .ddr) :
    s.carryPage p m bad = (s.reach p.pa p.size).hostWrite m.pa (s.devRead p.pa p.size) := by
  rcases hdst with hdst | hdst <;> rcases hst with hst | hst <;> simp [State.carryPage, readPlace, hdst, hst]

/-- Settles O7: a command's checks leave one branch of its row, and a page's move is read by which way it goes. -/
theorem pageCommands : Obligations.PageCommands := by
  refine ⟨fun s cid c t h hkind hcheck hmap => ?map, fun s cid c f l t h hkind hcheck hf hplan => ?migrate,
    fun s cid c l h hdone => ?migrated, fun s cid c f h hkind hf hidle => ?unmap,
    fun s flask va bad f p m hf hp hm hcid htrans => ⟨fun hdst hst => ?toDevice, fun hdst hst => ?toHost⟩⟩
  case map => exact next_of_row h (by simp [h.opcode, hkind]) (by simp [hkind, hcheck, hmap])
  case migrate =>
    show execMemMapMigrate cid s = _
    simp only [execMemMapMigrate, done, h.found, h.pending, h.opcode, hkind, hcheck, hf, hplan]
    cases l <;> simp
  case migrated =>
    show execMemMapMigrate cid s = _
    simp [execMemMapMigrate, done, h.found, h.work, hdone]
  case unmap =>
    have hfound : findCmd s cid = some c := h.elim (·.1.found) (·.1.found)
    rw [← cid_of_findCmd hfound, ← tryUnmap_of_idle hf hidle, cid_of_findCmd hfound]
    show execMemUnmap cid s = _
    rcases h with ⟨h, hzero, hflask, hwhole⟩ | ⟨h, hop⟩
    · simp [execMemUnmap, done, h.found, h.pending, h.opcode, hkind, hzero, Nat.not_le.mpr hflask, hf, hwhole]
    · simp [execMemUnmap, done, h.found, h.work, hop, hkind]
  case toDevice =>
    show execPageMoveDone flask va bad s = _
    simp only [execPageMoveDone, done, hf, hp, hm, hcid, htrans, Option.bind_some, Bool.false_eq_true, if_false, carryPage_toDevice hdst hst]
    rcases hdst with hdst | hdst <;> simp [hdst]
  case toHost =>
    show execPageMoveDone flask va bad s = _
    simp only [execPageMoveDone, done, hf, hp, hm, hcid, htrans, Option.bind_some, Bool.false_eq_true, if_false, carryPage_toHost hdst hst]
    rcases hdst with hdst | hdst <;> simp [hdst]

/-! ## Page faults (07 R180, R181, 09 R495) -/

/-- Settles O8: each event finds the fault it names, so one branch of it is left. -/
theorem pageFaults : Obligations.PageFaults := by
  refine ⟨fun s id x f p a t hx hf hp hstill hout hroom halloc => ?service, fun s id x hx hread hres => ?readDone,
    fun s flask va f p hf hp => ?resident, fun s id x hx => ⟨fun hout => ?expires, fun hin => ?wakes⟩⟩
  case service =>
    have hplace : (decide (p.st = .outDdr) || decide (p.st = .outHost)) = true := by simpa using hout
    show execPageFaultService id s = _
    simp only [execPageFaultService, done, hx, hf, hp, hstill, hplace, halloc, Nat.not_lt.mpr hroom, Option.bind_some, Option.map_some,
      Option.isSome_none, Bool.false_or, Bool.not_true, Bool.false_eq_true, if_false]
    cases p.home <;> rfl
  case readDone =>
    show execFlaskMemoryReadDone id s = _
    simp [execFlaskMemoryReadDone, done, hx, hread, hres]
  case resident =>
    show execPageResident flask va s = _
    simp [execPageResident, done, hf, hp]
  case expires =>
    show execFaultPatienceExpiry id s = _
    simp [execFaultPatienceExpiry, done, hx, hout]
  case wakes =>
    show execFaultPatienceExpiry id s = _
    simp [execFaultPatienceExpiry, done, hx, hin]

/-! ## Regions and fills (12 R276, R277, R287, R288) -/

/-- Settles O9: each check of a definition, a deletion or a fill passes, so one branch of it is left. -/
theorem regionsAndFills : Obligations.RegionsAndFills := by
  refine ⟨fun s cid c k o j h hkind hcheck hctl hfree => ?define, fun s cid c k o j r h hkind hctl hregion hflask hzero => ⟨?delete, ?busy⟩,
    fun s cid c k j del h => ?filled, fun s cid c h hcheck => ?fill, fun s cid c h => ?fillDone⟩
  case define => exact next_of_row h (by simp [h.opcode, hkind]) (by simp [hcheck, hctl, hfree])
  case delete =>
    intro hheld
    exact next_of_row h (by simp [h.opcode, hkind]) (by simp [hctl, hregion, hflask, hzero, hheld])
  case busy =>
    intro hheld
    exact next_of_row h (by simp [h.opcode, hkind]) (by simp [hctl, hregion, hflask, hzero, hheld, State.failCmd])
  case filled =>
    show execRegionFillDone cid s = _
    simp [execRegionFillDone, done, h.found, h.work]
  case fill => exact next_of_row h (by simp [h.opcode]) (by simp [hcheck])
  case fillDone =>
    show execMemFillDone cid s = _
    simp [execMemFillDone, done, h.found, h.work]

end Sys2Proof.Machine
end

section
/-!
Flasks, heats, nodes and patterns (09): the obligations on their commands and events.
-/

namespace Sys2Proof.Machine

/-! ## Flasks (09 R221 to R226) -/

/-- Once no queue of the flask is left, the pages and the flask go and the command ends (09 R224, steps 6 and 7). -/
theorem destroyEnd_of_noQueues {s : State} {n cid : Nat} (h : queuesOf s n = []) :
    s.destroyEnd n cid = ((s.onFlask n (fun f => { f with pages := [] })).onFlasks (fun t => Tab.del t n)).finish cid .ok zeros16 := by
  have h' : queuesOf (s.onFlask n (fun f => { f with pages := [] })) n = [] := h
  have hkeep (t : State) : t.onQb (fun b => { b with queues := b.queues.filter (fun q => !([] : List Nat).contains q.1) }) = t := by
    simp [State.onQb]
  simp only [State.destroyEnd, h', List.foldl_nil, List.all_nil, if_true, hkeep]

/-- Settles O13: a descriptor that fits is taken, a flask without queues goes at once, and a fault is guarded by FAULTED. -/
theorem flaskCommands : Obligations.FlaskCommands := by
  refine ⟨fun s cid c d h hn hlow hhigh hread hform hfit => ?create, fun s cid c f h hscrub hzero hf hnew => ?destroy,
    fun s cid c h hop hq => ?destroyed, fun s n f hf hup => ⟨?fault, fun cid c hc hflask hwork htime => ?faultCmd⟩,
    fun s n f cmd hf hdown => ?again⟩
  case create =>
    refine next_of_row h (by simp [h.opcode]) ?_
    simp only [hlow, hhigh, hread, hform, hfit, Nat.not_lt.mpr hn, decide_false, Bool.not_true, Bool.or_self, Bool.false_eq_true, if_false]
  case destroy =>
    show execFlaskDestroy cid s = _
    simp [execFlaskDestroy, done, h.found, h.pending, h.opcode, Nat.not_lt.mpr hscrub, hzero, hf, hnew]
  case destroyed =>
    show execFlaskDestroy cid s = _
    simp [execFlaskDestroy, done, h.found, h.work, hop, destroyEnd_of_noQueues hq]
  case fault =>
    show execFlaskFault n none s = _
    simp [execFlaskFault, done, State.flaskFault, hf, hup]
  case faultCmd =>
    show execFlaskFault n (some cid) s = _
    simp [execFlaskFault, done, State.flaskFault, hf, hup, hc, hflask, hwork, htime]
  case again =>
    show execFlaskFault n cmd s = _
    simp [execFlaskFault, done, State.flaskFault, hf, hdown]

/-! ## Heats (09 R201, R206, R214 to R216) -/

/-- A heat that no abort waits for leaves nothing else behind. -/
theorem heatGone_of_noAbort {s : State} {k : Nat} (h : ∀ x ∈ s.qb.cmds, x.work ≠ .abort) : s.heatGone k = s.dropHeat k := by
  have hnone : s.qb.cmds.filterMap (fun c => if c.work = .abort && heatKey c.flask (c.p 0 4) = k then some c.cid else none) = [] := by
    simp only [List.filterMap_eq_nil_iff]
    intro c hc
    simp [h c hc]
  rw [State.heatGone, hnone, List.foldl_nil]

/-- Entering a completion leaves the accepted commands as they are. -/
theorem cmds_enter (s : State) (e : Entry) : (s.enter e).qb.cmds = s.qb.cmds := by
  unfold State.enter
  split <;> rfl

/-- The commands of a state after one of them has ended are among those before. -/
theorem mem_cmds_of_finish {s : State} {cid : Nat} {st : Stat} {res : List Byte} {x : Cmd} (h : x ∈ (s.finish cid st res).qb.cmds) :
    x ∈ s.qb.cmds := by
  unfold State.finish at h
  split at h
  · exact h
  · simp only [] at h
    split at h
    · exact List.mem_of_mem_filter h
    · rw [cmds_enter] at h
      exact List.mem_of_mem_filter h

/-- Settles O14: whether a heat loads, is held, ends or is gone is decided by its phase, its entries and what waits for it. -/
theorem heatCommands : Obligations.HeatCommands := by
  refine ⟨fun s cid c h hcheck => ⟨fun hnone hfit => ?load, fun hheld => ?hold⟩, fun s flask k h rest c hheld hfit hcid => ?begin,
    fun s cid c x h hzero hx hph => ?abort, fun s cid c x h hzero hx hph => ?abortHeld, fun s cid c h hzero hx => ?abortNone,
    fun s cid c x h hzero hx hph => ?query, fun s flask id h c hh hdone hcid => ⟨fun hwait => ?waits, fun hwait hab => ?gone⟩⟩
  case load => exact next_of_row h (by simp [h.opcode]) (by simp [hcheck, hnone, hfit])
  case hold =>
    have hhold : (!(heldHeats s c.flask).isEmpty || !entriesFit s c.flask (c.p 4 4)) = true := by
      simpa using hheld
    refine next_of_row h (by simp [h.opcode]) ?_
    simp only [hcheck, hhold, if_true]
  case begin =>
    show execHeatLoadBegin flask s = _
    simp [execHeatLoadBegin, done, hheld, hfit, hcid]
  case abort => exact next_of_row h (by simp [h.opcode]) (by simp [hzero, hx, hph])
  case abortHeld => exact next_of_row h (by simp [h.opcode]) (by simp [hzero, hx, hph])
  case abortNone => exact next_of_row h (by simp [h.opcode]) (by simp [hzero, hx, State.failCmd])
  case query => exact next_of_row h (by simp [h.opcode]) (by simp [hzero, hx, queryResult, hph])
  case waits =>
    show execHeatComplete flask id s = _
    simp [execHeatComplete, done, hh, hdone, State.closeHeat, hcid, hwait]
  case gone =>
    show execHeatComplete flask id s = _
    simp only [execHeatComplete, done, hh, hdone, State.closeHeat, hcid, hwait, Bool.false_eq_true, if_true, if_false]
    exact congrArg _ (heatGone_of_noAbort (fun x hx => hab x (mem_cmds_of_finish hx)))

/-! ## Nodes (09 R200, R203, R205, R207 to R211) -/

/-- Settles O15: each event finds its node or its heat in the state that it acts on. -/
theorem nodeLife : Obligations.NodeLife := by
  refine ⟨fun s k n x hnext hx => ?dispatch, fun s id f k n hf hwho hroom hstill => ?resume, fun s flask heat n x hx hcls hst hend => ?signal,
    fun s flask heat n x hx hend hst hcls => ?complete, fun s flask heat n x hx => ?broken,
    fun s flask heat n h x t hh hx hst hnew hidle hloop hwrite => ?record,
    fun s flask heat n x hx htime hst hend => ?timeout, fun s flask heat n => ?arrival,
    fun s flask heat h hh htime hverdict hph => ?heatTimeout, fun s flask heat n x hx hst hyoung => ?ageing⟩
  case dispatch =>
    show execNodeDispatch s = _
    simp [execNodeDispatch, done, hnext, hx]
  case resume =>
    show execHearthDispatchResume id s = _
    simp [execHearthDispatchResume, done, hf, hwho, hroom, hstill]
  case signal =>
    show execHostSignal flask heat n false s = _
    simp [execHostSignal, done, hx, hcls, hst, hend]
  case complete =>
    show execNodeComplete flask heat n false s = _
    simp [execNodeComplete, done, hx, hend, hst, hcls]
  case broken =>
    show execNodeComplete flask heat n true s = _
    simp [execNodeComplete, done, hx]
  case record =>
    show execNodeRecordWrite flask heat n false s = _
    simp [execNodeRecordWrite, done, hh, hx, hst, hnew, hidle, hloop, hwrite]
  case timeout =>
    show execNodeTimeout flask heat n false s = _
    rcases hst with hst | hst <;> simp [execNodeTimeout, done, hx, htime, hst, hend]
  case arrival =>
    show execNodeTimeout flask heat n true s = _
    cases hx : s.node? (heatKey flask heat) n <;> simp [execNodeTimeout, done, hx]
  case heatTimeout =>
    show execHeatTimeout flask heat s = _
    simp [execHeatTimeout, done, hh, htime, hverdict, hph]
  case ageing =>
    show execReadyAgeing flask heat n s = _
    simp [execReadyAgeing, done, hx, hst, hyoung]

/-! ## Patterns (09 R218) -/

/-- Settles O16: both commands pass every check, and no heat and no loop names the pattern that is removed. -/
theorem patternCommands : Obligations.PatternCommands := by
  refine ⟨fun s cid c f ps b t h hn hf hform hfree hquota hstore hwrite => ?register,
    fun s cid c p h hn hform hp hown hheats hloops => ?remove⟩
  case register =>
    refine next_of_row h (by simp [h.opcode, hn]) ?_
    simp only [hf, hform, hfree, hstore, hwrite, Nat.not_lt.mpr hquota, Bool.not_true, Bool.false_eq_true, if_false]
  case remove =>
    have hunused : s.graph.heats.any (fun h => h.2.pattern == some (c.p 0 4)) = false := by
      simpa using hheats
    refine next_of_row h (by simp [h.opcode, hn]) ?_
    simp [hform, hp, hown, hunused, hloops]

end Sys2Proof.Machine
end

section
/-!
The sprue (14), and the user logic of a mould (13): the obligations on loads, the start-up order and the cells.
-/

namespace Sys2Proof.Machine

/-! ## Loads (14 R329 to R333, R338, R340) -/

section
variable {s : State} {f : Sprue → Sprue} (hf : (f s.sprue).moulds = s.sprue.moulds)
include hf

/-- Whether the host sees a block RAM depends on the moulds alone of the sprue. -/
theorem hostVisible_onSprue (i b : Nat) : hostVisible (s.onSprue f) i b = hostVisible s i b := by
  rw [hostVisible, show (s.onSprue f).sprue.moulds = s.sprue.moulds from hf, hostVisible]

/-- So does the row of 01 R27 that decides an access. -/
theorem rangeRow_onSprue (a n : Nat) : rangeRow (s.onSprue f) a n = rangeRow s a n := by
  simp only [rangeRow, hostVisible_onSprue hf]
  rfl

/-- A change of the sprue that leaves its moulds alone leaves the outcome of every access of a flask as it was. -/
theorem flaskOutcome_onSprue (flask va n : Nat) (write : Bool) :
    flaskOutcome (s.onSprue f) flask va n write = flaskOutcome s flask va n write := by
  have hpiece : pieceRow (s.onSprue f) flask write = pieceRow s flask write := by
    funext c
    simp only [pieceRow, physRow, rangeRow_onSprue hf]
    rfl
  rw [flaskOutcome, hpiece, flaskOutcome]

/-- A change of the sprue that leaves its moulds alone leaves what a flask reads as it was. -/
theorem readFlask_onSprue (flask va n : Nat) : readFlask (s.onSprue f) flask va n = readFlask s flask va n := by
  rw [readFlask, flaskOutcome_onSprue hf, readFlask]
  rfl

end

/-- A header that reads and keeps its form for this device stays in the load (14 R329, checks 1 and 2). -/
theorem readHeader_of_passes {s : State} {l : Load} {flask : Nat} {h : List Byte} (hread : readFlask s flask l.addr 1024 = .ok h)
    (hform : hdrForm l.kind h = true) (hdev : hdrDevice h = true) :
    s.readHeader l flask =
      (s.onSprue (fun p => { p with cur := some { l with header := h }, bytes := p.bytes + 1024 })).after 2000 := by
  simp only [State.readHeader, hread, hform, hdev, Bool.not_true, Bool.false_eq_true, if_false]

/-- The first waiting load is taken when none is in progress, and its header is read (14 R338). -/
theorem mouldLoadBegin_of_queue {s : State} {cid : Nat} {rest : List Nat} {c : Cmd} (hcur : s.sprue.cur = none)
    (hq : s.sprue.queue = cid :: rest) (hc : findCmd s cid = some c) :
    execMouldLoadBegin s = done (((s.onSprue (fun p => { p with queue := rest })).onSprue (fun p =>
      { p with cur := some (Load.fresh c s.time) })).readHeader (Load.fresh c s.time) c.flask) := by
  have hc' : findCmd (s.onSprue (fun p => { p with queue := rest })) cid = some c := hc
  simp only [execMouldLoadBegin, hcur, hq, hc']
  rfl

/-- Settles O17: a load goes from the queue to its header, its checks and its records, each step passing. -/
theorem mouldLoads : Obligations.MouldLoads := by
  refine ⟨fun s cid c h hform => ⟨fun hkind => ?ring, fun hkind => ?shell, fun hkind hkey => ?key, fun hkind hkey => ?refused⟩,
    fun s cid c m h hzero hm hown hst => ?unload, fun s cid rest c b hcur hq hc hread hform hdev => ?begin,
    fun s l c hcur hstep hheader hc hauth hcheck => ?verified, fun s l c r pl hcur hstep hseq hc hkind hread hopen hform => ?record⟩
  case ring => exact next_of_row h (by simp [h.opcode, hkind]) (if_pos hform)
  case shell => exact next_of_row h (by simp [h.opcode, hkind]) (if_pos hform)
  case key => exact next_of_row h (by simp [h.opcode, hkind]) (by simp [hform, hkey, State.queueLoad])
  case refused => exact next_of_row h (by simp [h.opcode, hkind]) (by simp [hform, hkey])
  case unload =>
    refine next_of_row h (by simp [h.opcode]) ?_
    rcases hst with hst | hst <;> simp [hzero, hm, hown, hst]
  case begin =>
    show execMouldLoadBegin s = _
    rw [mouldLoadBegin_of_queue hcur hq hc, readHeader_of_passes (l := Load.fresh c s.time) (h := b) _ hform hdev]
    · rfl
    · rw [readFlask_onSprue rfl, readFlask_onSprue rfl]
      exact hread
  case verified =>
    have hlong : l.header.isEmpty = false := by simpa using hheader
    show execSignatureVerified s = _
    simp only [execSignatureVerified, done, hcur, hstep, hlong, hc, hauth, hcheck, ne_eq, not_true_eq_false, decide_false, Bool.or_self,
      Bool.false_eq_true, if_false]
  case record =>
    have hlast : ¬ l.seq + 1 = imCount l.header + 1 := by omega
    show execImageRecord s = _
    simp only [execImageRecord, done, hcur, hstep, Nat.not_lt.mpr hseq.le, hc, hread, hopen, hkind, hform, ne_eq, not_true_eq_false,
      decide_false, Bool.or_self, Bool.not_true, Bool.false_eq_true, if_false, hlast]
    rfl

/-! ## The start-up order (14 R337) -/

/-- An event that is next, and not last, is performed after its delay and moves the order on. -/
theorem startStep_of_next {s : State} {ev id : Nat} {m : Mould} (h : nextStart s ev = some (id, m)) (hpos : m.pos < 3)
    (f : Nat → Mould → State → State) :
    s.startStep ev f = (f id m (s.after (1000 * (m.startup.getD m.pos (0, 0)).2))).onMould id (fun m => { m with pos := m.pos + 1 }) := by
  have hmore : m.pos + 1 < 4 := by omega
  simp only [State.startStep, h, hmore, if_true]

/-- A flip-flop whose clock does not tick keeps its value (13 R299). -/
theorem ffNext_of_noTick {s : State} {i q e : Nat} {ck : List Nat} (h : sliceClock s i q (e / 16) ∉ ck) (ev : Net → Bool) (writes : Bool) :
    ffNext s i ev ck writes q e = ev (.ff q e) := by
  simp [ffNext, h]

/-- A flip-flop whose clock ticks takes its SR value, or its data where it is enabled (13 R299). -/
theorem ffNext_of_tick {s : State} {i q e : Nat} {ck : List Nat} (h : sliceClock s i q (e / 16) ∈ ck) (ev : Net → Bool) (writes : Bool) :
    ffNext s i ev ck writes q e =
      if srOn s i ev q e then (if srAsync s i q e then ev (.ff q e) else srValue s i q e)
      else if writes && ffEnable s i ev q e then ffData s i ev q e else ev (.ff q e) := by
  cases hsr : srOn s i ev q e <;> cases hasync : srAsync s i q e <;> simp [ffNext, h, hsr, hasync]

/-- LF of a cell: the wide multiplexer's input on cell 7, a free value on the slice's others, and else its table (13 R298, R300). -/
theorem cellLf_eq (s : State) (i : Nat) (x : Nat → Bool) (ev : Net → Bool) (q c : Nat) :
    cellLf s i x ev q c =
      if isWide s i q (c / 8) then
        if c % 8 = 7 then cellIn s i ev q (8 * (c / 8) + ofBits ((upto 6).map (wideSel s i ev q (c / 8))) / 8)
          (ofBits ((upto 6).map (wideSel s i ev q (c / 8))) % 8)
        else x (65536 * q + c)
      else lutHalf s i ev q c (if !(cellConf s i q c 0 % 2 == 1) && cellIn s i ev q c 5 then 1 else 0) := by
  by_cases hsplit : cellConf s i q c 0 % 2 = 1 <;> simp [cellLf, hsplit]

/-- The foot of a column of 192 slices is the lowest of its 1,536 cells. -/
theorem foot_iff (c : Nat) : c % 8 = 0 ∧ c / 8 % 192 = 0 ↔ c % 1536 = 0 := by omega

/-- Settles O18: start-up events through `startStep_of_next`, the cells through the equations of their parts. -/
theorem mouldStartUp : Obligations.MouldStartUp := by
  refine ⟨fun s p k hp hk => ?lock, fun s id m hnext hlocked hpos => ?lockWait, fun s id m hnext hlocked => ?lockWaits,
    fun s id m hnext hpos => ?initEnd, fun s id m hnext hpos => ?writesOn, fun s id m hnext hpos hq => ?borderOpen, fun s => ?vbatt,
    fun s hnone => ?still, fun s i q e hnew => ?initial, fun s i ev ck writes q e => ⟨fun hck => ?noTick, fun hck => ?tick⟩,
    fun s i x ev q c => ⟨?lf, ?lh⟩, fun s i ev q c hc => ?carry, fun s i ev q c hc => ?foot⟩
  case lock =>
    show execPllLock p k s = _
    simp [execPllLock, done, Nat.not_le.mpr hp, Nat.not_le.mpr hk]
  case lockWait =>
    show execLockWait s = _
    simp only [execLockWait, done, hnext, hlocked, if_true, startStep_of_next hnext hpos]
  case lockWaits =>
    show execLockWait s = _
    simp only [execLockWait, done, hnext, hlocked, Bool.false_eq_true, if_false]
  case initEnd => exact congrArg done (startStep_of_next hnext hpos _)
  case writesOn => exact congrArg done (startStep_of_next hnext hpos _)
  case borderOpen =>
    have hfree : m.quarters.contains 0 = false := by simpa using hq
    show execBorderOpen s = _
    simp only [execBorderOpen, startStep_of_next hnext hpos, hfree, Bool.false_eq_true, if_false]
    rfl
  case vbatt => rfl
  case still => simp only [State.userEdge, hnone]
  case initial => simp [ffStored, Tab.get, hnew]
  case noTick => exact ffNext_of_noTick hck ev writes
  case tick => exact ffNext_of_tick hck ev writes
  case lf => exact cellLf_eq s i x ev q c
  case lh => rfl
  case carry => simp only [carryIn, foot_iff, hc, if_false]
  case foot => simp only [carryIn, foot_iff, hc, if_true]

end Sys2Proof.Machine
end

section
/-!
Nodes of the vector and the matrix tiles (03, 04, 05): the obligations on their start, their end, suspension and resumption.
-/

namespace Sys2Proof.Machine

/-! ## Contexts of VECTOR nodes (05 R133, 09 R210) -/

/-- Settles O23: the write of the context is the one thing a suspension waits for. -/
theorem vectorContextSaved : Obligations.VectorContextSaved := by
  intro s tile r byYield b t hwrite
  simp only [State.suspend, hwrite]

/-! ## VECTOR nodes (05 R116, R126 to R129) -/

/-- The tile of a state in which it was changed. -/
theorem vtile_onVtile_self (s : State) (x : Nat) (f : VectorTile → VectorTile) : (s.onVtile x f).vtile x = f (s.vtile x) :=
  Tab.get_upd_self ..

/-- A node that has ended is finished once its `END` is counted. -/
theorem run_counted_onRun {u : State} {i : VIssue} {r : VxRun} (h : (u.vtile i.tile).run = some r) (f : VxRun → VxRun) :
    (((u.onRun i.tile f).counted i).vtile i.tile).run = some (f r) := by
  rw [State.counted, vtile_onVtile_self, State.onRun, vtile_onVtile_self]
  simp only [h, Option.map_some]

/-- A node that neither restores a context nor finds its program on the tile fetches its program. -/
theorem fetchNode_of_new {s : State} {tile : Nat} {r : VxRun} {b : List Byte} (hnew : r.restored = false) (hrestore : fld r.desc 93 1 = 0)
    (hprev : (s.vtile tile).prev ≠ some (flaskOfKey r.heat, r.progAddr, r.progLen))
    (hread : readFlask s (flaskOfKey r.heat) r.progAddr (8 * r.progLen) = .ok b) :
    fetchNode s tile r = .ok [] (some ((upto r.progLen).map (fun k => BitVec.ofNat 64 (fld b (8 * k) 8)))) r := by
  simp [fetchNode, hnew, hrestore, hprev, hread]

/-- Settles O22: the instructions through `issueV_of_issues`, the other events through the branch that their hypotheses leave. -/
theorem vectorNodes : Obligations.VectorNodes := by
  refine ⟨fun s cluster e x sc hfirst hhead htile hfmts htail hscales harmed => ?start,
    fun s tile r b hrun hup hissuing hidle hnew hrestore hprev hread => ?fetch, fun s i t r w u h hflush hrun => ?endProgram,
    fun s i t r w b u h hctx hsave => ?yield,
    fun s tile ecc r at0 l b u hrun hurgent hup hgoing hissuing hctx hwithin hresident hecc hsave => ?preempt,
    fun s tile r hnext hrun hup hurgent => ?resume, fun s i k t r w h => ?unassigned⟩
  case start =>
    have hsc : (if fld e.desc 93 1 % 2 = 1 then .ok (List.replicate 4 f32One) else vxScales s (flaskOfKey e.heat) e.desc) =
        (.ok sc : Except (Option Nat × Stat) (List W32)) := by
      rcases hscales with ⟨hrestore, rfl⟩ | ⟨hrestore, hread⟩
      · rw [if_pos hrestore]
      · rw [if_neg (by omega), hread]
    show execVectorNodeStart cluster s = _
    simp only [execVectorNodeStart, done, hfirst, State.startVector, hhead, htile, hfmts, hsc, htail, harmed, Bool.not_true, Bool.or_self,
      Bool.false_eq_true, if_false]
  case fetch =>
    show execProgramFetchDone tile s = _
    simp only [execProgramFetchDone, done, hrun, hup, hissuing, hidle, fetchNode_of_new hnew hrestore hprev hread, Bool.not_true, Bool.or_self,
      Bool.false_eq_true, if_false]
    rfl
  case endProgram =>
    show execEndProgram i s = _
    simp only [execEndProgram, issueV_of_issues h (cls := (· == 9)) rfl, hflush, VRes.after, run_counted_onRun hrun, if_true]
    rfl
  case yield =>
    refine congrArg done ((issueV_of_issues h rfl _ _).trans ?_)
    simp only [hctx, if_false, hsave, VRes.after]
  case preempt =>
    show execVectorPreempt tile ecc s = _
    simp only [execVectorPreempt, done, hrun, hurgent, hup, hgoing, hissuing, hctx, hwithin, hresident, hecc, hsave, Bool.not_true,
      decide_false, Bool.or_self, Bool.false_eq_true, if_false]
  case resume =>
    show execVectorResume tile s = _
    simp only [execVectorResume, done, hnext, hrun, hup, hurgent, List.isEmpty_nil, Bool.not_true, Bool.or_self, Bool.false_eq_true, if_false]
  case unassigned => exact congrArg done (issueV_of_issues h rfl _ _)

/-! ## MATRIX nodes (03 R67 to R90, 04 R97 to R102) -/

/-- Changes of a matrix tile that agree on the tile that is there agree. -/
theorem onTile_congr {s : State} {x : Nat} {f g : MatrixTile → MatrixTile} (h : f (s.tile x) = g (s.tile x)) : s.onTile x f = s.onTile x g :=
  congrArg (fun m => s.onMt (fun t => Tab.put t x m)) h

/-- Settles O24: each event finds the run on its tile, and its tests leave one branch. -/
theorem matrixNodes : Obligations.MatrixNodes := by
  refine ⟨fun s cluster e sc sy x hfirst hcheck hnamed hscales htile htail hresident harmed => ?start,
    fun s tile r hrun hup hwithin hmore hturn => ?load, fun s tile r hrun hup hgoing hhold hwithin hgo loop => ⟨?clean, ?corrected, ?bad⟩,
    fun s tile gap hthere hrun hhold => ?level, fun s tile cycles planned waits r hrun hhold hgo => ?resume,
    fun s tile r u b hrun hended hwithin hresident hout hhist => ?nodeEnd⟩
  case start =>
    show execMatrixNodeStart cluster s = _
    simp [execMatrixNodeStart, done, hfirst, State.startMatrix, hcheck, hnamed, hscales, htile, htail, hresident, harmed]
  case load =>
    show execWeightLoadDone tile s = _
    simp [execWeightLoadDone, done, hrun, hup, hwithin, hturn, hturn ▸ hmore]
  case clean =>
    show execRowCycle tile .clean loop s = _
    simp [execRowCycle, done, hrun, hup, hgoing, hhold, hwithin, hgo, State.tileEcc]
  case corrected =>
    show execRowCycle tile .corrected loop s = _
    simp [execRowCycle, done, hrun, hup, hgoing, hhold, hwithin, hgo, State.tileEcc]
  case bad =>
    show execRowCycle tile .uncorrectable loop s = _
    simp [execRowCycle, done, hrun, hup, hgoing, hhold, hwithin, hgo, State.tileEcc]
  case level =>
    have hstill : (s.tile tile).still = true := by simp [MatrixTile.still, hrun]
    show execActivityLevelStep tile gap s = _
    simp only [execActivityLevelStep, done, hthere, if_true]
    refine congrArg _ (onTile_congr ?_)
    simp only [hstill, hhold, if_true, Option.isSome_none, Bool.false_eq_true, if_false, MatrixTile.idle]
  case resume =>
    show execTileHoldResume tile cycles planned waits s = _
    simp only [execTileHoldResume, done, hrun, hhold, hgo, ne_eq, not_true_eq_false, if_false]
    rfl
  case nodeEnd =>
    intro ck hnone
    show execMatrixNodeEnd tile s = _
    simp only [execMatrixNodeEnd, done, hrun, hended, hwithin, hresident, hout, hhist, Bool.not_true, Bool.or_self, Bool.false_eq_true, if_false]
    rw [if_pos (List.isEmpty_iff.mpr hnone)]
    rfl

end Sys2Proof.Machine
end

section
/-!
The tile network (15) and the fabric ports (13): the obligations on flits, re-sends, the ports' life and their traffic.
-/

namespace Sys2Proof.Machine

/-- Settles O27: each event finds what it acts on, so one branch of it is left. -/
theorem networkAndPortLife : Obligations.NetworkAndPortLife := by
  refine ⟨fun s unit out link err q b hwin => ?forward, fun s cluster tag c r rest hc hreqs hretry hlink => ?ladleRetry,
    fun s cluster n tag r hn hr hop hretry => ?portRetry, fun s cluster tag d hd => ?lost, fun s port cls hup hwaits => ?breach,
    fun s port f hf hclk => ?clockLoss, fun s port f hf hbreach hreconf hruns => ?enable⟩
  case forward =>
    show execFlitForward unit out link err s = _
    simp only [execFlitForward, hwin]
    rfl
  case ladleRetry =>
    show execNetworkResponseTimeout cluster 6 tag s = _
    simp [execNetworkResponseTimeout, done, hc, hreqs, State.reissue, Nat.not_le.mpr hretry, hlink]
  case portRetry =>
    have hport : 9 + n - 9 = n := by omega
    have hone : ¬ 9 + n = 1 := by omega
    have hsix : ¬ 9 + n = 6 := by omega
    have hrange : (decide (9 + n < 9) || decide (12 < 9 + n)) = false := by
      simp only [Bool.or_eq_false_iff, decide_eq_false_iff_not]
      omega
    have hagain : (decide (r.flit.op ≠ 0) || decide (3 ≤ r.retry)) = false := by simp [hop, hretry]
    show execNetworkResponseTimeout cluster (9 + n) tag s = _
    simp only [execNetworkResponseTimeout, done, hone, hsix, hport, hrange, hr, State.portTimeout, hagain, Bool.false_eq_true, if_false]
  case lost =>
    show execNetworkResponseTimeout cluster 1 tag s = _
    simp [execNetworkResponseTimeout, done, hd]
  case breach =>
    show execSinkBoundExpiry port cls s = _
    simp [execSinkBoundExpiry, done, hup, hwaits]
  case clockLoss => exact congrArg done (if_neg (by simp [hf, hclk]))
  case enable =>
    show execFabricPortEnable port s = _
    simp [execFabricPortEnable, done, hf, hbreach, hreconf, hruns]

/-- Settles O28: the port takes what it is offered, and a completion ends its node by whether its flit arrives. -/
theorem portTraffic : Obligations.PortTraffic := by
  refine ⟨fun s port lines hsome hmax hroom hready => ?read, fun s port va tag data hready => ?write,
    fun s port endpoint tag data y hready hy => ?message, fun s x f reqs => ?accepted,
    fun s port ctx last data c hready hctx hc hout hown hmore hroom => ?output,
    fun s port dtag word result d u hup hd => ?completion, fun s port dtag word result d u hup hd => ?lost,
    fun s port cls waited f rest hup htake => ?deliver, fun s cluster data hruns huse => ?capture,
    fun s addr data hbase hok => ?windowWrite, fun s addr hbase hok => ?windowRead⟩
  case read =>
    have hform : (lines.isEmpty || decide (8 < lines.length) || decide (256 < (s.fport port).readsOut + lines.length) ||
        !txReady s port 0) = false := by
      have hlines : lines ≠ [] := List.length_pos_iff.mp hsome
      simp [hlines, hmax, hroom, hready]
    show execReadRequest port lines s = _
    simp only [execReadRequest, done, hform, Bool.false_eq_true, if_false]
  case write =>
    show execLineWrite port va tag data s = _
    simp [execLineWrite, done, hready]
  case message =>
    show execEndpointMessage port endpoint tag data s = _
    simp [execEndpointMessage, done, hready, hy]
  case accepted => rfl
  case output =>
    have hnotDone : ¬ min 64 (c.prog.size - c.made) = 0 := by omega
    show execStreamOutput port ctx last data s = _
    simp only [execStreamOutput, done, hready, hctx, hc, hout, hown, hnotDone, Nat.not_lt.mpr hroom, if_true, Bool.not_true, ne_eq,
      not_true_eq_false, decide_false, Bool.or_self, Bool.false_eq_true, if_false]
  case completion =>
    intro t hsends
    refine ⟨fun hst => ?_, fun hst => ?_⟩ <;> show execFabricCompletion port dtag word result s = _
    · simp only [execFabricCompletion, done, hup, hd, Bool.not_true, Bool.false_eq_true, if_false]
      rw [hsends]
      simp only [hst, if_false]
    · simp only [execFabricCompletion, done, hup, hd, Bool.not_true, Bool.false_eq_true, if_false]
      rw [hsends]
      simp only [hst, if_true]
  case lost =>
    intro t hsends
    show execFabricCompletion port dtag word result s = _
    simp only [execFabricCompletion, done, hup, hd, Bool.not_true, Bool.false_eq_true, if_false]
    rw [hsends]
  case deliver =>
    show execFabricRxDeliver port cls waited s = _
    simp [execFabricRxDeliver, done, hup, htake]
  case capture =>
    show execCaptureSample cluster data s = _
    simp [execCaptureSample, done, hruns, huse]
  case windowWrite =>
    show execBlockRamWindowAccess addr true data [] s = _
    simp [execBlockRamWindowAccess, done, Nat.not_lt.mpr hbase, hok]
  case windowRead =>
    show execBlockRamWindowAccess addr false [] [] s = _
    simp [execBlockRamWindowAccess, done, Nat.not_lt.mpr hbase, hok]

end Sys2Proof.Machine
end

section
/-!
Commands of the device itself: resets (18 R439 to R444), the power cap and the logs (19, 20), `LINK_CONTROL` (16) and `FW_LOAD` (18 R430,
R431): the obligations on them.
-/

namespace Sys2Proof.Machine

/-! ## RESET (18 R439 to R444) -/

/-- What a device reset posts and does where its CQ has nothing else to post. -/
theorem resetDevice_of_room {s : State} {cid : Nat} {c : Cmd} {q : Queue} (h : Fresh s cid 0x0D c) (hscope : c.p 0 1 = 4)
    (hform : resetForm c = true) (hunit : c.p 4 2 = 0) (hflask : c.flask = 0xFF) (htakes : cqTakes s c.qnum = true) (hmode : c.p 1 1 ≤ 1)
    (hq : (s.resetRecord c |>.finish cid .ok zeros16).queue? c.qnum = some q)
    (hnone : ∀ o, (s.resetRecord c |>.finish cid .ok zeros16).queue? q.cqOf = some o → o.waiting = []) :
    exec (.resetDevice cid) s = .next ((postMany q.cqOf 0 ((s.resetRecord c).finish cid .ok zeros16)).deviceReset 1 (c.p 1 1 = 0)) := by
  have hquick (b : Bool) : (if c.p 1 1 = 0 then true else if c.p 1 1 = 1 then false else b) = decide (c.p 1 1 = 0) := by
    obtain hzero | hone : c.p 1 1 = 0 ∨ c.p 1 1 = 1 := by omega
    · simp [hzero]
    · simp [hone]
  refine next_of_row h (by simp [h.opcode, hscope]) ?_
  simp only [hform, hunit, hflask, htakes, hq, hquick, Bool.not_true, ne_eq, not_true_eq_false, decide_false, Bool.or_self, Bool.false_eq_true,
    if_false]
  cases ho : ((s.resetRecord c).finish cid .ok zeros16).queue? q.cqOf with
  | none => rfl
  | some o => simp only [hnone o ho, List.length_nil]

/-- Settles O29: each form passes its checks; a reset ends unless another one in progress covers it. -/
theorem resetCommands : Obligations.ResetCommands := by
  refine ⟨fun s cid c i h hi hscope hform hown hthere => ?tile, fun s cid c i h hi hscope hform hown hthere => ?cluster,
    fun s cid c e h he hscope hform hflask hup hok => ?engine, fun s cid c h hscope hform hunit hflask hhealthy => ?partition,
    fun s cid c q h hscope hform hunit hflask htakes hmode hq hnone => resetDevice_of_room h hscope hform hunit hflask htakes hmode hq hnone,
    fun s cid c h hmoulds => ⟨fun hfree => ?complete, fun hcovered => ?waits⟩⟩
  case tile => exact next_of_row h (by simp [h.opcode, hscope]) (by simp [hi, hscope, hform, hown, hthere])
  case cluster => exact next_of_row h (by simp [h.opcode, hscope]) (by simp [hi, hform, hown, hthere])
  case engine => exact next_of_row h (by simp [h.opcode, hscope]) (by simp [he, hform, hflask, hup, hok])
  case partition =>
    refine next_of_row h (by simp [h.opcode, hscope]) ?_
    simp only [hform, hflask, hhealthy, Nat.not_lt.mpr hunit, Bool.not_true, ne_eq, not_true_eq_false, decide_false, Bool.or_self,
      Bool.false_eq_true, if_false]
  case complete =>
    have hrestarted : s.sprue.moulds.any (fun m => m.2.resetCid == some cid) = false := by simpa using hmoulds
    have hwidest : (otherResets s cid).any (fun a => covers s a c) = false := by simpa using hfree
    show execResetComplete cid s = _
    simp only [execResetComplete, done, h.found, h.work, hrestarted, hwidest, ne_eq, not_true_eq_false, decide_false, Bool.or_self,
      Bool.false_eq_true, if_false]
  case waits =>
    have hwider : (otherResets s cid).any (fun a => covers s a c) = true := by simpa using hcovered
    show execResetComplete cid s = _
    simp only [execResetComplete, done, h.found, hwider, Bool.or_true, if_true]

/-! ## The power cap, telemetry, the black box and the defect list (10 R250, 19 R454, 20 R468, R475, R476) -/

/-- Settles O30: each command's fields are in range, so it does its work. -/
theorem powerCapAndLogs : Obligations.PowerCapAndLogs := by
  refine ⟨fun s cid c h hflask hcap hzero => ?cap,
    fun s cid c b h hlow hhigh haddr hoff hmin hlen hmax hpage => ?telemetry,
    fun s cid c h hform => ⟨fun hmode => ?bytes, fun hmode hnone => ?records⟩, fun s cid c h hmin hmax hzero => ?defects,
    fun s r rest hcores hqueue htype hsec => ?commit⟩
  case cap =>
    have hrange : (decide (c.p 0 4 = 0) || (decide (700 ≤ c.p 0 4) && decide (c.p 0 4 ≤ 2800))) = true := by simpa using hcap
    refine next_of_row h (by simp [h.opcode]) ?_
    simp only [hflask, hrange, hzero, ne_eq, not_true_eq_false, decide_false, Bool.not_true, Bool.or_self, Bool.false_eq_true, if_false]
  case telemetry =>
    refine next_of_row h (by simp [h.opcode]) ?_
    simp [hlow, hhigh, haddr, hoff, hlen, Nat.not_lt.mpr hmin, Nat.not_lt.mpr hmax, hpage]
  case bytes => exact next_of_row h (by simp [h.opcode]) (by simp [hform, hmode])
  case records => exact next_of_row h (by simp [h.opcode]) (by simp [hform, hmode, hnone])
  case defects =>
    have hsome : ¬ c.p 12 4 = 0 := by omega
    exact next_of_row h (by simp [h.opcode]) (by simp [hsome, Nat.not_lt.mpr hmax, hzero])
  case commit =>
    show execBlackboxCommit s = _
    simp [execBlackboxCommit, done, hcores, State.commitNext, hqueue, htype, hsec]

/-! ## LINK_CONTROL (16 R375, R376, R384) -/

/-- A `PORT` command in form acts on each named port and waits for them to settle. -/
theorem portCommand_of_form {s : State} {c : Cmd} (hform : portForm c = true) (f : Nat → State → State) :
    s.portCommand c f = (((namedPorts c).foldl (fun s n => f n s) s).onCmd c.cid (fun c => { c with work := .link })).finishLinks.nimraGo := by
  simp only [State.portCommand, hform, Bool.not_true, Bool.false_eq_true, if_false]

/-- Settles O31: the three `PORT` actions through `portCommand_of_form`, the others through their checks. -/
theorem linkControl : Obligations.LinkControl := by
  refine ⟨fun s cid c b h hop hform hread hblock hnone => ?nodeConfig,
    fun s cid c h hop hform => ⟨fun hact => ?disable, fun hact => ?enable, fun hact => ?retrain⟩,
    fun s cid c b node h hop hform hnode hread hmembers hfree => ?create, fun s cid c x h hop hflask hlow hhigh hx hown hunused => ?destroy⟩
  case nodeConfig => exact next_of_row h (by simp [h.opcode, hop]) (by simp [hop, hform, hread, hblock, hnone])
  case disable => exact next_of_row h (by simp [h.opcode, hop, hact]) (portCommand_of_form hform _)
  case enable => exact next_of_row h (by simp [h.opcode, hop, hact]) (portCommand_of_form hform _)
  case retrain => exact next_of_row h (by simp [h.opcode, hop, hact]) (portCommand_of_form hform _)
  case create => exact next_of_row h (by simp [h.opcode, hop]) (by simp [hform, hnode, hread, hmembers, hfree])
  case destroy =>
    have hidle : s.nimra.colls.any (fun y => y.group == c.p 4 1) = false := by simpa using hunused
    exact next_of_row h (by simp [h.opcode, hop]) (by simp [hflask, hlow, hhigh, hx, hown, hidle])

/-! ## FW_LOAD (18 R430, R431) -/

/-- A load that is in form and finds no other being programmed is refused with what its image fails, or begins programming. -/
theorem fwLoad_of_form {s : State} {c : Cmd} (hform : fwLoadForm c = true) (hidle : s.flash.writing = none) :
    s.fwLoad c = match fwImage s (c.p 0 8) (c.p 8 1) with
      | .error e => (s.blame 0xFF (c.p 0 8) (if e.1 = [] then 1024 else if c.p 8 1 = 1 then fld e.1 16 8 else 1024 + fwLength e.1)
          e.2.1).fwFail c.cid (if c.p 8 1 = 2 then 5 else 1) e.1 e.2.1 e.2.2
      | .ok img => (s.onFlash (fun f => { f.erase (c.p 8 1) with
          writing := some (c.p 8 1, img) })).onCmd c.cid (fun c => { c with work := .flash }) := by
  simp only [State.fwLoad, hform, hidle, Bool.not_true, Option.isSome_none, Bool.false_eq_true, if_false, List.isEmpty_iff]
    <;> rfl

/-- Settles O33: the three targets share `fwLoad_of_form`; the end of programming is told apart by the target. -/
theorem firmwareLoads : Obligations.FirmwareLoads := by
  refine ⟨fun s cid c h hform hidle => ⟨fun htarget => ?firmware, fun htarget => ?shell, fun htarget => ?provisioning⟩,
    fun s cid c img h hwriting ok => ?burn, fun s cid c img h hwriting => ?shellDone, fun s cid c img h hwriting => ?firmwareDone,
    fun s cid c img h hwriting => ?failed⟩
  case firmware => exact next_of_row h (by simp [h.opcode, htarget]) (fwLoad_of_form hform hidle)
  case shell => exact next_of_row h (by simp [h.opcode, htarget]) (fwLoad_of_form hform hidle)
  case provisioning => exact next_of_row h (by simp [h.opcode, htarget]) (fwLoad_of_form hform hidle)
  case burn =>
    show execFlashProgramDone cid ok s = _
    simp [execFlashProgramDone, done, h.found, h.work, hwriting]
  case shellDone =>
    show execFlashProgramDone cid true s = _
    simp [execFlashProgramDone, done, h.found, h.work, hwriting]
  case firmwareDone =>
    show execFlashProgramDone cid true s = _
    simp [execFlashProgramDone, done, h.found, h.work, hwriting]
  case failed =>
    show execFlashProgramDone cid false s = _
    simp [execFlashProgramDone, done, h.found, h.work, hwriting]

end Sys2Proof.Machine
end

section
/-!
The Ethernet ports and Nimra (16): the obligations on the ports' states, on packets, on timers and on collectives.
-/

namespace Sys2Proof.Machine

/-! ## Ports (16 R370 to R377) -/

/-- Settles O35: each event acts where the port is in the state that it names. -/
theorem nimraPort : Obligations.NimraPort := by
  refine ⟨fun s n m hin hadv => ?agree, fun s n hin => ?restart, fun s n lanes hin hlanes => ?trained, fun s n hin => ?trainingTimeout,
    fun s n hin => ?aligned, fun s n hin => ?alignTimeout, fun s n words hin => ?linkLoss, fun s n symbols words hn => ⟨?foreign, ?badCrc⟩⟩
  case agree => exact congrArg done (if_pos (by simp [hin, hadv]))
  case restart => exact congrArg done (if_pos hin)
  case trained => exact congrArg done (if_neg (by simp [hin, hlanes]))
  case trainingTimeout => exact congrArg done (if_pos hin)
  case aligned => exact congrArg done (if_pos hin)
  case alignTimeout => exact congrArg done (if_pos hin)
  case linkLoss => exact congrArg done (if_pos hin)
  case foreign => exact congrArg done (if_neg (Nat.not_le.mpr hn))
  case badCrc => exact congrArg done (if_neg (Nat.not_le.mpr hn))

/-- Settles O59: both drops come before anything else of a packet is looked at. -/
theorem nimraIdentity : Obligations.NimraIdentity := by
  refine ⟨fun s n p sq rtt hactive hnone => ?noNode, fun s n p sq rtt hactive hnode hdst => ?ownNode⟩
  case noNode =>
    have hid : ((s.onEport n (fun e => { e with fecCorr := e.fecCorr + p.fec })).nimra.nodeId.isNone) = true := by
      rw [show (s.onEport n _).nimra.nodeId = s.nimra.nodeId from rfl, hnone]
      rfl
    simp only [State.receive, hactive, hid, Bool.not_true, Bool.false_eq_true, if_false, Bool.true_or, if_true]
  case ownNode =>
    have hid : (s.onEport n (fun e => { e with fecCorr := e.fecCorr + p.fec })).nimra.nodeId = some p.srcNode := hnode
    simp only [State.receive, hactive, hid, hdst, Bool.not_true, Option.isNone_some, ne_eq, not_true_eq_false, decide_false, Bool.or_self,
      Bool.false_eq_true, if_false, if_true]

/-! ## Packets (16 R379, R380, R388, R390, R392) -/

/-- Settles O36: a packet that is taken acts on the group and the collective that it finds. -/
theorem nimraPackets : Obligations.NimraPackets := by
  refine ⟨fun s n p u htake hnew => ?data, fun s n p rtt u htake => ?ack, fun s n p u x r htake => ?ready,
    fun s n p u c r htake hc => ⟨?rnr, ?nack⟩, fun s n p u x r htake hx hr => ?abort, fun s n p u htake => ?probe⟩
  case data =>
    have hheld : u.nimra.held.any (fun h => h.1 == n && h.2.srcNode == p.srcNode && h.2.psn == p.psn) = false := by
      simpa [and_assoc] using hnew
    show execData n p s = _
    simp only [execData, done, htake, hheld, Bool.false_eq_true, if_false]
  case ack =>
    show execAck n p rtt s = _
    simp only [execAck, done, htake]
  case ready =>
    intro v hx hr
    refine ⟨fun hnone hlater => ?_, fun c hc hseq => ?_⟩ <;> show execReady n p s = _
    · simp only [execReady, done, htake]
      rw [hx]
      simp only [hr]
      rw [hnone]
      simp only [Nat.not_le.mpr hlater, if_false]
      rfl
    · simp only [execReady, done, htake]
      rw [hx]
      simp only [hr]
      rw [hc]
      simp only [hseq, if_true]
      rfl
  case rnr =>
    show execRnr n p s = _
    simp only [execRnr, done, htake, hc]
  case nack =>
    show execNack n p s = _
    simp only [execNack, done, htake, hc]
  case abort =>
    intro v
    refine ⟨fun hnone hlater => ?_, fun c hc hone hseq => ?_⟩ <;> show execAbort n p s = _
    · simp only [execAbort, done, htake, hx, hr]
      rw [hnone]
      simp only [Nat.not_le.mpr hlater, if_false]
      rfl
    · simp only [execAbort, done, htake, hx, hr]
      rw [hc]
      simp only [hone, hseq, Bool.not_false, decide_true, Bool.and_self, if_true]
      rfl
  case probe =>
    show execProbe n p s = _
    simp only [execProbe, done, htake]

/-! ## Timers, reductions and the end of a collective (16 R379 to R389) -/

/-- Settles O37: each timer finds what is due, and a finished collective has nothing left to copy or to write. -/
theorem nimraTimersAndCollectives : Obligations.NimraTimersAndCollectives := by
  refine ⟨fun s n k hk howed => ?ackTimer, fun s n k psn x hx hidle => ?resend, fun s n node hactive hnode => ?probeTimer,
    fun s g r c x b hc hx hdst => ?reduced, fun s flask heat node c x hc hx hfin hcopy hwait hone => ?oneSided,
    fun s flask heat node c x hc hx hfin hcopy hwait hone => ?group⟩
  case ackTimer => exact congrArg done (if_neg (by simp [hk, howed]))
  case resend =>
    show execResendTimeout n k psn s = _
    simp only [execResendTimeout, done, hx, hidle]
  case probeTimer =>
    show execProbeTimer n s = _
    simp only [execProbeTimer, done, hactive, hnode, Bool.not_true, Option.isNone_some, Bool.or_self, Bool.false_eq_true, if_false]
  case reduced =>
    show execReduceSegmentDone g r s = _
    simp only [execReduceSegmentDone, done, hc, hx, hdst]
  case oneSided =>
    show execCollectiveComplete flask heat node s = _
    simp only [execCollectiveComplete, done, hc, hx, hfin, hcopy, hwait, hone, Bool.not_true, Bool.false_eq_true, if_false, if_true]
  case group =>
    show execCollectiveComplete flask heat node s = _
    simp only [execCollectiveComplete, done, hc, hx, hfin, hcopy, hwait, hone, Bool.not_true, Bool.false_eq_true, if_false, if_true]

end Sys2Proof.Machine
end

section
/-!
The serving loop (11): the obligation on sessions, requests and steps.
-/

namespace Sys2Proof.Machine

/-! ## Sessions and requests (11 R254, R257 to R263) -/

/-- A session opens where the loop's context bound, the device's and the loop's session counts and a free list slot allow it. -/
theorem openSession_of_room {s : State} {c : Cmd} {key i : Nat} {l : Loop} (hctx : c.p 8 4 ≤ svMaxCtx l.desc)
    (hdev : s.serving.sessions.length < 65536) (hloop : (s.serving.sessions.filter (fun x => x.2.loop == key)).length < 16384)
    (hslot : freeListSlot s key l.desc = some i) :
    s.openSession c key l = ((s.onServing (fun v => { v with
      loops := Tab.put v.loops key l
      sessions := Tab.put v.sessions s.serving.nextSess (.fresh key c i)
      nextSess := s.serving.nextSess + 1 })).finish c.cid .ok (leBytes 4 s.serving.nextSess ++ leBytes 4 l.steps)) := by
  simp only [State.openSession, Nat.not_lt.mpr hctx, Nat.not_le.mpr hdev, Nat.not_le.mpr hloop, hslot, decide_false, Bool.or_self,
    Bool.false_eq_true, if_false]

/-! ## The end of a step (11 R264, R265) -/

section
variable {s : State} {loop k : Nat} {h : Heat} {l : Loop} {st : Step}
  (hh : s.graph.heats.find? (fun h => h.2.loop == some (loop, false) && h.2.complete) = some (k, h))
  (hl : Tab.find? s.serving.loops loop = some l) (hst : l.decode = some st) (hk : st.heat = k)
include hh hl hst hk

/-- A complete decode heat ends its loop's step. -/
theorem stepEnd_of_complete (late : Bool) : s.stepEnd loop false late = s.endStep loop l false k h st late := by
  simp only [State.stepEnd, hh, hl, hst, hk, Bool.false_eq_true, ne_eq, not_true_eq_false, if_false]

end

/-- The rows of a decode step sample when its tiles are idle and in service and its pages are there. -/
theorem endStep_of_idle {s : State} {loop k : Nat} {l : Loop} {h : Heat} {st : Step} (hout : h.outcome.1.failure = false)
    (htiles : ∀ x ∈ sampleTiles l.desc st.rows.length, vtileUp s x = true ∧ (s.vtile x).run = none)
    (hpages : sampleWait s loop l.desc st.rows.length = none) :
    s.endStep loop l false k h st false = (st.rows.zipIdx).foldl (fun s r => s.rowDone loop l st r.2 r.1)
      ((s.leaveStep loop false k).after (sampleCycles l.desc st.rows.length * 1000 /
        max 1 (clusterMHz s (((sampleTiles l.desc st.rows.length).headD 0) / 2)))) := by
  have hup : (sampleTiles l.desc st.rows.length).any (fun x => !vtileUp s x) = false := by
    simpa using fun x hx => (htiles x hx).1
  have hidle : (sampleTiles l.desc st.rows.length).any (fun x => (s.vtile x).run.isSome) = false := by
    simpa using fun x hx => (htiles x hx).2
  simp only [State.endStep, hout, hup, hidle, hpages, Bool.false_eq_true, if_false]

/-- A tile of SAMPLE_CLUSTER that is out of service fails the rows of a decode step. -/
theorem endStep_of_tileDown {s : State} {loop k : Nat} {l : Loop} {h : Heat} {st : Step} (hout : h.outcome.1.failure = false)
    (hdown : ∃ x ∈ sampleTiles l.desc st.rows.length, vtileUp s x = false) (late : Bool) :
    s.endStep loop l false k h st late = (s.leaveStep loop false k).failRows l.desc st .notPresent := by
  have hany : (sampleTiles l.desc st.rows.length).any (fun x => !vtileUp s x) = true := by simpa using hdown
  simp only [State.endStep, hout, hany, Bool.false_eq_true, if_false, if_true]

/-- Settles O34: sessions and requests pass their checks; steps end through `stepEnd_of_complete`. -/
theorem servingLoops : Obligations.ServingLoops := by
  refine ⟨fun s cid c f d roles h haddr hrange hctx hmin hzero hf hnew hread hform hroles hcheck => ?openNew,
    fun s c key l i hctx hdev hloop hslot => openSession_of_room hctx hdev hloop hslot,
    fun s cid c x l b h hform hx hl hdevice hread => ?request, fun s cid c x r h hzero hx hreq => ?cancel,
    fun s cid c x h hzero hx => ⟨fun hreq => ?closeNow, fun r hreq => ?closeLater⟩,
    fun s loop l ns u hl hidle hfaults hbatch hsome => ?decode, fun s loop l n x rest u hl hidle hfaults hcand r hreq => ?prefill,
    fun s loop k h l st hh hl hst hk hout => ⟨fun htiles hpages => ?sampled, fun hdown => ?tileDown⟩,
    fun s n x l u same hx hl hparked hreq hfaults hback => ?unpark⟩
  case openNew =>
    have hlow : ¬ c.p 8 4 < 128 := by omega
    have hhigh : ¬ 2 ^ 48 ≤ c.p 0 8 := by omega
    refine next_of_row h (by simp [h.opcode]) ?_
    simp only [haddr, hhigh, hctx, hlow, hzero, hf, hnew, hread, hform, hroles, hcheck, ne_eq, not_true_eq_false, decide_false, Bool.not_true,
      Bool.or_self, Bool.false_eq_true, if_false, if_true]
  case request =>
    intro input hvocab hfits hopen hfree hhomes
    have hinput : (input.any (fun t => decide (svVocab l.desc ≤ t)) || decide (x.maxCtx - 1 < x.ctxLen + c.p 4 4)) = false := by
      simpa [Nat.not_lt.mpr hfits] using hvocab
    refine next_of_row h (by simp [h.opcode]) ?_
    simp only [hform, hx, hl, hdevice, hread, Bool.false_and, Bool.not_true, Bool.false_eq_true, if_false]
    rw [if_neg (by rw [hinput]; exact Bool.false_ne_true)]
    simp only [hopen, hfree, Option.isSome_none, Bool.false_eq_true, if_false, List.isEmpty_eq_false_iff.mpr hhomes]
    rfl
  case cancel => exact next_of_row h (by simp [h.opcode]) (by simp [hzero, hx, hreq])
  case closeNow => exact next_of_row h (by simp [h.opcode]) (by simp [hzero, hx, hreq])
  case closeLater => exact next_of_row h (by simp [h.opcode]) (by simp [hzero, hx, hreq])
  case decode =>
    intro rows hrows
    show execDecodeStep loop s = _
    have hns : ns.isEmpty = false := by simpa using hsome
    simp only [execDecodeStep, done, State.decodeStep, hl, hidle, hfaults, hbatch, hns, Option.isSome_none, Bool.or_self, Bool.false_eq_true,
      if_false]
    rw [if_pos hrows, decide_eq_false (Nat.not_lt.mpr hrows)]
  case prefill =>
    intro k htake
    show execPrefillStep loop s = _
    simp only [execPrefillStep, done, State.prefillStep, hl, hidle, hfaults, hcand, hreq, Option.isSome_none, Bool.or_self, Bool.false_eq_true,
      if_false]
    rw [htake]
  case sampled =>
    show execStepComplete loop false s = _
    rw [execStepComplete, stepEnd_of_complete hh hl hst hk, endStep_of_idle hout htiles hpages]
    rfl
  case tileDown =>
    show execStepComplete loop false s = _
    rw [execStepComplete, stepEnd_of_complete hh hl hst hk, endStep_of_tileDown hout hdown]
    rfl
  case unpark =>
    show execUnpark n false s = _
    simp [execUnpark, done, hx, hl, hparked, hreq, hfaults, hback]

end Sys2Proof.Machine
end

section
/-!
The host's and the management's attachments (17): the obligations on CXL.mem and its port, on the DOE mailbox with SPDM, and on I3C.
-/

namespace Sys2Proof.Machine

/-! ## CXL.mem and the port (17 R397 to R407) -/

/-- A line that is a whole number of units is kept by rounding down to units. -/
theorem div_mul_of_aligned {a u : Nat} (h : a % u = 0) : a / u * u = a := Nat.div_mul_cancel (Nat.dvd_of_mod_eq_zero h)

/-- Settles O38: an access is told apart by its line's target; no decoder but the committed one can overlap. -/
theorem cxlMemory : Obligations.CxlMemory := by
  refine ⟨fun s hpa cacheable exclusive err l k o v hup hl htarget hctl htrip => ?read,
    fun s hpa cacheable exclusive err l hup hl htarget => ?readOutside, fun s hpa data poison l k o v st hup hl htarget hctl htrip hst => ?write,
    fun s hpa data poison l hup hl htarget => ?writeOutside, fun s hpa l hup hl => ?partialWrite, fun s line hout => ?biRsp, fun s line => ?snoop,
    fun s index base size dpa hindex hup hbase hsize hothers => ?commit, fun s hheld => ?reset, fun s width rate htrains hwidth hrate => ?linkUp⟩
  case read =>
    show execCxlMemRead hpa cacheable exclusive err s = _
    simp only [execCxlMemRead, done, hup, hl, htarget, State.hostLine, hctl, htrip, Bool.not_true, Bool.false_eq_true, if_false, if_true]
  case readOutside =>
    show execCxlMemRead hpa cacheable exclusive err s = _
    simp only [execCxlMemRead, done, hup, hl, htarget, Bool.not_false, if_true]
  case write =>
    show execCxlMemWrite hpa data poison s = _
    simp only [execCxlMemWrite, done, hup, hl, htarget, hctl, htrip, Bool.not_true, Bool.false_eq_true, if_false, if_true]
  case writeOutside =>
    show execCxlMemWrite hpa data poison s = _
    simp only [execCxlMemWrite, done, hup, hl, htarget, Bool.not_false, if_true]
  case partialWrite =>
    show execMemWrPtl hpa s = _
    simp only [execMemWrPtl, done, hup, hl, if_true]
  case biRsp => exact congrArg done (if_pos hout)
  case snoop => rfl
  case commit =>
    have hfree : (upto 4).any (fun k => k != index && (s.hdm? k).committed && overlaps dpa size (s.hdm? k).dpa (s.hdm? k).size) = false := by
      simp only [List.any_eq_false, Bool.and_eq_true, bne_iff_ne, not_and]
      intro k hk hne
      simp [hothers k (by simpa [upto] using hk) hne.1] at hne
    show execHdmDecoderCommit index base size dpa s = _
    simp only [execHdmDecoderCommit, done, Nat.not_le.mpr hindex, hup, div_mul_of_aligned hbase, div_mul_of_aligned hsize,
      decide_false, Bool.not_true, Bool.or_self, Bool.false_eq_true, if_false]
    rw [if_neg (by rw [hfree]; exact Bool.false_ne_true)]
  case reset =>
    show execCxlPortReset false s = _
    simp only [execCxlPortReset, done, Bool.false_eq_true, if_false, hheld, List.map_nil, List.foldl_nil]
  case linkUp => exact congrArg done (if_pos (by simp [htrains, hwidth, hrate]))

/-! ## The DOE mailbox and SPDM (17 R408 to R411) -/

/-- Changes of the port that agree on the port that is there agree. -/
theorem onCxl_congr {s : State} {f g : Cxl → Cxl} (h : f s.cxl = g s.cxl) : s.onCxl f = s.onCxl g :=
  congrArg (fun c => { s with cxl := c }) h

section
variable {s : State} (hreq : s.cxl.doeReq = true) (herr : s.cxl.doeErr = false)
include hreq herr

/-- A request that waits in a mailbox without an error is answered. -/
theorem doeAnswer_of_waiting (f : State → List Byte × State) :
    s.doeAnswer f = (f s).2.onCxl (fun c => { c with doeReq := false, doeSnap := [], doeResp := some (f s).1 }) :=
  if_pos (by simp [hreq, herr])

/-- An SPDM request that waits is answered in its data object. -/
theorem spdmAnswer_of_waiting (f : State → List Byte × State) :
    s.spdmAnswer f = (f s).2.onCxl (fun c => { c with doeReq := false, doeSnap := [], doeResp := some (doeObject 0x0001 1 (f s).1) }) :=
  doeAnswer_of_waiting hreq herr _

/-- One that needs the algorithms is answered once they are negotiated. -/
theorem spdmAfter_of_negotiated (halgs : s.cxl.spdmAlgs = true) (f : State → List Byte × State) :
    s.spdmAfter f = (f s).2.onCxl (fun c => { c with doeReq := false, doeSnap := [], doeResp := some (doeObject 0x0001 1 (f s).1) }) := by
  rw [State.spdmAfter, spdmAnswer_of_waiting hreq herr]
  simp only [halgs, if_true]

end

/-- Settles O40: every answer through `doeAnswer_of_waiting`. -/
theorem doeAndSpdm : Obligations.DoeAndSpdm := by
  refine ⟨fun s bytes hup herr hbytes => ?request, fun s hup => congrArg done (if_pos hup), fun s hreq herr => ?answers⟩
  case request =>
    show execDoeRequest bytes true s = _
    simp only [execDoeRequest, done, hup, herr, Bool.not_true, Bool.or_self, Bool.false_eq_true, if_false]
    refine congrArg _ (onCxl_congr ?_)
    cases s.cxl.doeReq <;> simp [Nat.not_lt.mpr hbytes]
  case answers =>
    intro answer spdm
    refine ⟨fun k hk => ?discovery, fun k => ?cdat, ?version, ?capabilities, fun r h => ?algorithms, fun code => ?unsupported, fun halgs =>
      ⟨?digests, fun off len hoff => ?certificate, fun nonce => ?challenge, fun k nonce hmin hmax => ?measurements⟩⟩
    case discovery =>
      have hk' : doeProtocols.getD k (0xFFFF, 0) = doeProtocols.getD k (0, 0) := by interval_cases k <;> rfl
      refine congrArg done ((doeAnswer_of_waiting hreq herr _).trans ?_)
      simp only [hk']
    case cdat => exact congrArg done (doeAnswer_of_waiting hreq herr _)
    case version => exact congrArg done (spdmAnswer_of_waiting hreq herr _)
    case capabilities => exact congrArg done (spdmAnswer_of_waiting hreq herr _)
    case algorithms => exact congrArg done (spdmAnswer_of_waiting hreq herr _)
    case unsupported => exact congrArg done (spdmAnswer_of_waiting hreq herr _)
    case digests => exact congrArg done (spdmAfter_of_negotiated hreq herr halgs _)
    case certificate =>
      refine congrArg done ((spdmAfter_of_negotiated hreq herr halgs _).trans ?_)
      simp [Nat.not_le.mpr hoff]
    case challenge => exact congrArg done (spdmAfter_of_negotiated hreq herr halgs _)
    case measurements =>
      have hone : ¬ k = 0 := by omega
      have hall : ¬ k = 0xFF := by omega
      refine congrArg done ((spdmAfter_of_negotiated hreq herr halgs _).trans ?_)
      simp [hone, hall, Nat.not_lt.mpr hmax]

/-! ## I3C (17 R412 to R417) -/

section
variable {s : State} {x : I3cTarget} (h : tgtThere s x = true)
include h

/-- A CCC acts on a target that is on its bus. -/
theorem ccc_of_there {f g : I3cTgt → I3cTgt} (hfg : ∀ t, f t = g t) : s.ccc x f = s.onTgt x g :=
  (if_pos h).trans (congrArg (s.onTgt x) (funext hfg))

end

/-- Settles O41: every CCC through `ccc_of_there`. -/
theorem i3cCccs : Obligations.I3cCccs := by
  intro s x h set get
  refine ⟨fun a ha => ?entdaa, ?rstdaa, fun a ha => ?setnewda, ?getpid, ?getbcr, ?getdcr, ?getstatus, ?getmwl, ?getmrl, fun n hn hn' => ?setmwl,
    fun n hn hn' => ?setmrl, ?enec, ?disec⟩
  case entdaa => exact congrArg done (ccc_of_there h fun t => by simp [Nat.not_le.mpr ha])
  case rstdaa => exact congrArg done (ccc_of_there h fun _ => rfl)
  case setnewda => exact congrArg done (ccc_of_there h fun t => by simp [ha])
  case getpid => exact congrArg done (ccc_of_there h fun _ => rfl)
  case getbcr => exact congrArg done (ccc_of_there h fun _ => rfl)
  case getdcr => exact congrArg done (ccc_of_there h fun _ => rfl)
  case getstatus => exact congrArg done (ccc_of_there (s := (s.drawBytes 2).2) h fun _ => rfl)
  case getmwl => exact congrArg done (ccc_of_there h fun _ => rfl)
  case getmrl => exact congrArg done (ccc_of_there h fun _ => rfl)
  case setmwl => exact congrArg done (ccc_of_there h fun t => by simp [hn, hn'])
  case setmrl => exact congrArg done (ccc_of_there h fun t => by simp [hn, hn'])
  case enec => exact congrArg done (ccc_of_there h fun _ => rfl)
  case disec => exact congrArg done (ccc_of_there h fun _ => rfl)

/-- A well-formed request of a row's operation and length is answered with what the row gives. -/
theorem mgmtRequest_of_form {s u : State} {x : I3cTarget} {frame pl : List Byte} {ops : Nat → Bool} {len : Option Nat} {st : Stat}
    {g : List Byte → State → Stat × List Byte × State} (hthere : tgtThere s x = true) (haddr : (s.tgt x).addr.isSome = true)
    (hform : frameOk frame = true) (hop : ops (fld frame 0 1) = true) (hlen : ∀ n ∈ len, fld frame 2 2 = n)
    (hg : g (framePayload frame) s = (st, pl, u)) :
    s.mgmtRequest x frame ops len g = u.mgmtRespond x (responseFrame frame st pl) := by
  have hnone : (s.tgt x).addr.isNone = false := by simpa using haddr
  unfold State.mgmtRequest
  rw [if_neg (by simp [hthere, hnone, hop])]
  cases len with
  | none => simp [hform, hg]
  | some n => simp [hform, hlen n rfl, hg]

/-- Settles O42: every request through `mgmtRequest_of_form`. -/
theorem i3cRequests : Obligations.I3cRequests := by
  refine ⟨fun s x frame hthere haddr hform => ?requests, fun s frame hthere haddr hform hop hlen hword hcores => ?reset, fun s x hthere => ?read⟩
  case requests =>
    intro answer
    refine ⟨fun hop hlen => ?ident, fun hop hlen => ?health, fun hop hlen hx hmin hmax => ?cap,
      fun hop hlen hrange hal => ?box, fun hop => ?other⟩
    case ident => exact congrArg done (mgmtRequest_of_form hthere haddr hform (by simp [hop]) (by simpa using hlen) rfl)
    case health => exact congrArg done (mgmtRequest_of_form hthere haddr hform (by simp [hop]) (by simpa using hlen) rfl)
    case cap =>
      subst hx
      refine congrArg done (mgmtRequest_of_form hthere haddr hform (by simp [hop]) (by simpa using hlen) ?_)
      simp [Nat.not_lt.mpr hmin, Nat.not_lt.mpr hmax]
    case box =>
      refine congrArg done (mgmtRequest_of_form hthere haddr hform (by simp [hop]) (by simpa using hlen) ?_)
      simp [Nat.not_le.mpr hrange, hal]
    case other =>
      have hother : (!(decide (1 ≤ fld frame 0 1) && decide (fld frame 0 1 ≤ 5))) = true := by
        simp only [Bool.not_eq_true', Bool.and_eq_false_iff, decide_eq_false_iff_not]
        omega
      exact congrArg done (mgmtRequest_of_form hthere haddr hform hother (by simp) rfl)
  case reset =>
    intro u
    have haddr' : s.i3c.addr.isSome = true := haddr
    show execI3cReset .main frame s = _
    rw [execI3cReset, mgmtRequest_of_form (u := s) (st := .ok) (pl := []) hthere haddr hform (by simp [hop]) (by simpa using hlen)
      (by simp [hword])]
    have hresp : u.i3c.resp = some (responseFrame frame .ok []) := rfl
    exact congrArg done (if_pos (by simp [hop, haddr', hcores, show (s.mgmtRespond .main _).i3c.resp = some _ from hresp]))
  case read => exact congrArg done (ccc_of_there hthere fun _ => rfl)

end Sys2Proof.Machine
end

section
/-!
Starts, rails, clocks, cores (18, 21), and power and heat (19): the obligations on their events.
-/

namespace Sys2Proof.Machine

/-! ## Starts (18 R421, R423) -/

/-- The level-0 set does not depend on what the cores have done since the release. -/
theorem levelZero_bootCores (u : State) (f : StartFindings) (ns : Nat) (l : List Nat) :
    levelZero ((u.after ns).bootCores l) f = (!(coresOf u f).isEmpty && f.rom && f.box && f.i3c && f.sprue) := rfl

/-- A release of reset with the rails of PX good runs the start where the level-0 set is there, and leaves the device dead where it is not. -/
theorem release_of_rails {s : State} {found : StartFindings} (mem : MemFindings) (hoff : s.boot.phase = .off) (hpx : Rail.px ∉ found.badRails)
    (hio : Rail.io18 ∉ found.badRails) (hcool : s.boot.shutdown = true → found.cool = true) :
    let u := ((s.onTime (fun _ => 0)).onBoard (fun b => { b with
      badRails := found.badRails
      lostRefs := [] })).onBoot (fun b => { b with shutdown := b.shutdown && b.cause != 0 })
    let v := (u.after 2000000).bootCores (coresOf u found)
    execPowerOnResetRelease found mem s = done (if !levelZero v found then v.onBoot (fun b => { b with phase := .dead }) else
      v.runStart found mem) := by
  have hready : (decide (s.boot.phase ≠ .off) || found.badRails.contains .px || found.badRails.contains .io18 ||
      (s.boot.shutdown && !found.cool)) = false := by
    cases hshut : s.boot.shutdown with
    | false => simp [hoff, hpx, hio]
    | true => simp [hoff, hpx, hio, hcool hshut]
  simp only [execPowerOnResetRelease, hready, Bool.false_eq_true, if_false]

/-- Settles O43: a release through `release_of_rails`; each other event finds what it takes or brings. -/
theorem startsAndRails : Obligations.StartsAndRails := by
  refine ⟨fun s found mem hoff hpx hio hcool => ?release, fun s mem units hph => ?firstPause, fun s mem units hph => ?secondPause, fun s => ?assert,
    fun s => ⟨?pxLost, ?ioLost⟩, fun s r hpx hio hgood hon halive => ?railLost, fun s f m hph hheld hmissing => ?refComes,
    fun s r hr hon halive => ?refGoes, fun s k hk hcores hhealthy => ?beat, fun s k hk hcores hhealthy => ?miss,
    fun s cluster cause hthere hph => ?clusterFail, fun s => ?perst⟩
  case release =>
    intro u v
    refine ⟨fun hcore hrom hbox hi3c hsprue => ?_, fun hmissing => ?_⟩ <;> refine (release_of_rails mem hoff hpx hio hcool).trans ?_
    · have hzero : levelZero v found = true := by
        rw [levelZero_bootCores]
        simp [hcore, hrom, hbox, hi3c, hsprue]
      rw [hzero]
      rfl
    · have hzero : levelZero v found = false := by
        rw [levelZero_bootCores]
        rcases hmissing with h | h | h | h | h <;> simp [h]
      rw [hzero]
      rfl
  case firstPause =>
    show execRetentionPauseEnd mem units s = _
    simp only [execRetentionPauseEnd, done, hph]
  case secondPause =>
    show execRetentionPauseEnd mem units s = _
    simp only [execRetentionPauseEnd, done, hph]
  case assert => rfl
  case pxLost => rfl
  case ioLost => rfl
  case railLost =>
    show execRailOutOfRange r s = _
    simp [execRailOutOfRange, done, hpx, hio, hgood, hon, halive]
  case refComes =>
    show execRefclkDetected .sys s = _
    simp [execRefclkDetected, done, hph, hheld]
  case refGoes =>
    show execRefclkMissing r s = _
    simp [execRefclkMissing, done, hr, hon, halive]
  case beat =>
    show execCoreHeartbeat k s = _
    simp [execCoreHeartbeat, done, Nat.not_le.mpr hk, hcores, hhealthy]
  case miss =>
    intro u held v w hdoe hother
    have hcarried : (held.contains 3 && w.cxl.doeReq) = false := by rw [hdoe, Bool.and_false]
    have hleft : (upto 4).any (fun k' => (Tab.get .init (w.unitFailed 7 k).cores k').healthy) = true := by
      simpa [upto] using hother
    show execHeartbeatMiss k s = _
    simp only [execHeartbeatMiss, done, Nat.not_le.mpr hk, hcores, hhealthy, decide_false, Bool.not_true, Bool.or_self, Bool.false_eq_true,
      if_false]
    rw [if_neg (ne_true_of_eq_false hcarried), if_pos hleft]
  case clusterFail =>
    show execClusterFail cluster cause s = _
    simp [execClusterFail, done, hthere, hph]
  case perst => rfl

/-! ## Power and heat (19 R447 to R459) -/

/-- Settles O44: each event finds the controller at work, and its own test decides. -/
theorem powerAndHeat : Obligations.PowerAndHeat := by
  refine ⟨fun s w hruns hunder => ?sample, fun s w hruns hover => ?cut, fun s parts fixed hruns => ⟨?period, fun w => ?periodSample⟩,
    fun s p hp hruns => ?settled, fun x k => ⟨rfl, fun hk => ?waits⟩, fun s p mv hp hruns => ?good, fun s p mv hp hruns => ?bad,
    fun s c hexposed hruns => ?droop, fun s c n hc => ?recover, fun s temps hcores hph hnone => ?thermal⟩
  case sample =>
    have hcut : overCap s w = false := by simpa [overCap] using hunder
    show execPowerSample w s = _
    simp only [execPowerSample, done, hruns, State.takeSample, hcut, Bool.false_eq_true, if_true, if_false]
  case cut =>
    have hcut : overCap s w = true := by simpa [overCap] using hover
    show execPowerSample w s = _
    simp only [execPowerSample, done, hruns, State.takeSample, hcut, if_true]
  case period => exact congrArg done (if_pos hruns)
  case periodSample => exact congrArg done (if_pos hruns)
  case settled => exact congrArg done (if_neg (by simp [hruns, hp]))
  case waits => exact if_pos (by simp [hk])
  case good =>
    show execAvsReadback p true mv s = _
    simp [execAvsReadback, done, Nat.not_le.mpr hp, hruns]
  case bad =>
    intro x u k
    have hexec : execAvsReadback p false mv s = done (if x.lost || x.fails < 2 then u else
        (u.onPart p (fun x => { x.moveTo (stretching u p) (min x.point k) with lost := true, rising := none })).devEvent 0x10 .uncorrectable p
          x.confirmed) := by
      simp only [execAvsReadback, Nat.not_le.mpr hp, hruns, decide_false, Bool.not_true, Bool.or_self, Bool.false_eq_true, if_false]
      rfl
    refine ⟨fun hkept => hexec.trans (congrArg done (if_pos (by simpa using hkept))), fun hlost hfails => ?_⟩
    have hthird : (x.lost || decide (x.fails < 2)) = false := by simp only [hlost, Nat.not_lt.mpr hfails, decide_false, Bool.or_self]
    exact hexec.trans (congrArg done (if_neg (ne_true_of_eq_false hthird)))
  case droop =>
    show execDroopTrip c s = _
    simp [execDroopTrip, done, hexposed, hruns]
  case recover =>
    show execDroopRecover c n s = _
    simp [execDroopRecover, done, hc]
  case thermal =>
    intro u v
    show execThermalSample temps s = _
    simp only [execThermalSample, done, hcores, hnone, Bool.not_true, Bool.false_eq_true, if_false]
    exact congrArg _ (if_neg hph)

end Sys2Proof.Machine
end
